-- ==== Sys2Proof/Word.lean ====
section
/-! DEFINITION. The machine's word sizes (R6): byte, half, word, double and quad. -/

namespace Sys2Proof

/-- 8 bits (R6). -/
abbrev Byte := BitVec 8
/-- 32 bits (R6): one word of an instruction stream (R49). -/
abbrev Word := BitVec 32
/-- 64 bits (R6): one register. -/
abbrev Dbl := BitVec 64

end Sys2Proof
end

