-- ==== Sys2Proof/Syntax.lean ====
section
/-! DEFINITION. The words of the machine's steps: one constructor of `Instr` for each row of
spec/opcode_table.json. The rows are of two kinds: events of the agents (bring-up, chain, hubs, walkers,
host and Lockring), whose constructors name the agent they act on, and the words of the five instruction
streams, whose constructors hold the operand fields of R130, R178, R205 and R243. A core is named by its
package-wide index 24 x die + core (R21). -/

namespace Sys2Proof

/-- The chain bits of a word (R25). -/
structure Chain where
  wp : Bool
  wn : Bool
  sp : Bool
  sn : Bool
  deriving DecidableEq, Repr

def Chain.none : Chain := ⟨false, false, false, false⟩

/-- The five engines of a core in the order of the ring (R23). -/
inductive Engine where
  | seq | load | vec | mat | store
  deriving DecidableEq, Repr

/-- An operand selector of the sequencer (R120) with its last-read mark (R121). Only a named register can
carry the mark. -/
inductive Src where
  | belt (i : BitVec 4)
  | named (k : BitVec 4) (last : Bool)
  deriving DecidableEq, Repr

/-- The destination of R120: onto the belt (ND = 0) or into a named register (ND = 1). -/
inductive Dest where
  | belt
  | named (k : BitVec 4)
  deriving DecidableEq, Repr

/-- An immediate field of `w` bits followed by 0, 1 or 2 EXT words (R50). -/
inductive Imm (w : Nat) where
  | e0 (v : BitVec w)
  | e1 (v : BitVec (w + 22))
  | e2 (v : BitVec (w + 44))
  deriving DecidableEq, Repr

/-- TY of the sequencer's integer instructions (R131). -/
inductive IntTy where
  | s64 | z64 | s32 | z32
  deriving DecidableEq, Repr

/-- Condition codes of the sequencer (R131). -/
inductive Cond where
  | eq | ne | lt | ge | gt | le | lo | hs | hi | ls
  deriving DecidableEq, Repr

/-- SZ of LD (R131). -/
inductive LdSz where
  | z8 | s8 | z16 | s16 | z32 | s32 | d64
  deriving DecidableEq, Repr

/-- SZ of ST (R131). -/
inductive StSz where
  | byte | half | word | double
  deriving DecidableEq, Repr

/-- Scopes (R20, R131). -/
inductive Scope where
  | core | quad | die | pkg | pod
  deriving DecidableEq, Repr

/-- The queue a PUSH names (R131). -/
inductive Queue where
  | load | vec | mat | store
  deriving DecidableEq, Repr

/-- TY of the hub atomics (R281). -/
inductive AtTy where
  | s64 | z64 | s32 | z32 | f64 | f32 | f16x2 | bf16x2
  deriving DecidableEq, Repr

/-- KIND of BPQRY (R297). -/
inductive BpQuery where
  | mask
  | slot (a : Src)
  | pend
  deriving DecidableEq, Repr

/-- KIND of FWQRY (R322). -/
inductive FwKind where
  | hit | hitc | miss | viol | unc | ent
  deriving DecidableEq, Repr

/-- Rounding modes (R105). -/
inductive Rm where
  | rne | rz | rpi | rmi
  deriving DecidableEq, Repr

/-- Element format codes 0 to 9 (R71). -/
inductive Fmt where
  | raw | f64 | f32 | f16 | bf16 | e4m3 | e5m2 | mx8 | mx6 | mx4
  deriving DecidableEq, Repr

/-- TY of ACC (R288). -/
inductive AccTy where
  | s64 | s32 | f64 | f32 | f16x2 | bf16x2
  deriving DecidableEq, Repr

/-- Vector types (R198). -/
inductive VTy where
  | f64 | f32 | f16 | bf16 | s64 | z64 | s32 | z32
  deriving DecidableEq, Repr

/-- The floating vector types, TF (R198). -/
inductive FTy where
  | f64 | f32 | f16 | bf16
  deriving DecidableEq, Repr

/-- The integer vector types. -/
inductive ITy where
  | s64 | z64 | s32 | z32
  deriving DecidableEq, Repr

/-- FLD of PSET (R203). -/
inductive PsField where
  | base | step | lstr | gsel
  deriving DecidableEq, Repr

/-- Conditions of VCMP (R206). -/
inductive VCond where
  | eq | ne | lt | le | gt | ge | un
  deriving DecidableEq, Repr

/-- op of VRED (R215). -/
inductive RedOp where
  | add | min | max
  deriving DecidableEq, Repr

/-- op of VSCAN (R216). -/
inductive ScanOp where
  | add | addx | min | max
  deriving DecidableEq, Repr

/-- MF of VQNT and VDQ (R206). -/
inductive MxTy where
  | mx8 | mx6 | mx4
  deriving DecidableEq, Repr

/-- SIDE of MCLAIM and MREL (R243). -/
inductive MSide where
  | a | b | acc
  deriving DecidableEq, Repr

/-- PRE of MTAB (R238). -/
inductive Preset where
  | r | c | s | h | g2 | g3
  deriving DecidableEq, Repr

/-- MODE of MFILL (R243). -/
inductive FillMode where
  | const | comp | diag
  deriving DecidableEq, Repr

/-- FMT of MFILL on slots (R245). -/
inductive FillFmt where
  | f16 | bf16 | e4m3 | e5m2
  deriving DecidableEq, Repr

/-- Fields of a multiply word (R243). -/
structure MulWord where
  pg : BitVec 3
  st : BitVec 2
  ca : Bool
  cb : Bool
  klenM1 : BitVec 14
  aadr : BitVec 16
  badr : BitVec 16
  deriving DecidableEq, Repr

/-- Fields of MOUT and MACCLD (R243). -/
structure OutWord where
  pl : BitVec 3
  df : FTy
  row0 : BitVec 7
  nrowM1 : BitVec 7
  soff : BitVec 19
  sstr : BitVec 19
  deriving DecidableEq, Repr

/-- Fields of MFILL on slots (R243). -/
structure FillWord where
  sideB : Bool
  mode : FillMode
  fmt : FillFmt
  nc : BitVec 2
  csel : BitVec 3
  blk : Bool
  kl : BitVec 8
  addr : BitVec 16
  val : BitVec 16
  deriving DecidableEq, Repr

/-- Fields of CVD and CVQ (R178). -/
structure CvWord where
  ch : BitVec 2
  sf : Fmt
  df : Fmt
  rm : Rm
  sat : Bool
  blk : Bool
  had : Bool
  lead : Bool
  len : BitVec 22
  deriving DecidableEq, Repr

/-- A link of the package (R17): a die-to-die boundary (24, numbered 0 to 23), a fabric port (18) or the host
link. -/
inductive LinkId where
  | boundary (n : Nat)
  | port (n : Nat)
  | host
  deriving DecidableEq, Repr

/-- How a bring-up stage ends (R9, R12): it succeeds, having moved the failed lanes of the named boundaries
onto spares (calibration), or it fails with a cause and a die. -/
inductive StageResult where
  /-- Lanes moved onto a spare: 2 x boundary + direction. -/
  | ok (remaps : List Nat)
  | failed (cause : BitVec 8) (die : BitVec 4)
  deriving DecidableEq, Repr

/-- A register under parity (R122). -/
inductive ParityReg where
  | belt (i : BitVec 4)
  | named (k : BitVec 4)
  | shadow (i : BitVec 4)
  | special (csr : BitVec 10)
  /-- A register of an engine of the core, which has no duplicate (R18). -/
  | engine (eng : Engine)
  deriving DecidableEq, Repr

/-- The unit of an array in which an uncorrectable error was found (R267). -/
inductive ArrayUnit where
  | aMemory | bMemory | accumulators | cells
  deriving DecidableEq, Repr

/-- A resource shared in windows (R362). -/
inductive ShareRes where
  | hbm (die : Nat)
  | fabric (port : Nat)
  | boundary (n : Nat)
  | host
  deriving DecidableEq, Repr

/-- The operation of an atomic at its home (R281, R283). -/
inductive Machine.AtOp where
  | ld | st | add | and | or | xor | min | max | swp | cas | cas128 | fadd | fmin | fmax
  deriving DecidableEq, Repr

/-- What arrives from outside the package: PCIe resets and accesses of the host, the text of DOE mailboxes, and
pages of a migration. `mb` is the function whose mailbox carries a message. -/
inductive HostMsg where
  | functionLevelReset (fn : Nat)
  | doorbell (fn : Nat) (wq : Nat) (va : Dbl)
  | create (fn : BitVec 8)
  | destroy (fn : BitVec 8)
  | setQuads (fn : BitVec 8)
  | setShares (fn : BitVec 8)
  | migrateOut (fn : BitVec 8)
  | acceptMigration (fn : BitVec 8)
  | pageExport (fn : BitVec 8) (ipa : BitVec 31)
  | pageImport (fn : BitVec 8) (ipa : BitVec 31)
  | actRetry (fn : Nat) (wq : Nat)
  | actValue (fn : Nat) (wq : Nat)
  | actEnd (fn : Nat) (wq : Nat)
  | invvaWrite (fn : Nat) (wq : Nat) (value : Dbl)
  | registerWrite (fn : Nat) (offset : Nat) (size : Nat) (value : Dbl)
  | configWrite (fn : Nat) (offset : Nat) (value : Word)
  | ideIntegrityFailure (fn : Nat)
  | getVersion (mb : Nat)
  | getCapabilities (mb : Nat)
  | negotiateAlgorithms (mb : Nat) (offersSupported : Bool)
  | getDigests (mb : Nat)
  | getCertificate (mb : Nat) (slot : Nat) (offset : Nat) (length : Nat)
  | challenge (mb : Nat) (slot : Nat) (nonce : List Byte)
  | getMeasurements (mb : Nat) (index : Nat) (nonce : List Byte)
  | keyExchange (mb : Nat) (slot : Nat) (nonce : List Byte)
  | finish (mb : Nat) (session : Nat) (verified : Bool)
  | endSession (mb : Nat) (session : Nat)
  | heartbeat (mb : Nat) (session : Nat)
  | keyUpdate (mb : Nat) (session : Nat)
  | ideKm (mb : Nat) (session : Nat) (secure : Bool)
  | unsupportedSpdmRequest (mb : Nat) (code : Byte)
  | lockInterfaceRequest (fn : Nat) (session : Nat)
  | startInterfaceRequest (fn : Nat) (session : Nat) (nonce : List Byte)
  | stopInterfaceRequest (fn : Nat) (session : Nat)
  | getDeviceInterfaceReport (fn : Nat) (session : Nat)
  | getDeviceInterfaceState (fn : Nat) (session : Nat)
  | bindP2p (fn : Nat) (session : Nat)
  | setMmioAttribute (fn : Nat) (session : Nat)
  | migrationPageArrival (fn : Nat) (ipa : Nat) (page : List Byte)
  | doeDiscovery (mb : Nat) (index : Nat)
  /-- A read of a BAR0 register (R7, R11, R13, R303, R338). -/
  | registerRead (fn : Nat) (offset : Nat) (size : Nat) (tag : Nat)
  /-- Accesses that the host, or a peer, sends into memory of this package through a function's stage 2 (R62, R273, R368);
  each lies in one line. -/
  | memoryRead (peer : Bool) (fn : Nat) (ipa : Nat) (length : Nat) (tag : Nat)
  | memoryWrite (peer : Bool) (fn : Nat) (ipa : Nat) (data : List Byte)
  | peerAtomic (fn : Nat) (ipa : Nat) (op : Machine.AtOp) (ty : AtTy) (v : BitVec 128) (x : BitVec 128) (tag : Nat)
  /-- A core of another package arrives at a barrier of scope `.pod` (R20, R149). -/
  | barrierArrival (fn : Nat) (id : Nat) (n : Nat) (who : Nat)
  deriving DecidableEq, Repr

/-- One step of the machine: a row of spec/opcode_table.json. -/
inductive Instr where
  -- bring-up, resets and errors (R9 to R18, R122, R264, R381)
  | bringupStageDone (r : StageResult)
  | hbmUncorrectableRead (line : Nat)
  | hbmRereadResult (line : Nat) (ok : Bool)
  | linkFlitCheckFail (link : LinkId)
  | linkRetransmitResult (link : LinkId) (ok : Bool)
  | registerParityError (core : Nat) (reg : ParityReg) (duplicate : Bool)
  | parityRepairDone (core : Nat)
  | arrayUncorrectableError (quad : Nat) (unit : ArrayUnit)
  -- chain, engines and leases (R27 to R42)
  | pendingSignalDelivered (core : Nat) (eng : Engine)
  | engineWordComplete (core : Nat) (eng : Engine) (wid : Nat)
  | commandRetire (core : Nat) (eng : Engine)
  | bodyFetch (core : Nat) (eng : Engine)
  | bodyFetchFaultTaken (core : Nat) (eng : Engine)
  | leaseRequest (core : Nat)
  | leaseGrant (quad : Nat)
  | leaseCycleLimit (quad : Nat)
  -- landing, stalls, barriers and monitors (R126 to R128, R149, R286, R287, R191, R226)
  | landingDrop (core : Nat)
  | lateLandingFreeze (core : Nat)
  | landingDataArrived (core : Nat) (id : Nat)
  | sequencerStallRelease (core : Nat)
  | barrierRelease (fn : Nat) (scope : Scope) (inst : Nat) (id : Nat)
  | monitorWake (core : Nat)
  | monitorRearmTimer (core : Nat)
  | probeFillComplete (core : Nat) (slot : Nat)
  | vectorRelocation (owner : Nat)
  -- home slices (R83, R84, R85, R93, R273, R274)
  | hubRequestArrive (req : Nat)
  | hubLookup (slice : Nat)
  | hbmFillArrive (slice : Nat) (line : Nat)
  | hbmRowClose (die : Nat) (row : Nat)
  | atomicOperation (req : Nat)
  | replicaInvalidate (die : Nat) (line : Nat)
  | replicaAckComplete (req : Nat)
  | replicationWindowEnd (die : Nat)
  | fenceSweepAnswer (core : Nat) (die : Nat)
  -- Backpedal accumulation (R290 to R294)
  | addendVerdict (req : Nat)
  | priorityAddendEntry (slice : Nat)
  | verdictReceived (req : Nat)
  | refusedAddendHeld (req : Nat)
  | addendApply (req : Nat)
  | applyNotice (req : Nat)
  | residualAgeExpiry (core : Nat) (slot : Nat)
  -- walker and Freewheel (R301 to R331)
  | submissionDecided (die : Nat)
  | recordStart (fn : Nat) (wq : Nat)
  | taskDispatch (die : Nat)
  | freewheelCleanHit (die : Nat)
  | freewheelDirtyHitDone (die : Nat)
  | freewheelEntryMade (core : Nat)
  | watchMessage (msg : Nat)
  | taskComplete (core : Nat)
  | priorityDonation (core : Nat)
  | donationTimeout (core : Nat)
  | yieldOffer (core : Nat)
  -- Derailleur's mechanisms (R80, R346, R347, R361 to R364, R381)
  | hangWatchdogExpiry (core : Nat)
  | stopComplete (core : Nat)
  | stopDeadlineExpiry (core : Nat)
  | invalidationEpochDrained (fn : Nat)
  | thermalThrottle (die : Nat)
  | thermalDutyStep (die : Nat)
  | thermalStop (die : Nat)
  | thermalRecover (die : Nat)
  | powerLimitFreeze (die : Nat) (core : Nat) (on : Bool)
  | shareWindow (res : ShareRes)
  -- sequencer: integer words (R133, R134)
  | add (a b : Src) (d : Dest) (ty : IntTy)
  | sub (a b : Src) (d : Dest) (ty : IntTy)
  | and (a b : Src) (d : Dest) (ty : IntTy)
  | or (a b : Src) (d : Dest) (ty : IntTy)
  | xor (a b : Src) (d : Dest) (ty : IntTy)
  | andn (a b : Src) (d : Dest) (ty : IntTy)
  | shl (a b : Src) (d : Dest) (ty : IntTy)
  | shr (a b : Src) (d : Dest) (ty : IntTy)
  | sar (a b : Src) (d : Dest) (ty : IntTy)
  | rol (a b : Src) (d : Dest) (ty : IntTy)
  | min (a b : Src) (d : Dest) (ty : IntTy)
  | max (a b : Src) (d : Dest) (ty : IntTy)
  | mul (a b : Src) (d : Dest) (ty : IntTy)
  | mulh (a b : Src) (d : Dest) (ty : IntTy)
  | div (a b : Src) (d : Dest) (ty : IntTy)
  | rem (a b : Src) (d : Dest) (ty : IntTy)
  | neg (a : Src) (d : Dest) (ty : IntTy)
  | clz (a : Src) (d : Dest) (ty : IntTy)
  | ctz (a : Src) (d : Dest) (ty : IntTy)
  | popc (a : Src) (d : Dest) (ty : IntTy)
  | mov (a : Src) (d : Dest) (ty : IntTy)
  | cmp (a b : Src) (d : Dest) (cc : Cond)
  | addi (a : Src) (d : Dest) (imm : Imm 11)
  | andi (a : Src) (d : Dest) (imm : Imm 11)
  | ori (a : Src) (d : Dest) (imm : Imm 11)
  | xori (a : Src) (d : Dest) (imm : Imm 11)
  | shli (a : Src) (d : Dest) (ty : IntTy) (amt : BitVec 6)
  | shri (a : Src) (d : Dest) (ty : IntTy) (amt : BitVec 6)
  | sari (a : Src) (d : Dest) (ty : IntTy) (amt : BitVec 6)
  | li (d : Dest) (imm : Imm 17)
  | sel (c a b : Src) (d : Dest)
  | extb (a : Src) (d : Dest) (sgn : Bool) (pos : BitVec 6) (lenM1 : BitVec 6)
  | insb (a b : Src) (d : Dest) (pos : BitVec 6) (lenM1 : BitVec 6)
  | idx (lv : BitVec 2) (d : Dest) (imm : Imm 15)
  | csrr (csr : BitVec 10) (d : Dest)
  | csrw (csr : BitVec 10) (a : Src)
  | ld (base : Src) (d : Dest) (sz : LdSz) (slot : BitVec 8) (off : Imm 0)
  | st (base data : Src) (sz : StSz) (off : Imm 0)
  -- sequencer: control (R140 to R155)
  | b (off : Imm 22)
  | bcc (a b : Src) (cc : Cond) (off : Imm 6)
  | jmp (a : Src) (off : Imm 16)
  | call (d : Dest) (off : Imm 17)
  | ret (a : Src)
  | loop (n : Src) (stg : BitVec 3) (plen : BitVec 6) (blen : Imm 7)
  | lend (epl : BitVec 6)
  | trap (code : BitVec 16)
  | svc (val : Option Dest) (code : BitVec 16)
  | push (q : Queue) (nq : BitVec 2)
  | wait (ldb stb : BitVec 4) (cpb mtb : BitVec 6)
  | fence (scope : Scope) (sc : Bool)
  | bar (scope : Scope) (id : BitVec 4) (n : Src)
  -- hub atomics, monitors and residuals (R281 to R297); `sb` of ALD is a field the word does not use
  | ald (a : Src) (sb : BitVec 5) (d : Dest) (ty : AtTy) (sc : Bool) (slot : BitVec 8)
  | ast (a v : Src) (ty : AtTy) (sc : Bool)
  | aadd (a v : Src) (d : Dest) (ty : AtTy) (sc : Bool) (slot : BitVec 8)
  | aand (a v : Src) (d : Dest) (ty : AtTy) (sc : Bool) (slot : BitVec 8)
  | aor (a v : Src) (d : Dest) (ty : AtTy) (sc : Bool) (slot : BitVec 8)
  | axor (a v : Src) (d : Dest) (ty : AtTy) (sc : Bool) (slot : BitVec 8)
  | amin (a v : Src) (d : Dest) (ty : AtTy) (sc : Bool) (slot : BitVec 8)
  | amax (a v : Src) (d : Dest) (ty : AtTy) (sc : Bool) (slot : BitVec 8)
  | aswp (a v : Src) (d : Dest) (ty : AtTy) (sc : Bool) (slot : BitVec 8)
  | acas (a expect new : Src) (d : Dest) (ty : AtTy) (sc : Bool) (slot : BitVec 8)
  | acas128 (a : Src) (n : BitVec 2) (sx : BitVec 5) (lx : Bool) (d : Dest) (sc : Bool) (slot : BitVec 8)
  | afadd (a v : Src) (d : Dest) (ty : AtTy) (sc : Bool) (slot : BitVec 8)
  | afmin (a v : Src) (d : Dest) (ty : AtTy) (sc : Bool) (slot : BitVec 8)
  | afmax (a v : Src) (d : Dest) (ty : AtTy) (sc : Bool) (slot : BitVec 8)
  | monw (a v : Src) (d : Dest)
  | monc (a v : Src) (d : Dest)
  | flushres (a : Option Src)
  | bpqry (kind : BpQuery) (d : Dest)
  -- copy control and walker words (R163, R164, R190, R317)
  | probe (a : Src) (d : Dest) (off : Imm 6)
  | pwb (a : Option Src)
  | pinv (a : Option Src)
  | waitx (ch : BitVec 3) (a : Src) (d : Dest)
  | xwr (ch : BitVec 3) (d : Dest)
  | record (a : Src) (d : Dest) (wq : BitVec 3) (slot : BitVec 8)
  | recordHand (a : Src) (d : Dest) (wq : BitVec 3) (slot : BitVec 8)
  | rwait (a : Src) (d : Dest)
  | fwinv (a : Option Src)
  | fwqry (kind : FwKind) (d : Dest)
  -- Derailleur: system and Lockring words (R340 to R345, R371)
  | slmap (a : Src) (d : Dest)
  | slunmap (a : Src) (d : Dest)
  | preempt (a b : Src) (d : Dest)
  | spill (a b : Src) (d : Dest)
  | restore (a b : Src) (d : Dest)
  | snaprd (a b : Src) (d : Dest)
  | wmask (a b : Src) (d : Dest)
  | qpark (a : Src) (d : Dest)
  | qresume (a b : Src) (d : Dest)
  | s1inv (a b : Src) (d : Dest)
  | s2inv (a b : Src) (d : Dest)
  | migout (a : Src) (sb : BitVec 5) (lb : Bool) (d : Dest)
  | migin (a : Src) (sb : BitVec 5) (lb : Bool) (d : Dest)
  | fnbind (a b : Src) (d : Dest)
  | cycr (a : Src) (d : Dest)
  | throt (a b : Src) (d : Dest)
  | dogset (a b : Src) (d : Dest)
  | pgexp (a b : Src) (d : Dest)
  | pgimp (a b : Src) (d : Dest)
  | lkqry (a : Src) (d : Dest)
  -- copy engine bodies (R178 to R183, R288); engineNop is the NOP of every engine stream (R52)
  | ldt (ch : BitVec 2) (xf : Fmt) (rm : Rm) (sat : Bool) (len : Imm 13)
  | stt (ch : BitVec 2) (xf : Fmt) (rm : Rm) (sat : Bool) (len : Imm 13)
  | ldo (ch : BitVec 2) (sideB : Bool) (slot : BitVec 5) (len : Imm 13)
  | gth (ch : BitVec 2) (esz : BitVec 4) (cnt : BitVec 16)
  | sct (ch : BitVec 2) (esz : BitVec 4) (cnt : BitVec 16)
  | cvd (w : CvWord)
  | cvq (w : CvWord)
  | xid (ch : BitVec 2)
  | acc (ch : BitVec 2) (ty : AccTy) (len : Imm 13)
  -- vector bodies (R203 to R224); d, a, b, c, x, s are operand codes of R204
  | pset (ps : BitVec 4) (fld : PsField) (imm : Imm 15)
  | pbind (port : BitVec 2) (ps : BitVec 4)
  | pskip (port : BitVec 2) (n : BitVec 20)
  | vadd (d a b : BitVec 4) (ty : VTy) (rm : Rm) (mk : BitVec 2) (sat : Bool)
  | vsub (d a b : BitVec 4) (ty : VTy) (rm : Rm) (mk : BitVec 2) (sat : Bool)
  | vmul (d a b : BitVec 4) (ty : VTy) (rm : Rm) (mk : BitVec 2) (sat : Bool)
  | vfma (d a b c : BitVec 4) (tf : FTy) (rm : Rm) (mk : BitVec 2)
  | vfms (d a b c : BitVec 4) (tf : FTy) (rm : Rm) (mk : BitVec 2)
  | vfnma (d a b c : BitVec 4) (tf : FTy) (rm : Rm) (mk : BitVec 2)
  | vdiv (d a b : BitVec 4) (tf : FTy) (rm : Rm) (mk : BitVec 2)
  | vsqrt (d a : BitVec 4) (tf : FTy) (rm : Rm) (mk : BitVec 2)
  | vrcp (d a : BitVec 4) (tf : FTy) (rm : Rm) (mk : BitVec 2)
  | vrsq (d a : BitVec 4) (tf : FTy) (rm : Rm) (mk : BitVec 2)
  | vmin (d a b : BitVec 4) (ty : VTy) (mk : BitVec 2)
  | vmax (d a b : BitVec 4) (ty : VTy) (mk : BitVec 2)
  | vabs (d a : BitVec 4) (ty : VTy) (mk : BitVec 2) (sat : Bool)
  | vneg (d a : BitVec 4) (ty : VTy) (mk : BitVec 2) (sat : Bool)
  | vcmp (md : BitVec 2) (a b : BitVec 4) (cond : VCond) (ty : VTy) (mk : BitVec 2)
  | vsel (d a b : BitVec 4) (ms : BitVec 2) (mk : BitVec 2)
  | vand (d a b : BitVec 4) (mk : BitVec 2)
  | vor (d a b : BitVec 4) (mk : BitVec 2)
  | vxor (d a b : BitVec 4) (mk : BitVec 2)
  | vshl (d a b : BitVec 4) (ty : ITy) (mk : BitVec 2)
  | vshr (d a b : BitVec 4) (ty : ITy) (mk : BitVec 2)
  | vsar (d a b : BitVec 4) (ty : ITy) (mk : BitVec 2)
  | vcvt (d a : BitVec 4) (ty dt : VTy) (rm : Rm) (mk : BitVec 2) (sat : Bool) (h : BitVec 2)
  | vrnd (d a : BitVec 4) (tf : FTy) (rm : Rm) (mk : BitVec 2)
  | vexp2 (d a : BitVec 4) (tf : FTy) (rm : Rm) (mk : BitVec 2)
  | vlog2 (d a : BitVec 4) (tf : FTy) (rm : Rm) (mk : BitVec 2)
  | vred (d a : BitVec 4) (op : RedOp) (ty : VTy) (rm : Rm) (mk : BitVec 2)
  | vscan (d a : BitVec 4) (op : ScanOp) (ty : VTy) (rm : Rm) (mk : BitVec 2)
  | vperm (d a b : BitVec 4) (mk : BitVec 2)
  | vbcast (d a : BitVec 4) (lane : BitVec 6)
  | vbcastHi (d : BitVec 4) (imm : Imm 16)
  | vbcastLo (d : BitVec 4) (imm : Imm 16)
  | vrot (d a : BitVec 4) (amt : BitVec 6) (mk : BitVec 2)
  | vmov (d a : BitVec 4) (mk : BitVec 2)
  | vmovFlg (d : BitVec 4) (mk : BitVec 2)
  | vmovTab (a : BitVec 4)
  | mset (md : BitVec 2) (n : BitVec 7)
  | msetV (md : BitVec 2) (a : BitVec 4)
  | mand (md ma mb : BitVec 2) (ia ib : Bool)
  | mor (md ma mb : BitVec 2) (ia ib : Bool)
  | vconj (d a : BitVec 4) (tf : FTy) (mk : BitVec 2)
  | vnorm (d a : BitVec 4) (tf : FTy) (rm : Rm) (mk : BitVec 2)
  | vamul (d a b : BitVec 4) (tf : FTy) (rm : Rm) (mk : BitVec 2)
  | vcomp (d a x : BitVec 4) (tf : FTy) (k4 : Bool)
  | vdcmp (d a x : BitVec 4) (tf : FTy) (k4 : Bool)
  | vhad (d a : BitVec 4) (tf : FTy) (rm : Rm) (mk : BitVec 2) (inv lead blk : Bool)
  | vqnt (d a s : BitVec 4) (tf : FTy) (rm : Rm) (mf : MxTy) (blk : Bool)
  | vdq (d a s : BitVec 4) (tf : FTy) (rm : Rm) (mf : MxTy) (blk : Bool)
  -- matrix bodies (R243 to R256) and the grant of a waiting claim (R235)
  | mclaim (side : MSide) (mask : Word)
  | claimGranted (core : Nat)
  | mrel (side : MSide) (mask : Word)
  | mtab (st : BitVec 2) (pre : Preset)
  | mtabSlot (st : BitVec 2) (sideB : Bool) (slot : BitVec 5) (off : BitVec 10)
  | mzero (pmask : Byte)
  | mma (w : MulWord)
  | mmas (w : MulWord) (k4 : Bool)
  | mmat (w : MulWord)
  | mout (w : OutWord) (rm : Rm)
  | maccld (w : OutWord)
  | mfill (w : FillWord)
  | mfillAcc (pl : BitVec 3) (val : BitVec 16)
  | mqry (soff : BitVec 19)
  -- the sequencer's Illegal Instruction trap (R51), and events the table lists last
  | illegalInstruction (w : Word)
  | watchAcknowledgement (watch : Nat)
  -- words and events without operands
  | powerUp | fundamentalOrHotReset | stageBoundExceeded | alwaysOnPowerLoss | chainPeriodRecord | eret | nop | tend | yield
  | engineNop | vmovClr | mlease | munlease | mgang | mungang | msync | mainPowerLoss | hostLinkTrained
  -- messages of the host, taken from the state's inbox (`HostMsg`)
  | functionLevelReset | doorbell | create | destroy | setQuads
  | setShares | migrateOut | acceptMigration | pageExport | pageImport
  | actRetry | actValue | actEnd | invvaWrite | registerWrite
  | configWrite | ideIntegrityFailure | getVersion | getCapabilities | negotiateAlgorithms
  | getDigests | getCertificate | challenge | getMeasurements | keyExchange
  | finish | endSession | heartbeat | keyUpdate | ideKm
  | unsupportedSpdmRequest | lockInterfaceRequest | startInterfaceRequest | stopInterfaceRequest | getDeviceInterfaceReport
  | getDeviceInterfaceState | bindP2p | setMmioAttribute | migrationPageArrival | doeDiscovery
  deriving DecidableEq, Repr

end Sys2Proof
end

