-- ==== Sys2Proof/WellFormed.lean ====
section
/-! DEFINITION. Which terms of `Instr` are steps of the machine: the words that R51, R132, R179, R207, R245,
R282, R297 and R317 do not call Illegal Instruction, and the events whose numbers name agents that the package has
(R19, R21). -/

namespace Sys2Proof

/-- EXT words that carry the immediate. -/
def Imm.exts {w : Nat} : Imm w → Nat
  | .e0 _ => 0
  | .e1 _ => 1
  | .e2 _ => 2

/-- The immediate read as unsigned. -/
def Imm.nat {w : Nat} : Imm w → Nat
  | .e0 v => v.toNat
  | .e1 v => v.toNat
  | .e2 v => v.toNat

/-- The immediate read as signed (R50). -/
def Imm.int {w : Nat} : Imm w → Int
  | .e0 v => v.toInt
  | .e1 v => v.toInt
  | .e2 v => v.toInt

/-! ## Numbers of agents -/

/-- Cores of the package, 24 on each of sixteen dies (R19, R21). -/
def coreOk (c : Nat) : Bool := c < 384
/-- A core, or the Derailleur (number 384). -/
def seqOk (c : Nat) : Bool := c ≤ 384
def dieOk (d : Nat) : Bool := d < 16
def quadOk (q : Nat) : Bool := q < 96
def sliceOk (s : Nat) : Bool := s < 256
/-- Slice functions are numbered 1 to 48. -/
def fnOk (f : Nat) : Bool := 1 ≤ f && f ≤ 48
/-- PF0 and the slice functions have mailboxes (R378). -/
def mbOk (f : Nat) : Bool := f ≤ 48
def wqOk (q : Nat) : Bool := q < 8

def linkOk : LinkId → Bool
  | .boundary n => n < 24
  | .port n => n < 18
  | .host => true

/-- Read-write special registers (R123). -/
def csrWritable (n : BitVec 10) : Bool :=
  n == 0x010#10 || n == 0x011#10 || (0x020 ≤ n.toNat && n.toNat ≤ 0x02F)

/-- Special registers of R123. -/
def csrReadable (n : BitVec 10) : Bool :=
  n.toNat ≤ 0x00B || (0x010 ≤ n.toNat && n.toNat ≤ 0x015) || (0x020 ≤ n.toNat && n.toNat ≤ 0x02F)

def parityOk : ParityReg → Bool
  | .special n => csrWritable n
  | .engine e => e != .seq
  | _ => true

/-- A register of an engine: the Derailleur has none (R334). -/
def ParityReg.inEngine : ParityReg → Bool
  | .engine _ => true
  | _ => false

def shareOk : ShareRes → Bool
  | .hbm d => dieOk d
  | .fabric p => p < 18
  | .boundary n => n < 24
  | .host => true

/-! ## Types -/

/-- Bytes of an atomic's operand (R281). -/
def atWidth : AtTy → Nat
  | .s64 | .z64 | .f64 => 8
  | _ => 4

def AtTy.isInt : AtTy → Bool
  | .s64 | .z64 | .s32 | .z32 => true
  | _ => false

def VTy.isInt : VTy → Bool
  | .s64 | .z64 | .s32 | .z32 => true
  | _ => false

/-- Elements in a lane (R198). -/
def VTy.perLane : VTy → Nat
  | .f64 | .s64 | .z64 => 1
  | .f32 | .s32 | .z32 => 2
  | .f16 | .bf16 => 4

def Fmt.isMx : Fmt → Bool
  | .mx8 | .mx6 | .mx4 => true
  | _ => false

/-- Operand codes that may stand as a source (R204). -/
def srcCode (c : BitVec 4) : Bool := c != 11 && c != 14 && c != 15

/-- Operand codes that may stand as a destination (R204). -/
def dstCode (c : BitVec 4) : Bool := c.toNat < 8 || c == 11 || c == 12

/-- R207: two destinations of one word may not be the same register, nor both be w0. -/
def twoDests (d x : BitVec 4) : Bool := dstCode d && dstCode x && (d != x || d == 12)

/-- R207: VCVT's part lies below the ratio of R214. -/
def partOk (ty dt : VTy) (h : BitVec 2) : Bool :=
  h.toNat < max (dt.perLane / ty.perLane) (ty.perLane / dt.perLane)

/-- R179: conditions on a CVD or CVQ word. -/
def cvOk (quant : Bool) (w : CvWord) : Bool :=
  w.sf != .raw && w.df != .raw
    && (if quant then !w.sf.isMx else !w.df.isMx)
    && (w.sf.isMx || w.df.isMx || !(w.blk || w.had || w.lead))
    && (!w.lead || (w.had && !w.blk))
    && (!(quant && w.had) || w.sf == .f32 || w.sf == .f16 || w.sf == .bf16)
    && (!(!quant && w.had) || w.sf.isMx)

/-- R245: conditions on MFILL of slots. -/
def fillOk (w : FillWord) : Bool :=
  (!(w.fmt == .e4m3 || w.fmt == .e5m2) || w.val.toNat < 256) && !(w.blk && w.nc == 0)

/-- R245: ROW0 + NROW at most 128. -/
def rowsOk (w : OutWord) : Bool := w.row0.toNat + w.nrowM1.toNat + 1 ≤ 128

/-- R207: a PSET value fits its field. -/
def psetOk (f : PsField) (imm : Imm 15) : Bool :=
  match f with
  | .base => imm.nat < 2 ^ 32
  | .step => -(2 ^ 31) ≤ imm.int && imm.int < 2 ^ 31
  | .lstr => imm.nat < 2 ^ 16 && imm.nat % 8 == 0
  | .gsel => imm.nat ≤ 3

def claimOk : MSide → Word → Bool
  | .acc, m => m.toNat < 256
  | _, _ => true

/-- A SEL operand c has no last-read bit (R134). -/
def unmarked : Src → Bool
  | .named _ l => !l
  | .belt _ => true

/-- A third operand given as raw fields: LX only on a named register (R132). -/
def thirdOk (sx : BitVec 5) (lx : Bool) : Bool := !lx || 16 ≤ sx.toNat

/-- R149, R130: BAR.core has n and id reserved. -/
def barOk (sc : Scope) (id : BitVec 4) (n : Src) : Bool := sc != .core || (id == 0 && n == .belt 0)

/-- Messages that name agents of the package and have the sizes their protocols give them. -/
def HostMsg.wf : HostMsg → Bool
  | .functionLevelReset fn => fnOk fn
  | .doorbell fn wq _ => fnOk fn && wqOk wq
  | .create _ | .destroy _ | .setQuads _ | .setShares _ | .migrateOut _ | .acceptMigration _ => true
  | .pageExport _ _ | .pageImport _ _ => true
  | .actRetry fn wq | .actValue fn wq | .actEnd fn wq => fnOk fn && wqOk wq
  | .invvaWrite fn wq _ => fnOk fn && wqOk wq
  | .registerWrite fn _ sz _ => mbOk fn && (sz == 4 || sz == 8)
  | .configWrite fn _ _ => mbOk fn
  | .ideIntegrityFailure fn => fnOk fn
  | .getVersion mb | .getCapabilities mb | .negotiateAlgorithms mb _ | .getDigests mb => mbOk mb
  | .getCertificate mb slot _ _ => mbOk mb && slot < 8
  | .challenge mb slot n => mbOk mb && slot < 8 && n.length == 32
  | .getMeasurements mb _ n => mbOk mb && n.length == 32
  | .keyExchange mb slot n => mbOk mb && slot < 8 && n.length == 32
  | .finish mb _ _ => mbOk mb
  | .endSession mb _ | .heartbeat mb _ | .keyUpdate mb _ => mbOk mb
  | .ideKm mb _ _ => mbOk mb
  | .unsupportedSpdmRequest mb _ => mbOk mb
  | .lockInterfaceRequest fn _ | .startInterfaceRequest fn _ _ | .stopInterfaceRequest fn _ => fnOk fn
  | .getDeviceInterfaceReport fn _ | .getDeviceInterfaceState fn _ => fnOk fn
  | .bindP2p fn _ | .setMmioAttribute fn _ => fnOk fn
  | .migrationPageArrival fn _ p => fnOk fn && p.length == 65536
  | .doeDiscovery mb _ => mbOk mb
  | .registerRead fn _ sz _ => mbOk fn && (sz == 4 || sz == 8)
  | .memoryRead _ fn ipa n _ => fnOk fn && 0 < n && ipa % 128 + n ≤ 128
  | .memoryWrite _ fn ipa bs => fnOk fn && bs != [] && ipa % 128 + bs.length ≤ 128
  | .peerAtomic fn ipa op ty _ _ _ => fnOk fn && ipa % (if op = .cas128 then 16 else atWidth ty) == 0
  | .barrierArrival fn id _ _ => fnOk fn && id < 16

/-- Numbers in an event name agents of the package; fields of a word are legal. -/
def Instr.wf : Instr → Bool
  | .powerUp | .fundamentalOrHotReset | .stageBoundExceeded | .alwaysOnPowerLoss => true
  | .bringupStageDone (.ok rs) => rs.all (· < 48)
  | .bringupStageDone (.failed _ _) => true
  | .hbmUncorrectableRead _ | .hbmRereadResult _ _ => true
  | .linkFlitCheckFail l => linkOk l
  | .linkRetransmitResult l _ => linkOk l
  | .registerParityError c r _ => (coreOk c || (seqOk c && !r.inEngine)) && parityOk r
  | .parityRepairDone c => coreOk c
  | .arrayUncorrectableError q _ => quadOk q
  | .pendingSignalDelivered c _ => coreOk c
  | .engineWordComplete c _ _ => coreOk c
  | .commandRetire c e => coreOk c && e != .seq
  | .bodyFetch c e => coreOk c && e != .seq
  | .bodyFetchFaultTaken c e => coreOk c && e != .seq
  | .leaseRequest c => coreOk c
  | .leaseGrant q | .leaseCycleLimit q => quadOk q
  | .landingDrop c | .lateLandingFreeze c => seqOk c
  | .landingDataArrived c _ => seqOk c
  | .sequencerStallRelease c => seqOk c
  | .barrierRelease fn _ _ id => fnOk fn && id < 16
  | .monitorWake c | .monitorRearmTimer c => seqOk c
  | .probeFillComplete c _ => coreOk c
  | .vectorRelocation c => coreOk c
  | .hubRequestArrive _ => true
  | .hubLookup s => sliceOk s
  | .hbmFillArrive s _ => sliceOk s
  | .hbmRowClose d _ => dieOk d
  | .atomicOperation _ => true
  | .replicaInvalidate d _ => dieOk d
  | .replicaAckComplete _ => true
  | .replicationWindowEnd d => dieOk d
  | .fenceSweepAnswer c d => seqOk c && dieOk d
  | .addendVerdict _ => true
  | .priorityAddendEntry s => sliceOk s
  | .verdictReceived _ | .refusedAddendHeld _ | .addendApply _ | .applyNotice _ => true
  | .residualAgeExpiry c s => coreOk c && s < 64
  | .submissionDecided d => dieOk d
  | .recordStart fn wq => fnOk fn && wqOk wq
  | .taskDispatch d | .freewheelCleanHit d | .freewheelDirtyHitDone d => dieOk d
  | .freewheelEntryMade c => coreOk c
  | .watchMessage _ => true
  | .taskComplete c | .priorityDonation c | .donationTimeout c | .yieldOffer c => coreOk c
  | .hangWatchdogExpiry c | .stopComplete c | .stopDeadlineExpiry c => coreOk c
  | .invalidationEpochDrained fn => fnOk fn
  | .thermalThrottle d | .thermalDutyStep d | .thermalStop d | .thermalRecover d => dieOk d
  | .powerLimitFreeze d c _ => dieOk d && c < 24
  | .shareWindow r => shareOk r
  | .chainPeriodRecord => true
  -- sequencer words
  | .add .. | .sub .. | .and .. | .or .. | .xor .. | .andn .. | .shl .. | .shr .. | .sar .. | .rol .. => true
  | .min .. | .max .. | .mul .. | .mulh .. | .div .. | .rem .. => true
  | .neg .. | .clz .. | .ctz .. | .popc .. | .mov .. | .cmp .. => true
  | .addi .. | .andi .. | .ori .. | .xori .. | .shli .. | .shri .. | .sari .. | .li .. => true
  | .sel c _ _ _ => unmarked c
  | .extb _ _ _ pos len => pos.toNat + len.toNat + 1 ≤ 64
  | .insb _ _ _ pos len => pos.toNat + len.toNat + 1 ≤ 64
  | .idx _ _ imm => imm.exts ≤ 1
  | .csrr n _ => csrReadable n
  | .csrw n _ => csrWritable n
  | .ld _ _ _ slot _ => slot != 0
  | .st .. => true
  | .b off => off.exts ≤ 1
  | .bcc _ _ _ off => off.exts ≤ 1
  | .jmp _ off => off.exts ≤ 1
  | .call _ off => off.exts ≤ 1
  | .ret _ => true
  | .loop _ _ _ blen => blen.exts ≤ 1
  | .lend _ | .trap _ | .svc _ _ | .eret | .nop | .tend | .push _ _ | .wait .. | .fence _ _ | .yield => true
  | .bar sc id n => barOk sc id n
  | .ald _ _ _ _ _ slot => slot != 0
  | .ast .. => true
  | .aadd _ _ _ ty _ slot | .aand _ _ _ ty _ slot | .aor _ _ _ ty _ slot | .axor _ _ _ ty _ slot
  | .amin _ _ _ ty _ slot | .amax _ _ _ ty _ slot => ty.isInt && slot != 0
  | .aswp _ _ _ _ _ slot => slot != 0
  | .acas _ _ _ _ _ _ slot => slot != 0
  | .acas128 _ _ sx lx _ _ slot => thirdOk sx lx && slot != 0
  | .afadd _ _ _ ty _ slot | .afmin _ _ _ ty _ slot | .afmax _ _ _ ty _ slot => !ty.isInt && slot != 0
  | .monw .. | .monc .. | .flushres _ | .bpqry _ _ => true
  | .probe _ _ off => off.exts ≤ 1
  | .pwb _ | .pinv _ | .waitx .. | .xwr .. => true
  | .record _ _ _ slot | .recordHand _ _ _ slot => slot != 0
  | .rwait .. | .fwinv _ | .fwqry .. => true
  | .slmap .. | .slunmap .. | .preempt .. | .spill .. | .restore .. | .snaprd .. | .wmask .. | .qpark .. => true
  | .qresume .. | .s1inv .. | .s2inv .. | .migout .. | .migin .. | .fnbind .. | .cycr .. | .throt .. => true
  | .dogset .. | .pgexp .. | .pgimp .. | .lkqry .. => true
  -- copy bodies
  | .engineNop => true
  | .ldt _ _ _ _ len => len.exts ≤ 1 && len.nat ≤ 1048576
  | .stt _ _ _ _ len => len.exts ≤ 1 && len.nat ≤ 1048576
  | .ldo _ _ _ len => len.exts ≤ 1 && len.nat ≤ 65536
  | .gth _ esz _ | .sct _ esz _ => esz.toNat ≤ 8
  | .cvd w => cvOk false w
  | .cvq w => cvOk true w
  | .xid _ => true
  | .acc _ _ len => len.exts ≤ 1 && len.nat ≤ 1048576
  -- vector bodies
  | .pset _ f imm => imm.exts ≤ 1 && psetOk f imm
  | .pbind .. | .pskip .. => true
  | .vadd d a bb ty _ _ sat | .vsub d a bb ty _ _ sat | .vmul d a bb ty _ _ sat =>
      dstCode d && srcCode a && srcCode bb && (!sat || ty.isInt)
  | .vfma d a bb c _ _ _ | .vfms d a bb c _ _ _ | .vfnma d a bb c _ _ _ =>
      dstCode d && srcCode a && srcCode bb && srcCode c
  | .vdiv d a bb _ _ _ => dstCode d && srcCode a && srcCode bb
  | .vsqrt d a _ _ _ | .vrcp d a _ _ _ | .vrsq d a _ _ _ => dstCode d && srcCode a
  | .vmin d a bb _ _ | .vmax d a bb _ _ => dstCode d && srcCode a && srcCode bb
  | .vabs d a ty _ sat | .vneg d a ty _ sat => dstCode d && srcCode a && (!sat || ty.isInt)
  | .vcmp _ a bb cond ty _ => srcCode a && srcCode bb && !(cond == .un && ty.isInt)
  | .vsel d a bb _ _ => dstCode d && srcCode a && srcCode bb
  | .vand d a bb _ | .vor d a bb _ | .vxor d a bb _ => dstCode d && srcCode a && srcCode bb
  | .vshl d a bb _ _ | .vshr d a bb _ _ | .vsar d a bb _ _ => dstCode d && srcCode a && srcCode bb
  | .vcvt d a ty dt _ _ sat h =>
      dstCode d && srcCode a && (!sat || (ty.isInt && dt.isInt)) && partOk ty dt h
  | .vrnd d a _ _ _ | .vexp2 d a _ _ _ | .vlog2 d a _ _ _ => dstCode d && srcCode a
  | .vred d a _ _ _ _ => dstCode d && srcCode a
  | .vscan d a _ _ _ _ => dstCode d && srcCode a
  | .vperm d a bb _ => dstCode d && srcCode a && srcCode bb
  | .vbcast d a _ => dstCode d && srcCode a
  | .vbcastHi d _ | .vbcastLo d _ => dstCode d
  | .vrot d a _ _ => dstCode d && srcCode a
  | .vmov d a _ => dstCode d && srcCode a
  | .vmovFlg d _ => dstCode d
  | .vmovClr => true
  | .vmovTab a => srcCode a
  | .mset _ n => n.toNat ≤ 64
  | .msetV _ a => srcCode a
  | .mand .. | .mor .. => true
  | .vconj d a _ _ => dstCode d && srcCode a
  | .vnorm d a _ _ _ => dstCode d && srcCode a
  | .vamul d a bb _ _ _ => dstCode d && srcCode a && srcCode bb
  | .vcomp d a x _ _ => srcCode a && twoDests d x
  | .vdcmp d a x _ _ => dstCode d && srcCode a && srcCode x
  | .vhad d a _ _ _ _ lead blk => dstCode d && srcCode a && !(lead && blk)
  | .vqnt d a s _ _ _ _ => srcCode a && twoDests d s
  | .vdq d a s _ _ _ _ => dstCode d && srcCode a && srcCode s
  -- matrix bodies
  | .mlease | .munlease | .mgang | .mungang | .msync => true
  | .mclaim side m | .mrel side m => claimOk side m
  | .claimGranted c => coreOk c
  | .mtab .. | .mtabSlot .. | .mzero _ | .mma _ | .mmas _ _ | .mmat _ => true
  | .mout w _ | .maccld w => rowsOk w
  | .mfill w => fillOk w
  | .mfillAcc .. | .mqry _ => true
  | .illegalInstruction _ | .watchAcknowledgement _ => true
  | .mainPowerLoss | .hostLinkTrained => true
  | .functionLevelReset | .doorbell | .create | .destroy | .setQuads | .setShares | .migrateOut => true
  | .acceptMigration | .pageExport | .pageImport | .actRetry | .actValue | .actEnd | .invvaWrite => true
  | .registerWrite | .configWrite | .ideIntegrityFailure | .getVersion | .getCapabilities => true
  | .negotiateAlgorithms | .getDigests | .getCertificate | .challenge | .getMeasurements => true
  | .keyExchange | .finish | .endSession | .heartbeat | .keyUpdate | .ideKm => true
  | .unsupportedSpdmRequest | .lockInterfaceRequest | .startInterfaceRequest | .stopInterfaceRequest => true
  | .getDeviceInterfaceReport | .getDeviceInterfaceState | .bindP2p | .setMmioAttribute => true
  | .migrationPageArrival | .doeDiscovery => true

/-- Well-formed terms. -/
abbrev Instr.WellFormed (i : Instr) : Prop := i.wf = true

end Sys2Proof
end

