-- ==== Sys2Proof/Decode.lean ====
section
/-! DEFINITION. Decoding of the five instruction streams (R49 to R56, R130 to R132, R178, R179, R190, R203 to R207,
R243, R245, R281, R282, R286, R288, R296, R297, R317, R340, R371), total on any bytes, and the encoder written from
the same tables. A word that is Illegal Instruction is rejected by name. -/

namespace Sys2Proof

/-- Why a word is Illegal Instruction. -/
inductive Reject where
  /-- Fewer than four bytes. -/
  | truncated
  /-- The major is unassigned in the stream (R51). -/
  | major
  /-- The function code of a grouped major is unassigned (R51). -/
  | function
  /-- A nonzero reserved field (R51, R7). -/
  | reserved
  /-- A count of EXT words that the instruction does not take, or an EXT that follows no instruction (R51, R132). -/
  | ext
  /-- An EXT with nonzero chain bits (R51). -/
  | extChain
  /-- A reserved code in a field (R131). -/
  | code
  /-- A last-read mark on a belt selector or on a field that is not read (R121, R132). -/
  | lastRead
  /-- DK nonzero with ND = 0 (R130). -/
  | dest
  /-- A condition that R132, R179, R207, R245, R282, R317 or R123 names. -/
  | rule
  deriving DecidableEq, Repr

/-! ## Fields -/

/-- `len` bits of a word from bit `lo` up. -/
def fld (w : Word) (lo len : Nat) : BitVec len := w.extractLsb' lo len

/-- One bit of a word. -/
def bit (w : Word) (i : Nat) : Bool := w.getLsbD i

/-- R49. -/
def major (w : Word) : BitVec 6 := fld w 22 6

/-- R25. -/
def Chain.ofWord (w : Word) : Chain := ⟨bit w 31, bit w 30, bit w 29, bit w 28⟩

/-- Major 0x3F (R50). -/
def isExt (w : Word) : Bool := major w == 0x3F#6

/-- The next instruction's word and every EXT word after it. -/
def splitWords : List Word → Option (Word × List Word)
  | [] => none
  | w :: ws => some (w, ws.takeWhile isExt)

def zero (w : Word) (lo len : Nat) : Except Reject Unit :=
  if fld w lo len = 0 then .ok () else .error .reserved

/-- Little-endian words of a string of bytes; a rest of fewer than four bytes is dropped. -/
def wordsOf : List Byte → List Word
  | a :: b :: c :: d :: rest => (d ++ c ++ b ++ a) :: wordsOf rest
  | _ => []

def noExt (xs : List Word) : Except Reject Unit :=
  match xs with
  | [] => .ok ()
  | _ => .error .ext

def oneExt (xs : List Word) : Except Reject Word :=
  match xs with
  | [x] => .ok x
  | _ => .error .ext

def twoExts (xs : List Word) : Except Reject (Word × Word) :=
  match xs with
  | [x, y] => .ok (x, y)
  | _ => .error .ext

/-- R50: the immediate of a field and the EXT words after it. -/
def immOf (w : Nat) (v : BitVec w) (xs : List Word) : Except Reject (Imm w) :=
  match xs with
  | [] => .ok (.e0 v)
  | [x] => .ok (.e1 ((fld x 0 22 ++ v).cast (Nat.add_comm 22 w)))
  | [x, y] => .ok (.e2 ((fld y 0 22 ++ fld x 0 22 ++ v).cast (by omega)))
  | _ => .error .ext

/-- R120, R121. -/
def srcOf (s : BitVec 5) (l : Bool) : Except Reject Src :=
  if s.getLsbD 4 then .ok (.named (s.extractLsb' 0 4) l)
  else if l then .error .lastRead
  else .ok (.belt (s.extractLsb' 0 4))

/-- R120, R130. -/
def destOf (nd : Bool) (dk : BitVec 4) : Except Reject Dest :=
  if nd then .ok (.named dk) else if dk = 0 then .ok .belt else .error .dest

def intTyOf : BitVec 3 → Except Reject IntTy
  | 0 => .ok .s64
  | 1 => .ok .z64
  | 2 => .ok .s32
  | 3 => .ok .z32
  | _ => .error .code

def condOf : BitVec 4 → Except Reject Cond
  | 0 => .ok .eq
  | 1 => .ok .ne
  | 2 => .ok .lt
  | 3 => .ok .ge
  | 4 => .ok .gt
  | 5 => .ok .le
  | 6 => .ok .lo
  | 7 => .ok .hs
  | 8 => .ok .hi
  | 9 => .ok .ls
  | _ => .error .code

def ldSzOf : BitVec 3 → Except Reject LdSz
  | 0 => .ok .z8
  | 1 => .ok .s8
  | 2 => .ok .z16
  | 3 => .ok .s16
  | 4 => .ok .z32
  | 5 => .ok .s32
  | 6 => .ok .d64
  | _ => .error .code

def stSzOf : BitVec 2 → StSz
  | 0 => .byte
  | 1 => .half
  | 2 => .word
  | _ => .double

def scopeOf : BitVec 3 → Except Reject Scope
  | 0 => .ok .core
  | 1 => .ok .quad
  | 2 => .ok .die
  | 3 => .ok .pkg
  | 4 => .ok .pod
  | _ => .error .code

def queueOf : BitVec 2 → Queue
  | 0 => .load
  | 1 => .vec
  | 2 => .mat
  | _ => .store

def atTyOf : BitVec 3 → AtTy
  | 0 => .s64
  | 1 => .z64
  | 2 => .s32
  | 3 => .z32
  | 4 => .f64
  | 5 => .f32
  | 6 => .f16x2
  | _ => .bf16x2

def fwKindOf : BitVec 3 → Except Reject FwKind
  | 0 => .ok .hit
  | 1 => .ok .hitc
  | 2 => .ok .miss
  | 3 => .ok .viol
  | 4 => .ok .unc
  | 5 => .ok .ent
  | _ => .error .code

def rmOf : BitVec 2 → Rm
  | 0 => .rne
  | 1 => .rz
  | 2 => .rpi
  | _ => .rmi

def fmtOf : BitVec 4 → Except Reject Fmt
  | 0 => .ok .raw
  | 1 => .ok .f64
  | 2 => .ok .f32
  | 3 => .ok .f16
  | 4 => .ok .bf16
  | 5 => .ok .e4m3
  | 6 => .ok .e5m2
  | 7 => .ok .mx8
  | 8 => .ok .mx6
  | 9 => .ok .mx4
  | _ => .error .code

def accTyOf : BitVec 3 → Except Reject AccTy
  | 0 => .ok .s64
  | 1 => .ok .s32
  | 2 => .ok .f64
  | 3 => .ok .f32
  | 4 => .ok .f16x2
  | 5 => .ok .bf16x2
  | _ => .error .code

def vtyOf : BitVec 3 → VTy
  | 0 => .f64
  | 1 => .f32
  | 2 => .f16
  | 3 => .bf16
  | 4 => .s64
  | 5 => .z64
  | 6 => .s32
  | _ => .z32

def ftyOf : BitVec 2 → FTy
  | 0 => .f64
  | 1 => .f32
  | 2 => .f16
  | _ => .bf16

/-- A TY field of a float-only word. -/
def ftyOf3 (t : BitVec 3) : Except Reject FTy :=
  if t.getLsbD 2 then .error .code else .ok (ftyOf (t.extractLsb' 0 2))

/-- A TY field of an integer-only word. -/
def ityOf3 : BitVec 3 → Except Reject ITy
  | 4 => .ok .s64
  | 5 => .ok .z64
  | 6 => .ok .s32
  | 7 => .ok .z32
  | _ => .error .code

def psFieldOf : BitVec 3 → Except Reject PsField
  | 0 => .ok .base
  | 1 => .ok .step
  | 2 => .ok .lstr
  | 3 => .ok .gsel
  | _ => .error .code

def vcondOf : BitVec 3 → Except Reject VCond
  | 0 => .ok .eq
  | 1 => .ok .ne
  | 2 => .ok .lt
  | 3 => .ok .le
  | 4 => .ok .gt
  | 5 => .ok .ge
  | 6 => .ok .un
  | _ => .error .code

def redOf : BitVec 3 → Except Reject RedOp
  | 0 => .ok .add
  | 1 => .ok .min
  | 2 => .ok .max
  | _ => .error .code

def scanOf : BitVec 3 → Except Reject ScanOp
  | 0 => .ok .add
  | 1 => .ok .addx
  | 2 => .ok .min
  | 3 => .ok .max
  | _ => .error .code

def mxOf : BitVec 2 → Except Reject MxTy
  | 0 => .ok .mx8
  | 1 => .ok .mx6
  | 2 => .ok .mx4
  | _ => .error .code

def msideOf : BitVec 2 → Except Reject MSide
  | 0 => .ok .a
  | 1 => .ok .b
  | 2 => .ok .acc
  | _ => .error .code

def presetOf : BitVec 3 → Except Reject Preset
  | 0 => .ok .r
  | 1 => .ok .c
  | 2 => .ok .s
  | 3 => .ok .h
  | 4 => .ok .g2
  | 5 => .ok .g3
  | _ => .error .code

def fillModeOf : BitVec 2 → Except Reject FillMode
  | 0 => .ok .const
  | 1 => .ok .comp
  | 2 => .ok .diag
  | _ => .error .code

def fillFmtOf : BitVec 4 → Except Reject FillFmt
  | 3 => .ok .f16
  | 4 => .ok .bf16
  | 5 => .ok .e4m3
  | 6 => .ok .e5m2
  | _ => .error .code

/-! ## Sequencer stream: formats of R130 -/

def decRR (f : Src → Src → Dest → IntTy → Instr) (w : Word) (xs : List Word) : Except Reject Instr := do
  noExt xs
  zero w 3 2
  let a ← srcOf (fld w 17 5) (bit w 11)
  let b ← srcOf (fld w 12 5) (bit w 10)
  let d ← destOf (bit w 9) (fld w 5 4)
  let t ← intTyOf (fld w 0 3)
  .ok (f a b d t)

/-- RR with SB = 0: NEG, CLZ, CTZ, POPC, MOV. -/
def decR1 (f : Src → Dest → IntTy → Instr) (w : Word) (xs : List Word) : Except Reject Instr := do
  noExt xs
  zero w 3 2
  zero w 12 5
  zero w 10 1
  let a ← srcOf (fld w 17 5) (bit w 11)
  let d ← destOf (bit w 9) (fld w 5 4)
  let t ← intTyOf (fld w 0 3)
  .ok (f a d t)

def decRI (f : Src → Dest → Imm 11 → Instr) (w : Word) (xs : List Word) : Except Reject Instr := do
  let a ← srcOf (fld w 17 5) (bit w 16)
  let d ← destOf (bit w 15) (fld w 11 4)
  let i ← immOf 11 (fld w 0 11) xs
  .ok (f a d i)

def decSI (f : Src → Dest → IntTy → BitVec 6 → Instr) (w : Word) (xs : List Word) : Except Reject Instr := do
  noExt xs
  zero w 9 2
  let a ← srcOf (fld w 17 5) (bit w 16)
  let d ← destOf (bit w 15) (fld w 11 4)
  let t ← intTyOf (fld w 6 3)
  .ok (f a d t (fld w 0 6))

def decCmp (w : Word) (xs : List Word) : Except Reject Instr := do
  noExt xs
  zero w 4 1
  let a ← srcOf (fld w 17 5) (bit w 11)
  let b ← srcOf (fld w 12 5) (bit w 10)
  let d ← destOf (bit w 9) (fld w 5 4)
  let c ← condOf (fld w 0 4)
  .ok (.cmp a b d c)

def decLi (w : Word) (xs : List Word) : Except Reject Instr := do
  let d ← destOf (bit w 21) (fld w 17 4)
  let i ← immOf 17 (fld w 0 17) xs
  .ok (.li d i)

def decSel (w : Word) (xs : List Word) : Except Reject Instr := do
  noExt xs
  let c ← srcOf (fld w 17 5) false
  let a ← srcOf (fld w 12 5) (bit w 6)
  let b ← srcOf (fld w 7 5) (bit w 5)
  let d ← destOf (bit w 4) (fld w 0 4)
  .ok (.sel c a b d)

def decExtb (w : Word) (xs : List Word) : Except Reject Instr := do
  let x ← oneExt xs
  zero w 0 10
  zero x 12 10
  let a ← srcOf (fld w 17 5) (bit w 16)
  let d ← destOf (bit w 15) (fld w 11 4)
  .ok (.extb a d (bit w 10) (fld x 0 6) (fld x 6 6))

def decInsb (w : Word) (xs : List Word) : Except Reject Instr := do
  let x ← oneExt xs
  zero w 0 5
  zero x 12 10
  let a ← srcOf (fld w 17 5) (bit w 11)
  let b ← srcOf (fld w 12 5) (bit w 10)
  let d ← destOf (bit w 9) (fld w 5 4)
  .ok (.insb a b d (fld x 0 6) (fld x 6 6))

def decIdx (w : Word) (xs : List Word) : Except Reject Instr := do
  let d ← destOf (bit w 19) (fld w 15 4)
  let i ← immOf 15 (fld w 0 15) xs
  .ok (.idx (fld w 20 2) d i)

def decCsrr (w : Word) (xs : List Word) : Except Reject Instr := do
  noExt xs
  zero w 0 7
  let d ← destOf (bit w 11) (fld w 7 4)
  .ok (.csrr (fld w 12 10) d)

def decCsrw (w : Word) (xs : List Word) : Except Reject Instr := do
  noExt xs
  zero w 0 6
  let a ← srcOf (fld w 7 5) (bit w 6)
  .ok (.csrw (fld w 12 10) a)

def decLd (w : Word) (xs : List Word) : Except Reject Instr := do
  let a ← srcOf (fld w 17 5) (bit w 16)
  let d ← destOf (bit w 15) (fld w 11 4)
  let z ← ldSzOf (fld w 8 3)
  let o ← immOf 0 0#0 xs
  .ok (.ld a d z (fld w 0 8) o)

def decSt (w : Word) (xs : List Word) : Except Reject Instr := do
  zero w 0 8
  let a ← srcOf (fld w 17 5) (bit w 11)
  let b ← srcOf (fld w 12 5) (bit w 10)
  let o ← immOf 0 0#0 xs
  .ok (.st a b (stSzOf (fld w 8 2)) o)

def decB (w : Word) (xs : List Word) : Except Reject Instr := do
  let o ← immOf 22 (fld w 0 22) xs
  .ok (.b o)

def decBcc (w : Word) (xs : List Word) : Except Reject Instr := do
  let a ← srcOf (fld w 17 5) (bit w 11)
  let b ← srcOf (fld w 12 5) (bit w 10)
  let c ← condOf (fld w 6 4)
  let o ← immOf 6 (fld w 0 6) xs
  .ok (.bcc a b c o)

def decJmp (w : Word) (xs : List Word) : Except Reject Instr := do
  let a ← srcOf (fld w 17 5) (bit w 16)
  let o ← immOf 16 (fld w 0 16) xs
  .ok (.jmp a o)

def decCall (w : Word) (xs : List Word) : Except Reject Instr := do
  let d ← destOf (bit w 21) (fld w 17 4)
  let o ← immOf 17 (fld w 0 17) xs
  .ok (.call d o)

def decRet (w : Word) (xs : List Word) : Except Reject Instr := do
  noExt xs
  zero w 0 16
  let a ← srcOf (fld w 17 5) (bit w 16)
  .ok (.ret a)

def decLoop (w : Word) (xs : List Word) : Except Reject Instr := do
  let a ← srcOf (fld w 17 5) (bit w 16)
  let o ← immOf 7 (fld w 0 7) xs
  .ok (.loop a (fld w 13 3) (fld w 7 6) o)

def decLend (w : Word) (xs : List Word) : Except Reject Instr := do
  noExt xs
  zero w 0 16
  .ok (.lend (fld w 16 6))

def decTrap (w : Word) (xs : List Word) : Except Reject Instr := do
  noExt xs
  zero w 16 6
  .ok (.trap (fld w 0 16))

def decSvc (w : Word) (xs : List Word) : Except Reject Instr := do
  noExt xs
  if bit w 21 then
    let d ← destOf (bit w 20) (fld w 16 4)
    .ok (.svc (some d) (fld w 0 16))
  else
    zero w 16 5
    .ok (.svc none (fld w 0 16))

/-- Format Z: no operands (R130, R243). -/
def decZ (i : Instr) (w : Word) (xs : List Word) : Except Reject Instr := do
  noExt xs
  zero w 0 22
  .ok i

def decPush (w : Word) (xs : List Word) : Except Reject Instr := do
  noExt xs
  zero w 0 18
  .ok (.push (queueOf (fld w 20 2)) (fld w 18 2))

def decWait (w : Word) (xs : List Word) : Except Reject Instr := do
  noExt xs
  zero w 0 2
  .ok (.wait (fld w 18 4) (fld w 14 4) (fld w 8 6) (fld w 2 6))

def decFence (w : Word) (xs : List Word) : Except Reject Instr := do
  noExt xs
  zero w 0 18
  let s ← scopeOf (fld w 19 3)
  .ok (.fence s (bit w 18))

def decBar (w : Word) (xs : List Word) : Except Reject Instr := do
  noExt xs
  zero w 0 9
  let s ← scopeOf (fld w 19 3)
  let a ← srcOf (fld w 10 5) (bit w 9)
  .ok (.bar s (fld w 15 4) a)

/-! ## Grouped majors of the sequencer -/

/-- R281, R282: major 0x38. -/
def decAtomic (w : Word) (xs : List Word) : Except Reject Instr := do
  let x ← oneExt xs
  zero x 0 4
  let a ← srcOf (fld w 12 5) (bit w 6)
  let d ← destOf (bit w 4) (fld w 0 4)
  let ty := atTyOf (fld x 19 3)
  let sc := bit x 18
  let slot := fld x 4 8
  let value (f : Src → Src → Dest → AtTy → Bool → BitVec 8 → Instr) : Except Reject Instr := do
    zero x 12 6
    let v ← srcOf (fld w 7 5) (bit w 5)
    .ok (f a v d ty sc slot)
  match (fld w 17 5).toNat with
  | 0 => do
      zero x 12 6
      if bit w 5 then .error .lastRead else .ok (.ald a (fld w 7 5) d ty sc slot)
  | 1 => do
      zero x 12 6
      zero x 4 8
      zero w 0 5
      let v ← srcOf (fld w 7 5) (bit w 5)
      .ok (.ast a v ty sc)
  | 2 => value .aadd
  | 3 => value .aand
  | 4 => value .aor
  | 5 => value .axor
  | 6 => value .amin
  | 7 => value .amax
  | 8 => value .aswp
  | 9 => do
      let e ← srcOf (fld w 7 5) (bit w 5)
      let n ← srcOf (fld x 13 5) (bit x 12)
      .ok (.acas a e n d ty sc slot)
  | 10 => do
      zero x 19 3
      zero w 5 1
      if fld w 7 2 = 0 ∧ bit w 11 = true then
        .ok (.acas128 a (fld w 9 2) (fld x 13 5) (bit x 12) d sc slot)
      else .error .rule
  | 11 => value .afadd
  | 12 => value .afmin
  | 13 => value .afmax
  | _ => .error .function

/-- SA, LA and ALL of FLUSHRES, PWB, PINV and FWINV. -/
def decAll (f : Option Src → Instr) (w : Word) (xs : List Word) : Except Reject Instr := do
  noExt xs
  zero w 0 10
  if bit w 10 then
    zero w 11 6
    .ok (f none)
  else
    let a ← srcOf (fld w 12 5) (bit w 11)
    .ok (f (some a))

/-- Two operands and a result in the layout of R281. -/
def decAB (f : Src → Src → Dest → Instr) (w : Word) (xs : List Word) : Except Reject Instr := do
  noExt xs
  let a ← srcOf (fld w 12 5) (bit w 6)
  let b ← srcOf (fld w 7 5) (bit w 5)
  let d ← destOf (bit w 4) (fld w 0 4)
  .ok (f a b d)

/-- One operand and a result in the layout of R281: SB and LB zero (R340). -/
def decA (f : Src → Dest → Instr) (w : Word) (xs : List Word) : Except Reject Instr := do
  noExt xs
  zero w 7 5
  zero w 5 1
  let a ← srcOf (fld w 12 5) (bit w 6)
  let d ← destOf (bit w 4) (fld w 0 4)
  .ok (f a d)

/-- MIGOUT and MIGIN: no decode check applies to b (R340). -/
def decMig (f : Src → BitVec 5 → Bool → Dest → Instr) (w : Word) (xs : List Word) : Except Reject Instr := do
  noExt xs
  let a ← srcOf (fld w 12 5) (bit w 6)
  let d ← destOf (bit w 4) (fld w 0 4)
  .ok (f a (fld w 7 5) (bit w 5) d)

def decBpqry (w : Word) (xs : List Word) : Except Reject Instr := do
  noExt xs
  zero w 0 4
  let d ← destOf (bit w 8) (fld w 4 4)
  match (fld w 15 2).toNat with
  | 0 => do
      zero w 9 6
      .ok (.bpqry .mask d)
  | 1 => do
      let a ← srcOf (fld w 10 5) (bit w 9)
      .ok (.bpqry (.slot a) d)
  | 2 => do
      zero w 9 6
      .ok (.bpqry .pend d)
  | _ => .error .code

/-- R286, R296, R297: major 0x39. -/
def decMonitor (w : Word) (xs : List Word) : Except Reject Instr :=
  match (fld w 17 5).toNat with
  | 0 => decAB .monw w xs
  | 1 => decAB .monc w xs
  | 2 => decAll .flushres w xs
  | 3 => decBpqry w xs
  | _ => .error .function

def decProbe (w : Word) (xs : List Word) : Except Reject Instr := do
  let a ← srcOf (fld w 12 5) (bit w 11)
  let d ← destOf (bit w 10) (fld w 6 4)
  let o ← immOf 6 (fld w 0 6) xs
  .ok (.probe a d o)

def decWaitx (w : Word) (xs : List Word) : Except Reject Instr := do
  noExt xs
  zero w 0 3
  let a ← srcOf (fld w 9 5) (bit w 8)
  let d ← destOf (bit w 7) (fld w 3 4)
  .ok (.waitx (fld w 14 3) a d)

def decXwr (w : Word) (xs : List Word) : Except Reject Instr := do
  noExt xs
  zero w 0 9
  let d ← destOf (bit w 13) (fld w 9 4)
  .ok (.xwr (fld w 14 3) d)

/-- R190: major 0x3A. -/
def decCopyControl (w : Word) (xs : List Word) : Except Reject Instr :=
  match (fld w 17 5).toNat with
  | 0 => decProbe w xs
  | 1 => decAll .pwb w xs
  | 2 => decAll .pinv w xs
  | 3 => decWaitx w xs
  | 4 => decXwr w xs
  | _ => .error .function

def decRecord (w : Word) (xs : List Word) : Except Reject Instr := do
  let x ← oneExt xs
  zero w 0 3
  zero x 9 13
  let a ← srcOf (fld w 12 5) (bit w 11)
  let d ← destOf (bit w 10) (fld w 6 4)
  if bit x 8 then .ok (.recordHand a d (fld w 3 3) (fld x 0 8))
  else .ok (.record a d (fld w 3 3) (fld x 0 8))

def decRwait (w : Word) (xs : List Word) : Except Reject Instr := do
  noExt xs
  zero w 0 6
  let a ← srcOf (fld w 12 5) (bit w 11)
  let d ← destOf (bit w 10) (fld w 6 4)
  .ok (.rwait a d)

def decFwqry (w : Word) (xs : List Word) : Except Reject Instr := do
  noExt xs
  zero w 0 9
  let k ← fwKindOf (fld w 14 3)
  let d ← destOf (bit w 13) (fld w 9 4)
  .ok (.fwqry k d)

/-- R317: major 0x3B. -/
def decTaskControl (w : Word) (xs : List Word) : Except Reject Instr :=
  match (fld w 17 5).toNat with
  | 0 => decRecord w xs
  | 1 => decRwait w xs
  | 2 => decAll .fwinv w xs
  | 3 => decFwqry w xs
  | _ => .error .function

/-- R340: major 0x3C. -/
def decSystem (w : Word) (xs : List Word) : Except Reject Instr :=
  match (fld w 17 5).toNat with
  | 0 => decA .slmap w xs
  | 1 => decA .slunmap w xs
  | 2 => decAB .preempt w xs
  | 3 => decAB .spill w xs
  | 4 => decAB .restore w xs
  | 5 => decAB .snaprd w xs
  | 6 => decAB .wmask w xs
  | 7 => decA .qpark w xs
  | 8 => decAB .qresume w xs
  | 9 => decAB .s1inv w xs
  | 10 => decAB .s2inv w xs
  | 11 => decMig .migout w xs
  | 12 => decMig .migin w xs
  | 13 => decAB .fnbind w xs
  | 14 => decA .cycr w xs
  | 15 => decAB .throt w xs
  | 16 => decAB .dogset w xs
  | _ => .error .function

/-- R371: major 0x3D. -/
def decLockring (w : Word) (xs : List Word) : Except Reject Instr :=
  match (fld w 17 5).toNat with
  | 0 => decAB .pgexp w xs
  | 1 => decAB .pgimp w xs
  | 2 => decA .lkqry w xs
  | _ => .error .function

/-- Majors 0x00 to 0x1F of the sequencer stream (R53). -/
def decSeqLow (w : Word) (xs : List Word) : Except Reject Instr :=
  match (major w).toNat with
  | 0x01 => decRR .add w xs
  | 0x02 => decRI .addi w xs
  | 0x03 => decRR .sub w xs
  | 0x04 => decR1 .neg w xs
  | 0x05 => decRR .mul w xs
  | 0x06 => decRR .mulh w xs
  | 0x07 => decRR .div w xs
  | 0x08 => decRR .rem w xs
  | 0x09 => decRR .and w xs
  | 0x0A => decRI .andi w xs
  | 0x0B => decRR .or w xs
  | 0x0C => decRI .ori w xs
  | 0x0D => decRR .xor w xs
  | 0x0E => decRI .xori w xs
  | 0x0F => decRR .andn w xs
  | 0x10 => decRR .shl w xs
  | 0x11 => decSI .shli w xs
  | 0x12 => decRR .shr w xs
  | 0x13 => decSI .shri w xs
  | 0x14 => decRR .sar w xs
  | 0x15 => decSI .sari w xs
  | 0x16 => decRR .rol w xs
  | 0x17 => decR1 .clz w xs
  | 0x18 => decR1 .ctz w xs
  | 0x19 => decR1 .popc w xs
  | 0x1A => decRR .min w xs
  | 0x1B => decRR .max w xs
  | 0x1C => decSel w xs
  | 0x1D => decCmp w xs
  | 0x1E => decLi w xs
  | 0x1F => decExtb w xs
  | 0x3F => .error .ext
  | _ => .error .major

/-- Majors 0x20 to 0x3F of the sequencer stream (R53). -/
def decSeqHigh (w : Word) (xs : List Word) : Except Reject Instr :=
  match (major w).toNat with
  | 0x20 => decInsb w xs
  | 0x21 => decIdx w xs
  | 0x22 => decR1 .mov w xs
  | 0x23 => decCsrr w xs
  | 0x24 => decCsrw w xs
  | 0x25 => decLd w xs
  | 0x26 => decSt w xs
  | 0x27 => decB w xs
  | 0x28 => decBcc w xs
  | 0x29 => decJmp w xs
  | 0x2A => decCall w xs
  | 0x2B => decRet w xs
  | 0x2C => decLoop w xs
  | 0x2D => decLend w xs
  | 0x2E => decTrap w xs
  | 0x2F => decSvc w xs
  | 0x30 => decZ .eret w xs
  | 0x31 => decZ .nop w xs
  | 0x32 => decZ .tend w xs
  | 0x33 => decPush w xs
  | 0x34 => decWait w xs
  | 0x35 => decFence w xs
  | 0x36 => decBar w xs
  | 0x37 => decZ .yield w xs
  | 0x38 => decAtomic w xs
  | 0x39 => decMonitor w xs
  | 0x3A => decCopyControl w xs
  | 0x3B => decTaskControl w xs
  | 0x3C => decSystem w xs
  | 0x3D => decLockring w xs
  | 0x3F => .error .ext
  | _ => .error .major

def decSeq (w : Word) (xs : List Word) : Except Reject Instr :=
  if bit w 27 then decSeqHigh w xs else decSeqLow w xs

/-! ## Copy streams (R178) -/

def decTR (f : BitVec 2 → Fmt → Rm → Bool → Imm 13 → Instr) (w : Word) (xs : List Word) :
    Except Reject Instr := do
  let x ← fmtOf (fld w 16 4)
  let n ← immOf 13 (fld w 0 13) xs
  .ok (f (fld w 20 2) x (rmOf (fld w 14 2)) (bit w 13) n)

def decLdo (w : Word) (xs : List Word) : Except Reject Instr := do
  zero w 13 1
  let n ← immOf 13 (fld w 0 13) xs
  .ok (.ldo (fld w 20 2) (bit w 19) (fld w 14 5) n)

def decTG (f : BitVec 2 → BitVec 4 → BitVec 16 → Instr) (w : Word) (xs : List Word) : Except Reject Instr := do
  noExt xs
  .ok (f (fld w 20 2) (fld w 16 4) (fld w 0 16))

def decTC (f : CvWord → Instr) (w : Word) (xs : List Word) : Except Reject Instr := do
  let x ← oneExt xs
  zero w 0 6
  let s ← fmtOf (fld w 16 4)
  let d ← fmtOf (fld w 12 4)
  .ok (f ⟨fld w 20 2, s, d, rmOf (fld w 10 2), bit w 9, bit w 8, bit w 7, bit w 6, fld x 0 22⟩)

def decXid (w : Word) (xs : List Word) : Except Reject Instr := do
  noExt xs
  zero w 0 20
  .ok (.xid (fld w 20 2))

def decAcc (w : Word) (xs : List Word) : Except Reject Instr := do
  zero w 13 4
  let t ← accTyOf (fld w 17 3)
  let n ← immOf 13 (fld w 0 13) xs
  .ok (.acc (fld w 20 2) t n)

def decLoad (w : Word) (xs : List Word) : Except Reject Instr :=
  match (major w).toNat with
  | 0x01 => decZ .engineNop w xs
  | 0x02 => decTR .ldt w xs
  | 0x03 => decLdo w xs
  | 0x04 => decTG .gth w xs
  | 0x05 => decTC .cvd w xs
  | 0x06 => decXid w xs
  | 0x3F => .error .ext
  | _ => .error .major

def decStore (w : Word) (xs : List Word) : Except Reject Instr :=
  match (major w).toNat with
  | 0x01 => decZ .engineNop w xs
  | 0x02 => decTR .stt w xs
  | 0x03 => decAcc w xs
  | 0x04 => decTG .sct w xs
  | 0x05 => decTC .cvq w xs
  | 0x06 => decXid w xs
  | 0x3F => .error .ext
  | _ => .error .major

/-! ## Vector stream (R205) -/

/-- VA with D, A, B, TY, RM, MK and SAT in SUB bit 0. DESIGN CHOICE (unsafe, entry 78): RM is reserved where an instruction does
not round, and the manual does not say whether a word of a rounding mnemonic that does not round, such as an integer VADD, is
such an instruction; any RM is accepted there. The same holds for VRED, VSCAN and VCVT. -/
def decVArith (f : BitVec 4 → BitVec 4 → BitVec 4 → VTy → Rm → BitVec 2 → Bool → Instr) (w : Word)
    (xs : List Word) : Except Reject Instr := do
  noExt xs
  zero w 1 2
  .ok (f (fld w 18 4) (fld w 14 4) (fld w 10 4) (vtyOf (fld w 7 3)) (rmOf (fld w 5 2)) (fld w 3 2) (bit w 0))

def decVF (f : BitVec 4 → BitVec 4 → BitVec 4 → BitVec 4 → FTy → Rm → BitVec 2 → Instr) (w : Word)
    (xs : List Word) : Except Reject Instr := do
  noExt xs
  .ok (f (fld w 18 4) (fld w 14 4) (fld w 10 4) (fld w 6 4) (ftyOf (fld w 4 2)) (rmOf (fld w 2 2)) (fld w 0 2))

/-- VA, float, two sources. -/
def decVFloat2 (f : BitVec 4 → BitVec 4 → BitVec 4 → FTy → Rm → BitVec 2 → Instr) (w : Word) (xs : List Word) :
    Except Reject Instr := do
  noExt xs
  zero w 0 3
  let t ← ftyOf3 (fld w 7 3)
  .ok (f (fld w 18 4) (fld w 14 4) (fld w 10 4) t (rmOf (fld w 5 2)) (fld w 3 2))

/-- VA, float, B = 0. -/
def decVFloat1 (f : BitVec 4 → BitVec 4 → FTy → Rm → BitVec 2 → Instr) (w : Word) (xs : List Word) :
    Except Reject Instr := do
  noExt xs
  zero w 0 3
  zero w 10 4
  let t ← ftyOf3 (fld w 7 3)
  .ok (f (fld w 18 4) (fld w 14 4) t (rmOf (fld w 5 2)) (fld w 3 2))

def decVMinMax (f : BitVec 4 → BitVec 4 → BitVec 4 → VTy → BitVec 2 → Instr) (w : Word) (xs : List Word) :
    Except Reject Instr := do
  noExt xs
  zero w 0 3
  zero w 5 2
  .ok (f (fld w 18 4) (fld w 14 4) (fld w 10 4) (vtyOf (fld w 7 3)) (fld w 3 2))

def decVAbs (f : BitVec 4 → BitVec 4 → VTy → BitVec 2 → Bool → Instr) (w : Word) (xs : List Word) :
    Except Reject Instr := do
  noExt xs
  zero w 1 2
  zero w 5 2
  zero w 10 4
  .ok (f (fld w 18 4) (fld w 14 4) (vtyOf (fld w 7 3)) (fld w 3 2) (bit w 0))

def decVcmp (w : Word) (xs : List Word) : Except Reject Instr := do
  noExt xs
  zero w 18 2
  zero w 5 2
  let c ← vcondOf (fld w 0 3)
  .ok (.vcmp (fld w 20 2) (fld w 14 4) (fld w 10 4) c (vtyOf (fld w 7 3)) (fld w 3 2))

def decVsel (w : Word) (xs : List Word) : Except Reject Instr := do
  noExt xs
  zero w 2 1
  zero w 5 5
  .ok (.vsel (fld w 18 4) (fld w 14 4) (fld w 10 4) (fld w 0 2) (fld w 3 2))

/-- VA without TY, RM and SUB. -/
def decVBits (f : BitVec 4 → BitVec 4 → BitVec 4 → BitVec 2 → Instr) (w : Word) (xs : List Word) :
    Except Reject Instr := do
  noExt xs
  zero w 0 3
  zero w 5 5
  .ok (f (fld w 18 4) (fld w 14 4) (fld w 10 4) (fld w 3 2))

def decVShift (f : BitVec 4 → BitVec 4 → BitVec 4 → ITy → BitVec 2 → Instr) (w : Word) (xs : List Word) :
    Except Reject Instr := do
  noExt xs
  zero w 0 3
  zero w 5 2
  let t ← ityOf3 (fld w 7 3)
  .ok (f (fld w 18 4) (fld w 14 4) (fld w 10 4) t (fld w 3 2))

def decVcvt (w : Word) (xs : List Word) : Except Reject Instr := do
  noExt xs
  zero w 2 1
  .ok (.vcvt (fld w 18 4) (fld w 14 4) (vtyOf (fld w 7 3)) (vtyOf (fld w 10 3)) (rmOf (fld w 5 2)) (fld w 3 2)
    (bit w 13) (fld w 0 2))

def decVred (w : Word) (xs : List Word) : Except Reject Instr := do
  noExt xs
  zero w 10 4
  let o ← redOf (fld w 0 3)
  .ok (.vred (fld w 18 4) (fld w 14 4) o (vtyOf (fld w 7 3)) (rmOf (fld w 5 2)) (fld w 3 2))

def decVscan (w : Word) (xs : List Word) : Except Reject Instr := do
  noExt xs
  zero w 10 4
  let o ← scanOf (fld w 0 3)
  .ok (.vscan (fld w 18 4) (fld w 14 4) o (vtyOf (fld w 7 3)) (rmOf (fld w 5 2)) (fld w 3 2))

def decVbcast (w : Word) (xs : List Word) : Except Reject Instr :=
  match (fld w 16 2).toNat with
  | 0 => do
      noExt xs
      zero w 0 6
      .ok (.vbcast (fld w 18 4) (fld w 12 4) (fld w 6 6))
  | 1 => do
      let i ← immOf 16 (fld w 0 16) xs
      .ok (.vbcastHi (fld w 18 4) i)
  | 2 => do
      let i ← immOf 16 (fld w 0 16) xs
      .ok (.vbcastLo (fld w 18 4) i)
  | _ => .error .rule

def decVrot (w : Word) (xs : List Word) : Except Reject Instr := do
  noExt xs
  zero w 0 3
  zero w 5 3
  .ok (.vrot (fld w 18 4) (fld w 14 4) (fld w 8 6) (fld w 3 2))

/-- VMOV by SUB. DESIGN CHOICE (unsafe, entry 78): a field that a form does not use (B in every form, A in .flg, D, A and MK in
.clr, D and MK in .tab) is taken as reserved, which the manual does not say. -/
def decVmov (w : Word) (xs : List Word) : Except Reject Instr := do
  noExt xs
  zero w 5 9
  match (fld w 0 3).toNat with
  | 0 => .ok (.vmov (fld w 18 4) (fld w 14 4) (fld w 3 2))
  | 1 => do
      zero w 14 4
      .ok (.vmovFlg (fld w 18 4) (fld w 3 2))
  | 2 => do
      zero w 14 8
      zero w 3 2
      .ok .vmovClr
  | 3 => do
      zero w 18 4
      zero w 3 2
      .ok (.vmovTab (fld w 14 4))
  | _ => .error .rule

def decMset (w : Word) (xs : List Word) : Except Reject Instr := do
  noExt xs
  match (fld w 18 2).toNat with
  | 0 => do
      zero w 7 11
      .ok (.mset (fld w 20 2) (fld w 0 7))
  | 1 => do
      zero w 0 14
      .ok (.msetV (fld w 20 2) (fld w 14 4))
  | _ => .error .rule

def decML (f : BitVec 2 → BitVec 2 → BitVec 2 → Bool → Bool → Instr) (w : Word) (xs : List Word) :
    Except Reject Instr := do
  noExt xs
  zero w 0 14
  .ok (f (fld w 20 2) (fld w 18 2) (fld w 16 2) (bit w 15) (bit w 14))

def decPset (w : Word) (xs : List Word) : Except Reject Instr := do
  let f ← psFieldOf (fld w 15 3)
  let i ← immOf 15 (fld w 0 15) xs
  .ok (.pset (fld w 18 4) f i)

def decPbind (w : Word) (xs : List Word) : Except Reject Instr := do
  noExt xs
  zero w 0 16
  .ok (.pbind (fld w 20 2) (fld w 16 4))

def decPskip (w : Word) (xs : List Word) : Except Reject Instr := do
  noExt xs
  .ok (.pskip (fld w 20 2) (fld w 0 20))

def decVconj (w : Word) (xs : List Word) : Except Reject Instr := do
  noExt xs
  zero w 0 3
  zero w 5 2
  zero w 10 4
  let t ← ftyOf3 (fld w 7 3)
  .ok (.vconj (fld w 18 4) (fld w 14 4) t (fld w 3 2))

def decVC (f : BitVec 4 → BitVec 4 → BitVec 4 → FTy → Bool → Instr) (w : Word) (xs : List Word) :
    Except Reject Instr := do
  noExt xs
  zero w 0 7
  .ok (f (fld w 18 4) (fld w 14 4) (fld w 10 4) (ftyOf (fld w 8 2)) (bit w 7))

def decVhad (w : Word) (xs : List Word) : Except Reject Instr := do
  noExt xs
  zero w 10 4
  let t ← ftyOf3 (fld w 7 3)
  .ok (.vhad (fld w 18 4) (fld w 14 4) t (rmOf (fld w 5 2)) (fld w 3 2) (bit w 2) (bit w 1) (bit w 0))

def decVQ (f : BitVec 4 → BitVec 4 → BitVec 4 → FTy → Rm → MxTy → Bool → Instr) (w : Word) (xs : List Word) :
    Except Reject Instr := do
  noExt xs
  zero w 0 3
  let m ← mxOf (fld w 4 2)
  .ok (f (fld w 18 4) (fld w 14 4) (fld w 10 4) (ftyOf (fld w 8 2)) (rmOf (fld w 6 2)) m (bit w 3))

def decVec (w : Word) (xs : List Word) : Except Reject Instr :=
  match (major w).toNat with
  | 0x01 => decZ .engineNop w xs
  | 0x02 => decPset w xs
  | 0x03 => decPbind w xs
  | 0x04 => decPskip w xs
  | 0x05 => decVArith .vadd w xs
  | 0x06 => decVArith .vsub w xs
  | 0x07 => decVArith .vmul w xs
  | 0x08 => decVF .vfma w xs
  | 0x09 => decVF .vfms w xs
  | 0x0A => decVF .vfnma w xs
  | 0x0B => decVFloat2 .vdiv w xs
  | 0x0C => decVFloat1 .vsqrt w xs
  | 0x0D => decVFloat1 .vrcp w xs
  | 0x0E => decVFloat1 .vrsq w xs
  | 0x0F => decVMinMax .vmin w xs
  | 0x10 => decVMinMax .vmax w xs
  | 0x11 => decVAbs .vabs w xs
  | 0x12 => decVAbs .vneg w xs
  | 0x13 => decVcmp w xs
  | 0x14 => decVsel w xs
  | 0x15 => decVBits .vand w xs
  | 0x16 => decVBits .vor w xs
  | 0x17 => decVBits .vxor w xs
  | 0x18 => decVShift .vshl w xs
  | 0x19 => decVShift .vshr w xs
  | 0x1A => decVShift .vsar w xs
  | 0x1B => decVcvt w xs
  | 0x1C => decVFloat1 .vrnd w xs
  | 0x1D => decVFloat1 .vexp2 w xs
  | 0x1E => decVFloat1 .vlog2 w xs
  | 0x1F => decVred w xs
  | 0x20 => decVscan w xs
  | 0x21 => decVBits .vperm w xs
  | 0x22 => decVbcast w xs
  | 0x23 => decVrot w xs
  | 0x24 => decVmov w xs
  | 0x25 => decMset w xs
  | 0x26 => decML .mand w xs
  | 0x27 => decML .mor w xs
  | 0x28 => decVconj w xs
  | 0x29 => decVFloat1 .vnorm w xs
  | 0x2A => decVFloat2 .vamul w xs
  | 0x2B => decVC .vcomp w xs
  | 0x2C => decVC .vdcmp w xs
  | 0x2D => decVhad w xs
  | 0x2E => decVQ .vqnt w xs
  | 0x2F => decVQ .vdq w xs
  | 0x3F => .error .ext
  | _ => .error .major

/-! ## Matrix stream (R243) -/

def decCL (f : MSide → Word → Instr) (w : Word) (xs : List Word) : Except Reject Instr := do
  let x ← oneExt xs
  zero w 10 10
  let s ← msideOf (fld w 20 2)
  .ok (f s (fld x 0 22 ++ fld w 0 10))

def decMtab (w : Word) (xs : List Word) : Except Reject Instr := do
  noExt xs
  if bit w 19 then
    zero w 0 3
    .ok (.mtabSlot (fld w 20 2) (bit w 18) (fld w 13 5) (fld w 3 10))
  else
    zero w 0 16
    let p ← presetOf (fld w 16 3)
    .ok (.mtab (fld w 20 2) p)

def decMzero (w : Word) (xs : List Word) : Except Reject Instr := do
  noExt xs
  zero w 0 14
  .ok (.mzero (fld w 14 8))

def mulWordOf (w x y : Word) : MulWord :=
  ⟨fld w 19 3, fld w 17 2, bit w 16, bit w 15, fld w 0 14, fld x 0 16, fld y 0 16⟩

def decMM (f : MulWord → Instr) (w : Word) (xs : List Word) : Except Reject Instr := do
  let (x, y) ← twoExts xs
  zero x 16 6
  zero y 16 6
  zero w 14 1
  .ok (f (mulWordOf w x y))

def decMmas (w : Word) (xs : List Word) : Except Reject Instr := do
  let (x, y) ← twoExts xs
  zero x 16 6
  zero y 16 6
  .ok (.mmas (mulWordOf w x y) (bit w 14))

def outWordOf (w x y : Word) : OutWord :=
  ⟨fld w 19 3, ftyOf (fld w 17 2), fld w 7 7, fld w 0 7, fld x 0 19, fld y 0 19⟩

def decMout (w : Word) (xs : List Word) : Except Reject Instr := do
  let (x, y) ← twoExts xs
  zero x 19 3
  zero y 19 3
  zero w 14 1
  .ok (.mout (outWordOf w x y) (rmOf (fld w 15 2)))

def decMaccld (w : Word) (xs : List Word) : Except Reject Instr := do
  let (x, y) ← twoExts xs
  zero x 19 3
  zero y 19 3
  zero w 14 3
  .ok (.maccld (outWordOf w x y))

def decMfill (w : Word) (xs : List Word) : Except Reject Instr := do
  let (x, y) ← twoExts xs
  zero x 16 6
  zero y 16 6
  match (fld w 20 2).toNat with
  | 3 => .error .code
  | 2 => do
      zero w 0 20
      zero x 3 13
      .ok (.mfillAcc (fld x 0 3) (fld y 0 16))
  | _ => do
      let m ← fillModeOf (fld w 18 2)
      let t ← fillFmtOf (fld w 14 4)
      .ok (.mfill ⟨bit w 20, m, t, fld w 12 2, fld w 9 3, bit w 8, fld w 0 8, fld x 0 16, fld y 0 16⟩)

def decMqry (w : Word) (xs : List Word) : Except Reject Instr := do
  let x ← oneExt xs
  zero w 0 22
  zero x 19 3
  .ok (.mqry (fld x 0 19))

def decMat (w : Word) (xs : List Word) : Except Reject Instr :=
  match (major w).toNat with
  | 0x01 => decZ .engineNop w xs
  | 0x02 => decZ .mlease w xs
  | 0x03 => decZ .munlease w xs
  | 0x04 => decCL .mclaim w xs
  | 0x05 => decCL .mrel w xs
  | 0x06 => decMtab w xs
  | 0x07 => decMzero w xs
  | 0x08 => decMM .mma w xs
  | 0x09 => decMmas w xs
  | 0x0A => decMM .mmat w xs
  | 0x0B => decMout w xs
  | 0x0C => decMaccld w xs
  | 0x0D => decZ .mgang w xs
  | 0x0E => decZ .mungang w xs
  | 0x0F => decZ .msync w xs
  | 0x10 => decMfill w xs
  | 0x11 => decMqry w xs
  | 0x3F => .error .ext
  | _ => .error .major

/-! ## A word of a stream -/

def decStream (e : Engine) (w : Word) (xs : List Word) : Except Reject Instr :=
  match e with
  | .seq => decSeq w xs
  | .load => decLoad w xs
  | .vec => decVec w xs
  | .mat => decMat w xs
  | .store => decStore w xs

/-- An instruction's word with its EXT words (R51). -/
def decodeWord (e : Engine) (w : Word) (xs : List Word) : Except Reject Instr :=
  if xs.any (fun x => fld x 28 4 != 0) then .error .extChain
  else
    match decStream e w xs with
    | .ok i => if i.wf then .ok i else .error .rule
    | .error r => .error r

/-- Decoding of any bytes: the instruction, its chain bits and its length in words. -/
def decode (e : Engine) (bytes : List Byte) : Except Reject (Instr × Chain × Nat) :=
  match splitWords (wordsOf bytes) with
  | none => .error .truncated
  | some (w, xs) =>
    match decodeWord e w xs with
    | .ok i => .ok (i, Chain.ofWord w, 1 + xs.length)
    | .error r => .error r

/-- The first stream, in the order sequencer, load, vector, matrix, store, in which the words decode. -/
def decodeAny (ws : List Word) : Option (Engine × Instr × Nat) :=
  match splitWords ws with
  | none => none
  | some (w, xs) =>
    [Engine.seq, .load, .vec, .mat, .store].findSome? fun e =>
      match decodeWord e w xs with
      | .ok i => some (e, i, 1 + xs.length)
      | .error _ => none

/-- The words of a number whose bits are counted as spec/opcode_table.json counts them: at most three words. -/
def tableWords (nbits w : Nat) : List Word :=
  let v := w % 2 ^ nbits
  [BitVec.ofNat 32 v, BitVec.ofNat 32 (v / 2 ^ 32), BitVec.ofNat 32 (v / 2 ^ 64)]

/-- The instruction that the decoder reads from the bits of an instruction. -/
def decodeTableWord (nbits w : Nat) : Option Instr :=
  (decodeAny (tableWords nbits w)).map (·.2.1)

/-! ## Encoder -/

def Src.sel : Src → BitVec 5
  | .belt i => 0#1 ++ i
  | .named k _ => 1#1 ++ k

def Src.mark : Src → BitVec 1
  | .belt _ => 0#1
  | .named _ l => BitVec.ofBool l

def Dest.nd : Dest → BitVec 1
  | .belt => 0#1
  | .named _ => 1#1

def Dest.dk : Dest → BitVec 4
  | .belt => 0#4
  | .named k => k

def IntTy.code : IntTy → BitVec 3
  | .s64 => 0
  | .z64 => 1
  | .s32 => 2
  | .z32 => 3

def Cond.code : Cond → BitVec 4
  | .eq => 0
  | .ne => 1
  | .lt => 2
  | .ge => 3
  | .gt => 4
  | .le => 5
  | .lo => 6
  | .hs => 7
  | .hi => 8
  | .ls => 9

def LdSz.code : LdSz → BitVec 3
  | .z8 => 0
  | .s8 => 1
  | .z16 => 2
  | .s16 => 3
  | .z32 => 4
  | .s32 => 5
  | .d64 => 6

def StSz.code : StSz → BitVec 2
  | .byte => 0
  | .half => 1
  | .word => 2
  | .double => 3

def Scope.code : Scope → BitVec 3
  | .core => 0
  | .quad => 1
  | .die => 2
  | .pkg => 3
  | .pod => 4

def Queue.code : Queue → BitVec 2
  | .load => 0
  | .vec => 1
  | .mat => 2
  | .store => 3

def AtTy.code : AtTy → BitVec 3
  | .s64 => 0
  | .z64 => 1
  | .s32 => 2
  | .z32 => 3
  | .f64 => 4
  | .f32 => 5
  | .f16x2 => 6
  | .bf16x2 => 7

def FwKind.code : FwKind → BitVec 3
  | .hit => 0
  | .hitc => 1
  | .miss => 2
  | .viol => 3
  | .unc => 4
  | .ent => 5

def Rm.code : Rm → BitVec 2
  | .rne => 0
  | .rz => 1
  | .rpi => 2
  | .rmi => 3

def Fmt.code : Fmt → BitVec 4
  | .raw => 0
  | .f64 => 1
  | .f32 => 2
  | .f16 => 3
  | .bf16 => 4
  | .e4m3 => 5
  | .e5m2 => 6
  | .mx8 => 7
  | .mx6 => 8
  | .mx4 => 9

def AccTy.code : AccTy → BitVec 3
  | .s64 => 0
  | .s32 => 1
  | .f64 => 2
  | .f32 => 3
  | .f16x2 => 4
  | .bf16x2 => 5

def VTy.code : VTy → BitVec 3
  | .f64 => 0
  | .f32 => 1
  | .f16 => 2
  | .bf16 => 3
  | .s64 => 4
  | .z64 => 5
  | .s32 => 6
  | .z32 => 7

def FTy.code : FTy → BitVec 2
  | .f64 => 0
  | .f32 => 1
  | .f16 => 2
  | .bf16 => 3

def ITy.code : ITy → BitVec 3
  | .s64 => 4
  | .z64 => 5
  | .s32 => 6
  | .z32 => 7

def PsField.code : PsField → BitVec 3
  | .base => 0
  | .step => 1
  | .lstr => 2
  | .gsel => 3

def VCond.code : VCond → BitVec 3
  | .eq => 0
  | .ne => 1
  | .lt => 2
  | .le => 3
  | .gt => 4
  | .ge => 5
  | .un => 6

def RedOp.code : RedOp → BitVec 3
  | .add => 0
  | .min => 1
  | .max => 2

def ScanOp.code : ScanOp → BitVec 3
  | .add => 0
  | .addx => 1
  | .min => 2
  | .max => 3

def MxTy.code : MxTy → BitVec 2
  | .mx8 => 0
  | .mx6 => 1
  | .mx4 => 2

def MSide.code : MSide → BitVec 2
  | .a => 0
  | .b => 1
  | .acc => 2

def Preset.code : Preset → BitVec 3
  | .r => 0
  | .c => 1
  | .s => 2
  | .h => 3
  | .g2 => 4
  | .g3 => 5

def FillMode.code : FillMode → BitVec 2
  | .const => 0
  | .comp => 1
  | .diag => 2

def FillFmt.code : FillFmt → BitVec 4
  | .f16 => 3
  | .bf16 => 4
  | .e4m3 => 5
  | .e5m2 => 6

/-- One bit of a field. -/
def b1 (b : Bool) : BitVec 1 := BitVec.ofBool b

def Chain.bits (c : Chain) : BitVec 4 := b1 c.wp ++ b1 c.wn ++ b1 c.sp ++ b1 c.sn

/-- An EXT word (R50). -/
def extWord (v : BitVec 22) : Word := 0#4 ++ 0x3F#6 ++ v

/-- Low bits of an immediate: those in the instruction's own word. -/
def Imm.low {w : Nat} : Imm w → BitVec w
  | .e0 v => v
  | .e1 v => v.extractLsb' 0 w
  | .e2 v => v.extractLsb' 0 w

/-- EXT words of an immediate. -/
def Imm.extWords {w : Nat} : Imm w → List Word
  | .e0 _ => []
  | .e1 v => [extWord (v.extractLsb' w 22)]
  | .e2 v => [extWord (v.extractLsb' w 22), extWord (v.extractLsb' (w + 22) 22)]

/-- Major and operand bits of an instruction, and its EXT words. -/
abbrev Enc := BitVec 6 × BitVec 22 × List Word

def encRR (m : BitVec 6) (a b : Src) (d : Dest) (t : IntTy) : Enc :=
  (m, a.sel ++ b.sel ++ a.mark ++ b.mark ++ d.nd ++ d.dk ++ 0#2 ++ t.code, [])

def encR1 (m : BitVec 6) (a : Src) (d : Dest) (t : IntTy) : Enc :=
  (m, a.sel ++ 0#5 ++ a.mark ++ 0#1 ++ d.nd ++ d.dk ++ 0#2 ++ t.code, [])

def encRI (m : BitVec 6) (a : Src) (d : Dest) (i : Imm 11) : Enc :=
  (m, a.sel ++ a.mark ++ d.nd ++ d.dk ++ i.low, i.extWords)

def encSI (m : BitVec 6) (a : Src) (d : Dest) (t : IntTy) (s : BitVec 6) : Enc :=
  (m, a.sel ++ a.mark ++ d.nd ++ d.dk ++ 0#2 ++ t.code ++ s, [])

/-- The layout of R281's instruction word, without EXT. -/
def encAB (m : BitVec 6) (fn : BitVec 5) (a b : Src) (d : Dest) : Enc :=
  (m, fn ++ a.sel ++ b.sel ++ a.mark ++ b.mark ++ d.nd ++ d.dk, [])

def encA (m : BitVec 6) (fn : BitVec 5) (a : Src) (d : Dest) : Enc :=
  (m, fn ++ a.sel ++ 0#5 ++ a.mark ++ 0#1 ++ d.nd ++ d.dk, [])

def encMig (fn : BitVec 5) (a : Src) (sb : BitVec 5) (lb : Bool) (d : Dest) : Enc :=
  (0x3C#6, fn ++ a.sel ++ sb ++ a.mark ++ b1 lb ++ d.nd ++ d.dk, [])

def encAll (m : BitVec 6) (fn : BitVec 5) : Option Src → Enc
  | some a => (m, fn ++ a.sel ++ a.mark ++ 0#1 ++ 0#10, [])
  | none => (m, fn ++ 0#5 ++ 0#1 ++ 1#1 ++ 0#10, [])

/-- The EXT word of a hub atomic (R281). -/
def atExt (ty : AtTy) (sc : Bool) (sx : BitVec 5) (lx : BitVec 1) (slot : BitVec 8) : Word :=
  extWord (ty.code ++ b1 sc ++ sx ++ lx ++ slot ++ 0#4)

def encAt (fn : BitVec 5) (a v : Src) (d : Dest) (ty : AtTy) (sc : Bool) (slot : BitVec 8) : Enc :=
  (0x38#6, fn ++ a.sel ++ v.sel ++ a.mark ++ v.mark ++ d.nd ++ d.dk, [atExt ty sc 0 0 slot])

def encRecord (a : Src) (d : Dest) (wq : BitVec 3) (slot : BitVec 8) (hand : Bool) : Enc :=
  (0x3B#6, 0#5 ++ a.sel ++ a.mark ++ d.nd ++ d.dk ++ wq ++ 0#3, [extWord (0#13 ++ b1 hand ++ slot)])

def encTR (ch : BitVec 2) (x : Fmt) (rm : Rm) (sat : Bool) (n : Imm 13) : Enc :=
  (0x02#6, ch ++ x.code ++ rm.code ++ b1 sat ++ n.low, n.extWords)

def encTC (w : CvWord) : Enc :=
  (0x05#6, w.ch ++ w.sf.code ++ w.df.code ++ w.rm.code ++ b1 w.sat ++ b1 w.blk ++ b1 w.had ++ b1 w.lead ++ 0#6,
    [extWord w.len])

def encVA (m : BitVec 6) (d a b : BitVec 4) (t : BitVec 3) (rm mk : BitVec 2) (sub : BitVec 3) : Enc :=
  (m, d ++ a ++ b ++ t ++ rm ++ mk ++ sub, [])

def encVF (m : BitVec 6) (d a b c : BitVec 4) (t : FTy) (rm : Rm) (mk : BitVec 2) : Enc :=
  (m, d ++ a ++ b ++ c ++ t.code ++ rm.code ++ mk, [])

/-- TY code of a float type. -/
def FTy.code3 (t : FTy) : BitVec 3 := 0#1 ++ t.code

def encML (m : BitVec 6) (md ma mb : BitVec 2) (ia ib : Bool) : Enc :=
  (m, md ++ ma ++ mb ++ b1 ia ++ b1 ib ++ 0#14, [])

def encVC (m : BitVec 6) (d a x : BitVec 4) (t : FTy) (k4 : Bool) : Enc :=
  (m, d ++ a ++ x ++ t.code ++ b1 k4 ++ 0#7, [])

def encVQ (m : BitVec 6) (d a s : BitVec 4) (t : FTy) (rm : Rm) (mf : MxTy) (blk : Bool) : Enc :=
  (m, d ++ a ++ s ++ t.code ++ rm.code ++ mf.code ++ b1 blk ++ 0#3, [])

def encCL (m : BitVec 6) (s : MSide) (mask : Word) : Enc :=
  (m, s.code ++ 0#10 ++ mask.extractLsb' 0 10, [extWord (mask.extractLsb' 10 22)])

def encMM (m : BitVec 6) (w : MulWord) (ks : Bool) : Enc :=
  (m, w.pg ++ w.st ++ b1 w.ca ++ b1 w.cb ++ b1 ks ++ w.klenM1, [extWord (0#6 ++ w.aadr), extWord (0#6 ++ w.badr)])

def encOT (m : BitVec 6) (w : OutWord) (rm : BitVec 2) : Enc :=
  (m, w.pl ++ w.df.code ++ rm ++ 0#1 ++ w.row0 ++ w.nrowM1, [extWord (0#3 ++ w.soff), extWord (0#3 ++ w.sstr)])

def encZ (m : BitVec 6) : Enc := (m, 0#22, [])

/-- Major, operands and EXT words of a word of a stream; none for an event. -/
def encBody (i : Instr) : Option Enc :=
  match i with
  | .add a b d t => some (encRR 0x01 a b d t)
  | .sub a b d t => some (encRR 0x03 a b d t)
  | .and a b d t => some (encRR 0x09 a b d t)
  | .or a b d t => some (encRR 0x0B a b d t)
  | .xor a b d t => some (encRR 0x0D a b d t)
  | .andn a b d t => some (encRR 0x0F a b d t)
  | .shl a b d t => some (encRR 0x10 a b d t)
  | .shr a b d t => some (encRR 0x12 a b d t)
  | .sar a b d t => some (encRR 0x14 a b d t)
  | .rol a b d t => some (encRR 0x16 a b d t)
  | .min a b d t => some (encRR 0x1A a b d t)
  | .max a b d t => some (encRR 0x1B a b d t)
  | .mul a b d t => some (encRR 0x05 a b d t)
  | .mulh a b d t => some (encRR 0x06 a b d t)
  | .div a b d t => some (encRR 0x07 a b d t)
  | .rem a b d t => some (encRR 0x08 a b d t)
  | .neg a d t => some (encR1 0x04 a d t)
  | .clz a d t => some (encR1 0x17 a d t)
  | .ctz a d t => some (encR1 0x18 a d t)
  | .popc a d t => some (encR1 0x19 a d t)
  | .mov a d t => some (encR1 0x22 a d t)
  | .cmp a b d c => some (0x1D#6, a.sel ++ b.sel ++ a.mark ++ b.mark ++ d.nd ++ d.dk ++ 0#1 ++ c.code, [])
  | .addi a d n => some (encRI 0x02 a d n)
  | .andi a d n => some (encRI 0x0A a d n)
  | .ori a d n => some (encRI 0x0C a d n)
  | .xori a d n => some (encRI 0x0E a d n)
  | .shli a d t s => some (encSI 0x11 a d t s)
  | .shri a d t s => some (encSI 0x13 a d t s)
  | .sari a d t s => some (encSI 0x15 a d t s)
  | .li d n => some (0x1E#6, d.nd ++ d.dk ++ n.low, n.extWords)
  | .sel c a b d => some (0x1C#6, c.sel ++ a.sel ++ b.sel ++ a.mark ++ b.mark ++ d.nd ++ d.dk, [])
  | .extb a d sgn pos len =>
      some (0x1F#6, a.sel ++ a.mark ++ d.nd ++ d.dk ++ b1 sgn ++ 0#10, [extWord (0#10 ++ len ++ pos)])
  | .insb a b d pos len =>
      some (0x20#6, a.sel ++ b.sel ++ a.mark ++ b.mark ++ d.nd ++ d.dk ++ 0#5, [extWord (0#10 ++ len ++ pos)])
  | .idx lv d n => some (0x21#6, lv ++ d.nd ++ d.dk ++ n.low, n.extWords)
  | .csrr n d => some (0x23#6, n ++ d.nd ++ d.dk ++ 0#7, [])
  | .csrw n a => some (0x24#6, n ++ a.sel ++ a.mark ++ 0#6, [])
  | .ld a d z slot off => some (0x25#6, a.sel ++ a.mark ++ d.nd ++ d.dk ++ z.code ++ slot, off.extWords)
  | .st a b z off => some (0x26#6, a.sel ++ b.sel ++ a.mark ++ b.mark ++ z.code ++ 0#8, off.extWords)
  | .b off => some (0x27#6, off.low, off.extWords)
  | .bcc a b c off => some (0x28#6, a.sel ++ b.sel ++ a.mark ++ b.mark ++ c.code ++ off.low, off.extWords)
  | .jmp a off => some (0x29#6, a.sel ++ a.mark ++ off.low, off.extWords)
  | .call d off => some (0x2A#6, d.nd ++ d.dk ++ off.low, off.extWords)
  | .ret a => some (0x2B#6, a.sel ++ a.mark ++ 0#16, [])
  | .loop a stg plen blen => some (0x2C#6, a.sel ++ a.mark ++ stg ++ plen ++ blen.low, blen.extWords)
  | .lend epl => some (0x2D#6, epl ++ 0#16, [])
  | .trap c => some (0x2E#6, 0#6 ++ c, [])
  | .svc (some d) c => some (0x2F#6, 1#1 ++ d.nd ++ d.dk ++ c, [])
  | .svc none c => some (0x2F#6, 0#6 ++ c, [])
  | .eret => some (encZ 0x30)
  | .nop => some (encZ 0x31)
  | .tend => some (encZ 0x32)
  | .push q n => some (0x33#6, q.code ++ n ++ 0#18, [])
  | .wait l s c m => some (0x34#6, l ++ s ++ c ++ m ++ 0#2, [])
  | .fence s q => some (0x35#6, s.code ++ b1 q ++ 0#18, [])
  | .bar s id n => some (0x36#6, s.code ++ id ++ n.sel ++ n.mark ++ 0#9, [])
  | .yield => some (encZ 0x37)
  | .ald a sb d ty sc slot =>
      some (0x38#6, 0#5 ++ a.sel ++ sb ++ a.mark ++ 0#1 ++ d.nd ++ d.dk, [atExt ty sc 0 0 slot])
  | .ast a v ty sc => some (encAt 1 a v .belt ty sc 0)
  | .aadd a v d ty sc slot => some (encAt 2 a v d ty sc slot)
  | .aand a v d ty sc slot => some (encAt 3 a v d ty sc slot)
  | .aor a v d ty sc slot => some (encAt 4 a v d ty sc slot)
  | .axor a v d ty sc slot => some (encAt 5 a v d ty sc slot)
  | .amin a v d ty sc slot => some (encAt 6 a v d ty sc slot)
  | .amax a v d ty sc slot => some (encAt 7 a v d ty sc slot)
  | .aswp a v d ty sc slot => some (encAt 8 a v d ty sc slot)
  | .acas a e n d ty sc slot =>
      some (0x38#6, 9#5 ++ a.sel ++ e.sel ++ a.mark ++ e.mark ++ d.nd ++ d.dk, [atExt ty sc n.sel n.mark slot])
  | .acas128 a n sx lx d sc slot =>
      some (0x38#6, 10#5 ++ a.sel ++ (1#1 ++ n ++ 0#2) ++ a.mark ++ 0#1 ++ d.nd ++ d.dk,
        [atExt .s64 sc sx (b1 lx) slot])
  | .afadd a v d ty sc slot => some (encAt 11 a v d ty sc slot)
  | .afmin a v d ty sc slot => some (encAt 12 a v d ty sc slot)
  | .afmax a v d ty sc slot => some (encAt 13 a v d ty sc slot)
  | .monw a v d => some (encAB 0x39 0 a v d)
  | .monc a v d => some (encAB 0x39 1 a v d)
  | .flushres a => some (encAll 0x39 2 a)
  | .bpqry .mask d => some (0x39#6, 3#5 ++ 0#2 ++ 0#6 ++ d.nd ++ d.dk ++ 0#4, [])
  | .bpqry (.slot a) d => some (0x39#6, 3#5 ++ 1#2 ++ a.sel ++ a.mark ++ d.nd ++ d.dk ++ 0#4, [])
  | .bpqry .pend d => some (0x39#6, 3#5 ++ 2#2 ++ 0#6 ++ d.nd ++ d.dk ++ 0#4, [])
  | .probe a d off => some (0x3A#6, 0#5 ++ a.sel ++ a.mark ++ d.nd ++ d.dk ++ off.low, off.extWords)
  | .pwb a => some (encAll 0x3A 1 a)
  | .pinv a => some (encAll 0x3A 2 a)
  | .waitx ch a d => some (0x3A#6, 3#5 ++ ch ++ a.sel ++ a.mark ++ d.nd ++ d.dk ++ 0#3, [])
  | .xwr ch d => some (0x3A#6, 4#5 ++ ch ++ d.nd ++ d.dk ++ 0#9, [])
  | .record a d wq slot => some (encRecord a d wq slot false)
  | .recordHand a d wq slot => some (encRecord a d wq slot true)
  | .rwait a d => some (0x3B#6, 1#5 ++ a.sel ++ a.mark ++ d.nd ++ d.dk ++ 0#6, [])
  | .fwinv a => some (encAll 0x3B 2 a)
  | .fwqry k d => some (0x3B#6, 3#5 ++ k.code ++ d.nd ++ d.dk ++ 0#9, [])
  | .slmap a d => some (encA 0x3C 0 a d)
  | .slunmap a d => some (encA 0x3C 1 a d)
  | .preempt a b d => some (encAB 0x3C 2 a b d)
  | .spill a b d => some (encAB 0x3C 3 a b d)
  | .restore a b d => some (encAB 0x3C 4 a b d)
  | .snaprd a b d => some (encAB 0x3C 5 a b d)
  | .wmask a b d => some (encAB 0x3C 6 a b d)
  | .qpark a d => some (encA 0x3C 7 a d)
  | .qresume a b d => some (encAB 0x3C 8 a b d)
  | .s1inv a b d => some (encAB 0x3C 9 a b d)
  | .s2inv a b d => some (encAB 0x3C 10 a b d)
  | .migout a sb lb d => some (encMig 11 a sb lb d)
  | .migin a sb lb d => some (encMig 12 a sb lb d)
  | .fnbind a b d => some (encAB 0x3C 13 a b d)
  | .cycr a d => some (encA 0x3C 14 a d)
  | .throt a b d => some (encAB 0x3C 15 a b d)
  | .dogset a b d => some (encAB 0x3C 16 a b d)
  | .pgexp a b d => some (encAB 0x3D 0 a b d)
  | .pgimp a b d => some (encAB 0x3D 1 a b d)
  | .lkqry a d => some (encA 0x3D 2 a d)
  | .engineNop => some (encZ 0x01)
  | .ldt ch x rm sat n => some (encTR ch x rm sat n)
  | .stt ch x rm sat n => some (encTR ch x rm sat n)
  | .ldo ch s slot n => some (0x03#6, ch ++ b1 s ++ slot ++ 0#1 ++ n.low, n.extWords)
  | .gth ch e n => some (0x04#6, ch ++ e ++ n, [])
  | .sct ch e n => some (0x04#6, ch ++ e ++ n, [])
  | .cvd w => some (encTC w)
  | .cvq w => some (encTC w)
  | .xid ch => some (0x06#6, ch ++ 0#20, [])
  | .acc ch t n => some (0x03#6, ch ++ t.code ++ 0#4 ++ n.low, n.extWords)
  | .pset ps f n => some (0x02#6, ps ++ f.code ++ n.low, n.extWords)
  | .pbind p ps => some (0x03#6, p ++ ps ++ 0#16, [])
  | .pskip p n => some (0x04#6, p ++ n, [])
  | .vadd d a b t rm mk sat => some (encVA 0x05 d a b t.code rm.code mk (0#2 ++ b1 sat))
  | .vsub d a b t rm mk sat => some (encVA 0x06 d a b t.code rm.code mk (0#2 ++ b1 sat))
  | .vmul d a b t rm mk sat => some (encVA 0x07 d a b t.code rm.code mk (0#2 ++ b1 sat))
  | .vfma d a b c t rm mk => some (encVF 0x08 d a b c t rm mk)
  | .vfms d a b c t rm mk => some (encVF 0x09 d a b c t rm mk)
  | .vfnma d a b c t rm mk => some (encVF 0x0A d a b c t rm mk)
  | .vdiv d a b t rm mk => some (encVA 0x0B d a b t.code3 rm.code mk 0)
  | .vsqrt d a t rm mk => some (encVA 0x0C d a 0 t.code3 rm.code mk 0)
  | .vrcp d a t rm mk => some (encVA 0x0D d a 0 t.code3 rm.code mk 0)
  | .vrsq d a t rm mk => some (encVA 0x0E d a 0 t.code3 rm.code mk 0)
  | .vmin d a b t mk => some (encVA 0x0F d a b t.code 0 mk 0)
  | .vmax d a b t mk => some (encVA 0x10 d a b t.code 0 mk 0)
  | .vabs d a t mk sat => some (encVA 0x11 d a 0 t.code 0 mk (0#2 ++ b1 sat))
  | .vneg d a t mk sat => some (encVA 0x12 d a 0 t.code 0 mk (0#2 ++ b1 sat))
  | .vcmp md a b c t mk => some (encVA 0x13 (md ++ 0#2) a b t.code 0 mk c.code)
  | .vsel d a b ms mk => some (encVA 0x14 d a b 0 0 mk (0#1 ++ ms))
  | .vand d a b mk => some (encVA 0x15 d a b 0 0 mk 0)
  | .vor d a b mk => some (encVA 0x16 d a b 0 0 mk 0)
  | .vxor d a b mk => some (encVA 0x17 d a b 0 0 mk 0)
  | .vshl d a b t mk => some (encVA 0x18 d a b t.code 0 mk 0)
  | .vshr d a b t mk => some (encVA 0x19 d a b t.code 0 mk 0)
  | .vsar d a b t mk => some (encVA 0x1A d a b t.code 0 mk 0)
  | .vcvt d a t dt rm mk sat h => some (encVA 0x1B d a (b1 sat ++ dt.code) t.code rm.code mk (0#1 ++ h))
  | .vrnd d a t rm mk => some (encVA 0x1C d a 0 t.code3 rm.code mk 0)
  | .vexp2 d a t rm mk => some (encVA 0x1D d a 0 t.code3 rm.code mk 0)
  | .vlog2 d a t rm mk => some (encVA 0x1E d a 0 t.code3 rm.code mk 0)
  | .vred d a o t rm mk => some (encVA 0x1F d a 0 t.code rm.code mk o.code)
  | .vscan d a o t rm mk => some (encVA 0x20 d a 0 t.code rm.code mk o.code)
  | .vperm d a b mk => some (encVA 0x21 d a b 0 0 mk 0)
  | .vbcast d a lane => some (0x22#6, d ++ 0#2 ++ a ++ lane ++ 0#6, [])
  | .vbcastHi d n => some (0x22#6, d ++ 1#2 ++ n.low, n.extWords)
  | .vbcastLo d n => some (0x22#6, d ++ 2#2 ++ n.low, n.extWords)
  | .vrot d a amt mk => some (0x23#6, d ++ a ++ amt ++ 0#3 ++ mk ++ 0#3, [])
  | .vmov d a mk => some (encVA 0x24 d a 0 0 0 mk 0)
  | .vmovFlg d mk => some (encVA 0x24 d 0 0 0 0 mk 1)
  | .vmovClr => some (encVA 0x24 0 0 0 0 0 0 2)
  | .vmovTab a => some (encVA 0x24 0 a 0 0 0 0 3)
  | .mset md n => some (0x25#6, md ++ 0#2 ++ 0#11 ++ n, [])
  | .msetV md a => some (0x25#6, md ++ 1#2 ++ a ++ 0#14, [])
  | .mand md ma mb ia ib => some (encML 0x26 md ma mb ia ib)
  | .mor md ma mb ia ib => some (encML 0x27 md ma mb ia ib)
  | .vconj d a t mk => some (encVA 0x28 d a 0 t.code3 0 mk 0)
  | .vnorm d a t rm mk => some (encVA 0x29 d a 0 t.code3 rm.code mk 0)
  | .vamul d a b t rm mk => some (encVA 0x2A d a b t.code3 rm.code mk 0)
  | .vcomp d a x t k => some (encVC 0x2B d a x t k)
  | .vdcmp d a x t k => some (encVC 0x2C d a x t k)
  | .vhad d a t rm mk inv lead blk => some (encVA 0x2D d a 0 t.code3 rm.code mk (b1 inv ++ b1 lead ++ b1 blk))
  | .vqnt d a s t rm mf blk => some (encVQ 0x2E d a s t rm mf blk)
  | .vdq d a s t rm mf blk => some (encVQ 0x2F d a s t rm mf blk)
  | .mlease => some (encZ 0x02)
  | .munlease => some (encZ 0x03)
  | .mclaim s m => some (encCL 0x04 s m)
  | .mrel s m => some (encCL 0x05 s m)
  | .mtab st p => some (0x06#6, st ++ 0#1 ++ p.code ++ 0#16, [])
  | .mtabSlot st s slot off => some (0x06#6, st ++ 1#1 ++ b1 s ++ slot ++ off ++ 0#3, [])
  | .mzero p => some (0x07#6, p ++ 0#14, [])
  | .mma w => some (encMM 0x08 w false)
  | .mmas w k => some (encMM 0x09 w k)
  | .mmat w => some (encMM 0x0A w false)
  | .mout w rm => some (encOT 0x0B w rm.code)
  | .maccld w => some (encOT 0x0C w 0)
  | .mgang => some (encZ 0x0D)
  | .mungang => some (encZ 0x0E)
  | .msync => some (encZ 0x0F)
  | .mfill w =>
      some (0x10#6, 0#1 ++ b1 w.sideB ++ w.mode.code ++ w.fmt.code ++ w.nc ++ w.csel ++ b1 w.blk ++ w.kl,
        [extWord (0#6 ++ w.addr), extWord (0#6 ++ w.val)])
  | .mfillAcc pl v => some (0x10#6, 2#2 ++ 0#20, [extWord (0#19 ++ pl), extWord (0#6 ++ v)])
  | .mqry off => some (0x11#6, 0#22, [extWord (0#3 ++ off)])
  | _ => none

/-- The words of an instruction with its chain bits; none for an event. -/
def encode (c : Chain) (i : Instr) : Option (List Word) :=
  match encBody i with
  | some (m, ops, xs) => some ((c.bits ++ m ++ ops) :: xs)
  | none => none

/-- The stream that a word belongs to; a word of several streams belongs to each of them. -/
def Instr.inStream (e : Engine) (i : Instr) : Bool :=
  match i with
  | .engineNop => e != .seq
  | .ldt .. | .ldo .. | .gth .. | .cvd _ => e == .load
  | .stt .. | .sct .. | .cvq _ | .acc .. => e == .store
  | .xid _ => e == .load || e == .store
  | .pset .. | .pbind .. | .pskip .. | .vadd .. | .vsub .. | .vmul .. | .vfma .. | .vfms .. | .vfnma .. => e == .vec
  | .vdiv .. | .vsqrt .. | .vrcp .. | .vrsq .. | .vmin .. | .vmax .. | .vabs .. | .vneg .. | .vcmp .. => e == .vec
  | .vsel .. | .vand .. | .vor .. | .vxor .. | .vshl .. | .vshr .. | .vsar .. | .vcvt .. | .vrnd .. => e == .vec
  | .vexp2 .. | .vlog2 .. | .vred .. | .vscan .. | .vperm .. | .vbcast .. | .vbcastHi .. => e == .vec
  | .vbcastLo .. | .vrot .. | .vmov .. | .vmovFlg .. | .vmovClr | .vmovTab .. | .mset .. | .msetV .. => e == .vec
  | .mand .. | .mor .. | .vconj .. | .vnorm .. | .vamul .. | .vcomp .. | .vdcmp .. | .vhad .. => e == .vec
  | .vqnt .. | .vdq .. => e == .vec
  | .mlease | .munlease | .mclaim .. | .mrel .. | .mtab .. | .mtabSlot .. | .mzero .. | .mma .. => e == .mat
  | .mmas .. | .mmat .. | .mout .. | .maccld .. | .mgang | .mungang | .msync | .mfill .. => e == .mat
  | .mfillAcc .. | .mqry .. => e == .mat
  | _ => e == .seq && (encBody i).isSome

end Sys2Proof
end

