-- ==== Sys2Proof/Config.lean ====
section
/-! DEFINITION. What the manual leaves to an implementation or leaves open. Every value here is an opaque
constant: nothing can evaluate it, so no statement rests on a particular value. -/

namespace Sys2Proof.Config

/-- A free value of 64 bits; its argument is the state's counter `freeCtr` (entry 7). -/
opaque freeDbl : Nat → Dbl

/-- A free natural number; its argument is the state's counter `freeCtr` (entry 7). -/
opaque freeNat : Nat → Nat

/-- Arithmetic clock cycles that pass before the next step of the model (entry 1): times are not modelled. -/
opaque elapsed : Nat → Nat

/-- Cycles that a stop finds a multiply word advanced by, beyond the least (R269): by the wall clock and the step of the
word. -/
opaque stopCycle : Nat → Nat → Nat

/-- Which of the values a byte of a slot has had since a word issued the word finds there (R258): by the word, row,
column and address. -/
opaque slotChoice : Nat → Nat → Nat → Nat → Nat

/-- What a byte of HBM-class memory reads as under a key that it was not written under: the XTS decryption of
content that another key wrote (R177, R369, R370). Arguments: the reader's key, the byte's address, and what
identifies the stored content of its line. -/
opaque noise : Nat → Nat → List Nat → Byte

/-- Number of the package within the pod, 0 to 63 (R123). -/
opaque pkgNumber : BitVec 6

/-- SHA-384, uninterpreted: 48 bytes from a string of bytes (R9, R379, R381). -/
opaque sha384 : List Byte → List Byte

/-- A byte, by its place, of the 16-byte AES-256-GCM tag of a page under a key, with the header bytes as additional data
(R373). -/
opaque gcmTag : Nat → List Byte → List Byte → Nat → Byte

/-- Byte of the AES-256-GCM key stream at a place, under an export key and an IV (R373): ciphertext is the sum of
plaintext and key stream modulo 2. -/
opaque gcmStream : Nat → Nat → Nat → Byte

/-- Bytes of a random number drawn by the Lockring, such as START_INTERFACE_NONCE (R382). -/
opaque nonce : Nat → List Byte

/-- Firmware and microcode images by measurement index 1 to 4 (R9, R379). -/
opaque image : Nat → List Byte

/-- Certificate chain of slot 0 (R378). -/
opaque certChain : List Byte

/-- ECDSA P-384 signature of the device's leaf key over a transcript (R378). -/
opaque sign : List Byte → List Byte

/-- Responder's key-exchange data for a session (R378). -/
opaque exchange : Nat → List Byte → List Byte

/-- Reset values PCIe gives a function's configuration double word at an offset (R339; entry 6). -/
opaque cfgReset : Nat → Word

/-- Offset of the double word of MSI-X Message Control in configuration space. -/
opaque msixOffset : Nat

/-- Values of the DOE discovery answer for an index (R378). -/
opaque doeProtocol : Nat → Word

/-- Does a host complete an atomic with Unsupported Request (R284)? The argument is the state's counter
`freeCtr` (entry 7). -/
opaque hostAtomicUr : Nat → Bool

end Sys2Proof.Config
end

