-- ==== Sys2Proof/Machine/State.lean ====
section
/-! DEFINITION. The state of one package as plain data. Sparse collections are lists of (number, value) pairs in
rising order (`Tbl`); what an absent number holds is the reset value of its type. Everything INVENTORY.md lists
under State has its field here. -/

namespace Sys2Proof.Machine

open Sys2Proof

/-- A sparse table: pairs in rising order of their number. -/
abbrev Tbl (α : Type) := List (Nat × α)

/-- Why a step stops with a fault. -/
inductive Fault where
  /-- Raised by `step` alone, when the schedule names a step with an index outside the package (a core above
  384, a die above 15, ...). The hardware has no such agent; safe. -/
  | illFormedAction
  deriving DecidableEq, Repr

/-- Why an instruction has no meaning. -/
inductive Refusal where
  /-- Raised by an arm of `exec` for an instruction that has no meaning yet; safe. -/
  | notModelled (mnemonic : String)
  deriving DecidableEq, Repr

/-! ## The sequencer (R119) -/

/-- One level of the loop stack (R142). -/
structure LoopLevel where
  start : Dbl
  body : Dbl
  last : Dbl
  epl : Nat
  stages : Nat
  plen : Nat
  base : Nat
  iter : Nat
  limit : Nat
  cd : Nat
  th : Bool
  clamp : Bool
  epi : Bool
  dexit : Bool
  deriving DecidableEq, Repr

/-- What a landing entry's data is and how it is extended at the drop (R127, R283, R318). -/
inductive LandKind where
  | load (sz : LdSz)
  | atomic (ty : AtTy)
  | cas128 (n : BitVec 2)
  | record
  deriving DecidableEq, Repr

/-- One entry of the landing buffer (R127, R156). -/
structure Landing where
  id : Nat
  /-- Address of the word. -/
  pc : Dbl
  kind : LandKind
  addr : Dbl
  data : BitVec 128
  ok : Bool
  due : Nat
  arrived : Bool
  poison : Bool
  dest : Dest
  wid : Nat
  /-- Bytes of the loaded range that earlier stores of this sequencer hold (R138). -/
  forward : List (Nat × Byte)
  deriving DecidableEq, Repr

/-- A store issued and not complete (R129, R138). -/
structure PendStore where
  wid : Nat
  /-- Address of the word. -/
  pc : Dbl
  addr : Dbl
  bytes : List Byte
  /-- Requests of the store that are not performed. -/
  reqs : List Nat
  deriving DecidableEq, Repr

/-- A word issued whose signals are not yet given (R27). -/
structure WordEntry where
  wid : Nat
  done : Bool
  sp : Bool
  sn : Bool
  deriving DecidableEq, Repr

/-- The issue side of one engine: words in order and undelivered signals (R27). -/
structure Flow where
  order : List WordEntry
  psp : Bool
  psn : Bool
  deriving DecidableEq, Repr

/-- A trap that waits for the landings of earlier loads (R128). -/
structure PendTrap where
  cause : Nat
  addr : Dbl
  info : Dbl
  /-- Address of the word, and of the word after it. -/
  pc : Dbl
  after : Dbl
  word : Word
  ext : Word
  deriving DecidableEq, Repr

/-- Sequencer state (R119, R123, R156). -/
structure Seq where
  pc : Dbl
  belt : List Dbl
  named : List Dbl
  shadow : List Dbl
  released : BitVec 16
  /-- Innermost level first. -/
  loops : List LoopLevel
  cd : Nat
  landing : List Landing
  ld : Nat
  st : Nat
  cp : Nat
  mt : Nat
  cyc : Nat
  th : Bool
  errc : Nat
  tvec : Dbl
  xpc : Dbl
  xcause : Dbl
  xaddr : Dbl
  xword : Dbl
  xinfo : Dbl
  /-- Occupancy cycles left of the instruction that issued last (R125, R156). -/
  occ : Nat
  /-- Result written when the occupancy ends (R125). -/
  pres : Option (Dbl × Dest)
  /-- Last-read marks of the word whose occupancy runs: they release at its retirement (R121). -/
  marks : List Src
  /-- STALL code (R156). -/
  stall : Nat
  /-- Which step of a word of several steps has been reached (FENCE, BAR, FLUSHRES, TEND, MONC ...). -/
  phase : Nat
  /-- Dies whose sweep answer a fence awaits (R93). -/
  sweep : List Nat
  /-- The request of the last atomic not performed (R92). -/
  atomicReq : Option Nat
  stores : List PendStore
  /-- An answer the stalled word awaits: a monitor's value (R286). -/
  answer : Option Dbl
  /-- The stalled word has arrived at its barrier (R149). -/
  arrived : Bool
  /-- A drain stop took effect at the end of an epilogue or at a boundary: nothing more issues (R145, R346). -/
  halted : Bool
  /-- The PC was reached by falling through (R140, R144). -/
  fell : Bool
  pendTrap : Option PendTrap
  /-- The word whose occupancy runs. -/
  occWid : Option Nat
  deriving DecidableEq, Repr

/-- A translation held by a TLB (R74, R77). -/
structure TlbEntry where
  fn : Nat
  root : Dbl
  size : Nat
  /-- Size of the stage-1 page, by which R78 counts. -/
  page1 : Nat
  va : Nat
  pa : Nat
  ipa : Nat
  /-- Stage-1 RD, WR, EX, AT, and stage-2 RD, WR. -/
  s1 : BitVec 4
  s2 : BitVec 2
  /-- Writes walk again (R74). -/
  clean : Bool
  attr : BitVec 9
  bad : Bool
  nrep : Bool
  deriving DecidableEq, Repr

/-! ## Vector contexts (R199, R225, R229) -/

/-- A parameter set (R200). -/
structure PSet where
  base : Word
  step : Word
  lstr : BitVec 16
  gsel : BitVec 2
  deriving DecidableEq, Repr

/-- A structure table (R237): component count, conjugation mask, and (sign, target) of each entry. -/
structure AlgTab where
  n : Nat
  conj : Byte
  ents : List (Int × Nat)
  deriving DecidableEq, Repr

/-- ALG.R (R238). -/
def AlgTab.real : AlgTab := ⟨1, 0, [(1, 0)]⟩

/-- One result of a vector word on its way to a destination (R208, R229). -/
structure VWrite where
  code : BitVec 4
  lanes : List Dbl
  /-- For each lane, the mask of its bits that are written. -/
  keep : List Dbl
  deriving DecidableEq, Repr

/-- A vector word in flight (R229). -/
structure VInfl where
  wid : Nat
  cmd : Nat
  index : Nat
  writes : List VWrite
  mask : Option (BitVec 2 × Dbl)
  flags : BitVec 5
  /-- VMOV.clr clears the flags. -/
  clear : Bool
  /-- Address and lane stride of a w0 write, taken at issue (R201). -/
  addr : Nat
  lstr : Nat
  tab : Option AlgTab
  /-- Cycles from issue to completion (R208). -/
  latency : Nat
  /-- Meter and number of operations (R380). -/
  meter : Nat
  ops : Nat
  deriving DecidableEq, Repr

/-- Context of vector commands (R199, R225). -/
structure VCtx where
  regs : List (List Dbl)
  masks : List Dbl
  flags : BitVec 5
  psets : List PSet
  binds : List Nat
  poss : List Word
  vt : AlgTab
  infl : List VInfl
  deriving DecidableEq, Repr

/-! ## Commands (R31 to R38) -/

/-- KIND of a region (R38). -/
inductive RegKind where
  | rd | wr | rw | acc | atom
  deriving DecidableEq, Repr

/-- A region descriptor (R38). -/
structure Region where
  base : Dbl
  ext0 : Word
  ext1 : Word
  stride1 : Word
  ext2 : Word
  stride2 : Word
  kind : RegKind
  chn : Bool
  space : BitVec 2
  deriving DecidableEq, Repr

/-- A nest descriptor (R35): ORDER, innermost first, and bounds and strides of the dimensions in use. -/
structure Nest where
  order : List Nat
  bounds : List Word
  s0 : List Word
  s1 : List Word
  s2 : List Word
  deriving DecidableEq, Repr

/-- A copy descriptor (R167); `wraps` holds (W, O) of each dimension. -/
structure CopyDesc where
  mbase : Dbl
  sbase : Word
  xbase : Word
  wraps : List (BitVec 16 × BitVec 16)
  deriving DecidableEq, Repr

/-- A body fetch that met a fault, held until the first word would issue (R385). -/
structure FetchFault where
  cause : Nat
  index : Nat
  addr : Dbl
  info : Dbl
  /-- The body's first word, or 0 where that is the word that could not be fetched. -/
  first : Word
  deriving DecidableEq, Repr

/-- An engine command in its queue (R31, R33). -/
structure Cmd where
  uid : Nat
  slot : Nat
  cw0 : Dbl
  cw1 : Dbl
  cw2 : Dbl
  cw3 : Dbl
  nest : Nest
  regions : List Region
  desc : CopyDesc
  /-- Commands (by uid) of the other queues that must retire first (R39). -/
  edges : List Nat
  /-- Probe-line write-backs and sequencer stores that must be performed first (R139, R194). -/
  waits : List Nat
  epoch : Bool
  /-- Virtual address of the body's first word. -/
  bodyAddr : Dbl
  body : Option (List Word)
  fetchFault : Option FetchFault
  started : Bool
  pos : Nat
  idx : List Nat
  iters : Nat
  allIssued : Bool
  /-- Words issued whose completion or signal is outstanding. -/
  wids : List Nat
  /-- Runs in a relocatable context of its own, which it has from its start (R225). -/
  reloc : Bool
  ctx : Option VCtx
  /-- Translations that the command holds until it retires (R79, R184). -/
  xlat : List TlbEntry
  /-- The sibling core that has taken the command (R226). -/
  takenBy : Option Nat
  /-- A fault found at the current word: the engine stands before it until the queue is resumed. -/
  faulted : Bool
  deriving DecidableEq, Repr

/-! ## Fault records -/

/-- A 32-byte fault record of an engine (R186, R228, R267): cause, address, third and fourth double. -/
structure FaultRec where
  cause : Dbl
  addr : Dbl
  info : Dbl
  iter : Dbl
  deriving DecidableEq, Repr

/-! ## Requests (R273) -/

/-- Where a request comes from and what its answer does. -/
inductive ReqSrc where
  | land (core : Nat) (id : Nat)
  | store (core : Nat) (wid : Nat)
  | atomic (core : Nat) (landing : Option Nat) (wid : Nat) (pc : Dbl)
  | arm (core : Nat)
  | copyRead (core : Nat) (wid : Nat) (place : Nat)
  | copyWrite (core : Nat) (wid : Nat)
  | addend (core : Nat) (wid : Option Nat)
  | probeFill (core : Nat) (slot : Nat) (place : Nat)
  | probeWb (core : Nat)
  | walker (die : Nat)
  /-- Its sender's task is gone: nothing takes the answer. -/
  | gone (die : Nat)
  | host
  | peer
  deriving DecidableEq, Repr

/-- What a request does at its home. -/
inductive ReqKind where
  | read
  | write
  | atomic (op : AtOp) (ty : AtTy) (v : BitVec 128) (x : BitVec 128) (sc : Bool)
  | arm (v : Dbl)
  | addend (ty : AccTy) (mask : Word) (priority : Bool)
  deriving DecidableEq, Repr

/-- Where a request stands. -/
inductive ReqPhase where
  | travel | homeward | held | queued | pipe | fill | alu | acks | answered | verdict (ok : Bool) | returned | accepted
  | prioWait | applied
  deriving DecidableEq, Repr

/-- A request in flight (R273). -/
structure Req where
  id : Nat
  src : ReqSrc
  kind : ReqKind
  pa : Nat
  len : Nat
  data : List Byte
  /-- Key under which the owner reads and writes (R369); 0 for host memory. -/
  key : Nat
  fn : Nat
  wq : Nat
  tc : Nat
  /-- Virtual line of an addend (R293). -/
  va : Nat
  /-- Intermediate address of an addend's line (R295). -/
  ipa : Nat
  phase : ReqPhase
  /-- Value read at its place in the line's order. -/
  result : List Byte
  ok : Bool
  poison : Bool
  /-- Dies whose replica acknowledgement, and watches whose acknowledgement, the write awaits. -/
  acks : List Nat
  watches : List Nat
  /-- Remote read through the reader die's replica slice (R83). -/
  replicaOf : Option Nat
  /-- The home's monitor table was full (R287), or a host refused the atomic (R284). -/
  refused : Bool
  /-- The verdict of an addend has reached its core (R290). -/
  told : Bool
  /-- First, third and fourth double of its word's fault record (R186); empty where it has none. -/
  record : List Dbl
  /-- Its operation counts in the function's pending counters (R295). -/
  pending : Bool
  deriving DecidableEq, Repr

/-! ## Copy engine (R158 to R197) -/

/-- A transfer word issued and not complete (R160 to R162). Channels count from 0 to 7 over both sides. -/
structure Xfer where
  wid : Nat
  eng : Engine
  ident : Word
  ch : Nat
  instr : Instr
  cmd : Nat
  index : Nat
  iters : Nat
  g0 : Dbl
  g1 : Nat
  g2 : Nat
  /-- Attributes of the memory side's page: FMT, BLK, HAD, LEAD, NCOMP (R71). -/
  attr : BitVec 9
  /-- Requests not answered. -/
  reqs : List Nat
  /-- Requests that had not left when the domain was stopped, and the bytes that had come by their place in the row
  (R197). -/
  unsent : List Req
  arrived : List (Nat × Byte)
  /-- Source bytes that a scratchpad conversion read (R183). -/
  got : List Byte
  /-- Poisoned data came; the reads are made again at the resume. -/
  poison : Bool
  /-- Its data was written while the domain was frozen; its completion waits for the thaw (R126). -/
  landed : Bool
  /-- Ranges read and written, each a space, a first and a last byte: virtual 0, local 1, scratchpad 2, slots 3
  (R161). -/
  reads : List (Nat × Nat × Nat)
  writes : List (Nat × Nat × Nat)
  deriving DecidableEq, Repr

/-- State of a probe line (R189). -/
inductive PState where
  | invalid | pending | valid | retained
  deriving DecidableEq, Repr

/-- A way of the probed cache region (R188); a line that is absent from the list is invalid. -/
structure PLine where
  /-- Array offset of the line. -/
  slot : Nat
  fn : Nat
  root : Dbl
  block : Nat
  phys : Nat
  /-- Intermediate address of the block. -/
  ipa : Nat
  dirty : BitVec 256
  rank : Nat
  state : PState
  /-- Requests of the fill. -/
  reqs : List Nat
  /-- Halves of the block that had not been requested when the domain was stopped (R197). -/
  unsent : List Nat
  deriving DecidableEq, Repr

/-- Copy engine state (R162, R186). -/
structure Copy where
  nxt : List Word
  xw : List Word
  xfers : List Xfer
  faultL : Option FaultRec
  faultS : Option FaultRec
  lines : List PLine
  /-- Write-backs of victims in flight: request, virtual block, and whether st counts it (R191, R193). -/
  wbs : List (Nat × Nat × Nat)
  tlb : List TlbEntry
  deriving DecidableEq, Repr

/-! ## Vector engine (R198 to R230) -/

structure Vec where
  own : VCtx
  fault : Option FaultRec
  deriving DecidableEq, Repr

/-! ## Matrix engine (R231 to R271) -/

/-- Format tag of a slot (R234). -/
structure Tag where
  fmt : BitVec 4
  blk : Bool
  had : Bool
  lead : Bool
  ncomp : BitVec 2
  deriving DecidableEq, Repr

/-- A matrix word issued and not complete (R233, R270). -/
structure MInfl where
  wid : Nat
  cmd : Nat
  index : Nat
  instr : Instr
  /-- Elapsed clk that the cells have performed (R269). -/
  elapsed : Nat
  done : Bool
  tab : AlgTab
  atag : Tag
  btag : Tag
  abase : Nat
  bbase : Nat
  mbase : Nat
  soff : Nat
  astr : Nat
  bstr : Nat
  mstr : Nat
  /-- Core whose A slots are read: the leader in a gang (R261). -/
  leader : Nat
  delay : Nat
  maxDelay : Nat
  gangWord : Bool
  /-- Number that the entries of one gang step share, and the clk for which the step holds issue (R232, R260). -/
  step : Nat
  gap : Nat
  /-- Bytes that MQRY writes (R256). -/
  out : List Byte
  meter : Nat
  ops : Nat
  readsA : Word
  readsB : Word
  writesA : Word
  writesB : Word
  readsP : Byte
  writesP : Byte
  /-- Bytes of slots as they were before each write of a transfer since the word issued (R258). -/
  old : List Host.Cell
  deriving DecidableEq, Repr

/-- Matrix engine of a core (R235, R239, R242, R260). -/
structure Mat where
  tabs : List AlgTab
  claimA : Word
  claimB : Word
  claimP : Byte
  keep : Bool
  waiting : Option (MSide × Word)
  /-- Claims that a restored task has still to take back (R351). -/
  reclaimA : Word
  reclaimB : Word
  reclaimP : Byte
  infl : List MInfl
  formed : Bool
  steps : Nat
  /-- The gang's leases ended at a limit: it issues again when every member holds one anew (R263). -/
  anew : Bool
  /-- The gang word this member waits at: the word and its EXT words. -/
  gangWait : Option (List Word)
  tstop : Bool
  fault : Option FaultRec
  deriving DecidableEq, Repr

/-- State of a storage row (R352). -/
inductive RowState where
  | free | live | held | released
  deriving DecidableEq, Repr

/-- A storage row's owner (R352): world tag, record and task number. -/
structure Row where
  state : RowState
  wtag : Nat
  rseq : Nat
  tseq : Nat
  deriving DecidableEq, Repr

/-! ## Residual unit and monitor (R286, R293) -/

structure ResTag where
  valid : Bool
  va : Nat
  pa : Nat
  ty : AccTy
  mask : Word
  /-- Cycles of the domain when the slot became VALID, and the age it had then (R294). -/
  born : Nat
  key : Nat
  /-- Intermediate address of the line (R295). -/
  ipa : Nat
  deriving DecidableEq, Repr

structure Resid where
  tags : Tbl ResTag
  pend : Nat
  prio : Nat
  deriving DecidableEq, Repr

structure Monitor where
  addr : Dbl
  value : Dbl
  armed : Bool
  fired : Bool
  /-- The value that the firing carried (R287). -/
  seen : Dbl
  deriving DecidableEq, Repr

/-- An armed monitor at a home slice or an array port (R286, R287). -/
structure HomeMon where
  core : Nat
  line : Nat
  addr : Nat
  deriving DecidableEq, Repr

/-! ## Tasks -/

/-- Fields of a pure task's lookup and entry (R324 to R329). -/
structure PureInfo where
  key : Dbl
  words : List Dbl
  /-- Physical granules of its read regions (R324). -/
  granules : List Nat
  /-- It met R323 and missed, so that an entry is to be made. -/
  entered : Bool
  tainted : Bool
  violated : Bool
  /-- Its entry is made or abandoned (R329). -/
  counted : Bool
  matOps : Nat
  vecOps : Nat
  deriving DecidableEq, Repr

/-- A task placed on a core or a gang, or descheduled (R48, R304 to R316, R346, R364). -/
structure Task where
  fn : Nat
  wq : Nat
  rseq : Nat
  tseq : Nat
  idx : List Nat
  arg : Dbl
  prio : Nat
  effPrio : Nat
  isPure : Bool
  strict : Bool
  reloc : Bool
  resid : Bool
  spreq : Nat
  gang : Nat
  /-- Member cores in rising quad number (R259). -/
  members : List Nat
  code : List (Dbl × Nat)
  regions : List Region
  /-- Regions handed over by RECORD.hand, as they were (R319). -/
  handed : List Region
  irrevocable : Bool
  eligible : Bool
  wd : Nat
  /-- Depth that a PREEMPT asks for, and the depth reached (R346). -/
  stopping : Option Nat
  stopped : Option Nat
  /-- When a stop in progress is overdue (R347), and when the last one was complete (R349). -/
  stopBy : Option Nat
  stoppedAt : Nat
  /-- The task has parked its queue or waits to present its park (R356). -/
  parked : Bool
  finished : Bool
  yielded : Bool
  /-- Write-backs that its dispatch or restore started and that its first word waits for (R195). -/
  settling : List Nat
  pureInfo : Option PureInfo
  deriving DecidableEq, Repr

/-- Why a core clock domain is frozen (R126). `thermal` lasts while the die is thermally stopped, `heat` until the queue
of the task that was stopped so is resumed (R363). -/
inductive Freeze where
  | lateLanding | parity | bodyFault (eng : Engine) | poison | throttle | stop | thermal | heat | park
  deriving DecidableEq, Repr

/-- One core; number 384 is the Derailleur, which uses only `seq`, `flows` and `tlb`. -/
structure Core where
  task : Option Task
  seq : Seq
  /-- The ten token counts in the order of R156. -/
  tokens : List Nat
  /-- Issue sides in the order seq, load, vec, mat, store. -/
  flows : List Flow
  /-- Command queues in the order load, vec, mat, store. -/
  queues : List (List Cmd)
  copy : Copy
  vec : Vec
  mat : Mat
  res : Resid
  mon : Option Monitor
  portMon : List HomeMon
  freezes : List Freeze
  tlb : List TlbEntry
  epoch : Bool
  inflight0 : Nat
  inflight1 : Nat
  rows : Tbl Row
  spreq : Nat
  resreq : Bool
  deriving DecidableEq, Repr

/-- One quad's array (R234 to R236, R42, R336). -/
structure Quad where
  owner : Option Nat
  fenced : Bool
  gated : Bool
  leaseHolder : Option Nat
  leaseCount : Nat
  leaseFrom : Nat
  leaseOver : Bool
  leaseReqs : List Nat
  leaseLast : Nat
  /-- Tags of sa0 to sa31 (0 to 31) and sb0 to sb31 (32 to 63); absent is FMT 0. -/
  tags : Tbl Tag
  poison : Byte
  /-- Accumulators: number 32,768 x plane + 256 x row + column; absent is +0. -/
  planes : Tbl Dbl
  /-- Rows of the slots (0 to 63) and planes (64 to 71). -/
  rows : Tbl Row
  /-- Partial block sums left in the cells by a freeze (R269). -/
  partials : Tbl Word
  deriving DecidableEq, Repr

/-! ## Home slices (R272 to R300) -/

/-- A valid way of a slice (R272, R277). -/
structure L2Line where
  set : Nat
  way : Nat
  line : Nat
  dirty : Bool
  rank : Nat
  replica : Bool
  deriving DecidableEq, Repr

/-- A fill entry: a miss in flight to HBM (R272, R273). -/
structure Fill where
  line : Nat
  fn : Nat
  tc : Nat
  write : Bool
  reqs : List Nat
  deriving DecidableEq, Repr

structure Slice where
  ways : List L2Line
  inq : List Nat
  heldReqs : List Nat
  pipes : List Nat
  fills : List Fill
  /-- Operations waiting for the arithmetic unit, in lookup order (R274). -/
  ops : List Nat
  accq : List Nat
  prioWait : List Nat
  mons : List HomeMon
  /-- Ordinary addends accepted and unapplied of each function (R291). -/
  heldCount : Tbl Nat
  deriving DecidableEq, Repr

/-- An entry of a die's replication table (R82). -/
structure RepEntry where
  granule : Nat
  reads : Nat
  writes : Nat
  holders : BitVec 16
  replicated : Bool
  nrep : Bool
  last : Nat
  deriving DecidableEq, Repr

/-- Under which key a 128-byte line of HBM-class memory was last written (R177, R369): the bytes written under it
since, and a stamp for the noise that the line's other bytes became. -/
structure LineKey where
  key : Nat
  stamp : Nat
  known : BitVec 128
  deriving DecidableEq, Repr

/-- A replica of a line held on a die (R83). -/
structure Replica where
  line : Nat
  /-- The line as it stood at the home. -/
  key : Option LineKey
  bytes : List Byte
  deriving DecidableEq, Repr

/-- A replica invalidation on its way from a home hub to a holder (R84), or a sweep answer's place behind it. -/
structure InvMsg where
  src : Nat
  dst : Nat
  line : Nat
  req : Nat
  deriving DecidableEq, Repr

/-- An entry of a watch table (R327). -/
structure Watch where
  granule : Nat
  rd : BitVec 16
  wr : BitVec 16
  last : Nat
  deriving DecidableEq, Repr

/-- A watch message on its way to a walker (R327). -/
structure WatchMsg where
  id : Nat
  watch : Nat
  granule : Nat
  dst : Nat
  invalidate : Bool
  applied : Bool
  deriving DecidableEq, Repr

/-! ## Walkers (R301 to R333) -/

/-- A footprint table entry: region and steps (R43). -/
structure FpEntry where
  region : Region
  steps : List Word
  /-- The region descriptor as its four doubles and the reserved tail, kept for the checks of R302. -/
  raw : List Byte
  deriving DecidableEq, Repr

inductive RecState where
  | waiting | dispatching | draining | complete
  deriving DecidableEq, Repr

/-- An accepted record (R43, R304). -/
structure Record where
  seq : Nat
  state : RecState
  status : Nat
  isPure : Bool
  strict : Bool
  reloc : Bool
  gang : Nat
  prio : Nat
  spreq : Nat
  resid : Bool
  ndim : Nat
  order : List Nat
  bounds : List Word
  arg : Dbl
  code : List (Dbl × Nat)
  deps : List (Nat × Nat)
  cpl : Dbl
  fps : List FpEntry
  /-- Index vector of the next task and its number; no next task when `drained`. -/
  cursor : List Nat
  nextTask : Nat
  drained : Bool
  /-- Tasks dispatched and not complete, by number, with their regions. -/
  open_ : List Nat
  ended : Bool
  digest : Option Dbl
  /-- A record of DEP has completed with a failure (R305). -/
  depFailed : Bool
  deriving DecidableEq, Repr

/-- A park that waits to be presented or is presented (R356, R358). -/
structure Park where
  /-- Core whose task parked; 385 for a park by a walker (R313). -/
  core : Nat
  words : List Dbl
  /-- An `SVC.val` park and its destination (R155). -/
  svc : Option Dest
  deriving DecidableEq, Repr

/-- One work queue of a function (R303, R357). -/
structure WorkQueue where
  att : Option Nat
  next : Nat
  park : Bool
  wqres : Dbl
  s1root : Dbl
  wqval : Dbl
  invBusy : Bool
  invErr : Bool
  pkrec : List Dbl
  parks : List Park
  records : List Record
  /-- Tasks to be dispatched again from their start (R265). -/
  redo : List Task
  deriving DecidableEq, Repr

/-- A submission waiting at a walker (R301). -/
structure Submission where
  fn : Nat
  wq : Nat
  va : Dbl
  /-- Landing entry of a RECORD, with its core; none for a doorbell. -/
  from_ : Option (Nat × Nat)
  hand : Bool
  /-- The submitter's regions before a RECORD.hand changed them (R319). -/
  undo : List Region
  /-- Where a RECORD's 256 bytes lie by its own translation, and the key under which they are read (R302). -/
  place : Option (Nat × Nat)
  deriving DecidableEq, Repr

/-- A task in the footprint registry (R312). -/
structure Registered where
  wq : Nat
  rseq : Nat
  tseq : Nat
  regions : List Region
  deriving DecidableEq, Repr

/-- A Freewheel entry (R325); `set` and `way` place it. -/
structure FwEntry where
  set : Nat
  way : Nat
  wclean : Bool
  fn : Nat
  root : Dbl
  key : Dbl
  rank : Nat
  /-- Chunks of the function's arena that hold the descriptor block and the stored bytes (R329). -/
  chunks : List Nat
  words : List Dbl
  wrBases : List Dbl
  rdGranules : List Nat
  wrGranules : List Nat
  vaGranules : List Nat
  ipaGranules : List Nat
  matOps : Nat
  vecOps : Nat
  /-- Bytes of the descriptor block as they were written, whose layout the manual does not give. -/
  block : List Byte
  /-- Number of the entry, which no other entry has had. -/
  id : Nat
  deriving DecidableEq, Repr

/-- A Freewheel lookup in progress on a die (R326): the task it is made for and the entry that matched. -/
structure FwLookup where
  task : Task
  clean : Bool
  /-- Writes of a dirty hit not yet performed. -/
  reqs : List Nat
  /-- The entry that matched, as its descriptor block had it. -/
  entry : FwEntry
  deriving DecidableEq, Repr

structure Die where
  repctl : Word
  rep : List RepEntry
  replicas : List Replica
  watch : List Watch
  openRows : List (Nat × Byte)
  tlb : List TlbEntry
  subs : List Submission
  lastQueue : Nat
  /-- For each function, the work queue of the gang candidate for which cores are reserved, and its priority (R310). -/
  reserved : Tbl (Nat × Nat)
  fw : List FwEntry
  lookup : Option FwLookup
  powerLimit : Nat
  /-- Duty of the die in 1/65,536 of the cycles (R362). -/
  duty : Nat
  hot : Bool
  tstop : Bool
  deriving DecidableEq, Repr

/-! ## Functions (R336 to R339) -/

/-- A generation of a barrier (R149): its number, and the cores that have arrived; cores of other packages have numbers from
385. -/
structure Barrier where
  scope : Scope
  inst : Nat
  id : Nat
  n : Nat
  cores : List Nat
  gen : Nat
  deriving DecidableEq, Repr

/-- Steps of an invalidation (R80). -/
inductive InvStage where
  | waiting | drain | flush | done
  deriving DecidableEq, Repr

/-- A translation invalidation (R80, R360): stage 1 of a root, or stage 2. -/
structure Inval where
  stage2 : Bool
  wq : Nat
  root : Dbl
  /-- Ranges of addresses: first byte and length. -/
  ranges : List (Nat × Nat)
  all : Bool
  stage : InvStage
  /-- Number that the invalidations of old pages' replicas carry (step 4). -/
  ack : Option Nat
  /-- Started by INVVA (true) or by an instruction of the Derailleur. -/
  host : Bool
  deriving DecidableEq, Repr

/-- TDISP states (R382). -/
inductive Tdisp where
  | unlocked | locked | run | error
  deriving DecidableEq, Repr

/-- A secured session of a mailbox (R378). -/
structure Session where
  id : Nat
  finished : Bool
  keyGen : Nat
  deriving DecidableEq, Repr

/-- Counters of R322. -/
structure FwCounters where
  hit : Nat
  hitc : Nat
  miss : Nat
  viol : Nat
  unc : Nat
  deriving DecidableEq, Repr

/-- A way configuration (R275). -/
structure WayCfg where
  mask : BitVec 16
  rpol : BitVec 2
  wpol : BitVec 2
  apol : BitVec 2
  deriving DecidableEq, Repr

/-- A task that is not resident: what SPILL or YIELD has taken from its core (R316, R349, R350). -/
structure Saved where
  place : Nat
  /-- Address of its save area; none for a task that YIELD descheduled. -/
  addr : Option Nat
  task : Task
  core : Core
  deriving DecidableEq, Repr

/-- A row evicted to a function's frame (R355). Rows of a quad count from 0: 160 of the arrays, 64 slots, 8 planes.
Its owner, tag and poison bit lie in the frame's last 64 KiB, whose layout the manual does not give. -/
structure Evicted where
  frame : Nat
  row : Nat
  owner : Row
  tag : Tag
  poison : Bool
  deriving DecidableEq, Repr

/-- A donation of priority (R315): record, the task that waits and the one it waits for, the request's time, and
whether the slice period has passed. -/
structure Donation where
  wq : Nat
  rseq : Nat
  giver : Nat
  taker : Nat
  prio : Nat
  at_ : Nat
  late : Bool
  deriving DecidableEq, Repr

/-- A slice function, or PF0 (number 0), of which only the mailbox is used. -/
structure Func where
  bound : Bool
  s2root : Dbl
  arena : Nat
  arsz : Nat
  fwways : Byte
  acq : BitVec 4
  prot : Bool
  mig : Bool
  evq : Nat
  evict : Nat
  shares : Word
  caps : BitVec 4
  dog : Word
  period : Word
  deadline : Nat
  ways : List WayCfg
  queues : Tbl WorkQueue
  registry : List Registered
  suspended : Bool
  quiesced : Bool
  migrating : Bool
  migStep : Nat
  migSession : Word
  migPeer : BitVec 6
  migBlocked : Bool
  /-- Destination die of each source die (R366). -/
  migMap : List Nat
  throttled : Bool
  /-- Cycle of the package in which the function was last throttled (R338). -/
  throttledAt : Nat
  /-- Tasks stopped or descheduled and not resident (R350, R316). -/
  away : List Saved
  /-- Frame of each quad that has one (R344, R355). -/
  frames : Tbl Nat
  evicted : List Evicted
  barriers : List Barrier
  inval : List Inval
  fwctr : Tbl FwCounters
  key : Nat
  exportKey : Nat
  keyEpoch : Nat
  expCounter : Nat
  meters : List Nat
  pending : List Nat
  telemetry : List Nat
  chainHead : List Byte
  chainOpen : Bool
  chainIndex : Nat
  chainRecords : List (List Byte)
  lastQuiesce : Nat
  tdisp : Tdisp
  errReason : Nat
  nonce : List Byte
  lockSession : Nat
  ideSecure : Bool
  sessions : List Session
  nextSession : Nat
  cfgMse : Bool
  cfgBme : Bool
  cfgBars : List Word
  cfgMsix : Word
  noTlp : Bool
  donations : List Donation
  deriving DecidableEq, Repr

/-- An entry of the export table (R373). -/
structure ExpEntry where
  fn : Nat
  ipa : Nat
  version : Nat
  deriving DecidableEq, Repr

/-- PF0's partition and export registers (R338, R376). -/
structure Pf0 where
  drcause : Byte
  halt : Bool
  pmOp : Byte
  pmFn : Byte
  pmarg : Dbl
  /-- PMARG as it stood when the request was made. -/
  pmReq : Dbl
  pstat : Byte
  busy : Bool
  pxOp : Byte
  pxFn : Byte
  pxIpa : Nat
  pxHost : Nat
  pxStat : BitVec 16
  pxBusy : Bool
  pxVer : Dbl
  deriving DecidableEq, Repr

/-- Bring-up state and BOOTSTS (R11). -/
structure Boot where
  stage : BitVec 4
  cause : Byte
  die : BitVec 4
  fail : Bool
  ready : Bool
  spares : Tbl Nat
  linkTrained : Bool
  mainPower : Bool
  deriving DecidableEq, Repr

/-- A link's state (R17). -/
structure Link where
  link : LinkId
  retrying : Nat
  lanesLost : Nat
  failed : Bool
  deriving DecidableEq, Repr

/-- What the J16 logs (R9, R16 to R18). -/
inductive LogEntry where
  | laneRemap (boundary : Nat)
  | transientMemory (line : Nat)
  | lastingMemory (line : Nat)
  | transientLink (link : LinkId)
  | lastingLink (link : LinkId)
  | correctedRegister (core : Nat)
  | discardedWrite (line : Nat)
  | lostAddend (line : Nat)
  deriving DecidableEq, Repr

/-- What the J16 sends to the host or to the Derailleur's firmware. -/
inductive OutMsg where
  | msix (fn : Nat) (vector : Nat)
  | spdm (mb : Nat) (code : Byte) (body : List Byte)
  | tdisp (fn : Nat) (ok : Bool) (body : List Byte)
  | doe (mb : Nat) (value : Word)
  | donate (fn : Nat) (rseq : Nat) (tseq : Nat)
  | fabric (peer : Nat) (tag : Nat) (body : List Byte)
  /-- A core of this package has arrived at a barrier of scope `.pod` (R20, R149). -/
  | barrierArrival (fn : Nat) (id : Nat) (n : Nat) (core : Nat)
  /-- An uncorrectable error of the host link (R17). -/
  | aer
  /-- What a read of a register, or an access from outside, returns. -/
  | register (tag : Nat) (value : Dbl)
  | completion (tag : Nat) (data : List Byte) (poison : Bool)
  /-- An access from outside completes as Unsupported Request. -/
  | unsupported (peer : Bool)
  deriving DecidableEq, Repr

/-- A step that the schedule names: an event, or the issue of the next word of an engine of a core. -/
inductive Action where
  | event (i : Instr)
  | issue (core : Nat) (eng : Engine)
  deriving DecidableEq, Repr

/-- The word being executed: where it stands and what surrounds it (entry 1). -/
structure Cur where
  core : Nat
  eng : Engine
  addr : Dbl
  word : Word
  ext1 : Word
  ext2 : Word
  /-- Words of the instruction, EXT words included. -/
  len : Nat
  chain : Chain
  /-- Number of the engine command that the word belongs to. -/
  cmd : Nat
  deriving DecidableEq, Repr

/-- The whole package. -/
structure State where
  boot : Boot
  pf0 : Pf0
  cores : Tbl Core
  quads : Tbl Quad
  dies : Tbl Die
  slices : Tbl Slice
  fns : Tbl Func
  mem : List Host.Cell
  memKey : Tbl LineKey
  poison : List Nat
  /-- Lines whose first read failed and which are being read again (R16). -/
  rereads : List Nat
  reqs : List Req
  invs : List InvMsg
  watchMsgs : List WatchMsg
  exports : List ExpEntry
  failedMarks : List (Nat × Nat)
  links : List Link
  log : List LogEntry
  out : List OutMsg
  wall : Nat
  timer : Nat
  nextKey : Nat
  nextId : Nat
  freeCtr : Nat
  /-- Core and engine that issue when the schedule is empty. -/
  actor : Nat × Engine
  schedule : List Action
  /-- Messages that have arrived from outside the package, oldest first. -/
  inbox : List HostMsg
  cur : Cur
  deriving DecidableEq, Repr

/-! ## Reset values -/

def Flow.reset : Flow := ⟨[], false, false⟩

def Seq.reset (pc : Dbl) : Seq where
  pc := pc
  belt := List.replicate 16 0
  named := List.replicate 16 0
  shadow := List.replicate 16 0
  released := 0
  loops := []
  cd := 0
  landing := []
  ld := 0
  st := 0
  cp := 0
  mt := 0
  cyc := 0
  th := false
  errc := 0
  tvec := 0
  xpc := 0
  xcause := 0
  xaddr := 0
  xword := 0
  xinfo := 0
  occ := 0
  pres := none
  marks := []
  stall := 0
  phase := 0
  sweep := []
  atomicReq := none
  stores := []
  answer := none
  arrived := false
  halted := false
  fell := false
  pendTrap := none
  occWid := none

def Copy.reset : Copy :=
  ⟨List.replicate 8 0, List.replicate 8 0, [], none, none, [], [], []⟩

def PSet.reset : PSet := ⟨0, 0, 0, 0⟩

/-- R199. -/
def VCtx.reset : VCtx where
  regs := List.replicate 8 (List.replicate 64 0)
  masks := List.replicate 4 0
  flags := 0
  psets := List.replicate 16 PSet.reset
  binds := [0, 1, 2, 3]
  poss := [0, 0, 0, 0]
  vt := AlgTab.real
  infl := []

def Vec.reset : Vec := ⟨VCtx.reset, none⟩

def Mat.reset : Mat where
  tabs := List.replicate 4 AlgTab.real
  claimA := 0
  claimB := 0
  claimP := 0
  keep := false
  waiting := none
  reclaimA := 0
  reclaimB := 0
  reclaimP := 0
  infl := []
  formed := false
  steps := 0
  anew := false
  gangWait := none
  tstop := false
  fault := none

def Core.reset : Core where
  task := none
  seq := Seq.reset 0
  tokens := List.replicate 10 0
  flows := List.replicate 5 Flow.reset
  queues := List.replicate 4 []
  copy := Copy.reset
  vec := Vec.reset
  mat := Mat.reset
  res := ⟨[], 0, 0⟩
  mon := none
  portMon := []
  freezes := []
  tlb := []
  epoch := false
  inflight0 := 0
  inflight1 := 0
  rows := []
  spreq := 0
  resreq := false

/-- The Derailleur's core at reset: its pc at the base of the firmware region (entry 3). -/
def Core.derailleur : Core := { Core.reset with seq := Seq.reset 0xFF0000000 }

def Tag.reset : Tag := ⟨0, false, false, false, 0⟩
def Row.reset : Row := ⟨.free, 0, 0, 0⟩

/-- DESIGN CHOICE (unsafe, entry 79): before any lease was held the round-robin of R42, which starts after the last holder,
starts with member 0, as if member 3 had held one. -/
def Quad.reset : Quad where
  owner := none
  fenced := false
  gated := false
  leaseHolder := none
  leaseCount := 0
  leaseFrom := 0
  leaseOver := false
  leaseReqs := []
  leaseLast := 3
  tags := []
  poison := 0
  planes := []
  rows := []
  partials := []

def Slice.reset : Slice := ⟨[], [], [], [], [], [], [], [], [], []⟩

/-- REPCTL's reset fields are those of R82: RDTH 0x0040, WRTH 0, WIN 4, EN 1. -/
def Die.reset : Die where
  repctl := 0x00400041
  rep := []
  replicas := []
  watch := []
  openRows := []
  tlb := []
  subs := []
  lastQueue := 0
  reserved := []
  fw := []
  lookup := none
  powerLimit := 250
  duty := 65536
  hot := false
  tstop := false

def WayCfg.reset : WayCfg := ⟨0, 0, 0, 0⟩

def WorkQueue.reset : WorkQueue where
  att := none
  next := 0
  park := false
  wqres := 0
  s1root := 0
  wqval := 0
  invBusy := false
  invErr := false
  pkrec := List.replicate 8 0
  parks := []
  records := []
  redo := []

def Func.reset : Func where
  bound := false
  s2root := 0
  arena := 0
  arsz := 0
  fwways := 0
  acq := 4
  prot := false
  mig := false
  evq := 0
  evict := 0
  shares := 0
  caps := 0
  dog := 0
  period := 0
  deadline := 0
  ways := List.replicate 4 WayCfg.reset
  queues := []
  registry := []
  suspended := false
  quiesced := false
  migrating := false
  migStep := 0
  migSession := 0
  migPeer := 0
  migBlocked := false
  migMap := []
  throttled := false
  throttledAt := 0
  away := []
  frames := []
  evicted := []
  barriers := []
  inval := []
  fwctr := []
  key := 0
  exportKey := 0
  keyEpoch := 0
  expCounter := 0
  meters := List.replicate 16 0
  pending := List.replicate 16 0
  telemetry := List.replicate 8 0
  chainHead := List.replicate 48 0
  chainOpen := false
  chainIndex := 0
  chainRecords := []
  lastQuiesce := 0
  tdisp := .unlocked
  errReason := 0
  nonce := []
  lockSession := 0
  ideSecure := false
  sessions := []
  nextSession := 1
  cfgMse := false
  cfgBme := false
  cfgBars := [0, 0, 0, 0]
  cfgMsix := 0
  noTlp := false
  donations := []

def Pf0.reset : Pf0 := ⟨0, false, 0, 0, 0, 0, 0, false, 0, 0, 0, 0, 0, false, 0⟩

def Boot.reset : Boot := ⟨0, 0, 0, false, false, [], false, true⟩

def Cur.reset : Cur := ⟨384, .seq, 0, 0, 0, 0, 1, Chain.none, 0⟩

/-- The package right after reset (R9, R11, R15): bring-up at stage 0x0, nothing bound, nothing placed. -/
def State.reset : State where
  boot := Boot.reset
  pf0 := Pf0.reset
  cores := []
  quads := []
  dies := []
  slices := []
  fns := []
  mem := []
  memKey := []
  poison := []
  rereads := []
  reqs := []
  invs := []
  watchMsgs := []
  exports := []
  failedMarks := []
  links := []
  log := []
  out := []
  wall := 0
  timer := 0
  nextKey := 2
  nextId := 0
  freeCtr := 0
  actor := (384, .seq)
  schedule := []
  inbox := []
  cur := Cur.reset

end Sys2Proof.Machine
end

