-- ==== Sys2Proof/Machine/Ops.lean ====
section
/-! DEFINITION. Named operations: sparse tables, memory, agents of the state, the Chain (R23 to R30), the registers
of a sequencer (R119 to R128), parking a work queue (R356, R358), taking a trap (R152, R153, R155) and returning
from one (R154). -/

namespace Sys2Proof.Machine

open Sys2Proof

/-! ## Sparse tables -/

def tfind {α : Type} (k : Nat) : Tbl α → Option α
  | [] => none
  | (j, v) :: r => if j = k then some v else tfind k r

def tget {α : Type} (t : Tbl α) (k : Nat) (d : α) : α := (tfind k t).getD d

def tset {α : Type} (k : Nat) (v : α) : Tbl α → Tbl α
  | [] => [(k, v)]
  | (j, w) :: r => if k < j then (k, v) :: (j, w) :: r else if k = j then (k, v) :: r else (j, w) :: tset k v r

def terase {α : Type} (k : Nat) (t : Tbl α) : Tbl α := t.filter fun p => p.1 != k

/-! ## Memory: a list of (address, byte) in canonical form; an unlisted byte reads as 0 -/

/-- Addresses strictly rise from `lo` on, and no byte listed is 0. -/
def Memory.wfFrom : Nat → List Host.Cell → Bool
  | _, [] => true
  | lo, (a, b) :: r => decide (lo ≤ a) && b != 0 && Memory.wfFrom (a + 1) r

/-- The canonical form of memory. -/
def Memory.wf (m : List Host.Cell) : Bool := Memory.wfFrom 0 m

/-- What an unlisted byte reads as (entry 5). -/
def memDefault : Byte := 0

def memRead (m : List Host.Cell) (a : Nat) : Byte := tget m a memDefault

def memWrite (a : Nat) (b : Byte) : List Host.Cell → List Host.Cell
  | [] => if b = memDefault then [] else [(a, b)]
  | (x, y) :: r =>
    if a < x then (if b = memDefault then (x, y) :: r else (a, b) :: (x, y) :: r)
    else if a = x then (if b = memDefault then r else (a, b) :: r)
    else (x, y) :: memWrite a b r

def memWrites (a : Nat) : List Byte → List Host.Cell → List Host.Cell
  | [], m => m
  | b :: bs, m => memWrites (a + 1) bs (memWrite a b m)

def memReads (m : List Host.Cell) (a n : Nat) : List Byte := (List.range n).map fun i => memRead m (a + i)

/-- Little-endian value of a string of bytes (R6). -/
def leNat : List Byte → Nat
  | [] => 0
  | b :: bs => b.toNat + 256 * leNat bs

/-- The `n` low bytes of a number, little-endian (R6). -/
def leBytes : Nat → Nat → List Byte
  | 0, _ => []
  | n + 1, v => BitVec.ofNat 8 v :: leBytes n (v / 256)

/-- Bits `lo` to `lo + len - 1` of a number. -/
def bits (v lo len : Nat) : Nat := v / 2 ^ lo % 2 ^ len

/-- A 64-bit value from a number. -/
def dbl (n : Nat) : Dbl := BitVec.ofNat 64 n

/-! ### Places of memory. Physical addresses are below 2^52 (R76); core arrays (R45) and operand slots (R234) lie
above them, so that one list holds every byte of the package. -/

def arrayAt (core x : Nat) : Nat := 2 ^ 52 + core * 2 ^ 19 + x

/-- Byte of an operand slot: side 0 is A, 1 is B. -/
def slotAt (quad side slot off : Nat) : Nat := 2 ^ 53 + quad * 2 ^ 22 + side * 2 ^ 21 + slot * 2 ^ 16 + off

/-- Local HBM (R76). -/
def isLocalHbm (a : Nat) : Bool := bits a 44 8 == 0 && bits a 36 4 == 0 && a < 2 ^ 52
/-- Peer HBM (R76). -/
def isPeer (a : Nat) : Bool := bits a 50 2 == 1 && bits a 36 4 == 0 && a < 2 ^ 52
/-- Host memory (R76). -/
def isHost (a : Nat) : Bool := bits a 50 2 == 2 && a < 2 ^ 52
/-- HBM-class memory, local or peer (R63): it holds ciphertext (R177, R191; entry 13). -/
def isHbm (a : Nat) : Bool := isLocalHbm a || isPeer a
/-- Inside the physical address map (R76). -/
def inMap (a : Nat) : Bool := isLocalHbm a || isPeer a || isHost a

/-- The firmware region (R334). -/
def inFirmware (a : Nat) : Bool := 0xFF0000000 ≤ a && a ≤ 0xFFFFFFFFF

/-- Read of a byte of physical memory under a key (R177, R369). Host memory and arrays are not held under keys. -/
def State.readByte (s : State) (key a : Nat) : Byte :=
  if isHbm a then
    match tfind (a / 128) s.memKey with
    | some lk =>
      if lk.key = key then
        if lk.known.getLsbD (a % 128) then memRead s.mem a else Config.noise key a [lk.stamp]
      else Config.noise key a (lk.key :: lk.stamp :: (memReads s.mem (a / 128 * 128) 128).map (·.toNat))
    | none => Config.noise key a []
  else memRead s.mem a

/-- Write of a byte of physical memory under a key. -/
def State.writeByte (s : State) (key a : Nat) (b : Byte) : State :=
  if isHbm a then
    let one : BitVec 128 := BitVec.twoPow 128 (a % 128)
    let lk : LineKey :=
      match tfind (a / 128) s.memKey with
      | some lk => if lk.key = key then { lk with known := lk.known ||| one } else ⟨key, s.freeCtr, one⟩
      | none => ⟨key, s.freeCtr, one⟩
    { s with mem := memWrite a b s.mem, memKey := tset (a / 128) lk s.memKey, freeCtr := s.freeCtr + 1 }
  else { s with mem := memWrite a b s.mem }

def State.readPhys (s : State) (key a n : Nat) : List Byte := (List.range n).map fun i => s.readByte key (a + i)

def State.writePhys (s : State) (key a : Nat) : List Byte → State
  | [] => s
  | b :: bs => (s.writeByte key a b).writePhys key (a + 1) bs

/-- Bytes of a core's array (R45, R67). -/
def State.readArray (s : State) (core x n : Nat) : List Byte := memReads s.mem (arrayAt core x) n

def State.writeArray (s : State) (core x : Nat) (bs : List Byte) : State :=
  { s with mem := memWrites (arrayAt core x) bs s.mem }

/-! ## Agents of the state -/

/-- Core 0 to 383, or the Derailleur (384). -/
def State.core (s : State) (c : Nat) : Core := tget s.cores c (if c = 384 then Core.derailleur else Core.reset)
def State.setCore (s : State) (c : Nat) (x : Core) : State := { s with cores := tset c x s.cores }
def State.updCore (s : State) (c : Nat) (f : Core → Core) : State := s.setCore c (f (s.core c))
def State.seq (s : State) (c : Nat) : Seq := (s.core c).seq
def State.updSeq (s : State) (c : Nat) (f : Seq → Seq) : State := s.updCore c fun x => { x with seq := f x.seq }

def State.quad (s : State) (q : Nat) : Quad := tget s.quads q Quad.reset
def State.updQuad (s : State) (q : Nat) (f : Quad → Quad) : State := { s with quads := tset q (f (s.quad q)) s.quads }
def State.die (s : State) (d : Nat) : Die := tget s.dies d Die.reset
def State.updDie (s : State) (d : Nat) (f : Die → Die) : State := { s with dies := tset d (f (s.die d)) s.dies }
def State.slice (s : State) (i : Nat) : Slice := tget s.slices i Slice.reset
def State.updSlice (s : State) (i : Nat) (f : Slice → Slice) : State :=
  { s with slices := tset i (f (s.slice i)) s.slices }
def State.fn (s : State) (f : Nat) : Func := tget s.fns f Func.reset
def State.updFn (s : State) (f : Nat) (g : Func → Func) : State := { s with fns := tset f (g (s.fn f)) s.fns }
def Func.queue (f : Func) (q : Nat) : WorkQueue := tget f.queues q WorkQueue.reset
def State.wq (s : State) (f q : Nat) : WorkQueue := (s.fn f).queue q
def State.updWq (s : State) (f q : Nat) (g : WorkQueue → WorkQueue) : State :=
  s.updFn f fun x => { x with queues := tset q (g (x.queue q)) x.queues }

/-- R21: die, quad of the package and member of a core. -/
def dieOf (c : Nat) : Nat := c / 24
def quadOf (c : Nat) : Nat := c / 4
def memberOf (c : Nat) : Nat := c % 4
/-- The Derailleur's number among the sequencers. -/
def derailleur : Nat := 384

/-- World tag of a work queue (R336). -/
def worldTag (fn wq : Nat) : Nat := 8 * fn + wq

/-- Key under which a core's accesses are made: its function's key, or the package key (R369). -/
def State.keyOf (s : State) (c : Nat) : Nat :=
  match (s.core c).task with
  | some t => (s.fn t.fn).key
  | none => 1

/-- A fresh free value (entry 7). -/
def State.freeDbl (s : State) : Dbl := Config.freeDbl s.freeCtr
def State.freeNat (s : State) : Nat := Config.freeNat s.freeCtr
def State.useFree (s : State) : State := { s with freeCtr := s.freeCtr + 1 }

/-- A number not given to any word or request yet. -/
def State.useId (s : State) : State := { s with nextId := s.nextId + 1 }

/-- The j-th entry of a list of per-engine data. -/
def engIdx : Engine → Nat
  | .seq => 0
  | .load => 1
  | .vec => 2
  | .mat => 3
  | .store => 4

/-- Place of an engine's command queue among a core's four (R31). -/
def queueIdx : Engine → Nat
  | .seq => 0
  | .load => 0
  | .vec => 1
  | .mat => 2
  | .store => 3

/-- Engine codes of R34 and R40: 1 load, 2 vector, 3 matrix, 4 store. -/
def engCode : Engine → Nat
  | .seq => 0
  | .load => 1
  | .vec => 2
  | .mat => 3
  | .store => 4

def queueEngine : Queue → Engine
  | .load => .load
  | .vec => .vec
  | .mat => .mat
  | .store => .store

def lmod {α : Type} (l : List α) (i : Nat) (f : α → α) : List α := l.modify i f

def Core.flow (x : Core) (e : Engine) : Flow := x.flows.getD (engIdx e) Flow.reset
def Core.updFlow (x : Core) (e : Engine) (f : Flow → Flow) : Core := { x with flows := lmod x.flows (engIdx e) f }
def Core.queue (x : Core) (e : Engine) : List Cmd := x.queues.getD (queueIdx e) []
def Core.updQueue (x : Core) (e : Engine) (f : List Cmd → List Cmd) : Core :=
  { x with queues := lmod x.queues (queueIdx e) f }
/-- Changes one command of an engine's queue. -/
def Core.updCmd (x : Core) (e : Engine) (uid : Nat) (f : Cmd → Cmd) : Core :=
  x.updQueue e fun q => q.map fun c => if c.uid = uid then f c else c

/-! ## The Chain (R23 to R28). Token queues are numbered as R156 numbers them. -/

/-- The queue that runs to an engine from its previous (`next = false`) or next neighbour. -/
def tokenIn (e : Engine) (next : Bool) : Nat :=
  match e, next with
  | .seq, false => 8
  | .seq, true => 1
  | .load, false => 0
  | .load, true => 3
  | .vec, false => 2
  | .vec, true => 5
  | .mat, false => 4
  | .mat, true => 7
  | .store, false => 6
  | .store, true => 9

/-- The queue that runs from an engine to its previous (`next = false`) or next neighbour. -/
def tokenOut (e : Engine) (next : Bool) : Nat :=
  match e, next with
  | .seq, false => 9
  | .seq, true => 0
  | .load, false => 1
  | .load, true => 2
  | .vec, false => 3
  | .vec, true => 4
  | .mat, false => 5
  | .mat, true => 6
  | .store, false => 7
  | .store, true => 8

def Core.token (x : Core) (q : Nat) : Nat := x.tokens.getD q 0

/-- R26, R27: every queue awaited holds a token, and no signal of the engine is pending. -/
def Core.chainReady (x : Core) (e : Engine) (ch : Chain) : Bool :=
  !(x.flow e).psp && !(x.flow e).psn
    && (!ch.wp || 0 < x.token (tokenIn e false)) && (!ch.wn || 0 < x.token (tokenIn e true))

/-- R26: one token from each queue awaited. -/
def Core.takeTokens (x : Core) (e : Engine) (ch : Chain) : Core :=
  let t := if ch.wp then lmod x.tokens (tokenIn e false) (· - 1) else x.tokens
  { x with tokens := if ch.wn then lmod t (tokenIn e true) (· - 1) else t }

/-- R27: a signal is delivered while the count is below 15, and is pending otherwise. -/
def Core.signal (x : Core) (e : Engine) (next : Bool) : Core :=
  let q := tokenOut e next
  if x.token q < 15 then { x with tokens := lmod x.tokens q (· + 1) }
  else x.updFlow e fun f => if next then { f with psn := true } else { f with psp := true }

/-- Every word of a command with a context of its own is complete. -/
def Cmd.contextOver (k : Cmd) : Bool := k.allIssued && !(k.ctx.any fun v => v.infl != [])

/-- A word of a later command waits with its signals for a relocatable command before it, whose words stand in no order
(R27, R225). -/
def Core.behindReloc (x : Core) (e : Engine) (wid : Nat) : Bool :=
  e == .vec && (x.queue e).any fun k =>
    k.reloc && !k.contextOver && (x.queue e).any fun j => k.uid < j.uid && j.wids.contains wid

/-- R27: signals leave in word order, none while one is pending; a word stands in the order until its signals are
delivered. -/
def Core.drain (x : Core) (e : Engine) : Nat → Core
  | 0 => x
  | n + 1 =>
    match (x.flow e).order with
    | [] => x
    | w :: ws =>
      if !w.done || (x.flow e).psp || (x.flow e).psn || x.behindReloc e w.wid then x
      else
        let x := if w.sp then x.signal e false else x
        let x := if w.sn then x.signal e true else x
        if (x.flow e).psp || (x.flow e).psn then
          x.updFlow e fun f => { f with order := { w with sp := false, sn := false } :: ws }
        else (x.updFlow e fun f => { f with order := ws }).drain e n

/-- R126: nothing is signalled while the domain is frozen. -/
def Core.settle (x : Core) (e : Engine) : Core := if x.freezes == [] then x.drain e (x.flow e).order.length else x

/-- A word takes its tokens and stands in the engine's order until its signals are given. -/
def Core.beginWord (x : Core) (e : Engine) (wid : Nat) (done : Bool) (ch : Chain) : Core :=
  ((x.takeTokens e ch).updFlow e fun f => { f with order := f.order ++ [⟨wid, done, ch.sp, ch.sn⟩] }).settle e

/-- A word is complete (R27); the hang watchdog's count returns to zero (R364). -/
def Core.completeWord (x : Core) (e : Engine) (wid : Nat) : Core :=
  let x := x.updFlow e fun f => { f with order := f.order.map fun w => if w.wid = wid then { w with done := true } else w }
  { (x.settle e) with task := x.task.map fun t => { t with wd := 0 } }

/-! ## Registers of a sequencer (R119 to R121) -/

def Seq.val (q : Seq) : Src → Dbl
  | .belt i => q.belt.getD i.toNat 0
  | .named k _ => q.named.getD k.toNat 0

/-- R120, R121: a result enters the belt at b0, or a named register, which leaves the released mask. -/
def Seq.write (q : Seq) (d : Dest) (v : Dbl) : Seq :=
  match d with
  | .belt => { q with belt := v :: q.belt.take 15 }
  | .named k => { q with named := q.named.set k.toNat v, released := q.released &&& ~~~(BitVec.twoPow 16 k.toNat) }

def Seq.writeOpt (q : Seq) : Option (Dbl × Dest) → Seq
  | none => q
  | some (v, d) => q.write d v

/-- R121: last-read marks release their registers. -/
def Seq.release (q : Seq) : List Src → Seq
  | [] => q
  | .named k true :: r => ({ q with released := q.released ||| BitVec.twoPow 16 k.toNat } : Seq).release r
  | _ :: r => q.release r

/-- The first operand that names a released register (R121). -/
def Seq.releasedRead (q : Seq) : List Src → Option (BitVec 4)
  | [] => none
  | .named k _ :: r => if q.released.getLsbD k.toNat then some k else q.releasedRead r
  | .belt _ :: r => q.releasedRead r

/-- R123, R152: four consecutive named registers from kN. -/
def quadRegs (n : BitVec 2) : List Src :=
  (List.range 4).map fun i => .named (BitVec.ofNat 4 (4 * n.toNat + i)) false

/-! ## Parking a work queue (R356, R358) -/

/-- PKHDR (R358). -/
def parkHeader (cause unit : Nat) (double : Bool) (c : Nat) : Dbl :=
  dbl (cause + unit * 2 ^ 8 + (if double then 2 ^ 11 else 0)
    + (if c < 384 then dieOf c * 2 ^ 12 + c % 24 * 2 ^ 16 else 0))

/-- The eight doubles of a park record (R358). -/
def parkWords (hdr : Dbl) (rseq tseq : Nat) (urec : List Dbl) : List Dbl :=
  [hdr, dbl (rseq % 2 ^ 48), dbl (tseq % 2 ^ 32), 0] ++ (urec ++ [0, 0, 0, 0]).take 4

/-- The function raises an MSI-X vector; one that issues no TLP does not (R384). -/
def State.msix (s : State) (fn v : Nat) : State := if (s.fn fn).noTlp then s else { s with out := s.out ++ [.msix fn v] }

/-- A park is presented when the queue has none, and waits otherwise; the function raises MSI-X vector q when it is
presented (R356, R357). Telemetry counter 39 counts parks (R365). -/
def State.presentPark (s : State) (fn wq : Nat) (p : Park) : State :=
  let s := s.updFn fn fun f => { f with telemetry := lmod f.telemetry 7 (· + 1) }
  if (s.wq fn wq).park then s.updWq fn wq fun w => { w with parks := w.parks ++ [p] }
  else (s.updWq fn wq fun w => { w with park := true, pkrec := p.words, parks := w.parks ++ [p] }).msix fn wq

/-- A core that parks or stops gives up its lease (R348). -/
def State.dropLease (s : State) (c : Nat) : State :=
  if c < 384 ∧ (s.quad (quadOf c)).leaseHolder = some c then
    s.updQuad (quadOf c) fun q => { q with leaseHolder := none, leaseLast := memberOf c, leaseOver := false }
  else s

/-! ## Donations of priority (R315) -/

/-- Is a task the giver, or the taker, of a donation? -/
def Donation.gives (d : Donation) (w : Task) : Bool := d.wq == w.wq && d.rseq == w.rseq && d.giver == w.tseq
def Donation.takes (d : Donation) (t : Task) : Bool := d.wq == t.wq && d.rseq == t.rseq && d.taker == t.tseq

/-- A task with its effective priority, the greatest of its own and those donated to it; it is out of eligibility while
one to which it donates has not become resident in time. -/
def Task.withPrio (l : List Donation) (t : Task) : Task :=
  { t with
    effPrio := (l.filter fun d => d.takes t).foldl (fun p d => Nat.max p d.prio) t.prio
    eligible := !l.any fun d => d.late && d.gives t }

/-- A change of every resident task of a function. -/
def State.mapTasks (s : State) (fn : Nat) (f : Task → Task) : State :=
  { s with cores := s.cores.map fun (p : Nat × Core) =>
      (p.1, { p.2 with task := p.2.task.map fun (w : Task) => if w.fn = fn then f w else w }) }

def Saved.mapTask (f : Task → Task) (v : Saved) : Saved := { v with task := f v.task }

/-- The donations of a function become others. -/
def State.setDonations (s : State) (fn : Nat) (l : List Donation) : State :=
  (s.updFn fn fun f => { f with donations := l, away := f.away.map (Saved.mapTask (Task.withPrio l)) }).mapTasks fn
    (Task.withPrio l)

/-- Donations that end. -/
def State.dropDonations (s : State) (fn : Nat) (p : Donation → Bool) : State :=
  if (s.fn fn).donations.any p then s.setDonations fn ((s.fn fn).donations.filter fun d => !p d) else s

/-- The monitor of a core fires: its task donates no longer. -/
def State.giveNoMore (s : State) (c : Nat) : State :=
  match (s.core c).task with
  | none => s
  | some t => s.dropDonations t.fn fun d => d.gives t

/-- R287: at a stop or a park the home entry of a core's monitor is removed and the monitor is fired, with the double
as it stands there. -/
def State.unmonitor (s : State) (c : Nat) : State :=
  let mine := (s.slices.flatMap fun p => p.2.mons.filter fun m => m.core == c)
    ++ (s.cores.flatMap fun p => p.2.portMon.filter fun m => m.core == c)
  let seen : Dbl → Dbl := fun v =>
    match mine with
    | m :: _ => dbl (leNat (s.readPhys (s.keyOf c) m.addr 8))
    | [] => v
  let s := { s with
    slices := s.slices.map fun (p : Nat × Slice) => (p.1, { p.2 with mons := p.2.mons.filter fun m => m.core != c })
    cores := s.cores.map fun (p : Nat × Core) => (p.1, { p.2 with portMon := p.2.portMon.filter fun m => m.core != c }) }
  (s.giveNoMore c).updCore c fun x =>
    { x with mon := x.mon.map fun (m : Monitor) => if m.armed && !m.fired then { m with fired := true, seen := seen m.value } else m }

/-- R356: the task of a core parks its work queue. `svc` is the destination of an `SVC.val`. -/
def State.park (s : State) (c cause unit : Nat) (double : Bool) (urec : List Dbl) (svc : Option Dest) : State :=
  match (s.core c).task with
  | none => s
  | some t =>
    let s := (s.updCore c fun x => { x with task := some { t with parked := true } }).unmonitor c
    -- commands already started go on to their end under the lease, unless the domain is frozen (R155, R348)
    let s := if (s.core c).freezes = [] ∧ ((s.core c).queue .mat).any (·.started) then s else s.dropLease c
    s.presentPark t.fn t.wq ⟨c, parkWords (parkHeader cause unit double c) t.rseq t.tseq urec, svc⟩

/-- Causes of a word that has issued when the queue parks: `TRAP` and `SVC` (R155). -/
def issuedCause (cause : Nat) : Bool := cause == 0x06 || cause == 0x10

/-- R155: the sequencer parks its work queue. On the Derailleur a park-class trap halts it (R334). The word after a `TRAP`
or an `SVC` is reached by falling through (R144). -/
def State.parkSeq (s : State) (c : Nat) (p : PendTrap) (double : Bool) (svc : Option Dest) : State :=
  let s := s.updSeq c fun q =>
    { q with pc := if issuedCause p.cause then p.after else p.pc, pendTrap := none, fell := issuedCause p.cause,
             stall := 0 }
  if c = derailleur then { s with pf0 := { s.pf0 with drcause := BitVec.ofNat 8 p.cause, halt := true } }
  else s.park c p.cause 0 double [p.pc, p.addr, p.word.setWidth 64 ||| (p.ext.setWidth 64 <<< 32), p.info] svc

/-- Handler-class causes (R152). -/
def handlerClass (cause : Nat) : Bool := 1 ≤ cause && cause ≤ 8

/-- R153: trap entry to the handler. -/
def Seq.enter (q : Seq) (p : PendTrap) : Seq :=
  { q with
    xpc := if p.cause = 0x06 then p.after else p.pc
    xcause := dbl p.cause
    xaddr := p.addr
    xinfo := p.info
    xword := p.word.setWidth 64 ||| (p.ext.setWidth 64 <<< 32)
    shadow := q.belt
    belt := List.replicate 16 0
    th := true
    pc := q.tvec
    occ := 8
    stall := 0
    phase := 0
    fell := false
    pendTrap := none
    occWid := none }

/-- Destination of an `SVC.val` word (R130, R155). -/
def svcDest (w : Word) : Option Dest :=
  if bit w 21 then some (if bit w 20 then .named (fld w 16 4) else .belt) else none

/-- R152: taking a trap. A handler-class trap goes to the handler when tvec is not zero and no handler runs; any
other trap parks the work queue. -/
def State.takeTrap (s : State) (c : Nat) (p : PendTrap) : State :=
  let q := s.seq c
  if handlerClass p.cause && q.tvec != 0 && !q.th then s.updSeq c fun q => q.enter p
  else s.parkSeq c p (handlerClass p.cause && q.th) (if p.cause = 0x10 then svcDest p.word else none)

/-- A trap is taken when the landing buffer is empty; until then it waits (R128). -/
def State.trapWhenLanded (s : State) (c : Nat) (p : PendTrap) : State :=
  if (s.seq c).landing = [] then s.takeTrap c p
  else s.updSeq c fun q => { q with pendTrap := some p }

/-- The trap that the current word takes. A Machine check names the word (R152). -/
def State.trap (s : State) (cause : Nat) (addr info : Dbl) : State :=
  s.trapWhenLanded s.cur.core
    ⟨cause, if cause = 0x20 then s.cur.addr else addr, info, s.cur.addr, s.cur.addr + dbl (4 * s.cur.len), s.cur.word, s.cur.ext1⟩

/-- R154: return from a handler. The manual does not say in which of its 2 clk the belt is copied and TH is cleared:
both are done as ERET issues, so that a load that drops in the second cycle drops on the belt copied (entry 64). -/
def Seq.eret (q : Seq) : Seq := { q with belt := q.shadow, th := false, pc := q.xpc, fell := false }

/-! ## Meters (R365, R380) -/

/-- Only the functions 1 to 48 have meters (R336). -/
def sliceFn (n : Nat) : Bool := 1 ≤ n && n ≤ 48

/-- A meter's events are counted, in the pending counter while the function is quiesced (R365). -/
def State.meter (s : State) (fn i n : Nat) : State :=
  if !sliceFn fn then s
  else s.updFn fn fun f =>
    if f.quiesced then { f with pending := lmod f.pending i (· + n) } else { f with meters := lmod f.meters i (· + n) }

/-- Events of a delivery made for an owner whose rows are evicted count in the pending counter (R295). -/
def State.meterTo (s : State) (pending : Bool) (fn i n : Nat) : State :=
  if pending && sliceFn fn then s.updFn fn fun f => { f with pending := lmod f.pending i (· + n) } else s.meter fn i n

/-- Counters 32 to 39 of CYCR (R365). -/
def State.telemeter (s : State) (fn i n : Nat) : State :=
  if sliceFn fn then s.updFn fn fun f => { f with telemetry := lmod f.telemetry (i - 32) (· + n) } else s

/-- Operations of an engine word are counted for its function, and for a pure task that may be entered (R331). -/
def State.countOps (s : State) (c : Nat) (vec : Bool) (meter n : Nat) : State :=
  match (s.core c).task with
  | none => s
  | some t =>
    (s.meter t.fn meter n).updCore c fun x => { x with task := x.task.map fun t =>
      { t with pureInfo := t.pureInfo.map fun p =>
          if vec then { p with vecOps := p.vecOps + n } else { p with matOps := p.matOps + n } } }

/-! ## Cycles of a sequencer -/

/-- R364: the watchdog counts an eligible task's cycles. -/
def Task.tick (t : Task) : Task := if t.eligible && !t.parked && t.stopped.isNone then { t with wd := t.wd + 1 } else t

/-- One cycle of the core clock domain's count and of the task's watchdog count (R123, R364). While the task is parked
the ages of its residuals are held (R295). -/
def Core.cycle (x : Core) : Core :=
  { x with
    seq := { x.seq with cyc := x.seq.cyc + 1 }
    task := x.task.map Task.tick
    res := if x.task.any (·.parked) then
        { x.res with tags := x.res.tags.map fun (p : Nat × ResTag) => (p.1, { p.2 with born := p.2.born + 1 }) }
      else x.res }

/-- A cycle in which the sequencer stalls (R126, R156). -/
def State.stallSeq (s : State) (code : Nat) : State :=
  s.updCore s.cur.core fun x => ({ x with seq := { x.seq with stall := code } } : Core).cycle

/-- Address of the word after the current one. -/
def State.nextPc (s : State) : Dbl := s.cur.addr + dbl (4 * s.cur.len)

/-- A word retires from its engine (R121, R125): it releases the registers it marks, then writes its result. -/
def Seq.retire (q : Seq) (marks : List Src) (res : Option (Dbl × Dest)) : Seq := (q.release marks).writeOpt res

/-- The current sequencer word issues (R125): it takes its tokens, and in its last cycle releases marked registers and
writes its result. `clk` is the number of cycles it occupies; `done` says that it is complete then. -/
def Core.issue (x : Core) (wid : Nat) (ch : Chain) (marks : List Src) (clk : Nat) (res : Option (Dbl × Dest))
    (done : Bool) (pc next : Dbl) : Core :=
  let one := decide (clk ≤ 1)
  let q := if one then x.seq.retire marks res else x.seq
  let q := { q with
    occ := clk - 1
    pres := if one then none else res
    marks := if one then [] else marks
    pc := pc
    fell := decide (pc = next)
    stall := 0
    phase := 0
    sweep := []
    answer := none
    arrived := false
    occWid := if one then none else some wid }
  ((({ x with seq := q } : Core).beginWord .seq wid (one && done) ch)).cycle

/-- The current word issues and goes on at `pc`. -/
def State.issueAt (s : State) (marks : List Src) (clk : Nat) (res : Option (Dbl × Dest)) (pc : Dbl) : State :=
  (s.updCore s.cur.core fun x =>
    let x := x.issue s.nextId s.cur.chain marks clk res true pc s.nextPc
    { x with task := x.task.map fun t => { t with wd := 0 } }).useId

/-- The current word issues and falls through. -/
def State.issue (s : State) (marks : List Src) (clk : Nat) (res : Option (Dbl × Dest)) : State :=
  s.issueAt marks clk res s.nextPc

/-- The current word issues and completes later (LD, ST, atomics): its entry in the order is number `nextId`. -/
def State.issueOpen (s : State) (marks : List Src) : State :=
  (s.updCore s.cur.core fun x => x.issue s.nextId s.cur.chain marks 1 none false s.nextPc s.nextPc).useId

/-- What every sequencer word waits for and checks before it acts: its tokens (R26), and the registers it reads
(R121). `reads` are the operands read; a word in a later step of a stall (`phase` not 0) has done both. -/
def State.withOperands (s : State) (reads : List Src) (k : State → State) : State :=
  let x := s.core s.cur.core
  if x.seq.phase = 0 ∧ !x.chainReady .seq s.cur.chain then s.stallSeq 1
  else
    match (if x.seq.phase = 0 then x.seq.releasedRead reads else none) with
    | some n => s.trap 0x04 s.cur.addr (dbl n.toNat)
    | none => k s

/-- Value of an operand of the current word. -/
def State.opd (s : State) (a : Src) : Dbl := (s.seq s.cur.core).val a

/-- One of the further cycles of an instruction of several cycles (R125): at the end of the last, the word retires and
is complete. -/
def Core.occCycle (x : Core) : Core :=
  let q := x.seq
  if q.occ = 1 then
    let y := ({ x with seq := { q.retire q.marks q.pres with occ := 0, pres := none, marks := [], occWid := none } } : Core).cycle
    match q.occWid with
    | some w => y.completeWord .seq w
    | none => y
  else ({ x with seq := { q with occ := q.occ - 1 } } : Core).cycle

def State.occCycle (s : State) (c : Nat) : State := s.updCore c Core.occCycle

end Sys2Proof.Machine
end

