-- ==== Sys2Proof/Machine/Ways.lean ====
section
/-! DEFINITION. Where a line of memory is homed (R76, R81, R272), the routes between dies (R17, R65), the ways of a slice
(R272, R275 to R280), open rows of HBM (R85), and a lookup that a unit without requests of its own makes. -/

namespace Sys2Proof.Config

/-- Bank of a row of HBM within its pseudo-channel: R85 gives the pseudo-channel alone. -/
opaque hbmBank : Nat → Nat

end Sys2Proof.Config

namespace Sys2Proof.Machine

open Sys2Proof

/-! ## Homes -/

/-- slice_of (R81). -/
def sliceOf (a : Nat) : Nat := (List.range 8).foldl (fun x f => x ^^^ bits a (7 + 4 * f) 4) 0
/-- set_of (R272). -/
def setOf (a : Nat) : Nat := (a / 2 ^ 11 ^^^ a / 2 ^ 22) % 2048
/-- Home die of an address of local HBM (R76). -/
def homeDie (a : Nat) : Nat := bits a 40 4
def isArray (a : Nat) : Bool := 2 ^ 52 ≤ a && a < 2 ^ 53
/-- The core whose array holds a byte (R68). -/
def arrayCore (a : Nat) : Nat := (a - 2 ^ 52) / 2 ^ 19
/-- Number of a home among `State.slices`: 256 stands for the homes of peer packages. -/
def homeIdx (a : Nat) : Nat := if isLocalHbm a then homeDie a * 16 + sliceOf a else 256

/-! ## Routes and links (R17, R65) -/

/-- Numbers from the lesser of two to before the greater. -/
def between (a b : Nat) : List Nat := (List.range (Nat.max a b - Nat.min a b)).map (Nat.min a b + ·)

/-- Boundaries that a request crosses: east-west first, then north-south (R65). Boundary 3 y + x lies between columns x
and x + 1 of row y, boundary 12 + 4 y + x between rows y and y + 1 of column x (entry 26). -/
def routeOf (src dst : Nat) : List Nat :=
  (between (src % 4) (dst % 4)).map (3 * (src / 4) + ·) ++ (between (src / 4) (dst / 4)).map fun y => 12 + 4 * y + dst % 4

def State.linkDown (s : State) (k : LinkId) : Bool := s.links.any fun l => l.link == k && l.failed

/-- Every fabric port has failed. -/
def State.fabricDown (s : State) : Bool := (List.range 18).all fun n => s.linkDown (.port n)

/-- The host link has failed and has not trained again. -/
def State.hostDown (s : State) : Bool := s.linkDown .host

/-- An address of memory cannot be reached from a die (R17). -/
def State.cutOff (s : State) (d pa : Nat) : Bool :=
  if isHost pa then s.hostDown || (routeOf d 0).any fun n => s.linkDown (.boundary n)
  else if isPeer pa then s.fabricDown
  else (routeOf d (homeDie pa)).any fun n => s.linkDown (.boundary n)

/-! ## Ways (R272, R275 to R279) -/

/-- A function's configuration for a traffic class. The Derailleur (function 0) has no ways. -/
def State.wayCfg (s : State) (fn tc : Nat) : WayCfg := ((s.fn fn).ways).getD tc WayCfg.reset

/-- Policy for a kind of access: 0 allocate, 1 no-allocate, 2 stream (R275, R276). -/
def WayCfg.policy (w : WayCfg) (k : ReqKind) : Nat :=
  match k with
  | .read => w.rpol.toNat
  | .write => w.wpol.toNat
  | _ => w.apol.toNat

def Slice.lineIn (x : Slice) (line : Nat) : Option L2Line := x.ways.find? fun l => l.line == line

/-- The line becomes the most recently used of its set. -/
def Slice.touch (x : Slice) (l : L2Line) : Slice :=
  { x with ways := x.ways.map fun y =>
      if y.set == l.set then
        if y.way == l.way then { y with rank := 0 } else if y.rank < l.rank then { y with rank := y.rank + 1 } else y
      else y }

/-- A hit (R277): the order moves only for a way of the requester's mask; a write marks the line dirty. -/
def Slice.hit (x : Slice) (l : L2Line) (mask : BitVec 16) (write : Bool) : Slice :=
  let x := if mask.getLsbD l.way then x.touch l else x
  if write then { x with ways := x.ways.map fun y => if y.line == l.line then { y with dirty := true } else y } else x

/-- The way that a miss takes: the lowest invalid way of the mask, else the least recently used of it (R277). -/
def Slice.victim (x : Slice) (set : Nat) (mask : BitVec 16) : Option Nat :=
  let mine := (List.range 16).filter fun w => mask.getLsbD w
  let used (w : Nat) : Option L2Line := x.ways.find? fun l => l.set == set && l.way == w
  match mine.find? fun w => (used w).isNone with
  | some w => some w
  | none =>
    match mine with
    | [] => none
    | w :: ws => some (ws.foldl (fun best w =>
        if ((used best).map (·.rank)).getD 0 < ((used w).map (·.rank)).getD 0 then w else best) w)

/-- The line that leaves its way for a line that enters the set. -/
def Slice.victimLine (x : Slice) (set : Nat) (mask : BitVec 16) : Option L2Line :=
  (x.victim set mask).bind fun w => x.ways.find? fun l => l.set == set && l.way == w

/-- A line enters a way, most recently used or, under the stream policy, least recently used (R276). -/
def Slice.install (x : Slice) (line set : Nat) (mask : BitVec 16) (stream dirty replica : Bool) : Slice :=
  match x.victim set mask with
  | none => x
  | some w =>
    let kept := x.ways.filter fun l => !(l.set == set && l.way == w) && l.line != line
    let last := (kept.filter fun l => l.set == set).foldl (fun n l => Nat.max n (l.rank + 1)) 0
    let kept := if stream then kept else kept.map fun l => if l.set == set then { l with rank := l.rank + 1 } else l
    { x with ways := ⟨set, w, line, dirty, if stream then last else 0, replica⟩ :: kept }

/-! ### What is counted (R365, R380) -/

/-- A line of HBM is read, or written, for a function: 128 bytes in one burst. -/
def State.hbmRead (s : State) (fn : Nat) : State := (s.meter fn 11 128).telemeter fn 33 1
def State.hbmWritten (s : State) (fn : Nat) : State := (s.meter fn 12 128).telemeter fn 33 1

/-- A replica leaves a die, and the way that holds it. -/
def State.dropReplica (s : State) (d line : Nat) : State :=
  (s.updDie d fun x => { x with replicas := x.replicas.filter fun p => p.line != line }).updSlice
    (d * 16 + sliceOf (128 * line)) fun x => { x with ways := x.ways.filter fun l => !(l.replica && l.line == line) }

def State.dropReplicas (s : State) (d : Nat) : List Nat → State
  | [] => s
  | l :: ls => (s.dropReplica d l).dropReplicas d ls

/-- A line enters a slice; a dirty victim is written back first, for the function, whose way it lies in (R277, R278), and
a replica that leaves its way is gone. -/
def State.install (s : State) (i fn line : Nat) (mask : BitVec 16) (stream dirty replica : Bool) : State :=
  let set := setOf (128 * line)
  let s :=
    match (s.slice i).victimLine set mask with
    | none => s
    | some l =>
      if l.line == line then s
      else if l.replica then s.dropReplica (i / 16) l.line
      else if l.dirty then s.hbmWritten fn
      else s
  s.updSlice i fun x => x.install line set mask stream dirty replica

/-! ## Rows of HBM (R85) -/

/-- Pseudo-channel of an address. -/
def pseudoChannel (a : Nat) : Nat := bits a 10 6 ^^^ bits a 16 6

/-- Do two rows, by their numbers, lie in one bank of one pseudo-channel? -/
def sameBank (r q : Nat) : Bool :=
  pseudoChannel (1024 * r) == pseudoChannel (1024 * q) && Config.hbmBank r == Config.hbmBank q

/-- The segments that a read of HBM opens: the row and the segment. A row that stands open in the bank is closed. -/
def State.openRow (s : State) (pa : Nat) : State :=
  s.updDie (homeDie pa) fun d =>
    let row := pa / 1024
    let seg : Byte := BitVec.twoPow 8 (pa / 128 % 8)
    if d.openRows.any fun p => p.1 == row then
      { d with openRows := d.openRows.map fun p => if p.1 == row then (row, p.2 ||| seg) else p }
    else { d with openRows := (d.openRows.filter fun p => !sameBank p.1 row) ++ [(row, seg)] }

/-! ## Lookups without a request (R275) -/

/-- A lookup that a unit makes which sends no request of the model's (table walks, reuse-arena traffic, the firmware): it
hits, or misses and allocates under its function's policy, at once (entry 65). A line that a fill brings is left to it. -/
def State.quietLookup (s : State) (fn tc : Nat) (write : Bool) (pa : Nat) : State :=
  if !isLocalHbm pa then s
  else
    let i := homeIdx pa
    let line := pa / 128
    let cfg := s.wayCfg fn tc
    let s := s.telemeter fn 32 1
    match (s.slice i).lineIn line with
    | some l => s.updSlice i fun x => x.hit l cfg.mask write
    | none =>
      if (s.slice i).fills.any fun f => f.line == line then s
      else
        let pol := if write then cfg.wpol else cfg.rpol
        let s := (s.hbmRead fn).openRow pa
        if pol == 1 || cfg.mask == 0 then (if write then s.hbmWritten fn else s)
        else s.install i fn line cfg.mask (pol == 2) write false

/-- The lookups of several places, in order. -/
def State.quietLookups (s : State) (fn tc : Nat) (write : Bool) : List Nat → State
  | [] => s
  | a :: as => (s.quietLookup fn tc write a).quietLookups fn tc write as

/-- Places of the lines that hold `n` bytes from an address. -/
def linesOf (pa n : Nat) : List Nat :=
  if n = 0 then [] else (List.range ((pa + n - 1) / 128 + 1 - pa / 128)).map fun i => 128 * (pa / 128 + i)

end Sys2Proof.Machine
end

