-- ==== Sys2Proof/Machine/Translate.lean ====
section
/-! DEFINITION. Two-stage translation (R69 to R77, R335, R375): the walk of both stages, the TLBs, permissions,
page attributes and dirty tracking. Stage-1 tables are read under the function's key and stage-2 tables under the
package key, 1 (entry 13). Table reads look up the slices in TC3 (R69, R275). -/

namespace Sys2Proof.Machine

open Sys2Proof

/-- A fault of a translation: its cause (R152) and xinfo (R73). -/
structure XFault where
  cause : Nat
  info : Nat
  deriving DecidableEq, Repr

/-- What an access needs (R73): stage 1 in the order RD, WR, EX, AT, stage 2 in the order RD, WR. -/
structure Need where
  s1 : BitVec 4
  s2 : BitVec 2
  deriving DecidableEq, Repr

def Need.read : Need := ⟨0b0001, 0b01⟩
def Need.write : Need := ⟨0b0010, 0b10⟩
def Need.fetch : Need := ⟨0b0100, 0b01⟩
/-- ALD, MONW and MONC. -/
def Need.atomicRead : Need := ⟨0b1001, 0b01⟩
/-- Every other atomic, and an accumulate. -/
def Need.atomicRmw : Need := ⟨0b1011, 0b11⟩
/-- Reads and writes, for a region of kind rw. -/
def Need.readWrite : Need := ⟨0b0011, 0b11⟩

/-- A level of a walk: its number, the lowest input bit it indexes, how many bits, the size of the table that an
entry of it names (0 where none), and the size of the page that a leaf maps (0 where none). -/
structure Level where
  num : Nat
  lo : Nat
  nbits : Nat
  nextSize : Nat
  page : Nat
  deriving DecidableEq, Repr

/-- Table Translation levels (R69). -/
def stage1Levels : List Level :=
  [⟨5, 48, 9, 4096, 0⟩, ⟨4, 39, 9, 4096, 0⟩, ⟨3, 30, 9, 128, 2 ^ 30⟩, ⟨2, 26, 4, 256, 2 ^ 26⟩,
   ⟨1, 21, 5, 256, 2 ^ 21⟩, ⟨0, 16, 5, 0, 2 ^ 16⟩]

def stage2Levels : List Level :=
  [⟨3, 39, 13, 4096, 0⟩, ⟨2, 30, 9, 128, 2 ^ 30⟩, ⟨1, 26, 4, 256, 2 ^ 26⟩, ⟨0, 21, 5, 0, 2 ^ 21⟩]

/-- A leaf of either stage: where it maps to, its page size, the entry, and where the entry lies. -/
structure Leaf where
  out : Nat
  page : Nat
  entry : Nat
  place : Nat
  level : Nat
  deriving DecidableEq, Repr

/-- One stage's walk, given how a table entry is read; `res` are the reserved bits of a leaf (R70 to R73). -/
def walkLevels (read : Nat → Except XFault Nat) (cause : Nat) (res : Nat → Nat) (input : Nat) :
    Nat → List Level → Except XFault Leaf
  | _, [] => .error ⟨cause, 0⟩
  | table, l :: ls =>
    let place := table + 8 * bits input l.lo l.nbits
    match read place with
    | .error f => .error f
    | .ok e =>
      if e % 2 = 0 then .error ⟨cause, l.num⟩
      else if bits e 1 1 = 1 then
        let out := bits e 0 52 / 2 ^ 16 * 2 ^ 16
        let base := bits e 0 52 / l.page * l.page
        if l.page = 0 ∨ res e ≠ 0 then .error ⟨cause, l.num⟩
        else if (if cause = 0x11 then out else bits e 0 52 / 2 ^ 21 * 2 ^ 21) ≠ base then .error ⟨cause, l.num⟩
        else .ok ⟨base + input % l.page, l.page, e, place, l.num⟩
      else if l.nextSize = 0 ∨ bits e 2 5 ≠ 0 ∨ bits e 52 12 ≠ 0 ∨ bits e 0 52 / 2 ^ 7 * 2 ^ 7 % l.nextSize ≠ 0 then
        .error ⟨cause, l.num⟩
      else walkLevels read cause res input (bits e 0 52 / 2 ^ 7 * 2 ^ 7) ls

/-- Places of the entries that a walk reads. -/
def walkPlaces (read : Nat → Except XFault Nat) (input : Nat) : Nat → List Level → List Nat
  | _, [] => []
  | table, l :: ls =>
    let place := table + 8 * bits input l.lo l.nbits
    place :: (match read place with
      | .error _ => []
      | .ok e => if e % 2 = 1 ∧ bits e 1 1 = 0 then walkPlaces read input (bits e 0 52 / 2 ^ 7 * 2 ^ 7) ls else [])

/-- An entry of a table, read for an agent of a die. An entry that comes poisoned, from a bad line or over a failed link,
is a Machine check of the access (R16, R17; entry 66). -/
def State.tableEntry (s : State) (die key place : Nat) : Except XFault Nat :=
  if s.poison.contains (place / 128) || s.cutOff die place then .error ⟨0x20, s.freeNat⟩
  else .ok (leNat (s.readPhys key place 8))

/-- The reuse arenas and eviction areas of bound functions, and the firmware region (R335). -/
def State.reserved (s : State) (a : Nat) : Bool :=
  inFirmware a || s.fns.any fun (_, f) =>
    f.bound && ((f.arena ≤ a && a < f.arena + f.arsz * 65536) || (f.evict ≤ a && a < f.evict + f.evq * 0x750000))

/-- First stage-2 table of a function. -/
def State.table2 (s : State) (fn : Nat) : Nat := (s.fn fn).s2root.toNat / 2 ^ 16 * 2 ^ 16 % 2 ^ 52

/-- First stage-1 table of a root. -/
def table1 (root : Dbl) : Nat := root.toNat % 2 ^ 52 / 4096 * 4096

/-- The stage-2 walk of an intermediate address for an agent of a die (R69 to R76, R335, R375). -/
def State.walk2From (s : State) (die fn ipa : Nat) : Except XFault Leaf :=
  if s.failedMarks.contains (fn, ipa / 2 ^ 21 * 2 ^ 21) then .error ⟨0x1A, 0⟩
  else
    match walkLevels (s.tableEntry die 1) 0x12 (fun e => bits e 7 14 + bits e 52 12) ipa (s.table2 fn) stage2Levels with
    | .error f => .error f
    | .ok l => if !inMap l.out || s.reserved l.out then .error ⟨0x12, l.level⟩ else .ok l

/-- The stage-2 walk that die 0 makes, on which the Derailleur stands. -/
def State.walk2 (s : State) (fn ipa : Nat) : Except XFault Leaf := s.walk2From 0 fn ipa

/-- Places that a stage-2 walk reads. -/
def State.places2 (s : State) (die fn ipa : Nat) : List Nat :=
  walkPlaces (s.tableEntry die 1) ipa (s.table2 fn) stage2Levels

/-- Missing permissions, as the bits 4:1 of xinfo (R73): RD, WR, EX, AT. -/
def missing (need have_ : Nat) : Nat :=
  (if bits need 0 1 = 1 ∧ bits have_ 0 1 = 0 then 2 else 0) + (if bits need 1 1 = 1 ∧ bits have_ 1 1 = 0 then 4 else 0)
    + (if bits need 2 1 = 1 ∧ bits have_ 2 1 = 0 then 8 else 0)
    + (if bits need 3 1 = 1 ∧ bits have_ 3 1 = 0 then 16 else 0)

/-- A table entry of stage 1 is read through stage 2 and needs RD there (R69). -/
def State.readTable1 (s : State) (die fn place : Nat) : Except XFault Nat :=
  match s.walk2From die fn place with
  | .error f => .error f
  | .ok l =>
    if bits l.entry 2 1 = 0 then .error ⟨0x13, 1 + 2⟩
    else s.tableEntry die (s.fn fn).key l.out

/-- The stage-1 walk of a virtual address under a root (R69 to R73). -/
def State.walk1 (s : State) (die fn : Nat) (root : Dbl) (va : Nat) : Except XFault Leaf :=
  walkLevels (s.readTable1 die fn) 0x11 (fun e => bits e 6 10 + bits e 61 3) va (table1 root) stage1Levels

/-- Physical places that a full walk reads, in order: each stage-1 entry behind the stage-2 entries that lead to it, and the
stage-2 entries of the page. -/
def State.walkReads (s : State) (die fn : Nat) (root : Dbl) (va : Nat) : List Nat :=
  let through (ipa : Nat) : List Nat :=
    s.places2 die fn ipa ++ (match s.walk2From die fn ipa with
      | .ok l => [l.out]
      | .error _ => [])
  (walkPlaces (s.readTable1 die fn) va (table1 root) stage1Levels).flatMap through
    ++ (match s.walk1 die fn root va with
      | .ok l => s.places2 die fn l.out
      | .error _ => [])

/-- A malformed stage-1 leaf (R73). -/
def malformed (e : Nat) : Bool :=
  let fmt := bits e 52 4
  let blk := bits e 56 1
  let had := bits e 57 1
  let lead := bits e 58 1
  let nc := bits e 59 2
  10 ≤ fmt || (blk == 1 && fmt ≤ 6 && nc == 0) || (had == 1 && fmt < 7) || (lead == 1 && (had == 0 || blk == 1))
    || (nc != 0 && fmt == 0)

/-- R73: permissions of a translation, stage 1 first. -/
def checkNeed (t : TlbEntry) (n : Need) : Option XFault :=
  let m1 := missing n.s1.toNat t.s1.toNat
  let m2 := missing n.s2.toNat t.s2.toNat
  if m1 ≠ 0 then some ⟨0x13, m1⟩
  else if m2 ≠ 0 then some ⟨0x13, 1 + m2⟩
  else none

def tlbHit (fn : Nat) (root : Dbl) (va : Nat) (t : TlbEntry) : Bool :=
  t.fn == fn && t.root == root && t.va ≤ va && va < t.va + t.size

/-- A new entry enters a TLB of `cap` entries; the oldest leaves it when it is full (entry 9). -/
def tlbInsert (cap : Nat) (e : TlbEntry) (t : List TlbEntry) : List TlbEntry :=
  (e :: t.filter fun x => !(x.fn == e.fn && x.root == e.root && x.va == e.va)).take cap

/-- Set of the last-level TLB: the page's number by its own size, so that 1,024 pages that follow one another lie in as
many sets (entry 9). -/
def tlbSet (e : TlbEntry) : Nat := e.va / e.size % 1024

/-- The last-level TLB: 1,024 sets of 16 ways (R77); the oldest entry of a full set leaves it (entry 9). -/
def lastInsert (e : TlbEntry) (t : List TlbEntry) : List TlbEntry :=
  let same := (t.filter fun x => tlbSet x == tlbSet e && !(x.fn == e.fn && x.root == e.root && x.va == e.va)).take 15
  e :: same ++ t.filter fun x => tlbSet x != tlbSet e

/-- A full walk (R69) for an agent of a die: the combined translation. -/
def State.walk (s : State) (die fn : Nat) (root : Dbl) (va : Nat) : Except XFault (TlbEntry × Leaf) :=
  match s.walk1 die fn root va with
  | .error f => .error f
  | .ok l1 =>
    match s.walk2From die fn l1.out with
    | .error f => .error f
    | .ok l2 =>
      let size := Nat.min l1.page l2.page
      let clean := bits l2.entry 4 1 = 1 && bits l2.entry 5 1 = 0
      .ok ({ fn := fn, root := root, size := size, page1 := l1.page, va := va / size * size, pa := l2.out / size * size,
             ipa := l1.out / size * size, s1 := BitVec.ofNat 4 (bits l1.entry 2 4),
             s2 := BitVec.ofNat 2 (bits l2.entry 2 2), clean := clean,
             attr := BitVec.ofNat 9 (bits l1.entry 52 9), bad := malformed l1.entry,
             nrep := bits l2.entry 6 1 = 1 }, l2)

/-- Which TLB serves an access: a sequencer's, a copy engine's, or a walker's die alone. -/
inductive TlbUser where
  | seq (core : Nat)
  | copy (core : Nat)
  | walker (die : Nat)
  deriving DecidableEq, Repr

def TlbUser.die : TlbUser → Nat
  | .seq c | .copy c => dieOf c
  | .walker d => d

def State.microTlb (s : State) : TlbUser → List TlbEntry
  | .seq c => (s.core c).tlb
  | .copy c => (s.core c).copy.tlb
  | .walker _ => []

/-- An entry enters the micro-TLB and the last level (R77). -/
def State.fillTlb (s : State) (u : TlbUser) (e : TlbEntry) : State :=
  let s := s.updDie u.die fun d => { d with tlb := lastInsert e d.tlb }
  match u with
  | .seq c => s.updCore c fun x => { x with tlb := tlbInsert 32 e x.tlb }
  | .copy c => s.updCore c fun x => { x with copy := { x.copy with tlb := tlbInsert 64 e x.copy.tlb } }
  | .walker _ => s

/-- Physical address of a byte under a translation. -/
def TlbEntry.phys (t : TlbEntry) (va : Nat) : Nat := t.pa + (va - t.va)

/-- Does a held translation serve an access? A write through a clean one walks again (R74), and so does an address that the
range table keeps from every leaf (R335). -/
def State.serves (s : State) (fn : Nat) (root : Dbl) (va : Nat) (wr : Bool) (t : TlbEntry) : Bool :=
  tlbHit fn root va t && !(wr && t.clean) && !s.reserved (t.phys va)

/-- Translation of one virtual address for an access (R73, R74, R77): a TLB hit with the permissions held, or a
walk. A write through a leaf with DT = 1 and DIRTY = 0 sets DIRTY. -/
def State.translate (s : State) (u : TlbUser) (fn : Nat) (root : Dbl) (va : Nat) (n : Need) :
    State × Except XFault TlbEntry :=
  let wr := n.s2.getLsbD 1
  let finish (s : State) (t : TlbEntry) : State × Except XFault TlbEntry :=
    match checkNeed t n with
    | some f => (s, .error f)
    | none => if t.bad then (s, .error ⟨0x14, 0⟩) else (s, .ok t)
  match (s.microTlb u ++ (s.die u.die).tlb).find? (s.serves fn root va wr) with
  | some t => finish s t
  | none =>
    let walked := s.walk u.die fn root va
    let s := s.quietLookups fn 3 false (s.walkReads u.die fn root va)
    match walked with
    | .error f => (s, .error f)
    | .ok (t, l2) =>
      if wr && t.clean && (checkNeed t n).isNone then
        let s := s.writePhys 1 l2.place (leBytes 8 (l2.entry + 32))
        let t := { t with clean := false }
        finish (s.fillTlb u t) t
      else finish (s.fillTlb u t) t

/-- Host memory and arrays are not held under a key (R177). -/
def State.keyAt (s : State) (c pa : Nat) : Nat := if isHbm pa then s.keyOf c else 0

/-- R66: the virtual form. -/
def isVirtual (a : Dbl) : Bool := !a.getLsbD 63
/-- R66: an address of either form is valid. -/
def formOk (a : Dbl) : Bool :=
  if isVirtual a then bits a.toNat 57 6 == 0 else bits a.toNat 24 39 == 0
/-- Window offset of a local address (R66, R67). -/
def windowOff (a : Dbl) : Nat := bits a.toNat 0 24
/-- Core of the die and offset in its array that a window offset names (R67). -/
def windowCore (die off : Nat) : Nat := die * 24 + off / 2 ^ 19
def windowX (off : Nat) : Nat := off % 2 ^ 19

/-- End of a task's plain scratchpad below its residual area (R45). -/
def plainEnd (spreq : Nat) (resid : Bool) : Nat := spreq * 8192 - (if resid then 8192 else 0)

/-- R67: whether a window access of a task reaches a byte; 0 for yes, else the cause. -/
def State.windowFault (s : State) (c off : Nat) : Nat :=
  let t := windowCore (dieOf c) off
  let x := windowX off
  if off / 2 ^ 19 ≥ 24 ∨ x ≥ 0x50000 then 0x16
  else
    match (s.core c).task, (s.core t).task with
    | some me, some other =>
      if t = c ∧ me.resid ∧ plainEnd me.spreq true ≤ x ∧ x < me.spreq * 8192 then 0x17
      else if other.fn = me.fn ∧ x < plainEnd other.spreq other.resid then 0
      else 0x16
    | _, _ => 0x16

end Sys2Proof.Machine
end

