-- ==== Sys2Proof/Machine/Operands.lean ====
section
/-! DEFINITION. Operand forms: immediates (R50), the types of the sequencer's integer instructions (R133), the
extension of a loaded value (R100, R131), addresses of scalar accesses (R66, R137), and the operand codes of the
vector engine (R204). -/

namespace Sys2Proof.Machine

open Sys2Proof

/-- What a meaning answers. -/
abbrev Result := Host.Outcome State Fault Refusal

/-- A signed immediate as 64 bits (R50). -/
def immDbl {w : Nat} (i : Imm w) : Dbl := BitVec.ofInt 64 i.int

/-! ## Integer types (R131, R133) -/

/-- Width of a type's patterns. -/
def tyWidth : IntTy → Nat
  | .s64 | .z64 => 64
  | .s32 | .z32 => 32

def tySigned : IntTy → Bool
  | .s64 | .s32 => true
  | .z64 | .z32 => false

/-- R133: an operand cut to its low w bits, as an unsigned number. -/
def tyNat (t : IntTy) (x : Dbl) : Nat := x.toNat % 2 ^ tyWidth t

/-- R133: an operand cut to its low w bits, read under the type's signedness. -/
def tyInt (t : IntTy) (x : Dbl) : Int :=
  match t with
  | .s64 => x.toInt
  | .z64 => x.toNat
  | .s32 => (x.setWidth 32).toInt
  | .z32 => (x.setWidth 32).toNat

/-- R133: the low w bits of a result, extended to 64 bits. -/
def tyOut (t : IntTy) (r : Dbl) : Dbl :=
  match t with
  | .s64 | .z64 => r
  | .s32 => (r.setWidth 32).signExtend 64
  | .z32 => (r.setWidth 32).setWidth 64

/-- R133 for a result formed as an integer. -/
def tyOutInt (t : IntTy) (r : Int) : Dbl := tyOut t (BitVec.ofInt 64 r)

/-! ## Loaded and stored values (R131, R137, R138) -/

def ldBytes : LdSz → Nat
  | .z8 | .s8 => 1
  | .z16 | .s16 => 2
  | .z32 | .s32 => 4
  | .d64 => 8

def stBytes : StSz → Nat
  | .byte => 1
  | .half => 2
  | .word => 4
  | .double => 8

/-- The value that a load writes, from the little-endian number of its bytes. -/
def ldExtend (sz : LdSz) (v : Nat) : Dbl :=
  match sz with
  | .z8 => (BitVec.ofNat 8 v).setWidth 64
  | .s8 => (BitVec.ofNat 8 v).signExtend 64
  | .z16 => (BitVec.ofNat 16 v).setWidth 64
  | .s16 => (BitVec.ofNat 16 v).signExtend 64
  | .z32 => (BitVec.ofNat 32 v).setWidth 64
  | .s32 => (BitVec.ofNat 32 v).signExtend 64
  | .d64 => BitVec.ofNat 64 v

/-- Bytes of an atomic's operand (R281). -/
def atBytes : AtTy → Nat
  | .s64 | .z64 | .f64 => 8
  | .s32 | .z32 | .f32 | .f16x2 | .bf16x2 => 4

/-- R283: the old value as a result of 64 bits; 32-bit types are extended by their signedness, others by zeros. -/
def atExtend (ty : AtTy) (v : Nat) : Dbl :=
  match ty with
  | .s32 => (BitVec.ofNat 32 v).signExtend 64
  | .z32 | .f32 | .f16x2 | .bf16x2 => (BitVec.ofNat 32 v).setWidth 64
  | .s64 | .z64 | .f64 => BitVec.ofNat 64 v

/-! ## Scopes (R20) -/

/-- Number of cores in an instance of a scope within one package; `.pod` spans 64 packages (R20, R149). -/
def scopeCores : Scope → Nat
  | .core => 1
  | .quad => 4
  | .die => 24
  | .pkg => 384
  | .pod => 24576

/-- The instance of a scope that a core stands in (R149). -/
def scopeInst (sc : Scope) (c : Nat) : Nat :=
  match sc with
  | .core => c
  | .quad => quadOf c
  | .die => dieOf c
  | .pkg | .pod => 0

/-! ## Vector operand codes (R204) -/

/-- What an operand code of a vector word names. -/
inductive VOpd where
  | reg (n : Nat)
  | port (r : Nat)
  | zero
  | imm
  deriving DecidableEq, Repr

/-- Bytes of an element of a vector type (R198). -/
def vtyBytes (t : VTy) : Nat := 8 / t.perLane

end Sys2Proof.Machine
end

