-- ==== Sys2Proof/Machine/Fetch.lean ====
section
/-! DEFINITION. What comes before a sequencer's word: landings that are due (R127, R128), the end of an epilogue and
the drain stop (R144, R145, R346), the end of the code area (R140), and the fetch of the word and its EXT words. -/

namespace Sys2Proof.Machine

open Sys2Proof

/-- What an attempt of an engine to issue comes to: a word to execute, or a step that executes none. -/
inductive Attempt where
  | word (i : Instr) (s : State)
  | done (s : State)

/-! ## Landing (R127, R128, R137) -/

/-- The value that a landing drops (R137, R283, R317). -/
def Landing.value (l : Landing) : Dbl :=
  match l.kind with
  | .load sz => ldExtend sz (l.data.toNat % 2 ^ (8 * ldBytes sz))
  | .atomic ty => atExtend ty (l.data.toNat % 2 ^ (8 * atBytes ty))
  | .cas128 _ => if l.ok then 1 else 0
  | .record => dbl (l.data.toNat % 2 ^ 64)

/-- R283: ACAS128 writes kN and kN+1 with the old value, then the destination. -/
def Seq.drop (q : Seq) (l : Landing) : Seq :=
  let q := { q with landing := q.landing.filter fun x => x.id != l.id }
  match l.kind with
  | .cas128 n =>
    let q := q.write (.named (BitVec.ofNat 4 (4 * n.toNat))) (dbl (l.data.toNat % 2 ^ 64))
    let q := q.write (.named (BitVec.ofNat 4 (4 * n.toNat + 1))) (dbl (l.data.toNat / 2 ^ 64))
    q.write l.dest l.value
  | _ => q.write l.dest l.value

/-- The first landing, in issue order, whose slot has come. -/
def Seq.due (q : Seq) : Option Landing := q.landing.find? fun l => l.due ≤ q.cyc

/-- R127: a landing that is due drops; its LD or atomic is complete (R27). -/
def State.dropLanding (s : State) (c : Nat) (l : Landing) : State :=
  s.updCore c fun x => ({ x with seq := x.seq.drop l } : Core).completeWord .seq l.wid

/-- R126: the core clock domain freezes for a reason it is not yet frozen for. -/
def State.freeze (s : State) (c : Nat) (f : Freeze) : State :=
  s.updCore c fun x => if x.freezes.contains f then x else { x with freezes := f :: x.freezes }

/-- R126: the domain thaws from one reason. -/
def State.thaw (s : State) (c : Nat) (f : Freeze) : State :=
  s.updCore c fun x => { x with freezes := x.freezes.filter (· != f) }

/-! ## Epilogues and drain stops -/

/-- The loop level as a drain stop leaves it: it starts again at its prologue (R145). -/
def LoopLevel.drained (l : LoopLevel) : LoopLevel :=
  { l with
    base := l.base + (l.iter + l.stages - 1)
    limit := l.limit + 1 - l.iter - l.stages
    iter := 0
    clamp := false
    epi := false
    dexit := false }

/-- R144, R145: the innermost epilogue has ended. -/
def Seq.endEpilogue (q : Seq) (l : LoopLevel) (rest : List LoopLevel) : Seq :=
  if l.dexit then { q with loops := l.drained :: rest, pc := l.start, fell := false, halted := true }
  else { q with loops := rest }

/-- Address of the word after a level's epilogue. -/
def LoopLevel.after (l : LoopLevel) : Dbl := l.last + dbl (4 + 4 * l.epl)

/-- R144: every epilogue that ends at the word reached by falling through. -/
def Seq.endEpilogues (q : Seq) : List LoopLevel → Seq
  | [] => q
  | l :: rest =>
    if q.fell && l.epi && q.pc == l.after then
      if l.dexit then q.endEpilogue l rest else (q.endEpilogue l rest).endEpilogues rest
    else q

/-- R145, R346: a drain or tile stop that no level can be clamped for takes effect at the next instruction
boundary. -/
def Core.stopsHere (x : Core) : Bool :=
  match x.task with
  | none => false
  | some t =>
    match t.stopping with
    | some 0 => !x.seq.loops.any fun l => l.clamp || l.dexit
    | some 1 => true
    | _ => false

/-- The epilogues that end here are over. -/
def State.ended (s : State) (c : Nat) : State := s.updSeq c fun q => q.endEpilogues q.loops

/-! ## Code area and fetch (R140, R334) -/

/-- A word-aligned address inside the sequencer's code area: CODE to CODE + 4 x CLEN - 4, or, on the Derailleur, the
firmware region. -/
def State.inCode (s : State) (c : Nat) (a : Dbl) : Bool :=
  if c = derailleur then a.toNat % 4 == 0 && inFirmware a.toNat
  else
    match (s.core c).task with
    | none => false
    | some t =>
      let (base, len) := t.code.getD 0 (0, 0)
      a.toNat % 4 == 0 && base.toNat ≤ a.toNat && a.toNat < base.toNat + 4 * len

/-- Root of the task's stage-1 tables. -/
def State.rootOf (s : State) (fn wq : Nat) : Dbl := (s.wq fn wq).s1root

/-- A read of memory for an agent of a die comes back poisoned: the line is (R16), or no route is left to it (R17). -/
def State.badRead (s : State) (die pa : Nat) : Bool := s.poison.contains (pa / 128) || s.cutOff die pa

/-- One word of code: through the sequencer's TLB with the code-fetch permissions (R73), or, on the Derailleur, at a
physical address. -/
def State.fetchWord (s : State) (c : Nat) (a : Dbl) : State × Except XFault Word :=
  if c = derailleur then
    if s.badRead 0 a.toNat then (s, .error ⟨0x20, s.freeNat⟩)
    else (s.quietLookup 0 3 false a.toNat, .ok (BitVec.ofNat 32 (leNat (s.readPhys 1 a.toNat 4))))
  else
    match (s.core c).task with
    | none => (s, .error ⟨0x15, 0⟩)
    | some t =>
      if !isVirtual a || !formOk a then (s, .error ⟨0x15, 0⟩)
      else
        match s.translate (.seq c) t.fn (s.rootOf t.fn t.wq) a.toNat Need.fetch with
        | (s, .error f) => (s, .error f)
        | (s, .ok e) =>
          let p := e.phys a.toNat
          if s.badRead (dieOf c) p then (s, .error ⟨0x20, s.freeNat⟩)
          else (s.quietLookup t.fn 0 false p, .ok (BitVec.ofNat 32 (leNat (s.readPhys (s.keyAt c p) p 4))))

/-- EXT words that a sequencer's word may carry (R132, R190, R281, R317). -/
def seqExts (w : Word) : Nat :=
  let m := (major w).toNat
  if [0x02, 0x0A, 0x0C, 0x0E, 0x1E, 0x25, 0x26].contains m then 2
  else if [0x1F, 0x20, 0x21, 0x27, 0x28, 0x29, 0x2A, 0x2C, 0x38].contains m then 1
  else if (m == 0x3A || m == 0x3B) && fld w 17 5 == 0 then 1
  else 0

/-- A word that extends the one before it: an EXT word without chain bits; one with them is illegal itself (R51). -/
def extends_ (w : Word) : Bool := isExt w && fld w 28 4 == 0

/-- EXT words that follow a word, inside the code area: the `n` that it may carry, and one more where there is one, which
makes the word illegal (R132). A fault on fetching a word that it may carry is the word's fault, and names the address;
what lies behind is not the word's (entry 14). -/
def State.fetchExts (s : State) (c : Nat) : Nat → Dbl → State × Except (Dbl × XFault) (List Word)
  | 0, a =>
    if !s.inCode c a then (s, .ok [])
    else
      match s.fetchWord c a with
      | (s', .error _) => (s', .ok [])
      | (s', .ok w) => (s', .ok (if extends_ w then [w] else []))
  | n + 1, a =>
    if !s.inCode c a then (s, .ok [])
    else
      match s.fetchWord c a with
      | (s', .error f) => (s', .error (a, f))
      | (s', .ok w) =>
        if extends_ w then
          match s'.fetchExts c n (a + 4) with
          | (u, .ok ws) => (u, .ok (w :: ws))
          | (u, .error f) => (u, .error f)
        else (s', .ok [])

/-! ## Words that have issued -/

/-- A word at an address with its EXT words, as far as they can be read. -/
def State.wordsAt (s : State) (c : Nat) (pc : Dbl) : Word × List Word :=
  match s.fetchWord c pc with
  | (_, .error _) => (0, [])
  | (_, .ok w) =>
    match s.fetchExts c (seqExts w) (pc + 4) with
    | (_, .ok xs) => (w, xs)
    | (_, .error _) => (w, [])

/-- XWORD of a word that has issued: the word at its address, and the EXT word after it. -/
def State.xwordAt (s : State) (c : Nat) (pc : Dbl) : Dbl :=
  let (w, xs) := s.wordsAt c pc
  w.setWidth 64 ||| ((xs.getD 0 0 : Word).setWidth 64 <<< 32)

/-- A word that is not performed leaves its engine's order, its signals ungiven. -/
def Core.cancelWord (x : Core) (e : Engine) (wid : Nat) : Core :=
  (x.updFlow e fun f => { f with order := f.order.filter fun w => w.wid != wid }).settle e

/-- Operands of the words that can fault after they have issued: LD, ST and the atomics. -/
def lateReads : Instr → List Src
  | .ld a .. | .ald a .. | .acas128 a .. => [a]
  | .st a v .. | .ast a v .. | .aadd a v .. | .aand a v .. | .aor a v .. | .axor a v .. | .amin a v .. | .amax a v ..
  | .aswp a v .. | .afadd a v .. | .afmin a v .. | .afmax a v .. => [a, v]
  | .acas a e v .. => [a, e, v]
  | _ => []

/-- R121: a word that faults releases nothing. -/
def Seq.unrelease (q : Seq) : List Src → Seq
  | [] => q
  | .named k true :: r => ({ q with released := q.released &&& ~~~(BitVec.twoPow 16 k.toNat) } : Seq).unrelease r
  | _ :: r => q.unrelease r

def State.unrelease (s : State) (c : Nat) (pc : Dbl) : State :=
  let (w, xs) := s.wordsAt c pc
  match decodeWord .seq w xs with
  | .ok i => s.updSeq c fun q => q.unrelease (lateReads i)
  | .error _ => s

/-- A word that has issued faults: once the landing buffer is empty, and the queue runs, the task parks at it (R128, R155,
R284). On the Derailleur that halts it. -/
def State.parkAt (s : State) (c cause : Nat) (pc addr : Dbl) : State :=
  let (w, xs) := s.wordsAt c pc
  let check := decide (cause = 0x20)
  let p : PendTrap := ⟨cause, if check then pc else addr, if check then s.freeDbl else 0, pc, pc, w, xs.getD 0 0⟩
  let s := s.useFree.unrelease c pc
  if (s.core c).task.any (·.parked) then s.updSeq c fun q => { q with pendTrap := some p } else s.trapWhenLanded c p

/-- A due landing drops; where its data is absent the domain freezes (R128), and poisoned data freezes the domain
and parks the work queue with Machine check at the LD (R137), which releases nothing (R121). -/
def State.landOrFreeze (s : State) (c : Nat) (l : Landing) : State :=
  if l.arrived && l.poison then
    let s := (s.freeze c .poison).unrelease c l.pc
    if c = derailleur then { s with pf0 := { s.pf0 with drcause := 0x20, halt := true } }
    else s.useFree.park c 0x20 0 false [l.pc, l.pc, s.xwordAt c l.pc, s.freeDbl] none
  else if l.arrived then s.dropLanding c l
  else s.freeze c .lateLanding

/-- The fields of the current word. -/
def State.setCur (s : State) (c : Nat) (e : Engine) (a : Dbl) (w : Word) (xs : List Word) : State :=
  { s with cur := ⟨c, e, a, w, xs.getD 0 0, xs.getD 1 0, 1 + xs.length, Chain.ofWord w, 0⟩ }

/-- Words that a sequencer other than the Derailleur's, or the Derailleur's own, does not have (R51, R334). -/
def allowedOn (c : Nat) : Instr → Bool
  | .slmap .. | .slunmap .. | .preempt .. | .spill .. | .restore .. | .snaprd .. | .wmask .. | .qpark ..
  | .qresume .. | .s1inv .. | .s2inv .. | .migout .. | .migin .. | .fnbind .. | .cycr .. | .throt .. | .dogset ..
  | .pgexp .. | .pgimp .. | .lkqry .. => c == derailleur
  | .push .. | .probe .. | .pwb .. | .pinv .. | .waitx .. | .xwr .. | .flushres .. | .bpqry .. | .record ..
  | .recordHand .. | .rwait .. | .fwinv .. | .fwqry .. | .bar .. | .yield | .tend => c != derailleur
  | _ => true

/-- The word at the program counter, decoded; a word that does not decode is `illegalInstruction` (R51). -/
def State.fetchSeq (s : State) (c : Nat) : Attempt :=
  let pc := (s.seq c).pc
  if !s.inCode c pc then
    -- R140, R334: the end of the code area; xaddr and xpc name the address
    .done ((s.setCur c .seq pc 0 []).trap 0x02 pc 0)
  else
    match s.fetchWord c pc with
    | (s, .error f) => .done ((s.setCur c .seq pc 0 []).trap f.cause pc (dbl f.info))
    | (s, .ok w) =>
      match s.fetchExts c (seqExts w) (pc + 4) with
      | (s, .error (a, f)) => .done ((s.setCur c .seq pc w []).trap f.cause a (dbl f.info))
      | (s, .ok xs) =>
        let s := s.setCur c .seq pc w xs
        match decodeWord .seq w xs with
        | .ok i => if allowedOn c i then .word i s else .word (.illegalInstruction w) s
        | .error _ => .word (.illegalInstruction w) s

/-- Write-backs of the settlement are in flight (R195). -/
def Core.settling (x : Core) : Bool :=
  match x.task with
  | none => false
  | some t => x.copy.wbs.any fun w => t.settling.contains w.1

/-- Does a sequencer run a word: a task resides on its core, neither parked nor finished nor stopped, or it is the
Derailleur and not halted? -/
def State.seqRuns (s : State) (c : Nat) : Bool :=
  if c = derailleur then !s.pf0.halt
  else
    match (s.core c).task with
    | none => false
    | some t => !t.parked && !t.finished && !t.yielded && t.stopped.isNone && !(s.core c).settling

/-- One cycle of a sequencer that has no word to issue. -/
def State.idleCycle (s : State) (c : Nat) : State := s.updCore c Core.cycle

/-- A sequencer's attempt in one cycle: a due landing first (R127), a trap that waits for landings (R128), cycles of a
word that still occupies it (R125), a drain stop, the end of an epilogue, and else the word at the program
counter. -/
def State.attemptSeq (s : State) (c : Nat) : Attempt :=
  let x := s.core c
  let q := x.seq
  if x.freezes != [] || x.task.any (·.stopped.isSome) then .done s
  else
    match q.due with
    | some l => .done (s.landOrFreeze c l)
    | none =>
      match q.pendTrap with
      | some p => .done (if q.landing = [] ∧ !x.task.any (·.parked) then s.takeTrap c p else s.idleCycle c)
      | none =>
        if 0 < q.occ then .done (s.occCycle c)
        -- R27: with a signal pending no further word issues, one that has begun to wait neither
        else if q.phase != 0 && ((x.flow .seq).psp || (x.flow .seq).psn) then .done (s.idleCycle c)
        else if q.halted || !s.seqRuns c then .done (s.idleCycle c)
        else
          let s := s.ended c
          if (s.seq c).halted then .done s
          else if (s.core c).stopsHere then .done (s.updSeq c fun q => { q with halted := true })
          else s.fetchSeq c

end Sys2Proof.Machine
end

