-- ==== Sys2Proof/Machine/Flags.lean ====
section
/-! DEFINITION. Conditions and computed flags: the sequencer's condition codes (R131, R134), its integer results
(R133), and the five exception flags of the vector engine (R99, R210). -/

namespace Sys2Proof.Machine

open Sys2Proof

/-! ## Conditions (R131) -/

/-- A condition over two doubles: 0 to 5 signed, 6 to 9 unsigned (R131, R134). -/
def condHolds (c : Cond) (a b : Dbl) : Bool :=
  match c with
  | .eq => a == b
  | .ne => a != b
  | .lt => a.slt b
  | .ge => b.sle a
  | .gt => b.slt a
  | .le => a.sle b
  | .lo => a.ult b
  | .hs => b.ule a
  | .hi => b.ult a
  | .ls => a.ule b

/-! ## Integer results (R133) -/

def aluAdd (t : IntTy) (a b : Dbl) : Dbl := tyOut t (a + b)
def aluSub (t : IntTy) (a b : Dbl) : Dbl := tyOut t (a - b)
def aluAnd (t : IntTy) (a b : Dbl) : Dbl := tyOut t (a &&& b)
def aluOr (t : IntTy) (a b : Dbl) : Dbl := tyOut t (a ||| b)
def aluXor (t : IntTy) (a b : Dbl) : Dbl := tyOut t (a ^^^ b)
def aluAndn (t : IntTy) (a b : Dbl) : Dbl := tyOut t (a &&& ~~~b)
def aluNeg (t : IntTy) (a : Dbl) : Dbl := tyOut t (-a)
def aluMul (t : IntTy) (a b : Dbl) : Dbl := tyOut t (a * b)

/-- High w bits of the 2w-bit product. -/
def aluMulh (t : IntTy) (a b : Dbl) : Dbl := tyOutInt t (tyInt t a * tyInt t b / 2 ^ tyWidth t)

/-- Truncating division; all ones for a zero divisor; the overflow case wraps to a. -/
def aluDiv (t : IntTy) (a b : Dbl) : Dbl :=
  if tyInt t b = 0 then tyOutInt t (-1) else tyOutInt t ((tyInt t a).tdiv (tyInt t b))

/-- Remainder of truncating division; a for a zero divisor. -/
def aluRem (t : IntTy) (a b : Dbl) : Dbl :=
  if tyInt t b = 0 then tyOut t a else tyOutInt t ((tyInt t a).tmod (tyInt t b))

def aluShl (t : IntTy) (a : Dbl) (n : Nat) : Dbl := tyOut t (a <<< (n % tyWidth t))
def aluShr (t : IntTy) (a : Dbl) (n : Nat) : Dbl := tyOut t (dbl (tyNat t a / 2 ^ (n % tyWidth t)))

/-- Arithmetic right shift of the w-bit pattern, whatever the signedness. -/
def aluSar (t : IntTy) (a : Dbl) (n : Nat) : Dbl :=
  let x : Dbl := if tyWidth t = 64 then a else (a.setWidth 32).signExtend 64
  tyOut t (x.sshiftRight (n % tyWidth t))

def aluRol (t : IntTy) (a : Dbl) (n : Nat) : Dbl :=
  let w := tyWidth t
  let x := tyNat t a
  tyOut t (dbl (x * 2 ^ (n % w) + x / 2 ^ (w - n % w)))

def aluMin (t : IntTy) (a b : Dbl) : Dbl := tyOut t (if tyInt t b < tyInt t a then b else a)
def aluMax (t : IntTy) (a b : Dbl) : Dbl := tyOut t (if tyInt t a < tyInt t b then b else a)

/-- Zero bits above the highest one, of the low `w` bits of a number. -/
def leadingZeros : Nat → Nat → Nat
  | 0, _ => 0
  | w + 1, x => if x.testBit w then 0 else 1 + leadingZeros w x

/-- Zero bits below the lowest one, among `w` bits. -/
def trailingZeros : Nat → Nat → Nat
  | 0, _ => 0
  | w + 1, x => if x % 2 = 1 then 0 else 1 + trailingZeros w (x / 2)

/-- One bits among the low `w`. -/
def ones : Nat → Nat → Nat
  | 0, _ => 0
  | w + 1, x => x % 2 + ones w (x / 2)

def aluClz (t : IntTy) (a : Dbl) : Dbl := tyOut t (dbl (leadingZeros (tyWidth t) (tyNat t a)))
def aluCtz (t : IntTy) (a : Dbl) : Dbl := tyOut t (dbl (trailingZeros (tyWidth t) (tyNat t a)))
def aluPopc (t : IntTy) (a : Dbl) : Dbl := tyOut t (dbl (ones (tyWidth t) (tyNat t a)))

/-- EXTB (R134). -/
def extractBits (a : Dbl) (sgn : Bool) (pos len : Nat) : Dbl :=
  let v := (a >>> pos).toNat % 2 ^ len
  if sgn && v.testBit (len - 1) then BitVec.ofInt 64 ((v : Int) - 2 ^ len) else dbl v

/-- INSB (R134). -/
def insertBits (a b : Dbl) (pos len : Nat) : Dbl :=
  let m : Dbl := dbl (2 ^ len - 1)
  (a &&& ~~~(m <<< pos)) ||| ((b &&& m) <<< pos)

/-! ## Exception flags (R99, R210): bit 0 invalid, 1 division by zero, 2 overflow, 3 underflow, 4 inexact -/

abbrev Exc := BitVec 5

def excNone : Exc := 0
def excInvalid : Exc := 1
def excDivZero : Exc := 2
def excOverflow : Exc := 4
def excUnderflow : Exc := 8
def excInexact : Exc := 16

/-- Flags raised by any of several elements. -/
def excAll (l : List Exc) : Exc := l.foldr (· ||| ·) 0

/-- Flag bits that a condition raises. -/
def excIf (c : Bool) (f : Exc) : Exc := if c then f else 0

end Sys2Proof.Machine
end

