-- ==== Sys2Proof/Machine/Formats.lean ====
section
/-! DEFINITION. Number formats and arithmetic (R96 to R118): a finite value is an exact dyadic number
(-1)^neg x m x 2^e, every operation is formed exactly, and one function rounds. -/

namespace Sys2Proof.Machine

open Sys2Proof

/-- A binary floating-point format (R96): exponent and fraction widths; `top` marks E4M3, whose all-ones exponent
holds numbers. -/
structure FForm where
  ew : Nat
  mw : Nat
  top : Bool
  deriving DecidableEq, Repr

def formF64 : FForm := ⟨11, 52, false⟩
def formF32 : FForm := ⟨8, 23, false⟩
def formF16 : FForm := ⟨5, 10, false⟩
def formBf16 : FForm := ⟨8, 7, false⟩
def formE5m2 : FForm := ⟨5, 2, false⟩
def formE4m3 : FForm := ⟨4, 3, true⟩

def FForm.width (F : FForm) : Nat := 1 + F.ew + F.mw
def FForm.bias (F : FForm) : Nat := 2 ^ (F.ew - 1) - 1
/-- Exponent of the smallest normal number. -/
def FForm.emin (F : FForm) : Int := 1 - F.bias
/-- Infinity without its sign; E4M3 has none. -/
def FForm.infEnc (F : FForm) : Nat := (2 ^ F.ew - 1) * 2 ^ F.mw
/-- Largest finite value without its sign. -/
def FForm.maxEnc (F : FForm) : Nat := if F.top then 2 ^ (F.ew + F.mw) - 2 else F.infEnc - 1
/-- Canonical NaN (R98). -/
def FForm.nanEnc (F : FForm) : Nat := if F.top then 2 ^ (F.ew + F.mw) - 1 else F.infEnc + 2 ^ (F.mw - 1)

/-- A value. A NaN carries whether it raises invalid: a signalling NaN operand, or an invalid operation. -/
inductive FVal where
  | nan (invalid : Bool)
  | inf (neg : Bool)
  | fin (neg : Bool) (m : Nat) (e : Int)
  deriving DecidableEq, Repr

/-- The value of a bit pattern (R96). -/
def FForm.value (F : FForm) (v : Nat) : FVal :=
  let neg := v.testBit (F.ew + F.mw)
  let ex := bits v F.mw F.ew
  let fr := bits v 0 F.mw
  if ex = 2 ^ F.ew - 1 ∧ (!F.top || fr = 2 ^ F.mw - 1) then
    if F.top then .nan false
    else if fr = 0 then .inf neg
    else .nan (!fr.testBit (F.mw - 1))
  else if ex = 0 then .fin neg fr (F.emin - F.mw)
  else .fin neg (2 ^ F.mw + fr) (ex - F.bias - F.mw)

def FForm.signed (F : FForm) (neg : Bool) (enc : Nat) : Nat := (if neg then 2 ^ (F.ew + F.mw) else 0) + enc

/-- Whether a positive remainder `r` of `half * 2` rounds the magnitude up (R105). -/
def roundsUp (rm : Rm) (neg odd : Bool) (r half : Nat) : Bool :=
  match rm with
  | .rne => half < r || (r == half && odd)
  | .rz => false
  | .rpi => !neg && r != 0
  | .rmi => neg && r != 0

/-- m x 2^e rounded to a multiple of 2^q: the multiple, and whether it differs. -/
def roundAt (rm : Rm) (neg : Bool) (m : Nat) (e q : Int) : Nat × Bool :=
  if q ≤ e then (m * 2 ^ (e - q).toNat, false)
  else
    let sh := (q - e).toNat
    let f := m / 2 ^ sh
    let r := m % 2 ^ sh
    (if roundsUp rm neg (f % 2 == 1) r (2 ^ (sh - 1)) then f + 1 else f, r != 0)

/-- Whether a directed or nearest mode sends an overflow of this sign to infinity (R106, R107). -/
def overflowsUp (rm : Rm) (neg : Bool) : Bool :=
  match rm with
  | .rne => true
  | .rz => false
  | .rpi => !neg
  | .rmi => neg

/-- The pattern for an overflow or an infinity (R106, R107). -/
def FForm.infinite (F : FForm) (sat neg : Bool) : Nat :=
  if sat then F.signed neg F.maxEnc else if F.top then F.nanEnc else F.signed neg F.infEnc

/-- round(x, rm, F) of R105, with the flags of R99; `sat` is the modifier of R107. A zero keeps its sign. -/
def FForm.round (F : FForm) (rm : Rm) (sat : Bool) (x : FVal) : Nat × Exc :=
  match x with
  | .nan i => (F.nanEnc, excIf i excInvalid)
  | .inf neg => (F.infinite sat neg, 0)
  | .fin neg m e =>
    if m = 0 then (F.signed neg 0, 0)
    else
      let ex : Int := m.log2 + e
      let q := max ex F.emin - F.mw
      let (r, inx) := roundAt rm neg m e q
      let enc := r + ((q + F.mw + F.bias).toNat - 1) * 2 ^ F.mw
      if F.maxEnc < enc then
        (if overflowsUp rm neg then F.infinite sat neg else F.signed neg F.maxEnc, excOverflow ||| excInexact)
      else
        -- tiny: rounded with an unbounded exponent, the magnitude is below the smallest normal number
        let tiny := decide (ex < F.emin)
          && !(decide (ex = F.emin - 1) && (roundAt rm neg m e (ex - F.mw)).1 == 2 ^ (F.mw + 1))
        (F.signed neg enc, excIf inx excInexact ||| excIf (inx && tiny) excUnderflow)

/-! ## Exact operations -/

def FVal.neg : FVal → FVal
  | .nan i => .nan i
  | .inf n => .inf (!n)
  | .fin n m e => .fin (!n) m e

def FVal.abs : FVal → FVal
  | .nan i => .nan i
  | .inf _ => .inf false
  | .fin _ m e => .fin false m e

def FVal.isNan : FVal → Bool
  | .nan _ => true
  | _ => false

def FVal.isInf : FVal → Bool
  | .inf _ => true
  | _ => false

def FVal.isZero : FVal → Bool
  | .fin _ 0 _ => true
  | _ => false

def FVal.isNeg : FVal → Bool
  | .nan _ => false
  | .inf n => n
  | .fin n _ _ => n

/-- Does the value raise invalid? -/
def FVal.raises : FVal → Bool
  | .nan i => i
  | _ => false

/-- Exact product; 0 x infinity is invalid (R212). -/
def FVal.mul : FVal → FVal → FVal
  | .nan i, y => .nan (i || y.raises)
  | x, .nan i => .nan (i || x.raises)
  | .inf a, .inf b => .inf (a != b)
  | .inf a, .fin b m _ => if m = 0 then .nan true else .inf (a != b)
  | .fin a m _, .inf b => if m = 0 then .nan true else .inf (a != b)
  | .fin a m e, .fin b k f => .fin (a != b) (m * k) (e + f)

/-- Signed integer at a common exponent. -/
def FVal.at (x : FVal) (q : Int) : Int :=
  match x with
  | .fin n m e => (if n then -1 else 1) * (m * 2 ^ (e - q).toNat : Nat)
  | _ => 0

/-- Lowest exponent among finite values. -/
def minExp : List FVal → Int
  | [] => 0
  | [.fin _ _ e] => e
  | .fin _ _ e :: r => min e (minExp r)
  | _ :: r => minExp r

/-- Exact sum of terms (R97, R220): NaN of any NaN, invalid for infinities of both signs, and an exact zero of terms
of both signs is +0 but in the mode toward minus infinity. -/
def FVal.sum (rm : Rm) (l : List FVal) : FVal :=
  if l.any FVal.isNan then .nan (l.any FVal.raises)
  else
    let pos := l.any fun x => x.isInf && !x.isNeg
    let neg := l.any fun x => x.isInf && x.isNeg
    if pos && neg then .nan true
    else if pos then .inf false
    else if neg then .inf true
    else
      let q := minExp l
      let t : Int := (l.map fun x => x.at q).foldr (· + ·) 0
      if t = 0 then
        if l.all fun x => x.isZero && x.isNeg then .fin (!l.isEmpty) 0 0
        else if l.all fun x => x.isZero && !x.isNeg then .fin false 0 0
        else .fin (rm == .rmi) 0 0
      else .fin (decide (t < 0)) t.natAbs q

/-- Exact comparison of numbers: negative, zero or positive; none when a NaN is present. -/
def FVal.cmp (x y : FVal) : Option Int :=
  match x, y with
  | .nan _, _ => none
  | _, .nan _ => none
  | .inf a, .inf b => some (if a = b then 0 else if a then -1 else 1)
  | .inf a, .fin _ _ _ => some (if a then -1 else 1)
  | .fin _ _ _, .inf b => some (if b then 1 else -1)
  | .fin _ _ e, .fin _ _ f => some (x.at (min e f) - y.at (min e f))

/-- x < y in the order of minimumNumber and maximumNumber, in which -0 lies below +0 (R98). -/
def FVal.below (x y : FVal) : Bool :=
  match x.cmp y with
  | none => false
  | some d => d < 0 || (d == 0 && x.isNeg && !y.isNeg)

/-- minimumNumber (`lo`) and maximumNumber of two patterns (R98). -/
def FForm.minmax (F : FForm) (lo : Bool) (a b : Nat) : Nat × Exc :=
  let x := F.value a
  let y := F.value b
  let f := excIf (x.raises || y.raises) excInvalid
  if x.isNan && y.isNan then (F.nanEnc, f)
  else if x.isNan then (b, f)
  else if y.isNan then (a, f)
  else (if lo then (if y.below x then b else a) else (if x.below y then b else a), f)

/-! ## Quotients, roots and transcendentals, as dyadic numbers with a sticky lowest bit -/

/-- A value between two dyadic numbers m x 2^e and (m + 1) x 2^e, or m x 2^e itself: twice m, plus one when the
value is not exact. Rounding to fewer than `log2 m` bits then rounds the value itself. -/
def sticky (neg : Bool) (m : Nat) (e : Int) (isExact : Bool) : FVal :=
  .fin neg (2 * m + if isExact then 0 else 1) (e - 1)

/-- a / b of finite values with b nonzero, to 128 or more bits. -/
def quotient (a b : FVal) : FVal :=
  match a, b with
  | .fin n m e, .fin k d f =>
    let sh : Nat := 128 + d.log2
    sticky (n != k) (m * 2 ^ sh / d) (e - f - sh) (m * 2 ^ sh % d == 0)
  | x, _ => x

/-- Integer square root: bits from `k` - 1 down. -/
def isqrtBits : Nat → Nat → Nat → Nat
  | 0, _, r => r
  | k + 1, v, r => let t := r + 2 ^ k; isqrtBits k v (if t * t ≤ v then t else r)

def isqrt (v : Nat) : Nat := isqrtBits (v.log2 / 2 + 1) v 0

/-- Square root of a positive value. -/
def rootOf (m : Nat) (e : Int) : FVal :=
  let sh : Nat := 256 + (if (e - 256) % 2 = 0 then 0 else 1)
  let v := m * 2 ^ sh
  let r := isqrt v
  sticky false r ((e - sh) / 2) (r * r == v)

/-- 1 / sqrt of a positive value. -/
def rsqrtOf (m : Nat) (e : Int) : FVal :=
  let k : Nat := 320 + m.log2 + (if (320 + m.log2 + e) % 2 = 0 then 0 else 1)
  let q := 2 ^ k / m
  let r := isqrt q
  sticky false r (-(e + k) / 2) (r * r * m == 2 ^ k)

/-- Bits of the fixed-point numbers of the transcendentals (entry 15). -/
def fixBits : Nat := 320

/-- 2 x atanh(z) in fixed point, z given as a fixed-point number of at most 1/3: the sum of 2 z^(2k+1) / (2k+1). -/
def atanhTerms : Nat → Nat → Nat → Nat → Nat
  | 0, _, _, _ => 0
  | n + 1, zk, zz, k => 2 * zk / k + atanhTerms n (zk * zz / 2 ^ fixBits) zz (k + 2)

def twoAtanh (z : Nat) : Nat := atanhTerms 110 z (z * z / 2 ^ fixBits) 1

/-- ln 2 in fixed point: 2 atanh(1/3). -/
def fixLn2 : Nat := twoAtanh (2 ^ fixBits / 3)

/-- exp(y) in fixed point for y below 1, as the sum of y^k / k!. -/
def expTerms : Nat → Nat → Nat → Nat → Nat
  | 0, _, _, _ => 0
  | n + 1, t, y, k => t + expTerms n (t * y / 2 ^ fixBits / k) y (k + 1)

/-- Exponents beyond this bound overflow or underflow every format. -/
def exp2Bound : Int := 2 ^ 14

/-- 2^a for a finite and not an integer: a = n + f with 0 < f < 1. -/
def exp2Of (neg : Bool) (m : Nat) (e : Int) : FVal :=
  let sh := (-e).toNat
  let whole : Int := if neg then -(m / 2 ^ sh : Nat) - 1 else (m / 2 ^ sh : Nat)
  let fr := if neg then 2 ^ sh - m % 2 ^ sh else m % 2 ^ sh
  let f := fr * 2 ^ fixBits / 2 ^ sh
  let v := expTerms 90 (2 ^ fixBits) (f * fixLn2 / 2 ^ fixBits) 1
  -- bounds that the truncations keep: 1 < 2^f < 2
  let v := if v < 2 ^ fixBits then 2 ^ fixBits else if 2 ^ (fixBits + 1) ≤ v then 2 ^ (fixBits + 1) - 1 else v
  sticky false v (max (-exp2Bound) (min exp2Bound whole) - fixBits) false

/-- log2 of a positive value that is not a power of two. -/
def log2Of (m : Nat) (e : Int) : FVal :=
  let l := m.log2
  let n : Int := l + e
  -- x = 2^n (1 + g), z = g / (2 + g)
  let g := (m - 2 ^ l) * 2 ^ fixBits
  let z := g / (m + 2 ^ l)
  let r := twoAtanh z * 2 ^ fixBits / fixLn2
  let t : Int := n * 2 ^ fixBits + r
  if t < 0 then sticky true (t.natAbs - 1) (-fixBits) false else sticky false t.natAbs (-fixBits) false

/-! ## Element operations of a floating format: the pattern and the flags -/

def FForm.add (F : FForm) (rm : Rm) (a b : Nat) : Nat × Exc := F.round rm false (FVal.sum rm [F.value a, F.value b])
def FForm.sub (F : FForm) (rm : Rm) (a b : Nat) : Nat × Exc :=
  F.round rm false (FVal.sum rm [F.value a, (F.value b).neg])
def FForm.mul (F : FForm) (rm : Rm) (a b : Nat) : Nat × Exc := F.round rm false ((F.value a).mul (F.value b))
/-- a x b + c, the product and the addend negated as asked (R211). -/
def FForm.fma (F : FForm) (rm : Rm) (np nc : Bool) (a b c : Nat) : Nat × Exc :=
  let p := (F.value a).mul (F.value b)
  let x := F.value c
  F.round rm false (FVal.sum rm [if np then p.neg else p, if nc then x.neg else x])

/-- Division (R212). -/
def FForm.div (F : FForm) (rm : Rm) (a b : Nat) : Nat × Exc :=
  match F.value a, F.value b with
  | .nan i, y => F.round rm false (.nan (i || y.raises))
  | x, .nan i => F.round rm false (.nan (i || x.raises))
  | .inf _, .inf _ => F.round rm false (.nan true)
  | .inf n, .fin k _ _ => F.round rm false (.inf (n != k))
  | .fin n _ _, .inf k => F.round rm false (.fin (n != k) 0 0)
  | .fin n m e, .fin k d f =>
    if d = 0 then
      if m = 0 then F.round rm false (.nan true)
      else ((F.round rm false (.inf (n != k))).1, excDivZero)
    else if m = 0 then F.round rm false (.fin (n != k) 0 0)
    else F.round rm false (quotient (.fin n m e) (.fin k d f))

def FForm.sqrt (F : FForm) (rm : Rm) (a : Nat) : Nat × Exc :=
  match F.value a with
  | .fin n m e =>
    if m = 0 then F.round rm false (.fin n 0 0)
    else if n then F.round rm false (.nan true)
    else F.round rm false (rootOf m e)
  | .inf n => F.round rm false (if n then .nan true else .inf false)
  | x => F.round rm false x

def FForm.rcp (F : FForm) (rm : Rm) (a : Nat) : Nat × Exc :=
  match F.value a with
  | .fin n m e =>
    if m = 0 then ((F.round rm false (.inf n)).1, excDivZero)
    else F.round rm false (quotient (.fin false 1 0) (.fin n m e))
  | .inf n => F.round rm false (.fin n 0 0)
  | x => F.round rm false x

def FForm.rsqrt (F : FForm) (rm : Rm) (a : Nat) : Nat × Exc :=
  match F.value a with
  | .fin n m e =>
    if m = 0 then ((F.round rm false (.inf n)).1, excDivZero)
    else if n then F.round rm false (.nan true)
    else F.round rm false (rsqrtOf m e)
  | .inf n => F.round rm false (if n then .nan true else .fin false 0 0)
  | x => F.round rm false x

/-- Is m x 2^e an integer? -/
def isIntegral (m : Nat) (e : Int) : Bool := decide (0 ≤ e) || m % 2 ^ (-e).toNat == 0

def FForm.exp2 (F : FForm) (rm : Rm) (a : Nat) : Nat × Exc :=
  match F.value a with
  | .fin n m e =>
    if isIntegral m e then
      let v : Int := if e < 0 then (if n then -1 else 1) * (m / 2 ^ (-e).toNat : Nat) else FVal.at (.fin n m e) 0
      F.round rm false (.fin false 1 (max (-exp2Bound) (min exp2Bound v)))
    else F.round rm false (exp2Of n m e)
  | .inf n => F.round rm false (if n then .fin false 0 0 else .inf false)
  | x => F.round rm false x

def FForm.log2 (F : FForm) (rm : Rm) (a : Nat) : Nat × Exc :=
  match F.value a with
  | .fin n m e =>
    if m = 0 then ((F.round rm false (.inf true)).1, excDivZero)
    else if n then F.round rm false (.nan true)
    else if m = 2 ^ m.log2 then
      let v : Int := m.log2 + e
      F.round rm false (.fin (decide (v < 0)) v.natAbs 0)
    else F.round rm false (log2Of m e)
  | .inf n => F.round rm false (if n then .nan true else .inf false)
  | x => F.round rm false x

/-- An integral value by RM in the same format (R211, R212). -/
def FForm.rint (F : FForm) (rm : Rm) (a : Nat) : Nat × Exc :=
  match F.value a with
  | .fin n m e =>
    let (r, inx) := roundAt rm n m e (max e 0)
    if 0 ≤ e then F.round rm false (.fin n m e)
    else ((F.round rm false (.fin n r 0)).1, excIf inx excInexact)
  | x => F.round rm false x

/-- Sign operations: exact, with NaN canonical (R211, R212). -/
def FForm.absNeg (F : FForm) (neg : Bool) (a : Nat) : Nat × Exc :=
  match F.value a with
  | .nan i => F.round .rne false (.nan i)
  | x => F.round .rne false (if neg then x.neg else x.abs)

/-! ## Integers (R100, R108) -/

/-- Range of an integer type of `w` bits. -/
def intLo (signed : Bool) (w : Nat) : Int := if signed then -(2 ^ (w - 1)) else 0
def intHi (signed : Bool) (w : Nat) : Int := if signed then 2 ^ (w - 1) - 1 else 2 ^ w - 1
def clampInt (lo hi x : Int) : Int := if x < lo then lo else if hi < x then hi else x

/-- The integer that `w` low bits hold. -/
def readInt (signed : Bool) (w v : Nat) : Int :=
  let u := v % 2 ^ w
  if signed && u.testBit (w - 1) then (u : Int) - 2 ^ w else u

/-- The low `w` bits of an integer. -/
def intBits (w : Nat) (x : Int) : Nat := (x % 2 ^ w).toNat

/-- Float to integer: rounds by RM and saturates; NaN gives 0; both raise invalid (R108). -/
def toIntSat (rm : Rm) (signed : Bool) (w : Nat) (x : FVal) : Int × Exc :=
  match x with
  | .nan _ => (0, excInvalid)
  | .inf n => (if n then intLo signed w else intHi signed w, excInvalid)
  | .fin n m e =>
    let (r, inx) := roundAt rm n m e 0
    let v : Int := (if n then -1 else 1) * r
    if v < intLo signed w ∨ intHi signed w < v then (clampInt (intLo signed w) (intHi signed w) v, excInvalid)
    else (v, excIf inx excInexact)

/-- Integer to float (R108). -/
def ofInt (x : Int) : FVal := .fin (decide (x < 0)) x.natAbs 0

/-! ## MX formats (R101 to R103, R109, R110) -/

def mxWidth : MxTy → Nat
  | .mx8 => 8
  | .mx6 => 6
  | .mx4 => 4

/-- Fraction bits f (R101). -/
def mxFrac : MxTy → Nat
  | .mx8 => 6
  | .mx6 => 4
  | .mx4 => 2

def mxMax (t : MxTy) : Int := 2 ^ (mxWidth t - 1) - 1

/-- floor(log2 |x|) of a finite nonzero value. -/
def FVal.ilog : FVal → Int
  | .fin _ m e => m.log2 + e
  | _ => 0

/-- quantise_block of R109: the scale byte and the elements. -/
def quantiseBlock (t : MxTy) (rm : Rm) (x : List FVal) : Nat × List Int :=
  if x.any fun v => v.isNan || v.isInf then (0xFF, x.map fun _ => 0)
  else
    match (x.filter fun v => !v.isZero).map FVal.ilog with
    | [] => (0, x.map fun _ => 0)
    | l :: ls =>
      let e := clampInt (-127) 127 (ls.foldr max l)
      ((e + 127).toNat, x.map fun v =>
        match v with
        | .fin n m k =>
          let q := (roundAt rm n m (k + mxFrac t - e) 0).1
          clampInt (-mxMax t) (mxMax t) ((if n then -1 else 1) * q)
        | _ => 0)

/-- R102: the exact value of an element. -/
def mxValue (t : MxTy) (scale : Nat) (q : Int) : FVal :=
  if scale = 0xFF then .nan false else .fin (decide (q < 0)) q.natAbs ((scale : Int) - 127 - mxFrac t)

/-! ## Hadamard rotation (R111 to R113) -/

/-- Terms of row i of H_n x x: each value with the sign of its entry of H_n (R111). -/
def hadamardTerms (n i : Nat) (x : List FVal) : List FVal :=
  (List.range n).map fun j =>
    let v := x.getD j (.fin false 0 0)
    if ones 6 (i &&& j) % 2 = 1 then v.neg else v

def FVal.scale (x : FVal) (k : Int) : FVal :=
  match x with
  | .fin n m e => .fin n m (e + k)
  | y => y

/-- 2^s x H_B x x, exactly; the sign of an exact zero is that of R97 in the mode. -/
def hadamard (rm : Rm) (s : Int) (x : List FVal) : List FVal :=
  (List.range x.length).map fun i => (FVal.sum rm (hadamardTerms x.length i x)).scale s

/-- k of R111. -/
def rotK (blk lead : Bool) : Int := if blk then 2 else if lead then 3 else 2
/-- Exponent of the inverse rotation: k - log2 B (R113). -/
def unrotK (blk lead : Bool) : Int := rotK blk lead - if blk then 4 else 5

/-! ## Formats of types -/

def ftyForm : FTy → FForm
  | .f64 => formF64
  | .f32 => formF32
  | .f16 => formF16
  | .bf16 => formBf16

/-- The floating format of an element format code (R71); MX and raw have none. -/
def fmtForm : Fmt → Option FForm
  | .f64 => some formF64
  | .f32 => some formF32
  | .f16 => some formF16
  | .bf16 => some formBf16
  | .e4m3 => some formE4m3
  | .e5m2 => some formE5m2
  | _ => none

def fmtMx : Fmt → Option MxTy
  | .mx8 => some .mx8
  | .mx6 => some .mx6
  | .mx4 => some .mx4
  | _ => none

/-- The format of a 4-bit code of a page or tag (R71); none where the code is reserved. -/
def fmtOfCode (c : Nat) : Option Fmt :=
  match c with
  | 0 => some .raw
  | 1 => some .f64
  | 2 => some .f32
  | 3 => some .f16
  | 4 => some .bf16
  | 5 => some .e4m3
  | 6 => some .e5m2
  | 7 => some .mx8
  | 8 => some .mx6
  | 9 => some .mx4
  | _ => none

/-- The floating format of a vector type, if it is one. -/
def vtyForm : VTy → Option FForm
  | .f64 => some formF64
  | .f32 => some formF32
  | .f16 => some formF16
  | .bf16 => some formBf16
  | _ => none

def vtySigned : VTy → Bool
  | .s64 | .s32 => true
  | _ => false

end Sys2Proof.Machine
end

