-- ==== Sys2Proof/Machine/Hub.lean ====
section
/-! DEFINITION. Home slices (R81, R272 to R280), writes at a home with what they cause (R84, R287, R327), atomic
operations (R274, R281 to R284), replicas (R82 to R84), and the answers that reach a core. A request stands in
`State.reqs` until what it was sent for has taken its answer. -/

namespace Sys2Proof.Machine

open Sys2Proof

/-! ## Senders -/

/-- Die of the agent that sent a request; the Derailleur stands on die 0 (R334). -/
def coreDie (c : Nat) : Nat := if c = derailleur then 0 else dieOf c

def ReqSrc.core : ReqSrc → Option Nat
  | .land c _ | .store c _ | .atomic c _ _ _ | .arm c | .copyRead c _ _ | .copyWrite c _ | .addend c _
  | .probeFill c _ _ | .probeWb c => some c
  | .walker _ | .gone _ | .host | .peer => none

def ReqSrc.die : ReqSrc → Nat
  | .walker d | .gone d => d
  | r => match r.core with
    | some c => coreDie c
    | none => 0

/-- The unit of a core that sends a request: its sequencer, a side of its copy engine, or its probed lines (R273). -/
def ReqSrc.unit : ReqSrc → Option (Nat × Nat)
  | .land c _ | .store c _ | .atomic c _ _ _ | .arm c => some (c, 0)
  | .copyRead c _ _ => some (c, 1)
  | .copyWrite c _ | .addend c _ => some (c, 2)
  | .probeFill c _ _ | .probeWb c => some (c, 3)
  | .walker _ | .gone _ | .host | .peer => none

/-! ## Requests -/

def State.req (s : State) (id : Nat) : Option Req := s.reqs.find? fun r => r.id == id
def State.updReq (s : State) (id : Nat) (f : Req → Req) : State :=
  { s with reqs := s.reqs.map fun r => if r.id == id then f r else r }
def State.dropReq (s : State) (id : Nat) : State := { s with reqs := s.reqs.filter fun r => r.id != id }

/-- A request whose place and data are given leaves its sender; its number is `nextId`. -/
def State.send (s : State) (r : Req) : State :=
  { s with reqs := s.reqs ++ [{ r with id := s.nextId }], nextId := s.nextId + 1 }

/-- A request of a kind, with nothing done yet. -/
def Req.blank (src : ReqSrc) (kind : ReqKind) (pa len : Nat) : Req where
  id := 0
  src := src
  kind := kind
  pa := pa
  len := len
  data := []
  key := 0
  fn := 0
  wq := 0
  tc := 0
  va := 0
  ipa := 0
  phase := .travel
  result := []
  ok := true
  poison := false
  acks := []
  watches := []
  replicaOf := none
  refused := false
  told := false
  record := []
  pending := false

/-- The granule's entry in the home die's replication table (R82). -/
def State.repEntry (s : State) (pa : Nat) : Option RepEntry :=
  if isLocalHbm pa then (s.die (homeDie pa)).rep.find? fun e => e.granule == pa / 65536 else none

/-- An invalidation of the granule is on its way to a die (R84). -/
def State.invalidating (s : State) (pa d : Nat) : Bool := s.invs.any fun m => m.dst == d && m.line / 512 == pa / 65536

/-- R83, R84: a read by a core of another die than the home's goes to the slice of the reader's die while the granule is in
replicated mode, and after that until the die's invalidation has reached it, unless its function has no TC0 ways. -/
def State.replicaDie (s : State) (r : Req) : Option Nat :=
  let d := r.src.die
  if !isLocalHbm r.pa || r.src.core.isNone || d == homeDie r.pa || (s.wayCfg r.fn 0).mask == 0 then none
  else if (s.repEntry r.pa).any (·.replicated) || s.invalidating r.pa d then some d
  else none

/-- Sends a read that a replica may serve (R83). -/
def State.sendRead (s : State) (r : Req) : State := s.send { r with replicaOf := s.replicaDie r }

/-! ## Writes at a home -/

def State.monsAt (s : State) (pa : Nat) : List HomeMon :=
  if isArray pa then (s.core (arrayCore pa)).portMon else (s.slice (homeIdx pa)).mons

def State.setMonsAt (s : State) (pa : Nat) (l : List HomeMon) : State :=
  if isArray pa then s.updCore (arrayCore pa) fun x => { x with portMon := l }
  else s.updSlice (homeIdx pa) fun x => { x with mons := l }

/-- A core of a die reads a line at its home: the die keeps no older replica of it (R83, R91). -/
def State.freshFor (s : State) (d pa : Nat) : State :=
  if isLocalHbm pa && d != homeDie pa then s.dropReplica d (pa / 128) else s

/-- R287: the home sends the new value of the double to the core of a monitor. -/
def State.fireMon (s : State) (m : HomeMon) : State :=
  let v := dbl (leNat (s.readPhys (s.keyOf m.core) m.addr 8))
  ((s.giveNoMore m.core).freshFor (coreDie m.core) m.addr).updCore m.core fun x =>
    { x with mon := x.mon.map fun k => if k.armed && !k.fired then { k with fired := true, seen := v } else k }

def State.fireMons (s : State) : List HomeMon → State
  | [] => s
  | m :: ms => (s.fireMon m).fireMons ms

/-- R287: monitors of the written line fire and leave the table. -/
def State.fireLine (s : State) (pa : Nat) : State :=
  let l := s.monsAt pa
  let hit := l.filter fun m => m.line == pa / 128
  if hit = [] then s else (s.setMonsAt pa (l.filter fun m => m.line != pa / 128)).fireMons hit

/-- Dies whose bit a vector of sixteen sets. -/
def diesOf (v : BitVec 16) : List Nat := (List.range 16).filter fun d => v.getLsbD d

/-- R327: a write fires the watch entry of its granule: the messages to the walkers, and the number of the watch. -/
def State.fireWatch (s : State) (pa : Nat) : State × Option Nat :=
  if !isLocalHbm pa then (s, none)
  else
    let d := homeDie pa
    match (s.die d).watch.find? fun w => w.granule == pa / 65536 with
    | none => (s, none)
    | some w =>
      let id := s.nextId
      let inv := (diesOf w.rd).map fun e => (⟨0, id, w.granule, e, true, false⟩ : WatchMsg)
      let dirt := (diesOf w.wr).map fun e => (⟨0, id, w.granule, e, false, false⟩ : WatchMsg)
      let msgs := (inv ++ dirt).mapIdx fun i m => { m with id := id + 1 + i }
      let s := s.updDie d fun x => { x with watch := x.watch.filter fun w => w.granule != pa / 65536 }
      ({ s with watchMsgs := s.watchMsgs ++ msgs, nextId := id + 1 + msgs.length },
        if msgs = [] then none else some id)

/-- A replicated granule returns to memory-side mode, its counts zero, and its holders are sent an invalidation (R84). -/
def RepEntry.memorySide (e : RepEntry) : RepEntry := { e with replicated := false, holders := 0, reads := 0, writes := 0 }

/-- The invalidations of a granule's holders. -/
def RepEntry.invs (e : RepEntry) (d line req : Nat) : List InvMsg := (diesOf e.holders).map fun k => ⟨d, k, line, req⟩

/-- R84: a write returns a replicated granule to memory-side mode and invalidates its replicas: the dies whose
acknowledgement the write awaits. -/
def State.unreplicate (s : State) (pa req : Nat) : State × List Nat :=
  match s.repEntry pa with
  | none => (s, [])
  | some e =>
    if !e.replicated then (s, [])
    else
      let d := homeDie pa
      let s := s.updDie d fun x => { x with rep := x.rep.map fun y => if y.granule == e.granule then y.memorySide else y }
      ({ s with invs := s.invs ++ e.invs d (pa / 128) req }, diesOf e.holders)

/-- A write applied at the home of its line: the bytes, the monitors, and the acknowledgements that the write awaits:
dies of replicas, and the number of a watch. -/
def State.writeHome (s : State) (key pa : Nat) (bs : List Byte) (req : Nat) : State × List Nat × Option Nat :=
  let s := (s.writePhys key pa bs).fireLine pa
  let (s, dies) := s.unreplicate pa req
  let (s, w) := s.fireWatch pa
  (s, dies, w)

/-- A read through the die whose fill an invalidation overtakes (R83). -/
def Req.overtaken (die granule : Nat) (r : Req) : Bool :=
  r.replicaOf == some die && r.pa / 65536 == granule && (r.phase == .fill || r.phase == .answered) && !r.ok

/-- Its fill is discarded, and it is read again: it waits on no fill entry. -/
def State.refill (s : State) (die granule : Nat) : State :=
  let gone := (s.reqs.filter (Req.overtaken die granule)).map (·.id)
  if gone = [] then s
  else
    { s with
      reqs := s.reqs.map fun r => if gone.contains r.id then { r with phase := .homeward } else r
      slices := s.slices.map fun (p : Nat × Slice) =>
        (p.1, { p.2 with fills := p.2.fills.map fun f => { f with reqs := f.reqs.filter fun id => !gone.contains id } }) }

/-- A granule's replicas leave a die (R84). -/
def State.replicasGone (s : State) (die g : Nat) : State :=
  (s.dropReplicas die (((s.die die).replicas.filter fun p => p.line / 512 == g).map (·.line))).refill die g

def State.replicasGoneAt (s : State) (g : Nat) : List Nat → State
  | [] => s
  | d :: ds => (s.replicasGone d g).replicasGoneAt g ds

/-- A read granule of a running or stopped pure task has been written (R328). -/
def Task.taintBy (g : Nat) (t : Task) : Task :=
  { t with pureInfo := t.pureInfo.map fun (p : PureInfo) => if p.granules.contains g then { p with tainted := true } else p }

def Saved.taintBy (m : WatchMsg) (v : Saved) : Saved :=
  if dieOf v.place = m.dst then { v with task := v.task.taintBy m.granule } else v

/-- The walker of a die applies a watch message (R327). -/
def State.applyWatch (s : State) (m : WatchMsg) : State :=
  let s := s.updDie m.dst fun d =>
    { d with fw :=
        if m.invalidate then d.fw.filter fun e => !e.rdGranules.contains m.granule
        else d.fw.map fun (e : FwEntry) => if e.wrGranules.contains m.granule then { e with wclean := false } else e }
  if m.invalidate then
    { s with
      cores := s.cores.map fun (p : Nat × Core) =>
        (p.1, if dieOf p.1 = m.dst then { p.2 with task := p.2.task.map (Task.taintBy m.granule) } else p.2)
      fns := s.fns.map fun (p : Nat × Func) =>
        (p.1, { p.2 with away := p.2.away.map (Saved.taintBy m) }) }
  else s

def State.applyWatches (s : State) : List WatchMsg → State
  | [] => s
  | m :: ms => (s.applyWatch m).applyWatches ms

/-- The messages of a watch are applied, and acknowledged. -/
def State.watchNow (s : State) (w : Nat) : State :=
  ({ s with watchMsgs := s.watchMsgs.filter fun m => m.watch != w } : State).applyWatches
    (s.watchMsgs.filter fun m => m.watch == w)

/-- A write, line by line, of a unit that sends no request of the model's (walker, Derailleur, Lockring, eviction): the
bytes and what they cause. The acknowledgements that such a write awaits come with it (entry 65). -/
def State.writeLines (s : State) (key pa : Nat) : Nat → List Byte → State
  | 0, _ => s
  | _, [] => s
  | n + 1, bs =>
    let k := 128 - pa % 128
    let id := s.nextId
    let (s, dies, w) := s.useId.writeHome key pa (bs.take k) id
    let s : State := { s with invs := s.invs.filter fun m => m.req != id }
    let s := s.replicasGoneAt (pa / 65536) dies
    (match w with
      | some w => s.watchNow w
      | none => s).writeLines key (pa + k) n (bs.drop k)

def State.writeQuiet (s : State) (key pa : Nat) (bs : List Byte) : State := s.writeLines key pa (bs.length / 128 + 2) bs

/-! ## Results of the atomics (R281, R283) -/

/-- An operation on each 16-bit half of a word. -/
def halves (f : Nat → Nat → Nat) (a b : Nat) : Nat := f (a % 2 ^ 16) (b % 2 ^ 16) + f (a / 2 ^ 16 % 2 ^ 16) (b / 2 ^ 16 % 2 ^ 16) * 2 ^ 16

/-- A float operation under an atomic's type. -/
def atFloat (f : FForm → Nat → Nat → Nat) (ty : AtTy) (a b : Nat) : Nat :=
  match ty with
  | .f64 => f formF64 a b
  | .f32 => f formF32 a b
  | .f16x2 => halves (f formF16) a b
  | .bf16x2 => halves (f formBf16) a b
  | _ => a

def atSigned : AtTy → Bool
  | .s64 | .s32 => true
  | _ => false

/-- Memory after an atomic: the new value, or none where it writes nothing. -/
def atNew (op : AtOp) (ty : AtTy) (old v x : Nat) : Option Nat :=
  let w := 8 * atBytes ty
  let lt (p q : Nat) : Bool := readInt (atSigned ty) w p < readInt (atSigned ty) w q
  match op with
  | .ld => none
  | .st | .swp => some v
  | .add => some ((old + v) % 2 ^ w)
  | .and => some (old &&& v)
  | .or => some (old ||| v)
  | .xor => some (old ^^^ v)
  | .min => some (if lt v old then v else old)
  | .max => some (if lt old v then v else old)
  | .cas | .cas128 => if old = v then some x else none
  | .fadd => some (atFloat (fun F a b => (F.add .rne a b).1) ty old v)
  | .fmin => some (atFloat (fun F a b => (F.minmax true a b).1) ty old v)
  | .fmax => some (atFloat (fun F a b => (F.minmax false a b).1) ty old v)

/-- Bytes of an atomic's access. -/
def atSize (op : AtOp) (ty : AtTy) : Nat := if op = .cas128 then 16 else atBytes ty

/-! ## What a finished request does at its sender -/

/-- An ST whose last write is performed is complete: st falls (R129). -/
def Core.storeDone (x : Core) (wid req : Nat) : Core :=
  match x.seq.stores.find? fun p => p.wid == wid with
  | none => x
  | some p =>
    let left := p.reqs.filter (· != req)
    if left = [] then
      ({ x with seq := { x.seq with
        stores := x.seq.stores.filter fun p => p.wid != wid, st := x.seq.st - 1 } } : Core).completeWord .seq wid
    else { x with seq := { x.seq with
        stores := x.seq.stores.map fun p => if p.wid == wid then { p with reqs := left } else p } }

/-- A probe-line write-back is performed; the last of those that one PWB or PINV started lowers st (R193). -/
def Core.wbDone (x : Core) (req : Nat) : Core :=
  match x.copy.wbs.find? fun w => w.1 == req with
  | none => x
  | some (_, _, grp) =>
    let left := x.copy.wbs.filter fun w => w.1 != req
    let last := grp != 0 && !left.any fun w => w.2.2 == grp
    { x with copy := { x.copy with wbs := left }, seq := if last then { x.seq with st := x.seq.st - 1 } else x.seq }

/-- Commands wait no longer for a write that is performed (R139, R194). -/
def Core.unwait (x : Core) (id : Nat) : Core :=
  { x with queues := x.queues.map fun q => q.map fun c => { c with waits := c.waits.filter (· != id) } }

/-- The sequencer's last atomic is performed (R92). -/
def Core.atomicDone (x : Core) (req : Nat) : Core :=
  if x.seq.atomicReq = some req then { x with seq := { x.seq with atomicReq := none } } else x

/-- Die that a request goes to; the host interface stands on die 0, and a peer's requests leave by the fabric. -/
def Req.destDie (r : Req) : Nat :=
  if isArray r.pa then dieOf (arrayCore r.pa) else if isLocalHbm r.pa then homeDie r.pa
  else if isHost r.pa then 0 else r.src.die

/-- The request cannot reach its destination. -/
def State.severed (s : State) (r : Req) : Bool :=
  (r.replicaOf.isNone || r.phase == .homeward)
    && (((routeOf r.src.die r.destDie).any fun n => s.linkDown (.boundary n)) || (isPeer r.pa && s.fabricDown)
      || (isHost r.pa && s.hostDown))

/-- The answer of a request takes the reverse path, and cannot cross either: a read, or the result of an atomic, completes
as poisoned data (R17). -/
def State.answerLost (s : State) (r : Req) : Bool :=
  r.kind != .write && (r.replicaOf.isNone || !r.ok) && s.severed { r with phase := .homeward }

/-- The core one of whose words or counts a performed request ends. -/
def Req.ends (r : Req) : Option Nat :=
  match r.src with
  | .store c _ | .probeWb c | .atomic c none _ _ => some c
  | _ => none

/-- While a core clock domain is frozen no word of it completes and no count changes (R126). -/
def State.holdsBack (s : State) (r : Req) : Bool := r.ends.any fun c => (s.core c).freezes != []

/-- What an access from outside the package gets (R62): the data of a read or an atomic, and a peer's write its end. -/
def State.reply (s : State) (r : Req) : State :=
  if r.kind = .write ∧ r.src = .host then s else { s with out := s.out ++ [.completion r.va r.result r.poison] }

/-- What ends with a request: a word, a count, an answer. -/
def State.ended_ (s : State) (r : Req) : State :=
  match r.src with
  | .store c wid => ((s.dropReq r.id).updCore c fun x => (x.storeDone wid r.id).unwait wid)
  | .probeWb c => (s.dropReq r.id).updCore c fun x => (x.wbDone r.id).unwait r.id
  | .atomic c none wid pc =>
    let s := (s.dropReq r.id).updCore c fun x => (x.atomicDone r.id).unwait r.id
    -- R284: an atomic on a poisoned line, or that the host refuses, is not performed
    if r.poison || r.refused then
      (s.updCore c fun x => x.cancelWord .seq wid).parkAt c (if r.poison then 0x20 else 0x16) pc (dbl r.va)
    else s.updCore c fun x => x.completeWord .seq wid
  | .gone _ => s.dropReq r.id
  | .host | .peer => (s.dropReq r.id).reply r
  | _ => s.updReq r.id fun _ => { r with phase := .answered }

/-- A request is performed, or answered where its sender awaits an answer. -/
def State.finish (s : State) (r : Req) : State :=
  let r := if s.answerLost r then { r with poison := true } else r
  if s.holdsBack r then s.updReq r.id fun _ => { r with phase := .acks, acks := [], watches := [] } else s.ended_ r

/-- A request whose effect at the home is over: it waits for acknowledgements, or is performed. -/
def State.settleReq (s : State) (r : Req) (dies : List Nat) (w : Option Nat) : State :=
  let r := { r with acks := dies, watches := w.toList }
  if dies = [] ∧ w = none then s.finish r else s.updReq r.id fun _ => { r with phase := .acks }

/-! ## Effects at the home -/

/-- Does a TLB of the package hold a translation, of a page with NREP, that meets a granule (R72, R83)? -/
def State.nrepGranule (s : State) (g : Nat) : Bool :=
  let hit (t : TlbEntry) : Bool := t.nrep && t.pa / 65536 ≤ g && g * 65536 < t.pa + t.size
  (s.dies.any fun (_, d) => d.tlb.any hit) || s.cores.any fun (_, x) => x.tlb.any hit || x.copy.tlb.any hit

/-- The least recently counted of a list of entries. -/
def leastCounted : List RepEntry → Option RepEntry
  | [] => none
  | e :: es => some (es.foldl (fun b y => if y.last < b.last then y else b) e)

/-- A full table gives up its least recently counted entry; a replicated granule returns to memory-side mode first, which
invalidates its replicas (R82). -/
def State.reclaim (s : State) (d : Nat) : State :=
  match leastCounted (s.die d).rep with
  | none => s
  | some e =>
    let s := s.updDie d fun x => { x with rep := x.rep.filter fun y => y.granule != e.granule }
    if e.replicated then { s.useId with invs := s.invs ++ e.invs d (512 * e.granule) s.nextId } else s

/-- Counts a remote access of a granule (R82): only cores of other dies count. -/
def State.countRemote (s : State) (r : Req) (write : Bool) : State :=
  if !isLocalHbm r.pa || r.src.core.isNone || r.src.die == homeDie r.pa then s
  else
    let d := homeDie r.pa
    let g := r.pa / 65536
    let bump (e : RepEntry) : RepEntry :=
      { e with
        reads := if write then e.reads else e.reads + 1
        writes := if write then e.writes + 1 else e.writes
        nrep := e.nrep || s.nrepGranule g
        last := s.nextId }
    if (s.die d).rep.any fun e => e.granule == g then
      s.updDie d fun x => { x with rep := x.rep.map fun e => if e.granule == g then bump e else e }
    else
      let s := if (s.die d).rep.length < 4096 then s else s.reclaim d
      s.updDie d fun x => { x with rep := x.rep ++ [bump ⟨g, 0, 0, 0, false, false, 0⟩] }

/-- The line is poisoned (R16). -/
def State.poisoned (s : State) (pa : Nat) : Bool := s.poison.contains (pa / 128)

/-- A read that went through the reader's die leaves a replica there, in a TC0 way of its function, if the granule is still
replicated (R83). A poisoned line leaves none, and under a no-allocate read policy nothing is kept (entry 32). -/
def State.makeReplica (s : State) (r : Req) : State :=
  match r.replicaOf, s.repEntry r.pa with
  | some d, some e =>
    let cfg := s.wayCfg r.fn 0
    let line := r.pa / 128
    if !e.replicated || cfg.mask == 0 || cfg.rpol == 1 || s.poisoned r.pa then s
    else
      let p : Replica := ⟨line, tfind line s.memKey, memReads s.mem (128 * line) 128⟩
      let s := (s.dropReplica d line).install (d * 16 + sliceOf r.pa) r.fn line cfg.mask (cfg.rpol == 2) false true
      (s.updDie d fun x => { x with replicas := p :: x.replicas }).updDie (homeDie r.pa) fun x =>
        { x with rep := x.rep.map fun (y : RepEntry) =>
            if y.granule == e.granule then { y with holders := y.holders ||| BitVec.twoPow 16 d } else y }
  | some _, none => s
  | none, _ => if r.src.core.isSome then s.freshFor r.src.die r.pa else s

/-- A read takes its value at its place in the line's order (R273). -/
def State.performRead (s : State) (r : Req) (phase : ReqPhase) : State :=
  let v := s.readPhys r.key r.pa r.len
  let s := (s.countRemote r false).makeReplica r
  let r := { r with result := v, poison := s.poisoned r.pa }
  if phase = .answered then s.finish r else s.updReq r.id fun _ => { r with phase := phase }

/-- A write is applied at its lookup (R273). -/
def State.performWrite (s : State) (r : Req) : State :=
  let s := s.countRemote r true
  let (s, dies, w) := s.writeHome r.key r.pa r.data r.id
  s.settleReq r dies w

/-- An atomic, or a compare-and-arm, as one operation of the home's arithmetic unit (R274, R283, R286). -/
def State.performAtomic (s : State) (r : Req) : State :=
  match r.kind with
  | .atomic op ty v x _ =>
    let n := atSize op ty
    let old := leNat (s.readPhys r.key r.pa n)
    -- R284: an atomic on a poisoned line is not performed
    if s.poisoned r.pa then s.finish { r with poison := true, result := leBytes n old }
    else
      match atNew op ty old (v.toNat % 2 ^ (8 * n)) (x.toNat % 2 ^ (8 * n)) with
      | none =>
        (((s.countRemote r false).makeReplica r).meter r.fn 15 1).finish { r with result := leBytes n old, ok := decide (op = .ld) }
      | some new =>
        let s := ((s.countRemote r true).makeReplica r).meter r.fn 15 1
        let (s, dies, w) := s.writeHome r.key r.pa (leBytes n new) r.id
        s.settleReq { r with result := leBytes n old, ok := true } dies w
  | .arm v =>
    match r.src with
    | .arm c =>
      let cur := dbl (leNat (s.readPhys r.key r.pa 8))
      let armed := cur == v
      let l := s.monsAt r.pa
      let full := decide ((if isArray r.pa then 16 else 256) ≤ l.length)
      let s := if armed && !full then s.setMonsAt r.pa (l ++ [⟨c, r.pa / 128, r.pa⟩]) else s
      let s := s.makeReplica r
      let s := s.updCore c fun y => { y with mon := some ⟨dbl r.va, v, armed, !armed, cur⟩ }
      s.finish { r with result := leBytes 8 cur.toNat, ok := armed, refused := armed && full, poison := s.poisoned r.pa }
    | _ => s.finish r
  | _ => s.finish r

/-- An access of peer memory, or of the host's: a flit, or a TLP, for the request and one for what answers a read or an
atomic. -/
def State.countDirect (s : State) (r : Req) : State :=
  let n := if r.kind = .write then 1 else 2
  if isPeer r.pa then (s.meter r.fn 13 r.len).telemeter r.fn 34 n
  else if isHost r.pa then (s.meter r.fn 14 r.len).telemeter r.fn 35 n
  else s

/-! ## Arrival and lookup (R273) -/

/-- Slice that a request stands at or goes to: its home, or the reader's die for a replica (R83). -/
def Req.sliceIdx (r : Req) : Nat :=
  match r.replicaOf, r.phase with
  | some _, .homeward => homeIdx r.pa
  | some d, _ => d * 16 + sliceOf r.pa
  | none, _ => homeIdx r.pa

/-- A write-back of a probe line's block that the core has in flight: no access of the core reaches the block before it
is performed (R191, R192). -/
def State.behindWriteBack (s : State) (r : Req) : Bool :=
  match r.src, r.src.core with
  | .probeWb _, _ => false
  | _, some c => s.reqs.any fun w => w.src == .probeWb c && w.pa / 256 == r.pa / 256
  | _, none => false

/-- A unit with a held request sends no further one (R273). -/
def State.heldSender (s : State) (r : Req) : Bool :=
  match r.src.unit with
  | some u => s.reqs.any fun w => w.phase == .held && w.src.unit == some u
  | none => false

/-- Is it an atomic, or a compare-and-arm? -/
def Req.isAtomic (r : Req) : Bool :=
  match r.kind with
  | .atomic .. | .arm _ => true
  | _ => false

/-- The access has its place in its line's order, for good: a read whose value may still be discarded (R83) has not. -/
def Req.placed (r : Req) : Bool :=
  match r.phase with
  | .answered => r.replicaOf.isNone || r.ok
  | .acks => true
  | .fill => r.kind == .read && r.replicaOf.isNone
  | _ => false

/-- An access of the sequencer must take its place before a later one: they touch one line (R91, R139), or one of them is
an atomic (R87, R90). An atomic waits until an earlier access is performed (R92). -/
def Req.before (q r : Req) : Bool :=
  (q.pa / 128 == r.pa / 128 || q.isAtomic || r.isAtomic) && !(q.placed && (q.phase != .acks || !r.isAtomic))

/-- An earlier access of the same sequencer goes first. -/
def State.outOfOrder (s : State) (r : Req) : Bool :=
  match r.src.unit with
  | some (c, 0) => s.reqs.any fun q => q.id < r.id && q.src.unit == some (c, 0) && q.before r
  | _ => false

/-- HUB_REQUEST_ARRIVE: the request travels. -/
def canHubRequestArrive (id : Nat) (s : State) : Bool :=
  match s.req id with
  | none => false
  | some r =>
    (r.phase == .travel || r.phase == .homeward) && !s.behindWriteBack r
      && !(r.phase == .travel && (s.heldSender r || s.outOfOrder r))
      && (match r.kind with
        | .addend .. => false
        | _ => true)

/-- Does the write, read or atomic reach no slice of this package: an array port (R68), peer or host memory? Each is
one operation at its home, with no queue modelled. -/
def Req.direct (r : Req) : Bool := !isLocalHbm r.pa

/-! ### Failed links (R17, R65) -/

/-- First double of a copy fault record (R186): cause, side, slot and index, and FROZEN. -/
def copyCause (cause side slot index : Nat) : Dbl := dbl (cause + side * 2 ^ 8 + slot % 32 * 2 ^ 9 + index % 64 * 2 ^ 14 + 2 ^ 20)

/-- The queue of a copy word's task parks with Machine check for one of its requests: the record is the word's, and where
the request has none (a residual delivered later) its fields are free (entry 45). -/
def State.parkCopy (s : State) (c : Nat) (r : Req) : State :=
  let f := s.freeDbl
  let own := r.record != []
  let head := if own then r.record.getD 0 0 else copyCause 0x20 1 (bits f.toNat 0 5) (bits f.toNat 5 6)
  let xfer := if own then r.record.getD 1 0 else dbl ((Config.freeDbl (s.freeCtr + 1)).toNat % 2 ^ 35)
  let iter := if own then r.record.getD 2 0 else Config.freeDbl (s.freeCtr + 2)
  let s := s.useFree.useFree.useFree
  if c = derailleur ∨ (s.core c).task.any (·.parked) then s
  else s.park c 0x20 1 false [head, dbl r.va, xfer, iter] none

/-- The task that issued a lost write parks with Machine check, at the word where it is the sequencer's; on the Derailleur
that halts it (R17). `u` is the state before the write was discarded. -/
def State.parkLost (s u : State) (r : Req) : State :=
  match r.src with
  | .store c wid =>
    let pc := (((u.seq c).stores.find? fun p => p.wid == wid).map (·.pc)).getD (u.seq c).pc
    s.parkAt c 0x20 pc pc
  | .probeWb c => s.parkAt c 0x20 (u.seq c).pc (u.seq c).pc
  | .copyWrite c _ => s.parkCopy c r
  | _ => s

/-- A request that cannot cross completes at its source: a read, and an answer of an atomic, as poisoned data; a write or
an atomic is discarded and its address logged (R17). -/
def State.lose (s : State) (r : Req) : State :=
  let u := if r.kind == .read then s else { s with log := s.log ++ [.discardedWrite (r.pa / 128)] }
  let t := u.finish { r with poison := r.kind != .write, result := List.replicate r.len 0 }
  if r.kind == .write then t.parkLost s r else t

/-- A direct request is performed where it arrives. The host may refuse an atomic (R284). -/
def State.performDirect (s : State) (r : Req) : State :=
  match r.kind with
  | .read => s.performRead r .answered
  | .write => s.performWrite r
  | .atomic .. =>
    if isHost r.pa && Config.hostAtomicUr s.freeCtr then s.useFree.finish { r with refused := true }
    else s.useFree.performAtomic r
  | _ => s.performAtomic r

/-- Where a function's stage 2 maps an access from outside (R368); a write sets DIRTY. -/
def State.outside (s : State) (fn ipa : Nat) (write : Bool) : State × Option Nat :=
  match s.walk2 fn ipa with
  | .error _ => (s, none)
  | .ok l =>
    if bits l.entry (if write then 3 else 2) 1 = 0 then (s, none)
    else (if write ∧ bits l.entry 4 2 = 1 then s.writePhys 1 l.place (leBytes 8 (l.entry + 32)) else s, some l.out)

/-- The oldest message from outside is an access: it becomes a request, or is refused: a host's access completes as
Unsupported Request, and a peer's write is dropped (R62, R368). -/
def State.accessIn (s : State) (peer : Bool) (fn ipa len tag : Nat) (kind : ReqKind) (data : List Byte) : State :=
  let write := kind != .read
  if !(s.fn fn).bound || (s.fn fn).migBlocked then
    if peer && write then s else { s with out := s.out ++ [.unsupported peer] }
  else
    match s.outside fn ipa write with
    | (s, none) => { s with out := s.out ++ [.unsupported peer] }
    | (s, some pa) =>
      s.send { Req.blank (if peer then .peer else .host) kind pa len with
        data := data, fn := fn, va := tag, key := if isHbm pa then (s.fn fn).key else 0 }

/-- A request arrives at its slice, or, where it reaches none, is performed. -/
def State.arriveReq (s : State) (r : Req) : State :=
  if s.severed r then s.lose r
  else if r.direct then (s.countDirect r).performDirect r
  else
    let home : Bool := r.replicaOf.isSome && r.phase == .homeward
    let i := r.sliceIdx
    let x := s.slice i
    -- requests held earlier go first
    if x.heldReqs = [] ∧ x.inq.length < 16 then
      (s.updSlice i fun x => { x with inq := x.inq ++ [r.id] }).updReq r.id fun r =>
        { r with phase := .queued, ok := !home && r.ok }
    else
      (s.updSlice i fun x => { x with heldReqs := x.heldReqs ++ [r.id] }).updReq r.id fun r =>
        { r with phase := .held, ok := !home && r.ok }

/-- HUB_REQUEST_ARRIVE. A number that no request has yet stands for the oldest access from outside. -/
def execHubRequestArrive (req : Nat) (s : State) : Result :=
  .next (if canHubRequestArrive req s then
      match s.req req with
      | none => s
      | some r => s.arriveReq r
    else if req = s.nextId then
      let u := { s with inbox := s.inbox.drop 1 }
      let t :=
        match s.inbox.head? with
        | some (.memoryRead peer fn ipa n tag) => u.accessIn peer fn ipa n tag .read []
        | some (.memoryWrite peer fn ipa bs) => u.accessIn peer fn ipa bs.length 0 .write bs
        | some (.peerAtomic fn ipa op ty v x tag) => u.accessIn true fn ipa (atSize op ty) tag (.atomic op ty v x true) []
        | _ => s
      match t.req req with
      | none => t
      | some r => t.arriveReq r
    else s)

/-- Is the request's replica lookup over, so that its home serves it? Marked by `ok` at arrival. -/
def Req.atHome (r : Req) : Bool := r.replicaOf.isNone || !r.ok

/-- Does the request work on its line in the arithmetic unit (R274)? -/
def Req.isOp (r : Req) : Bool := r.kind != .read && r.kind != .write

/-- An atomic of the line waits for its fill. -/
def State.opFilling (s : State) (i line : Nat) : Bool :=
  (s.slice i).fills.any fun f => f.line == line && f.reqs.any fun id => (s.req id).any (·.isOp)

/-- An operation on the line is still to be performed (R274). -/
def State.opPending (s : State) (i line : Nat) : Bool :=
  s.opFilling i line || (s.slice i).ops.any fun id => ((s.req id).map fun r => r.pa / 128 == line).getD false

/-- The request that the slice's next lookup takes: one that holds a pipe for want of a fill entry, or the oldest of
the input queue. -/
def Slice.nextLookup (x : Slice) : Option Nat :=
  match x.pipes with
  | id :: _ => if x.fills.length < 128 then some id else if x.pipes.length < 2 then x.inq.head? else none
  | [] => x.inq.head?

/-- Staging entries in use by operations of functions without ways (R280): those whose lookup is over. -/
def State.staged (s : State) (i : Nat) : Nat :=
  let x := s.slice i
  ((x.ops ++ x.fills.flatMap (·.reqs)).filter fun id =>
    (s.req id).any fun r => r.isOp && (s.wayCfg r.fn r.tc).mask == 0).length

/-- An operation may take the staging entry that it needs (R280). -/
def State.mayStage (s : State) (i : Nat) (r : Req) : Bool := (s.wayCfg r.fn r.tc).mask != 0 || s.staged i < 4

/-- HUB_LOOKUP: a lookup may start. A plain access waits behind an operation on its line, so that it takes its place
after it (R274); an operation of a function without ways waits for a staging entry (R280). -/
def canHubLookup (i : Nat) (s : State) : Bool :=
  match (s.slice i).nextLookup.bind s.req with
  | none => false
  | some r =>
    match r.kind with
    | .read | .write => !s.opPending i (r.pa / 128)
    | _ => s.mayStage i r

/-- Held requests join the queue while it has room (R273). -/
def State.unhold (s : State) (i : Nat) : State :=
  match (s.slice i).heldReqs with
  | [] => s
  | id :: rest =>
    if (s.slice i).inq.length < 16 then
      (s.updSlice i fun x => { x with heldReqs := rest, inq := x.inq ++ [id] }).updReq id fun r => { r with phase := .queued }
    else s

/-- Does a miss of a kind keep the line in the slice (R276)? -/
def State.keeps (s : State) (fn tc : Nat) (k : ReqKind) : Bool :=
  let cfg := s.wayCfg fn tc
  cfg.mask != 0 && cfg.policy k != 1

/-- A miss takes a fill entry, or joins that of its line (R273); a line that one of those who wait for it keeps is kept, for
the first of them. -/
def State.takeFill (s : State) (i : Nat) (r : Req) (waits : Bool) : State :=
  let line := r.pa / 128
  let ids := if waits then [r.id] else []
  let wr := r.kind != .read
  let s := s.updSlice i fun x =>
    if x.fills.any fun f => f.line == line then
      { x with fills := x.fills.map fun f =>
          if f.line == line then
            let turn := !s.keeps f.fn f.tc (if f.write then .write else .read) && s.keeps r.fn r.tc r.kind
            { f with fn := if turn then r.fn else f.fn, tc := if turn then r.tc else f.tc, write := f.write || wr,
                     reqs := f.reqs ++ ids }
          else f }
    else { x with fills := x.fills ++ [⟨line, r.fn, r.tc, wr, ids⟩] }
  s.openRow r.pa

/-- A lookup that finds the line (R273). -/
def State.lookupHit (s : State) (i : Nat) (r : Req) (l : L2Line) : State :=
  let s := s.updSlice i fun x => x.hit l (s.wayCfg r.fn r.tc).mask (r.kind != .read)
  match r.kind with
  | .read => s.performRead r .answered
  | .write => s.performWrite r
  | _ => (s.updSlice i fun x => { x with ops := x.ops ++ [r.id] }).updReq r.id fun r => { r with phase := .alu }

/-- A lookup that misses, or finds the line being filled (R273). -/
def State.lookupMiss (s : State) (i : Nat) (r : Req) (filling : Bool) : State :=
  let cfg := s.wayCfg r.fn r.tc
  if !filling && 128 ≤ (s.slice i).fills.length then
    (s.updSlice i fun x => { x with pipes := x.pipes ++ [r.id] }).updReq r.id fun r => { r with phase := .pipe }
  else
    match r.kind with
    | .read => (s.takeFill i r true).performRead r .fill
    | .write =>
      -- a full line under the no-allocate policy goes to HBM unread (R276)
      if !filling && (cfg.mask = 0 || cfg.wpol = 1) && r.len = 128 then (s.hbmWritten r.fn).performWrite r
      else (s.takeFill i r false).performWrite r
    | _ => (s.takeFill i r true).updReq r.id fun r => { r with phase := .fill }

/-- A lookup at the home (R273). -/
def State.lookupHome (s : State) (i : Nat) (r : Req) : State :=
  let filling := (s.slice i).fills.any fun f => f.line == r.pa / 128
  match (s.slice i).lineIn (r.pa / 128) with
  | some l => if filling then s.lookupMiss i r true else s.lookupHit i r l
  | none => s.lookupMiss i r filling

/-- A byte of a replica, decrypted under a key as at the home (R177, R369). -/
def Replica.byte (p : Replica) (key a : Nat) : Byte :=
  match p.key with
  | some lk =>
    if lk.key = key then (if lk.known.getLsbD (a % 128) then p.bytes.getD (a % 128) 0 else Config.noise key a [lk.stamp])
    else Config.noise key a (lk.key :: lk.stamp :: p.bytes.map (·.toNat))
  | none => Config.noise key a []

/-- A lookup in the slice of the reader's die: a replica answers, or the request goes to the home (R83). -/
def State.lookupReplica (s : State) (d i : Nat) (r : Req) : State :=
  match (s.die d).replicas.find? fun p => p.line == r.pa / 128 with
  | some p =>
    let s :=
      match (s.slice i).lineIn p.line with
      | some l => s.updSlice i fun x => x.hit l (s.wayCfg r.fn r.tc).mask false
      | none => s
    s.finish { r with result := (List.range r.len).map fun k => p.byte r.key (r.pa + k) }
  | none => s.updReq r.id fun r => { r with phase := .homeward }

def execHubLookup (slice : Nat) (s : State) : Result :=
  .next (if canHubLookup slice s then
      match (s.slice slice).nextLookup.bind s.req with
      | none => s
      | some r =>
        let s := s.updSlice slice fun x =>
          { x with inq := x.inq.filter (· != r.id), pipes := x.pipes.filter (· != r.id) }
        let s := (s.unhold slice).telemeter r.fn 32 1
        match r.replicaOf with
        | some d => if r.atHome then s.lookupHome slice r else s.lookupReplica d slice r
        | none => s.lookupHome slice r
    else s)

/-- HBM_FILL_ARRIVE (R273, R276): the line is in no re-read. -/
def canHbmFillArrive (slice line : Nat) (s : State) : Bool :=
  ((s.slice slice).fills.any fun f => f.line == line) && !s.rereads.contains line

/-- A request that waited on the fill goes on: a read is answered, an operation reaches the arithmetic unit. -/
def State.afterFill (s : State) (i : Nat) : List Nat → State
  | [] => s
  | id :: ids =>
    match s.req id with
    | none => s.afterFill i ids
    | some r =>
      let s :=
        match r.kind with
        | .read => s.finish { r with poison := s.poisoned r.pa }
        | .write => s
        | _ => (s.updSlice i fun x => { x with ops := x.ops ++ [id] }).updReq id fun r => { r with phase := .alu }
      s.afterFill i ids

def execHbmFillArrive (slice line : Nat) (s : State) : Result :=
  .next (if canHbmFillArrive slice line s then
      match (s.slice slice).fills.find? fun f => f.line == line with
      | none => s
      | some f =>
        let cfg := s.wayCfg f.fn f.tc
        let op := f.reqs.any fun id => (s.req id).any (·.isOp)
        let pol := if op then cfg.apol.toNat else if f.write then cfg.wpol.toNat else cfg.rpol.toNat
        let s := (s.updSlice slice fun x => { x with fills := x.fills.filter fun f => f.line != line }).hbmRead f.fn
        let s := if pol = 1 ∨ cfg.mask = 0 then (if f.write then s.hbmWritten f.fn else s)
          else s.install slice f.fn line cfg.mask (decide (pol = 2)) f.write false
        s.afterFill slice f.reqs
    else s)

/-- HBM_ROW_CLOSE (R85): no request to the row is pending. -/
def canHbmRowClose (die row : Nat) (s : State) : Bool :=
  ((s.die die).openRows.any fun p => p.1 == row)
    && !(List.range 16).any fun i => (s.slice (die * 16 + i)).fills.any fun f => f.line / 8 == row

def execHbmRowClose (die row : Nat) (s : State) : Result :=
  .next (if canHbmRowClose die row s then
      s.updDie die fun d => { d with openRows := d.openRows.filter fun p => p.1 != row }
    else s)

/-- ATOMIC_OPERATION (R274): the first operation on its line in lookup order. -/
def canAtomicOperation (id : Nat) (s : State) : Bool :=
  match s.req id with
  | none => false
  | some r =>
    r.phase == .alu
      && ((s.slice (homeIdx r.pa)).ops.find? fun k => ((s.req k).map fun q => q.pa / 128 == r.pa / 128).getD false) == some id

def execAtomicOperation (req : Nat) (s : State) : Result :=
  .next (if canAtomicOperation req s then
      match s.req req with
      | none => s
      | some r => (s.updSlice (homeIdx r.pa) fun x => { x with ops := x.ops.filter (· != req) }).performAtomic r
    else s)

/-! ## Replicas (R83, R84) -/

/-- REPLICA_INVALIDATE: the first message of its path that names the die and line. -/
def canReplicaInvalidate (die line : Nat) (s : State) : Bool :=
  match s.invs.find? fun m => m.dst == die && m.line == line with
  | none => false
  | some m => (s.invs.find? fun k => k.src == m.src && k.dst == die) == some m

def execReplicaInvalidate (die line : Nat) (s : State) : Result :=
  .next (if canReplicaInvalidate die line s then
      match s.invs.find? fun m => m.dst == die && m.line == line with
      | none => s
      | some m =>
        let s : State := { s with
          invs := s.invs.filter fun k => k != m
          reqs := s.reqs.map fun r => if r.id == m.req then { r with acks := r.acks.filter (· != die) } else r }
        s.replicasGone die (line / 512)
    else s)

/-- REPLICA_ACK_COMPLETE: every holder has acknowledged (R84), and no watch is outstanding (R327). A write of a frozen core
clock domain completes after the thaw (R126). -/
def canReplicaAckComplete (id : Nat) (s : State) : Bool :=
  match s.req id with
  | none => false
  | some r => r.phase == .acks && r.acks == [] && r.watches == [] && !s.holdsBack r

def execReplicaAckComplete (req : Nat) (s : State) : Result :=
  .next (if canReplicaAckComplete req s then
      match s.req req with
      | none => s
      | some r => s.finish r
    else s)

/-- End of a window on a die (R83): granules that qualify become replicated, and their counts return to zero. -/
def RepEntry.window (e : RepEntry) (ctl : Word) : RepEntry :=
  let rdth := (fld ctl 16 16).toNat
  let wrth := (fld ctl 8 8).toNat
  let on := bit ctl 0 && rdth != 0
  if !e.replicated && on && rdth ≤ e.reads && e.writes ≤ wrth && !e.nrep then
    { e with replicated := true, reads := 0, writes := 0, nrep := false }
  else { e with reads := 0, writes := 0, nrep := false }

def execReplicationWindowEnd (die : Nat) (s : State) : Result :=
  .next (s.updDie die fun d =>
    { d with rep := d.rep.map fun e =>
        ({ e with nrep := e.nrep || s.nrepGranule e.granule } : RepEntry).window d.repctl })

/-! ## Answers -/

/-- The answered request of a landing entry (R128). -/
def State.landingReq (s : State) (c id : Nat) : Option Req :=
  s.reqs.find? fun r => r.phase == .answered
    && (match r.src with
      | .land k i => k == c && i == id
      | .atomic k (some i) _ _ => k == c && i == id
      | _ => false)

def canLandingDataArrived (core id : Nat) (s : State) : Bool :=
  (s.landingReq core id).isSome && ((s.seq core).landing.any fun l => l.id == id)

/-- Bytes that an earlier store of the sequencer holds replace those that were read (R138). -/
def mergeForward (bs : List Byte) (fwd : List (Nat × Byte)) : List Byte :=
  bs.mapIdx fun i b => (tfind i fwd).getD b

def Landing.arrive (l : Landing) (r : Req) : Landing :=
  { l with data := BitVec.ofNat 128 (leNat (mergeForward r.result l.forward)), ok := r.ok, arrived := true, poison := r.poison }

/-- An atomic that was not performed (R284): its landing is gone, and the queue parks at it. -/
def State.atomicFailed (s : State) (c id wid : Nat) (pc : Dbl) (r : Req) : State :=
  (s.updCore c fun x =>
    ({ x with seq := { x.seq with landing := x.seq.landing.filter fun l => l.id != id } } : Core).cancelWord .seq wid).parkAt
      c (if r.poison then 0x20 else 0x16) pc (dbl r.va)

/-- LANDING_DATA_ARRIVED (R127, R128): the data waits in its entry, and a domain frozen for it thaws. -/
def execLandingDataArrived (core id : Nat) (s : State) : Result :=
  .next (if canLandingDataArrived core id s then
      match s.landingReq core id with
      | none => s
      | some r =>
        let s := (s.dropReq r.id).updCore core fun x =>
          let x := ((x.atomicDone r.id).unwait r.id).unwait id
          { x with seq := { x.seq with landing := x.seq.landing.map fun l => if l.id == id then l.arrive r else l } }
        let s := s.thaw core .lateLanding
        match r.src with
        | .atomic c _ wid pc => if r.refused || r.poison then s.atomicFailed c id wid pc r else s
        | _ => s
    else s)

/-- LANDING_DROP (R127): the first due landing, whose data is there. -/
def canLandingDrop (core : Nat) (s : State) : Bool :=
  (s.core core).freezes == []
    && (match (s.seq core).due with
      | some l => l.arrived && !l.poison
      | none => false)

def execLandingDrop (core : Nat) (s : State) : Result :=
  .next (if canLandingDrop core s then
      match (s.seq core).due with
      | some l => s.dropLanding core l
      | none => s
    else s)

/-- LATE_LANDING_FREEZE (R128). -/
def canLateLandingFreeze (core : Nat) (s : State) : Bool :=
  (s.core core).freezes == []
    && (match (s.seq core).due with
      | some l => !l.arrived
      | none => false)

def execLateLandingFreeze (core : Nat) (s : State) : Result :=
  .next (if canLateLandingFreeze core s then s.freeze core .lateLanding else s)

end Sys2Proof.Machine
end

