-- ==== Sys2Proof/Machine/Footprint.lean ====
section
/-! DEFINITION. Regions (R38): which bytes one holds, when two overlap or conflict (R39), the footprint of a task's
scalar access (R137, R138, R285), and the waits on commands in flight (R41). -/

namespace Sys2Proof.Machine

open Sys2Proof

/-! ## Rows in arithmetic progression -/

/-- Do rows of `e` bytes at `s` apart, `n` of them from offset 0, meet the bytes `lo` to `lo + len - 1`? The row that
starts last at or before the end of the range decides. -/
def rowsMeet (e n s lo len : Nat) : Bool :=
  0 < e && 0 < n && 0 < len
    && (let y := if s = 0 then 0 else Nat.min (n - 1) ((lo + len - 1) / s)
        decide (lo < y * s + e))

/-- Do planes of such rows, `m` of them at `t` apart, meet the range? Only planes that start at or before its end and
reach its beginning are looked at. -/
def planesMeet (e n s m t lo len : Nat) : Bool :=
  0 < m && 0 < len && 0 < n
    && (let span := (n - 1) * s + e
        if t = 0 then rowsMeet e n s lo len
        else
          let hi := Nat.min (m - 1) ((lo + len - 1) / t)
          let first := if lo < span then 0 else (lo - span) / t
          (List.range (hi + 1 - first)).any fun k =>
            let z := first + k
            -- the part of the range at or after this plane's start
            if z * t ≤ lo then rowsMeet e n s (lo - z * t) len
            else rowsMeet e n s 0 (lo + len - z * t))

/-- Own offsets and local addresses of space 1 as offsets of the die's window (R38, R67). -/
def Region.start (r : Region) (c : Nat) : Nat :=
  if r.space = 1 then
    if isVirtual r.base then c % 24 * 2 ^ 19 + r.base.toNat else windowOff r.base
  else r.base.toNat

/-- Does a region of space 0 or 1 share a byte with the range `lo` to `lo + len - 1`? -/
def Region.meets (r : Region) (c lo len : Nat) : Bool :=
  let b := r.start c
  if lo + len ≤ b then false
  else if b ≤ lo then
    planesMeet r.ext0.toNat r.ext1.toNat r.stride1.toNat r.ext2.toNat r.stride2.toNat (lo - b) len
  else planesMeet r.ext0.toNat r.ext1.toNat r.stride1.toNat r.ext2.toNat r.stride2.toNat 0 (lo + len - b)

/-- Does a region hold a byte? -/
def Region.has (r : Region) (c a : Nat) : Bool := r.meets c a 1

/-- Rows of a region: where each starts, and its length. Touching rows are taken as one. -/
def Region.rows (r : Region) (c : Nat) : List (Nat × Nat) :=
  let e := r.ext0.toNat
  let n := r.ext1.toNat
  let s := r.stride1.toNat
  let m := r.ext2.toNat
  let t := r.stride2.toNat
  if e = 0 ∨ n = 0 ∨ m = 0 then []
  else
    let (e, n) := if s ≤ e then ((n - 1) * s + e, 1) else (e, n)
    let (e, m) := if n = 1 ∧ t ≤ e then ((m - 1) * t + e, 1) else (e, m)
    (List.range m).flatMap fun z => (List.range n).map fun y => (r.start c + z * t + y * s, e)

/-- A row takes its place in ascending address. -/
def insertRow (r : Nat × Nat) : List (Nat × Nat) → List (Nat × Nat)
  | [] => [r]
  | q :: qs => if r.1 ≤ q.1 then r :: q :: qs else q :: insertRow r qs

/-- Rows in ascending address (R78). -/
def ascending : List (Nat × Nat) → List (Nat × Nat)
  | [] => []
  | r :: rs => insertRow r (ascending rs)

/-- R38: two regions overlap when they are in one space and share a byte, slot or plane. -/
def Region.overlaps (a b : Region) (c : Nat) : Bool :=
  a.space == b.space
    && (if a.space = 2 ∨ a.space = 3 then (a.base &&& b.base) != 0
        else (a.rows c).any fun (p, n) => b.meets c p n)

/-- Does an access of this kind write (R39)? -/
def RegKind.writes : RegKind → Bool
  | .rd => false
  | .wr | .rw | .acc | .atom => true

/-- R39: two overlapping regions conflict. -/
def Region.conflicts (a b : Region) (c : Nat) : Bool :=
  (a.kind.writes || b.kind.writes)
    && !(a.kind == .acc && b.kind == .acc) && !(a.kind == .atom && b.kind == .atom)
    && a.overlaps b c

/-! ## Scalar accesses -/

/-- Every byte of a virtual access lies in a region of one of the kinds (R137 step 4). -/
def inRegions (l : List Region) (kinds : List RegKind) (space : BitVec 2) (c lo len : Nat) : Bool :=
  (List.range len).all fun i => l.any fun r => r.space == space && kinds.contains r.kind && r.has c (lo + i)

/-- R41: a command in flight whose region, not chained and of one of the kinds, covers a byte of the access. -/
def State.regionWait (s : State) (c : Nat) (a : Dbl) (len : Nat) (kinds : List RegKind) : Bool :=
  let space : BitVec 2 := if isVirtual a then 0 else 1
  let lo := if isVirtual a then a.toNat else windowOff a
  (s.core c).queues.any fun q => q.any fun k => k.regions.any fun r =>
    r.space == space && !r.chn && kinds.contains r.kind && r.meets c lo len

/-- A fault of a scalar access: cause, address, info. -/
abbrev AFault := Nat × Dbl × Nat

/-- Fields of the task whose sequencer issues the current word; the Derailleur runs no task. -/
def State.task (s : State) : Option Task := (s.core s.cur.core).task

/-- Checks 1 to 5 of R137, R138 and R285 in their order, and the physical place of the access: form, alignment,
translation and permissions, footprint, window. On the Derailleur a virtual form is a physical address (R334). -/
def State.scalar (s : State) (a : Dbl) (size : Nat) (need : Need) (kinds : List RegKind) :
    State × Except AFault Nat :=
  let c := s.cur.core
  if !formOk a then (s, .error (0x15, a, 0))
  else if a.toNat % size ≠ 0 then (s, .error (0x03, a, size))
  else if c = derailleur then
    if !isVirtual a || !inMap a.toNat then (s, .error (0x15, a, 0)) else (s, .ok a.toNat)
  else
    match (s.core c).task with
    | none => (s, .error (0x16, a, 0))
    | some t =>
      if isVirtual a then
        match s.translate (.seq c) t.fn (s.rootOf t.fn t.wq) a.toNat need with
        | (s, .error f) => (s, .error (f.cause, a, f.info))
        | (s, .ok e) =>
          if !inRegions t.regions kinds 0 c a.toNat size then (s, .error (0x17, a, 0))
          else (s, .ok (e.phys a.toNat))
      else
        match s.windowFault c (windowOff a) with
        | 0 => (s, .ok (arrayAt (windowCore (dieOf c) (windowOff a)) (windowX (windowOff a))))
        | f => (s, .error (f, a, 0))

/-- R330: a pure task that reads through the window of another core, or host or peer memory, is tainted. -/
def State.taintRead (s : State) (pa : Nat) : State :=
  let c := s.cur.core
  if (isArray pa && arrayCore pa != c) || isPeer pa || isHost pa then
    s.updCore c fun x => { x with task := x.task.map fun t =>
      if t.isPure then { t with pureInfo := some { t.pureInfo.getD ⟨0, [], [], false, false, false, false, 0, 0⟩ with tainted := true } }
      else t }
  else s

/-- Function and work queue of the current word's task, and the key of its accesses. -/
def State.curFn (s : State) : Nat := (s.task.map (·.fn)).getD 0
def State.curWq (s : State) : Nat := (s.task.map (·.wq)).getD 0

/-- Traffic class of plain scalar accesses (R275); the Derailleur's are TC3 (R334). -/
def plainTc (c : Nat) : Nat := if c = derailleur then 3 else 0

/-- R265: a write into a region of kind rw, acc or atom makes the task irrevocable. -/
def State.irrevocable (s : State) : State :=
  s.updCore s.cur.core fun x => { x with task := x.task.map fun t => { t with irrevocable := true } }

/-- Does a byte of a virtual store lie in a region of kind rw, acc or atom? -/
def State.storeBinds (s : State) (a : Dbl) (n : Nat) : Bool :=
  match s.task with
  | none => false
  | some t => isVirtual a && t.regions.any fun r =>
      r.space == 0 && r.kind != .rd && r.kind != .wr && r.meets s.cur.core a.toNat n

end Sys2Proof.Machine
end

