-- ==== Sys2Proof/Machine/Integer.lean ====
section
/-! DEFINITION. The sequencer's integer words (R133, R134), IDX (R135), CSRR and CSRW (R123, R124, R136). -/

namespace Sys2Proof.Machine

open Sys2Proof

/-! ## Shared shapes -/

/-- A word with two operands and one result. -/
def State.alu2 (s : State) (a b : Src) (d : Dest) (clk : Nat) (f : Dbl → Dbl → Dbl) : State :=
  s.withOperands [a, b] fun s => s.issue [a, b] clk (some (f (s.opd a) (s.opd b), d))

/-- A word with one operand and one result. -/
def State.alu1 (s : State) (a : Src) (d : Dest) (f : Dbl → Dbl) : State :=
  s.withOperands [a] fun s => s.issue [a] 1 (some (f (s.opd a), d))

/-- Issue clk of DIV and REM (R125). -/
def divClk (t : IntTy) : Nat := if tyWidth t = 64 then 20 else 12

def execAdd (a b : Src) (d : Dest) (ty : IntTy) (s : State) : Result := .next (s.alu2 a b d 1 (aluAdd ty))
def execSub (a b : Src) (d : Dest) (ty : IntTy) (s : State) : Result := .next (s.alu2 a b d 1 (aluSub ty))
def execAnd (a b : Src) (d : Dest) (ty : IntTy) (s : State) : Result := .next (s.alu2 a b d 1 (aluAnd ty))
def execOr (a b : Src) (d : Dest) (ty : IntTy) (s : State) : Result := .next (s.alu2 a b d 1 (aluOr ty))
def execXor (a b : Src) (d : Dest) (ty : IntTy) (s : State) : Result := .next (s.alu2 a b d 1 (aluXor ty))
def execAndn (a b : Src) (d : Dest) (ty : IntTy) (s : State) : Result := .next (s.alu2 a b d 1 (aluAndn ty))
def execShl (a b : Src) (d : Dest) (ty : IntTy) (s : State) : Result :=
  .next (s.alu2 a b d 1 fun x y => aluShl ty x y.toNat)
def execShr (a b : Src) (d : Dest) (ty : IntTy) (s : State) : Result :=
  .next (s.alu2 a b d 1 fun x y => aluShr ty x y.toNat)
def execSar (a b : Src) (d : Dest) (ty : IntTy) (s : State) : Result :=
  .next (s.alu2 a b d 1 fun x y => aluSar ty x y.toNat)
def execRol (a b : Src) (d : Dest) (ty : IntTy) (s : State) : Result :=
  .next (s.alu2 a b d 1 fun x y => aluRol ty x y.toNat)
def execMin (a b : Src) (d : Dest) (ty : IntTy) (s : State) : Result := .next (s.alu2 a b d 1 (aluMin ty))
def execMax (a b : Src) (d : Dest) (ty : IntTy) (s : State) : Result := .next (s.alu2 a b d 1 (aluMax ty))
def execMul (a b : Src) (d : Dest) (ty : IntTy) (s : State) : Result := .next (s.alu2 a b d 3 (aluMul ty))
def execMulh (a b : Src) (d : Dest) (ty : IntTy) (s : State) : Result := .next (s.alu2 a b d 3 (aluMulh ty))
def execDiv (a b : Src) (d : Dest) (ty : IntTy) (s : State) : Result :=
  .next (s.alu2 a b d (divClk ty) (aluDiv ty))
def execRem (a b : Src) (d : Dest) (ty : IntTy) (s : State) : Result :=
  .next (s.alu2 a b d (divClk ty) (aluRem ty))
def execNeg (a : Src) (d : Dest) (ty : IntTy) (s : State) : Result := .next (s.alu1 a d (aluNeg ty))
def execClz (a : Src) (d : Dest) (ty : IntTy) (s : State) : Result := .next (s.alu1 a d (aluClz ty))
def execCtz (a : Src) (d : Dest) (ty : IntTy) (s : State) : Result := .next (s.alu1 a d (aluCtz ty))
def execPopc (a : Src) (d : Dest) (ty : IntTy) (s : State) : Result := .next (s.alu1 a d (aluPopc ty))
def execMov (a : Src) (d : Dest) (ty : IntTy) (s : State) : Result := .next (s.alu1 a d (tyOut ty))

/-- R134: 1 when the 64-bit comparison holds, else 0. -/
def execCmp (a b : Src) (d : Dest) (cc : Cond) (s : State) : Result :=
  .next (s.alu2 a b d 1 fun x y => if condHolds cc x y then 1 else 0)

def execAddi (a : Src) (d : Dest) (imm : Imm 11) (s : State) : Result := .next (s.alu1 a d fun x => x + immDbl imm)
def execAndi (a : Src) (d : Dest) (imm : Imm 11) (s : State) : Result := .next (s.alu1 a d fun x => x &&& immDbl imm)
def execOri (a : Src) (d : Dest) (imm : Imm 11) (s : State) : Result := .next (s.alu1 a d fun x => x ||| immDbl imm)
def execXori (a : Src) (d : Dest) (imm : Imm 11) (s : State) : Result := .next (s.alu1 a d fun x => x ^^^ immDbl imm)
def execShli (a : Src) (d : Dest) (ty : IntTy) (amt : BitVec 6) (s : State) : Result :=
  .next (s.alu1 a d fun x => aluShl ty x amt.toNat)
def execShri (a : Src) (d : Dest) (ty : IntTy) (amt : BitVec 6) (s : State) : Result :=
  .next (s.alu1 a d fun x => aluShr ty x amt.toNat)
def execSari (a : Src) (d : Dest) (ty : IntTy) (amt : BitVec 6) (s : State) : Result :=
  .next (s.alu1 a d fun x => aluSar ty x amt.toNat)

/-- R134: the immediate, sign-extended. -/
def execLi (d : Dest) (imm : Imm 17) (s : State) : Result :=
  .next (s.withOperands [] fun s => s.issue [] 1 (some (immDbl imm, d)))

/-- R134: a when c is not 0, else b. -/
def execSel (c a b : Src) (d : Dest) (s : State) : Result :=
  .next (s.withOperands [c, a, b] fun s =>
    s.issue [a, b] 1 (some (if s.opd c != 0 then s.opd a else s.opd b, d)))

def execExtb (a : Src) (d : Dest) (sgn : Bool) (pos lenM1 : BitVec 6) (s : State) : Result :=
  .next (s.alu1 a d fun x => extractBits x sgn pos.toNat (lenM1.toNat + 1))

def execInsb (a b : Src) (d : Dest) (pos lenM1 : BitVec 6) (s : State) : Result :=
  .next (s.alu2 a b d 1 fun x y => insertBits x y pos.toNat (lenM1.toNat + 1))

/-- R135: BASE + ITER + imm of an active loop level, or Loop fault 5. -/
def execIdx (lv : BitVec 2) (d : Dest) (imm : Imm 15) (s : State) : Result :=
  .next (s.withOperands [] fun s =>
    match (s.seq s.cur.core).loops[lv.toNat]? with
    | none => s.trap 0x05 s.cur.addr 5
    | some l => s.issue [] 1 (some (dbl (l.base + l.iter) + immDbl imm, d)))

/-! ## Purity (R330) -/

/-- What a pure task that no lookup has met holds. -/
def PureInfo.blank : PureInfo := ⟨0, [], [], false, false, false, false, 0, 0⟩

def Task.violate (t : Task) : Task := { t with pureInfo := some { t.pureInfo.getD PureInfo.blank with violated := true } }

/-- The task on a core made a violation of purity. -/
def State.violate (s : State) (c : Nat) : State := s.updCore c fun x => { x with task := x.task.map Task.violate }

/-- R330: a word that a pure task may not issue: with STRICT it traps and the task is marked; without, the task is marked
if the word issues: a cycle has passed, and it does not stall. -/
def State.impure (s : State) (kind reg : Nat) (k : State → State) : State :=
  match (s.core s.cur.core).task with
  | none => k s
  | some t =>
    let c := s.cur.core
    if !t.isPure then k s
    else if t.strict then (s.violate c).trap 0x08 s.cur.addr (dbl (kind + reg * 2 ^ 8))
    else
      let u := k s
      if (u.seq c).stall = 0 ∧ (u.seq c).cyc = (s.seq c).cyc + 1 then u.violate c else u

/-! ## Special registers (R123, R124) -/

def Seq.ocnt (q : Seq) : Nat := q.ld % 16 + q.st % 16 * 2 ^ 4 + q.cp % 64 * 2 ^ 8 + q.mt % 64 * 2 ^ 14

def Seq.xstat (q : Seq) : Nat := (if q.th then 1 else 0) + q.loops.length % 8 * 2 + q.cd % 256 * 2 ^ 4

/-- Wall-clock cycles left in a lease (R42). -/
def State.leaseLeft (s : State) (q : Nat) : Nat := 65536 - (s.wall - (s.quad q).leaseFrom)

/-- The lease register. -/
def State.leaseReg (s : State) (c : Nat) : Nat :=
  if c < 384 ∧ (s.quad (quadOf c)).leaseHolder = some c then
    1 + (if (s.core c).mat.formed then 2 else 0) + (s.quad (quadOf c)).leaseCount % 32 * 4
      + s.leaseLeft (quadOf c) * 2 ^ 16
  else 0

/-- Registers marked varying (R123). -/
def csrVarying (n : Nat) : Bool := n == 0 || (2 ≤ n && n ≤ 8) || n == 0x00B

/-- The value of a special register. What fn, core, quad and wtag return on the Derailleur the manual does not say
(entry 16). -/
def State.csr (s : State) (c n : Nat) : Dbl :=
  let q := s.seq c
  let t := (s.core c).task
  let own (v : Nat) : Dbl := if c = derailleur then s.freeDbl else dbl v
  match n with
  | 0x000 => dbl q.cyc
  | 0x001 => own ((t.map (·.fn)).getD 0)
  | 0x002 => own (c % 24)
  | 0x003 => own (c % 24 / 4)
  | 0x004 => if c = derailleur then 0 else dbl (dieOf c)
  | 0x005 => Config.pkgNumber.setWidth 64
  | 0x006 => own ((t.map fun t => worldTag t.fn t.wq).getD 0)
  | 0x007 => dbl (s.leaseReg c)
  | 0x008 => dbl q.ocnt
  | 0x009 => q.released.setWidth 64
  | 0x00A => dbl q.xstat
  | 0x00B => dbl q.errc
  | 0x010 => q.tvec
  | 0x011 => q.xpc
  | 0x012 => q.xcause
  | 0x013 => q.xaddr
  | 0x014 => q.xword
  | 0x015 => q.xinfo
  | _ => q.shadow.getD (n - 0x020) 0

/-- R136, R330: the value of a special register. -/
def execCsrr (csr : BitVec 10) (d : Dest) (s : State) : Result :=
  let read (s : State) : State := s.useFree.issue [] 1 (some (s.csr s.cur.core csr.toNat, d))
  .next (s.withOperands [] fun s => if csrVarying csr.toNat then s.impure 3 csr.toNat read else read s)

/-- A write of a read-write special register. -/
def Seq.setCsr (q : Seq) (n : Nat) (v : Dbl) : Seq :=
  match n with
  | 0x010 => { q with tvec := v }
  | 0x011 => { q with xpc := v }
  | _ => { q with shadow := q.shadow.set (n - 0x020) v }

/-- R136: a tvec that is neither zero nor inside the code area is Branch target fault. -/
def execCsrw (csr : BitVec 10) (a : Src) (s : State) : Result :=
  .next (s.withOperands [a] fun s =>
    let v := s.opd a
    if csr.toNat = 0x010 ∧ v ≠ 0 ∧ !s.inCode s.cur.core v then s.trap 0x02 v 0
    else (s.issue [a] 1 none).updSeq s.cur.core fun q => q.setCsr csr.toNat v)

end Sys2Proof.Machine
end

