-- ==== Sys2Proof/Machine/Backpedal.lean ====
section
/-! DEFINITION. Backpedal accumulation (R288 to R299): addends on their way to a home, verdicts, residual slots and
their delivery, and the words FLUSHRES and BPQRY. -/

namespace Sys2Proof.Machine

open Sys2Proof

/-! ## Elements (R290, R292, R293) -/

/-- The atomic type of an addend's elements. -/
def accAt : AccTy → AtTy
  | .s64 => .s64
  | .s32 => .s32
  | .f64 => .f64
  | .f32 => .f32
  | .f16x2 => .f16x2
  | .bf16x2 => .bf16x2

def accBytes (t : AccTy) : Nat := atBytes (accAt t)

/-- Sum of two elements: modulo 2^w for integers, one RNE for floats (R292). -/
def accSum (t : AccTy) (a b : Nat) : Nat :=
  match t with
  | .s64 => (a + b) % 2 ^ 64
  | .s32 => (a + b) % 2 ^ 32
  | _ => atFloat (fun F a b => (F.add .rne a b).1) (accAt t) a b

/-- Element i of a line. -/
def lineElem (t : AccTy) (bs : List Byte) (i : Nat) : Nat := leNat ((bs.drop (i * accBytes t)).take (accBytes t))

/-- R293: combination of two addends, element by element. -/
def combine (t : AccTy) (dx : List Byte) (mx : Word) (dy : List Byte) (my : Word) : List Byte × Word :=
  ((List.range (128 / accBytes t)).flatMap fun i =>
      let x := lineElem t dx i
      let y := lineElem t dy i
      leBytes (accBytes t)
        (if mx.getLsbD i && my.getLsbD i then accSum t x y else if my.getLsbD i then y else x),
    mx ||| my)

/-- R293: slot of a virtual line. -/
def resSlot (va : Nat) : Nat :=
  (List.range 10).foldl (fun h i => h ^^^ bits (va / 128) (6 * i) 6) 0

/-! ## The residual unit -/

/-- Does the core's task have residual slots (R45, R293)? -/
def State.hasResid (s : State) (c : Nat) : Bool := ((s.core c).task.map (·.resid)).getD false

/-- Array offset of a slot's bytes (R45). -/
def Core.residAt (x : Core) (i : Nat) : Nat := x.spreq * 8192 - 8192 + 128 * i

def ResTag.blank : ResTag := ⟨false, 0, 0, .s64, 0, 0, 0, 0⟩
def Core.resTag (x : Core) (i : Nat) : ResTag := tget x.res.tags i ResTag.blank
def Core.setTag (x : Core) (i : Nat) (t : ResTag) : Core := { x with res := { x.res with tags := tset i t x.res.tags } }

/-- The slot empties; its bytes are not cleared. -/
def Core.emptySlot (x : Core) (i : Nat) : Core := x.setTag i { x.resTag i with valid := false }

/-- AGE (R294). -/
def Core.slotAge (x : Core) (i : Nat) : Nat := Nat.min 4096 (x.seq.cyc - (x.resTag i).born)

/-- A priority delivery: the slot's contents travel to the captured line, and the slot empties (R293, R295). -/
def State.deliverSlot (s : State) (c i : Nat) : State :=
  let x := s.core c
  let t := x.resTag i
  if !t.valid then s
  else
    let task := x.task
    let r := { Req.blank (.addend c none) (.addend t.ty t.mask true) t.pa 128 with
      data := s.readArray c (x.residAt i) 128, key := t.key, va := t.va, ipa := t.ipa, tc := 2,
      fn := (task.map (·.fn)).getD 0, wq := (task.map (·.wq)).getD 0 }
    (s.send r).updCore c fun x => { x.emptySlot i with res := { (x.emptySlot i).res with prio := x.res.prio + 1 } }

def State.deliverSlots (s : State) (c : Nat) : List Nat → State
  | [] => s
  | i :: is => (s.deliverSlot c i).deliverSlots c is

/-- Every VALID slot is delivered (R295). -/
def State.deliverAll (s : State) (c : Nat) : State := s.deliverSlots c (List.range 64)

/-- Is an addend of the core refused and not yet in its slot? -/
def State.refusedOpen (s : State) (c : Nat) : Bool :=
  s.reqs.any fun r =>
    match r.src, r.kind with
    | .addend k _, .addend .. => k == c
    | _, _ => false

/-- No addend of the core is outside its slots and the memory (R295, R296 step 3). -/
def State.addendsDone (s : State) (c : Nat) : Bool :=
  (s.core c).res.pend == 0 && (s.core c).res.prio == 0 && !s.refusedOpen c

/-- R293 fold_at_issue: the addend takes the residual of its line and type. -/
def State.foldAddend (s : State) (c : Nat) (t : AccTy) (va : Nat) (bs : List Byte) (mask : Word) :
    State × List Byte × Word :=
  let x := s.core c
  let i := resSlot va
  let tag := x.resTag i
  if s.hasResid c && tag.valid && tag.va == va / 128 * 128 && tag.ty == t then
    let r := combine t bs mask (s.readArray c (x.residAt i) 128) tag.mask
    (s.updCore c fun x => x.emptySlot i, r.1, r.2)
  else (s, bs, mask)

/-- R293 on_refusal. -/
def State.holdAddend (s : State) (c : Nat) (r : Req) (t : AccTy) (mask : Word) : State :=
  let i := resSlot r.va
  let line := r.va / 128 * 128
  let tag := (s.core c).resTag i
  let s := if tag.valid && (tag.va != line || tag.ty != t) then s.deliverSlot c i else s
  let x := s.core c
  let tag := x.resTag i
  if tag.valid then
    let m := combine t (s.readArray c (x.residAt i) 128) tag.mask r.data mask
    (s.writeArray c (x.residAt i) m.1).updCore c fun x => x.setTag i { tag with mask := m.2 }
  else
    (s.writeArray c (x.residAt i) r.data).updCore c fun x =>
      x.setTag i ⟨true, line, r.pa, t, mask, x.seq.cyc, r.key, r.ipa⟩

/-- An ACC word counts one addend the less (R290). -/
def Core.addendDone (x : Core) (wid : Option Nat) (req : Nat) : Core :=
  match wid with
  | none => x
  | some w =>
    { x with copy := { x.copy with xfers := x.copy.xfers.map fun f =>
        if f.wid == w then { f with reqs := f.reqs.filter (· != req) } else f } }

/-! ## Verdicts (R290, R291) -/

def Req.isAddend (r : Req) : Bool :=
  match r.kind with
  | .addend .. => true
  | _ => false

def Req.isPriority (r : Req) : Bool :=
  match r.kind with
  | .addend _ _ p => p
  | _ => false

/-- Addends of a line in the accumulate queue. -/
def State.lineCount (s : State) (i line : Nat) : Nat :=
  ((s.slice i).accq.filter fun id => ((s.req id).map fun r => r.pa / 128 == line).getD false).length

/-- An accepted addend enters the accumulate queue and takes its place in its line's order (R273, R274). -/
def State.acceptAddend (s : State) (i : Nat) (r : Req) : State :=
  (s.updSlice i fun x => { x with accq := x.accq ++ [r.id], ops := x.ops ++ [r.id] }).updReq r.id fun r =>
    { r with phase := .accepted }

/-- An addend that cannot cross is refused and held in its slot; where there is none, it is lost and logged. The task's
queue parks with Machine check (R17). -/
def State.loseAddend (s : State) (r : Req) : State :=
  match r.src, r.kind with
  | .addend c wid, .addend t mask p =>
    let back (x : Core) : Core :=
      { x.addendDone wid r.id with res := { x.res with prio := if p then x.res.prio - 1 else x.res.prio } }
    let s := if s.hasResid c then s.holdAddend c r t mask else { s with log := s.log ++ [.lostAddend (r.pa / 128)] }
    let s := (s.dropReq r.id).updCore c back
    s.parkCopy c r
  | _, _ => s.dropReq r.id

/-- Has the home accepted the addend, or will it without a further verdict? -/
def Req.taken (r : Req) : Bool :=
  r.phase == .accepted || r.phase == .prioWait || r.phase == .acks || r.phase == .answered

/-- Addends of a core accepted and unapplied (R290): those it has been told of, and those on whose verdict it waits. -/
def State.unapplied (s : State) (c : Nat) : Nat :=
  (s.core c).res.pend + (s.reqs.filter fun r => r.isAddend && r.src.core == some c && r.taken && !r.told).length

/-- ADDEND_VERDICT: the addend reaches its slice. With 1,023 addends accepted and unapplied a side sends no further one
(R290); an addend goes behind the write-back of its line (R191), an atomic that waits for the line's fill (R274), and, of a
function without ways, to a free staging entry (R280). -/
def canAddendVerdict (id : Nat) (s : State) : Bool :=
  match s.req id with
  | none => false
  | some r =>
    r.phase == .travel && r.isAddend && ((r.src.core.map fun c => decide (s.unapplied c < 1023)).getD true)
      && !s.behindWriteBack r && !s.heldSender r && !s.opFilling (homeIdx r.pa) (r.pa / 128) && s.mayStage (homeIdx r.pa) r

def execAddendVerdict (req : Nat) (s : State) : Result :=
  .next (if canAddendVerdict req s then
      match s.req req with
      | none => s
      | some r =>
        let i := homeIdx r.pa
        let x := s.slice i
        if s.severed r then s.loseAddend r
        else if r.isPriority then
          if x.accq.length < 16 ∧ x.prioWait = [] then s.acceptAddend i r
          else (s.updSlice i fun x => { x with prioWait := x.prioWait ++ [req] }).updReq req fun r => { r with phase := .prioWait }
        else if (s.fn r.fn).acq.toNat ≤ tget x.heldCount r.fn 0 ∨ 4 ≤ s.lineCount i (r.pa / 128)
            ∨ 16 ≤ x.accq.length + x.prioWait.length then
          (s.telemeter r.fn 36 1).updReq req fun r => { r with phase := .verdict false }
        else
          (s.updSlice i fun x => { x with heldCount := tset r.fn (tget x.heldCount r.fn 0 + 1) x.heldCount }).acceptAddend i r
    else s)

/-- PRIORITY_ADDEND_ENTRY (R291): the first waiting priority addend takes a free entry. -/
def canPriorityAddendEntry (i : Nat) (s : State) : Bool :=
  (s.slice i).accq.length < 16
    && (match (s.slice i).prioWait.head?.bind s.req with
      | none => false
      | some r => s.mayStage i r)

def execPriorityAddendEntry (slice : Nat) (s : State) : Result :=
  .next (if canPriorityAddendEntry slice s then
      match (s.slice slice).prioWait.head?.bind s.req with
      | none => s
      | some r =>
        (s.updSlice slice fun x => { x with prioWait := x.prioWait.filter (· != r.id) }).acceptAddend slice r
    else s)

/-- VERDICT_RECEIVED (R290). -/
def canVerdictReceived (id : Nat) (s : State) : Bool :=
  match s.req id with
  | none => false
  | some r => r.isAddend && !r.told
      && (r.phase == .verdict false || r.phase == .accepted || r.phase == .acks || r.phase == .answered)

def execVerdictReceived (req : Nat) (s : State) : Result :=
  .next (if canVerdictReceived req s then
      match s.req req with
      | none => s
      | some r =>
        match r.src with
        | .addend c wid =>
          if r.phase = .verdict false then s.updReq req fun r => { r with phase := .returned, told := true }
          else
            (s.updReq req fun r => { r with told := true }).updCore c fun x =>
              let x := x.addendDone wid req
              { x with res := { x.res with pend := x.res.pend + 1 } }
        | _ => s
    else s)

/-- REFUSED_ADDEND_HELD (R290, R293): the refused addend has been decrypted. Without residual slots it is sent again at
priority. -/
def canRefusedAddendHeld (id : Nat) (s : State) : Bool :=
  match s.req id with
  | none => false
  | some r => r.isAddend && r.phase == .returned

def execRefusedAddendHeld (req : Nat) (s : State) : Result :=
  .next (if canRefusedAddendHeld req s then
      match s.req req with
      | none => s
      | some r =>
        match r.src, r.kind with
        | .addend c wid, .addend t mask _ =>
          if s.hasResid c then ((s.holdAddend c r t mask).dropReq req).updCore c fun x => x.addendDone wid req
          else
            (s.updReq req fun r => { r with phase := .travel, told := false, kind := .addend t mask true }).updCore c fun x =>
              { x with res := { x.res with prio := x.res.prio + 1 } }
        | _, _ => s
    else s)

/-! ## Application (R292) -/

/-- ADDEND_APPLY: the first operation on its line. -/
def canAddendApply (id : Nat) (s : State) : Bool :=
  match s.req id with
  | none => false
  | some r =>
    r.isAddend && r.phase == .accepted
      && ((s.slice (homeIdx r.pa)).ops.find? fun k => ((s.req k).map fun q => q.pa / 128 == r.pa / 128).getD false) == some id

/-- The elements of an addend whose mask bit is set are written. -/
def State.applyElems (s : State) (r : Req) (t : AccTy) (mask : Word) : List Nat → State
  | [] => s
  | i :: is =>
    let n := accBytes t
    let a := r.pa / 128 * 128 + i * n
    let s := if mask.getLsbD i then
        s.writePhys r.key a (leBytes n (accSum t (leNat (s.readPhys r.key a n)) (lineElem t r.data i)))
      else s
    s.applyElems r t mask is

/-- R276: an addend's line in the slice's ways. -/
def State.accWays (s : State) (r : Req) : State :=
  let cfg := s.wayCfg r.fn r.tc
  let i := homeIdx r.pa
  match (s.slice i).lineIn (r.pa / 128) with
  | some l => s.updSlice i fun x => x.hit l cfg.mask true
  | none =>
    let s := s.hbmRead r.fn
    if cfg.mask = 0 ∨ cfg.apol = 1 then s.hbmWritten r.fn
    -- a fill of the line in flight brings it in
    else if (s.slice i).fills.any fun f => f.line == r.pa / 128 then s
    else s.install i r.fn (r.pa / 128) cfg.mask (decide (cfg.apol = 2)) true false

def execAddendApply (req : Nat) (s : State) : Result :=
  .next (if canAddendApply req s then
      match s.req req with
      | none => s
      | some r =>
        match r.kind with
        | .addend t mask p =>
          let s := s.updSlice (homeIdx r.pa) fun x =>
            { x with
              accq := x.accq.filter (· != req)
              ops := x.ops.filter (· != req)
              heldCount := if p then x.heldCount else tset r.fn (tget x.heldCount r.fn 0 - 1) x.heldCount }
          if s.poisoned r.pa then s.finish { r with poison := true }
          else
            let s := (((s.countRemote r true).meterTo r.pending r.fn 15 1).accWays r).applyElems r t mask (List.range (128 / accBytes t))
            let (s, dies, w) := s.writeHome r.key r.pa [] req
            s.settleReq r dies w
        | _ => s
    else s)

/-- APPLY_NOTICE (R290, R292): the notice follows the verdict. -/
def canApplyNotice (id : Nat) (s : State) : Bool :=
  match s.req id with
  | none => false
  | some r => r.isAddend && r.phase == .answered && r.told

def execApplyNotice (req : Nat) (s : State) : Result :=
  .next (if canApplyNotice req s then
      match s.req req with
      | none => s
      | some r =>
        match r.src with
        | .addend c _ =>
          let s := (s.dropReq req).updCore c fun x =>
            { x with res := { x.res with pend := x.res.pend - 1, prio := if r.isPriority then x.res.prio - 1 else x.res.prio } }
          -- R292: a notice that carries poison parks the queue with Machine check at the ACC
          if r.poison then s.parkCopy c r else s
        | _ => s
    else s)

/-- RESIDUAL_AGE_EXPIRY (R294). -/
def canResidualAgeExpiry (core slot : Nat) (s : State) : Bool :=
  ((s.core core).resTag slot).valid && (s.core core).freezes == []
    && !((s.core core).task.any fun t => t.parked || t.stopped.isSome) && 4096 ≤ (s.core core).slotAge slot

def execResidualAgeExpiry (core slot : Nat) (s : State) : Result :=
  .next (if canResidualAgeExpiry core slot s then s.deliverSlot core slot else s)

/-! ## FLUSHRES and BPQRY (R296, R297) -/

/-- The current word has taken its tokens already. -/
def State.tokensTaken (s : State) : State :=
  { s with cur := { s.cur with chain := { s.cur.chain with wp := false, wn := false } } }

/-- FLUSHRES: phase 1 waits for the store commands, phase 2 for the notices (R296). -/
def execFlushres (a : Option Src) (s : State) : Result :=
  .next (s.withOperands a.toList fun s =>
    let c := s.cur.core
    let q := s.seq c
    let v := (a.map s.opd).getD 0
    if q.phase = 0 then
      if a.isSome && !formOk v then s.trap 0x15 v 0
      else
        (s.updCore c fun x =>
          let x := x.takeTokens .seq s.cur.chain
          { x with seq := { x.seq with phase := 1 } }).stallSeq 14
    else if q.phase = 1 then
      if (s.core c).queue .store != [] then s.stallSeq 14
      else
        let s :=
          match a with
          | none => s.deliverAll c
          | some _ =>
            let t := (s.core c).resTag (resSlot v.toNat)
            if t.va = v.toNat / 128 * 128 then s.deliverSlot c (resSlot v.toNat) else s
        (s.updSeq c fun q => { q with phase := 2 }).stallSeq 14
    else if s.addendsDone c then s.tokensTaken.issue a.toList 1 none
    else s.stallSeq 14)

/-- BPQRY.mask: the VALID slots. -/
def Core.slotMask (x : Core) : BitVec 64 :=
  (List.range 64).foldl (fun m i => if (x.resTag i).valid then m ||| BitVec.twoPow 64 i else m) 0

/-- TY codes of R288. -/
def accCode : AccTy → Nat
  | .s64 => 0
  | .s32 => 1
  | .f64 => 2
  | .f32 => 3
  | .f16x2 => 4
  | .bf16x2 => 5

/-- BPQRY.slot: a slot's tag. -/
def Core.slotWord (x : Core) (i : Nat) : Dbl :=
  let t := x.resTag i
  dbl (bits t.va 7 50 * 2 ^ 7 + (if t.valid then 8 else 0) + accCode t.ty
    + (if t.valid then Nat.min 127 (x.slotAge i / 64) else 0) * 2 ^ 57)

def execBpqry (kind : BpQuery) (d : Dest) (s : State) : Result :=
  .next (match kind with
    | .mask => s.withOperands [] fun s => s.issue [] 1 (some (if s.hasResid s.cur.core then (s.core s.cur.core).slotMask else 0, d))
    | .slot a => s.withOperands [a] fun s =>
        s.issue [a] 1 (some ((s.core s.cur.core).slotWord ((s.opd a).toNat % 64), d))
    | .pend => s.withOperands [] fun s =>
        let r := (s.core s.cur.core).res
        s.issue [] 1 (some (dbl (r.pend % 1024 + r.prio % 128 * 2 ^ 10), d)))

end Sys2Proof.Machine
end

