-- ==== Sys2Proof/Machine/Probe.lean ====
section
/-! DEFINITION. The probed cache region (R188 to R195): PROBE, PWB and PINV, fills, write-backs, and the two
watermark words of the sequencer, WAITX and XWR (R163, R164). -/

namespace Sys2Proof.Machine

open Sys2Proof

/-! ## Lines -/

/-- P, the array offset at which the region starts (R188). -/
def Core.probeBase (x : Core) : Nat := x.spreq * 8192
/-- S, the number of sets. -/
def Core.probeSets (x : Core) : Nat := (0x50000 - x.probeBase) / 1024
/-- Slot offset of a way. -/
def Core.probeSlot (x : Core) (set way : Nat) : Nat := x.probeBase + 1024 * set + 256 * way
/-- Set of a line's slot. -/
def Core.slotSet (x : Core) (slot : Nat) : Nat := (slot - x.probeBase) / 1024

/-- The line that holds a block (R188). -/
def Core.lineOf (x : Core) (fn : Nat) (root : Dbl) (block : Nat) : Option PLine :=
  x.copy.lines.find? fun l => l.fn == fn && l.root == root && l.block == block

def Core.lineAt (x : Core) (slot : Nat) : Option PLine := x.copy.lines.find? fun l => l.slot == slot

def Core.updLine (x : Core) (slot : Nat) (f : PLine → PLine) : Core :=
  { x with copy := { x.copy with lines := x.copy.lines.map fun l => if l.slot == slot then f l else l } }

/-- The line becomes invalid. -/
def Core.dropLine (x : Core) (slot : Nat) : Core :=
  { x with copy := { x.copy with lines := x.copy.lines.filter fun l => l.slot != slot } }

/-- The line becomes the most recently used of its set. -/
def Core.mru (x : Core) (slot : Nat) : Core :=
  let r := ((x.lineAt slot).map (·.rank)).getD 0
  { x with copy := { x.copy with lines := x.copy.lines.map fun l =>
      if l.slot == slot then { l with rank := 0 }
      else if (x.slotSet l.slot == x.slotSet slot && decide (l.rank < r)) then { l with rank := l.rank + 1 }
      else l } }

/-- The rank behind every line of a set. -/
def Core.freshRank (x : Core) (set : Nat) : Nat :=
  (x.copy.lines.filter fun l => x.slotSet l.slot == set).foldl (fun n l => Nat.max n (l.rank + 1)) 0

/-- Runs of dirty bytes within one 128-byte half of a line: offset and length, from byte `i` on. -/
def dirtyRuns (d : BitVec 256) : Nat → Nat → List (Nat × Nat)
  | 0, _ => []
  | n + 1, i =>
    if d.getLsbD i then
      match dirtyRuns d n (i + 1) with
      | (j, k) :: r => if j = i + 1 ∧ j % 128 ≠ 0 then (i, k + 1) :: r else (i, 1) :: (j, k) :: r
      | [] => [(i, 1)]
    else dirtyRuns d n (i + 1)

/-- Write-back requests of runs of a line. -/
def State.sendRuns (s : State) (c grp : Nat) (l : PLine) : List (Nat × Nat) → State
  | [] => s
  | (o, n) :: r =>
    let id := s.nextId
    let q := { Req.blank (.probeWb c) .write (l.phys + o) n with
      data := s.readArray c (l.slot + o) n, key := if isHbm (l.phys + o) then (s.fn l.fn).key else 0, fn := l.fn, tc := 0 }
    let s := (s.send q).updCore c fun x => { x with copy := { x.copy with wbs := x.copy.wbs ++ [(id, l.block, grp)] } }
    s.sendRuns c grp l r

/-- The dirty bytes of a line are sent (R191, R193); the line is clean. -/
def State.writeBack (s : State) (c grp : Nat) (l : PLine) : State :=
  (s.sendRuns c grp l (dirtyRuns l.dirty 256 0)).updCore c fun x => x.updLine l.slot fun l => { l with dirty := 0 }

def State.writeBackList (s : State) (c grp : Nat) : List PLine → State
  | [] => s
  | l :: ls => (s.writeBack c grp l).writeBackList c grp ls

/-- Lines of the core that are valid and dirty. -/
def Core.dirtyLines (x : Core) : List PLine := x.copy.lines.filter fun l => l.state == .valid && l.dirty != 0

/-- Every dirty line is written back (R151, R194). -/
def State.writeBackAll (s : State) (c : Nat) : State := s.writeBackList c 0 (s.core c).dirtyLines

/-! ## PROBE (R191) -/

/-- The way that a miss takes: the lowest invalid way, else the least recently used that is not pending. -/
def Core.probeWay (x : Core) (set : Nat) : Option Nat :=
  let line (w : Nat) : Option PLine := x.lineAt (x.probeSlot set w)
  match (List.range 4).find? fun w => (line w).isNone with
  | some w => some w
  | none =>
    ((List.range 4).filter fun w => ((line w).map fun l => l.state != .pending).getD false).foldl
      (fun best w =>
        match best with
        | none => some w
        | some b => if ((line b).map (·.rank)).getD 0 < ((line w).map (·.rank)).getD 0 then some w else some b) none

/-- A fill of both 128-byte lines of a block (R191). -/
def State.queueFill (s : State) (c slot fn : Nat) (phys va : Nat) (halves : List Nat) : State :=
  let q (i : Nat) := { Req.blank (.probeFill c slot i) .read (phys + 128 * i) 128 with
    key := s.keyAt c phys, fn := fn, tc := 0, va := va + 128 * i }
  let a := s.nextId
  (halves.foldl (fun (s : State) i => s.sendRead (q i)) s).updCore c fun x =>
    x.updLine slot fun l => { l with reqs := l.reqs ++ (List.range halves.length).map (a + ·), unsent := [] }

/-- Intermediate address that a core's TLB holds for a virtual address. -/
def State.ipaOf (s : State) (c fn : Nat) (root : Dbl) (va : Nat) : Nat :=
  match ((s.core c).tlb ++ (s.die (dieOf c)).tlb).find? (tlbHit fn root va) with
  | some e => e.ipa + (va - e.va)
  | none => 0

/-- A miss fills a line and branches (R191). -/
def State.probeMiss (s : State) (a : Src) (d : Dest) (target : Dbl) (t : Task) (root : Dbl) (va phys slot : Nat)
    (old : Option PLine) : State :=
  let c := s.cur.core
  let block := va / 256
  let ipa := s.ipaOf c t.fn root (block * 256)
  let s :=
    match old with
    | some (l : PLine) => if l.state == PState.valid && l.dirty != 0 then s.writeBack c 0 l else s
    | none => s
  let s := s.updCore c fun x =>
    let r := ((x.lineAt slot).map PLine.rank).getD (x.freshRank (x.slotSet slot))
    let x := x.dropLine slot
    let l : PLine := ⟨slot, t.fn, root, block, phys, ipa, 0, r, .pending, [], []⟩
    ({ x with copy := { x.copy with lines := l :: x.copy.lines } } : Core).mru slot
  let s := s.queueFill c slot t.fn phys (block * 256) [0, 1]
  let s := s.updSeq c fun q => { q with ld := q.ld + 1 }
  (s.issueAt [a] 2 (some (dbl slot, d)) target).updSeq c fun q => { q with fell := false }

def execProbe (a : Src) (d : Dest) (off : Imm 6) (s : State) : Result :=
  .next (s.withOperands [a] fun s =>
    let c := s.cur.core
    let v := s.opd a
    let target := s.cur.addr + 4 * immDbl off
    if !isVirtual v || !formOk v then s.trap 0x15 v 0
    else
      match s.scalar v 1 Need.read [.rd, .rw] with
      | (s, .error (cause, addr, info)) => s.trap cause addr (dbl info)
      | (s, .ok pa) =>
        match (s.core c).task with
        | none => s.trap 0x16 v 0
        | some t =>
          let root := s.rootOf t.fn t.wq
          let x := s.core c
          let block := v.toNat / 256
          let set := block % x.probeSets
          match x.lineOf t.fn root block with
          | some l =>
            if l.state = .valid ∨ l.state = .pending then
              (s.updCore c fun x => x.mru l.slot).issue [a] 1 (some (dbl l.slot, d))
            else if !s.inCode c target then s.trap 0x02 target 0
            else if x.seq.ld = 15 then s.stallSeq 8
            -- R191: a retained line is refilled in place
            else s.probeMiss a d target t root v.toNat (pa - v.toNat % 256) l.slot none
          | none =>
            if !s.inCode c target then s.trap 0x02 target 0
            else if x.seq.ld = 15 then s.stallSeq 8
            else
              match x.probeWay set with
              | none => s.stallSeq 8
              | some w =>
                let slot := x.probeSlot set w
                s.probeMiss a d target t root v.toNat (pa - v.toNat % 256) slot (x.lineAt slot))

/-! ## Fills (R191, R192) -/

/-- The fill's answered requests. -/
def State.fillReqs (s : State) (l : PLine) : List Req := l.reqs.filterMap fun id =>
  match s.req id with
  | some r => if r.phase = .answered then some r else none
  | none => none

def canProbeFillComplete (core slot : Nat) (s : State) : Bool :=
  match (s.core core).lineAt slot with
  | none => false
  | some l => l.state == .pending && l.reqs != [] && l.unsent == [] && (s.fillReqs l).length == l.reqs.length

/-- Bytes of a fill enter the core's array. -/
def State.fillBytes (s : State) (c slot : Nat) : List Req → State
  | [] => s
  | r :: rs =>
    let o := match r.src with
      | .probeFill _ _ i => 128 * i
      | _ => 0
    (s.writeArray c (slot + o) r.result).fillBytes c slot rs

/-- For each byte of a range, the last store in flight that writes it (R138). -/
def Seq.forward (q : Seq) (pa len : Nat) : List (Nat × Byte) :=
  (List.range len).filterMap fun i =>
    (q.stores.reverse.find? fun p => p.addr.toNat ≤ pa + i && pa + i < p.addr.toNat + p.bytes.length).map fun p =>
      (i, p.bytes.getD (pa + i - p.addr.toNat) 0)

def State.overlay (s : State) (c slot : Nat) : List (Nat × Byte) → State
  | [] => s
  | (i, b) :: r => (s.writeArray c (slot + i) [b]).overlay c slot r

/-- The load reads a block, and its data is not there. -/
def Landing.waitsOn (l : Landing) (block : Nat) : Bool := !l.arrived && isVirtual l.addr && l.addr.toNat / 256 == block

/-- Loads that wait on a pending line take their bytes when it becomes valid (R192). -/
def Landing.fromLine (l : Landing) (block : Nat) (open_ : Bool) (bytes : List Byte) (poison : Bool) : Landing :=
  if !open_ && l.waitsOn block then
    { l with data := BitVec.ofNat 128 (leNat (mergeForward bytes l.forward)), arrived := true, poison := poison }
  else l

/-- Is a request of the landing entry in flight? -/
def State.landingOpen (s : State) (c id : Nat) : Bool :=
  s.reqs.any fun r =>
    match r.src with
    | .land k i => k == c && i == id
    | .atomic k (some i) _ _ => k == c && i == id
    | _ => false

/-- PROBE_FILL_COMPLETE (R191): the line becomes valid and ld falls. What a fill that brings poison leaves, the manual does
not say: the line becomes invalid, ld falls, and the loads that wait on it land poisoned data, so that the domain freezes
and the queue parks at the first of them as it lands (R137; entry 67). -/
def execProbeFillComplete (core slot : Nat) (s : State) : Result :=
  .next (if canProbeFillComplete core slot s then
      match (s.core core).lineAt slot with
      | none => s
      | some l =>
        let rs := s.fillReqs l
        let poison := rs.any (·.poison)
        let s := if poison then s else s.fillBytes core slot rs
        -- bytes of stores in flight stay in front of the fill (R138)
        let s := if poison then s else s.overlay core slot ((s.seq core).forward l.phys 256)
        let s := { s with reqs := s.reqs.filter fun r => !l.reqs.contains r.id }
        let opens := ((s.seq core).landing.map (·.id)).filter (s.landingOpen core)
        let s := s.updCore core fun x =>
          let x := if poison then x.dropLine slot else x.updLine slot fun l => { l with state := .valid, reqs := [] }
          let x := (((x.seq.landing.filter fun e => !opens.contains e.id && e.waitsOn l.block).map (·.id)).foldl Core.unwait x)
          { x with seq := { x.seq with
              ld := x.seq.ld - 1
              landing := x.seq.landing.map fun e =>
                e.fromLine l.block (opens.contains e.id) (s.readArray core (slot + e.addr.toNat % 256) 8) poison } }
        s.thaw core .lateLanding
    else s)

/-! ## Fills at a freeze stop (R197) -/

/-- Half of a block that a request reads. -/
def Req.half (r : Req) : Nat :=
  match r.src with
  | .probeFill _ _ i => i
  | _ => 0

/-- Requests of fills that have not left are left for the restore; whether one that could still be held back has left is
open. -/
def State.withdrawFill (s : State) (c : Nat) (l : PLine) : State :=
  let rs := l.reqs.filterMap s.req
  let left := rs.length - (rs.reverse.takeWhile fun r => r.phase == .travel).length
  let out := rs.drop (left + s.freeNat % (rs.length - left + 1))
  let ids := out.map (·.id)
  let s := { s.useFree with reqs := s.reqs.filter fun r => !ids.contains r.id }
  s.updCore c fun x => x.updLine l.slot fun l =>
    { l with reqs := l.reqs.filter fun i => !ids.contains i, unsent := l.unsent ++ out.map Req.half }

def State.withdrawFills (s : State) (c : Nat) : State :=
  ((s.core c).copy.lines.filter fun l => l.state == .pending).foldl (fun s l => s.withdrawFill c l) s

/-- The granules of an unfinished fill that have come stand in the array; a half that came poisoned is to be requested
again. -/
def State.recordFill (s : State) (c : Nat) (l : PLine) : State :=
  let rs := l.reqs.filterMap s.req
  let s := s.fillBytes c l.slot (rs.filter fun r => !r.poison)
  let s := { s with reqs := s.reqs.filter fun r => !l.reqs.contains r.id }
  s.updCore c fun x => x.updLine l.slot fun l =>
    { l with reqs := [], unsent := l.unsent ++ (rs.filter (·.poison)).map Req.half }

/-- At the restore each fill requests its missing granules again, from where its block lies now. -/
def State.refills (s : State) (c : Nat) (t : Task) : State :=
  ((s.core c).copy.lines.filter fun l => l.state == .pending).foldl (fun (s : State) l =>
    let va := l.block * 256
    match s.translate (.seq c) t.fn l.root va Need.read with
    | (s, .ok e) =>
      (s.updCore c fun x => x.updLine l.slot fun l => { l with phys := e.phys va }).queueFill c l.slot t.fn (e.phys va) va l.unsent
    | (s, .error _) => s) s

/-! ## PWB and PINV (R193) -/

/-- Lines that a PWB or PINV names: those of the task's function and root, or the line of one block. -/
def State.namedLines (s : State) (t : Task) (block : Option Nat) : List PLine :=
  (s.core s.cur.core).copy.lines.filter fun l =>
    l.fn == t.fn && l.root == s.rootOf t.fn t.wq
      && (match block with
        | none => true
        | some b => l.block == b)

/-- Write-backs start under one group; the lines are kept clean, or dropped. A retained line is made invalid. -/
def State.pushBack (s : State) (marks : List Src) (ls : List PLine) (drop : Bool) : State :=
  let c := s.cur.core
  if ls.any fun l => l.state == .pending then s.stallSeq 14
  else
    let dirty := ls.filter fun l => l.state == .valid && l.dirty != 0
    if dirty ≠ [] ∧ (s.seq c).st = 15 then s.stallSeq 9
    else
      let grp := s.nextId + 1
      let s := s.useId.writeBackList c grp dirty
      let s := if dirty = [] then s else s.updSeq c fun q => { q with st := q.st + 1 }
      let gone := (ls.filter fun l => drop || l.state == .retained).map (·.slot)
      let s := s.updCore c fun x =>
        { x with copy := { x.copy with lines := x.copy.lines.filter fun l => !gone.contains l.slot } }
      s.issue marks 1 none

/-- PWB and PINV: `a` is checked and translated as by PROBE, but needs no footprint. -/
def State.pwbInv (a : Option Src) (drop : Bool) (s : State) : State :=
  s.withOperands a.toList fun s =>
    match s.task with
    | none => s.trap 0x16 s.cur.addr 0
    | some t =>
      match a with
      | none => s.pushBack [] (s.namedLines t none) drop
      | some a =>
        let v := s.opd a
        if !isVirtual v || !formOk v then s.trap 0x15 v 0
        else
          match s.translate (.seq s.cur.core) t.fn (s.rootOf t.fn t.wq) v.toNat Need.read with
          | (s, .error f) => s.trap f.cause v (dbl f.info)
          | (s, .ok _) => s.pushBack [a] (s.namedLines t (some (v.toNat / 256))) drop

def execPwb (a : Option Src) (s : State) : Result := .next (s.pwbInv a false)
def execPinv (a : Option Src) (s : State) : Result := .next (s.pwbInv a true)

/-! ## Watermarks (R163, R164) -/

/-- WAITX: (int32)(xw - a) > 0. -/
def execWaitx (ch : BitVec 3) (a : Src) (d : Dest) (s : State) : Result :=
  .next (s.withOperands [a] fun s =>
    let xw := (s.core s.cur.core).copy.xw.getD ch.toNat 0
    if 0 < (xw - (s.opd a).setWidth 32).toInt then s.issue [a] 1 (some (xw.setWidth 64, d)) else s.stallSeq 13)

def execXwr (ch : BitVec 3) (d : Dest) (s : State) : Result :=
  .next (s.withOperands [] fun s =>
    let x := (s.core s.cur.core).copy
    s.issue [] 1 (some ((x.nxt.getD ch.toNat 0) ++ (x.xw.getD ch.toNat 0), d)))

end Sys2Proof.Machine
end

