-- ==== Sys2Proof/Machine/Memory.lean ====
section
/-! DEFINITION. The sequencer's scalar accesses: LD and ST (R127, R137, R138, R192), the hub atomics (R281 to R285) and
the monitors (R286, R287). -/

namespace Sys2Proof.Machine

open Sys2Proof

/-! ## The probe line of an access (R192) -/

/-- What the probe region holds of the block of a virtual address. -/
def State.scalarLine (s : State) (a : Dbl) : Option PLine :=
  match s.task with
  | none => none
  | some t => if isVirtual a then (s.core s.cur.core).lineOf t.fn (s.rootOf t.fn t.wq) (a.toNat / 256) else none

/-- R192: a retained line is dropped. -/
def State.dropRetained (s : State) (l : Option PLine) : State :=
  match l with
  | some l => if l.state == PState.retained then s.updCore s.cur.core fun x => x.dropLine l.slot else s
  | none => s

/-- Bytes written into a valid line: they are dirty, and stores in flight that cover them give way to them. -/
def State.writeLine (s : State) (l : PLine) (a : Nat) (bs : List Byte) : State :=
  let c := s.cur.core
  let o := a % 256
  let mask := (BitVec.ofNat 256 (2 ^ bs.length - 1)) <<< o
  let newer (p : PendStore) : PendStore :=
    { p with bytes := p.bytes.mapIdx fun i b =>
        let x := p.addr.toNat + i
        if l.phys + o ≤ x ∧ x < l.phys + o + bs.length then bs.getD (x - (l.phys + o)) b else b }
  (s.writeArray c (l.slot + o) bs).updCore c fun x =>
    let x := x.updLine l.slot fun l => { l with dirty := l.dirty ||| mask }
    { x with seq := { x.seq with stores := x.seq.stores.map newer } }

/-- The core's last atomic is on its way to bytes of the core's own array: a plain access to them waits until it has
arrived, so that the sequencer's accesses keep their order there (R87, R139). -/
def State.portFirst (s : State) (pa n : Nat) : Bool :=
  let c := s.cur.core
  isArray pa && arrayCore pa == c
    && (match (s.seq c).atomicReq.bind s.req with
      | some r => r.phase == .travel && decide (r.pa < pa + n) && decide (pa < r.pa + r.len)
      | none => false)

/-! ## LD (R137) -/

/-- The load issues: it takes a landing entry. -/
def State.land (s : State) (marks : List Src) (kind : LandKind) (a : Dbl) (d : Dest) (slot : Nat) (data : Option (List Byte))
    (fwd : List (Nat × Byte)) : State :=
  let wid := s.nextId
  let e : Landing :=
    { id := wid, pc := s.cur.addr, kind := kind, addr := a, data := BitVec.ofNat 128 (leNat (data.getD [])), ok := true,
      due := (s.seq s.cur.core).cyc + slot, arrived := data.isSome, poison := false, dest := d, wid := wid, forward := fwd }
  (s.issueOpen marks).updSeq s.cur.core fun q => { q with landing := q.landing ++ [e] }

/-- Fields of a request of the current word. -/
def State.scalarReq (s : State) (src : ReqSrc) (kind : ReqKind) (pa len tc : Nat) (a : Dbl) : Req :=
  let c := s.cur.core
  { Req.blank src kind pa len with
    key := s.keyAt c pa, fn := s.curFn, wq := s.curWq, tc := if c = derailleur then 3 else tc, va := a.toNat }

/-- R137 and R192 from the landing entry on. -/
def State.loadFrom (s : State) (base : Src) (d : Dest) (sz : LdSz) (slot : Nat) (a : Dbl) (pa : Nat) : State :=
  let c := s.cur.core
  let n := ldBytes sz
  let s := s.taintRead pa
  if isArray pa && arrayCore pa == c then
    s.land [base] (.load sz) a d slot (some (s.readArray c ((pa - 2 ^ 52) % 2 ^ 19) n)) []
  else
    let fwd := (s.seq c).forward pa n
    let send (s : State) : State :=
      let id := s.nextId
      let s := s.land [base] (.load sz) a d slot none fwd
      s.sendRead (s.scalarReq (.land c id) .read pa n 0 a)
    match s.scalarLine a with
    | some l =>
      match l.state with
      | .valid => s.land [base] (.load sz) a d slot (some (s.readArray c (l.slot + a.toNat % 256) n)) []
      | .pending => s.land [base] (.load sz) a d slot none fwd
      | _ => send (s.dropRetained (some l))
    | none => send s

def execLd (base : Src) (d : Dest) (sz : LdSz) (slot : BitVec 8) (off : Imm 0) (s : State) : Result :=
  .next (s.withOperands [base] fun s =>
    let c := s.cur.core
    let a := s.opd base + immDbl off
    let n := ldBytes sz
    match s.scalar a n Need.read [.rd, .rw] with
    | (s, .error (cause, addr, info)) => s.trap cause addr (dbl info)
    | (s, .ok pa) =>
      if s.regionWait c a n [.wr, .rw, .acc, .atom] then s.stallSeq 7
      else if 16 ≤ (s.seq c).landing.length then s.stallSeq 8
      else if s.portFirst pa n then s.stallSeq 15
      else s.loadFrom base d sz slot.toNat a pa)

/-! ## ST (R138) -/

/-- A store that leaves the core: st rises and a request travels. -/
def State.storeOut (s : State) (marks : List Src) (a : Dbl) (pa : Nat) (bs : List Byte) : State :=
  let c := s.cur.core
  let wid := s.nextId
  let s := s.issueOpen marks
  let id := s.nextId
  let s := s.send { s.scalarReq (.store c wid) .write pa bs.length 0 a with data := bs }
  s.updSeq c fun q => { q with st := q.st + 1, stores := q.stores ++ [⟨wid, s.cur.addr, dbl pa, bs, [id]⟩] }

/-- R138 and R192 once every check has passed. -/
def State.storeTo (s : State) (marks : List Src) (a : Dbl) (pa : Nat) (bs : List Byte) : State :=
  let c := s.cur.core
  let s := if s.storeBinds a bs.length then s.irrevocable else s
  if isArray pa && arrayCore pa == c then
    ((s.writeArray c ((pa - 2 ^ 52) % 2 ^ 19) bs).fireLine pa).issue marks 1 none
  else
    match s.scalarLine a with
    | some l =>
      match l.state with
      | .valid => (s.writeLine l a.toNat bs).issue marks 1 none
      | .pending => s.stallSeq 8
      | _ => (s.dropRetained (some l)).storeOut marks a pa bs
    | none => s.storeOut marks a pa bs

def execSt (base data : Src) (sz : StSz) (off : Imm 0) (s : State) : Result :=
  .next (s.withOperands [base, data] fun s =>
    let c := s.cur.core
    let a := s.opd base + immDbl off
    let n := stBytes sz
    match s.scalar a n Need.write [.wr, .rw] with
    | (s, .error (cause, addr, info)) => s.trap cause addr (dbl info)
    | (s, .ok pa) =>
      if s.regionWait c a n [.rd, .wr, .rw, .acc, .atom] then s.stallSeq 7
      else if (s.seq c).st = 15 then s.stallSeq 9
      else if s.portFirst pa n then s.stallSeq 15
      else s.storeTo [base, data] a pa (leBytes n (s.opd data).toNat))

/-! ## Atomics (R281 to R285) -/

/-- R284: atomics that host memory takes. -/
def hostAtomic : AtOp → Bool
  | .ld | .st | .add | .swp | .cas | .cas128 => true
  | .and | .or | .xor | .min | .max | .fadd | .fmin | .fmax => false

/-- Permissions and region kinds of an atomic (R73, R285). -/
def atNeed : AtOp → Need
  | .ld => Need.atomicRead
  | _ => Need.atomicRmw

def atKinds : AtOp → List RegKind
  | .ld => [.rd, .rw, .atom]
  | _ => [.rw, .atom]

/-- R194: the probe line of an atomic's block is written back and made invalid. -/
def State.flushLine (s : State) (l : PLine) : State :=
  let c := s.cur.core
  let s := if l.dirty != 0 then s.writeBack c 0 l else s
  s.updCore c fun x => x.dropLine l.slot

def State.flushBlock (s : State) (a : Dbl) : State :=
  match s.scalarLine a with
  | some l => s.flushLine l
  | none => s

/-- Is the line of the access being filled? -/
def State.linePending (s : State) (a : Dbl) : Bool := ((s.scalarLine a).map fun l => l.state == PState.pending).getD false

/-- An atomic (R283, R285): `v` and `x` are its operands; `res` is what lands, where and when. -/
def State.atomic (s : State) (a : Src) (marks : List Src) (op : AtOp) (ty : AtTy) (sc : Bool) (v x : State → BitVec 128)
    (res : Option (LandKind × Dest × Nat)) : State :=
  s.withOperands marks fun s =>
    s.impure 1 0 fun s =>
      let c := s.cur.core
      let addr := s.opd a
      let n := atSize op ty
      match s.scalar addr n (atNeed op) (atKinds op) with
      | (s, .error (cause, f, info)) => s.trap cause f (dbl info)
      | (s, .ok pa) =>
        if isHost pa && !hostAtomic op then s.trap 0x16 addr 0
        else if (s.seq c).atomicReq.isSome then s.stallSeq 15
        else if res.isSome && 16 ≤ (s.seq c).landing.length then s.stallSeq 8
        else if s.linePending addr then s.stallSeq 8
        else
          let v := v s
          let x := x s
          let s := (s.flushBlock addr).irrevocable
          let wid := s.nextId
          let s :=
            match res with
            | some (kind, d, slot) => s.land marks kind addr d slot none []
            | none => s.issueOpen marks
          let id := s.nextId
          let r := s.scalarReq (.atomic c (if res.isSome then some wid else none) wid s.cur.addr) (.atomic op ty v x sc) pa n 2 addr
          let s := if op = .ld && !sc then s.sendRead r else s.send r
          s.updSeq c fun q => { q with atomicReq := some id }

/-- A double as an operand of an atomic. -/
def State.wide (s : State) (a : Src) : BitVec 128 := (s.opd a).setWidth 128

/-- An atomic with one operand whose old value lands. -/
def State.atomic1 (s : State) (op : AtOp) (a v : Src) (d : Dest) (ty : AtTy) (sc : Bool) (slot : BitVec 8) : State :=
  s.atomic a [a, v] op ty sc (fun s => s.wide v) (fun _ => 0) (some (.atomic ty, d, slot.toNat))

def execAld (a : Src) (_sb : BitVec 5) (d : Dest) (ty : AtTy) (sc : Bool) (slot : BitVec 8) (s : State) : Result :=
  .next (s.atomic a [a] .ld ty sc (fun _ => 0) (fun _ => 0) (some (.atomic ty, d, slot.toNat)))
def execAst (a v : Src) (ty : AtTy) (sc : Bool) (s : State) : Result :=
  .next (s.atomic a [a, v] .st ty sc (fun s => s.wide v) (fun _ => 0) none)
def execAadd (a v : Src) (d : Dest) (ty : AtTy) (sc : Bool) (slot : BitVec 8) (s : State) : Result :=
  .next (s.atomic1 .add a v d ty sc slot)
def execAand (a v : Src) (d : Dest) (ty : AtTy) (sc : Bool) (slot : BitVec 8) (s : State) : Result :=
  .next (s.atomic1 .and a v d ty sc slot)
def execAor (a v : Src) (d : Dest) (ty : AtTy) (sc : Bool) (slot : BitVec 8) (s : State) : Result :=
  .next (s.atomic1 .or a v d ty sc slot)
def execAxor (a v : Src) (d : Dest) (ty : AtTy) (sc : Bool) (slot : BitVec 8) (s : State) : Result :=
  .next (s.atomic1 .xor a v d ty sc slot)
def execAmin (a v : Src) (d : Dest) (ty : AtTy) (sc : Bool) (slot : BitVec 8) (s : State) : Result :=
  .next (s.atomic1 .min a v d ty sc slot)
def execAmax (a v : Src) (d : Dest) (ty : AtTy) (sc : Bool) (slot : BitVec 8) (s : State) : Result :=
  .next (s.atomic1 .max a v d ty sc slot)
def execAswp (a v : Src) (d : Dest) (ty : AtTy) (sc : Bool) (slot : BitVec 8) (s : State) : Result :=
  .next (s.atomic1 .swp a v d ty sc slot)
def execAfadd (a v : Src) (d : Dest) (ty : AtTy) (sc : Bool) (slot : BitVec 8) (s : State) : Result :=
  .next (s.atomic1 .fadd a v d ty sc slot)
def execAfmin (a v : Src) (d : Dest) (ty : AtTy) (sc : Bool) (slot : BitVec 8) (s : State) : Result :=
  .next (s.atomic1 .fmin a v d ty sc slot)
def execAfmax (a v : Src) (d : Dest) (ty : AtTy) (sc : Bool) (slot : BitVec 8) (s : State) : Result :=
  .next (s.atomic1 .fmax a v d ty sc slot)

def execAcas (a expect new : Src) (d : Dest) (ty : AtTy) (sc : Bool) (slot : BitVec 8) (s : State) : Result :=
  .next (s.atomic a [a, expect, new] .cas ty sc (fun s => s.wide expect) (fun s => s.wide new)
    (some (.atomic ty, d, slot.toNat)))

/-- Two named registers as one quad, the first its low half. -/
def State.pair (s : State) (k : Nat) : BitVec 128 :=
  s.opd (.named (BitVec.ofNat 4 (k + 1)) false) ++ s.opd (.named (BitVec.ofNat 4 k) false)

/-- R283: kN and kN+1 are compared, kN+2 and kN+3 stored. -/
def execAcas128 (a : Src) (n : BitVec 2) (_sx : BitVec 5) (_lx : Bool) (d : Dest) (sc : Bool) (slot : BitVec 8)
    (s : State) : Result :=
  .next (s.atomic a (a :: quadRegs n) .cas128 .s64 sc (fun s => s.pair (4 * n.toNat)) (fun s => s.pair (4 * n.toNat + 2))
    (some (.cas128 n, d, slot.toNat)))

/-! ## Monitors (R286, R287) -/

/-- Sends a compare-and-arm for the double at a place; the sequencer stalls for its answer. The probe line of its block is
written back and made invalid first: R194 says so of atomics and MONW; that it holds of MONC too, which makes the same
compare-and-arm, is the model's reading (entry 73). -/
def State.sendArm (s : State) (a v : Dbl) (pa : Nat) : State :=
  let c := s.cur.core
  let s := s.flushBlock a
  -- a new compare-and-arm replaces any earlier monitor of the core
  let s := s.unmonitor c
  let s := s.send (s.scalarReq (.arm c) (.arm v) pa 8 2 a)
  (s.updCore c fun x => { x with mon := none, seq := { x.seq with phase := 1, answer := none } }).stallSeq 10

/-- Is the core's monitor on this address armed or fired? -/
def State.monHolds (s : State) (a : Dbl) : Bool :=
  match (s.core s.cur.core).mon with
  | some m => (m.armed || m.fired) && m.addr == a
  | none => false

/-- R286: MONW (`wait`) and MONC. Phase 1 awaits the home's answer, phase 2 the firing. -/
def State.monitor (s : State) (wait : Bool) (a v : Src) (d : Dest) : State :=
  s.withOperands [a, v] fun s =>
    let c := s.cur.core
    let q := s.seq c
    if q.phase = 0 then
      s.impure 2 0 fun s =>
        let addr := s.opd a
        match s.scalar addr 8 Need.atomicRead [.rw, .atom] with
        | (s, .error (cause, f, info)) => s.trap cause f (dbl info)
        | (s, .ok pa) =>
          if isHost pa then s.trap 0x16 addr 0
          else if wait && s.monHolds addr then (s.updSeq c fun q => { q with phase := 2, answer := none }).stallSeq 10
          else if q.atomicReq.isSome then s.stallSeq 15
          else if s.linePending addr then s.stallSeq 8
          else s.sendArm addr (s.opd v) pa
    else
      match q.answer with
      | none => s.stallSeq 10
      | some w =>
        if !wait then s.issue [a, v] 1 (some (w, d))
        else if ((s.core c).mon.map (·.fired)).getD true then
          -- the value that the firing carried, or the home's where it never armed
          let w := ((s.core c).mon.map (·.seen)).getD w
          (s.updCore c fun x => { x with mon := none }).issue [a, v] 1 (some (w, d))
        else (s.updSeq c fun q => { q with phase := 2, answer := none }).stallSeq 10

def execMonw (a v : Src) (d : Dest) (s : State) : Result := .next (s.monitor true a v d)
def execMonc (a v : Src) (d : Dest) (s : State) : Result := .next (s.monitor false a v d)

/-- The answered compare-and-arm of a core. -/
def State.armAnswer (s : State) (c : Nat) : Option Req := s.reqs.find? fun r => r.phase == .answered && r.src == .arm c

/-- MONITOR_WAKE: the home's answer has reached the core, or its monitor has fired while a MONW waits (R286). -/
def canMonitorWake (core : Nat) (s : State) : Bool :=
  (s.armAnswer core).isSome
    || ((s.seq core).phase == 2 && (s.seq core).stall == 10 && (s.seq core).answer.isNone
        && ((s.core core).mon.map (·.fired)).getD false)

def execMonitorWake (core : Nat) (s : State) : Result :=
  .next (if canMonitorWake core s then
      match s.armAnswer core with
      | some r =>
        let s := s.dropReq r.id
        if r.poison then s.parkAt core 0x20 (s.seq core).pc (dbl r.va)
        else if (s.seq core).phase = 1 then
          s.updSeq core fun q => { q with answer := some (dbl (leNat r.result)) }
        else s
      | none =>
        match (s.core core).mon with
        | some m => s.updSeq core fun q => { q with answer := some m.seen }
        | none => s
    else s)

/-- Has the home of an armed monitor no entry for it (R287)? -/
def State.unheldMonitor (s : State) (c : Nat) : Bool :=
  match (s.core c).mon with
  | some m =>
    m.armed && !m.fired && !(s.reqs.any fun r => r.src == .arm c)
      && !(s.slices.any fun p => p.2.mons.any fun h => h.core == c)
      && !(s.cores.any fun p => p.2.portMon.any fun h => h.core == c)
  | none => false

/-- MONITOR_REARM_TIMER (R287): with no entry at a full home, compare-and-arm is sent again. -/
def execMonitorRearmTimer (core : Nat) (s : State) : Result :=
  .next (if s.unheldMonitor core then
      match (s.core core).mon, (s.core core).task with
      | some m, some t =>
        let send (s : State) (pa : Nat) : State :=
          s.send { Req.blank (.arm core) (.arm m.value) pa 8 with
            key := s.keyAt core pa, fn := t.fn, wq := t.wq, tc := 2, va := m.addr.toNat }
        if isVirtual m.addr then
          match s.translate (.seq core) t.fn (s.rootOf t.fn t.wq) m.addr.toNat Need.atomicRead with
          | (s, .ok e) => send s (e.phys m.addr.toNat)
          | (s, .error _) => s
        else send s (arrayAt (windowCore (dieOf core) (windowOff m.addr)) (windowX (windowOff m.addr)))
      | _, _ => s
    else s)

end Sys2Proof.Machine
end

