-- ==== Sys2Proof/Machine/Commands.lean ====
section
/-! DEFINITION. Engine commands: what PUSH reads and checks (R32, R33, R35, R38, R146, R167, R168, R241, R358), the
edges and links between commands (R39, R40), the translation at PUSH (R78), fetching a body (R34, R385), the word that
an engine issues next (R26, R31, R36), and body faults (R185, R227, R266). -/

namespace Sys2Proof.Machine

open Sys2Proof

/-! ## Structures in scratchpad -/

/-- Bytes of a core's array from an offset; beyond the array there are none, and zeros stand for them. -/
def State.arrayBytes (s : State) (c off n : Nat) : List Byte :=
  (List.range n).map fun i => if off + i < 0x50000 then memRead s.mem (arrayAt c (off + i)) else 0

/-- Little-endian number of `n` bytes at an offset of a string. -/
def numAt (bs : List Byte) (o n : Nat) : Nat := leNat ((bs.drop o).take n)
def wordAt (bs : List Byte) (o : Nat) : Word := BitVec.ofNat 32 (numAt bs o 4)

/-- A nest descriptor (R35). -/
def parseNest (ndim : Nat) (bs : List Byte) : Nest where
  order := (List.range ndim).map fun l => bits (numAt bs 0 8) (3 * l) 3
  bounds := (List.range ndim).map fun d => wordAt bs (0x08 + 16 * d)
  s0 := (List.range ndim).map fun d => wordAt bs (0x0C + 16 * d)
  s1 := (List.range ndim).map fun d => wordAt bs (0x10 + 16 * d)
  s2 := (List.range ndim).map fun d => wordAt bs (0x14 + 16 * d)

def Nest.none : Nest := ⟨[], [], [], [], []⟩

/-- R35: levels below NDIM form a permutation, and higher fields are zero. -/
def orderOk (ndim : Nat) (bs : List Byte) : Bool :=
  let l := (parseNest ndim bs).order
  (List.range ndim).all (fun d => l.contains d)
    && (List.range 6).all fun k => k < ndim || bits (numAt bs 0 8) (3 * k) 3 == 0

/-- Reserved fields of a nest descriptor (R35). -/
def nestReserved (bs : List Byte) : Bool := numAt bs 0 8 / 2 ^ 18 != 0 || (bs.drop 0x68).any (· != 0)

def regKind (n : Nat) : Option RegKind :=
  match n with
  | 1 => some .rd
  | 2 => some .wr
  | 3 => some .rw
  | 4 => some .acc
  | 5 => some .atom
  | _ => none

/-- A region descriptor, where it is valid (R38). -/
def parseRegion (bs : List Byte) : Option Region :=
  let base := dbl (numAt bs 0 8)
  let k := numAt bs 0x1C 1
  let sp := numAt bs 0x1D 1
  let baseOk := match sp with
    | 0 => bits base.toNat 57 7 == 0
    | 1 => isVirtual base || formOk base
    | 2 => true
    | 3 => bits base.toNat 8 56 == 0
    | _ => false
  match regKind (k % 8) with
  | none => none
  | some kind =>
    if baseOk then
      some ⟨base, wordAt bs 0x08, wordAt bs 0x0C, wordAt bs 0x10, wordAt bs 0x14, wordAt bs 0x18, kind, bits k 3 1 == 1,
        BitVec.ofNat 2 sp⟩
    else none

/-- Reserved fields of a region descriptor. -/
def regionReserved (bs : List Byte) : Bool := numAt bs 0x1C 1 / 16 != 0 || numAt bs 0x1E 2 != 0

/-- The 32-byte descriptors of a list. -/
def chunks (n k : Nat) (bs : List Byte) : List (List Byte) := (List.range k).map fun i => (bs.drop (n * i)).take n

/-- A copy descriptor (R167). -/
def parseDesc (bs : List Byte) : CopyDesc where
  mbase := dbl (numAt bs 0 8)
  sbase := wordAt bs 8
  xbase := wordAt bs 12
  wraps := (List.range 6).map fun d => (BitVec.ofNat 16 (numAt bs (0x10 + 4 * d) 2), BitVec.ofNat 16 (numAt bs (0x12 + 4 * d) 2))

def CopyDesc.none : CopyDesc := ⟨0, 0, 0, []⟩

/-- R168: W = 0 with O not 0, or O at or above W. -/
def wrapBad (p : BitVec 16 × BitVec 16) : Bool := if p.1 == 0 then p.2 != 0 else p.1.toNat ≤ p.2.toNat

/-! ## Command words (R32) -/

def cwBody (w : Dbl) : Nat := bits w.toNat 0 16
def cwLen (w : Dbl) : Nat := bits w.toNat 16 6 + 1
def cwDims (w : Dbl) : Nat := bits w.toNat 24 3
def cwRegions (w : Dbl) : Nat := bits w.toNat 28 4
def cwReloc (w : Dbl) : Bool := w.getLsbD 32
def cwFlags (w : Dbl) : Nat := bits w.toNat 40 8
/-- CHS. -/
def cwChain (w : Dbl) : Chain := ⟨w.getLsbD 55, w.getLsbD 54, w.getLsbD 53, w.getLsbD 52⟩

def isCopy (e : Engine) : Bool := e == .load || e == .store

/-- Reserved bits of the command words for an engine (R32, R166, R201, R241). -/
def cwReserved (e : Engine) (w0 w1 w2 w3 : Dbl) : Bool :=
  bits w0.toNat 22 2 != 0 || bits w0.toNat 27 1 != 0 || bits w0.toNat 33 7 != 0 || bits w0.toNat 48 4 != 0
    || bits w0.toNat 56 8 != 0 || bits w1.toNat 32 32 != 0 || bits w2.toNat 32 32 != 0
    || (if isCopy e then 1 < cwFlags w0 else cwFlags w0 != 0)
    || (if isCopy e then bits w3.toNat 32 32 != 0 else e == .vec && w3 != 0)

/-- What PUSH copies from scratchpad. -/
structure Launch where
  nestBytes : List Byte
  regionBytes : List (List Byte)
  descBytes : List Byte
  deriving DecidableEq, Repr

def State.launchBytes (s : State) (c : Nat) (e : Engine) (w0 w1 w2 w3 : Dbl) : Launch where
  nestBytes := if cwDims w0 = 0 then [] else s.arrayBytes c (bits w1.toNat 0 32) 128
  regionBytes := chunks 32 (cwRegions w0) (s.arrayBytes c (bits w2.toNat 0 32) (32 * cwRegions w0))
  descBytes := if isCopy e then s.arrayBytes c (bits w3.toNat 0 32) 64 else []

/-- The code area of an engine (R43). -/
def Task.codeArea (t : Task) (e : Engine) : Dbl × Nat := t.code.getD (engIdx e) (0, 0)

/-- A structure is misaligned, or not inside the plain scratchpad below the residual area. -/
def Task.outside (t : Task) (off n align : Nat) : Bool := off % align != 0 || plainEnd t.spreq t.resid < off + n

/-- The lowest launch-fault reason that applies (R33, R358). -/
def launchReason (t : Task) (e : Engine) (w0 w1 w2 w3 : Dbl) (l : Launch) : Option Nat :=
  let dims := cwDims w0
  let area := t.codeArea e
  let regs := l.regionBytes.map parseRegion
  let reloc := cwReloc w0
  let checks : List (Nat × Bool) := [
    (0x20, dims == 7 || 8 < cwRegions w0),
    (0x21, cwReserved e w0 w1 w2 w3 || (dims != 0 && nestReserved l.nestBytes) || l.regionBytes.any regionReserved
      || (isCopy e && (l.descBytes.drop 0x28).any (· != 0))),
    (0x22, (dims != 0 && t.outside (bits w1.toNat 0 32) 128 128)
      || (cwRegions w0 != 0 && t.outside (bits w2.toNat 0 32) (32 * cwRegions w0) 32)
      || (isCopy e && t.outside (bits w3.toNat 0 32) 64 64)),
    (0x23, area.2 == 0 || area.2 ≤ cwBody w0 + cwLen w0 - 1),
    (0x24, reloc && (e != .vec || (t.reloc && (cwChain w0 != Chain.none
      || l.regionBytes.any fun b => 1 < numAt b 0x1D 1)))),
    (0x25, dims != 0 && !orderOk dims l.nestBytes),
    (0x26, regs.any (·.isNone)),
    (0x27, isCopy e && (parseDesc l.descBytes).wraps.any wrapBad),
    (0x28, e == .mat && (bits w3.toNat 0 5 != 0 || bits w3.toNat 16 5 != 0 || bits w3.toNat 32 5 != 0))]
  (checks.find? (·.2)).map (·.1)

/-! ## Edges and links (R39, R40) -/

/-- Every command in flight of the other three engines. -/
def Core.others (x : Core) (e : Engine) : List (Engine × Cmd) :=
  [Engine.load, .vec, .mat, .store].flatMap fun o => if o == e then [] else (x.queue o).map fun k => (o, k)

/-- An engine has a command in flight whose CHS has two bits. -/
def Core.relays (x : Core) (e : Engine) (p : Chain → Bool) : Bool := (x.queue e).any fun k => p (cwChain k.cw0)

/-- R40: the pair of an older command of engine `o` and the new one is linked along an arc that does not pass the
sequencer. -/
def Core.linked (x : Core) (o : Engine) (oldChs : Chain) (e : Engine) (newChs : Chain) : Bool :=
  let between (a b : Nat) : List Engine := [Engine.load, .vec, .mat, .store].filter fun m => a < engIdx m && engIdx m < b
  if engIdx o < engIdx e then
    oldChs.sn && newChs.wp && (between (engIdx o) (engIdx e)).all fun m => x.relays m fun k => k.wp && k.sn
  else
    oldChs.sp && newChs.wn && (between (engIdx e) (engIdx o)).all fun m => x.relays m fun k => k.wn && k.sp

/-- Conflicting pairs of regions of an older command and the new one: their indices and whether both are chained. -/
def conflictsOf (c : Nat) (old new : List Region) : List (Nat × Nat × Bool) :=
  (old.zipIdx).flatMap fun (p, i) => (new.zipIdx).filterMap fun (q, j) =>
    if p.conflicts q c then some (i, j, p.chn && q.chn) else none

/-- Edges that the new command takes (R39). -/
def Core.newEdges (x : Core) (c : Nat) (e : Engine) (regs : List Region) : List Nat :=
  (x.others e).filterMap fun (_, k) => if (conflictsOf c k.regions regs).any fun (_, _, ch) => !ch then some k.uid else none

/-- The first unlinked chained pair (R40): xinfo. -/
def Core.unlinked (x : Core) (c : Nat) (e : Engine) (chs : Chain) (slot : Nat) (regs : List Region) : Option Nat :=
  (x.others e).findSome? fun (o, k) =>
    ((conflictsOf c k.regions regs).find? fun (_, _, ch) => ch && !x.linked o (cwChain k.cw0) e chs).map fun (i, j, _) =>
      engCode o + k.slot * 2 ^ 3 + i * 2 ^ 8 + engCode e * 2 ^ 12 + slot * 2 ^ 15 + j * 2 ^ 20

/-- R319: the lowest byte that a writing region of the command shares with a region handed over. -/
def handedByte (c : Nat) (handed regs : List Region) : Option Nat :=
  let firsts := (regs.filter fun r => r.space == 0 && r.kind.writes).flatMap fun r => handed.flatMap fun h =>
    (r.rows c).flatMap fun (p, n) => (h.rows c).filterMap fun (q, m) =>
      if p < q + m && q < p + n then some (Nat.max p q) else none
  match firsts with
  | [] => none
  | a :: l => some (l.foldl Nat.min a)

/-! ## Translation at PUSH (R75, R78) -/

/-- Permissions that a region's pages need. -/
def regionNeed : RegKind → Need
  | .rd => Need.read
  | .wr => Need.write
  | .rw => Need.readWrite
  | .acc => Need.atomicRmw
  | .atom => Need.atomicRead

/-- Stage-1 pages of a list of translations: the first byte and the size of each (R78). -/
def pages1 (held : List TlbEntry) : List (Nat × Nat) := (held.map fun t => (t.va / t.page1 * t.page1, t.page1)).eraseDups

/-- The address lies in one of the first 64 stage-1 pages, as far as they are known. -/
def amongFirst (held : List TlbEntry) (a : Nat) : Bool :=
  let l := pages1 held
  l.length < 64 || l.any fun p => p.1 ≤ a && a < p.1 + p.2

/-- Pages of one row: each that lies in one of the first 64 distinct stage-1 pages is translated. `attr` are the region's
attributes. -/
def State.xlatRow (s : State) (c fn : Nat) (root : Dbl) (n : Need) (stop : Nat) :
    Nat → Nat → List TlbEntry → Option (BitVec 9) → State × Except AFault (List TlbEntry × Option (BitVec 9))
  | 0, _, held, attr => (s, .ok (held, attr))
  | fuel + 1, a, held, attr =>
    if stop ≤ a ∨ !amongFirst held a then (s, .ok (held, attr))
    else
      match s.translate (.seq c) fn root a n with
      | (s, .error f) => (s, .error (f.cause, dbl a, f.info))
      | (s, .ok e) =>
        if attr.any (· != e.attr) then (s, .error (0x14, dbl a, 0))
        else
          let held := if held.any fun t => t.va == e.va && t.size == e.size then held else held ++ [e]
          s.xlatRow c fn root n stop fuel (e.va + e.size) held (some e.attr)

def State.xlatRows (s : State) (c fn : Nat) (root : Dbl) (n : Need) (attr : Option (BitVec 9)) (held : List TlbEntry) :
    List (Nat × Nat) → State × Except AFault (List TlbEntry)
  | [] => (s, .ok held)
  | (p, len) :: rows =>
    match s.xlatRow c fn root n (p + len) (64 * 512 + 1) p held attr with
    | (s, .error f) => (s, .error f)
    | (s, .ok (held, attr)) => s.xlatRows c fn root n attr held rows

def State.xlatRegions (s : State) (c fn : Nat) (root : Dbl) (held : List TlbEntry) :
    List Region → State × Except AFault (List TlbEntry)
  | [] => (s, .ok held)
  | r :: rs =>
    if r.space = 0 then
      match s.xlatRows c fn root (regionNeed r.kind) none held (ascending (r.rows c)) with
      | (s, .error f) => (s, .error f)
      | (s, .ok held) => s.xlatRegions c fn root held rs
    else s.xlatRegions c fn root held rs

/-! ## PUSH (R146) -/

/-- Lines of the task whose block meets a space-0 region of the command (R194). -/
def State.metLines (s : State) (c : Nat) (t : Task) (regs : List Region) (p : Region → Bool) : List PLine :=
  (s.core c).copy.lines.filter fun l =>
    l.fn == t.fn && l.root == s.rootOf t.fn t.wq && regs.any fun r => r.space == 0 && p r && r.meets c (256 * l.block) 256

/-- R194: probe lines that the command's regions meet are written back, and made invalid where a region writes. -/
def State.pushLines (s : State) (c : Nat) (t : Task) (regs : List Region) : State × List Nat :=
  let before := (s.core c).copy.wbs.map (·.1)
  let gone := (s.metLines c t regs fun r => r.kind.writes).map (·.slot)
  let s := s.writeBackList c 0 ((s.metLines c t regs fun _ => true).filter fun l => l.state == PState.valid && l.dirty != 0)
  let s := s.updCore c fun x =>
    { x with copy := { x.copy with lines := x.copy.lines.filter fun l => !gone.contains l.slot } }
  (s, ((s.core c).copy.wbs.map (·.1)).filter fun i => !before.contains i)

/-- The queue slot that a new command takes: one of those that are free; which, the manual does not say. -/
def State.freeSlot (s : State) (l : List Cmd) : Nat :=
  let free := (List.range 32).filter fun i => !l.any fun k => k.slot == i
  free.getD (s.freeNat % free.length) 0

/-- The command enters its queue (R146 step 5). -/
def State.enqueue (s : State) (c : Nat) (e : Engine) (k : Cmd) : State :=
  s.updCore c fun x =>
    let x := x.updQueue e fun q => q ++ [k]
    let q := x.seq
    { x with
      seq := if isCopy e then { q with cp := q.cp + 1 } else if e == .mat then { q with mt := q.mt + 1 } else q
      inflight0 := if k.epoch then x.inflight0 else x.inflight0 + 1
      inflight1 := if k.epoch then x.inflight1 + 1 else x.inflight1 }

/-- Accesses of the sequencer in flight: stores, loads and the atomic, before a command pushed now (R87, R139). -/
def Seq.openAccesses (q : Seq) : List Nat :=
  q.stores.map (·.wid) ++ (q.landing.filter fun l => !l.arrived).map (·.id) ++ q.atomicReq.toList

/-- The command as PUSH finds it. -/
def State.newCmd (s : State) (c slot : Nat) (t : Task) (e : Engine) (w0 w1 w2 w3 : Dbl) (l : Launch) (regs : List Region)
    (held : List TlbEntry) : Cmd where
  uid := s.nextId
  slot := slot
  cw0 := w0
  cw1 := w1
  cw2 := w2
  cw3 := w3
  nest := parseNest (cwDims w0) l.nestBytes
  regions := regs
  desc := if isCopy e then parseDesc l.descBytes else CopyDesc.none
  edges := (s.core c).newEdges c e regs
  waits := (s.seq c).openAccesses
  epoch := (s.core c).epoch
  bodyAddr := (t.codeArea e).1 + dbl (4 * cwBody w0)
  body := none
  fetchFault := none
  started := false
  pos := 0
  idx := List.replicate (cwDims w0) 0
  iters := 0
  allIssued := false
  wids := []
  reloc := cwReloc w0 && t.reloc && e == .vec
  ctx := none
  xlat := held
  takenBy := none
  faulted := false

def execPush (q : Queue) (nq : BitVec 2) (s : State) : Result :=
  .next (s.withOperands (quadRegs nq) fun s =>
    let c := s.cur.core
    let e := queueEngine q
    match s.task with
    | none => s.trap 0x18 s.cur.addr 0x23
    | some t =>
      let x := s.core c
      let w (i : Nat) : Dbl := x.seq.named.getD (4 * nq.toNat + i) 0
      if 32 ≤ (x.queue e).length || (isCopy e && x.seq.cp == 63) then s.stallSeq 2
      else
        let l := s.launchBytes c e (w 0) (w 1) (w 2) (w 3)
        match launchReason t e (w 0) (w 1) (w 2) (w 3) l with
        | some r => s.trap 0x18 s.cur.addr (dbl r)
        | none =>
          let regs := l.regionBytes.filterMap parseRegion
          let slot := s.freeSlot (x.queue e)
          let s := s.useFree
          match x.unlinked c e (cwChain (w 0)) slot regs with
          | some info => s.trap 0x19 s.cur.addr (dbl info)
          | none =>
            match handedByte c t.handed regs with
            | some a => s.trap 0x17 (dbl a) 0
            | none =>
              match s.xlatRegions c t.fn (s.rootOf t.fn t.wq) [] regs with
              | (s, .error (cause, a, info)) => s.trap cause a (dbl info)
              | (s, .ok held) =>
                -- a fill in flight precedes the command (R87)
                if (s.metLines c t regs fun r => r.kind.writes).any fun l => l.state == PState.pending then s.stallSeq 8
                else
                  let k := s.newCmd c slot t e (w 0) (w 1) (w 2) (w 3) l regs held
                  let (s, wbs) := s.useId.pushLines c t regs
                  let s := s.enqueue c e { k with waits := k.waits ++ wbs }
                  s.issue (quadRegs nq) 1 none)

/-! ## Fetching a body (R34, R385) -/

/-- Words at an address of an engine's code area; a fault with the index of the word that met it. -/
def State.fetchBody (s : State) (c fn : Nat) (root : Dbl) (a : Dbl) :
    Nat → Nat → State × Except (Nat × XFault) (List Word)
  | 0, _ => (s, .ok [])
  | n + 1, i =>
    let va := a + dbl (4 * i)
    if !isVirtual va || !formOk va then (s, .error (i, ⟨0x15, 0⟩))
    else
      match s.translate (.copy c) fn root va.toNat Need.fetch with
      | (s, .error f) => (s, .error (i, f))
      | (s, .ok e) =>
        let p := e.phys va.toNat
        if s.badRead (dieOf c) p then (s, .error (i, ⟨0x20, 0⟩))
        else
          let w : Word := BitVec.ofNat 32 (leNat (s.readPhys (s.keyAt c p) p 4))
          match (s.quietLookup fn 0 false p).fetchBody c fn root a n (i + 1) with
          | (s, .ok ws) => (s, .ok (w :: ws))
          | (s, .error (j, f)) => (s, .error (j, f))

/-- A chain bit of the word that CHS lacks (R34). -/
def chainExceeds (w : Word) (chs : Chain) : Bool :=
  let k := Chain.ofWord w
  (k.wp && !chs.wp) || (k.wn && !chs.wn) || (k.sp && !chs.sp) || (k.sn && !chs.sn)

/-- The EXT words of a word: as many of those that follow it as it may carry (R50). -/
def takenExts (e : Engine) (w : Word) (ws : List Word) : List Word :=
  let l := ws.takeWhile extends_
  (((List.range (l.length + 1)).reverse.map l.take).find? fun xs => (decodeWord e w xs).toBool).getD []

/-- R34: the first failing word of a body and its sub-cause. `after` are the words behind the body. A surplus EXT word, or
one with chain bits, is a word of its own that fails (R51). -/
def bodyFails (e : Engine) (chs : Chain) (after : List Word) : Nat → Nat → List Word → Option (Nat × Nat)
  | 0, _, _ => none
  | _, _, [] => none
  | fuel + 1, i, w :: ws =>
    let exts := takenExts e w (ws ++ after)
    match decodeWord e w exts with
    | .error _ => some (i, 1)
    | .ok _ =>
      if chainExceeds w chs then some (i, 2)
      else if ws.length < exts.length then some (i, 3)
      else bodyFails e chs after fuel (i + 1 + exts.length) (ws.drop exts.length)

/-- The command of an engine whose body is fetched next. -/
def Core.unfetched (x : Core) (e : Engine) : Option Cmd :=
  (x.queue e).find? fun k => k.body.isNone && k.fetchFault.isNone && !k.faulted

def canBodyFetch (core : Nat) (eng : Engine) (s : State) : Bool :=
  eng != .seq && (s.core core).freezes == [] && (s.core core).task.isSome && ((s.core core).unfetched eng).isSome

/-- Unit of an engine in PKHDR (R358). -/
def engUnit : Engine → Nat
  | .seq => 0
  | .load | .store => 1
  | .vec => 2
  | .mat => 3

def execBodyFetch (core : Nat) (eng : Engine) (s : State) : Result :=
  .next (if canBodyFetch core eng s then
      match (s.core core).unfetched eng, (s.core core).task with
      | some k, some t =>
        let root := s.rootOf t.fn t.wq
        let n := cwLen k.cw0
        match s.fetchBody core t.fn root k.bodyAddr n 0 with
        | (s, .error (i, f)) =>
          let first : Word :=
            match s.fetchBody core t.fn root k.bodyAddr 1 0 with
            | (_, .ok (w :: _)) => if i = 0 then 0 else w
            | _ => 0
          s.updCore core fun x => x.updCmd eng k.uid fun j =>
            { j with fetchFault := some ⟨f.cause, i, k.bodyAddr + dbl (4 * i), dbl f.info, first⟩ }
        | (s, .ok ws) =>
          let left := (t.codeArea eng).2 - (cwBody k.cw0 + n)
          let after :=
            match s.fetchBody core t.fn root (k.bodyAddr + dbl (4 * n)) (Nat.min left 3) 0 with
            | (_, .ok l) => l
            | _ => []
          match bodyFails eng (cwChain k.cw0) after (n + 1) 0 ws with
          | none => s.updCore core fun x => x.updCmd eng k.uid fun k => { k with body := some ws }
          | some (i, sub) =>
            let s := s.updCore core fun x => x.updCmd eng k.uid fun k => { k with faulted := true }
            let cause := 0x01 + engCode eng * 2 ^ 8 + k.slot * 2 ^ 11 + i * 2 ^ 16 + sub * 2 ^ 22
            s.park core 0x01 (engUnit eng) false
              [dbl cause, (ws.getD i 0).setWidth 64, k.bodyAddr + dbl (4 * i), 0] none
      | _, _ => s
    else s)

/-! ## The next word of an engine -/

/-- The command that an engine works on: the first not wholly issued; a command that a sibling has taken is left to
it. -/
def Core.curCmd (x : Core) (e : Engine) : Option Cmd := (x.queue e).find? fun k => !k.allIssued && k.takenBy.isNone

/-- A command of this core's quad that the vector engine of core `c` has taken (R226), with its owner. -/
def State.takenCmd (s : State) (c : Nat) : Option (Nat × Cmd) :=
  (List.range 4).findSome? fun m =>
    let o := 4 * quadOf c + m
    if o = c then none
    else (((s.core o).queue .vec).find? fun k => !k.allIssued && k.takenBy == some c).map fun k => (o, k)

/-- May the engines of a core issue words of a command? A parked task's engines finish what they started (R155); where
an illegal body parked it, commands pushed before that one run too (R34). At a tile stop, and at any stop that is
complete, no word issues (R346). -/
def Core.mayRun (x : Core) (k : Cmd) : Bool :=
  match x.task with
  | none => false
  | some t =>
    !x.settling && t.stopped.isNone && t.stopping != some 1 && !t.yielded
      && (!t.parked || k.started || x.queues.any fun q => q.any fun f => f.faulted && k.uid < f.uid)

/-- No iteration at all (R36). -/
def Cmd.empty (k : Cmd) : Bool := k.nest.bounds.any (· == 0)

/-- The next index vector (R36). -/
def nextIdx (bounds : List Word) : List Nat → List Nat → Option (List Nat)
  | [], _ => none
  | d :: ds, idx =>
    if idx.getD d 0 + 1 = (bounds.getD d 0).toNat then nextIdx bounds ds (idx.set d 0)
    else some (idx.set d (idx.getD d 0 + 1))

/-- The command past a word of `len` words. -/
def Cmd.advance (k : Cmd) (len : Nat) : Cmd :=
  let n := (k.body.getD []).length
  if k.pos + len < n then { k with pos := k.pos + len }
  else
    match nextIdx k.nest.bounds k.nest.order k.idx with
    | some i => { k with pos := 0, idx := i, iters := k.iters + 1 }
    | none => { k with pos := 0, iters := k.iters + 1, allIssued := true }

/-- R36: Σ i[d] x S[d], signed strides. -/
def genSum (idx : List Nat) (strides : List Word) : Int :=
  (idx.zip strides).foldl (fun z (i, w) => z + i * w.toInt) 0

/-- A vector command starts: port positions return to zero, or it has a context of its own (R201, R225). -/
def Core.startVec (x : Core) (k : Cmd) : Core :=
  if k.reloc then
    let own := x.vec.own
    let v := { VCtx.reset with psets := own.psets, binds := own.binds, vt := own.vt }
    x.updCmd .vec k.uid fun k => { k with ctx := some v }
  else { x with vec := { x.vec with own := { x.vec.own with poss := [0, 0, 0, 0] } } }

def Core.startCmd (x : Core) (e : Engine) (k : Cmd) : Core :=
  if k.started then x
  else
    let x := if e == .vec then x.startVec k else x
    x.updCmd e k.uid fun k => { k with started := true }

def State.holdsLease (s : State) (c : Nat) : Bool := (s.quad (quadOf c)).leaseHolder == some c

/-- Cores whose leases end together: the members of a formed gang (R263), or the core alone. -/
def Core.leaseGroup (x : Core) (c : Nat) : List Nat := if x.mat.formed then (x.task.map (·.members)).getD [c] else [c]

/-- The matrix engine issues only under the lease (R42), in a gang whose leases ended at a limit under those of every
member (R263), and after a restored task's claims are taken back (R351). -/
def State.leased (s : State) (c : Nat) (e : Engine) : Bool :=
  e != .mat
    || (s.holdsLease c && !(s.quad (quadOf c)).leaseOver
      && (!((s.core c).mat.formed && (s.core c).mat.anew) || ((s.core c).leaseGroup c).all s.holdsLease)
      && (s.core c).mat.reclaimA == 0 && (s.core c).mat.reclaimB == 0 && (s.core c).mat.reclaimP == 0)

/-- The word of a command at its place in the body, decoded, with the fields of `State.cur`. -/
def State.cmdWord (s : State) (owner : Nat) (e : Engine) (k : Cmd) : Attempt :=
  let ws := k.body.getD []
  let w := ws.getD k.pos 0
  let xs := takenExts e w (ws.drop (k.pos + 1))
  match decodeWord e w xs with
  | .error _ => .done s
  | .ok i =>
    let s := s.setCur owner e (k.bodyAddr + dbl (4 * k.pos)) w xs
    .word i { s with cur := { s.cur with cmd := k.uid } }

/-- An engine's attempt to issue the next word of a command of an owner. -/
def State.attemptCmd (s : State) (owner : Nat) (e : Engine) (k : Cmd) : Attempt :=
  let x := s.core owner
  if x.freezes != [] || !x.mayRun k || k.edges != [] || k.waits != [] then .done s
  -- the body is decoded, or its fetch fault is held, though no word of it issues (R34, R385)
  else if k.empty ∧ (k.body.isSome ∨ k.fetchFault.isSome) then
    .done (s.updCore owner fun x => (x.startCmd e k).updCmd e k.uid fun k => { k with allIssued := true })
  else if k.body.isNone || !s.leased owner e then .done s
  else
    let chain := Chain.ofWord ((k.body.getD []).getD k.pos 0)
    if k.takenBy.isNone && !x.chainReady e chain then .done s
    else (s.updCore owner fun x => x.startCmd e k).cmdWord owner e k

/-- A sibling's engine works on the command it has taken before any command of its own (R226). -/
def State.attemptEngine (s : State) (c : Nat) (e : Engine) : Attempt :=
  match (if e == .vec then s.takenCmd c else none) with
  | some (o, k) => if (s.core c).freezes == [] then s.attemptCmd o e k else .done s
  | none =>
    match (s.core c).curCmd e with
    | some k => s.attemptCmd c e k
    | none => .done s

/-- The command of the current word. -/
def State.cmd (s : State) : Option Cmd := ((s.core s.cur.core).queue s.cur.eng).find? fun k => k.uid == s.cur.cmd

/-- The current engine word issues: it takes its tokens and stands in its engine's order, and the command goes on. A
word of a relocatable command has no chain bits and stands in no order. -/
def State.engineIssue (s : State) (done : Bool) : State :=
  let e := s.cur.eng
  let wid := s.nextId
  let reloc := (s.cmd.map (·.reloc)).getD false
  (s.updCore s.cur.core fun x =>
    let x := if reloc then x else x.beginWord e wid done s.cur.chain
    let x := x.updCmd e s.cur.cmd fun k =>
      { k.advance s.cur.len with wids := (k.wids.filter fun i => (x.flow e).order.any fun w => w.wid == i) ++ [wid] }
    { x with task := x.task.map fun t => { t with wd := 0 } }).useId

/-! ## Body faults (R185, R227, R266, R385) -/

/-- Member of a gang that a core is, or 0. -/
def Core.memberIdx (x : Core) (c : Nat) : Nat :=
  ((x.task.map fun t => t.members.idxOf c)).getD 0

/-- First double of a fault record (R186, R228, R267). -/
def Core.faultHead (x : Core) (c : Nat) (e : Engine) (k : Cmd) (cause index : Nat) : Dbl :=
  match e with
  | .vec => dbl (cause + k.slot * 2 ^ 8 + index * 2 ^ 13 + (if k.reloc then 2 ^ 19 else 0) + 2 ^ 20)
  | .mat =>
    let irrev := ((x.task.map (·.irrevocable))).getD false
    dbl (cause + k.slot * 2 ^ 8 + index * 2 ^ 13 + (if x.mat.formed then 2 ^ 19 else 0) + 2 ^ 20
      + x.memberIdx c % 8 * 2 ^ 21 + (if cause = 0x20 then quadOf c % 6 * 2 ^ 24 else 0) + (if irrev then 2 ^ 28 else 0))
  | _ => copyCause cause (if e == .store then 1 else 0) k.slot index

def FaultRec.words (r : FaultRec) : List Dbl := [r.cause, r.addr, r.info, r.iter]

def Core.setFault (x : Core) (e : Engine) (r : Option FaultRec) : Core :=
  match e with
  | .load => { x with copy := { x.copy with faultL := r } }
  | .store => { x with copy := { x.copy with faultS := r } }
  | .vec => { x with vec := { x.vec with fault := r } }
  | .mat => { x with mat := { x.mat with fault := r } }
  | .seq => x

/-- The domain freezes, the engine writes its fault record, and the work queue parks. -/
def State.bodyFault (s : State) (c : Nat) (e : Engine) (k : Cmd) (cause index : Nat) (addr info : Dbl) : State :=
  let r : FaultRec := ⟨(s.core c).faultHead c e k cause index, addr, info, dbl k.iters⟩
  let s := (s.freeze c (.bodyFault e)).updCore c fun x => x.setFault e (some r)
  s.park c cause (engUnit e) false r.words none

/-- A fault of the current engine word. -/
def State.wordFault (s : State) (cause : Nat) (addr info : Dbl) : State :=
  match s.cmd with
  | none => s
  | some k =>
    -- a relocated command goes on at its owner's engine (R227)
    let s := s.updCore s.cur.core fun x => x.updCmd s.cur.eng k.uid fun k => { k with takenBy := none }
    s.bodyFault s.cur.core s.cur.eng k cause k.pos addr info

/-- BODY_FETCH_FAULT_TAKEN (R385): the first word of the command would issue. -/
def State.fetchFaulted (s : State) (c : Nat) (e : Engine) : Option (Cmd × FetchFault) :=
  match (s.core c).curCmd e with
  | none => none
  | some k =>
    let x := s.core c
    match k.fetchFault with
    | none => none
    | some f =>
      if x.freezes == [] && x.mayRun k && k.edges == [] && k.waits == [] && !k.empty && s.leased c e
          && x.chainReady e (Chain.ofWord f.first) then some (k, f)
      else none

def execBodyFetchFaultTaken (core : Nat) (eng : Engine) (s : State) : Result :=
  .next (match s.fetchFaulted core eng with
    | none => s
    | some (k, f) =>
      let info := if isCopy eng then dbl (s.freeNat % 2 ^ 35) else if eng == .vec then dbl (s.freeNat % 2 ^ 8) else 0
      s.useFree.bodyFault core eng { k with iters := 0 } f.cause f.index f.addr info)

end Sys2Proof.Machine
end

