-- ==== Sys2Proof/Machine/Copy.lean ====
section
/-! DEFINITION. The words of the copy engine (R158 to R187) and ACC (R288 to R290): generators, checks, the converter,
requests, and the completion of a transfer. -/

namespace Sys2Proof.Machine

open Sys2Proof

/-! ## Formats of the two sides (R173, R174) -/

def attrFmt (a : BitVec 9) : Nat := (a.extractLsb' 0 4).toNat
def attrBlk (a : BitVec 9) : Bool := a.getLsbD 4
def attrHad (a : BitVec 9) : Bool := a.getLsbD 5
def attrLead (a : BitVec 9) : Bool := a.getLsbD 6
def attrNc (a : BitVec 9) : BitVec 2 := a.extractLsb' 7 2

/-- The format of a page's attributes; a reserved one has faulted before. -/
def attrFormat (a : BitVec 9) : Fmt := (fmtOfCode (attrFmt a)).getD .raw

/-- B of an MX format (R101, R71). -/
def mxBlock (blk : Bool) : Nat := if blk then 16 else 32
/-- Bytes of a block body. -/
def mxBody (t : MxTy) (blk : Bool) : Nat := mxBlock blk * mxWidth t / 8
def mxFrame (t : MxTy) (blk : Bool) : Nat := 32 + 32 * mxBody t blk

/-- Element size of a format (R173). -/
def fmtBytes (f : Fmt) (blk : Bool) : Nat :=
  match f with
  | .raw | .e4m3 | .e5m2 => 1
  | .f64 => 8
  | .f32 => 4
  | .f16 | .bf16 => 2
  | .mx8 => mxFrame .mx8 blk
  | .mx6 => mxFrame .mx6 blk
  | .mx4 => mxFrame .mx4 blk

/-- Numbers that one element of a format holds. -/
def fmtCount (f : Fmt) (blk : Bool) : Nat := if f.isMx then 32 * mxBlock blk else 1

/-- Bytes that `n` numbers take in a format; a last frame is taken up to its last block. -/
def fmtSpan (f : Fmt) (blk : Bool) (n : Nat) : Nat :=
  match fmtMx f with
  | none => n * fmtBytes f blk
  | some t =>
    let per := 32 * mxBlock blk
    n / per * mxFrame t blk
      + (if n % per = 0 then 0 else 32 + (n % per + mxBlock blk - 1) / mxBlock blk * mxBody t blk)

/-- A conversion as the converter sees it. -/
structure Conv where
  src : Fmt
  dst : Fmt
  blk : Bool
  had : Bool
  lead : Bool
  rm : Rm
  sat : Bool
  /-- Bytes move unchanged: a row of raw bytes, or between equal formats (R174). -/
  plain : Bool
  deriving DecidableEq, Repr

/-- Numbers in a source of `n` bytes; a part of a frame counts its whole blocks. -/
def Conv.numbers (k : Conv) (n : Nat) : Nat :=
  match fmtMx k.src with
  | none => n / fmtBytes k.src k.blk
  | some t =>
    let f := mxFrame t k.blk
    n / f * (32 * mxBlock k.blk) + (n % f - 32) / mxBody t k.blk * mxBlock k.blk

/-- The values of one MX block at its scale byte and body (R102, R103). -/
def mxBlockValues (t : MxTy) (blk : Bool) (scale : Nat) (body : Nat) : List FVal :=
  (List.range (mxBlock blk)).map fun i =>
    mxValue t scale (readInt true (mxWidth t) (bits body (mxWidth t * i) (mxWidth t)))

/-- Block j of a string of frames. -/
def mxBlockAt (t : MxTy) (blk : Bool) (bs : List Byte) (j : Nat) : Nat × Nat :=
  let f := j / 32 * mxFrame t blk
  (numAt bs (f + j % 32) 1, numAt bs (f + 32 + j % 32 * mxBody t blk) (mxBody t blk))

/-- Dequantisation of a block, with the inverse rotation where the page has HAD (R110, R113). -/
def dequantBlock (t : MxTy) (k : Conv) (scale body : Nat) : List FVal :=
  let v := mxBlockValues t k.blk scale body
  if k.had && scale != 0xFF then hadamard k.rm (unrotK k.blk k.lead) v else v

/-- Source numbers as exact values. -/
def Conv.values (k : Conv) (bs : List Byte) : List FVal :=
  match fmtMx k.src, fmtForm k.src with
  | some t, _ =>
    (List.range (k.numbers bs.length / mxBlock k.blk)).flatMap fun j =>
      let b := mxBlockAt t k.blk bs j
      dequantBlock t k b.1 b.2
  | none, some F => (List.range (bs.length / fmtBytes k.src k.blk)).map fun i =>
      F.value (numAt bs (i * fmtBytes k.src k.blk) (fmtBytes k.src k.blk))
  | none, none => []

/-- Quantisation of a block, rotated first where the page has HAD (R109, R111, R112). -/
def quantBlock (t : MxTy) (k : Conv) (x : List FVal) : Nat × List Int :=
  if x.any fun v => v.isNan || v.isInf then (0xFF, x.map fun _ => 0)
  else quantiseBlock t k.rm (if k.had then hadamard k.rm (-(rotK k.blk k.lead)) x else x)

/-- Elements of a block as one little-endian bit string (R103). -/
def packBody (w : Nat) : List Int → Nat
  | [] => 0
  | q :: qs => intBits w q + 2 ^ w * packBody w qs

/-- Bytes of block j of the destination: its scale byte and its body, each with its place. -/
def Conv.blockBytes (k : Conv) (t : MxTy) (j : Nat) (x : List FVal) : List (Nat × Byte) :=
  let q := quantBlock t k x
  let f := j / 32 * mxFrame t k.blk
  (f + j % 32, BitVec.ofNat 8 q.1)
    :: (leBytes (mxBody t k.blk) (packBody (mxWidth t) q.2)).mapIdx fun i b =>
        (f + 32 + j % 32 * mxBody t k.blk + i, b)

/-- Values of a last block that the source does not fill are open; `n` starts the free numbers that stand for them. -/
def padValues (F : Option FForm) (n m : Nat) : List FVal :=
  (List.range m).map fun i =>
    match F with
    | some F => F.value (Config.freeNat (n + i) % 2 ^ F.width)
    | none => .fin false 0 0

/-- SAT applies to FP8 destinations alone (R107, R174). -/
def Conv.saturates (k : Conv) : Bool := k.sat && (k.dst == .e4m3 || k.dst == .e5m2)

/-- The converter: destination bytes with their places (R174, R183). -/
def Conv.run (k : Conv) (n : Nat) (bs : List Byte) : List (Nat × Byte) :=
  if k.plain then bs.mapIdx fun i b => (i, b)
  else
    let v := k.values bs
    match fmtMx k.dst, fmtForm k.dst with
    | some t, _ =>
      let B := mxBlock k.blk
      let blocks := (v.length + B - 1) / B
      (List.range blocks).flatMap fun j =>
        let x := (v.drop (j * B)).take B
        k.blockBytes t j (x ++ padValues (fmtForm k.src) n (B - x.length))
    | none, some F =>
      v.zipIdx.flatMap fun (x, i) =>
        (leBytes (F.width / 8) (F.round k.rm k.saturates x).1).mapIdx fun j b => (i * (F.width / 8) + j, b)
    | none, none => []

/-! ## Generators (R169) -/

/-- g0 with its wrap per dimension. -/
def Cmd.g0 (k : Cmd) : Dbl :=
  let j (d : Nat) : Int :=
    let i := k.idx.getD d 0
    let (w, o) := k.desc.wraps.getD d (0, 0)
    if w = 0 then i else ((i + o.toNat) % w.toNat : Nat)
  k.desc.mbase + BitVec.ofInt 64 ((k.nest.s0.zipIdx).foldl (fun z (st, d) => z + j d * st.toInt) 0)

/-- g1 and g2, modulo 2^32. -/
def Cmd.g1 (k : Cmd) : Nat := ((k.desc.sbase.toNat + genSum k.idx k.nest.s1) % 2 ^ 32).toNat
def Cmd.g2 (k : Cmd) : Nat := ((k.desc.xbase.toNat + genSum k.idx k.nest.s2) % 2 ^ 32).toNat

/-! ## Checks (R170) -/

/-- Pieces of a memory side: place in the row, place of memory, length. -/
abbrev Pieces := List (Nat × Nat × Nat)

/-- A range split at 128-byte lines. -/
def linePieces (at_ pa len : Nat) : Nat → Pieces
  | 0 => []
  | fuel + 1 =>
    if len = 0 then []
    else
      let n := Nat.min len (128 - pa % 128)
      (at_, pa, n) :: linePieces (at_ + n) (pa + n) (len - n) fuel

/-- A translation that the command holds for an access (R79, R184). -/
def Cmd.held (k : Cmd) (va : Nat) (n : Need) : Option TlbEntry :=
  k.xlat.find? fun t => t.va ≤ va && va < t.va + t.size && (checkNeed t n).isNone && !(n.s2.getLsbD 1 && t.clean)

/-- R75: another page of the same region, already translated, has other attributes. -/
def Cmd.attrClash (k : Cmd) (c : Nat) (e : TlbEntry) : Bool :=
  k.regions.any fun r => r.space == 0 && r.meets c e.va e.size
    && k.xlat.any fun t => t.attr != e.attr && r.meets c t.va t.size

/-- Translation of a page by the copy side, kept with the command (R184). -/
def State.copyPage (s : State) (c : Nat) (t : Task) (uid : Nat) (e : Engine) (va : Nat) (n : Need) :
    State × Except AFault TlbEntry :=
  match ((s.core c).queue e).find? fun k => k.uid == uid with
  | none => (s, .error (0x15, dbl va, 0))
  | some k =>
    match k.held va n with
    | some x => (s, .ok x)
    | none =>
      match s.translate (.copy c) t.fn (s.rootOf t.fn t.wq) va n with
      | (s, .error f) => (s, .error (f.cause, dbl va, f.info))
      | (s, .ok x) =>
        if k.attrClash c x then (s, .error (0x14, dbl va, 0))
        else (s.updCore c fun y => y.updCmd e uid fun k => { k with xlat := x :: k.xlat }, .ok x)

/-- Pieces of a virtual range and its attributes. -/
def State.copyRange (s : State) (c : Nat) (t : Task) (uid : Nat) (e : Engine) (n : Need) (at_ va len : Nat)
    (attr : Option (BitVec 9)) : Nat → State × Except AFault (Pieces × BitVec 9)
  | 0 => (s, .ok ([], attr.getD 0))
  | fuel + 1 =>
    if len = 0 then (s, .ok ([], attr.getD 0))
    else
      match s.copyPage c t uid e va n with
      | (s, .error f) => (s, .error f)
      | (s, .ok x) =>
        if attr.any (· != x.attr) then (s, .error (0x14, dbl va, 0))
        else
          let m := Nat.min len (x.va + x.size - va)
          match s.copyRange c t uid e n (at_ + m) (va + m) (len - m) (some x.attr) fuel with
          | (s, .error f) => (s, .error f)
          | (s, .ok (ps, a)) => (s, .ok (linePieces at_ (x.phys va) m (m / 128 + 2) ++ ps, a))

/-- R67 over a range of the die's window: its place, or the cause. -/
def State.windowRange (s : State) (c off len : Nat) : Except Nat Nat :=
  let last := off + len - 1
  let bad := (s.windowFault c off, s.windowFault c last)
  if off / 2 ^ 19 ≠ last / 2 ^ 19 then .error 0x16
  else if bad.1 ≠ 0 then .error bad.1
  else if bad.2 ≠ 0 then .error bad.2
  else .ok (arrayAt (windowCore (dieOf c) off) (windowX off))

/-- Every byte of a range lies in a region of the command of one of the kinds. -/
def Cmd.covers (k : Cmd) (c : Nat) (kinds : List RegKind) (space : BitVec 2) (p : Region → Bool) (lo len : Nat) : Bool :=
  let rs := k.regions.filter fun r => r.space == space && kinds.contains r.kind && p r
  -- one region over the whole range, or each byte in some region
  (List.range len).all fun i => rs.any fun r => r.has c (lo + i)

/-- Scratchpad bytes of a command: R170 steps 7 and 8. -/
def Cmd.spadOk (k : Cmd) (c : Nat) (t : Task) (kinds : List RegKind) (off len : Nat) : Bool :=
  k.covers c kinds 1 (fun _ => true) (c % 24 * 2 ^ 19 + off) len && off + len ≤ plainEnd t.spreq t.resid

def Cmd.slotOk (k : Cmd) (kinds : List RegKind) (side slot : Nat) : Bool :=
  k.regions.any fun r => r.space == 2 && kinds.contains r.kind && r.base.getLsbD (32 * side + slot)

/-- Memory-side bytes of a command: R170 step 7. -/
def Cmd.memOk (k : Cmd) (c : Nat) (kinds : List RegKind) (a : Dbl) (len : Nat) : Bool :=
  if isVirtual a then k.covers c kinds 0 (fun _ => true) a.toNat len
  else k.covers c kinds 1 (fun r => !isVirtual r.base) (windowOff a) len

def readKinds : List RegKind := [.rd, .rw]
def writeKinds : List RegKind := [.wr, .rw]

/-- What a checked memory side comes to. -/
structure MemSide where
  pieces : Pieces
  attr : BitVec 9
  isLocal : Bool
  deriving DecidableEq, Repr

/-- R170 steps 1 to 4 for one range; `format` is step 3, given the page's attributes, and `localFault` a cause that a
local address takes in its place. -/
def State.memSide (s : State) (c : Nat) (t : Task) (k : Cmd) (e : Engine) (a : Dbl) (len : Nat) (n : Need)
    (format : BitVec 9 → Bool) (localFault : Option Nat) : State × Except AFault MemSide :=
  if !formOk a || (!isVirtual k.desc.mbase && isVirtual a) then (s, .error (0x15, a, 0))
  else if isVirtual a then
    match s.copyRange c t k.uid e n 0 a.toNat len none (len / 2 ^ 16 + 2) with
    | (s, .error f) => (s, .error f)
    | (s, .ok (ps, attr)) => if format attr then (s, .ok ⟨ps, attr, false⟩) else (s, .error (0x14, a, 0))
  else
    match localFault with
    | some f => (s, .error (f, a, 0))
    | none =>
      match s.windowRange c (windowOff a) len with
      | .error f => (s, .error (f, a, 0))
      | .ok p => (s, .ok ⟨linePieces 0 p len (len / 128 + 2), 0, true⟩)

/-- R330: a pure task that reads host or peer memory, or another core's array, is tainted. -/
def State.taintPieces (s : State) (c : Nat) (ps : Pieces) : State :=
  if ps.any fun (_, pa, _) => (isArray pa && arrayCore pa != c) || isPeer pa || isHost pa then
    s.updCore c fun x => { x with task := x.task.map fun t =>
      if t.isPure then { t with pureInfo := some { t.pureInfo.getD PureInfo.blank with tainted := true } } else t }
  else s

/-! ## Issue of a transfer word (R160 to R162) -/

def Core.sideXfers (x : Core) (e : Engine) : List Xfer := x.copy.xfers.filter fun f => f.eng == e

/-- Two ranges of one space share a 32-byte granule. -/
def granulesMeet (p q : Nat × Nat × Nat) : Bool :=
  p.1 == q.1 && p.2.1 / 32 ≤ q.2.2 / 32 && q.2.1 / 32 ≤ p.2.2 / 32

/-- R161: the word is held by an earlier one of the side. -/
def Core.xferHeld (x : Core) (e : Engine) (reads writes : List (Nat × Nat × Nat)) : Bool :=
  (x.sideXfers e).any fun f =>
    (reads.any fun r => f.writes.any (granulesMeet r))
      || (writes.any fun w => f.writes.any (granulesMeet w) || f.reads.any (granulesMeet w))

/-- A range that is not empty. -/
def span (space lo len : Nat) : List (Nat × Nat × Nat) := if len = 0 then [] else [(space, lo, lo + len - 1)]

/-- The memory side of a range, as issued. -/
def memSpan (a : Dbl) (len : Nat) : List (Nat × Nat × Nat) := span (if isVirtual a then 0 else 1) a.toNat len

/-- Channel number over both sides (R159). -/
def chanOf (e : Engine) (ch : BitVec 2) : Nat := ch.toNat + if e == .store then 4 else 0

/-- xw of a channel: its lowest identifier not complete, or NXT (R162). -/
def Copy.watermark (y : Copy) (ch : Nat) : Copy :=
  let w := match y.xfers.find? fun f => f.ch == ch with
    | some f => f.ident
    | none => y.nxt.getD ch 0
  { y with xw := y.xw.set ch w }

/-- The word takes its identifier. -/
def Copy.takeIdent (y : Copy) (ch : Nat) : Copy := { y with nxt := y.nxt.set ch (y.nxt.getD ch 0 + 1) }

/-- XFER of a fault record: the identifier the word would take and its channel within the side (R186). -/
def Core.xferInfo (x : Core) (ch : Nat) : Dbl := dbl ((x.copy.nxt.getD ch 0).toNat + ch % 4 * 2 ^ 32)

/-- A check of the current word fails. -/
def State.copyFault (s : State) (ch : Nat) (f : AFault) : State :=
  s.wordFault f.1 f.2.1 ((s.core s.cur.core).xferInfo ch)

/-- A transfer that moves nothing completes at once (R172). -/
def State.zeroXfer (s : State) (ch : Nat) : State :=
  (s.engineIssue true).updCore s.cur.core fun x => { x with copy := (x.copy.takeIdent ch).watermark ch }

/-- A transfer issues: its identifier, its entry and its requests. -/
def State.startXfer (s : State) (k : Cmd) (ch : Nat) (i : Instr) (attr : BitVec 9) (got : List Byte)
    (reads writes : List (Nat × Nat × Nat)) (send : Nat → State → State) : State :=
  let c := s.cur.core
  let wid := s.nextId
  let f : Xfer :=
    { wid := wid, eng := s.cur.eng, ident := (s.core c).copy.nxt.getD ch 0, ch := ch, instr := i, cmd := k.uid,
      index := k.pos, iters := k.iters, g0 := k.g0, g1 := k.g1, g2 := k.g2, attr := attr, reqs := [], unsent := [], arrived := [], got := got,
      poison := false, landed := false, reads := reads, writes := writes }
  let s := (s.engineIssue false).updCore c fun x =>
    { x with copy := ({ x.copy.takeIdent ch with xfers := x.copy.xfers ++ [f] } : Copy).watermark ch }
  let first := s.nextId
  let s := send wid s
  let ids := (s.reqs.filter fun r => first ≤ r.id).map (·.id)
  s.updCore c fun x => { x with copy := { x.copy with xfers := x.copy.xfers.map fun f =>
    if f.wid == wid then { f with reqs := ids } else f } }

def State.xferOf (s : State) (c : Nat) (wid : Nat) : Option Xfer := (s.core c).copy.xfers.find? fun f => f.wid == wid

/-- First, third and fourth double of the fault record of a transfer, for a Machine check (R186). -/
def State.xferRecord (s : State) (c : Nat) (k : Cmd) (wid : Nat) : List Dbl :=
  match s.xferOf c wid with
  | none => []
  | some f =>
    [copyCause 0x20 (if f.eng == .store then 1 else 0) k.slot f.index, dbl (f.ident.toNat + f.ch % 4 * 2 ^ 32), dbl f.iters]

/-- Fields of a copy request (R166, R275). -/
def State.copyReq (s : State) (c : Nat) (t : Task) (k : Cmd) (wid : Nat) (src : ReqSrc) (kind : ReqKind) (pa len va : Nat) :
    Req :=
  { Req.blank src kind pa len with
    key := s.keyAt c pa, fn := t.fn, wq := t.wq, tc := if bits (cwFlags k.cw0) 0 1 = 1 then 0 else 1, va := va,
    record := s.xferRecord c k wid }

/-- Read requests of the pieces of a row; `va` gives the address of a place in the row. -/
def State.sendReads (s : State) (c : Nat) (t : Task) (k : Cmd) (wid : Nat) (va : Nat → Nat) : Pieces → State
  | [] => s
  | (o, pa, n) :: ps =>
    (s.sendRead (s.copyReq c t k wid (.copyRead c wid o) .read pa n (va o))).sendReads c t k wid va ps

/-- Write requests; `data` gives the bytes of the row. -/
def State.sendWrites (s : State) (c : Nat) (t : Task) (k : Cmd) (wid : Nat) (va : Nat → Nat) (data : List Byte) : Pieces → State
  | [] => s
  | (o, pa, n) :: ps =>
    (s.send { s.copyReq c t k wid (.copyWrite c wid) .write pa n (va o) with data := (data.drop o).take n }).sendWrites
      c t k wid va data ps

/-- The shared beginning of a transfer word: its task and command, the side's limit of 16 (R160), and a size of zero
(R172). -/
def State.transfer16 (s : State) (ch : Nat) (size : Nat) (go : Task → Cmd → State) : State :=
  match s.task, s.cmd with
  | some t, some k =>
    if 16 ≤ ((s.core s.cur.core).sideXfers s.cur.eng).length then s
    else if size = 0 then s.zeroXfer ch
    else go t k
  | _, _ => s

/-! ## LDT and STT (R180) -/

/-- The conversion of a row between a page and a scratchpad format. A local memory side has no page: its format is taken to
equal XF (R173), and no BLK is given for it; the model takes B = 32, which decides the element size of an MX XF there
(entry 68). -/
def rowConv (load : Bool) (attr : BitVec 9) (isLocal : Bool) (xf : Fmt) (rm : Rm) (sat : Bool) : Conv :=
  let page := if isLocal then xf else attrFormat attr
  { src := if load then page else xf, dst := if load then xf else page, blk := attrBlk attr, had := attrHad attr,
    lead := attrLead attr, rm := rm, sat := sat, plain := xf == .raw || page == .raw || xf == page }

/-- R174, R175: does the page admit the conversion? -/
def rowFormatOk (load : Bool) (xf : Fmt) (attr : BitVec 9) : Bool :=
  let page := attrFormat attr
  if xf == .raw || page == .raw || xf == page then true
  else if load then !xf.isMx
  else if page.isMx then !xf.isMx && (!attrHad attr || xf == .f32 || xf == .f16 || xf == .bf16)
  else true

/-- Bytes of the scratchpad side of a row whose memory side has `len` bytes (R173). -/
def Conv.spadLen (k : Conv) (load : Bool) (len : Nat) : Nat :=
  if k.plain then len
  else
    let page := if load then k.src else k.dst
    let other := if load then k.dst else k.src
    fmtSpan other k.blk (len / fmtBytes page k.blk * fmtCount page k.blk)

/-- A check fails. The fault is held until the word would issue: one that an earlier transfer holds waits for it first
(R161, R185). -/
def State.heldFault (s : State) (ch : Nat) (reads writes : List (Nat × Nat × Nat)) (f : AFault) : State :=
  if (s.core s.cur.core).xferHeld s.cur.eng reads writes then s else s.copyFault ch f

/-- R180 with the checks of R170 in their order. Before the page is known the first byte of the scratchpad side stands for
it in the comparison of R161. -/
def State.rowCopy (s : State) (load : Bool) (i : Instr) (chan : BitVec 2) (xf : Fmt) (rm : Rm) (sat : Bool) (len : Nat) :
    State :=
  let c := s.cur.core
  let e := s.cur.eng
  let ch := chanOf e chan
  s.transfer16 ch len fun t k =>
    let g0 := k.g0
    let g1 := k.g1
    match s.memSide c t k e g0 len (if load then Need.read else Need.write) (rowFormatOk load xf) none with
    | (s, .error f) =>
      if load then s.heldFault ch (memSpan g0 len) (span 2 g1 1) f else s.heldFault ch (span 2 g1 1) (memSpan g0 len) f
    | (s, .ok m) =>
      let conv := rowConv load m.attr m.isLocal xf rm sat
      let page := if load then conv.src else conv.dst
      let msz := fmtBytes page conv.blk
      let ssz := fmtBytes xf conv.blk
      let sp := conv.spadLen load len
      let mem := memSpan g0 len
      let spad := span 2 g1 sp
      let reads := if load then mem else spad
      let writes := if load then spad else mem
      if (s.core c).xferHeld e reads writes then s
      else if !page.isMx && g0.toNat % msz != 0 then s.copyFault ch (0x03, g0, 0)
      else if g1 % ssz ≠ 0 then s.copyFault ch (0x03, dbl g1, 0)
      else if len % msz ≠ 0 then s.copyFault ch (0x18, g0, 0)
      else if !k.memOk c (if load then readKinds else writeKinds) g0 len then s.copyFault ch (0x17, g0, 0)
      else if !k.spadOk c t (if load then writeKinds else readKinds) g1 sp then s.copyFault ch (0x17, dbl g1, 0)
      else if load then
        (s.taintPieces c m.pieces).startXfer k ch i m.attr [] reads writes fun wid s =>
          s.sendReads c t k wid (g0.toNat + ·) m.pieces
      else
        let out := conv.run s.freeCtr (s.readArray c g1 sp)
        let row := (List.range len).map fun j => tget out j 0
        let s := if s.storeBinds g0 len then s.irrevocable else s
        s.useFree.startXfer k ch i m.attr [] reads writes fun wid s => s.sendWrites c t k wid (g0.toNat + ·) row m.pieces

def execLdt (ch : BitVec 2) (xf : Fmt) (rm : Rm) (sat : Bool) (len : Imm 13) (s : State) : Result :=
  .next (s.rowCopy true (.ldt ch xf rm sat len) ch xf rm sat len.nat)
def execStt (ch : BitVec 2) (xf : Fmt) (rm : Rm) (sat : Bool) (len : Imm 13) (s : State) : Result :=
  .next (s.rowCopy false (.stt ch xf rm sat len) ch xf rm sat len.nat)

/-! ## LDO (R181) -/

/-- Does the core hold a slot by MCLAIM? -/
def Mat.holds (m : Mat) (side slot : Nat) : Bool := if side = 0 then m.claimA.getLsbD slot else m.claimB.getLsbD slot

def sideNum (b : Bool) : Nat := if b then 1 else 0

def execLdo (chan : BitVec 2) (sideB : Bool) (slot : BitVec 5) (len : Imm 13) (s : State) : Result :=
  let c := s.cur.core
  let e := s.cur.eng
  let ch := chanOf e chan
  let n := len.nat
  let side := sideNum sideB
  .next (s.transfer16 ch n fun t k =>
    let g0 := k.g0
    let g1 := k.g1
    let writes := span 3 (side * 2 ^ 21 + slot.toNat * 2 ^ 16 + g1) n
    match s.memSide c t k e g0 n Need.read (fun _ => true) (some 0x14) with
    | (s, .error f) => s.heldFault ch (memSpan g0 n) writes f
    | (s, .ok m) =>
      let page := attrFormat m.attr
      let msz := fmtBytes page (attrBlk m.attr)
      if (s.core c).xferHeld e (memSpan g0 n) writes then s
      else if !page.isMx && g0.toNat % msz != 0 then s.copyFault ch (0x03, g0, 0)
      else if n % msz ≠ 0 then s.copyFault ch (0x18, g0, 0)
      else if !k.memOk c readKinds g0 n then s.copyFault ch (0x17, g0, 0)
      else if !k.slotOk writeKinds side slot.toNat then s.copyFault ch (0x17, dbl g1, 0)
      else if !(s.core c).mat.holds side slot.toNat then s.copyFault ch (0x16, dbl g1, 0)
      else if 65536 < g1 + n then s.copyFault ch (0x16, dbl g1, 0)
      else
        (s.taintPieces c m.pieces).startXfer k ch (.ldo chan sideB slot len) m.attr [] (memSpan g0 n) writes fun wid s =>
          s.sendReads c t k wid (g0.toNat + ·) m.pieces)

/-! ## GTH and SCT (R182) -/

/-- The index vector at g2. -/
def State.indices (s : State) (c g2 cnt : Nat) : List Int :=
  (List.range cnt).map fun i => (BitVec.ofNat 32 (leNat (s.readArray c (g2 + 4 * i) 4))).toInt

/-- Address of element `j`. -/
def elemAddr (g0 : Dbl) (E : Nat) (i : Int) : Dbl := g0 + BitVec.ofInt 64 (i * (E : Int))

/-- R170 steps 1 to 4 for every element in its order: the pieces of all, with their places in the packed row. -/
def State.elemSides (s : State) (c : Nat) (t : Task) (k : Cmd) (e : Engine) (g0 : Dbl) (load : Bool) (E : Nat) :
    Nat → List Int → State × Except AFault Pieces
  | _, [] => (s, .ok [])
  | j, i :: is =>
    match s.memSide c t k e (elemAddr g0 E i) E (if load then Need.read else Need.write) (fun x => !(attrFormat x).isMx) none with
    | (s, .error f) => (s, .error f)
    | (s, .ok m) =>
      match s.elemSides c t k e g0 load E (j + 1) is with
      | (s, .error f) => (s, .error f)
      | (s, .ok ps) => (s, .ok ((m.pieces.map fun (o, pa, n) => (j * E + o, pa, n)) ++ ps))

/-- R170 steps 5 to 8 of an element-wise word: alignment of g0, g1 and g2, then the footprint of the elements, of the
scratchpad side and of the index vector. -/
def Cmd.elemFault (k : Cmd) (c : Nat) (t : Task) (load : Bool) (E cnt : Nat) (idx : List Int) : Option AFault :=
  if k.g0.toNat % E ≠ 0 then some (0x03, k.g0, 0)
  else if k.g1 % E ≠ 0 then some (0x03, dbl k.g1, 0)
  else if k.g2 % 4 ≠ 0 then some (0x03, dbl k.g2, 0)
  else
    match idx.find? fun i => !k.memOk c (if load then readKinds else writeKinds) (elemAddr k.g0 E i) E with
    | some i => some (0x17, elemAddr k.g0 E i, 0)
    | none =>
      if !k.spadOk c t (if load then writeKinds else readKinds) k.g1 (cnt * E) then some (0x17, dbl k.g1, 0)
      else if !k.spadOk c t readKinds k.g2 (4 * cnt) then some (0x17, dbl k.g2, 0)
      else none

/-- Write requests of a scatter: a byte that a later element writes too is left to that element. -/
def keepLast : Pieces → Pieces
  | [] => []
  | (o, pa, n) :: ps =>
    let free := (List.range n).filter fun i => !ps.any fun (_, q, m) => q ≤ pa + i && pa + i < q + m
    (if free.length = n then [(o, pa, n)] else free.map fun i => (o + i, pa + i, 1)) ++ keepLast ps

/-- GTH and SCT. The index vector is read first, since the addresses depend on it; g0 itself must have a form (R170). -/
def State.elemCopy (s : State) (load : Bool) (i : Instr) (chan esz : BitVec 4) (cnt : Nat) : State :=
  let c := s.cur.core
  let e := s.cur.eng
  let ch := chanOf e (chan.setWidth 2)
  let E : Nat := 2 ^ esz.toNat
  s.transfer16 ch cnt fun t k =>
    let idx := s.indices c k.g2 cnt
    let mem := idx.flatMap fun i => memSpan (elemAddr k.g0 E i) E
    let spad := span 2 k.g1 (cnt * E)
    let reads := span 2 k.g2 (4 * cnt) ++ if load then mem else spad
    let writes := if load then spad else mem
    let va (o : Nat) : Nat := (elemAddr k.g0 E (idx.getD (o / E) 0)).toNat + o % E
    if (s.core c).xferHeld e reads writes then s
    else if !formOk k.g0 || (!isVirtual k.desc.mbase && isVirtual k.g0) then s.copyFault ch (0x15, k.g0, 0)
    else
      match s.elemSides c t k e k.g0 load E 0 idx with
      | (s, .error f) => s.copyFault ch f
      | (s, .ok ps) =>
        match k.elemFault c t load E cnt idx with
        | some f => s.copyFault ch f
        | none =>
          if load then (s.taintPieces c ps).startXfer k ch i 0 [] reads writes fun wid s => s.sendReads c t k wid va ps
          else
            let row := s.readArray c k.g1 (cnt * E)
            let s := if idx.any fun i => s.storeBinds (elemAddr k.g0 E i) E then s.irrevocable else s
            s.startXfer k ch i 0 [] reads writes fun wid s => s.sendWrites c t k wid va row (keepLast ps)

def execGth (ch : BitVec 2) (esz : BitVec 4) (cnt : BitVec 16) (s : State) : Result :=
  .next (s.elemCopy true (.gth ch esz cnt) (ch.setWidth 4) esz cnt.toNat)
def execSct (ch : BitVec 2) (esz : BitVec 4) (cnt : BitVec 16) (s : State) : Result :=
  .next (s.elemCopy false (.sct ch esz cnt) (ch.setWidth 4) esz cnt.toNat)

/-! ## CVD and CVQ (R183) -/

def cvConv (w : CvWord) : Conv :=
  { src := w.sf, dst := w.df, blk := w.blk, had := w.had, lead := w.lead, rm := w.rm, sat := w.sat, plain := false }

/-- Bytes of the destination of a conversion in scratchpad. -/
def cvLen (w : CvWord) : Nat := fmtSpan w.df w.blk ((cvConv w).numbers w.len.toNat)

def State.convert (s : State) (i : Instr) (w : CvWord) : State :=
  let c := s.cur.core
  let e := s.cur.eng
  let ch := chanOf e w.ch
  let n := w.len.toNat
  s.transfer16 ch n fun t k =>
    let g1 := k.g1
    let g2 := k.g2
    let m := cvLen w
    let reads := span 2 g1 n
    let writes := span 2 g2 m
    if (s.core c).xferHeld e reads writes then s
    else if g1 % fmtBytes w.sf w.blk ≠ 0 then s.copyFault ch (0x03, dbl g1, 0)
    else if g2 % fmtBytes w.df w.blk ≠ 0 then s.copyFault ch (0x03, dbl g2, 0)
    else if n % fmtBytes w.sf w.blk ≠ 0 then s.copyFault ch (0x18, dbl g1, 0)
    else if !k.spadOk c t readKinds g1 n then s.copyFault ch (0x17, dbl g1, 0)
    else if !k.spadOk c t writeKinds g2 m then s.copyFault ch (0x17, dbl g2, 0)
    else if g1 < g2 + m ∧ g2 < g1 + n then s.copyFault ch (0x16, dbl g2, 0)
    else s.startXfer k ch i 0 (s.readArray c g1 n) reads writes fun _ s => s

def execCvd (w : CvWord) (s : State) : Result := .next (s.convert (.cvd w) w)
def execCvq (w : CvWord) (s : State) : Result := .next (s.convert (.cvq w) w)

/-! ## XID (R165) -/

/-- XID takes no identifier. What the XFER field of its fault record holds the manual does not say; the model writes the
channel's NXT, as for a transfer word (entry 69). -/
def execXid (chan : BitVec 2) (s : State) : Result :=
  let c := s.cur.core
  let ch := chanOf s.cur.eng chan
  .next (match s.task, s.cmd with
    | some t, some k =>
      if (s.core c).copy.xfers.any fun f => f.ch == ch then s
      else if k.g1 % 4 ≠ 0 then s.copyFault ch (0x03, dbl k.g1, 0)
      else if !k.spadOk c t writeKinds k.g1 4 then s.copyFault ch (0x17, dbl k.g1, 0)
      else
        let xw := (s.core c).copy.xw.getD ch 0
        ((s.writeArray c k.g1 (leBytes 4 xw.toNat)).fireLine (arrayAt c k.g1)).engineIssue true
    | _, _ => s)

/-! ## ACC (R288 to R290) -/

/-- Format of a page that takes a type's addends (R289). -/
def accFmt : AccTy → Nat
  | .s64 | .s32 => 0
  | .f64 => 1
  | .f32 => 2
  | .f16x2 => 3
  | .bf16x2 => 4

def accFormatOk (ty : AccTy) (a : BitVec 9) : Bool :=
  (attrFmt a == 0 || attrFmt a == accFmt ty) && attrNc a == 0 && !attrHad a && !attrBlk a

/-- Element mask of `n` bytes of a line (R290). -/
def accMask (ty : AccTy) (n : Nat) : Word := BitVec.ofNat 32 (2 ^ (n / accBytes ty) - 1)

/-- Intermediate address of a virtual one under a translation that the command holds. -/
def Cmd.ipaOf (k : Cmd) (va : Nat) : Nat :=
  ((k.xlat.find? fun e => e.va ≤ va && va < e.va + e.size).map fun e => e.ipa + (va - e.va)).getD 0

/-- One addend for each line (R290): the residual of its line and type is folded into it. -/
def State.sendAddends (s : State) (c : Nat) (t : Task) (k : Cmd) (wid va : Nat) (ty : AccTy) (row : List Byte) : Pieces → State
  | [] => s
  | (o, pa, n) :: ps =>
    let line := (row.drop o).take n ++ List.replicate (128 - n) 0
    let (s, bs, mask) := s.foldAddend c ty (va + o) line (accMask ty n)
    let r := { Req.blank (.addend c (some wid)) (.addend ty mask false) pa 128 with
      data := bs, key := s.keyAt c pa, fn := t.fn, wq := t.wq, tc := 2, va := va + o, ipa := (s.cmd.getD k).ipaOf (va + o),
      record := s.xferRecord c k wid }
    (s.send r).sendAddends c t k wid va ty row ps

def execAcc (chan : BitVec 2) (ty : AccTy) (len : Imm 13) (s : State) : Result :=
  let c := s.cur.core
  let e := s.cur.eng
  let ch := chanOf e chan
  let n := len.nat
  .next (s.transfer16 ch n fun t k =>
    let g0 := k.g0
    let g1 := k.g1
    let reads := span 2 g1 n
    match s.memSide c t k e g0 n Need.atomicRmw (accFormatOk ty) (some 0x16) with
    | (s, .error f) => s.heldFault ch reads (memSpan g0 n) f
    | (s, .ok m) =>
      if (s.core c).xferHeld e reads (memSpan g0 n) then s
      else if m.pieces.any fun (_, pa, _) => !isLocalHbm pa then s.copyFault ch (0x16, g0, 0)
      else if g0.toNat % 128 ≠ 0 then s.copyFault ch (0x03, g0, 0)
      else if g1 % 32 ≠ 0 then s.copyFault ch (0x03, dbl g1, 0)
      else if n % accBytes ty ≠ 0 then s.copyFault ch (0x18, g0, 0)
      else if !k.memOk c [.acc, .rw] g0 n then s.copyFault ch (0x17, g0, 0)
      else if !k.spadOk c t readKinds g1 n then s.copyFault ch (0x17, dbl g1, 0)
      else
        let row := s.readArray c g1 n
        s.irrevocable.startXfer k ch (.acc chan ty len) m.attr [] reads (memSpan g0 n) fun wid s =>
          s.sendAddends c t k wid g0.toNat ty row m.pieces)

/-- R52: NOP in an engine stream is complete in the cycle it issues. -/
def execEngineNop (s : State) : Result := .next (s.engineIssue true)

/-! ## Completion (R27, R162, R176) -/

/-- Is a request of a transfer over? Reads wait answered for the transfer; addends leave its list themselves. -/
def State.xferReqDone (s : State) (id : Nat) : Bool :=
  match s.req id with
  | none => true
  | some r => r.phase == .answered && !r.isAddend

def canCopyComplete (core : Nat) (eng : Engine) (wid : Nat) (s : State) : Bool :=
  (s.core core).freezes == []
    && (match s.xferOf core wid with
      | none => false
      | some f => f.eng == eng && !f.poison && f.unsent.isEmpty && f.reqs.all s.xferReqDone)

/-- While the domain is frozen the data of a transfer that issued before goes on moving (R126, R185). -/
def canCopyLand (core : Nat) (eng : Engine) (wid : Nat) (s : State) : Bool :=
  (s.core core).freezes != []
    && (match s.xferOf core wid with
      | none => false
      | some f => f.eng == eng && !f.poison && !f.landed && f.unsent.isEmpty && f.reqs.all s.xferReqDone
          && !(f.reqs.filterMap s.req).any (·.poison))

/-- Bytes that the reads of a transfer brought, by place in the row. -/
def rowBytes (rs : List Req) : List (Nat × Byte) :=
  rs.foldl (fun l r =>
    match r.src with
    | .copyRead _ _ o => (r.result.zipIdx).foldl (fun l (b, i) => tset (o + i) b l) l
    | _ => l) []

/-- Bytes with their places are written to the array. -/
def State.writeCells (s : State) (c base : Nat) : List (Nat × Byte) → State
  | [] => s
  | (i, b) :: l => (s.writeArray c (base + i) [b]).writeCells c base l

/-- Monitors of the 128-byte blocks that a written range of an array meets fire (R287). -/
def State.fireBlocks (s : State) (c lo n : Nat) : State :=
  (List.range ((lo + n - 1) / 128 + 1 - lo / 128)).foldl (fun s i => s.fireLine (arrayAt c ((lo / 128 + i) * 128))) s

/-- Bytes of a range as they stand, kept with a matrix word in flight: a word that reads them meanwhile may get these or the
new ones (R258). -/
def MInfl.keepOld (m : MInfl) (mem : List Host.Cell) (a n : Nat) : MInfl :=
  { m with old := m.old ++ (List.range n).map fun i => (a + i, memRead mem (a + i)) }

/-- A range of a quad's slots is about to be written. -/
def State.keepOld (s : State) (q a n : Nat) : State :=
  { s with cores := s.cores.map fun (p : Nat × Core) =>
      let keep (m : MInfl) : MInfl :=
        if (quadOf p.1 == q || quadOf m.leader == q) then m.keepOld s.mem a n else m
      (p.1, { p.2 with mat := { p.2.mat with infl := p.2.mat.infl.map keep } }) }

/-- What a completed load or conversion writes. -/
def State.xferWrite (s : State) (c : Nat) (f : Xfer) (row : List (Nat × Byte)) : State :=
  match f.instr with
  | .ldt _ xf rm sat _ =>
    let conv := rowConv true f.attr (!isVirtual f.g0) xf rm sat
    let out := conv.run s.freeCtr (row.map Prod.snd)
    (s.useFree.writeCells c f.g1 out).fireBlocks c f.g1 out.length
  | .gth .. => (s.writeCells c f.g1 row).fireBlocks c f.g1 row.length
  | .cvd w | .cvq w =>
    let out := (cvConv w).run s.freeCtr f.got
    (s.useFree.writeCells c f.g2 out).fireBlocks c f.g2 (cvLen w)
  | .ldo _ sideB slot _ =>
    let q := quadOf c
    let a := slotAt q (sideNum sideB) slot.toNat f.g1
    let s := s.keepOld q a row.length
    let s := { s with mem := memWrites a (row.map Prod.snd) s.mem }
    let tag : Tag := ⟨f.attr.extractLsb' 0 4, attrBlk f.attr, attrHad f.attr, attrLead f.attr, attrNc f.attr⟩
    s.updQuad q fun y => { y with tags := tset (32 * sideNum sideB + slot.toNat) tag y.tags }
  | _ => s

/-- Poisoned data is not written; the domain freezes and the queue parks (R185). -/
def State.xferPoison (s : State) (c : Nat) (f : Xfer) (r : Req) : State :=
  let s := s.updCore c fun x => { x with copy := { x.copy with xfers := x.copy.xfers.map fun g =>
    if g.wid == f.wid then { g with poison := true } else g } }
  match ((s.core c).queue f.eng).find? fun k => k.uid == f.cmd with
  | none => s
  | some k =>
    s.bodyFault c f.eng { k with iters := f.iters } 0x20 f.index (dbl r.va)
      (dbl (f.ident.toNat + f.ch % 4 * 2 ^ 32))

def State.copyComplete (s : State) (c : Nat) (wid : Nat) : State :=
  match s.xferOf c wid with
  | none => s
  | some f =>
    let rs := f.reqs.filterMap s.req
    match rs.find? (·.poison) with
    | some r => s.xferPoison c f r
    | none =>
      let s := if f.landed then s else s.xferWrite c f ((rowBytes rs).foldl (fun l (i, b) => tset i b l) f.arrived)
      let s := { s with reqs := s.reqs.filter fun r => !f.reqs.contains r.id }
      s.updCore c fun x =>
        let y := { x.copy with xfers := x.copy.xfers.filter fun g => g.wid != wid }
        ({ x with copy := y.watermark f.ch } : Core).completeWord f.eng wid

/-- The data lands; completion, signals and watermark wait for the thaw. -/
def State.copyLand (s : State) (c : Nat) (wid : Nat) : State :=
  match s.xferOf c wid with
  | none => s
  | some f =>
    (s.xferWrite c f ((rowBytes (f.reqs.filterMap s.req)).foldl (fun l (i, b) => tset i b l) f.arrived)).updCore c fun x =>
      { x with copy := { x.copy with xfers := x.copy.xfers.map fun (g : Xfer) => if g.wid == wid then { g with landed := true } else g } }

/-! ## A word that met poison issues again (R187) -/

/-- Pieces that a load reads, with the checks of R170 that depend on translation made anew. -/
def State.recheck (s : State) (c : Nat) (t : Task) (k : Cmd) (f : Xfer) : State × Except AFault (Pieces × BitVec 9) :=
  let row (n : Nat) (ok : BitVec 9 → Bool) (l : Option Nat) : State × Except AFault (Pieces × BitVec 9) :=
    match s.memSide c t k f.eng f.g0 n Need.read ok l with
    | (s, .error e) => (s, .error e)
    | (s, .ok m) => (s, .ok (m.pieces, m.attr))
  match f.instr with
  | .ldt _ xf _ _ len => row len.nat (rowFormatOk true xf) none
  | .ldo _ _ _ len => row len.nat (fun _ => true) (some 0x14)
  | .gth _ esz cnt =>
    match s.elemSides c t k f.eng f.g0 true (2 ^ esz.toNat) 0 (s.indices c f.g2 cnt.toNat) with
    | (s, .error e) => (s, .error e)
    | (s, .ok ps) => (s, .ok (ps, f.attr))
  | _ => (s, .ok ([], f.attr))

/-- Address of a place in a transfer's row. -/
def State.xferVa (s : State) (c : Nat) (f : Xfer) (o : Nat) : Nat :=
  match f.instr with
  | .gth _ esz cnt | .sct _ esz cnt =>
    let E := 2 ^ esz.toNat
    (elemAddr f.g0 E ((s.indices c f.g2 cnt.toNat).getD (o / E) 0)).toNat + o % E
  | _ => f.g0.toNat + o

def State.updXfer (s : State) (c wid : Nat) (g : Xfer → Xfer) : State :=
  s.updCore c fun x => { x with copy := { x.copy with xfers := x.copy.xfers.map fun f => if f.wid == wid then g f else f } }

/-- The word issues again: its checks and its translation are made anew, and its reads are sent; where a cause holds, it
faults again. -/
def State.reissue (s : State) (c : Nat) (f : Xfer) : State :=
  match (s.core c).task, ((s.core c).queue f.eng).find? fun k => k.uid == f.cmd with
  | some t, some k =>
    let k := { k with xlat := [] }
    let s := s.updCore c fun x => x.updCmd f.eng f.cmd fun k => { k with xlat := [] }
    match s.recheck c t k f with
    | (s, .error (cause, a, _)) =>
      s.bodyFault c f.eng { k with iters := f.iters } cause f.index a (dbl (f.ident.toNat + f.ch % 4 * 2 ^ 32))
    | (s, .ok (ps, attr)) =>
      let s := { s with reqs := s.reqs.filter fun r => !f.reqs.contains r.id }
      let first := s.nextId
      let s := (s.taintPieces c ps).sendReads c t k f.wid (s.xferVa c f) ps
      let ids := (s.reqs.filter fun r => first ≤ r.id).map (·.id)
      s.updXfer c f.wid fun g => { g with reqs := ids, unsent := [], arrived := [], poison := false, attr := attr }
  | _, _ => s

/-! ## Transfers at a freeze stop (R197) -/

/-- An addend at priority has been sent before. -/
def ReqKind.prio : ReqKind → Bool
  | .addend _ _ p => p
  | _ => false

/-- A side stops requesting: the requests of a transfer that have not left stay with it. How many have left, up to the
first that stands in no slice and has none after it in one, is open. -/
def State.withdraw (s : State) (c : Nat) (f : Xfer) : State :=
  let rs := f.reqs.filterMap s.req
  let left := rs.length - (rs.reverse.takeWhile fun r => r.phase == .travel && !r.kind.prio).length
  let out := rs.drop (left + s.freeNat % (rs.length - left + 1))
  let ids := out.map (·.id)
  let s := { s.useFree with reqs := s.reqs.filter fun r => !ids.contains r.id }
  s.updXfer c f.wid fun g => { g with reqs := g.reqs.filter fun i => !ids.contains i, unsent := g.unsent ++ out }

def State.withdrawXfers (s : State) (c : Nat) : State := (s.core c).copy.xfers.foldl (fun s f => s.withdraw c f) s

/-- Bytes of a load's source that one conversion step takes: a frame of an MX page, a block under a rotation, else an
element. -/
def Xfer.unit (f : Xfer) : Nat :=
  match f.instr with
  | .ldt _ xf rm sat _ =>
    let k := rowConv true f.attr (!isVirtual f.g0) xf rm sat
    if k.plain then 1
    else
      match fmtMx k.src with
      | some m => mxFrame m k.blk
      | none => fmtBytes k.src k.blk
  | _ => 1

/-- What has come is written, in whole steps of a conversion, and recorded; a transfer all of whose data has come lands. -/
def State.recordMoved (s : State) (c : Nat) (f : Xfer) : State :=
  let rs := f.reqs.filterMap s.req
  let poison := f.poison || rs.any (·.poison)
  let row := (rowBytes rs).foldl (fun l (i, b) => tset i b l) f.arrived
  let part := row.take (row.length / f.unit * f.unit)
  let s := if f.landed || poison || part.isEmpty then s else s.xferWrite c f (if f.unsent.isEmpty then row else part)
  let s := { s with reqs := s.reqs.filter fun r => !f.reqs.contains r.id }
  s.updXfer c f.wid fun g =>
    { g with reqs := [], poison := poison, landed := g.landed || (!poison && g.unsent.isEmpty), arrived := row }

/-- The lines not yet requested are requested, each translated and checked anew; where one meets a fault the domain freezes
and the queue parks, and the lines stay to be requested. -/
def State.requestRest (s : State) (c : Nat) (f : Xfer) : State :=
  match (s.core c).task, ((s.core c).queue f.eng).find? fun k => k.uid == f.cmd with
  | some t, some k =>
    let one (r : Req) (p : State × Except AFault (List Req)) : State × Except AFault (List Req) :=
      match p with
      | (s, .error e) => (s, .error e)
      | (s, .ok l) =>
        let src : ReqSrc := match r.src with
          | .copyRead _ w o => .copyRead c w o
          | .copyWrite _ w => .copyWrite c w
          | .addend _ w => .addend c w
          | x => x
        let go (s : State) (pa ipa : Nat) : State × Except AFault (List Req) :=
          (s, .ok ({ r with src := src, pa := pa, key := s.keyAt c pa, ipa := ipa } :: l))
        if isVirtual (dbl r.va) then
          match s.copyPage c t k.uid f.eng r.va (if r.kind == .read then Need.read else Need.write) with
          | (s, .error e) => (s, .error e)
          | (s, .ok x) => go s (x.phys r.va) (x.ipa + (r.va - x.va))
        else
          let off := windowOff (dbl r.va)
          go s (arrayAt (windowCore (dieOf c) off) (windowX off)) 0
    match f.unsent.foldr one (s, .ok []) with
    | (s, .error (cause, a, _)) =>
      s.bodyFault c f.eng { k with iters := f.iters } cause f.index a (dbl (f.ident.toNat + f.ch % 4 * 2 ^ 32))
    | (s, .ok rs) =>
      let first := s.nextId
      let s := rs.foldl (fun s r => s.sendRead r) s
      let ids := (s.reqs.filter fun r => first ≤ r.id).map (·.id)
      s.updXfer c f.wid fun g => { g with reqs := g.reqs ++ ids, unsent := [] }
  | _, _ => s

/-- At a resume, transfers that met poison issue again, and those that a stop held up go on. -/
def State.rereadXfers (s : State) (c : Nat) : List Xfer → State
  | [] => s
  | f :: fs =>
    (if f.poison then s.reissue c f else if f.unsent != [] then s.requestRest c f else s).rereadXfers c fs

end Sys2Proof.Machine
end

