-- ==== Sys2Proof/Machine/Rows.lean ====
section
/-! DEFINITION. Lazy context (R195, R235, R352 to R355): the rows of a quad, eviction to frames and return from them,
and the settlement of a row that a task needs. -/

namespace Sys2Proof.Machine

open Sys2Proof

/-! ## The 232 rows of a quad: 40 of each core array, 64 slots, 8 planes -/

def slotRow (side k : Nat) : Nat := 160 + 32 * side + k
def planeRow (p : Nat) : Nat := 224 + p
def arrayRow (c r : Nat) : Nat := 40 * memberOf c + r

/-- Offset of a row in its frame, and its size (R355). -/
def rowFrameOff (r : Nat) : Nat :=
  if r < 160 then r / 40 * 0x50000 + r % 40 * 0x2000
  else if r < 224 then 0x140000 + (r - 160) * 0x10000
  else 0x540000 + (r - 224) * 0x40000

def rowSize (r : Nat) : Nat := if r < 160 then 0x2000 else if r < 224 then 0x10000 else 0x40000

/-- Where a row of an array or a slot stands among the places of memory. -/
def rowAt (q r : Nat) : Nat :=
  if r < 160 then arrayAt (4 * q + r / 40) (r % 40 * 0x2000) else slotAt q 0 (r - 160) 0

def planeIndex (p row col : Nat) : Nat := 32768 * p + 256 * row + col

/-- Bytes of a row. -/
def State.rowBytes (s : State) (q r : Nat) : List Byte :=
  if r < 224 then memReads s.mem (rowAt q r) (rowSize r)
  else (List.range 32768).flatMap fun i => leBytes 8 (tget (s.quad q).planes (32768 * (r - 224) + i) 0).toNat

/-- A plane's accumulators; +0 is what an absent number holds. -/
def Quad.setAcc (x : Quad) (i : Nat) (v : Dbl) : Quad :=
  { x with planes := if v = 0 then terase i x.planes else tset i v x.planes }

/-- The accumulators of a plane from a list. -/
def Quad.setPlane (x : Quad) (p : Nat) (vs : List Dbl) : Quad :=
  (vs.zipIdx).foldl (fun x (v, i) => x.setAcc (32768 * p + i) v) x

def State.setRowBytes (s : State) (q r : Nat) (bs : List Byte) : State :=
  if r < 224 then { s with mem := memWrites (rowAt q r) bs s.mem }
  else s.updQuad q fun x => x.setPlane (r - 224) ((List.range 32768).map fun i => dbl (leNat ((bs.drop (8 * i)).take 8)))

def Row.live (o : Row) : Row := { o with state := .live }

/-- State and owner of a row. -/
def State.rowOf (s : State) (q r : Nat) : Row :=
  if r < 160 then tget (s.core (4 * q + r / 40)).rows (r % 40) Row.reset else tget (s.quad q).rows (r - 160) Row.reset

def State.setRow (s : State) (q r : Nat) (o : Row) : State :=
  if r < 160 then s.updCore (4 * q + r / 40) fun x => { x with rows := tset (r % 40) o x.rows }
  else s.updQuad q fun x => { x with rows := tset (r - 160) o x.rows }

/-- Format tag of a slot's row; other rows have none. -/
def State.rowTag (s : State) (q r : Nat) : Tag := if 160 ≤ r ∧ r < 224 then tget (s.quad q).tags (r - 160) Tag.reset else Tag.reset

def State.setRowTag (s : State) (q r : Nat) (t : Tag) : State :=
  if 160 ≤ r ∧ r < 224 then s.updQuad q fun x => { x with tags := if t = Tag.reset then terase (r - 160) x.tags else tset (r - 160) t x.tags }
  else s

def State.rowPoison (s : State) (q r : Nat) : Bool := 224 ≤ r && (s.quad q).poison.getLsbD (r - 224)

def State.setRowPoison (s : State) (q r : Nat) (b : Bool) : State :=
  if 224 ≤ r then
    s.updQuad q fun x =>
      let m : Byte := BitVec.twoPow 8 (r - 224)
      { x with poison := if b then x.poison ||| m else x.poison &&& ~~~m }
  else s

/-- A row is zeroed, its tag becomes FMT 0 and its poison is cleared. -/
def State.zeroRow (s : State) (q r : Nat) : State :=
  ((s.setRowBytes q r (List.replicate (rowSize r) 0)).setRowTag q r Tag.reset).setRowPoison q r false

/-! ## Eviction and return (R355) -/

/-- Address of a quad's frame. -/
def State.frameAt (s : State) (fn q : Nat) : Nat := (s.fn fn).evict + tget (s.fn fn).frames q 0 * 0x750000

/-- Function of a world tag. -/
def tagFn (w : Nat) : Nat := w / 8

/-- Bytes of the frame's last 64 KiB are not laid out: they become free values. -/
def State.freeBytes (s : State) (key a n : Nat) : State :=
  (s.writeQuiet key a ((List.range n).map fun i => BitVec.ofNat 8 (Config.freeNat (s.freeCtr + i)))).useFree

/-- A held row goes to its owner's frame, under its owner's key. -/
def State.evictRow (s : State) (q r : Nat) : State :=
  let o := s.rowOf q r
  let fn := tagFn o.wtag
  let key := (s.fn fn).key
  let e : Evicted := ⟨tget (s.fn fn).frames q 0, r, o, s.rowTag q r, s.rowPoison q r⟩
  let s := (s.writeQuiet key (s.frameAt fn q + rowFrameOff r) (s.rowBytes q r)).freeBytes key (s.frameAt fn q + 0x740000) 0x10000
  s.updFn fn fun f => { f with evicted := f.evicted ++ [e] }

/-- An owner's evicted row comes back into its place. -/
def State.returnRow (s : State) (q r : Nat) (o : Row) : State :=
  let fn := tagFn o.wtag
  match (s.fn fn).evicted.find? fun e => e.row == r && e.frame == tget (s.fn fn).frames q 0 && e.owner == { o with state := e.owner.state } with
  | none => s
  | some e =>
    let bs := s.readPhys (s.fn fn).key (s.frameAt fn q + rowFrameOff r) (rowSize r)
    let s := ((s.setRowBytes q r bs).setRowTag q r e.tag).setRowPoison q r e.poison
    s.updFn fn fun f => { f with evicted := f.evicted.filter fun x => x != e }

/-! ## Probe lines and residual slots of a core-array row -/

/-- Probe lines of a row are written back and dropped. -/
def State.dropRowLines (s : State) (c r : Nat) : State :=
  let ls := (s.core c).copy.lines.filter fun l => l.slot / 0x2000 == r
  let s := s.writeBackList c 0 (ls.filter fun l => l.dirty != 0)
  s.updCore c fun x => { x with copy := { x.copy with lines := x.copy.lines.filter fun l => l.slot / 0x2000 != r } }

/-- The saved task that owns a row. -/
def State.savedOf (s : State) (c : Nat) (o : Row) : Option Saved :=
  (s.fn (tagFn o.wtag)).away.find? fun v =>
    v.place == c && worldTag v.task.fn v.task.wq == o.wtag && v.task.rseq == o.rseq && v.task.tseq == o.tseq

/-- One residual slot of a saved task is delivered at priority; its bytes lie in the task's residual row. -/
def State.deliverSaved (s : State) (c : Nat) (v : Saved) (pending : Bool) (i : Nat) : State :=
  let t := v.core.resTag i
  if t.valid then
    s.send { Req.blank (.addend derailleur none) (.addend t.ty t.mask true) t.pa 128 with
      data := s.readArray c (v.core.residAt i) 128, key := t.key, va := t.va, ipa := t.ipa, tc := 2, fn := v.task.fn,
      wq := v.task.wq, pending := pending }
  else s

/-- R353: the residual slots of a held task whose residual row is evicted are delivered, their meters counting in the
pending counters (R295), and the saved block's VALID
bits are cleared, in the save area too (R300). -/
def State.deliverRow (s : State) (c r : Nat) (v : Saved) : State :=
  if v.task.resid ∧ r + 1 = v.core.spreq then
    let s := (List.range 64).foldl (fun s i => s.deliverSaved c v true i) s
    let x := (List.range 64).foldl (fun (x : Core) i => x.emptySlot i) v.core
    let s := s.updFn v.task.fn fun f => { f with away := f.away.map fun w => if w == v then { w with core := x } else w }
    match v.addr with
    | none => s
    | some a => (List.range 64).foldl (fun s i =>
        let p := a + 0x26AC0 + 0x40 + 24 * i
        s.writeQuiet 1 p [(s.readByte 1 p) &&& ~~~(8 : Byte)]) s
  else s

/-! ## Settlement (R353) -/

def Task.row (t : Task) : Row := ⟨.live, worldTag t.fn t.wq, t.rseq, t.tseq⟩

def sameOwner (a b : Row) : Bool := a.wtag == b.wtag && a.rseq == b.rseq && a.tseq == b.tseq

/-- A row that a task needs is settled, and the task owns it. -/
def State.settleRow (s : State) (q r : Nat) (t : Task) : State :=
  let o := s.rowOf q r
  let c := 4 * q + r / 40
  let s :=
    if sameOwner o t.row then s
    else
      match o.state with
      | .held =>
        let s := if r < 160 then
            let s := s.dropRowLines c (r % 40)
            match s.savedOf c o with
            | some v => s.deliverRow c (r % 40) v
            | none => s
          else s
        s.evictRow q r
      | .released =>
        if tagFn o.wtag = t.fn then s
        else (if r < 160 then s.dropRowLines c (r % 40) else s).zeroRow q r
      | .free | .live => s
  s.setRow q r t.row

def State.settleRows (s : State) (q : Nat) (t : Task) : List Nat → State
  | [] => s
  | r :: rs => (s.settleRow q r t).settleRows q t rs

/-- All 40 rows of a core. -/
def coreRows (c : Nat) : List Nat := (List.range 40).map (arrayRow c)

/-- Rows of a claim mask. -/
def claimRows (side : MSide) (mask : Word) : List Nat :=
  match side with
  | .a => ((List.range 32).filter fun k => mask.getLsbD k).map (slotRow 0)
  | .b => ((List.range 32).filter fun k => mask.getLsbD k).map (slotRow 1)
  | .acc => ((List.range 8).filter fun k => mask.getLsbD k).map planeRow

/-- Rows of an owner change state: a task is stopped, resumes or is over. -/
def State.markRows (s : State) (q : Nat) (o : Row) (st : RowState) : State :=
  (List.range 232).foldl (fun s r => if sameOwner (s.rowOf q r) o && (s.rowOf q r).state != .free then
    s.setRow q r { s.rowOf q r with state := st } else s) s

/-! ## Claims (R235) -/

def Mat.claimOf (m : Mat) (side : MSide) : Word :=
  match side with
  | .a => m.claimA
  | .b => m.claimB
  | .acc => m.claimP.setWidth 32

def Mat.setClaim (m : Mat) (side : MSide) (w : Word) : Mat :=
  match side with
  | .a => { m with claimA := w }
  | .b => { m with claimB := w }
  | .acc => { m with claimP := w.setWidth 8 }

/-- Cores of a quad. -/
def quadCores (q : Nat) : List Nat := (List.range 4).map fun m => 4 * q + m

/-- Is an item of the mask claimed by a task resident on another core of the quad? -/
def State.claimBlocked (s : State) (c : Nat) (side : MSide) (mask : Word) : Bool :=
  (quadCores (quadOf c)).any fun o =>
    o != c && (s.core o).task.isSome && ((s.core o).mat.claimOf side &&& mask) != 0

/-- The claim is made: its rows are settled and belong to the core's task; what was evicted of them comes back. -/
def State.takeClaim (s : State) (c : Nat) (side : MSide) (mask : Word) : State :=
  match (s.core c).task with
  | none => s
  | some t =>
    let q := quadOf c
    let s := s.settleRows q t (claimRows side mask)
    let s := (claimRows side mask).foldl (fun s r => s.returnRow q r t.row) s
    s.updCore c fun x => { x with mat := x.mat.setClaim side (x.mat.claimOf side ||| mask) }

/-- Items are released; their rows keep what they hold. -/
def State.dropClaim (s : State) (c : Nat) (side : MSide) (mask : Word) : State :=
  let q := quadOf c
  let mine := (s.core c).mat.claimOf side &&& mask
  let s := (claimRows side mine).foldl (fun s r => s.setRow q r { s.rowOf q r with state := .released }) s
  s.updCore c fun x => { x with mat := x.mat.setClaim side (x.mat.claimOf side &&& ~~~mask) }

/-- Every claim of a core is released (R235). -/
def State.dropClaims (s : State) (c : Nat) : State :=
  ((s.dropClaim c .a (BitVec.allOnes 32)).dropClaim c .b (BitVec.allOnes 32)).dropClaim c .acc (BitVec.allOnes 32)

end Sys2Proof.Machine
end

