-- ==== Sys2Proof/Machine/Algebra.lean ====
section
/-! DEFINITION. Structure tables (R219, R237, R238): images, presets, and the exact sums of products that they
define. -/

namespace Sys2Proof.Machine

open Sys2Proof

/-- Entry t of an image's ENT string: sign code and target (R237). -/
def imageEntry (bs : List Byte) (t : Nat) : Nat × Nat :=
  let v := bits (leNat ((bs.drop 8).take 40)) (5 * t) 5
  (v / 8, v % 8)

def signOfCode (n : Nat) : Int := if n = 1 then 1 else if n = 3 then -1 else 0

def codeOfSign (z : Int) : Nat := if z = 0 then 0 else if 0 < z then 1 else 3

def imageN (bs : List Byte) : Nat := (bs.getD 0 0).toNat

/-- The table that an image holds. -/
def algOfImage (bs : List Byte) : AlgTab where
  n := imageN bs
  conj := bs.getD 1 0
  ents := (List.range (imageN bs * imageN bs)).map fun t => (signOfCode (imageEntry bs t).1, (imageEntry bs t).2)

/-- R219: a component count, a sign code or a target that makes VMOV.tab fault. -/
def imageFaults (bs : List Byte) : Bool :=
  let n := imageN bs
  !(n == 1 || n == 2 || n == 4 || n == 8)
    || (List.range (n * n)).any fun t => (imageEntry bs t).1 == 2 || n ≤ (imageEntry bs t).2

/-- R237: an image that MTAB refuses. -/
def imageInvalid (bs : List Byte) : Bool :=
  let n := imageN bs
  imageFaults bs
    || (bs.getD 1 0).toNat / 2 ^ n != 0
    || (List.range (n * n)).any (fun t => (imageEntry bs t).1 == 0 && (imageEntry bs t).2 != 0)
    || leNat ((bs.drop 8).take 40) / 2 ^ (5 * (n * n)) != 0
    || ((bs.drop 2).take 6).any (· != 0) || ((bs.drop 0x30).take 16).any (· != 0)

/-- The image of a table (R229, R237, R270). -/
def AlgTab.image (a : AlgTab) : List Byte :=
  BitVec.ofNat 8 a.n :: a.conj :: List.replicate 6 0
    ++ leBytes 40 ((a.ents.zipIdx).foldl (fun v ((z, k), t) => v + (codeOfSign z * 8 + k) * 2 ^ (5 * t)) 0)
    ++ List.replicate 16 0

/-- Entry of the blade rule for ALG.G2 and ALG.G3 (R238). -/
def bladeEntry (n t : Nat) : Int × Nat :=
  let i := t / n
  let j := t % n
  let s := ((List.range 3).map fun b => if bits j b 1 = 1 then ones 8 (i / 2 ^ (b + 1)) else 0).foldr (· + ·) 0
  (if s % 2 = 0 then 1 else -1, i ^^^ j)

/-- The presets (R238). -/
def presetTab : Preset → AlgTab
  | .r => AlgTab.real
  | .c => ⟨2, 0x02, [(1, 0), (1, 1), (1, 1), (-1, 0)]⟩
  | .s => ⟨2, 0x02, [(1, 0), (1, 1), (1, 1), (1, 0)]⟩
  | .h => ⟨4, 0x0E, [(1, 0), (1, 1), (1, 2), (1, 3), (1, 1), (-1, 0), (1, 3), (-1, 2),
      (1, 2), (-1, 3), (-1, 0), (1, 1), (1, 3), (1, 2), (-1, 1), (-1, 0)]⟩
  | .g2 => ⟨4, 0x0E, (List.range 16).map (bladeEntry 4)⟩
  | .g3 => ⟨8, 0x7E, (List.range 64).map (bladeEntry 8)⟩

/-- Sign and target of a pair of components. -/
def AlgTab.entry (a : AlgTab) (i j : Nat) : Int × Nat := a.ents.getD (i * a.n + j) (0, 0)

/-- Is component c negated by conjugation? -/
def AlgTab.conjugates (a : AlgTab) (c : Nat) : Bool := a.conj.getLsbD c

/-- The signed products of component k of x ⊗ y; a pair of zero sign is no term (R220, R248). -/
def AlgTab.terms (a : AlgTab) (x y : List FVal) (k : Nat) : List FVal :=
  (List.range a.n).flatMap fun i => (List.range a.n).filterMap fun j =>
    let e := a.entry i j
    if e.1 = 0 ∨ e.2 ≠ k then none
    else
      let p := (x.getD i (.fin false 0 0)).mul (y.getD j (.fin false 0 0))
      some (if e.1 < 0 then p.neg else p)

/-- x conjugated under the table's mask. -/
def AlgTab.conjOf (a : AlgTab) (x : List FVal) : List FVal :=
  x.mapIdx fun c v => if a.conjugates c then v.neg else v

end Sys2Proof.Machine
end

