-- ==== Sys2Proof/Machine/Vector.lean ====
section
/-! DEFINITION. The vector engine (R198 to R228): contexts, ports and their checks, the words, their completion, and
the relocation of commands. -/

namespace Sys2Proof.Machine

open Sys2Proof

/-! ## The context of a command (R225) -/

/-- Context that the current word works on. -/
def State.vctx (s : State) : VCtx :=
  match s.cmd with
  | some k => if k.reloc then k.ctx.getD VCtx.reset else (s.core s.cur.core).vec.own
  | none => (s.core s.cur.core).vec.own

def State.updVctx (s : State) (f : VCtx → VCtx) : State :=
  s.updCore s.cur.core fun x =>
    match (x.queue .vec).find? fun k => k.uid == s.cur.cmd with
    | some k =>
      if k.reloc then x.updCmd .vec k.uid fun k => { k with ctx := k.ctx.map f }
      else { x with vec := { x.vec with own := f x.vec.own } }
    | none => x

/-- Vector words of a core in flight, in all its contexts. -/
def Core.vecInfl (x : Core) : List VInfl :=
  x.vec.own.infl ++ (x.queue .vec).flatMap fun k => (k.ctx.map (·.infl)).getD []

/-- Words in flight on the engine that runs a command: its own context's alone on a sibling, the rest on the owner's engine
(R225). -/
def Core.engineInfl (x : Core) (k : Cmd) : List VInfl :=
  let ctx (k : Cmd) : List VInfl := (k.ctx.map (·.infl)).getD []
  if k.takenBy.isSome then ctx k
  else x.vec.own.infl ++ ((x.queue .vec).filter fun j => j.takenBy.isNone).flatMap ctx

/-! ## Ports (R200 to R202) -/

/-- Generator g of an iteration: 0 none, 1 to 3 g0 to g2 (R201). -/
def Cmd.gen (k : Cmd) (g : BitVec 2) : Int :=
  match g with
  | 0 => 0
  | 1 => genSum k.idx k.nest.s0
  | 2 => genSum k.idx k.nest.s1
  | _ => genSum k.idx k.nest.s2

def VCtx.pset (v : VCtx) (port : Nat) : PSet := v.psets.getD (v.binds.getD port 0) PSet.reset

/-- Address of an access of a port (R201). -/
def VCtx.portAddr (v : VCtx) (k : Cmd) (port : Nat) : Nat :=
  let p := v.pset port
  (((p.base + v.poss.getD port 0).toNat + k.gen p.gsel) % 2 ^ 32).toNat

/-- Address of a lane. -/
def laneAddr (a lstr l : Nat) : Nat := (a + l * lstr) % 2 ^ 32

/-- POS := POS + n x STEP. -/
def VCtx.advance (v : VCtx) (port n : Nat) : VCtx :=
  { v with poss := v.poss.modify port fun p => p + BitVec.ofNat 32 n * (v.pset port).step }

/-- Bytes of a 64-bit lane that a mask of bits touches. -/
def keptBytes (m : Dbl) : List Nat := (List.range 8).filter fun i => bits m.toNat (8 * i) 8 != 0

/-- R202 for one access of a port: cause, own-array offset and lane of the first failing check. -/
def portCheck (t : Task) (k : Cmd) (c : Nat) (kinds : List RegKind) (a lstr : Nat) (keep : List Dbl) :
    Option (Nat × Nat × Nat) :=
  let cells := keep.zipIdx.flatMap fun (m, l) => (keptBytes m).map fun i => (laneAddr a lstr l + i, l)
  if cells.isEmpty then none
  else if a % 8 ≠ 0 then some (0x03, a, 0)
  else if lstr % 8 ≠ 0 then some (0x03, laneAddr a lstr 1, 1)
  else
    let at_ := c % 24 * 2 ^ 19
    let rs := k.regions.filter fun r => r.space == 1 && kinds.contains r.kind
    match cells.find? fun (b, _) => 2 ^ 19 ≤ b || !rs.any fun r => r.has c (at_ + b) with
    | some (b, l) => some (0x17, b, l)
    | none => (cells.find? fun (b, _) => plainEnd t.spreq t.resid ≤ b).map fun (b, l) => (0x17, b, l)

/-- All lanes, whole. -/
def keepAll : List Dbl := List.replicate 64 (BitVec.allOnes 64)

/-- R209: an incomplete w0 write covers a lane that the port would read. -/
def Core.portHeld (x : Core) (a lstr : Nat) : Bool :=
  x.vecInfl.any fun f => f.writes.any fun w => w.code == 11
    && w.keep.zipIdx.any fun (m, l) => m != 0
      && (List.range 64).any fun j => laneAddr a lstr j / 8 == laneAddr f.addr f.lstr l / 8

/-! ## A vector word -/

/-- What the current word computes: results, a mask, flags. -/
structure VOut where
  writes : List VWrite
  mask : Option (BitVec 2 × Dbl)
  flags : Exc
  clear : Bool
  tab : Option AlgTab
  meter : Nat
  ops : Nat
  deriving DecidableEq, Repr

/-- Words without a type count their active lanes on meter 9 (R380). -/
def VOut.of (code : BitVec 4) (lanes keep : List Dbl) (f : Exc) : VOut :=
  ⟨[⟨code, lanes, keep⟩], none, f, false, none, 9, (keep.filter (· != 0)).length⟩
def VOut.ofMask (md : BitVec 2) (m : Dbl) (f : Exc) : VOut := ⟨[], some (md, m), f, false, none, 9, 64⟩
/-- A word without a destination. -/
def VOut.none : VOut := ⟨[], Option.none, 0, false, Option.none, 9, 0⟩

/-- Meter of a type (R380). -/
def vecMeter : VTy → Nat
  | .f64 => 6
  | .f32 => 7
  | .f16 | .bf16 => 8
  | .s64 | .z64 | .s32 | .z32 => 9

def VOut.counted (o : VOut) (t : VTy) (n : Nat) : VOut := { o with meter := vecMeter t, ops := n }
/-- Two operations for each element. -/
def VOut.twice (o : VOut) : VOut := { o with ops := 2 * o.ops }

/-- Ports that a list of source codes names, in the order p0, p1, p2 (R201). -/
def portsOf (srcs : List (BitVec 4)) : List Nat := [0, 1, 2].filter fun p => srcs.any fun c => c.toNat == 8 + p

/-- R208: a register or mask that the word reads or writes is in flight. -/
def VCtx.interlocked (v : VCtx) (codes : List (BitVec 4)) (masks : List (BitVec 2)) : Bool :=
  v.infl.any fun f =>
    f.writes.any (fun w => w.code.toNat < 8 && codes.contains w.code)
      || (match f.mask with
        | some (m, _) => masks.contains m
        | none => false)

/-- Value of a source operand; port values were read once for the word (R201, R204). -/
def VCtx.opd (v : VCtx) (ports : List (Nat × List Dbl)) (c : BitVec 4) : List Dbl :=
  if c.toNat < 8 then v.regs.getD c.toNat []
  else if c == 13 then (List.range 64).map dbl
  else
    match ports.find? fun (p, _) => c.toNat == 8 + p with
    | some (_, l) => l
    | none => List.replicate 64 0

/-- The 64 lanes that a port reads. -/
def State.portLanes (s : State) (c a lstr : Nat) : List Dbl :=
  (List.range 64).map fun l => dbl (leNat (s.readArray c (laneAddr a lstr l) 8))

/-- Does the word use vt? It then waits for a VMOV.tab in flight. -/
def VCtx.tabPending (v : VCtx) : Bool := v.infl.any fun f => f.tab.isSome

/-- The shared course of a vector word: its waits, its port reads and their checks, its result, and the check of its
w0 write (R201, R202, R208, R209). `lat` is the latency of the word (R206); `go` answers the result, or a Format fault
(R219). -/
def State.vecWord (s : State) (lat : Nat) (srcs : List (BitVec 4)) (masks : List (BitVec 2)) (dests : List (BitVec 4))
    (ready : VCtx → Bool) (go : VCtx → (BitVec 4 → List Dbl) → Option VOut) : State :=
  match s.task, s.cmd with
  | some t, some k =>
    let c := s.cur.core
    let x := s.core c
    let v := s.vctx
    if 12 ≤ (x.engineInfl k).length || v.interlocked (srcs ++ dests) masks || !ready v then s
    else
      let ports := (portsOf srcs).map fun p => (p, v.portAddr k p, (v.pset p).lstr.toNat)
      if ports.any fun (_, a, l) => x.portHeld a l then s
      else
        match ports.findSome? fun (p, a, l) => (portCheck t k c readKinds a l keepAll).map fun f => (p, f) with
        | some (p, cause, b, l) => s.wordFault cause (dbl b) (dbl (p + 4 * l))
        | none =>
          match go v (v.opd (ports.map fun (p, a, l) => (p, s.portLanes c a l))) with
          | none => s.wordFault 0x14 0 0
          | some out =>
            let wa := v.portAddr k 3
            let wl := (v.pset 3).lstr.toNat
            match (out.writes.filter fun w => w.code == 11).findSome? fun w => portCheck t k c writeKinds wa wl w.keep with
            | some (cause, b, l) => s.wordFault cause (dbl b) (dbl (3 + 4 * l))
            | none =>
              let f : VInfl :=
                { wid := s.nextId, cmd := k.uid, index := k.pos, writes := out.writes, mask := out.mask,
                  flags := out.flags, clear := out.clear, addr := wa, lstr := wl, tab := out.tab, latency := lat,
                  meter := out.meter, ops := out.ops }
              (s.updVctx fun v =>
                let v := ports.foldl (fun v (p, _, _) => v.advance p 1) v
                let v := if dests.contains 11 then v.advance 3 1 else v
                { v with infl := v.infl ++ [f] }).engineIssue false
  | _, _ => s

def always (_ : VCtx) : Bool := true
/-- The word reads vt. -/
def readsTab (v : VCtx) : Bool := !v.tabPending

/-- Lanes active under MK (R204). -/
def VCtx.active (v : VCtx) (mk : BitVec 2) (l : Nat) : Bool := mk == 0 || (v.masks.getD mk.toNat 0).getLsbD l

/-- Whole active lanes. -/
def VCtx.keep (v : VCtx) (mk : BitVec 2) : List Dbl :=
  (List.range 64).map fun l => if v.active mk l then BitVec.allOnes 64 else 0

/-- Masks that MK reads. -/
def mkReads (mk : BitVec 2) : List (BitVec 2) := if mk == 0 then [] else [mk]

/-! ## Elements (R198) -/

/-- Width of an element. -/
def vwidth (t : VTy) : Nat := 64 / t.perLane

/-- Elements of a vector in ascending index. -/
def velems (t : VTy) (v : List Dbl) : List Nat :=
  v.flatMap fun x => (List.range t.perLane).map fun k => bits x.toNat ((vwidth t) * k) (vwidth t)

/-- One lane of elements from a list of them. -/
def packLane (w : Nat) : List Nat → Nat
  | [] => 0
  | x :: xs => x % 2 ^ w + 2 ^ w * packLane w xs

/-- Lanes of a list of elements. -/
def vpack (t : VTy) (l : List Nat) : List Dbl :=
  (List.range 64).map fun i => dbl (packLane (vwidth t) ((l.drop (i * t.perLane)).take t.perLane))

/-- Flags raised by elements of active lanes (R210). -/
def VCtx.flagsOf (v : VCtx) (mk : BitVec 2) (t : VTy) (fs : List Exc) : Exc :=
  excAll (fs.mapIdx fun j f => if v.active mk (j / t.perLane) then f else 0)

def ftyVTy : FTy → VTy
  | .f64 => .f64
  | .f32 => .f32
  | .f16 => .f16
  | .bf16 => .bf16

def ityVTy : ITy → VTy
  | .s64 => .s64
  | .z64 => .z64
  | .s32 => .s32
  | .z32 => .z32

/-- Elements of active lanes. -/
def VCtx.opCount (v : VCtx) (mk : BitVec 2) (t : VTy) : Nat := t.perLane * ((List.range 64).filter (v.active mk)).length

/-- Element-wise results of lists of elements, with flags (R211). -/
def VCtx.elementwise (v : VCtx) (d : BitVec 4) (mk : BitVec 2) (t : VTy) (rs : List (Nat × Exc)) : VOut :=
  (VOut.of d (vpack t (rs.map (·.1))) (v.keep mk) (v.flagsOf mk t (rs.map (·.2)))).counted t (v.opCount mk t)

def zip2 (f : Nat → Nat → Nat × Exc) (a b : List Nat) : List (Nat × Exc) := (a.zip b).map fun (x, y) => f x y

/-- A word of one source. -/
def State.vec1 (s : State) (lat : Nat) (d a : BitVec 4) (t : VTy) (mk : BitVec 2) (f : Nat → Nat × Exc) : State :=
  s.vecWord lat [a] (mkReads mk) [d] always fun v o => some (v.elementwise d mk t ((velems t (o a)).map f))

/-- A word of two sources. -/
def State.vec2 (s : State) (lat : Nat) (d a b : BitVec 4) (t : VTy) (mk : BitVec 2) (f : Nat → Nat → Nat × Exc) : State :=
  s.vecWord lat [a, b] (mkReads mk) [d] always fun v o =>
    some (v.elementwise d mk t (zip2 f (velems t (o a)) (velems t (o b))))

/-- A word of three sources. -/
def State.vec3 (s : State) (lat : Nat) (d a b c : BitVec 4) (t : VTy) (mk : BitVec 2) (f : Nat → Nat → Nat → Nat × Exc) : State :=
  s.vecWord lat [a, b, c] (mkReads mk) [d] always fun v o =>
    some (v.elementwise d mk t (((velems t (o a)).zip ((velems t (o b)).zip (velems t (o c)))).map fun (x, y, z) => f x y z)).twice

/-! ## Element-wise arithmetic (R211, R212) -/

/-- An integer result: clamped with SAT, else wrapped. -/
def intResult (t : VTy) (sat : Bool) (x : Int) : Nat × Exc :=
  (intBits (vwidth t) (if sat then clampInt (intLo (vtySigned t) (vwidth t)) (intHi (vtySigned t) (vwidth t)) x else x), 0)

def intElem (t : VTy) (x : Nat) : Int := readInt (vtySigned t) (vwidth t) x

def vadd2 (t : VTy) (rm : Rm) (sat : Bool) (a b : Nat) : Nat × Exc :=
  match vtyForm t with
  | some F => F.add rm a b
  | none => intResult t sat (intElem t a + intElem t b)

def vsub2 (t : VTy) (rm : Rm) (sat : Bool) (a b : Nat) : Nat × Exc :=
  match vtyForm t with
  | some F => F.sub rm a b
  | none => intResult t sat (intElem t a - intElem t b)

def vmul2 (t : VTy) (rm : Rm) (sat : Bool) (a b : Nat) : Nat × Exc :=
  match vtyForm t with
  | some F => F.mul rm a b
  | none => intResult t sat (intElem t a * intElem t b)

def vminmax (t : VTy) (lo : Bool) (a b : Nat) : Nat × Exc :=
  match vtyForm t with
  | some F => F.minmax lo a b
  | none =>
    let x := intElem t a
    let y := intElem t b
    (if lo then (if y < x then b else a) else (if x < y then b else a), 0)

def vabsneg (t : VTy) (neg sat : Bool) (a : Nat) : Nat × Exc :=
  match vtyForm t with
  | some F => F.absNeg neg a
  | none => intResult t sat (if neg then -intElem t a else (intElem t a).natAbs)

def execVadd (d a b : BitVec 4) (ty : VTy) (rm : Rm) (mk : BitVec 2) (sat : Bool) (s : State) : Result :=
  .next (s.vec2 4 d a b ty mk (vadd2 ty rm sat))
def execVsub (d a b : BitVec 4) (ty : VTy) (rm : Rm) (mk : BitVec 2) (sat : Bool) (s : State) : Result :=
  .next (s.vec2 4 d a b ty mk (vsub2 ty rm sat))
def execVmul (d a b : BitVec 4) (ty : VTy) (rm : Rm) (mk : BitVec 2) (sat : Bool) (s : State) : Result :=
  .next (s.vec2 4 d a b ty mk (vmul2 ty rm sat))
def execVfma (d a b c : BitVec 4) (tf : FTy) (rm : Rm) (mk : BitVec 2) (s : State) : Result :=
  .next (s.vec3 4 d a b c (ftyVTy tf) mk ((ftyForm tf).fma rm false false))
def execVfms (d a b c : BitVec 4) (tf : FTy) (rm : Rm) (mk : BitVec 2) (s : State) : Result :=
  .next (s.vec3 4 d a b c (ftyVTy tf) mk ((ftyForm tf).fma rm false true))
def execVfnma (d a b c : BitVec 4) (tf : FTy) (rm : Rm) (mk : BitVec 2) (s : State) : Result :=
  .next (s.vec3 4 d a b c (ftyVTy tf) mk ((ftyForm tf).fma rm true false))
def execVdiv (d a b : BitVec 4) (tf : FTy) (rm : Rm) (mk : BitVec 2) (s : State) : Result :=
  .next (s.vec2 12 d a b (ftyVTy tf) mk ((ftyForm tf).div rm))
def execVsqrt (d a : BitVec 4) (tf : FTy) (rm : Rm) (mk : BitVec 2) (s : State) : Result :=
  .next (s.vec1 12 d a (ftyVTy tf) mk ((ftyForm tf).sqrt rm))
def execVrcp (d a : BitVec 4) (tf : FTy) (rm : Rm) (mk : BitVec 2) (s : State) : Result :=
  .next (s.vec1 12 d a (ftyVTy tf) mk ((ftyForm tf).rcp rm))
def execVrsq (d a : BitVec 4) (tf : FTy) (rm : Rm) (mk : BitVec 2) (s : State) : Result :=
  .next (s.vec1 12 d a (ftyVTy tf) mk ((ftyForm tf).rsqrt rm))
def execVmin (d a b : BitVec 4) (ty : VTy) (mk : BitVec 2) (s : State) : Result :=
  .next (s.vec2 4 d a b ty mk (vminmax ty true))
def execVmax (d a b : BitVec 4) (ty : VTy) (mk : BitVec 2) (s : State) : Result :=
  .next (s.vec2 4 d a b ty mk (vminmax ty false))
def execVabs (d a : BitVec 4) (ty : VTy) (mk : BitVec 2) (sat : Bool) (s : State) : Result :=
  .next (s.vec1 4 d a ty mk (vabsneg ty false sat))
def execVneg (d a : BitVec 4) (ty : VTy) (mk : BitVec 2) (sat : Bool) (s : State) : Result :=
  .next (s.vec1 4 d a ty mk (vabsneg ty true sat))
def execVrnd (d a : BitVec 4) (tf : FTy) (rm : Rm) (mk : BitVec 2) (s : State) : Result :=
  .next (s.vec1 4 d a (ftyVTy tf) mk ((ftyForm tf).rint rm))
def execVexp2 (d a : BitVec 4) (tf : FTy) (rm : Rm) (mk : BitVec 2) (s : State) : Result :=
  .next (s.vec1 12 d a (ftyVTy tf) mk ((ftyForm tf).exp2 rm))
def execVlog2 (d a : BitVec 4) (tf : FTy) (rm : Rm) (mk : BitVec 2) (s : State) : Result :=
  .next (s.vec1 12 d a (ftyVTy tf) mk ((ftyForm tf).log2 rm))

def execVand (d a b : BitVec 4) (mk : BitVec 2) (s : State) : Result :=
  .next (s.vec2 2 d a b .z64 mk fun x y => (x &&& y, 0))
def execVor (d a b : BitVec 4) (mk : BitVec 2) (s : State) : Result :=
  .next (s.vec2 2 d a b .z64 mk fun x y => (x ||| y, 0))
def execVxor (d a b : BitVec 4) (mk : BitVec 2) (s : State) : Result :=
  .next (s.vec2 2 d a b .z64 mk fun x y => (x ^^^ y, 0))

def execVshl (d a b : BitVec 4) (ty : ITy) (mk : BitVec 2) (s : State) : Result :=
  let t := ityVTy ty
  .next (s.vec2 4 d a b t mk fun x y => (x * 2 ^ (y % (vwidth t)) % 2 ^ (vwidth t), 0))
def execVshr (d a b : BitVec 4) (ty : ITy) (mk : BitVec 2) (s : State) : Result :=
  let t := ityVTy ty
  .next (s.vec2 4 d a b t mk fun x y => (x / 2 ^ (y % (vwidth t)), 0))
def execVsar (d a b : BitVec 4) (ty : ITy) (mk : BitVec 2) (s : State) : Result :=
  let t := ityVTy ty
  .next (s.vec2 4 d a b t mk fun x y => (intBits (vwidth t) (readInt true (vwidth t) x / 2 ^ (y % (vwidth t))), 0))

/-! ## Comparison, selection, conversion (R213, R214) -/

/-- A condition from an exact comparison; none when unordered. -/
def vcondOf (c : VCond) (r : Option Int) : Bool :=
  match r with
  | none => c == .ne || c == .un
  | some z =>
    match c with
    | .eq => z == 0
    | .ne => z != 0
    | .lt => z < 0
    | .le => z ≤ 0
    | .gt => 0 < z
    | .ge => 0 ≤ z
    | .un => false

/-- Do the ordered comparisons raise invalid on quiet NaNs too? -/
def condOrdered : VCond → Bool
  | .lt | .le | .gt | .ge => true
  | .eq | .ne | .un => false

def vcompare (t : VTy) (c : VCond) (a b : Nat) : Bool × Exc :=
  match vtyForm t with
  | some F =>
    let x := F.value a
    let y := F.value b
    (vcondOf c (x.cmp y),
      excIf (x.raises || y.raises || (condOrdered c && (x.isNan || y.isNan))) excInvalid)
  | none => (vcondOf c (some (intElem t a - intElem t b)), 0)

/-- A mask from a predicate over lanes. -/
def maskOf (p : Nat → Bool) : Dbl := (List.range 64).foldl (fun m l => if p l then m ||| BitVec.twoPow 64 l else m) 0

def execVcmp (md : BitVec 2) (a b : BitVec 4) (cond : VCond) (ty : VTy) (mk : BitVec 2) (s : State) : Result :=
  .next (s.vecWord 4 [a, b] (md :: mkReads mk) [] always fun v o =>
    let rs := ((velems ty (o a)).zip (velems ty (o b))).map fun (x, y) => vcompare ty cond x y
    let lane (l : Nat) : Bool := ((rs.drop (l * ty.perLane)).take ty.perLane).all (·.1)
    let old := v.masks.getD md.toNat 0
    some ((VOut.ofMask md (maskOf fun l => if v.active mk l then lane l else old.getLsbD l)
      (v.flagsOf mk ty (rs.map (·.2)))).counted ty (v.opCount mk ty)))

def execVsel (d a b : BitVec 4) (ms : BitVec 2) (mk : BitVec 2) (s : State) : Result :=
  .next (s.vecWord 2 [a, b] (ms :: mkReads mk) [d] always fun v o =>
    let m := v.masks.getD ms.toNat 0
    some (VOut.of d ((List.range 64).map fun l => if m.getLsbD l then (o a).getD l 0 else (o b).getD l 0) (v.keep mk) 0))

/-- Conversion of one element (R106, R108, R214). -/
def vconvert (t u : VTy) (rm : Rm) (sat : Bool) (x : Nat) : Nat × Exc :=
  match vtyForm t, vtyForm u with
  | some F, some G => G.round rm false (F.value x)
  | some F, none =>
    let r := toIntSat rm (vtySigned u) (vwidth u) (F.value x)
    (intBits (vwidth u) r.1, r.2)
  | none, some G => G.round rm false (ofInt (intElem t x))
  -- a wider integer is extended (R100); .sat names the narrower and the equal width alone (R108)
  | none, none => intResult u (sat && decide (vwidth u ≤ vwidth t)) (intElem t x)

def execVcvt (d a : BitVec 4) (ty dt : VTy) (rm : Rm) (mk : BitVec 2) (sat : Bool) (h : BitVec 2) (s : State) : Result :=
  .next (s.vecWord 4 [a] (mkReads mk) [d] always fun v o =>
    let es := ty.perLane
    let ed := dt.perLane
    let src := velems ty (o a)
    -- for each destination element, its source element
    let rs : List (Option (Nat × Exc)) := (List.range (64 * ed)).map fun j =>
      let i : Option Nat :=
        if es ≤ ed then (if h.toNat * 64 * es ≤ j ∧ j < (h.toNat + 1) * 64 * es then some (j - 64 * es * h.toNat) else none)
        else some (j + 64 * ed * h.toNat)
      i.map fun i => vconvert ty dt rm sat (src.getD i 0)
    let kept := vpack dt (rs.map fun r => if r.isSome then 2 ^ (vwidth dt) - 1 else 0)
    let n := (rs.zipIdx.filter fun (r, j) => r.isSome && v.active mk (j / ed)).length
    some ((VOut.of d (vpack dt (rs.map fun r => (r.map (·.1)).getD 0))
      ((kept.zip (v.keep mk)).map fun (x, y) => x &&& y)
      (v.flagsOf mk dt (rs.map fun r => (r.map (·.2)).getD 0))).counted ty n))

/-! ## Across the lanes (R215 to R218) -/

/-- combine of R215. -/
def vcombine (op : RedOp) (t : VTy) (rm : Rm) (a b : Nat) : Nat × Exc :=
  match op with
  | .add => vadd2 t rm false a b
  | .min => vminmax t true a b
  | .max => vminmax t false a b

/-- An element as it stands, a NaN made canonical (R215, R216). -/
def vcanon (t : VTy) (a : Nat) : Nat × Exc :=
  match vtyForm t with
  | some F => if (F.value a).isNan then F.round .rne false (F.value a) else (a, 0)
  | none => (a, 0)

/-- One level of the tree. -/
def redLevel (f : Nat → Nat → Nat × Exc) : List Nat → List Nat × Exc
  | a :: b :: r =>
    let x := f a b
    let y := redLevel f r
    (x.1 :: y.1, x.2 ||| y.2)
  | l => (l, 0)

def redTree (f : Nat → Nat → Nat × Exc) : Nat → List Nat → Exc → Nat × Exc
  | 0, l, e => (l.getD 0 0, e)
  | n + 1, l, e => if l.length ≤ 1 then (l.getD 0 0, e) else let y := redLevel f l; redTree f n y.1 (e ||| y.2)

/-- Elements of active lanes. -/
def VCtx.activeElems (v : VCtx) (mk : BitVec 2) (t : VTy) (l : List Dbl) : List Nat :=
  ((velems t l).zipIdx.filter fun (_, j) => v.active mk (j / t.perLane)).map (·.1)

/-- R215. With no active lane nothing is written, so no identity is needed. -/
def execVred (d a : BitVec 4) (op : RedOp) (ty : VTy) (rm : Rm) (mk : BitVec 2) (s : State) : Result :=
  .next (s.vecWord 8 [a] (mkReads mk) [d] always fun v o =>
    let l := v.activeElems mk ty (o a)
    let r := if l.length = 1 then vcanon ty (l.getD 0 0) else redTree (vcombine op ty rm) 9 l 0
    some ((VOut.of d (vpack ty (List.replicate (64 * ty.perLane) r.1)) (v.keep mk) r.2).counted ty l.length))

/-- The running results of R216 from an accumulator. -/
def scanFrom (f : Nat → Nat → Nat × Exc) : Nat → List Nat → List (Nat × Exc)
  | _, [] => []
  | acc, x :: xs => let r := f acc x; r :: scanFrom f r.1 xs

def scanOp : ScanOp → RedOp
  | .add | .addx => .add
  | .min => .min
  | .max => .max

def vscan (op : ScanOp) (t : VTy) (rm : Rm) (l : List Nat) : List (Nat × Exc) :=
  match op, l with
  | _, [] => []
  | .addx, l => (0, 0) :: scanFrom (vcombine .add t rm) 0 l.dropLast
  | op, x :: xs => let c := vcanon t x; c :: scanFrom (vcombine (scanOp op) t rm) c.1 xs

/-- Results of active lanes put back into their places. -/
def VCtx.spread (v : VCtx) (mk : BitVec 2) (t : VTy) (rs : List Nat) : List Dbl :=
  vpack t ((List.range (64 * t.perLane)).map fun j =>
    if v.active mk (j / t.perLane) then
      rs.getD (((List.range j).filter fun i => v.active mk (i / t.perLane)).length) 0
    else 0)

def execVscan (d a : BitVec 4) (op : ScanOp) (ty : VTy) (rm : Rm) (mk : BitVec 2) (s : State) : Result :=
  .next (s.vecWord 8 [a] (mkReads mk) [d] always fun v o =>
    let rs := vscan op ty rm (v.activeElems mk ty (o a))
    some ((VOut.of d (v.spread mk ty (rs.map (·.1))) (v.keep mk) (excAll (rs.map (·.2)))).counted ty rs.length))

/-- Words that move whole lanes: lane l of d receives `f l`. -/
def moved (f : Nat → Dbl) : List Dbl := (List.range 64).map f

def execVperm (d a b : BitVec 4) (mk : BitVec 2) (s : State) : Result :=
  .next (s.vecWord 4 [a, b] (mkReads mk) [d] always fun v o =>
    some (VOut.of d (moved fun l => (o a).getD (((o b).getD l 0).toNat % 64) 0) (v.keep mk) 0))
def execVrot (d a : BitVec 4) (amt : BitVec 6) (mk : BitVec 2) (s : State) : Result :=
  .next (s.vecWord 4 [a] (mkReads mk) [d] always fun v o =>
    some (VOut.of d (moved fun l => (o a).getD ((l + amt.toNat) % 64) 0) (v.keep mk) 0))
def execVbcast (d a : BitVec 4) (lane : BitVec 6) (s : State) : Result :=
  .next (s.vecWord 2 [a] [] [d] always fun _ o => some (VOut.of d (moved fun _ => (o a).getD lane.toNat 0) keepAll 0))
def execVbcastHi (d : BitVec 4) (imm : Imm 16) (s : State) : Result :=
  .next (s.vecWord 2 [] [] [d] always fun _ _ =>
    some (VOut.of d (moved fun _ => dbl (imm.nat * 2 ^ (48 - 22 * imm.exts))) keepAll 0))
def execVbcastLo (d : BitVec 4) (imm : Imm 16) (s : State) : Result :=
  .next (s.vecWord 2 [] [] [d] always fun _ _ => some (VOut.of d (moved fun _ => immDbl imm) keepAll 0))
def execVmov (d a : BitVec 4) (mk : BitVec 2) (s : State) : Result :=
  .next (s.vecWord 2 [a] (mkReads mk) [d] always fun v o => some (VOut.of d (o a) (v.keep mk) 0))

/-- vflg as of the completion of every earlier word: the word waits for them (R217). -/
def execVmovFlg (d : BitVec 4) (mk : BitVec 2) (s : State) : Result :=
  .next (s.vecWord 2 [] (mkReads mk) [d] (fun v => v.infl.isEmpty) fun v _ =>
    some (VOut.of d (moved fun _ => v.flags.setWidth 64) (v.keep mk) 0))
def execVmovClr (s : State) : Result :=
  .next (s.vecWord 2 [] [] [] always fun _ _ => some { VOut.none with clear := true })

/-- R219: an image that faults leaves vt as it was. -/
def execVmovTab (a : BitVec 4) (s : State) : Result :=
  .next (s.vecWord 2 [a] [] [] readsTab fun _ o =>
    let img := ((o a).take 8).flatMap fun x => leBytes 8 x.toNat
    if imageFaults img then none else some { VOut.none with tab := some (algOfImage img) })

def execMset (md : BitVec 2) (n : BitVec 7) (s : State) : Result :=
  .next (s.vecWord 2 [] [md] [] always fun _ _ => some (VOut.ofMask md (dbl (2 ^ n.toNat - 1)) 0))
def execMsetV (md : BitVec 2) (a : BitVec 4) (s : State) : Result :=
  .next (s.vecWord 2 [a] [md] [] always fun _ o => some (VOut.ofMask md (maskOf fun l => (o a).getD l 0 != 0) 0))

/-- A mask operand, inverted as asked (R218). -/
def VCtx.maskOpd (v : VCtx) (m : BitVec 2) (inv : Bool) : Dbl :=
  if inv then ~~~(v.masks.getD m.toNat 0) else v.masks.getD m.toNat 0

def execMand (md ma mb : BitVec 2) (ia ib : Bool) (s : State) : Result :=
  .next (s.vecWord 2 [] [md, ma, mb] [] always fun v _ =>
    some (VOut.ofMask md (v.maskOpd ma ia &&& v.maskOpd mb ib) 0))
def execMor (md ma mb : BitVec 2) (ia ib : Bool) (s : State) : Result :=
  .next (s.vecWord 2 [] [md, ma, mb] [] always fun v _ =>
    some (VOut.ofMask md (v.maskOpd ma ia ||| v.maskOpd mb ib) 0))

/-! ## Algebra lanes (R219 to R222) -/

/-- Components of the algebra element that element j belongs to, and its component: element k of lane gn + c is
component c (R219). -/
def algComps (t : VTy) (n : Nat) (l : List Nat) (j : Nat) : List Nat :=
  let e := t.perLane
  let g := j / e / n
  (List.range n).map fun c => l.getD ((g * n + c) * e + j % e) 0

def compOf (t : VTy) (n j : Nat) : Nat := j / t.perLane % n

def execVconj (d a : BitVec 4) (tf : FTy) (mk : BitVec 2) (s : State) : Result :=
  let t := ftyVTy tf
  .next (s.vecWord 4 [a] (mkReads mk) [d] readsTab fun v o =>
    some (v.elementwise d mk t ((velems t (o a)).mapIdx fun j x =>
      if v.vt.conjugates (compOf t v.vt.n j) then (ftyForm tf).absNeg true x else vcanon t x)))

def execVnorm (d a : BitVec 4) (tf : FTy) (rm : Rm) (mk : BitVec 2) (s : State) : Result :=
  let t := ftyVTy tf
  let F := ftyForm tf
  .next (s.vecWord 8 [a] (mkReads mk) [d] readsTab fun v o =>
    let l := velems t (o a)
    some (v.elementwise d mk t (l.mapIdx fun j _ =>
      if compOf t v.vt.n j = 0 then
        let x := (algComps t v.vt.n l j).map F.value
        F.round rm false (FVal.sum rm (v.vt.terms x (v.vt.conjOf x) 0))
      else (0, 0))).twice)

def execVamul (d a b : BitVec 4) (tf : FTy) (rm : Rm) (mk : BitVec 2) (s : State) : Result :=
  let t := ftyVTy tf
  let F := ftyForm tf
  .next (s.vecWord 8 [a, b] (mkReads mk) [d] readsTab fun v o =>
    let la := velems t (o a)
    let lb := velems t (o b)
    some (v.elementwise d mk t (la.mapIdx fun j _ =>
      let x := (algComps t v.vt.n la j).map F.value
      let y := (algComps t v.vt.n lb j).map F.value
      F.round rm false (FVal.sum rm (v.vt.terms x y (compOf t v.vt.n j))))).twice)

/-- The components of algebra element i: element k of lane group g has number g x e + k (R219). -/
def algElem (t : VTy) (n : Nat) (l : List Nat) (i : Nat) : List Nat :=
  let e := t.perLane
  (List.range n).map fun c => l.getD ((i / e * n + c) * e + i % e) 0

/-- Elements in ascending index from a list of algebra elements. -/
def algLayout (t : VTy) (n : Nat) (xs : List (List Nat)) : List Nat :=
  (List.range (64 * t.perLane)).map fun j =>
    let e := t.perLane
    (xs.getD (j / e / n * e + j % e) []).getD (j / e % n) 0

/-- Rank of an algebra element (R221): 2 with a NaN, 1 with an infinity, else the exact sum of squares. -/
def algRank (F : FForm) (x : List Nat) : Nat × FVal :=
  let v := x.map F.value
  if v.any FVal.isNan then (2, .fin false 0 0)
  else if v.any FVal.isInf then (1, .fin false 0 0)
  else (0, FVal.sum .rne (v.map fun c => c.mul c))

def rankAbove (x y : Nat × FVal) : Bool :=
  if x.1 = y.1 then (match x.2.cmp y.2 with | some d => decide (0 < d) | none => false) else decide (y.1 < x.1)

/-- Indices of the K elements kept of a group of eight, ascending (R221). -/
def keptOf (K : Nat) (rs : List (Nat × FVal)) : List Nat :=
  (List.range 8).filter fun i =>
    -- fewer than K elements rank above i; an equal rank goes to the lower index
    ((List.range 8).filter fun j =>
      rankAbove (rs.getD j (0, .fin false 0 0)) (rs.getD i (0, .fin false 0 0))
        || (j < i && !rankAbove (rs.getD i (0, .fin false 0 0)) (rs.getD j (0, .fin false 0 0)))).length < K

def keepK (k4 : Bool) : Nat := if k4 then 4 else 2

def execVcomp (d a x : BitVec 4) (tf : FTy) (k4 : Bool) (s : State) : Result :=
  let t := ftyVTy tf
  let K := keepK k4
  .next (s.vecWord 6 [a] [] [d, x] readsTab fun v o =>
    let n := v.vt.n
    let l := velems t (o a)
    let groups := 8 * t.perLane / n
    let kept := (List.range groups).map fun q =>
      keptOf K ((List.range 8).map fun i => algRank (ftyForm tf) (algElem t n l (8 * q + i)))
    let out := (kept.zipIdx).flatMap fun (ks, q) => ks.map fun i => algElem t n l (8 * q + i)
    let idxs := moved fun q => dbl (((kept.getD q []).zipIdx).foldl (fun m (i, j) => m + i * 2 ^ (3 * j)) 0)
    some (({ VOut.none with
      writes := [⟨d, vpack t (algLayout t n out), keepAll⟩, ⟨x, idxs, keepAll⟩] } : VOut).counted t (64 * t.perLane)))

def execVdcmp (d a x : BitVec 4) (tf : FTy) (k4 : Bool) (s : State) : Result :=
  let t := ftyVTy tf
  let K := keepK k4
  .next (s.vecWord 6 [a, x] [] [d] readsTab fun v o =>
    let n := v.vt.n
    let l := velems t (o a)
    let out := (List.range (64 * t.perLane / n)).map fun i =>
      let m := ((o x).getD (i / 8) 0).toNat
      match ((List.range K).reverse).find? fun j => bits m (3 * j) 3 == i % 8 with
      | some j => algElem t n l (i / 8 * K + j)
      | none => []
    some ((VOut.of d (vpack t (algLayout t n out)) keepAll 0).counted t (64 * t.perLane)))

/-! ## Rotation and quantisation (R223, R224) -/

def blockLen (blk : Bool) : Nat := if blk then 16 else 32

/-- Consecutive blocks of a list. -/
def blocksOf (n : Nat) (l : List Nat) : List (List Nat) :=
  (List.range (l.length / n)).map fun b => (l.drop (b * n)).take n

def execVhad (d a : BitVec 4) (tf : FTy) (rm : Rm) (mk : BitVec 2) (inv lead blk : Bool) (s : State) : Result :=
  let t := ftyVTy tf
  let F := ftyForm tf
  let e := if inv then unrotK blk lead else -(rotK blk lead)
  .next (s.vecWord 6 [a] (mkReads mk) [d] always fun v o =>
    some (v.elementwise d mk t ((blocksOf (blockLen blk) (velems t (o a))).flatMap fun b =>
      (hadamard rm e (b.map F.value)).map fun y => F.round rm false y)))

def execVqnt (d a q : BitVec 4) (tf : FTy) (rm : Rm) (mf : MxTy) (blk : Bool) (s : State) : Result :=
  let t := ftyVTy tf
  .next (s.vecWord 6 [a] [] [d, q] always fun _ o =>
    let bs := (blocksOf (blockLen blk) (velems t (o a))).map fun b => quantiseBlock mf rm (b.map (ftyForm tf).value)
    some (({ VOut.none with
      writes := [⟨d, vpack t (bs.flatMap fun b => b.2.map (intBits (vwidth t))), keepAll⟩,
        ⟨q, moved fun i => dbl ((bs.map (·.1)).getD i 0), keepAll⟩] } : VOut).counted t (64 * t.perLane)))

def execVdq (d a q : BitVec 4) (tf : FTy) (rm : Rm) (mf : MxTy) (blk : Bool) (s : State) : Result :=
  let t := ftyVTy tf
  let F := ftyForm tf
  .next (s.vecWord 6 [a, q] [] [d] always fun v o =>
    some (v.elementwise d 0 t ((velems t (o a)).mapIdx fun j x =>
      F.round rm false (mxValue mf (((o q).getD (j / blockLen blk) 0).toNat % 256) (readInt true (mxWidth mf) x)))))

/-! ## Port state (R203) -/

def execPset (ps : BitVec 4) (fld : PsField) (imm : Imm 15) (s : State) : Result :=
  .next ((s.updVctx fun v => { v with psets := v.psets.modify ps.toNat fun p =>
    match fld with
    | .base => { p with base := BitVec.ofNat 32 imm.nat }
    | .step => { p with step := BitVec.ofInt 32 imm.int }
    | .lstr => { p with lstr := BitVec.ofNat 16 imm.nat }
    | .gsel => { p with gsel := BitVec.ofNat 2 imm.nat } }).engineIssue true)

def execPbind (port : BitVec 2) (ps : BitVec 4) (s : State) : Result :=
  .next ((s.updVctx fun v =>
    { v with binds := v.binds.set port.toNat ps.toNat, poss := v.poss.set port.toNat 0 }).engineIssue true)

def execPskip (port : BitVec 2) (n : BitVec 20) (s : State) : Result :=
  .next ((s.updVctx fun v => v.advance port.toNat n.toNat).engineIssue true)

/-! ## Completion (R208, R210) -/

/-- A destination register after a write. -/
def mergeLanes (old : List Dbl) (w : VWrite) : List Dbl :=
  (old.zip (w.lanes.zip w.keep)).map fun (o, x, m) => (o &&& ~~~m) ||| (x &&& m)

def VCtx.finish (v : VCtx) (f : VInfl) : VCtx where
  regs := f.writes.foldl (fun r w => if w.code.toNat < 8 then r.modify w.code.toNat fun o => mergeLanes o w else r) v.regs
  masks := match f.mask with
    | some (m, x) => v.masks.set m.toNat x
    | none => v.masks
  flags := (if f.clear then 0 else v.flags) ||| f.flags
  psets := v.psets
  binds := v.binds
  poss := v.poss
  vt := f.tab.getD v.vt
  infl := v.infl.filter fun g => g.wid != f.wid

/-- Bytes that a w0 write puts into the array, lane by lane in rising order (R201). -/
def VInfl.cells (f : VInfl) : List (Nat × Byte) :=
  (f.writes.filter fun w => w.code == 11).flatMap fun w =>
    (w.lanes.zip w.keep).zipIdx.flatMap fun ((x, m), l) =>
      (keptBytes m).map fun i => (laneAddr f.addr f.lstr l + i, BitVec.ofNat 8 (bits x.toNat (8 * i) 8))

/-- The 128-byte blocks of a list of cells, each once. -/
def cellBlocks (l : List (Nat × Byte)) : List Nat := (l.map fun (a, _) => a / 128).eraseDups

def State.vecOf (s : State) (c wid : Nat) : Option VInfl := (s.core c).vecInfl.find? fun f => f.wid == wid

/-- A vector word is complete: its destination is written and its flags are set. -/
def State.vecComplete (s : State) (c wid : Nat) : State :=
  match s.vecOf c wid with
  | none => s
  | some f =>
    let s := (s.countOps c true f.meter f.ops).writeCells c 0 f.cells
    let s := (cellBlocks f.cells).foldl (fun s b => s.fireLine (arrayAt c (128 * b))) s
    s.updCore c fun x =>
      let x :=
        if x.vec.own.infl.any fun g => g.wid == wid then { x with vec := { x.vec with own := x.vec.own.finish f } }
        else x.updCmd .vec f.cmd fun k => { k with ctx := k.ctx.map fun v => v.finish f }
      x.completeWord .vec wid

/-- Latencies are fixed and a word issues a cycle or more after the one before it, so a word is not complete before an
earlier word of its engine whose latency is no longer (R206, R208). -/
def VInfl.behind (f : VInfl) (l : List VInfl) : Bool := l.any fun g => g.wid < f.wid && g.latency ≤ f.latency

def canVecComplete (core wid : Nat) (s : State) : Bool :=
  let x := s.core core
  x.freezes == [] && (match s.vecOf core wid with
    | some f =>
      match (x.queue .vec).find? fun k => k.uid == f.cmd with
      | some k => !f.behind (x.engineInfl k)
      | none => !f.behind x.vec.own.infl
    | none => false)

/-! ## Relocation (R225, R226) -/

/-- The command that a sibling may take: the oldest not started, every earlier one started. Its body is there without a
fetch fault: a held fault is taken by the owner's engine (R385). -/
def Core.relocatable (x : Core) (c : Nat) : Option Cmd :=
  match (x.queue .vec).find? fun k => !k.started with
  | some k =>
    let earlier := (x.queue .vec).takeWhile fun j => j.uid != k.uid
    -- R226: busy is having issued a command that is not over
    if k.reloc && !k.faulted && k.body.isSome && k.fetchFault.isNone && k.edges == [] && k.waits == [] && x.mayRun k && earlier.any (fun j => j.takenBy.isNone)
        && !earlier.any fun j => j.regions.any fun r => k.regions.any fun q => r.overlaps q c
    then some k else none
  | none => none

/-- A sibling that can take a command of a function: its vector queue is empty and its engine idle. -/
def State.vecIdle (s : State) (c fn : Nat) : Bool :=
  let x := s.core c
  (match x.task with
    | some t => t.fn == fn
    | none => false)
    && x.queue .vec == [] && x.vec.own.infl == [] && x.freezes == [] && (s.takenCmd c).isNone

/-- The lowest eligible member of the quad. -/
def State.relocTarget (s : State) (c : Nat) : Option (Cmd × Nat) :=
  match (s.core c).task, (s.core c).relocatable c with
  | some t, some k =>
    (((List.range 4).map fun m => 4 * quadOf c + m).find? fun o => o != c && s.vecIdle o t.fn).map fun o => (k, o)
  | _, _ => none

def canVectorRelocation (owner : Nat) (s : State) : Bool :=
  (s.core owner).freezes == [] && (s.relocTarget owner).isSome

def execVectorRelocation (owner : Nat) (s : State) : Result :=
  .next (if canVectorRelocation owner s then
      match s.relocTarget owner with
      | some (k, o) =>
        s.updCore owner fun x => (x.startCmd .vec k).updCmd .vec k.uid fun k => { k with takenBy := some o }
      | none => s
    else s)

end Sys2Proof.Machine
end

