-- ==== Sys2Proof/Machine/Matrix.lean ====
section
/-! DEFINITION. The matrix engine (R231 to R262): operand addressing and the ten checks, the arithmetic of the cells,
claims, tables, fills, transfers, queries, gangs, order between words, and completion. -/

namespace Sys2Proof.Machine

open Sys2Proof

/-! ## Tags and pairs (R114, R231, R234) -/

def tagFmt (t : Tag) : Fmt := (fmtOfCode t.fmt.toNat).getD .raw
def tagBlock (t : Tag) : Nat := if t.blk then 16 else 32
def tagComps (t : Tag) : Nat := 2 ^ t.ncomp.toNat
def Quad.tag (x : Quad) (side slot : Nat) : Tag := tget x.tags (32 * side + slot) Tag.reset

/-- p of a pair (R231); none for a pair that R114 does not list. -/
def pairP (a b : Fmt) : Option Nat :=
  match a, b with
  | .f16, .f16 => some 1
  | .bf16, .bf16 => some 2
  | .e4m3, .e4m3 | .e4m3, .e5m2 | .e5m2, .e4m3 | .e5m2, .e5m2 => some 9
  | .mx8, .mx8 => some 2
  | .mx8, .mx6 | .mx6, .mx8 => some 3
  | .mx8, .mx4 | .mx4, .mx8 => some 4
  | .mx6, .mx6 => some 4
  | .mx6, .mx4 | .mx4, .mx6 => some 6
  | .mx4, .mx4 => some 9
  | _, _ => none

/-- Meter of a pair (R380). -/
def pairMeter (a b : Fmt) : Nat :=
  match a, b with
  | .f16, _ => 0
  | .bf16, _ => 1
  | .mx8, .mx8 => 3
  | .mx8, .mx6 | .mx6, .mx8 | .mx6, .mx6 => 4
  | .mx4, _ | _, .mx4 => 5
  | _, _ => 2

/-! ## Multiply words: fields, lengths, ranges (R232, R246, R249) -/

/-- The multiply fields of an instruction: the word, K kept of 8, and whether A is held K-major. -/
def mulOf : Instr → Option (MulWord × Nat × Bool)
  | .mma w => some (w, 8, false)
  | .mmas w k4 => some (w, if k4 then 4 else 2, false)
  | .mmat w => some (w, 8, true)
  | _ => none

def isMul (i : Instr) : Bool := (mulOf i).isSome

def mulKlen (w : MulWord) : Nat := w.klenM1.toNat + 1

/-- κ(e, c) (R246). -/
def kappa (mx : Bool) (B n e c : Nat) : Nat := if n = 1 ∧ !mx then e else (e / B * n + c) * B + e % B

/-- Slot positions that `k` elements of n components span. -/
def kappaSpan (mx : Bool) (B n k : Nat) : Nat := if k = 0 then 0 else kappa mx B n (k - 1) (n - 1) + 1

/-- Bytes of a row or column of `k` elements under a tag. -/
def tagRow (t : Tag) (n k : Nat) : Nat :=
  match fmtMx (tagFmt t) with
  | none => kappaSpan false (tagBlock t) n k * fmtBytes (tagFmt t) t.blk
  | some m =>
    let b := (k + tagBlock t - 1) / tagBlock t * n
    if b = 0 then 0 else (b - 1) / 32 * mxFrame m t.blk + 32 + ((b - 1) % 32 + 1) * mxBody m t.blk

/-- A range of side addresses: first byte and the byte after the last. -/
abbrev SideRange := Nat × Nat

/-- Slots that a range touches. -/
def slotsOf (r : SideRange) : List Nat := (List.range 32).filter fun k => r.1 < r.2 && k * 65536 < r.2 && r.1 < (k + 1) * 65536

def slotMask (r : SideRange) : Word := (slotsOf r).foldl (fun m k => m ||| BitVec.twoPow 32 k) 0

/-- Geometry of a matrix command (R241). -/
def Cmd.astr (k : Cmd) : Nat := bits k.cw3.toNat 0 16
def Cmd.bstr (k : Cmd) : Nat := bits k.cw3.toNat 16 16
def Cmd.mstr (k : Cmd) : Nat := bits k.cw3.toNat 32 16
def Cmd.mbase (k : Cmd) : Nat := bits k.cw3.toNat 48 16
/-- Generator as 64 bits. -/
def Cmd.gen64 (k : Cmd) (strides : List Word) : Dbl := BitVec.ofInt 64 (genSum k.idx strides)
/-- An address in 64-bit two's complement. -/
def plusGen (a : Nat) (g : Dbl) : Nat := (dbl a + g).toNat

/-- Bytes of a side; past its end there are none. -/
def State.readSide (s : State) (q side a n : Nat) : List Byte :=
  (List.range n).map fun i => if a + i < 2 ^ 21 then memRead s.mem (slotAt q side 0 (a + i)) else 0

/-- Bytes of a side as cell (r, c) finds them for a word in flight: a byte written meanwhile is what it was before one of
the writes or what it is now (R258). -/
def State.readLive (s : State) (f : MInfl) (r c q side a n : Nat) : List Byte :=
  (List.range n).map fun i =>
    if a + i < 2 ^ 21 then
      let p := slotAt q side 0 (a + i)
      let was := (f.old.filter fun o => o.1 == p).map (·.2)
      was.getD (Config.slotChoice f.wid r c p % (was.length + 1)) (memRead s.mem p)
    else 0

/-- T (R232). -/
def mulCycles (mx : Bool) (B n klen ks p : Nat) : Nat :=
  if mx then klen / B * (n * n) * ((B + p - 1) / p) else (klen * ks / 8 * (n * n) + p - 1) / p

/-! ## The arithmetic of a cell (R115 to R117, R248, R249) -/

/-- An element of a floating operand, conjugated as asked. -/
def State.floatElem (s : State) (f : MInfl) (row col q side base kstride : Nat) (t : Tag) (n e c : Nat) (neg : Bool) : FVal :=
  let es := fmtBytes (tagFmt t) t.blk
  match fmtForm (tagFmt t) with
  | some F =>
    let v := F.value (leNat (s.readLive f row col q side (base + kappa false (tagBlock t) n e c * kstride) es))
    if neg then v.neg else v
  | none => .nan false

/-- An MX block: its scale byte and its elements (R103). -/
def State.mxBlockOf (s : State) (f : MInfl) (row col q side base : Nat) (t : Tag) (m : MxTy) (j : Nat) (neg : Bool) :
    Nat × List Int :=
  let fr := base + j / 32 * mxFrame m t.blk
  let body := leNat (s.readLive f row col q side (fr + 32 + j % 32 * mxBody m t.blk) (mxBody m t.blk))
  (leNat (s.readLive f row col q side (fr + j % 32) 1), (List.range (tagBlock t)).map fun i =>
    let x := readInt true (mxWidth m) (bits body (mxWidth m * i) (mxWidth m))
    if neg then -x else x)

/-- float_group_step (R116). -/
def floatGroupStep (acc : Dbl) (g : List FVal) : Dbl :=
  let A := formF64.value acc.toNat
  let out (x : FVal) : Dbl := dbl (formF64.round .rne false x).1
  if g.isEmpty then acc
  else if A.isNan || g.any FVal.isNan then dbl formF64.nanEnc
  else if A.isInf || g.any FVal.isInf || g.all FVal.isZero then out (FVal.sum .rne (A :: g))
  else
    let nz := (g.filter fun q => !q.isZero).map FVal.ilog
    let u : Int := nz.foldl max (nz.headD 0) - 79
    let parts := g.map fun q =>
      match q with
      | .fin n m e => let (r, lost) := roundAt .rz n m e u; ((if n then -(r : Int) else r), lost, n)
      | _ => (0, false, false)
    let t : Int := (parts.map (·.1)).foldr (· + ·) 0
    let lostPos := parts.any fun (_, l, n) => l && !n
    let lostNeg := parts.any fun (_, l, n) => l && n
    let sticky : List FVal := if lostPos && !lostNeg then [.fin false 1 (-1100)]
      else if lostNeg && !lostPos then [.fin true 1 (-1100)] else []
    out (FVal.sum .rne (A :: (ofInt t).scale u :: sticky))

/-- mx_block_step (R115) for a sign that is not zero: scale bytes and the sum of the products. -/
def mxBlockStep (acc : Dbl) (sa sb : Nat) (fa fb : Nat) (sign sum : Int) : Dbl :=
  if sa = 0xFF ∨ sb = 0xFF then dbl formF64.nanEnc
  else
    let e : Int := (sa : Int) + sb - 254 - fa - fb
    dbl (formF64.round .rne false (FVal.sum .rne [formF64.value acc.toNat, (ofInt (sign * sum)).scale e])).1

/-- One product of a sequence: sign, factors, target. -/
structure Prod3 where
  sign : Int
  a : FVal
  b : FVal
  tgt : Nat
  deriving DecidableEq, Repr

/-- dense_sequence and the sequence of MMAS for row r and column c of the core's array (R248, R249). -/
def State.mulSequence (s : State) (qa qb : Nat) (f : MInfl) (w : MulWord) (ks : Nat) (kmajor : Bool) (r c : Nat) :
    List Prod3 :=
  let n := f.tab.n
  let esa := fmtBytes (tagFmt f.atag) f.atag.blk
  let esb := fmtBytes (tagFmt f.btag) f.btag.blk
  let abase := if kmajor then f.abase + r * esa else f.abase + r * f.astr
  let kstr := if kmajor then f.astr else esa
  (List.range (mulKlen w * ks / 8)).flatMap fun ec =>
    -- MMAS: the dense index of a kept element
    let e := if ks = 8 then ec
      else ec / ks * 8 + bits (leNat (s.readLive f r c qa 0 (f.mbase + r * f.mstr + ec / ks * 2) 2)) (3 * (ec % ks)) 3
    (List.range n).flatMap fun i => (List.range n).map fun j =>
      let t := f.tab.entry i j
      ⟨t.1, s.floatElem f r c qa 0 abase kstr f.atag n ec i (w.ca && f.tab.conjugates i),
        s.floatElem f r c qb 1 (f.bbase + c * f.bstr) esb f.btag n e j (w.cb && f.tab.conjugates j), t.2⟩

/-- The groups of a chunk are applied to their accumulators (R117). -/
def chunkStep (accs : List Dbl) (chunk : List Prod3) : List Dbl :=
  accs.mapIdx fun k acc =>
    floatGroupStep acc ((chunk.filter fun p => p.sign != 0 && p.tgt == k).map fun p =>
      let q := p.a.mul p.b
      if p.sign < 0 then q.neg else q)

def chunkSteps (p : Nat) (seq : List Prod3) : Nat → Nat → List Dbl → List Dbl
  | 0, _, accs => accs
  | n + 1, u, accs => chunkSteps p seq n (u + 1) (chunkStep accs ((seq.drop (u * p)).take p))

/-- The two blocks of block step number `b` of a cell: block, then i, then j (R117). -/
def State.mxBlocks (s : State) (qa qb : Nat) (f : MInfl) (w : MulWord) (ma mb : MxTy) (r c b : Nat) :
    (Nat × List Int) × (Nat × List Int) :=
  let n := f.tab.n
  let i := b / n % n
  let j := b % n
  (s.mxBlockOf f r c qa 0 (f.abase + r * f.astr) f.atag ma (b / (n * n) * n + i) (w.ca && f.tab.conjugates i),
   s.mxBlockOf f r c qb 1 (f.bbase + c * f.bstr) f.btag mb (b / (n * n) * n + j) (w.cb && f.tab.conjugates j))

/-- Sign and target of a block step. -/
def MInfl.entryOf (f : MInfl) (b : Nat) : Int × Nat := f.tab.entry (b / f.tab.n % f.tab.n) (b % f.tab.n)

/-- Sum of the products from `lo` to `hi` of a block step; a step of sign zero forms none. -/
def State.mxDot (s : State) (qa qb : Nat) (f : MInfl) (w : MulWord) (ma mb : MxTy) (r c b lo hi : Nat) : Int :=
  if (f.entryOf b).1 = 0 then 0
  else
    let x := s.mxBlocks qa qb f w ma mb r c b
    ((((x.1.2.zip x.2.2).take hi).drop lo).map fun (p, q) => p * q).foldr (· + ·) 0

/-- A block step ends, of whose products some were summed before (R269, R271). -/
def State.mxStep (s : State) (qa qb : Nat) (f : MInfl) (w : MulWord) (ma mb : MxTy) (r c b lo : Nat) (part : Int)
    (accs : List Dbl) : List Dbl :=
  let t := f.entryOf b
  if t.1 = 0 then accs
  else
    let x := s.mxBlocks qa qb f w ma mb r c b
    accs.modify t.2 fun acc =>
      mxBlockStep acc x.1.1 x.2.1 (mxFrac ma) (mxFrac mb) t.1
        (part + s.mxDot qa qb f w ma mb r c b lo (tagBlock f.atag))

/-- `k` block steps from number `b`, the first begun before. -/
def State.mxSteps (s : State) (qa qb : Nat) (f : MInfl) (w : MulWord) (ma mb : MxTy) (r c : Nat) :
    Nat → Nat → Nat → Int → List Dbl → List Dbl
  | 0, _, _, _, accs => accs
  | k + 1, b, lo, part, accs =>
    s.mxSteps qa qb f w ma mb r c k (b + 1) 0 0 (s.mxStep qa qb f w ma mb r c b lo part accs)

def Quad.acc (x : Quad) (p r c : Nat) : Dbl := tget x.planes (planeIndex p r c) 0

/-- A multiply word's T. -/
def MInfl.cycles (f : MInfl) (w : MulWord) (ks : Nat) : Nat :=
  mulCycles (tagFmt f.atag).isMx (tagBlock f.atag) f.tab.n (mulKlen w) ks ((pairP (tagFmt f.atag) (tagFmt f.btag)).getD 1)

/-- Chunks or block cycles that cell (r, c) has performed after E cycles (R233, R269). -/
def MInfl.doneBy (f : MInfl) (T e r c : Nat) : Nat := Nat.min T (e - 1 - f.delay - r - c)

/-- Cell (r, c) goes on from elapsed cycle `f.elapsed` to `e`. -/
def State.cellRun (s : State) (core : Nat) (f : MInfl) (w : MulWord) (ks : Nat) (kmajor : Bool) (e r c : Nat) : State :=
  let qa := quadOf f.leader
  let qb := quadOf core
  let T := f.cycles w ks
  let u0 := f.doneBy T f.elapsed r c
  let u1 := f.doneBy T e r c
  if u1 ≤ u0 then s else
  let p := (pairP (tagFmt f.atag) (tagFmt f.btag)).getD 1
  let pg := w.pg.toNat
  let accs := (List.range f.tab.n).map fun k => (s.quad qb).acc (pg + k) r c
  let put (out : List Dbl) (s : State) : State := s.updQuad qb fun x =>
    (out.zipIdx).foldl (fun x (v, k) => x.setAcc (planeIndex (pg + k) r c) v) x
  match fmtMx (tagFmt f.atag), fmtMx (tagFmt f.btag) with
  | some ma, some mb =>
    let per := (tagBlock f.atag + p - 1) / p
    let lo := u0 % per * p
    let hi := u1 % per * p
    let part : Int := if u0 % per = 0 then 0 else (tget (s.quad qb).partials (256 * r + c) 0).toInt
    let left : Int :=
      if u1 % per = 0 then 0
      else if u1 / per = u0 / per then part + s.mxDot qa qb f w ma mb r c (u1 / per) lo hi
      else s.mxDot qa qb f w ma mb r c (u1 / per) 0 hi
    let s := put (s.mxSteps qa qb f w ma mb r c (u1 / per - u0 / per) (u0 / per) lo part accs) s
    let d : Word := BitVec.ofInt 32 left
    s.updQuad qb fun x =>
      { x with partials := if d = 0 then terase (256 * r + c) x.partials else tset (256 * r + c) d x.partials }
  | _, _ => put (chunkSteps p (s.mulSequence qa qb f w ks kmajor r c) (u1 - u0) u0 accs) s

/-- All cells of an array go on to elapsed cycle `e` of a multiply word. -/
def State.arrayRun (s : State) (core : Nat) (f : MInfl) (e : Nat) : State :=
  match mulOf f.instr with
  | none => s
  | some (w, ks, km) =>
    (List.range 128).foldl (fun s r => (List.range 256).foldl (fun s c => s.cellRun core f w ks km e r c) s) s

/-- Elapsed cycles after which a multiply word is over in its own array. -/
def MInfl.lastCycle (f : MInfl) : Nat :=
  match mulOf f.instr with
  | some (w, ks, _) => f.cycles w ks + f.delay + 383
  | none => 0

/-! ## Faults and order (R257, R266, R267) -/

/-- A matrix fault: cause, ADDR, INFO. Where no item is named, ADDR is open. -/
abbrev MFault := Nat × Option Dbl × Nat

/-- A record that names the failed quad in bits 27:24 of its first double (R267). -/
def FaultRec.ofQuad (r : FaultRec) (q : Nat) : FaultRec :=
  { r with cause := (r.cause &&& ~~~(0x0F000000 : Dbl)) ||| dbl (q % 6 * 2 ^ 24) }

/-- A fault on every member (R260, R266): each domain freezes with its own record; the one work queue parks with the
leader's record. A member that has no matrix command has no slot and no index: they are open. -/
def State.gangFault (s : State) (members : List Nat) (cause : Nat) (addr : Dbl) (info : Nat) : State :=
  let q := quadOf s.cur.core
  let one (s : State) (m : Nat) : State :=
    let x := s.core m
    let r : FaultRec :=
      match x.curCmd .mat with
      | some k => ⟨x.faultHead m .mat k cause k.pos, addr, dbl info, dbl k.iters⟩
      | none =>
        let irrev := ((x.task.map (·.irrevocable))).getD false
        ⟨dbl (cause + s.freeNat % 2 ^ 11 * 2 ^ 8 + (if x.mat.formed then 2 ^ 19 else 0) + 2 ^ 20 + x.memberIdx m % 8 * 2 ^ 21
          + (if irrev then 2 ^ 28 else 0)), addr, dbl info, 0⟩
    let r := if cause = 0x20 then r.ofQuad q else r
    ((((s.freeze m (.bodyFault .mat)).updCore m fun x =>
      { x with mat := { x.mat with fault := some r, gangWait := none }
               task := x.task.map fun (t : Task) => { t with parked := true } }).useFree).unmonitor m).dropLease m
  let s := members.foldl one s
  match members.head? with
  | none => s
  | some l => s.park l cause 3 false ((((s.core l).mat.fault).map FaultRec.words).getD []) none

/-- The members of the current core's gang. -/
def State.members (s : State) : List Nat := (s.task.map (·.members)).getD [s.cur.core]

/-- A fault of the current word. A machine check of a formed gang is every member's (R266). -/
def State.matFault (s : State) (f : MFault) : State :=
  if f.1 = 0x20 ∧ (s.core s.cur.core).mat.formed then s.gangFault s.members 0x20 (f.2.1.getD 0) f.2.2
  else
    match f.2.1 with
    | some a => s.wordFault f.1 a (dbl f.2.2)
    | none => s.useFree.wordFault f.1 s.freeDbl (dbl f.2.2)

/-- What a word reads and writes of slots and planes. -/
structure MUse where
  ra : Word
  rb : Word
  wa : Word
  wb : Word
  rp : Byte
  wp : Byte
  mul : Bool
  deriving DecidableEq, Repr

def MUse.none : MUse := ⟨0, 0, 0, 0, 0, 0, false⟩

/-- R257: the word waits for earlier ones. -/
def Mat.waitsFor (m : Mat) (u : MUse) : Bool :=
  m.infl.any fun f =>
    let pipe := u.mul && isMul f.instr
    (!pipe && (((u.rp ||| u.wp) &&& f.writesP) != 0 || (u.wp &&& f.readsP) != 0))
      || (u.ra &&& f.writesA) != 0 || (u.rb &&& f.writesB) != 0
      || (u.wa &&& (f.readsA ||| f.writesA)) != 0 || (u.wb &&& (f.readsB ||| f.writesB)) != 0

/-- R233, R257: the word waits, for earlier ones or for one of the sixteen places. -/
def Mat.holdsBack (m : Mat) (u : MUse) : Bool := 16 ≤ m.infl.length || m.waitsFor u

/-- An entry for the current word. -/
def State.minfl (s : State) (k : Cmd) (i : Instr) (u : MUse) : MInfl where
  wid := s.nextId
  cmd := k.uid
  index := k.pos
  instr := i
  elapsed := 0
  done := false
  tab := AlgTab.real
  atag := Tag.reset
  btag := Tag.reset
  abase := 0
  bbase := 0
  mbase := 0
  soff := 0
  astr := k.astr
  bstr := k.bstr
  mstr := k.mstr
  leader := s.cur.core
  delay := 0
  maxDelay := 0
  gangWord := false
  step := s.nextId
  gap := 0
  out := []
  meter := 0
  ops := 0
  readsA := u.ra
  readsB := u.rb
  writesA := u.wa
  writesB := u.wb
  readsP := u.rp
  writesP := u.wp
  old := []

/-- A matrix word issues and completes later. -/
def State.matIssue (s : State) (f : MInfl) : State :=
  (s.updCore s.cur.core fun x =>
    { x with mat := { x.mat with infl := x.mat.infl ++ [{ f with wid := s.nextId }], gangWait := none } }).engineIssue false

/-- A matrix word issues and is complete. -/
def State.matDone (s : State) : State :=
  (s.updCore s.cur.core fun x => { x with mat := { x.mat with gangWait := none, waiting := none } }).engineIssue true

/-- Planes of a mask. -/
def planesOf (m : Byte) : List Nat := (List.range 8).filter fun p => m.getLsbD p

/-- The command has a region of a kind over a plane. -/
def Cmd.planeOk (k : Cmd) (kinds : List RegKind) (p : Nat) : Bool :=
  k.regions.any fun r => r.space == 3 && kinds.contains r.kind && r.base.getLsbD p

/-- Claims, then regions, then poison of planes (R247 steps 8 to 10, R252 to R255). -/
def State.planeCheck (s : State) (c : Nat) (k : Cmd) (m : Byte) (kinds : List RegKind) (poison : Bool) : Option MFault :=
  let ps := planesOf m
  let q := s.quad (quadOf c)
  match ps.find? fun p => !(s.core c).mat.claimP.getLsbD p with
  | some p => some (0x16, some (dbl p), 0)
  | none =>
    match ps.find? fun p => !k.planeOk kinds p with
    | some p => some (0x17, some (dbl p), 0)
    | none =>
      match (if poison then ps.find? fun p => q.poison.getLsbD p else none) with
      | some p => some (0x20, some (dbl p), 3 * 256)
      | none => none

/-- First byte of a range that lies in a slot failing a test. -/
def slotFail (r : SideRange) (bad : Nat → Bool) : Option Nat := ((slotsOf r).find? bad).map fun k => Nat.max r.1 (k * 65536)

/-- The first scratchpad byte that fails R254's check. -/
def Cmd.spadFail (k : Cmd) (c : Nat) (t : Task) (kinds : List RegKind) (off len : Nat) : Option Nat :=
  let rs := k.regions.filter fun r => r.space == 1 && kinds.contains r.kind
  ((List.range len).map (off + ·)).find? fun b =>
    plainEnd t.spreq t.resid ≤ b || !rs.any fun r => r.has c (c % 24 * 2 ^ 19 + b)

/-! ## The checks of a multiply word (R247) -/

/-- Number of the strip of a quad of a die (R64). -/
def quadStrip (q : Nat) : Nat :=
  match q % 6 with
  | 0 => 0
  | 1 => 2
  | 2 => 4
  | 3 => 5
  | 4 => 7
  | _ => 9

/-- Broadcast delay of a member (R259). -/
def strips (a b : Nat) : Nat := (quadStrip a - quadStrip b) + (quadStrip b - quadStrip a)

/-- The leader's current matrix command gives the A geometry of a gang word (R261). -/
def State.matCmd (s : State) (c : Nat) : Option Cmd := (s.core c).curCmd .mat

/-- Bases, ranges, table and tags of a multiply word on a core. -/
structure MulGeom where
  tab : AlgTab
  abase : Nat
  bbase : Nat
  mbase : Nat
  a : SideRange
  b : SideRange
  m : SideRange
  atag : Tag
  btag : Tag
  deriving DecidableEq, Repr

def firstTag (x : Quad) (side base : Nat) : Tag := x.tag side (base / 65536)

/-- A tag under which no check of steps 3 to 6 fails for the sake of its own side: the other side's, or where neither
side has a tag one of n components. A side whose range begins past its end touches no slot, so it has no tag. -/
def fitTag (n : Nat) (other : Option Tag) : Tag :=
  match other with
  | some t => { t with lead := !t.lead }
  | none => ⟨3, true, false, false, BitVec.ofNat 2 n.log2⟩

/-- Geometry of a multiply word on core `c`, of which `lead` is the leader (R246, R249, R250, R261). -/
def State.mulGeom (s : State) (c lead : Nat) (k kl : Cmd) (w : MulWord) (ks : Nat) (km : Bool) : MulGeom :=
  let tab := (s.core lead).mat.tabs.getD w.st.toNat AlgTab.real
  let abase := plusGen (w.aadr.toNat * 32) (kl.gen64 kl.nest.s0)
  let bbase := plusGen (w.badr.toNat * 32) (k.gen64 k.nest.s1)
  let mbase := plusGen (kl.mbase * 32) (kl.gen64 kl.nest.s2)
  let keff := mulKlen w * ks / 8
  let ta := firstTag (s.quad (quadOf lead)) 0 abase
  let tb := firstTag (s.quad (quadOf c)) 1 bbase
  { tab := tab, abase := abase, bbase := bbase, mbase := mbase, atag := ta, btag := tb
    a := (abase, if km then abase + (kappaSpan false (tagBlock ta) tab.n keff - 1) * kl.astr + 128 * fmtBytes (tagFmt ta) ta.blk
      else abase + 127 * kl.astr + tagRow ta tab.n keff)
    b := (bbase, bbase + 255 * k.bstr + tagRow tb tab.n (mulKlen w))
    m := if ks = 8 then (0, 0) else (mbase, mbase + 127 * kl.mstr + 2 * (mulKlen w / 8)) }

/-- Planes PG to PG + n - 1, as far as there are any. -/
def groupMask (pg n : Nat) : Byte := (List.range n).foldl (fun (m : Byte) j => m ||| BitVec.twoPow 8 (pg + j)) 0

/-- Steps 1 to 10 in their order, for one member. A checks are made on the leader (R261). A side whose base lies past its
end has no tag: steps 3 to 6 fail by the other side alone, and step 7 gives the Access fault. ADDR of a range fault is the
first address past the side, or the base where that is greater: the manual does not say which failing address it is
(entry 70). -/
def State.mulCheck (s : State) (c lead : Nat) (k kl : Cmd) (i : Instr) (w : MulWord) (ks : Nat) (km : Bool) :
    Except MFault MInfl :=
  let g := s.mulGeom c lead k kl w ks km
  let n := g.tab.n
  let pg := w.pg.toNat
  let qa := s.quad (quadOf lead)
  let qb := s.quad (quadOf c)
  let keff := mulKlen w * ks / 8
  let hasA := decide (g.abase < 2 ^ 21)
  let hasB := decide (g.bbase < 2 ^ 21)
  if pg % n ≠ 0 ∨ 8 < pg + n then .error (0x14, some (dbl pg), 3)
  else
    let ta := if hasA then g.atag else fitTag n (if hasB then some g.btag else none)
    let tb := if hasB then g.btag else fitTag n (if hasA then some g.atag else none)
    let esa := fmtBytes (tagFmt ta) ta.blk
    let esb := fmtBytes (tagFmt tb) tb.blk
    let mx := (tagFmt ta).isMx
    let ps := groupMask pg n
    let onLead {α : Type} (x : Option α) : Option α := if c = lead then x else none
    match onLead (slotFail g.a fun j => qa.tag 0 j != ta), slotFail g.b (fun j => qb.tag 1 j != tb) with
    | some a, _ => .error (0x14, some (dbl a), 4)
    | none, some b => .error (0x14, some (dbl b), 4)
    | none, none =>
      match pairP (tagFmt ta) (tagFmt tb) with
      | none => .error (0x14, none, 1)
      | some p =>
        if mx && (ta.blk != tb.blk || ks != 8 || km) then .error (0x14, none, 1)
        else if tagComps ta ≠ n ∨ tagComps tb ≠ n then .error (0x14, none, 2)
        else if ((mx || 1 < n) && (mulKlen w % tagBlock ta != 0 || mulKlen w % tagBlock tb != 0)) || (ks != 8 && mulKlen w % 8 != 0) then .error (0x14, none, 5)
        else if ta.had != tb.had || (ta.had && tagBlock ta == 32 && ta.lead == tb.lead) then .error (0x14, none, 6)
        else if c = lead ∧ (!hasA ∨ 2 ^ 21 < g.a.2) then .error (0x16, some (dbl (Nat.max g.abase (2 ^ 21))), 0)
        else if !hasB ∨ 2 ^ 21 < g.b.2 then .error (0x16, some (dbl (Nat.max g.bbase (2 ^ 21))), 0)
        else if c = lead ∧ ks ≠ 8 ∧ 2 ^ 21 < g.m.2 then .error (0x16, some (dbl (Nat.max g.mbase (2 ^ 21))), 0)
        else if c = lead ∧ !mx ∧ g.abase % esa ≠ 0 then .error (0x03, some (dbl g.abase), 0)
        else if !mx ∧ g.bbase % esb ≠ 0 then .error (0x03, some (dbl g.bbase), 0)
        else
          let ma := (s.core lead).mat
          let mb := (s.core c).mat
          match onLead (slotFail g.a fun j => !ma.holds 0 j), slotFail g.b (fun j => !mb.holds 1 j),
              onLead (slotFail g.m fun j => !ma.holds 0 j) with
          | some a, _, _ => .error (0x16, some (dbl a), 0)
          | none, some b, _ => .error (0x16, some (dbl b), 0)
          | none, none, some m => .error (0x16, some (dbl m), 0)
          | none, none, none =>
            match s.planeCheck c { k with regions := [] } ps readKinds false with
            | some (0x16, a, d) => .error (0x16, a, d)
            | _ =>
              match onLead (slotFail g.a fun j => !kl.slotOk readKinds 0 j), slotFail g.b (fun j => !k.slotOk readKinds 1 j),
                  onLead (slotFail g.m fun j => !kl.slotOk readKinds 0 j) with
              | some a, _, _ => .error (0x17, some (dbl a), 0)
              | none, some b, _ => .error (0x17, some (dbl b), 0)
              | none, none, some m => .error (0x17, some (dbl m), 0)
              | none, none, none =>
                match s.planeCheck c k ps [.rw] true with
                | some f => .error f
                | none =>
                  let members := ((s.core c).task.map (·.members)).getD [c]
                  let formed := (s.core c).mat.formed
                  let u : MUse := { MUse.none with
                    ra := if c = lead then slotMask g.a ||| slotMask g.m else 0, rb := slotMask g.b, wp := ps, mul := true }
                  .ok { s.minfl k i u with
                    tab := g.tab, atag := ta, btag := tb, abase := g.abase, bbase := g.bbase, mbase := g.mbase, astr := kl.astr,
                    mstr := kl.mstr, leader := lead, gangWord := formed
                    delay := strips (quadOf lead) (quadOf c)
                    maxDelay := if formed then (members.map fun m => strips (quadOf lead) (quadOf m)).foldl Nat.max 0 else 0
                    meter := pairMeter (tagFmt ta) (tagFmt tb), ops := 2 * 128 * 256 * keff * (n * n)
                    gap := mulCycles mx (tagBlock ta) n (mulKlen w) ks p }

/-! ## Gangs (R260 to R262) -/

/-- Leader of the word's gang: member 0 of a formed gang, else the core itself. -/
def Core.leader (x : Core) (c : Nat) : Nat := if x.mat.formed then ((x.task.map fun t => t.members.headD c)).getD c else c

/-- What a member stands at: 0 MGANG, 1 a gang word, 2 MUNGANG. -/
def gangKind (w : Word) : Nat :=
  match (w.extractLsb' 22 6).toNat with
  | 0x0D => 0
  | 0x0E => 2
  | _ => 1

/-- The current word and its EXT words. -/
def Cur.words (u : Cur) : List Word := [u.word, u.ext1, u.ext2].take u.len

/-- The word at which a member's matrix engine stands and could issue. -/
def State.memberWord (s : State) (m : Nat) : Option (Instr × State) :=
  match s.attemptEngine m .mat with
  | .word i s => some (i, s)
  | .done _ => none

/-- A gang word, MGANG or MUNGANG waits until every member stands at one; when all do and can issue, `go` lets all of
them issue in one step. Where one member stands at MUNGANG and another at a gang word, the fault of R260 is raised
whichever of the two comes second: the manual names the member that reaches MUNGANG (entry 71). -/
def State.gangStep (s : State) (ready : Nat → State → Bool) (go : List (Nat × State) → State → State) : State :=
  let c := s.cur.core
  let mine := s.cur.words
  let kind := gangKind s.cur.word
  let ms := s.members
  let others := ms.filter (· != c)
  let kindOf (m : Nat) : Option Nat := ((s.core m).mat.gangWait.bind List.head?).map gangKind
  -- a member at MUNGANG while others wait at a gang word
  if others.any fun m => (kind == 2 && kindOf m == some 1) || (kind == 1 && kindOf m == some 2) then
    s.useFree.gangFault ms 0x14 s.freeDbl 7
  else
    let s := s.updCore c fun x => { x with mat := { x.mat with gangWait := some mine } }
    let at_ := ms.filterMap fun m => if (s.core m).mat.gangWait.isSome then (s.memberWord m).map fun (_, t) => (m, t) else none
    if at_.length < ms.length then s
    else if kind = 1 ∧ at_.any fun (_, t) => t.cur.words != mine then s.useFree.gangFault ms 0x14 s.freeDbl 7
    else if at_.all fun (m, t) => ready m t then go at_ s
    else s

/-- A gang step counts toward the leader's 16 commands; at the limit every member stops at this boundary (R263). -/
def State.countStep (s : State) : State :=
  match s.members with
  | [] => s
  | l :: ms =>
    let q := quadOf l
    let s := s.updQuad q fun x => { x with leaseCount := x.leaseCount + 1 }
    if (s.quad q).leaseCount < 16 then s
    else (l :: ms).foldl (fun s m => if s.holdsLease m then s.updQuad (quadOf m) fun x => { x with leaseOver := true } else s) s

/-- Each member issues its word, complete at once. -/
def State.gangDone (s : State) (f : Mat → Mat) : List Nat → State
  | [] => s
  | m :: ms =>
    match s.memberWord m with
    | some (_, t) => ((t.updCore m fun x => { x with mat := f x.mat }).matDone).gangDone f ms
    | none => s.gangDone f ms

/-! ## Multiply words (R246 to R251) -/

/-- Checks of a multiply word on a core; `s` stands at the core's word. -/
def State.mulTry (s : State) (c : Nat) (i : Instr) (w : MulWord) (ks : Nat) (km : Bool) : Except MFault MInfl :=
  let lead := (s.core c).leader c
  match s.cmd, (if lead = c then s.cmd else s.matCmd lead) with
  | some k, some kl => s.mulCheck c lead k kl i w ks km
  | _, _ => .error (0x14, none, 7)

/-- What a multiply word waits for (R257). -/
def State.mulUse (s : State) (c : Nat) (w : MulWord) (ks : Nat) (km : Bool) : MUse :=
  let lead := (s.core c).leader c
  match s.cmd, (if lead = c then s.cmd else s.matCmd lead) with
  | some k, some kl =>
    let g := s.mulGeom c lead k kl w ks km
    { MUse.none with
      ra := if c = lead then slotMask g.a ||| slotMask g.m else 0, rb := slotMask g.b, wp := groupMask w.pg.toNat g.tab.n,
      mul := true }
  | _, _ => { MUse.none with mul := true }

/-- The members issue a gang multiply word, each with its own entry of the step, checked before any of them issues; the step
holds issue for the longest T of a member. -/
def State.gangMul (s : State) (step gap : Nat) : List (Nat × MInfl) → State
  | [] => s
  | (m, f) :: fs =>
    match s.memberWord m with
    | some (_, t) =>
      ((t.updCore m fun x => { x with mat := { x.mat with steps := x.mat.steps + 1 } }).matIssue
        { f with step := step, gap := gap }).gangMul step gap fs
    | none => s.gangMul step gap fs

/-- A multiply word. In a gang the checks are made member by member, all ten steps of one member before the next
member's: the manual gives no order among members (entry 72). -/
def State.mulWord (s : State) (i : Instr) (w : MulWord) (ks : Nat) (km : Bool) : State :=
  let c := s.cur.core
  if (s.core c).mat.formed then
    s.gangStep (fun m t => !(t.core m).mat.holdsBack (t.mulUse m w ks km)) fun at_ s =>
      match at_.findSome? fun (m, t) =>
          match t.mulTry m i w ks km with
          | .error f => some (m, t, f)
          | .ok _ => none with
      | some (_, t, f) =>
        (t.updCore t.cur.core fun x => { x with mat := { x.mat with gangWait := none } }).matFault f
      | none =>
        let fs := at_.filterMap fun (m, t) => (t.mulTry m i w ks km).toOption.map fun f => (m, f)
        (s.gangMul s.nextId ((fs.map fun p => p.2.gap).foldl Nat.max 0) fs).countStep
  else if (s.core c).mat.holdsBack (s.mulUse c w ks km) then s
  else
    match s.mulTry c i w ks km with
    | .error f => s.matFault f
    | .ok f => s.matIssue f

def execMma (w : MulWord) (s : State) : Result := .next (s.mulWord (.mma w) w 8 false)
def execMmas (w : MulWord) (k4 : Bool) (s : State) : Result := .next (s.mulWord (.mmas w k4) w (if k4 then 4 else 2) false)
def execMmat (w : MulWord) (s : State) : Result := .next (s.mulWord (.mmat w) w 8 true)

/-! ## Leases, claims, tables (R235, R239, R242) -/

def execMlease (s : State) : Result :=
  .next ((s.updCore s.cur.core fun x => { x with mat := { x.mat with keep := true } }).matDone)

/-- The lease ends; a later command requests it again. -/
def execMunlease (s : State) : Result :=
  let c := s.cur.core
  .next (if (s.core c).mat.infl ≠ [] then s
    else ((s.updCore c fun x => { x with mat := { x.mat with keep := false } }).matDone).dropLease c)

/-- A claim that must wait stands at a tile boundary. -/
def execMclaim (side : MSide) (mask : Word) (s : State) : Result :=
  let c := s.cur.core
  .next (if s.claimBlocked c side mask then
      s.updCore c fun x => { x with mat := { x.mat with waiting := some (side, mask) } }
    else (s.takeClaim c side mask).matDone)

/-- Claims that a restored task takes back (R351). -/
def Mat.reclaims (m : Mat) : List (MSide × Word) :=
  [(MSide.a, m.reclaimA), (.b, m.reclaimB), (.acc, m.reclaimP.setWidth 32)].filter fun (_, w) => w != 0

/-- A waiting MCLAIM, or a restored task's claims, find their items free. -/
def canClaimGranted (core : Nat) (s : State) : Bool :=
  let m := (s.core core).mat
  if m.reclaims != [] then
    (s.core core).task.isSome && (s.core core).freezes == [] && !m.reclaims.any fun (d, w) => s.claimBlocked core d w
  else
    match m.waiting, s.memberWord core with
    | some (side, mask), some (.mclaim d w, _) => d == side && w == mask && !s.claimBlocked core side mask
    | _, _ => false

def execClaimGranted (core : Nat) (s : State) : Result :=
  .next (if canClaimGranted core s then
      let m := (s.core core).mat
      if m.reclaims != [] then
        (m.reclaims.foldl (fun s (d, w) => s.takeClaim core d w) s).updCore core fun x =>
          { x with mat := { x.mat with reclaimA := 0, reclaimB := 0, reclaimP := 0 } }
      else
        match s.memberWord core with
        | some (.mclaim side mask, t) => (t.takeClaim core side mask).matDone
        | _ => s
    else s)

/-- Does an issued word use an item of a mask? -/
def MInfl.uses (f : MInfl) (side : MSide) (mask : Word) : Bool :=
  match side with
  | .a => (mask &&& (f.readsA ||| f.writesA)) != 0
  | .b => (mask &&& (f.readsB ||| f.writesB)) != 0
  | .acc => (mask &&& ((f.readsP ||| f.writesP).setWidth 32)) != 0

def execMrel (side : MSide) (mask : Word) (s : State) : Result :=
  let c := s.cur.core
  .next (if (s.core c).mat.infl.any fun f => f.uses side mask then s else (s.dropClaim c side mask).matDone)

def State.setTab (s : State) (st : BitVec 2) (a : AlgTab) : State :=
  s.updCore s.cur.core fun x => { x with mat := { x.mat with tabs := x.mat.tabs.set st.toNat a } }

def execMtab (st : BitVec 2) (pre : Preset) (s : State) : Result := .next ((s.setTab st (presetTab pre)).matDone)

def execMtabSlot (st : BitVec 2) (sideB : Bool) (slot : BitVec 5) (off : BitVec 10) (s : State) : Result :=
  let c := s.cur.core
  let side := sideNum sideB
  let a := slot.toNat * 65536 + off.toNat * 64
  .next (match s.cmd with
    | none => s
    | some k =>
      let img := s.readSide (quadOf c) side a 64
      -- complete in cycle 1, so it may be the seventeenth in flight (R233)
      if 16 ≤ (s.core c).mat.infl.length then s
      else if !(s.core c).mat.holds side slot.toNat then s.matFault (0x16, some (dbl a), 0)
      else if !k.slotOk readKinds side slot.toNat then s.matFault (0x17, some (dbl a), 0)
      else if imageInvalid img then s.matFault (0x14, some (dbl a), 9)
      else (s.setTab st (algOfImage img)).matDone)

/-! ## Fills and transfers (R252 to R256) -/

def execMzero (pmask : Byte) (s : State) : Result :=
  let c := s.cur.core
  .next (match s.cmd with
    | none => s
    | some k =>
      if pmask = 0 then s.matDone
      else if (s.core c).mat.holdsBack { MUse.none with wp := pmask } then s
      else
        match s.planeCheck c k pmask writeKinds false with
        | some f => s.matFault f
        | none => s.matIssue (s.minfl k (.mzero pmask) { MUse.none with wp := pmask }))

def fillFmt : FillFmt → Fmt
  | .f16 => .f16
  | .bf16 => .bf16
  | .e4m3 => .e4m3
  | .e5m2 => .e5m2

/-- Code of R71. -/
def fillCode : FillFmt → BitVec 4
  | .f16 => 3
  | .bf16 => 4
  | .e4m3 => 5
  | .e5m2 => 6

def fillKlen (w : FillWord) : Nat := 32 * (w.kl.toNat + 1)
def fillComps (w : FillWord) : Nat := 2 ^ w.nc.toNat
def fillEs (w : FillWord) : Nat := fmtBytes (fillFmt w.fmt) w.blk
def fillRows (w : FillWord) : Nat := if w.sideB then 256 else 128
def fillRowLen (w : FillWord) : Nat := (fillKlen w) * (fillComps w) * (fillEs w)
def fillTag (w : FillWord) : Tag := ⟨fillCode w.fmt, w.blk, false, false, w.nc⟩

/-- Component c of element e in row ρ (R253). -/
def fillValue (w : FillWord) (row e c : Nat) : Nat :=
  match w.mode with
  | .const => w.val.toNat
  | .comp => if c = w.csel.toNat then w.val.toNat else 0
  | .diag => if c = w.csel.toNat ∧ e = row % (fillKlen w) then w.val.toNat else 0

/-- Bytes of a row, components interleaved by R104. -/
def fillRowBytes (w : FillWord) (row : Nat) : List Byte :=
  let B := blockLen w.blk
  let n := (fillComps w)
  (List.range ((fillKlen w) * n)).flatMap fun p =>
    let (e, c) := if n = 1 then (p, 0) else (p / B / n * B + p % B, p / B % n)
    leBytes (fillEs w) (fillValue w row e c)

/-- The range that a fill writes, with its stride. -/
def Cmd.fillRange (k : Cmd) (w : FillWord) : SideRange × Nat :=
  let base := plusGen (w.addr.toNat * 32) (k.gen64 (if w.sideB then k.nest.s1 else k.nest.s0))
  let stride := if w.sideB then k.bstr else k.astr
  ((base, base + ((fillRows w) - 1) * stride + (fillRowLen w)), stride)

def fillUse (w : FillWord) (r : SideRange) : MUse :=
  if w.sideB then { MUse.none with wb := slotMask r } else { MUse.none with wa := slotMask r }

def execMfill (w : FillWord) (s : State) : Result :=
  let c := s.cur.core
  .next (match s.cmd with
    | none => s
    | some k =>
      let side := sideNum w.sideB
      let (r, stride) := k.fillRange w
      let base := r.1
      let u := fillUse w r
      if (s.core c).mat.holdsBack u then s
      else if 2 ^ 21 < r.2 then s.matFault (0x16, some (dbl (Nat.max base (2 ^ 21))), 0)
      else if base % (fillEs w) ≠ 0 then s.matFault (0x03, some (dbl base), 0)
      else
        match slotFail r (fun j => !(s.core c).mat.holds side j), slotFail r (fun j => !k.slotOk writeKinds side j) with
        | some a, _ => s.matFault (0x16, some (dbl a), 0)
        | none, some a => s.matFault (0x17, some (dbl a), 0)
        | none, none =>
          if (fillComps w) ≤ w.csel.toNat then s.matFault (0x14, none, 2)
          else s.matIssue { s.minfl k (.mfill w) u with abase := base, astr := stride })

def execMfillAcc (pl : BitVec 3) (val : BitVec 16) (s : State) : Result :=
  let c := s.cur.core
  let m : Byte := BitVec.twoPow 8 pl.toNat
  .next (match s.cmd with
    | none => s
    | some k =>
      if (s.core c).mat.holdsBack { MUse.none with wp := m } then s
      else
        match s.planeCheck c k m writeKinds false with
        | some f => s.matFault f
        | none => s.matIssue (s.minfl k (.mfillAcc pl val) { MUse.none with wp := m }))

def outRows (w : OutWord) : Nat := w.nrowM1.toNat + 1
def outEs (w : OutWord) : Nat := (ftyForm w.df).width / 8

/-- The checks that MOUT and MACCLD share, in the order of R254. -/
def State.planeRows (s : State) (k : Cmd) (t : Task) (w : OutWord) (planes : List RegKind) (poison : Bool)
    (spad : List RegKind) : Except MFault Nat :=
  let c := s.cur.core
  let off := plusGen w.soff.toNat (k.gen64 k.nest.s2)
  match s.planeCheck c k (BitVec.twoPow 8 w.pl.toNat) planes poison with
  | some f => .error f
  | none =>
    match (List.range (outRows w)).findSome? fun i => k.spadFail c t spad (off + i * w.sstr.toNat) (256 * (outEs w)) with
    | some b => .error (0x17, some (dbl b), 0)
    | none =>
      if off % (outEs w) ≠ 0 ∨ w.sstr.toNat % (outEs w) ≠ 0 then .error (0x03, some (dbl off), 0) else .ok off

def execMout (w : OutWord) (rm : Rm) (s : State) : Result :=
  let u : MUse := { MUse.none with rp := BitVec.twoPow 8 w.pl.toNat }
  .next (match s.cmd, s.task with
    | some k, some t =>
      if (s.core s.cur.core).mat.holdsBack u then s
      else
        match s.planeRows k t w readKinds true writeKinds with
        | .error f => s.matFault f
        | .ok off => s.matIssue { s.minfl k (.mout w rm) u with soff := off }
    | _, _ => s)

def execMaccld (w : OutWord) (s : State) : Result :=
  let u : MUse := { MUse.none with wp := BitVec.twoPow 8 w.pl.toNat }
  .next (match s.cmd, s.task with
    | some k, some t =>
      if (s.core s.cur.core).mat.holdsBack u then s
      else
        match s.planeRows k t w writeKinds false readKinds with
        | .error f => s.matFault f
        | .ok off => s.matIssue { s.minfl k (.maccld w) u with soff := off }
    | _, _ => s)

/-- CLAIMS, PLANES and GANG of the query record (R256). -/
def Core.claimsDbl (x : Core) : Dbl := x.mat.claimB ++ x.mat.claimA
def State.planesDbl (s : State) (c : Nat) : Dbl :=
  dbl ((s.core c).mat.claimP.toNat + (s.quad (quadOf c)).poison.toNat * 256)
def State.gangDbl (s : State) (c : Nat) : Dbl :=
  let x := s.core c
  let t := x.task
  let members := (t.map (·.members)).getD [c]
  dbl (members.idxOf c % 8 + ((t.map (·.gang)).getD 0) * 8 + (if x.mat.formed then 64 else 0)
    + quadOf (members.headD c) % 6 * 2 ^ 7 + quadOf c % 6 * 2 ^ 11 + (if x.mat.keep then 2 ^ 15 else 0))

/-- The query record. -/
def State.queryRecord (s : State) (c : Nat) : List Byte :=
  let x := s.core c
  leBytes 8 x.claimsDbl.toNat ++ leBytes 8 (s.planesDbl c).toNat ++ leBytes 8 (s.gangDbl c).toNat
    ++ leBytes 8 (s.leaseReg c) ++ (x.mat.tabs.flatMap fun a => [BitVec.ofNat 8 a.n, a.conj]) ++ List.replicate 24 0

def execMqry (soff : BitVec 19) (s : State) : Result :=
  let c := s.cur.core
  .next (match s.cmd, s.task with
    | some k, some t =>
      let off := plusGen soff.toNat (k.gen64 k.nest.s2)
      if (s.core c).mat.infl ≠ [] then s
      else if off % 64 ≠ 0 then s.matFault (0x03, some (dbl off), 0)
      else
        match k.spadFail c t writeKinds off 64 with
        | some b => s.matFault (0x17, some (dbl b), 0)
        | none => s.matIssue { s.minfl k (.mqry soff) MUse.none with soff := off, out := s.queryRecord c }
    | _, _ => s)

/-! ## MGANG, MUNGANG, MSYNC (R260, R262) -/

def execMgang (s : State) : Result :=
  let c := s.cur.core
  .next (if ((s.task.map (·.gang)).getD 0) = 0 then s.matFault (0x14, none, 8)
    else if (s.core c).mat.formed then s.matDone
    else s.gangStep (fun _ _ => true) fun _ s => s.gangDone (fun m => { m with formed := true, steps := 0, anew := false }) s.members)

def execMungang (s : State) : Result :=
  let c := s.cur.core
  .next (if !(s.core c).mat.formed then s.matDone
    else s.gangStep (fun m t => !(t.core m).mat.infl.any (·.gangWord)) fun _ s =>
      s.gangDone (fun m => { m with formed := false }) s.members)

def execMsync (s : State) : Result :=
  let c := s.cur.core
  .next (if (s.core c).mat.formed then
      s.gangStep (fun m t => (t.core m).mat.infl == []) fun _ s =>
        (s.gangDone (fun m => { m with steps := m.steps + 1 }) s.members).countStep
    else if (s.core c).mat.infl ≠ [] then s
    else s.matDone)

/-! ## Completion (R233, R252 to R256) -/

def State.matOf (s : State) (c wid : Nat) : Option MInfl := (s.core c).mat.infl.find? fun f => f.wid == wid

/-- Multiply words are complete in issue order, because every cell performs them in that order (R233). After a restore no
word goes on before the core's claims are taken back; a gang word goes on with all members only (R271). -/
def canMatComplete (core wid : Nat) (s : State) : Bool :=
  (s.core core).freezes == []
    && (match s.matOf core wid with
      | none => false
      | some f =>
        (s.core core).mat.reclaims == []
          && (f.done || !isMul f.instr || !((s.core core).mat.infl.takeWhile fun g => g.wid != wid).any fun g => isMul g.instr)
          && (f.done || !f.gangWord || (s.core core).task.all fun t => t.members.all fun m => (s.core m).mat.reclaims == []))

/-- Every element of the planes of a mask takes a value, and their poison is cleared. -/
def Quad.fillPlanes (x : Quad) (m : Byte) (v : Dbl) : Quad :=
  let x := (planesOf m).foldl (fun x p => x.setPlane p (List.replicate 32768 v)) x
  { x with poison := x.poison &&& ~~~m }

/-- One element of MOUT: binary64 to DF. -/
def moutElem (w : OutWord) (rm : Rm) (v : Dbl) : List Byte :=
  leBytes (outEs w) ((ftyForm w.df).round rm false (formF64.value v.toNat)).1

def widen (F : FForm) (v : Nat) : Dbl := dbl (formF64.round .rne false (F.value v)).1

/-- What a completed matrix word does. -/
def State.matEffect (s : State) (c : Nat) (f : MInfl) : State :=
  let q := quadOf c
  match f.instr with
  | .mzero m => s.updQuad q fun x => x.fillPlanes m 0
  | .mfillAcc pl v => s.updQuad q fun x => x.fillPlanes (BitVec.twoPow 8 pl.toNat) (widen formBf16 v.toNat)
  | .mfill w =>
    let side := sideNum w.sideB
    let s := (List.range (fillRows w)).foldl (fun (s : State) row =>
      { s with mem := memWrites (slotAt q side 0 (f.abase + row * f.astr)) (fillRowBytes w row) s.mem }) s
    let slots := (List.range 32).filter fun j => (f.writesA ||| f.writesB).getLsbD j
    s.updQuad q fun x => { x with tags := slots.foldl (fun t j => tset (32 * side + j) (fillTag w) t) x.tags }
  | .mout w rm =>
    (List.range (outRows w)).foldl (fun s i =>
      let bs := (List.range 256).flatMap fun col => moutElem w rm ((s.quad q).acc w.pl.toNat (w.row0.toNat + i) col)
      (s.writeArray c (f.soff + i * w.sstr.toNat) bs).fireBlocks c (f.soff + i * w.sstr.toNat) bs.length) s
  | .maccld w =>
    (List.range (outRows w)).foldl (fun s i =>
      let bs := s.readArray c (f.soff + i * w.sstr.toNat) (256 * (outEs w))
      s.updQuad q fun x => (List.range 256).foldl (fun x col =>
        x.setAcc (planeIndex w.pl.toNat (w.row0.toNat + i) col)
          (widen (ftyForm w.df) (leNat ((bs.drop (col * (outEs w))).take (outEs w))))) x) s
  | .mqry _ => (s.writeArray c f.soff f.out).fireBlocks c f.soff 64
  | _ => (s.arrayRun c f f.lastCycle).countOps c false f.meter f.ops

/-- What the word of an entry does is done; its completion may be pending (R269). -/
def State.matRun (s : State) (c wid : Nat) : State :=
  match s.matOf c wid with
  | none => s
  | some f =>
    if f.done then s
    else (s.matEffect c f).updCore c fun x =>
      { x with mat := { x.mat with infl := x.mat.infl.map fun g => if g.wid == wid then { g with done := true } else g } }

/-- Entries of the gang step of an entry: each member with its own; otherwise the entry alone. -/
def State.stepOf (s : State) (c : Nat) (f : MInfl) : List (Nat × Nat) :=
  if f.gangWord then
    (((s.core c).task.map (·.members)).getD [c]).filterMap fun m =>
      ((s.core m).mat.infl.find? fun g => g.gangWord && g.step == f.step).map fun g => (m, g.wid)
  else [(c, f.wid)]

/-- A word runs, a gang word on every member at once, since all read the leader's A (R261). -/
def State.matRuns (s : State) (c wid : Nat) : State :=
  match s.matOf c wid with
  | none => s
  | some f => (s.stepOf c f).foldl (fun s (m, w) => s.matRun m w) s

/-- The entry leaves the engine, and its signals follow. -/
def State.matOver (s : State) (c wid : Nat) : State :=
  s.updCore c fun x =>
    ({ x with mat := { x.mat with infl := x.mat.infl.filter fun g => g.wid != wid } } : Core).completeWord .mat wid

/-- A matrix word is complete, a gang word on every member; one whose domain is frozen gives its signals after the thaw
(R126). -/
def State.matComplete (s : State) (c wid : Nat) : State :=
  match s.matOf c wid with
  | none => s
  | some f =>
    let es := s.stepOf c f
    let s := s.matRuns c wid
    es.foldl (fun (s : State) (m, w) => if (s.core m).freezes = [] ∧ m ≠ c then s.matOver m w else s) (s.matOver c wid)

/-- Elapsed cycles of multiply words at a stop, oldest first, from a list of them with the newest first: an older word is
ahead of the next by at least the clk for which it holds issue (R233). -/
def stopCycles (wall : Nat) : List MInfl → Nat → List (MInfl × Nat) → List (MInfl × Nat)
  | [], _, acc => acc
  | f :: fs, least, acc =>
    let e (f : MInfl) (least : Nat) : Nat := Nat.max f.elapsed (least + Config.stopCycle wall f.step)
    let gap := (fs.head?.map (·.gap)).getD 0
    stopCycles wall fs (e f least + gap) ((f, e f least) :: acc)

/-- A freeze stop leaves multiply words mid-array (R269). -/
def State.freezeMat (s : State) (c : Nat) : State :=
  let muls := ((s.core c).mat.infl.filter fun f => isMul f.instr && !f.done)
  let es := stopCycles s.wall muls.reverse 0 []
  let s := es.foldl (fun s (f, e) => s.arrayRun c f e) s
  s.updCore c fun x => { x with mat := { x.mat with infl := x.mat.infl.map fun g =>
    match (es.find? fun (p : MInfl × Nat) => p.1.wid == g.wid) with
    | some (_, e) => { g with elapsed := e }
    | none => g } }

end Sys2Proof.Machine
end

