-- ==== Sys2Proof/Machine/Engines.lean ====
section
/-! DEFINITION. Completion of engine words and their signals (R27), retirement of commands (R31, R39, R41), and the
leases of the arrays (R42, R242, R263). -/

namespace Sys2Proof.Machine

open Sys2Proof

/-! ## Words and signals (R27) -/

/-- Freezes under which a freeze stop goes on: all but a late landing's and a throttle's. -/
def Freeze.lasting : Freeze → Bool
  | .lateLanding | .throttle => false
  | _ => true

/-- A freeze stop that is under way. -/
def Core.onlyStopped (x : Core) : Bool :=
  x.freezes != [] && x.freezes.all Freeze.lasting && x.task.any fun t => t.stopping == some 2

/-- While the domain is frozen, a matrix word does what it does and its completion waits for the thaw: any word behind a
body fault (R185, R227, R266), and at a freeze stop any but a multiply (R269). -/
def canMatRun (core wid : Nat) (s : State) : Bool :=
  let x := s.core core
  let faulted := x.freezes.any fun f => match f with
    | .bodyFault _ => true
    | _ => false
  match s.matOf core wid with
  | none => false
  | some f =>
    !f.done && (faulted || (x.onlyStopped && !isMul f.instr))
      && (!isMul f.instr || !(x.mat.infl.takeWhile fun g => g.wid != wid).any fun g => isMul g.instr && !g.done)

def canEngineWordComplete (core : Nat) (eng : Engine) (wid : Nat) (s : State) : Bool :=
  match eng with
  | .seq => false
  | .load | .store => canCopyComplete core eng wid s || canCopyLand core eng wid s
  | .vec => canVecComplete core wid s
  | .mat => canMatComplete core wid s || canMatRun core wid s

/-- ENGINE_WORD_COMPLETE (R27). -/
def execEngineWordComplete (core : Nat) (eng : Engine) (wid : Nat) (s : State) : Result :=
  .next (if canEngineWordComplete core eng wid s then
      match eng with
      | .seq => s
      | .load | .store =>
        if canCopyLand core eng wid s then s.copyLand core wid
        else s.copyComplete core wid
      | .vec => s.vecComplete core wid
      | .mat => if (s.core core).freezes = [] then s.matComplete core wid else s.matRuns core wid
    else s)

/-- A pending signal of an engine that its queue has room for. -/
def Core.deliverable (x : Core) (e : Engine) (next : Bool) : Bool :=
  (if next then (x.flow e).psn else (x.flow e).psp) && decide (x.token (tokenOut e next) < 15)

def Core.deliverPending (x : Core) (e : Engine) (next : Bool) : Core :=
  if x.deliverable e next then
    ({ x with tokens := lmod x.tokens (tokenOut e next) (· + 1) } : Core).updFlow e fun f =>
      if next then { f with psn := false } else { f with psp := false }
  else x

/-- The oldest word of an engine's order is complete and its signals have not followed: it completed while the domain was
frozen (R126). -/
def Core.unsettled (x : Core) (e : Engine) : Bool :=
  !(x.flow e).psp && !(x.flow e).psn && (match (x.flow e).order with
    | w :: _ => w.done && !x.behindReloc e w.wid
    | [] => false)

def canPendingSignalDelivered (core : Nat) (eng : Engine) (s : State) : Bool :=
  (s.core core).freezes == []
    && ((s.core core).deliverable eng false || (s.core core).deliverable eng true || (s.core core).unsettled eng)

/-- PENDING_SIGNAL_DELIVERED (R27): what waits in word order behind it follows. -/
def execPendingSignalDelivered (core : Nat) (eng : Engine) (s : State) : Result :=
  .next (if canPendingSignalDelivered core eng s then
      s.updCore core fun x => ((x.deliverPending eng false).deliverPending eng true).settle eng
    else s)

/-! ## Leases (R42, R242, R263) -/

/-- Does a core want its array: a matrix command of it is to issue words (R42, R155)? -/
def State.wantsLease (s : State) (c : Nat) : Bool :=
  match (s.core c).curCmd .mat with
  | some k => (s.core c).mayRun k
  | none => false

def Quad.grant (q : Quad) (c wall : Nat) : Quad :=
  { q with leaseHolder := some c, leaseCount := 0, leaseFrom := wall, leaseOver := false,
           leaseReqs := q.leaseReqs.filter (· != c) }

/-- A lease ends at a limit; where no other core requests it, the holder has a new one at once (R42). -/
def State.endLease (s : State) (c : Nat) : State :=
  if !s.holdsLease c then s
  else if (s.quad (quadOf c)).leaseReqs.any (· != c) then s.dropLease c
  else if s.wantsLease c || (s.core c).mat.keep then s.updQuad (quadOf c) fun q => q.grant c s.wall
  else s.dropLease c

def State.setAnew (s : State) (c : Nat) (b : Bool) : State :=
  s.updCore c fun x => { x with mat := { x.mat with anew := b } }

def State.leaseOver (s : State) (c : Nat) : State :=
  if s.holdsLease c then s.updQuad (quadOf c) fun q => { q with leaseOver := true } else s

/-- A limit is reached: the engines stop at their next tile boundary, and where every word issued is complete the leases
end (R42, R263). A gang then issues again when every member holds a lease anew. -/
def State.limitLease (s : State) (c : Nat) : State :=
  let ms := (s.core c).leaseGroup c
  if ms.all fun m => (s.core m).mat.infl == [] then
    let s := ms.foldl (fun s m => s.endLease m) s
    if (s.core c).mat.formed && !ms.all s.holdsLease then ms.foldl (fun s m => s.setAnew m true) s else s
  else ms.foldl (fun s m => s.leaseOver m) s

/-- The last of a gang's leases is granted anew (R263). -/
def State.heldAnew (s : State) (c : Nat) : State :=
  let ms := (s.core c).leaseGroup c
  if (s.core c).mat.anew && ms.all s.holdsLease then ms.foldl (fun s m => s.setAnew m false) s else s

def canLeaseRequest (core : Nat) (s : State) : Bool :=
  core != derailleur && (s.core core).freezes == [] && s.wantsLease core && !s.holdsLease core
    && !(s.quad (quadOf core)).leaseReqs.contains core

/-- LEASE_REQUEST (R42). -/
def execLeaseRequest (core : Nat) (s : State) : Result :=
  .next (if canLeaseRequest core s then
      s.updQuad (quadOf core) fun q => { q with leaseReqs := q.leaseReqs ++ [core] }
    else s)

/-- The next requesting member after the last holder. -/
def Quad.nextHolder (x : Quad) (q : Nat) : Option Nat :=
  ((List.range 4).map fun i => 4 * q + (x.leaseLast + 1 + i) % 4).find? fun c => x.leaseReqs.contains c

def canLeaseGrant (quad : Nat) (s : State) : Bool :=
  !(s.quad quad).fenced && (s.quad quad).leaseHolder.isNone && ((s.quad quad).nextHolder quad).isSome

/-- LEASE_GRANT (R42). A core whose task has gone meanwhile is passed over. -/
def execLeaseGrant (quad : Nat) (s : State) : Result :=
  .next (if canLeaseGrant quad s then
      match (s.quad quad).nextHolder quad with
      | none => s
      | some c =>
        if s.wantsLease c then (s.updQuad quad fun q => q.grant c s.wall).heldAnew c
        else s.updQuad quad fun q => { q with leaseReqs := q.leaseReqs.filter (· != c) }
    else s)

/-- Does a holder's cycle limit end its lease: outside a gang, as a gang's leader, or as a member that waits for the
others (R263)? -/
def State.limited (s : State) (c : Nat) : Bool :=
  let x := s.core c
  !x.mat.formed || x.leader c == c || (x.mat.anew && !(x.leaseGroup c).all s.holdsLease)

def canLeaseCycleLimit (quad : Nat) (s : State) : Bool :=
  match (s.quad quad).leaseHolder with
  | none => false
  | some c =>
    (s.core c).freezes == []
      && ((s.quad quad).leaseOver || ((s.quad quad).leaseFrom + 65536 ≤ s.wall && s.limited c))

/-- LEASE_CYCLE_LIMIT (R42): at a tile boundary after 65,536 cycles the lease passes. -/
def execLeaseCycleLimit (quad : Nat) (s : State) : Result :=
  .next (if canLeaseCycleLimit quad s then
      match (s.quad quad).leaseHolder with
      | none => s
      | some c => s.limitLease c
    else s)

/-- A matrix command of a core retires: the count of its lease, its limit, and the end of a lease whose queue is empty
(R42, R242) or whose parked task has finished what it started (R155). -/
def State.countLease (s : State) (c : Nat) : State :=
  if !s.holdsLease c then s
  else
    let s := s.updQuad (quadOf c) fun q => { q with leaseCount := q.leaseCount + 1 }
    let x := s.core c
    if (x.queue .mat == [] && !x.mat.keep) || ((x.task.map (·.parked)).getD false && !(x.queue .mat).any (·.started)) then
      s.dropLease c
    else if 16 ≤ (s.quad (quadOf c)).leaseCount && (!x.mat.formed || x.leader c == c) then s.limitLease c
    else s

/-! ## Retirement (R31, R39, R41) -/

/-- Every word of a command is complete and its signals are delivered. -/
def Core.cmdOver (x : Core) (e : Engine) (k : Cmd) : Bool :=
  k.allIssued && !(x.flow e).order.any (fun w => k.wids.contains w.wid)
    && !x.copy.xfers.any (fun f => f.cmd == k.uid) && !x.vec.own.infl.any (fun f => f.cmd == k.uid)
    && !(k.ctx.any fun v => v.infl != []) && !x.mat.infl.any (fun f => f.cmd == k.uid)

def canCommandRetire (core : Nat) (eng : Engine) (s : State) : Bool :=
  eng != .seq && (s.core core).freezes == []
    && (match (s.core core).queue eng with
      | k :: _ => (s.core core).cmdOver eng k
      | [] => false)

/-- The command leaves its queue: its slot, its counts (R129, R146, R79), and the edges on it are free; a relocatable
command's flags join those of its owner (R225). -/
def Core.retire (x : Core) (e : Engine) (k : Cmd) : Core :=
  let q := x.seq
  let x := x.updQueue e fun l => l.filter fun j => j.uid != k.uid
  let x := { x with queues := x.queues.map fun (l : List Cmd) => l.map fun (j : Cmd) => { j with edges := j.edges.filter (· != k.uid) } }
  { x with
    seq := if isCopy e then { q with cp := q.cp - 1 } else if e == Engine.mat then { q with mt := q.mt - 1 } else q
    inflight0 := if k.epoch then x.inflight0 else x.inflight0 - 1
    inflight1 := if k.epoch then x.inflight1 - 1 else x.inflight1
    vec := match k.ctx with
      | some v => { x.vec with own := { x.vec.own with flags := x.vec.own.flags ||| v.flags } }
      | none => x.vec }

/-- COMMAND_RETIRE (R31): the oldest command of the queue. -/
def execCommandRetire (core : Nat) (eng : Engine) (s : State) : Result :=
  .next (if canCommandRetire core eng s then
      match (s.core core).queue eng with
      | [] => s
      | k :: _ =>
        let s := s.updCore core fun x => x.retire eng k
        if eng = .mat then s.countLease core else s
    else s)

end Sys2Proof.Machine
end

