-- ==== Sys2Proof/Machine/Residency.lean ====
section
/-! DEFINITION. Tasks on cores: what a core keeps across a change of task (R48, R119, R195, R350), the settlement of its
array (R195, R353), a task that leaves its core (R316, R350) and one that comes back (R157, R197, R351). -/

namespace Sys2Proof.Machine

open Sys2Proof

/-- Freezes that belong to the die and not to the task (R362). -/
def Freeze.ofDie : Freeze → Bool
  | .throttle | .thermal => true
  | _ => false

/-- What stays on a core when its datapath registers are cleared (R350): lines and write-backs, TLBs, the epoch, rows
and their split, and throttling. -/
def Core.cleared (x : Core) : Core :=
  { Core.reset with
    copy := { Copy.reset with lines := x.copy.lines, wbs := x.copy.wbs, tlb := x.copy.tlb }
    portMon := x.portMon
    freezes := x.freezes.filter Freeze.ofDie
    tlb := x.tlb
    epoch := x.epoch
    rows := x.rows
    spreq := x.spreq
    resreq := x.resreq }

/-- A core no task is resident on (R310), which the walker of its die does not hold for a lookup. -/
def State.coreFree (s : State) (c : Nat) : Bool :=
  (s.core c).task.isNone
    && !((s.die (dieOf c)).lookup.any fun l => l.task.members.contains c)

/-- Cores of the quads that a function owns on a die, in rising order. -/
def State.ownedCores (s : State) (fn die : Nat) : List Nat :=
  (List.range 24).map (24 * die + ·) |>.filter fun c => (s.quad (quadOf c)).owner == some fn && !(s.quad (quadOf c)).fenced

def State.ownsOn (s : State) (fn die : Nat) : Nat :=
  ((List.range 6).filter fun q => (s.quad (6 * die + q)).owner == some fn).length

/-! ## Settlement of the array (R195, R353) -/

/-- R195 for one line under the new split: it stays, retained, or is dropped. -/
def PLine.survives (l : PLine) (fn : Nat) (root : Dbl) (p sets : Nat) : Bool :=
  l.fn == fn && l.root == root && decide (p ≤ l.slot) && l.block % sets == (l.slot - p) / 1024

/-- Lines that do not survive are written back and made invalid; the others are retained. -/
def State.settleLines (s : State) (c : Nat) (t : Task) (resreq : Bool) : State :=
  let root := s.rootOf t.fn t.wq
  let p := t.spreq * 8192
  let sets := (0x50000 - p) / 1024
  let gone := (s.core c).copy.lines.filter fun l => !l.survives t.fn root p sets
  let s := s.writeBackList c 0 (gone.filter fun l => l.dirty != 0)
  s.updCore c fun x =>
    { x with
      copy := { x.copy with lines := (x.copy.lines.filter fun l => l.survives t.fn root p sets).map fun (l : PLine) =>
        { l with state := .retained } }
      spreq := t.spreq
      resreq := resreq }

/-- A core's array belongs to a task: its rows are settled, then its lines. The task's first word waits for every
write-back (R195). -/
def State.settleCore (s : State) (c : Nat) (t : Task) : State :=
  let before := (s.core c).copy.wbs.map (·.1)
  let s := (s.settleRows (quadOf c) t (coreRows c)).settleLines c t t.resid
  let new := ((s.core c).copy.wbs.map (·.1)).filter fun i => !before.contains i
  s.updCore c fun x => { x with task := x.task.map fun t => { t with settling := new } }

/-- No line of the core is pending, so that its array can be settled (R195). -/
def State.settleable (s : State) (c : Nat) : Bool := !(s.core c).copy.lines.any fun l => l.state == .pending

/-! ## Dispatch state (R48, R119) -/

def Seq.dispatched (t : Task) : Seq :=
  let idx := (List.range 6).map fun d => dbl (t.idx.getD d 0)
  { Seq.reset (t.code.getD 0 (0, 0)).1 with named := List.replicate 8 0 ++ idx ++ [t.arg, dbl t.tseq] }

def Core.dispatched (x : Core) (t : Task) : Core := { x.cleared with task := some t, seq := Seq.dispatched t }

/-- The task is placed on each of its member cores. -/
def State.placeTask (s : State) (t : Task) : List Nat → State
  | [] => s
  | c :: cs => (((s.updCore c fun x => x.dispatched t).settleCore c t)).placeTask t cs

/-! ## Leaving a core (R316, R350) -/

/-- Requests whose sender is gone: those answered disappear, and nothing takes the answer of the others. -/
def Req.orphan (p : ReqSrc → Bool) (r : Req) : Req := if p r.src then { r with src := .gone r.src.die } else r

def State.orphan (s : State) (p : ReqSrc → Bool) : State :=
  { s with reqs := (s.reqs.filter fun (r : Req) => !(p r.src && r.phase == .answered)).map (Req.orphan p) }

def ReqSrc.landOf (c : Nat) : ReqSrc → Bool
  | .land k _ => k == c
  | _ => false

/-- Requests of loads whose data has not come are forgotten: the restore reads their addresses again (R157). -/
def State.forgetLoads (s : State) (c : Nat) : State := s.orphan (ReqSrc.landOf c)

/-- The task of a core becomes a task that is not resident; its rows are held and the core is free. -/
def State.vacate (s : State) (c : Nat) (addr : Option Nat) : State :=
  match (s.core c).task with
  | none => s
  | some t =>
    let s := (((s.forgetLoads c).unmonitor c).dropLease c)
    let v : Saved := ⟨c, addr, t, s.core c⟩
    let s := s.markRows (quadOf c) t.row .held
    -- the cells' partial sums leave with the words that are inside them (R270)
    let s := if (s.core c).mat.infl.any fun f => isMul f.instr then s.updQuad (quadOf c) fun x => { x with partials := [] } else s
    -- a fill that a stop held up leaves with the task (R197)
    (s.updFn t.fn fun f => { f with away := f.away ++ [v] }).updCore c fun x =>
      { x.cleared with copy := { x.cleared.copy with lines := x.cleared.copy.lines.filter fun l => l.state != .pending } }

/-! ## Coming back (R316, R351) -/

/-- Evicted rows of a task come back (R355): those of its core; slots and planes come back as they are claimed. -/
def State.returnRows (s : State) (c : Nat) (t : Task) : State :=
  (coreRows c).foldl (fun s r => s.returnRow (quadOf c) r t.row) s

/-- A load whose data had not come is read again (R157). Where its address no longer translates, the data is marked
poisoned. -/
def State.rereadLanding (s : State) (c : Nat) (t : Task) (l : Landing) : State :=
  match l.kind with
  | .load sz =>
    if l.arrived then s
    else
      let n := ldBytes sz
      let fail (s : State) : State := s.updSeq c fun q =>
        { q with landing := q.landing.map fun (k : Landing) => if k.id == l.id then { k with arrived := true, poison := true } else k }
      let send (s : State) (pa : Nat) : State :=
        s.sendRead { Req.blank (.land c l.id) .read pa n with key := s.keyAt c pa, fn := t.fn, wq := t.wq, va := l.addr.toNat }
      if isVirtual l.addr then
        match s.translate (.seq c) t.fn (s.rootOf t.fn t.wq) l.addr.toNat Need.read with
        | (s, .ok e) => send s (e.phys l.addr.toNat)
        | (s, .error _) => fail s
      else
        let off := windowOff l.addr
        send s (arrayAt (windowCore (dieOf c) off) (windowX off))
  | _ => s

/-- Commands come back without translations, in the core's present epoch (R80, R348). -/
def Cmd.renew (epoch : Bool) (k : Cmd) : Cmd := { k with xlat := [], epoch := epoch }

/-- The saved state on the core it goes to; a MONW that was stalled makes its comparison again (R287), fills go on
(R197), and the claims are taken back at the first tile boundary (R351). -/
def Core.revived (x : Core) (v : Saved) (t : Task) : Core :=
  let y := v.core
  let queues := y.queues.map fun l => l.map (Cmd.renew x.epoch)
  let n := (queues.map (·.length)).sum
  { y with
    task := some t
    seq := { y.seq with phase := if y.seq.stall = 10 then 0 else y.seq.phase }
    queues := queues
    copy :=
      let fills := y.copy.lines.filter fun l => l.state == .pending
      { y.copy with lines := fills ++ x.copy.lines.filter fun l => !fills.any fun k => k.slot == l.slot
                    wbs := x.copy.wbs, tlb := x.copy.tlb }
    mon := if y.seq.stall = 10 then none else y.mon
    mat := { y.mat with claimA := 0, claimB := 0, claimP := 0, reclaimA := y.mat.claimA ||| y.mat.reclaimA,
                        reclaimB := y.mat.claimB ||| y.mat.reclaimB, reclaimP := y.mat.claimP ||| y.mat.reclaimP, tstop := false }
    portMon := x.portMon
    freezes := x.freezes.filter Freeze.ofDie ++ (y.freezes.filter fun f => t.parked && !f.ofDie && f != .stop)
    tlb := x.tlb
    epoch := x.epoch
    inflight0 := if x.epoch then 0 else n
    inflight1 := if x.epoch then n else 0
    rows := x.rows
    spreq := x.spreq
    resreq := x.resreq
    res := { y.res with pend := 0, prio := 0 } }

/-- Tasks that waited for this one to be resident are eligible again (R315). -/
def State.wakeGivers (s : State) (t : Task) : State :=
  let l := (s.fn t.fn).donations
  if l.any fun (d : Donation) => d.takes t && d.late then
    s.setDonations t.fn (l.map fun (d : Donation) => if d.takes t then { d with late := false } else d)
  else s

/-- A saved task is resident again on a free core. -/
def State.revive (s : State) (c : Nat) (v : Saved) (t : Task) : State :=
  let s := s.updFn t.fn fun f => { f with away := f.away.filter fun w => w != v }
  let s := (s.updCore c fun x => { x with task := some t }).settleCore c t
  let s := s.returnRows c t
  let wbs := ((s.core c).task.map (·.settling)).getD []
  let s := s.updCore c fun x => x.revived v { t with settling := wbs, wd := 0 }
  let s := (v.core.seq.landing).foldl (fun s l => s.rereadLanding c t l) s
  ((s.rereadXfers c (s.core c).copy.xfers).refills c t).wakeGivers t

end Sys2Proof.Machine
end

