-- ==== Sys2Proof/Machine/Control.lean ====
section
/-! DEFINITION. The sequencer's control words: branches (R140, R141, R144), counted loops (R142, R143), traps and the
return from them (R152 to R155), NOP (R52), WAIT (R147), FENCE (R93, R148) and BAR (R149). -/

namespace Sys2Proof.Machine

open Sys2Proof

/-! ## Branches -/

/-- R144: the range of a level, START to END + 4 x EPL. -/
def LoopLevel.holds (l : LoopLevel) (a : Dbl) : Bool :=
  l.start.toNat ≤ a.toNat && a.toNat ≤ l.last.toNat + 4 * l.epl

/-- R144: a branch out of a level's range pops it, and the next level out likewise. -/
def Seq.branchOut (q : Seq) (target : Dbl) : List LoopLevel → Seq
  | [] => q
  | l :: rest =>
    if !l.holds target && l.cd == q.cd && l.th == q.th then ({ q with loops := rest } : Seq).branchOut target rest else q

/-- The current word transfers control to a checked target (R140) in 2 clk (R125). -/
def State.transfer (s : State) (marks : List Src) (res : Option (Dbl × Dest)) (target : Dbl) (f : Seq → Seq) : State :=
  if s.inCode s.cur.core target then
    (s.issueAt marks 2 res target).updSeq s.cur.core fun q => f { q with fell := false }
  else s.trap 0x02 target 0

def execB (off : Imm 22) (s : State) : Result :=
  .next (s.withOperands [] fun s =>
    let t := s.cur.addr + 4 * immDbl off
    s.transfer [] none t fun q => q.branchOut t q.loops)

def execBcc (a b : Src) (cc : Cond) (off : Imm 6) (s : State) : Result :=
  .next (s.withOperands [a, b] fun s =>
    let t := s.cur.addr + 4 * immDbl off
    if condHolds cc (s.opd a) (s.opd b) then s.transfer [a, b] none t fun q => q.branchOut t q.loops
    else s.issue [a, b] 1 none)

def execJmp (a : Src) (off : Imm 16) (s : State) : Result :=
  .next (s.withOperands [a] fun s =>
    let t := s.opd a + 4 * immDbl off
    s.transfer [a] none t fun q => q.branchOut t q.loops)

/-- R141: the address of the next instruction is the result; at CD = 255, Loop fault 6. -/
def execCall (d : Dest) (off : Imm 17) (s : State) : Result :=
  .next (s.withOperands [] fun s =>
    if (s.seq s.cur.core).cd = 255 then s.trap 0x05 s.cur.addr 6
    else s.transfer [] (some (s.nextPc, d)) (s.cur.addr + 4 * immDbl off) fun q => { q with cd := q.cd + 1 })

def execRet (a : Src) (s : State) : Result :=
  .next (s.withOperands [a] fun s => s.transfer [a] none (s.opd a) fun q => { q with cd := q.cd - 1 })

/-! ## Loops -/

/-- LOOP (R142). A LEND that cannot be fetched is one that is missing, unless its fetch faults. -/
def execLoop (n : Src) (stg : BitVec 3) (plen : BitVec 6) (blen : Imm 7) (s : State) : Result :=
  .next (s.withOperands [n] fun s =>
    let c := s.cur.core
    let count := (s.opd n).toNat
    let stages := stg.toNat + 1
    let start := s.nextPc
    let body := start + dbl (4 * plen.toNat)
    let last := body + dbl (4 * blen.nat)
    if 0xFFFFFFFF < count then s.trap 0x05 s.cur.addr 1
    else if !s.inCode c last then s.trap 0x05 s.cur.addr 3
    else
      match s.fetchWord c last with
      | (s, .error f) => s.trap f.cause last (dbl f.info)
      | (s, .ok w) =>
        let epl := (fld w 16 6).toNat
        if major w ≠ 0x2D#6 then s.trap 0x05 s.cur.addr 3
        else if count = 0 then
          (s.issueAt [n] 2 none (last + dbl (4 + 4 * epl))).updSeq c fun q => { q with fell := true }
        else if count < stages then s.trap 0x05 s.cur.addr 4
        else if (s.seq c).loops.length = 4 then s.trap 0x05 s.cur.addr 2
        else
          (s.issueAt [n] 1 none start).updSeq c fun q =>
            { q with loops := ⟨start, body, last, epl, stages, plen.toNat, 0, 0, count - stages + 1, q.cd, q.th, false,
                false, false⟩ :: q.loops })

/-- LEND (R143): the innermost level after one more iteration, and whether the body runs again. -/
def LoopLevel.iterate (l : LoopLevel) : LoopLevel × Bool :=
  let i := l.iter + 1
  let more := decide (i < l.limit)
  let leave := more && l.clamp && decide (l.stages ≤ l.limit - i)
  ({ l with iter := i, dexit := l.dexit || leave, epi := l.epi || !(more && !leave) }, more && !leave)

def execLend (epl : BitVec 6) (s : State) : Result :=
  .next (s.withOperands [] fun s =>
    let c := s.cur.core
    match (s.seq c).loops with
    | [] => s.trap 0x05 s.cur.addr 3
    | l :: rest =>
      if s.cur.addr ≠ l.last ∨ epl.toNat ≠ l.epl then s.trap 0x05 s.cur.addr 3
      else
        let (l', again) := l.iterate
        if again then
          (s.issueAt [] 1 none l.body).updSeq c fun q => { q with loops := l' :: rest, fell := false }
        else
          (s.issue [] 1 none).updSeq c fun q =>
            let q := { q with loops := l' :: rest }
            if l.epl = 0 then q.endEpilogue l' rest else q)

/-! ## Traps -/

/-- R51: Illegal Instruction, before the word issues. -/
def execIllegalInstruction (_w : Word) (s : State) : Result := .next (s.trap 0x01 s.cur.addr 0)

/-- R152, R155: TRAP issues and completes, and then enters the handler. -/
def execTrap (code : BitVec 16) (s : State) : Result :=
  .next (s.withOperands [] fun s => (s.issue [] 1 none).trap 0x06 s.cur.addr (code.setWidth 64))

/-- R155: SVC issues, parks the work queue and completes at resume. The destination of `SVC.val` stands in the
word. -/
def execSvc (_val : Option Dest) (code : BitVec 16) (s : State) : Result :=
  .next (s.withOperands [] fun s =>
    let id := s.nextId
    ((s.issueOpen []).updSeq s.cur.core fun q => { q with occWid := some id }).trap 0x10 s.cur.addr (code.setWidth 64))

/-- R154: return from a handler in 2 clk. With TH = 0 it is Illegal Instruction, and xpc is checked by R140. In which of the
two cycles the belt is copied and TH falls the manual does not say: both happen as the word issues, and what drops in the
second cycle drops into the copied belt (DESIGN CHOICE, unsafe, entry 64). -/
def execEret (s : State) : Result :=
  .next (s.withOperands [] fun s =>
    let c := s.cur.core
    let q := s.seq c
    if !q.th then s.trap 0x01 s.cur.addr 0
    else if !s.inCode c q.xpc then s.trap 0x02 q.xpc 0
    else (s.issueAt [] 2 none q.xpc).updSeq c Seq.eret)

/-- R52: no effect but the chain bits. -/
def execNop (s : State) : Result := .next (s.withOperands [] fun s => s.issue [] 1 none)

/-! ## Waiting -/

/-- R147. -/
def execWait (ldb stb : BitVec 4) (cpb mtb : BitVec 6) (s : State) : Result :=
  .next (s.withOperands [] fun s =>
    let q := s.seq s.cur.core
    if q.ld ≤ ldb.toNat ∧ q.st ≤ stb.toNat ∧ q.cp ≤ cpb.toNat ∧ q.mt ≤ mtb.toNat then s.issue [] 1 none
    else s.stallSeq 3)

end Sys2Proof.Machine
end

