-- ==== Sys2Proof/Machine/Sync.lean ====
section
/-! DEFINITION. Synchronisation words of the sequencer: FENCE (R93, R148) and BAR (R149), with the events that end
their waits. -/

namespace Sys2Proof.Machine

open Sys2Proof

/-- Is a write of the core applied at its home (`.quad` and `.die`), or performed with every replica acknowledgement
(`.pkg`, `.pod`) (R93)? A request that is performed has left `reqs`. -/
def State.performedAt (s : State) (sc : Scope) (id : Nat) : Bool :=
  match s.reqs.find? fun r => r.id == id with
  | none => true
  | some r =>
    match sc with
    | .core | .quad | .die => r.phase == .acks
    | .pkg | .pod => false

/-- R93: every store, atomic and probe write-back of a core is performed at a scope. -/
def State.accessesDone (s : State) (c : Nat) (sc : Scope) : Bool :=
  let x := s.core c
  (x.seq.stores.all fun p => p.reqs.all (s.performedAt sc))
    && (x.copy.wbs.all fun w => s.performedAt sc w.1)
    && (match x.seq.atomicReq with
      | none => true
      | some id => s.performedAt sc id)

/-- R93, R299: what a fence or barrier of a scope waits for: at `.quad` and wider also the addends accepted and the
residuals already delivered. -/
def State.performedAll (s : State) (c : Nat) (sc : Scope) : Bool :=
  s.accessesDone c sc && (sc == .core || ((s.core c).res.pend == 0 && (s.core c).res.prio == 0))

/-- R194: at `.quad` and wider every dirty probe line is written back before the wait. -/
def State.fenceLines (s : State) (c : Nat) (sc : Scope) : State := if sc = .core then s else s.writeBackAll c

/-- A fence sends a sweep to all sixteen dies (R93). -/
def sweeps (sc : Scope) (sq : Bool) : Bool := sq && (sc == .pkg || sc == .pod)

def execFence (scope : Scope) (sc : Bool) (s : State) : Result :=
  .next (s.withOperands [] fun s =>
    let c := s.cur.core
    let s := s.fenceLines c scope
    let q := s.seq c
    if q.phase = 0 then
      if !s.performedAll c scope then s.stallSeq 4
      else if sweeps scope sc then
        (s.updSeq c fun q => { q with phase := 1, sweep := List.range 16 }).stallSeq 4
      else s.issue [] 1 none
    else if q.sweep = [] then s.issue [] 1 none
    else s.stallSeq 4)

/-- The four engine queues of a core are empty. -/
def Core.queuesEmpty (x : Core) : Bool := x.queues.all (·.isEmpty)

/-- The barrier of a generation in progress (R149). -/
def barrierKey (sc : Scope) (inst id : Nat) (b : Barrier) : Bool := b.scope == sc && b.inst == inst && b.id == id

/-- Every core of the generation has arrived. -/
def Barrier.full (b : Barrier) : Bool := b.n ≤ b.cores.length

/-- The generation that takes the next arrival. -/
def Func.openBarrier (f : Func) (sc : Scope) (inst id : Nat) : Option Barrier :=
  f.barriers.find? fun b => barrierKey sc inst id b && !b.full

/-- What a sequencer that has arrived notes of its barrier: scope, instance, id, generation. -/
def Barrier.mark (b : Barrier) : List Nat := [b.scope.code.toNat, b.inst, b.id, b.gen]

/-- R149: the core arrives; the first arrival of a generation fixes n. -/
def State.arrive (s : State) (fn : Nat) (sc : Scope) (inst id n c : Nat) : State :=
  match (s.fn fn).openBarrier sc inst id with
  | some b =>
    s.updFn fn fun f => { f with barriers := f.barriers.map fun k => if k == b then { k with cores := k.cores ++ [c] } else k }
  | none => s.useId.updFn fn fun f => { f with barriers := f.barriers ++ [⟨sc, inst, id, n, [c], s.nextId⟩] }

/-- An arrival at a barrier of scope `.pod` is carried over the fabric (R20). -/
def State.tellPod (s : State) (fn : Nat) (sc : Scope) (id n c : Nat) : State :=
  if sc = .pod then { s with out := s.out ++ [.barrierArrival fn id n c] } else s

/-- BAR (R149). Phase 2: arrived; phase 3: released. -/
def execBar (scope : Scope) (id : BitVec 4) (n : Src) (s : State) : Result :=
  .next (s.withOperands (if scope = .core then [] else [n]) fun s =>
    let c := s.cur.core
    let q := s.seq c
    if q.phase = 2 then s.stallSeq 6
    else if q.phase = 3 then s.issue [n] 1 none
    else
      let s := s.fenceLines c scope
      if !(s.core c).queuesEmpty || !s.performedAll c scope then s.stallSeq 5
      else if scope = .core then s.issue [] 1 none
      else
        let v := (s.opd n).toNat
        let fn := ((s.core c).task.map (·.fn)).getD 0
        let inst := scopeInst scope c
        let clash := ((s.fn fn).openBarrier scope inst id.toNat).any fun b => b.n != v
        if v = 0 ∨ scopeCores scope < v ∨ clash then s.trap 0x07 s.cur.addr (dbl (v % 2 ^ 32))
        else if v = 1 then s.issue [n] 1 none
        else
          let gen := (((s.fn fn).openBarrier scope inst id.toNat).map (·.gen)).getD s.nextId
          let s := (s.arrive fn scope inst id.toNat v c).tellPod fn scope id.toNat v c
          (s.updSeq c fun q =>
            { q with phase := 2, arrived := true, sweep := [scope.code.toNat, inst, id.toNat, gen] }).stallSeq 6)

/-- An arrival from another package, the oldest message of the inbox (R20, R149): function, n and sender. -/
def State.podArrival (s : State) (fn : Nat) (sc : Scope) (id : Nat) : Option (Nat × Nat) :=
  match sc, s.inbox with
  | .pod, .barrierArrival f i n who :: _ => if f = fn ∧ i = id then some (n, who) else none
  | _, _ => none

/-- Generations of a barrier at which all have arrived. -/
def Func.fullBarriers (f : Func) (sc : Scope) (inst id : Nat) : List Barrier :=
  f.barriers.filter fun b => barrierKey sc inst id b && b.full

/-- BARRIER_RELEASE (R149): n cores have arrived; all are released in one cycle. At scope `.pod` the event also takes an
arrival that the fabric carries. -/
def canBarrierRelease (fn : Nat) (sc : Scope) (inst id : Nat) (s : State) : Bool :=
  (s.podArrival fn sc id).isSome || (s.fn fn).fullBarriers sc inst id != []

def Seq.releaseBar (mark : List Nat) (q : Seq) : Seq :=
  if q.arrived && q.sweep == mark then { q with phase := 3 } else q

def State.releaseCores (mark : List Nat) (s : State) : List Nat → State
  | [] => s
  | c :: cs => State.releaseCores mark (s.updSeq c (Seq.releaseBar mark)) cs

/-- The sequencers of a generation, of resident tasks and of others, are released. -/
def State.releaseGen (s : State) (fn : Nat) (b : Barrier) : State :=
  (State.releaseCores b.mark s b.cores).updFn fn fun f =>
    { f with
      barriers := f.barriers.filter (· != b)
      away := f.away.map fun a => { a with core := { a.core with seq := a.core.seq.releaseBar b.mark } } }

def execBarrierRelease (fn : Nat) (scope : Scope) (inst id : Nat) (s : State) : Result :=
  .next (
    let s :=
      match s.podArrival fn scope id, (s.fn fn).fullBarriers scope inst id with
      | some (n, who), [] =>
        let s := { s with inbox := s.inbox.tail }
        if ((s.fn fn).openBarrier scope inst id).all fun (b : Barrier) => b.n == n then s.arrive fn scope inst id n (385 + who) else s
      | _, _ => s
    ((s.fn fn).fullBarriers scope inst id).foldl (fun s b => s.releaseGen fn b) s)

/-- FENCE_SWEEP_ANSWER (R93): a die answers behind every replica invalidation it sent to the fencing die before. -/
def canFenceSweepAnswer (core die : Nat) (s : State) : Bool :=
  (s.seq core).phase == 1 && (s.seq core).sweep.contains die
    && !s.invs.any fun m => m.src == die && m.dst == (if core = derailleur then 0 else dieOf core)

def execFenceSweepAnswer (core die : Nat) (s : State) : Result :=
  .next (if canFenceSweepAnswer core die s then
      s.updSeq core fun q => { q with sweep := q.sweep.filter (· != die) }
    else s)

end Sys2Proof.Machine
end

