-- ==== Sys2Proof/Machine/Records.lean ====
section
/-! DEFINITION. Launch records (R43, R44, R301 to R306) and the words RECORD, RECORD.hand and RWAIT (R318 to R320). -/

namespace Sys2Proof.Machine

open Sys2Proof

/-! ## Accesses of a walker (R302) -/

/-- Physical pieces of a range of virtual addresses: where each starts and its length. -/
def State.walkerPieces (s : State) (d fn : Nat) (root : Dbl) (n : Need) (len : Nat) :
    Nat → Nat → State × Option (List (Nat × Nat))
  | 0, _ => (s, if len = 0 then some [] else none)
  | fuel + 1, va =>
    if len = 0 then (s, some [])
    else if bits va 57 7 ≠ 0 then (s, none)
    else
      match s.translate (.walker d) fn root va n with
      | (s, .error _) => (s, none)
      | (s, .ok e) =>
        let k := Nat.min len (e.va + e.size - va)
        match s.walkerPieces d fn root n (len - k) fuel (va + k) with
        | (s, some l) => (s, some ((e.phys va, k) :: l))
        | (s, none) => (s, none)

/-- Is any line of a range poisoned? -/
def State.poisonedRange (s : State) (pa n : Nat) : Bool :=
  (List.range ((pa % 128 + n + 127) / 128)).any fun i => s.poison.contains (pa / 128 + i)

/-- Bytes that a walker reads; none where an address, a translation or a permission fails, or a line is poisoned. -/
def State.walkerRead (s : State) (d fn : Nat) (root : Dbl) (n : Need) (va len : Nat) : State × Option (List Byte) :=
  match s.walkerPieces d fn root n len (len / 65536 + 2) va with
  | (s, none) => (s, none)
  | (s, some l) =>
    if l.any fun (p : Nat × Nat) => s.poisonedRange p.1 p.2 then (s, none)
    else (s, some (l.flatMap fun (p : Nat × Nat) => s.readPhys (s.fn fn).key p.1 p.2))

def State.writePieces (s : State) (key : Nat) : List (Nat × Nat) → List Byte → State
  | [], _ => s
  | (pa, n) :: l, bs => (s.writeQuiet key pa (bs.take n)).writePieces key l (bs.drop n)

/-- A walker's write through a function's translation; a fault is not reported. -/
def State.walkerWrite (s : State) (d fn : Nat) (root : Dbl) (va : Nat) (bs : List Byte) : State :=
  match s.walkerPieces d fn root Need.write bs.length (bs.length / 65536 + 2) va with
  | (s, none) => s
  | (s, some l) => s.writePieces (s.fn fn).key l bs

/-! ## The launch record (R43) -/

/-- Steps of a footprint table entry: a 64-byte string. -/
def parseFp (bs : List Byte) : FpEntry where
  region := (parseRegion (bs.take 32)).getD ⟨0, 0, 0, 0, 0, 0, .rd, false, 0⟩
  steps := (List.range 6).map fun d => wordAt bs (0x20 + 4 * d)
  raw := bs

/-- DEP references: sequence number and work queue. -/
def parseDeps (bs : List Byte) (n : Nat) : List (Nat × Nat) :=
  (List.range n).map fun i =>
    let v := numAt bs (0x70 + 8 * i) 8
    (bits v 0 48, bits v 48 3)

/-- The fields of a record of 256 bytes and its footprint table. -/
def parseRecord (seq : Nat) (bs fps : List Byte) : Record where
  seq := seq
  state := .waiting
  status := 0
  isPure := bits (numAt bs 1 1) 0 1 == 1
  strict := bits (numAt bs 1 1) 1 1 == 1
  reloc := bits (numAt bs 1 1) 2 1 == 1
  gang := numAt bs 2 1
  prio := numAt bs 3 1 % 16
  spreq := numAt bs 4 1
  resid := numAt bs 5 1 % 2 == 1
  ndim := numAt bs 6 1
  order := (List.range (numAt bs 6 1)).map fun l => bits (numAt bs 8 8) (3 * l) 3
  bounds := (List.range (numAt bs 6 1)).map fun d => wordAt bs (0x10 + 4 * d)
  arg := dbl (numAt bs 0x28 8)
  code := (List.range 5).map fun i => (dbl (numAt bs (0x38 + 8 * i) 8), numAt bs (0x60 + 2 * i) 2)
  deps := parseDeps bs (numAt bs 0x6A 1)
  cpl := dbl (numAt bs 0x90 8)
  fps := (chunks 64 (numAt bs 7 1) fps).map parseFp
  cursor := List.replicate (numAt bs 6 1) 0
  nextTask := 0
  drained := false
  open_ := []
  ended := false
  digest := none
  depFailed := false

/-- R43, R302: a reserved field of the record or of its footprint table is not zero. -/
def recordReserved (bs fps : List Byte) : Bool :=
  numAt bs 1 1 / 8 != 0 || numAt bs 3 1 / 16 != 0 || numAt bs 5 1 / 2 != 0 || numAt bs 8 8 / 2 ^ 18 != 0
    || numAt bs 0x6B 5 != 0 || (List.range 4).any (fun i => numAt bs (0x70 + 8 * i) 8 / 2 ^ 51 != 0)
    || (bs.drop 0x98).any (· != 0)
    || (chunks 64 (Nat.min 8 (numAt bs 7 1)) fps).any fun e => regionReserved e || numAt e 0x38 8 != 0

/-- Status of a record (R305); the queue must be attached. The 1,024 most recently numbered records have one, complete or
not (R304). -/
def WorkQueue.status (w : WorkQueue) (seq : Nat) : Nat :=
  if w.att.isNone || w.next ≤ seq then 0xFE
  else if seq + 1024 < w.next then 0x80
  else
    match w.records.find? fun r => r.seq == seq with
    | none => 0x80
    | some r => r.status

/-- A record has completed with a status other than 0x01 (R305). -/
def WorkQueue.failed (w : WorkQueue) (seq : Nat) : Bool :=
  let st := w.status seq
  st != 0 && st != 0x01 && st != 0x80 && st != 0xFE

/-- Records accepted and not complete (R301). -/
def WorkQueue.openCount (w : WorkQueue) : Nat := (w.records.filter fun r => r.state != .complete).length

/-- Reasons 0x01 to 0x0A, the lowest that applies (R302). -/
def State.recordReason (s : State) (d fn : Nat) (va : Dbl) (bs fps : List Byte) : Option Nat :=
  let r := parseRecord 0 bs fps
  let orderOk := r.ndim ≤ 6 && (List.range r.ndim).all (fun k => r.order.contains k)
    && (List.range 6).all fun k => k < r.ndim || bits (numAt bs 8 8) (3 * k) 3 == 0
  let checks : List (Nat × Bool) := [
    (0x01, numAt bs 0 1 != 1),
    (0x02, recordReserved bs fps),
    (0x03, 6 < r.ndim || 8 < numAt bs 7 1 || 4 < numAt bs 0x6A 1),
    (0x04, !([0, 1, 2, 4].contains r.gang) || !orderOk),
    (0x05, numAt bs 0x30 8 % 64 != 0 || r.code.any (fun (p : Dbl × Nat) => p.1.toNat % 64 != 0) || va.toNat % 256 != 0),
    (0x06, (r.code.getD 0 (0, 0)).2 == 0),
    (0x07, r.strict && !r.isPure),
    (0x08, r.resid && r.spreq == 0),
    (0x09, r.deps.any fun (p : Nat × Nat) => (s.wq fn p.2).status p.1 == 0xFE),
    (0x0A, s.ownsOn fn d < r.gang)]
  (checks.find? (·.2)).map (·.1)

/-- The 256 bytes of a RECORD as its task finds them when the walker accepts it: stores of the core in flight stand in front
of memory (R138, R302). -/
def State.recordBytes (s : State) (b : Submission) (p : Nat × Nat) : Option (List Byte) :=
  let fwd := (b.from_.map fun q => (s.seq q.1).forward p.1 256).getD []
  if s.poisonedRange p.1 256 then none else some (mergeForward (s.readPhys p.2 p.1 256) fwd)

/-- The 256 bytes of a submission and its footprint table, as the walker copies them. Poisoned bytes of a record cannot be
read: the manual names no other reason for them (entry 47). -/
def State.submissionBytes (s : State) (d : Nat) (b : Submission) : State × Option (List Byte × List Byte) :=
  let root := s.rootOf b.fn b.wq
  let r := match b.place with
    | some p => (s, s.recordBytes b p)
    | none => if isVirtual b.va && formOk b.va then s.walkerRead d b.fn root Need.read b.va.toNat 256 else (s, none)
  match r with
  | (s, none) => (s, none)
  | (s, some l) =>
    let fp := dbl (numAt l 0x30 8)
    let n := 64 * Nat.min 8 (numAt l 7 1)
    if n ≠ 0 ∧ (!isVirtual fp || !formOk fp) then (s, none)
    else
      match s.walkerRead d b.fn root Need.read fp.toNat n with
      | (s, none) => (s, none)
      | (s, some f) => (s, some (l, f))

/-- R301, R302: the reason of a rejection, or the record as it is accepted. -/
def State.decideSubmission (s : State) (d : Nat) (b : Submission) : State × Except Nat Record :=
  let w := s.wq b.fn b.wq
  if w.att.isNone then (s, .error 0x0D)
  else if 64 ≤ w.openCount then (s, .error 0x0C)
  else
    match s.submissionBytes d b with
    | (s, none) => (s, .error 0x0B)
    | (s, some (bs, fps)) =>
      match s.recordReason d b.fn b.va bs fps with
      | some r => (s, .error r)
      | none =>
        let r := parseRecord w.next bs fps
        (s, .ok { r with depFailed := r.deps.any fun p => (s.wq b.fn p.2).failed p.1 })

/-- The result of a submission (R318). -/
def submissionResult (wq : Nat) : Except Nat Record → Dbl
  | .ok r => dbl (r.seq % 2 ^ 48 + wq * 2 ^ 48)
  | .error e => dbl (e + wq * 2 ^ 48 + 2 ^ 63)

/-- The record joins its queue; records older than the 1,024 latest numbers expire once they are complete (R304). -/
def WorkQueue.accept (w : WorkQueue) (r : Record) : WorkQueue :=
  { w with
    next := w.next + 1
    records := (w.records.filter fun o => o.state != .complete || decide (w.next + 1 ≤ o.seq + 1024)) ++ [r] }

/-! ## RECORD.hand (R319) -/

/-- Regions after the hand-over: space-0 wr regions are gone, and rw regions read. -/
def handOver (l : List Region) : List Region :=
  (l.filter fun r => !(r.space == 0 && r.kind == .wr)).map fun r => if r.space == 0 && r.kind == .rw then { r with kind := .rd } else r

/-- Regions that the hand-over takes or demotes. -/
def handedOf (l : List Region) : List Region := l.filter fun r => r.space == 0 && (r.kind == .wr || r.kind == .rw)

/-- The regions of a task and of its registration become others. -/
def State.setRegions (s : State) (t : Task) (regs handed : List Region) : State :=
  let s := s.mapTasks t.fn fun (w : Task) =>
    if w.wq = t.wq ∧ w.rseq = t.rseq ∧ w.tseq = t.tseq then { w with regions := regs, handed := handed } else w
  s.updFn t.fn fun f =>
    { f with registry := f.registry.map fun (g : Registered) =>
        if g.wq = t.wq ∧ g.rseq = t.rseq ∧ g.tseq = t.tseq then { g with regions := regs } else g }

def Submission.fromCore (b : Submission) (c : Nat) : Bool := b.from_.any fun q => q.1 == c

/-- A change of every submission of a core that waits at a walker. -/
def State.mapSubs (s : State) (c : Nat) (f : Submission → Submission) : State :=
  { s with dies := s.dies.map fun (p : Nat × Die) =>
      (p.1, { p.2 with subs := p.2.subs.map fun (o : Submission) => if o.fromCore c then f o else o }) }

/-- A rejected RECORD.hand changes nothing: the submitter's regions come back, unless another hand-over of it stands. -/
def State.undoHand (s : State) (b : Submission) : State :=
  match b.from_ with
  | none => s
  | some (c, _) =>
    match (s.core c).task with
    | none => s
    | some t =>
      if b.undo = [] then s
      else if s.dies.any fun (p : Nat × Die) => p.2.subs.any fun (o : Submission) => o.hand && o.fromCore c then
        s.mapSubs c fun o => if o.hand then { o with undo := b.undo } else o
      else s.setRegions t b.undo (t.handed.filter fun r => !b.undo.contains r)

/-- An accepted RECORD.hand makes the change final. -/
def State.keepHand (s : State) (b : Submission) : State :=
  match b.from_ with
  | none => s
  | some (c, _) => if b.hand then s.mapSubs c fun o => { o with undo := [] } else s

/-! ## SUBMISSION_DECIDED -/

/-- The answer of a RECORD lands (R318). -/
def State.landAnswer (s : State) (c id : Nat) (v : Dbl) : State :=
  (s.updSeq c fun q => { q with landing := q.landing.map fun (l : Landing) =>
    if l.id = id then { l with data := v.setWidth 128, arrived := true } else l }).thaw c .lateLanding

def canSubmissionDecided (die : Nat) (s : State) : Bool := (s.die die).subs != []

def execSubmissionDecided (die : Nat) (s : State) : Result :=
  .next (match (s.die die).subs with
    | [] => s
    | b :: rest =>
      let s := s.updDie die fun d => { d with subs := rest }
      let (s, r) := s.decideSubmission die b
      let v := submissionResult b.wq r
      let s := match r with
        | .ok r => (s.updWq b.fn b.wq fun w => w.accept r).keepHand b
        | .error _ => s.undoHand b
      match b.from_ with
      | some (c, id) => s.landAnswer c id v
      | none => s.updWq b.fn b.wq fun w => { w with wqres := v })

/-! ## Completion of records (R305, R306) -/

def State.updRecord (s : State) (fn wq seq : Nat) (f : Record → Record) : State :=
  s.updWq fn wq fun w => { w with records := w.records.map fun (r : Record) => if r.seq = seq then f r else r }

/-- The completion double (R306). -/
def completionDbl (wq seq status : Nat) : Dbl := dbl (seq % 2 ^ 48 + wq * 2 ^ 48 + status * 2 ^ 56)

/-- Records that name a failed record in DEP do not start (R305), whatever becomes of its queue. -/
def State.failDependants (s : State) (fn wq seq : Nat) : State :=
  let mark (r : Record) : Record :=
    if r.state == .waiting && r.deps.contains (seq, wq) then { r with depFailed := true } else r
  s.updFn fn fun f =>
    { f with queues := f.queues.map fun (p : Nat × WorkQueue) => (p.1, { p.2 with records := p.2.records.map mark }) }

def State.completeRecord (s : State) (fn wq seq status : Nat) : State :=
  match (s.wq fn wq).records.find? fun r => r.seq == seq with
  | none => s
  | some r =>
    let s := s.updRecord fn wq seq fun r => { r with state := .complete, status := status }
    let s := if status = 0x01 then s else s.failDependants fn wq seq
    if r.cpl = 0 ∨ !isVirtual r.cpl ∨ !formOk r.cpl then s
    else s.walkerWrite (((s.wq fn wq).att).getD 0) fn (s.rootOf fn wq) r.cpl.toNat (leBytes 8 (completionDbl wq seq status).toNat)

/-- A record whose tasks are all dispatched drains, and completes when none is open (R304, R305). While its queue is parked
it stays in its state. -/
def State.checkRecord (s : State) (fn wq seq : Nat) : State :=
  match (s.wq fn wq).records.find? fun r => r.seq == seq with
  | none => s
  | some r =>
    if r.state = .complete ∨ r.state = .waiting ∨ !r.drained ∨ (s.wq fn wq).park then s
    else if r.open_ = [] then s.completeRecord fn wq seq (if r.ended then 0x04 else 0x01)
    else s.updRecord fn wq seq fun r => { r with state := .draining }

/-- A queue is parked no longer: records whose last tasks ended meanwhile go on. -/
def State.checkRecords (s : State) (fn wq : Nat) : State :=
  (s.wq fn wq).records.foldl (fun s r => s.checkRecord fn wq r.seq) s

/-! ## RECORD_START (R304) -/

/-- The oldest waiting record of a queue, when every earlier one has dispatched all its tasks and every record that it
depends on is complete. -/
def WorkQueue.startable (f : Func) (w : WorkQueue) : Option Record :=
  match w.records.find? fun r => r.state == .waiting with
  | none => none
  | some r =>
    if w.records.any (fun o => decide (o.seq < r.seq) && o.state == .dispatching) then none
    else if r.deps.any fun (p : Nat × Nat) => (f.queue p.2).status p.1 == 0 then none
    else some r

def canRecordStart (fn wq : Nat) (s : State) : Bool :=
  !(s.wq fn wq).park && (s.wq fn wq).att.isSome && ((s.wq fn wq).startable (s.fn fn)).isSome

def execRecordStart (fn wq : Nat) (s : State) : Result :=
  .next (if canRecordStart fn wq s then
      match (s.wq fn wq).startable (s.fn fn) with
      | none => s
      | some r =>
        if r.depFailed || r.deps.any fun (p : Nat × Nat) => (s.wq fn p.2).failed p.1 then s.completeRecord fn wq r.seq 0x03
        else
          (s.updRecord fn wq r.seq fun r =>
            { r with state := .dispatching, drained := r.bounds.any (· == 0) }).checkRecord fn wq r.seq
    else s)

/-! ## RECORD, RECORD.hand, RWAIT (R318 to R320) -/

/-- Writes of the task's commands that a hand-over waits for. -/
def Core.writersIn (x : Core) : Bool :=
  x.queues.any fun q => q.any fun k => k.regions.any fun r => r.space == 0 && (r.kind == .wr || r.kind == .rw)

/-- The members of the task of a core. -/
def State.taskMembers (s : State) (c : Nat) : List Nat := ((s.core c).task.map (·.members)).getD [c]

/-- The submission reaches the walker to which the queue is attached; without one, that of the core's die answers. -/
def State.submit (s : State) (b : Submission) (c : Nat) : State :=
  s.updDie ((s.wq b.fn b.wq).att.getD (dieOf c)) fun d => { d with subs := d.subs ++ [b] }

def State.record (s : State) (a : Src) (d : Dest) (wq slot : Nat) (hand : Bool) : State :=
  s.withOperands [a] fun s =>
    s.impure 4 0 fun s =>
      let c := s.cur.core
      let v := s.opd a
      if !isVirtual v then s.trap 0x15 v 0
      else
        match s.scalar v 256 Need.read [.rd, .rw] with
        | (s, .error (cause, a, info)) => s.trap cause a (dbl info)
        | (s, .ok pa) =>
          -- R319 speaks of the task: of every core of a gang
          let ms := if hand then c :: (s.taskMembers c).filter (· != c) else []
          let s := ms.foldl (fun s m => s.fenceLines m .pkg) s
          if ms.any fun m => (s.core m).writersIn || !s.performedAll m .pkg then s.stallSeq 3
          else if 16 ≤ (s.seq c).landing.length then s.stallSeq 8
          else
            match (s.core c).task with
            | none => s
            | some t =>
              let change := hand && handedOf t.regions != []
              let b : Submission :=
                ⟨t.fn, wq, v, some (c, s.nextId), hand, if change then t.regions else [],
                  some (pa, s.keyAt c pa)⟩
              let s := s.land [a] .record v d slot none []
              let s := if change then s.setRegions t (handOver t.regions) (t.handed ++ handedOf t.regions) else s
              s.submit b c

def execRecord (a : Src) (d : Dest) (wq : BitVec 3) (slot : BitVec 8) (s : State) : Result :=
  .next (s.record a d wq.toNat slot.toNat false)

def execRecordHand (a : Src) (d : Dest) (wq : BitVec 3) (slot : BitVec 8) (s : State) : Result :=
  .next (s.record a d wq.toNat slot.toNat true)

def execRwait (a : Src) (d : Dest) (s : State) : Result :=
  .next (s.withOperands [a] fun s =>
    s.impure 4 0 fun s =>
      let v := (s.opd a).toNat
      let seq := bits v 0 48
      let q := bits v 48 3
      let st := (s.wq s.curFn q).status seq
      if st = 0 then s.stallSeq 3 else s.issue [a] 1 (some (completionDbl q seq st, d)))

end Sys2Proof.Machine
end

