-- ==== Sys2Proof/Machine/Freewheel.lean ====
section
/-! DEFINITION. Freewheel (R321 to R333): keys, the watch tables, lookups and entries, and the words FWINV and FWQRY. -/

namespace Sys2Proof.Machine

open Sys2Proof

/-! ## Keys (R324) -/

def rotl64 (x : Dbl) (n : Nat) : Dbl := (x <<< n) ||| (x >>> (64 - n))

/-- fw64. -/
def fw64 (seed : Dbl) (ws : List Dbl) : Dbl :=
  let h := ws.foldl (fun h w => rotl64 (h ^^^ w) 23 * 0x2545F4914F6CDD1D) seed
  h ^^^ (h >>> 29)

/-- Words of a code area two to a double. -/
def pairWords : List Word → List Dbl
  | [] => []
  | [a] => [a.setWidth 64]
  | a :: b :: r => (a.setWidth 64 ||| (b.setWidth 64 <<< 32)) :: pairWords r

/-- One code area's contribution to the digest; none where it cannot be read. -/
def State.areaWords (s : State) (d fn : Nat) (root : Dbl) (area : Dbl × Nat) : State × Option (List Dbl) :=
  if area.2 ≠ 0 ∧ (!isVirtual area.1 || !formOk area.1) then (s, none)
  else
    match s.walkerRead d fn root Need.fetch area.1.toNat (4 * area.2) with
    | (s, none) => (s, none)
    | (s, some bs) => (s, some (dbl area.2 :: pairWords ((List.range area.2).map fun i => wordAt bs (4 * i))))

def State.digestWords (s : State) (d fn : Nat) (root : Dbl) : List (Dbl × Nat) → State × Option (List Dbl)
  | [] => (s, some [])
  | a :: l =>
    match s.areaWords d fn root a with
    | (s, none) => (s, none)
    | (s, some ws) =>
      match s.digestWords d fn root l with
      | (s, none) => (s, none)
      | (s, some r) => (s, some (ws ++ r))

/-- Virtual granules of 64 KiB that a region touches. -/
def Region.granules (r : Region) : List Nat :=
  ((r.rows 0).flatMap fun (p : Nat × Nat) =>
    (List.range ((p.1 + p.2 - 1) / 65536 + 1 - p.1 / 65536)).map fun i => p.1 / 65536 + i).eraseDups

/-- Words of one stepped region (R324). -/
def regionKey (r : Region) (attr : Nat) : List Dbl :=
  let pair (a b : Nat) : Dbl := dbl (a + b * 2 ^ 32)
  if r.kind = .rd then
    [r.base, pair r.ext0.toNat r.ext1.toNat, pair r.stride1.toNat r.ext2.toNat, dbl (r.stride2.toNat + 2 ^ 32 + attr * 2 ^ 40)]
  else [pair r.ext0.toNat r.ext1.toNat, dbl (r.ext2.toNat + 2 * 2 ^ 32)]

/-! ## The test of R323 -/

/-- What the walker finds when it translates a task's regions. -/
structure FwView where
  rd : List Nat
  wr : List Nat
  /-- Attributes of each region's first page. -/
  attrs : List Nat
  /-- Intermediate granules of every region. -/
  ipas : List Nat
  writable : Bool
  isLocal : Bool
  deriving DecidableEq, Repr

/-- Translations of granules, with no permission checked and no DIRTY set. -/
def State.granuleMaps (s : State) (d fn : Nat) (root : Dbl) : List Nat → State × Option (List (Nat × TlbEntry))
  | [] => (s, some [])
  | g :: gs =>
    match s.translate (.walker d) fn root (g * 65536) ⟨0, 0⟩ with
    | (s, .error _) => (s, none)
    | (s, .ok e) =>
      match s.granuleMaps d fn root gs with
      | (s, none) => (s, none)
      | (s, some l) => (s, some ((e.phys (g * 65536) / 65536, e) :: l))

def State.fwView (s : State) (d fn : Nat) (root : Dbl) : List Region → State × Option FwView
  | [] => (s, some ⟨[], [], [], [], true, true⟩)
  | r :: rs =>
    match s.granuleMaps d fn root r.granules with
    | (s, none) => (s, none)
    | (s, some l) =>
      match s.fwView d fn root rs with
      | (s, none) => (s, none)
      | (s, some v) =>
        let ph := l.map (·.1)
        let attr := (l.head?.map fun (p : Nat × TlbEntry) => p.2.attr.toNat).getD 0
        let w := r.kind.writes
        (s, some
          { rd := if w then v.rd else ph ++ v.rd
            wr := if w then ph ++ v.wr else v.wr
            attrs := attr :: v.attrs
            ipas := (r.granules.zip l).map (fun (p : Nat × Nat × TlbEntry) => (p.2.2.ipa + (p.1 * 65536 - p.2.2.va)) / 65536) ++ v.ipas
            writable := v.writable && (!w || l.all fun (p : Nat × TlbEntry) => (checkNeed p.2 Need.write).isNone)
            isLocal := v.isLocal && ph.all fun g => isLocalHbm (g * 65536) })

/-- R323, but for the translations. -/
def purityShape (rs : List Region) : Bool :=
  rs.all (fun r => r.kind == .rd || r.kind == .wr)
    && !rs.any (fun a => a.kind == .wr && rs.any fun b => b.kind == .rd && a.overlaps b 0)
    && decide ((rs.flatMap Region.granules).eraseDups.length ≤ 64)

/-! ## The watch tables (R327, R328) -/

/-- A die's walker registers a granule; in a full table the least recently registered entry is fired. -/
def State.registerWatch (s : State) (d g : Nat) (write : Bool) : State :=
  let h := homeDie (g * 65536)
  let one : BitVec 16 := BitVec.twoPow 16 d
  let stamp := s.nextId
  let s := s.useId
  let set (w : Watch) : Watch :=
    if write then { w with wr := w.wr ||| one, last := stamp } else { w with rd := w.rd ||| one, last := stamp }
  if (s.die h).watch.any fun w => w.granule == g then
    s.updDie h fun x => { x with watch := x.watch.map fun (w : Watch) => if w.granule = g then set w else w }
  else
    let s :=
      if (s.die h).watch.length < 8192 then s
      else
        match ((s.die h).watch.map (·.last)) with
        | [] => s
        | t :: ts =>
          let m := ts.foldl Nat.min t
          match (s.die h).watch.find? fun w => w.last == m with
          | none => s
          | some w => (s.fireWatch (w.granule * 65536)).1
    s.updDie h fun x => { x with watch := x.watch ++ [set ⟨g, 0, 0, 0⟩] }

def State.registerWatches (s : State) (d : Nat) (write : Bool) : List Nat → State
  | [] => s
  | g :: gs => (s.registerWatch d g write).registerWatches d write gs

def canWatchMessage (msg : Nat) (s : State) : Bool := s.watchMsgs.any fun m => m.id == msg && !m.applied

def execWatchMessage (msg : Nat) (s : State) : Result :=
  .next (if canWatchMessage msg s then
      match s.watchMsgs.find? fun m => m.id == msg && !m.applied with
      | none => s
      | some m =>
        let s := s.applyWatch m
        { s with watchMsgs := s.watchMsgs.map fun (k : WatchMsg) => if k.id = msg then { k with applied := true } else k }
    else s)

/-- Every walker that the fired entry names has acknowledged. -/
def canWatchAcknowledgement (watch : Nat) (s : State) : Bool :=
  (s.watchMsgs.any fun m => m.watch == watch) && (s.watchMsgs.all fun m => m.watch != watch || m.applied)

/-- WATCH_ACKNOWLEDGEMENT (R327): the writes that fired the entry are performed once no replica acknowledgement is
outstanding. -/
def State.watchDone (s : State) (watch : Nat) : List Req → State
  | [] => s
  | r :: rs =>
    let r' := { r with watches := r.watches.filter (· != watch) }
    let s := s.updReq r.id fun _ => r'
    (if r'.phase == .acks && r'.acks == [] && r'.watches == [] then s.finish r' else s).watchDone watch rs

def execWatchAcknowledgement (watch : Nat) (s : State) : Result :=
  .next (if canWatchAcknowledgement watch s then
      let s := { s with watchMsgs := s.watchMsgs.filter fun m => m.watch != watch }
      s.watchDone watch (s.reqs.filter fun r => r.watches.contains watch)
    else s)

/-! ## Entries (R325, R329) -/

/-- Bytes of a task's wr regions, row by row in region order. -/
def wrRows (rs : List Region) : List (Nat × Nat) := (rs.filter fun r => r.kind.writes).flatMap fun r => r.rows 0

def rowsLen (rows : List (Nat × Nat)) : Nat := (rows.map (·.2)).sum

def wrBasesOf (rs : List Region) : List Dbl := (rs.filter fun r => r.kind.writes).map (·.base)

/-- Physical pieces of rows. -/
def State.rowPieces (s : State) (d fn : Nat) (root : Dbl) (n : Need) : List (Nat × Nat) → State × Option (List (Nat × Nat))
  | [] => (s, some [])
  | (va, len) :: rows =>
    match s.walkerPieces d fn root n len (len / 65536 + 2) va with
    | (s, none) => (s, none)
    | (s, some l) =>
      match s.rowPieces d fn root n rows with
      | (s, none) => (s, none)
      | (s, some r) => (s, some (l ++ r))

/-- Chunks of a function's arena in use. -/
def State.usedChunks (s : State) (fn : Nat) : List Nat :=
  s.dies.flatMap fun (p : Nat × Die) => (p.2.fw.filter fun e => e.fn == fn).flatMap (·.chunks)

def State.freeChunks (s : State) (fn : Nat) : List Nat :=
  let used := s.usedChunks fn
  (List.range (s.fn fn).arsz).filter fun i => !used.contains i

/-- Place of byte `k` of what an entry stores: the descriptor block of 1 KiB, then the bytes. -/
def State.chunkAt (s : State) (fn : Nat) (chunks : List Nat) (k : Nat) : Nat :=
  (s.fn fn).arena + chunks.getD (k / 65536) 0 * 65536 + k % 65536

/-- Lookups of the copy unit in the arena (R326, R329), whose bytes R331 meters for themselves. -/
def State.arenaLookups (s : State) (fn : Nat) (write : Bool) (chunks : List Nat) (n : Nat) : State :=
  let t := s.quietLookups fn 3 write ((List.range ((n + 127) / 128)).map fun i => s.chunkAt fn chunks (128 * i))
  t.updFn fn fun f => { f with meters := (s.fn fn).meters, pending := (s.fn fn).pending }

def State.storedBytes (s : State) (fn : Nat) (chunks : List Nat) (n : Nat) : List Byte :=
  (List.range n).map fun k => s.readByte (s.fn fn).key (s.chunkAt fn chunks (1024 + k))

/-- The least recently used entries of a function on a die leave until enough chunks are free. -/
def State.makeRoom (s : State) (d fn need : Nat) : Nat → State
  | 0 => s
  | n + 1 =>
    if need ≤ (s.freeChunks fn).length then s
    else
      match ((s.die d).fw.filter fun e => e.fn == fn).map (·.rank) with
      | [] => s
      | t :: ts =>
        let m := ts.foldl Nat.min t
        (s.updDie d fun x => { x with fw := x.fw.filter fun e => !(e.fn == fn && e.rank == m) }).makeRoom d fn need n

/-- Ways of a die's table that a function has. -/
def State.fwWays (s : State) (fn : Nat) : List Nat := (List.range 8).filter fun w => (s.fn fn).fwways.getLsbD w

def fwSet (key : Dbl) : Nat := key.toNat % 256

/-- The way that a new entry takes: that of the same key, an invalid one, or the least recently used (R329). -/
def State.fwVictim (s : State) (d fn : Nat) (key : Dbl) : Option Nat :=
  let es := (s.die d).fw.filter fun e => e.set == fwSet key && e.fn == fn
  match es.find? fun e => e.key == key with
  | some e => some e.way
  | none =>
    match (s.fwWays fn).find? fun w => !(s.die d).fw.any fun e => e.set == fwSet key && e.way == w with
    | some w => some w
    | none =>
      match es with
      | [] => none
      | e :: r => some (r.foldl (fun b x => if x.rank < b.rank then x else b) e).way

/-- Counters of a function on a die (R322). -/
def FwCounters.zero : FwCounters := ⟨0, 0, 0, 0, 0⟩
def State.countFw (s : State) (fn d : Nat) (f : FwCounters → FwCounters) : State :=
  s.updFn fn fun x => { x with fwctr := tset d (f (tget x.fwctr d FwCounters.zero)) x.fwctr }

/-- Fields of a pure task over all its members (R328, R330). -/
def State.pureAll (s : State) (c : Nat) (p : PureInfo → Bool) : Bool :=
  (s.taskMembers c).all fun m => ((s.core m).task.bind (·.pureInfo)).any p

/-- An entry of the task is still to be made or abandoned (R329). -/
def State.pureOpen (s : State) (c : Nat) : Bool :=
  s.pureAll c fun p => p.entered && !p.tainted && !p.violated && !p.counted

def State.markPure (s : State) : List Nat → State
  | [] => s
  | m :: ms =>
    (s.updCore m fun x => { x with task := x.task.map fun (t : Task) =>
      { t with pureInfo := t.pureInfo.map fun (p : PureInfo) => { p with counted := true } } }).markPure ms

/-- Not entered: counted in `.unc`. -/
def State.abandon (s : State) (c : Nat) (t : Task) : State :=
  (s.markPure t.members).countFw t.fn (dieOf c) fun k => { k with unc := k.unc + 1 }

/-- Matrix and vector operations of a task over its members. -/
def State.opsOf (s : State) (ms : List Nat) (f : PureInfo → Nat) : Nat :=
  (ms.map fun m => (((s.core m).task.bind (·.pureInfo)).map f).getD 0).sum

def canFreewheelEntryMade (core : Nat) (s : State) : Bool :=
  (s.taskMembers core).head? == some core && s.pureOpen core
    && (s.taskMembers core).all fun m => (s.seq m).stall == 12 && (s.seq m).phase == 3

/-- FREEWHEEL_ENTRY_MADE (R329). -/
def execFreewheelEntryMade (core : Nat) (s : State) : Result :=
  .next (if canFreewheelEntryMade core s then
      match (s.core core).task with
      | none => s
      | some t =>
        match t.pureInfo with
        | none => s
        | some p =>
          let d := dieOf core
          let root := s.rootOf t.fn t.wq
          let rows := wrRows t.regions
          let n := rowsLen rows
          let need := (1024 + n + 65535) / 65536
          if 2 ^ 24 < 1024 + n then s.abandon core t
          else
            match s.fwView d t.fn root t.regions, s.rowPieces d t.fn root ⟨0, 0⟩ rows with
            | (_, some v), (s, some l) =>
              let s := s.makeRoom d t.fn need 2048
              match s.fwVictim d t.fn p.key with
              | none => s.abandon core t
              | some way =>
                let chunks := (s.freeChunks t.fn).take need
                if chunks.length < need then s.abandon core t
                else
                  let bytes := l.flatMap fun (q : Nat × Nat) => s.readPhys (s.fn t.fn).key q.1 q.2
                  let blk := (List.range 1024).map fun i => BitVec.ofNat 8 (Config.freeNat (s.freeCtr + i))
                  let all := blk ++ bytes
                  let s := (List.range need).foldl (fun (s : State) i =>
                    s.writeQuiet (s.fn t.fn).key (s.chunkAt t.fn chunks (65536 * i)) ((all.drop (65536 * i)).take 65536)) s.useFree
                  let s := (((s.arenaLookups t.fn true chunks (1024 + n)).meter t.fn 12 (1024 + n)).registerWatches d true v.wr).useId
                  let e : FwEntry :=
                    { set := fwSet p.key, way := way, wclean := true, fn := t.fn, root := root, key := p.key, rank := s.nextId, chunks := chunks
                      words := p.words, wrBases := wrBasesOf t.regions, rdGranules := p.granules, wrGranules := v.wr
                      vaGranules := (t.regions.flatMap Region.granules).eraseDups, ipaGranules := v.ipas
                      matOps := s.opsOf t.members (·.matOps), vecOps := s.opsOf t.members (·.vecOps)
                      block := blk, id := s.nextId }
                  (s.updDie d fun x =>
                    { x with fw := (x.fw.filter fun o => !(o.set == e.set && o.way == e.way)) ++ [e] }).useId.markPure t.members
            | _, _ => s.abandon core t
    else s)

/-! ## Lookups (R326) -/

/-- What a lookup comes to. -/
inductive Lookup where
  /-- The task runs as an ordinary task and is not entered. -/
  | none
  | miss (p : PureInfo)
  | clean (e : FwEntry)
  | dirty (e : FwEntry) (pieces : List (Nat × Nat))
  deriving DecidableEq, Repr

/-- The digest of a record, computed once (R324). -/
def State.recordDigest (s : State) (d fn wq : Nat) (r : Record) : State × Option Dbl :=
  match r.digest with
  | some x => (s, some x)
  | none =>
    match s.digestWords d fn (s.rootOf fn wq) r.code with
    | (s, none) => (s, none)
    | (s, some ws) =>
      let x := fw64 (dbl fn) ws
      (s.updRecord fn wq r.seq fun r => { r with digest := some x }, some x)

def keyWords (digest : Dbl) (t : Task) (attrs : List Nat) : List Dbl :=
  let nrd := (t.regions.filter fun r => r.kind == .rd).length
  let nwr := (t.regions.filter fun r => r.kind == .wr).length
  [digest, t.arg] ++ ((List.range 6).map fun i => dbl (t.idx.getD i 0)) ++ [dbl t.tseq, dbl (nrd + nwr * 256)]
    ++ ((t.regions.zip attrs).flatMap fun (p : Region × Nat) => regionKey p.1 p.2)

/-- The lookup of a pure task (R323, R324, R326), up to the compare. -/
def State.lookup (s : State) (d : Nat) (t : Task) (r : Record) : State × Lookup :=
  let root := s.rootOf t.fn t.wq
  if !purityShape t.regions || (s.fn t.fn).fwways == 0 then (s, .none)
  else
    match s.fwView d t.fn root t.regions with
    | (s, none) => (s, .none)
    | (s, some v) =>
      if !v.isLocal then (s, .none)
      else
        match s.recordDigest d t.fn t.wq r with
        | (s, none) => (s, .none)
        | (s, some dg) =>
          let ws := keyWords dg t v.attrs
          let key := fw64 (dbl t.fn) ws
          let p : PureInfo := { PureInfo.blank with key := key, words := ws, granules := v.rd, entered := true }
          match (s.die d).fw.find? fun e =>
              e.set == fwSet key && e.fn == t.fn && e.key == key && (s.fn t.fn).fwways.getLsbD e.way with
          | none => (s, .miss p)
          | some e =>
            -- the compare reads the descriptor block; what one that was written since says is open
            let blk := s.readPhys (s.fn t.fn).key (s.chunkAt t.fn e.chunks 0) 1024
            let s := (s.arenaLookups t.fn false e.chunks 1024).meter t.fn 11 1024
            let sound := blk == e.block
            let n := s.freeNat
            let s := if sound then s else s.useFree
            let e := if sound then e else { e with matOps := n / 2, vecOps := 0 }
            if (if sound then e.words ≠ ws else n % 2 = 0) then (s, .miss p)
            else if e.wclean && e.wrBases == wrBasesOf t.regions then (s, .clean e)
            else if !v.writable then (s, .miss p)
            else
              match s.rowPieces d t.fn root Need.write (wrRows t.regions) with
              | (s, some l) => (s, .dirty e l)
              | (s, none) => (s, .miss p)

/-- The pieces of a range that lie in one line each. -/
def lineCuts : Nat → Nat → Nat → List (Nat × Nat)
  | 0, _, _ => []
  | f + 1, pa, n => if n = 0 then [] else let k := Nat.min n (128 - pa % 128); (pa, k) :: lineCuts f (pa + k) (n - k)

/-- The copy unit's writes of a dirty hit. -/
def State.sendCopies (s : State) (d fn wq : Nat) : List (Nat × Nat) → List Byte → State
  | [], _ => s
  | (pa, n) :: l, bs =>
    (s.send { Req.blank (.walker d) .write pa n with data := bs.take n, key := (s.fn fn).key, fn := fn, wq := wq, tc := 3 }).sendCopies
      d fn wq l (bs.drop n)

/-- The lookup goes on at the walker as a hit; a clean hit writes nothing. -/
def State.startHit (s : State) (d : Nat) (t : Task) (e : FwEntry) (pieces : List (Nat × Nat)) (clean : Bool) : State :=
  let n := rowsLen pieces
  let bytes := if clean then [] else s.storedBytes t.fn e.chunks n
  let cuts := if clean then [] else pieces.flatMap fun (p : Nat × Nat) => lineCuts (p.2 / 128 + 2) p.1 p.2
  let first := s.nextId
  let s := s.sendCopies d t.fn t.wq cuts bytes
  let s := if clean then s else ((s.arenaLookups t.fn false e.chunks (1024 + n)).meter t.fn 11 n).meter t.fn 12 n
  s.updDie d fun x =>
    { x with
      lookup := some ⟨t, clean, (List.range cuts.length).map (first + ·), e⟩
      fw := x.fw.map fun (o : FwEntry) => if o.id = e.id then { o with rank := s.nextId } else o }

/-! ## FWINV, FWQRY (R321, R322) -/

/-- Entries of a function that reference a granule, or all of them, are dropped on every die. -/
def State.dropFw (s : State) (fn : Nat) (p : FwEntry → Bool) : State :=
  { s with dies := s.dies.map fun (q : Nat × Die) => (q.1, { q.2 with fw := q.2.fw.filter fun e => !(e.fn == fn && p e) }) }

def execFwinv (a : Option Src) (s : State) : Result :=
  .next (s.withOperands a.toList fun s =>
    s.impure 4 0 fun s =>
      let v := (a.map s.opd).getD 0
      if a.isSome && !formOk v then s.trap 0x15 v 0
      else
        let s := s.dropFw s.curFn fun e => a.isNone || (isVirtual v && e.vaGranules.contains (v.toNat / 65536))
        s.issue a.toList 1 none)

def FwCounters.pick (k : FwCounters) : FwKind → Nat
  | .hit => k.hit
  | .hitc => k.hitc
  | .miss => k.miss
  | .viol => k.viol
  | .unc => k.unc
  | .ent => 0

def execFwqry (kind : FwKind) (d : Dest) (s : State) : Result :=
  .next (s.withOperands [] fun s =>
    s.impure 4 0 fun s =>
      let die := dieOf s.cur.core
      let n := if kind = .ent then ((s.die die).fw.filter fun e => e.fn == s.curFn).length
        else (tget (s.fn s.curFn).fwctr die FwCounters.zero).pick kind
      s.issue [] 1 (some (dbl n, d)))

end Sys2Proof.Machine
end

