-- ==== Sys2Proof/Machine/Walker.lean ====
section
/-! DEFINITION. The walker (R304 to R316): which task is dispatched next, races, placement, completion of tasks, and the
words TEND (R151) and YIELD (R150), with priority donation. -/

namespace Sys2Proof.Machine

open Sys2Proof

/-! ## Tasks of a record -/

/-- A region of the task with a given index vector, where it is valid (R43, R44). -/
def FpEntry.stepped (e : FpEntry) (idx : List Nat) : Option Region :=
  let z : Int := e.region.base.toNat + genSum idx e.steps
  if (parseRegion (e.raw.take 32)).isNone || e.region.space != 0 || e.region.chn || z < 0 || 2 ^ 57 ≤ z then none
  else some { e.region with base := BitVec.ofInt 64 z }

/-- The regions of a record's next task; where one is invalid, its index. -/
def Record.nextRegions (r : Record) : Except Nat (List Region) :=
  let l := r.fps.map fun e => e.stepped r.cursor
  match l.findIdx? (·.isNone) with
  | some i => .error i
  | none => .ok (l.filterMap id)

/-- The record past its next task. -/
def Record.advance (r : Record) : Record :=
  match nextIdx r.bounds r.order r.cursor with
  | some i => { r with cursor := i, nextTask := r.nextTask + 1 }
  | none => { r with nextTask := r.nextTask + 1, drained := true }

/-- The record's next task. -/
def Record.task (r : Record) (fn wq : Nat) (members : List Nat) (regions : List Region) : Task where
  fn := fn
  wq := wq
  rseq := r.seq
  tseq := r.nextTask
  idx := r.cursor
  arg := r.arg
  prio := r.prio
  effPrio := r.prio
  isPure := r.isPure
  strict := r.strict
  reloc := r.reloc
  resid := r.resid
  spreq := r.spreq
  gang := r.gang
  members := members
  code := r.code
  regions := regions
  handed := []
  irrevocable := false
  eligible := true
  wd := 0
  stopping := none
  stopped := none
  stopBy := none
  stoppedAt := 0
  parked := false
  finished := false
  yielded := false
  settling := []
  pureInfo := if r.isPure then some PureInfo.blank else none

/-! ## The next task (R307, R308, R310) -/

/-- A record that offers a task. -/
structure Candidate where
  fn : Nat
  wq : Nat
  record : Record
  deriving DecidableEq, Repr

def Candidate.queue (k : Candidate) : Nat := 8 * k.fn + k.wq

/-- The record that a queue offers. -/
def WorkQueue.offer (w : WorkQueue) : Option Record :=
  (w.records.find? fun r => r.state == .dispatching).bind fun r => if r.drained then none else some r

/-- Records that offer a task to the walker of a die. -/
def State.candidates (s : State) (d : Nat) : List Candidate :=
  s.fns.flatMap fun (p : Nat × Func) =>
    if !p.2.bound || p.2.suspended then []
    else p.2.queues.filterMap fun (q : Nat × WorkQueue) =>
      if q.2.att = some d ∧ !q.2.park then q.2.offer.map fun r => ⟨p.1, q.1, r⟩ else none

/-- Order of choice: highest priority, ties round-robin after the queue that dispatched last. -/
def Candidate.before (last : Nat) (a b : Candidate) : Bool :=
  let turn (k : Candidate) : Nat := (k.queue + 512 - (last + 1) % 512) % 512
  b.record.prio < a.record.prio || (a.record.prio == b.record.prio && decide (turn a ≤ turn b))

/-- A candidate takes its place among candidates that stand in the order of choice. -/
def Candidate.insert (last : Nat) (k : Candidate) : List Candidate → List Candidate
  | [] => [k]
  | j :: l => if Candidate.before last k j then k :: j :: l else j :: Candidate.insert last k l

def State.sorted (s : State) (d : Nat) : List Candidate :=
  (s.candidates d).foldr (Candidate.insert (s.die d).lastQueue) []

/-- R308: a dispatched task of the record has a region that conflicts with the next task's. -/
def State.taskEdge (s : State) (k : Candidate) : Bool :=
  match k.record.nextRegions with
  | .error _ => false
  | .ok rs => (s.fn k.fn).registry.any fun g =>
      g.wq == k.wq && g.rseq == k.record.seq && g.regions.any fun a => rs.any fun b => a.conflicts b 0

/-- The reservation of a function's cores on a die, while the gang for which it was made is a candidate. -/
def State.reservation (s : State) (d fn : Nat) : Option (Nat × Nat) :=
  (tfind fn (s.die d).reserved).filter fun p =>
    (s.candidates d).any fun k => k.queue == p.1 && k.record.gang != 0 && k.record.prio == p.2

/-- May a task of a queue of a function take a core of the function on a die, at a priority (R310)? Cores are reserved for
a gang of the function, of which only a higher priority may take one. -/
def State.mayTake (s : State) (d fn queue prio : Nat) (res : List Candidate) : Bool :=
  (res.all fun g => g.fn != fn || g.record.prio < prio)
    && (match s.reservation d fn with
      | none => true
      | some (q, p) => q == queue || p < prio)

def State.mayPlace (s : State) (d : Nat) (k : Candidate) (res : List Candidate) : Bool :=
  s.mayTake d k.fn k.queue k.record.prio res

/-- Cores that the candidate's next task would take: of a core task one, of a gang one in each of its quads. -/
def State.placeFor (s : State) (d : Nat) (k : Candidate) (res : List Candidate) : Option (List Nat) :=
  if !s.mayPlace d k res then none
  else
    let free := (s.ownedCores k.fn d).filter fun c => s.coreFree c && s.settleable c
    if k.record.gang = 0 then free.head?.map fun c => [c]
    else
      let firsts := (List.range 6).filterMap fun q => free.find? fun c => quadOf c == 6 * d + q
      if k.record.gang ≤ firsts.length then some (firsts.take k.record.gang) else none

/-- The first candidate that can start, with its cores; and the gangs for which cores are to be reserved, one of a
function. -/
def State.choose (s : State) (d : Nat) : List Candidate → List Candidate → Option (Candidate × List Nat) × List Candidate
  | [], res => (none, res)
  | k :: ks, res =>
    if s.taskEdge k then s.choose d ks res
    else
      match s.placeFor d k res with
      | some cs => (some (k, cs), res)
      | none => s.choose d ks (if k.record.gang != 0 && s.mayPlace d k res then res ++ [k] else res)

/-- Cores are reserved for gangs. -/
def State.reserve (s : State) (d : Nat) (l : List Candidate) : State :=
  if l = [] then s
  else s.updDie d fun x =>
    { x with reserved := l.foldl (fun t (k : Candidate) => tset k.fn (k.queue, k.record.prio) t) x.reserved }

/-- Of two tasks that are not resident, the one of higher effective priority. -/
def Saved.better (b : Option Saved) (v : Saved) : Option Saved :=
  match b with
  | none => some v
  | some o => if o.task.effPrio < v.task.effPrio then some v else b

/-- Queue of a stopped task. -/
def Task.queue (t : Task) : Nat := 8 * t.fn + t.wq

/-- A task that YIELD descheduled and whose core is free again (R316). -/
def State.resumable (s : State) (d : Nat) : Option Saved :=
  (s.fns.flatMap fun (p : Nat × Func) =>
    if p.2.suspended then []
    else p.2.away.filter fun v => v.task.yielded && !v.task.parked && dieOf v.place == d && s.coreFree v.place
      && s.settleable v.place && s.mayTake d v.task.fn v.task.queue v.task.effPrio []).foldl Saved.better none

/-! ## Dispatch (R311 to R313) -/

/-- The walker parks a queue at dispatch. -/
def State.walkerPark (s : State) (d fn wq cause : Nat) (r : Record) (task other otask : Nat) : State :=
  s.presentPark fn wq
    ⟨385, parkWords (parkHeader cause 4 false (24 * d)) r.seq r.nextTask
      [dbl (cause + wq * 2 ^ 8 + r.seq % 2 ^ 48 * 2 ^ 16), dbl task, dbl other, dbl otask], none⟩

/-- R312: the first region of the task that conflicts with one of a registered task of another record. -/
def State.race (s : State) (fn wq rseq : Nat) (rs : List Region) : Option (Nat × Registered × Nat) :=
  rs.zipIdx.findSome? fun (a, i) =>
    (s.fn fn).registry.findSome? fun g =>
      if g.wq = wq ∧ g.rseq = rseq then none
      else (g.regions.findIdx? fun b => a.conflicts b 0).map fun j => (i, g, j)

/-- A task of the record leaves it: it is complete (R309). -/
def State.taskOver (s : State) (fn wq rseq tseq : Nat) : State :=
  let s := s.updFn fn fun f =>
    { f with registry := f.registry.filter fun g => !(g.wq == wq && g.rseq == rseq && g.tseq == tseq) }
  let s := s.dropDonations fn fun d => d.wq == wq && d.rseq == rseq && (d.taker == tseq || d.giver == tseq)
  (s.updRecord fn wq rseq fun r => { r with open_ := r.open_.filter (· != tseq) }).checkRecord fn wq rseq

/-- Steps 2 to 4 of R311 for a registered task. -/
def State.startTask (s : State) (d : Nat) (t : Task) (r : Record) : State :=
  if !t.isPure then s.placeTask t t.members
  else
    match s.lookup d t r with
    | (s, .none) => s.placeTask t t.members
    | (s, .miss p) =>
      let s := s.countFw t.fn d fun k => { k with miss := k.miss + 1 }
      (s.registerWatches d false p.granules).placeTask { t with pureInfo := some p } t.members
    | (s, .clean e) => s.startHit d t e [] true
    | (s, .dirty e l) => s.startHit d t e l false

/-- R311 for the next task of a record on given cores. -/
def State.dispatch (s : State) (d : Nat) (k : Candidate) (cores : List Nat) : State :=
  let r := k.record
  if r.nextTask = 0 ∧ 38 < r.spreq then
    (s.updRecord k.fn k.wq r.seq fun r => { r with drained := true }).completeRecord k.fn k.wq r.seq 0x02
  else
    match r.nextRegions with
    | .error i => s.walkerPark d k.fn k.wq 0x18 r (r.nextTask % 2 ^ 32 + i * 2 ^ 32 + 0x11 * 2 ^ 36) 0 0
    | .ok rs =>
      match s.race k.fn k.wq r.seq rs with
      | some (i, g, j) =>
        s.walkerPark d k.fn k.wq 0x19 r (r.nextTask % 2 ^ 32 + i * 2 ^ 32)
          (g.rseq % 2 ^ 48 + g.wq * 2 ^ 48 + j * 2 ^ 51) (g.tseq % 2 ^ 32)
      | none =>
        let t := r.task k.fn k.wq cores rs
        let s := s.updDie d fun x =>
          { x with
            lastQueue := k.queue
            reserved := if (tfind k.fn x.reserved).any (fun p => p.1 == k.queue) then terase k.fn x.reserved else x.reserved }
        let s := s.updFn k.fn fun f => { f with registry := f.registry ++ [⟨k.wq, r.seq, r.nextTask, rs⟩] }
        let s := s.updRecord k.fn k.wq r.seq fun r =>
          let r := { r.advance with open_ := r.open_ ++ [r.nextTask] }
          { r with state := if r.drained then .draining else r.state }
        s.startTask d t r

/-- A descheduled task resumes on its core (R316). -/
def State.resumeYielded (s : State) (v : Saved) : State := s.revive v.place v { v.task with yielded := false }

/-- A task that a machine check ended before it was irrevocable is dispatched again from its start, on quads that its
function owns on the die (R265): the one of highest priority. -/
def State.redoTask (s : State) (d : Nat) : Option (Task × Record × List Nat) :=
  (s.fns.flatMap fun (p : Nat × Func) =>
    if !p.2.bound || p.2.suspended then []
    else p.2.queues.filterMap fun (q : Nat × WorkQueue) =>
      match q.2.redo with
      | [] => none
      | t :: _ =>
        if q.2.att ≠ some d ∨ q.2.park then none
        else
          match q.2.records.find? fun r => r.seq == t.rseq with
          | none => none
          | some r => (s.placeFor d ⟨p.1, q.1, { r with gang := t.gang }⟩ []).map fun cs => (t, r, cs)).foldl
    (fun b x =>
      match b with
      | none => some x
      | some o => if o.1.prio < x.1.prio then some x else b) none

def State.redispatch (s : State) (d : Nat) (t : Task) (r : Record) (cs : List Nat) : State :=
  (s.updWq t.fn t.wq fun w => { w with redo := w.redo.tail }).startTask d { t with members := cs } r

/-- Of the task chosen, one that is to start again and one that is to resume, the one of highest priority; where they tie,
one that starts again and then one that resumes go first (R307, R316). -/
def State.dispatchBest (s : State) (d : Nat) (k : Option (Candidate × List Nat)) : State :=
  let pk := (k.map fun k => k.1.record.prio + 1).getD 0
  let again (s : State) : State :=
    match s.resumable d with
    | some v =>
      if v.task.effPrio + 1 < pk then (k.map fun k => s.dispatch d k.1 k.2).getD s else s.resumeYielded v
    | none => (k.map fun k => s.dispatch d k.1 k.2).getD s
  match s.redoTask d with
  | some (t, r, cs) =>
    if t.prio + 1 < Nat.max pk (((s.resumable d).map fun v => v.task.effPrio + 1).getD 0) then again s else s.redispatch d t r cs
  | none => again s

/-- TASK_DISPATCH: the walker starts a task, resumes one, or reserves cores for a gang. -/
def canTaskDispatch (die : Nat) (s : State) : Bool :=
  (s.die die).lookup.isNone && !(s.die die).tstop
    && (let (k, g) := s.choose die (s.sorted die) []
        (s.redoTask die).isSome || k.isSome || (s.resumable die).isSome
          || (g.any fun c => tfind c.fn (s.die die).reserved != some (c.queue, c.record.prio)))

def execTaskDispatch (die : Nat) (s : State) : Result :=
  .next (if canTaskDispatch die s then
      let (k, g) := s.choose die (s.sorted die) []
      (s.reserve die g).dispatchBest die k
    else s)

/-! ## Hits (R326, R331) -/

/-- A hit retires its task. -/
def State.retireHit (s : State) (d : Nat) (l : FwLookup) (f : FwCounters → FwCounters) : State :=
  let t := l.task
  let s := s.meter t.fn 10 (l.entry.matOps + l.entry.vecOps)
  ((s.updDie d fun x => { x with lookup := none }).countFw t.fn d f).taskOver t.fn t.wq t.rseq t.tseq

def canFreewheelCleanHit (die : Nat) (s : State) : Bool := (s.die die).lookup.any fun l => l.clean

def execFreewheelCleanHit (die : Nat) (s : State) : Result :=
  .next (match (s.die die).lookup with
    | none => s
    | some l => if l.clean then s.retireHit die l fun k => { k with hit := k.hit + 1 } else s)

/-- Every copy write of a dirty hit is performed at package scope. -/
def canFreewheelDirtyHitDone (die : Nat) (s : State) : Bool :=
  (s.die die).lookup.any fun l => !l.clean && l.reqs.all fun i => s.reqs.any fun r => r.id == i && r.phase == .answered

def execFreewheelDirtyHitDone (die : Nat) (s : State) : Result :=
  .next (if canFreewheelDirtyHitDone die s then
      match (s.die die).lookup with
      | none => s
      | some l =>
        let s := { s with reqs := s.reqs.filter fun r => !l.reqs.contains r.id }
        let t := l.task
        let (s, v) := s.fwView die t.fn (s.rootOf t.fn t.wq) t.regions
        let wr := (v.map (·.wr)).getD []
        let s := s.registerWatches die true wr
        let s := s.updDie die fun x => { x with fw := x.fw.map fun (e : FwEntry) =>
          if e.id = l.entry.id then { e with wclean := true, wrBases := wrBasesOf t.regions, wrGranules := wr } else e }
        s.retireHit die l fun k => { k with hitc := k.hitc + 1 }
    else s)

/-! ## TEND and TASK_COMPLETE (R151, R309, R329) -/

/-- No signal of any engine is pending. -/
def Core.noSignals (x : Core) : Bool := x.flows.all fun f => !f.psp && !f.psn

/-- Step 1 of R151. -/
def Core.tendReady (x : Core) : Bool :=
  x.queuesEmpty && x.noSignals && x.seq.ld == 0 && x.seq.st == 0 && x.seq.landing == [] && x.seq.atomicReq.isNone

/-- Another member waits at a gang word of a formed gang (R260). -/
def State.gangWaits (s : State) (c : Nat) : Bool :=
  (s.core c).mat.formed && (s.taskMembers c).any fun m =>
    m != c && ((s.core m).mat.gangWait.bind List.head?).any fun w => gangKind w == 1

/-- TEND's last step: the word issues, KEEP is cleared, a formed gang is dissolved, and the lease and the claims end
(R235). -/
def State.endTask (s : State) : State :=
  let c := s.cur.core
  let ms := if (s.core c).mat.formed then s.taskMembers c else []
  let s := ms.foldl (fun s m => s.updCore m fun x => { x with mat := { x.mat with formed := false } }) s
  let s := s.issue [] 1 none
  ((s.updCore c fun x =>
    { x with task := x.task.map fun (t : Task) => { t with finished := true }, mat := { x.mat with keep := false } }).dropLease c).dropClaims c

/-- TEND: phase 1 waits for apply notices, phase 2 for write-backs, phase 3 for the Freewheel entry. On the Derailleur
the word is illegal and never comes here. -/
def execTend (s : State) : Result :=
  .next (s.withOperands [] fun s =>
    let c := s.cur.core
    let q := s.seq c
    if q.phase = 0 then
      if !(s.core c).tendReady then s.stallSeq 12
      else if s.gangWaits c then s.useFree.gangFault (s.taskMembers c) 0x14 s.freeDbl 7
      else ((s.deliverAll c).updSeq c fun q => { q with phase := 1 }).stallSeq 12
    else if q.phase = 1 then
      if !s.addendsDone c then s.stallSeq 12
      else ((s.writeBackAll c).updSeq c fun q => { q with phase := 2 }).stallSeq 12
    else if (s.core c).copy.wbs != [] then s.stallSeq 12
    else if s.pureOpen c then (s.updSeq c fun q => { q with phase := 3 }).stallSeq 12
    else s.endTask)

/-- Residuals still in their slots lie behind a failed boundary: they are lost, and logged (R17). -/
def State.logLost (s : State) (c : Nat) : State :=
  { s with log := s.log ++ ((s.core c).res.tags.filter fun (p : Nat × ResTag) => p.2.valid).map fun p => .lostAddend (p.2.pa / 128) }

/-- What is left of a task on its core when it is over: its claims are released and its rows, and the core is free
(R235, R352). -/
def State.clearCore (s : State) (c : Nat) (t : Task) : State :=
  (((((s.logLost c).dropClaims c).unmonitor c).dropLease c).markRows (quadOf c) t.row .released).updCore c Core.cleared

def State.clearCores (s : State) (t : Task) : List Nat → State
  | [] => s
  | c :: cs => (s.clearCore c t).clearCores t cs

def canTaskComplete (core : Nat) (s : State) : Bool :=
  (s.taskMembers core).head? == some core
    && (s.taskMembers core).all fun m => ((s.core m).task.any (·.finished)) && (s.seq m).occ == 0

/-- TASK_COMPLETE (R309): the walker is told by every member. A pure task without an entry is counted (R330). -/
def execTaskComplete (core : Nat) (s : State) : Result :=
  .next (if canTaskComplete core s then
      match (s.core core).task with
      | none => s
      | some t =>
        let d := dieOf core
        let bad := t.members.any fun m => ((s.core m).task.bind (·.pureInfo)).any (·.violated)
        let made := t.members.all fun m => ((s.core m).task.bind (·.pureInfo)).any (·.counted)
        let s :=
          if !t.isPure || made then s
          else if bad then s.countFw t.fn d fun k => { k with viol := k.viol + 1 }
          else s.countFw t.fn d fun k => { k with unc := k.unc + 1 }
        (s.clearCores t t.members).taskOver t.fn t.wq t.rseq t.tseq
    else s)

/-! ## YIELD (R150, R316) -/

/-- What a yielding task waits for before its core is offered: besides R150's conditions, that nothing of it is on its way
(R194, R295). -/
def State.yieldReady (s : State) (c : Nat) : Bool :=
  let x := s.core c
  s.addendsDone c && x.copy.wbs == [] && x.seq.atomicReq.isNone && s.settleable c
    && x.seq.landing.all fun l => l.arrived || (match l.kind with
      | .load _ => true
      | _ => false)

/-- YIELD: phase 1 waits for residuals and lines, phase 2 is offered, phase 3 is resumed. -/
def execYield (s : State) : Result :=
  .next (s.withOperands [] fun s =>
    let c := s.cur.core
    let x := s.core c
    if x.seq.phase = 3 then s.issue [] 1 none
    else if x.seq.phase = 2 then s.stallSeq 11
    else if x.seq.phase = 1 then
      if s.yieldReady c then (s.updSeq c fun q => { q with phase := 2 }).stallSeq 11 else s.stallSeq 11
    else if !x.queuesEmpty || !x.noSignals || x.seq.st != 0 then s.stallSeq 11
    else (((s.deliverAll c).writeBackAll c).updSeq c fun q => { q with phase := 1 }).stallSeq 11)

/-- The candidate that R307 would choose next for a function on a die, were one core free: the first, in the order of
choice, whose task edges are free, that one core can hold, and that no reservation for a gang keeps from it. -/
def State.nextAmong (s : State) (d fn : Nat) : List Candidate → List Candidate → Option Candidate
  | [], _ => none
  | k :: ks, res =>
    if k.fn ≠ fn ∨ s.taskEdge k then s.nextAmong d fn ks res
    else if !s.mayPlace d k res then s.nextAmong d fn ks res
    else if k.record.gang ≤ 1 then some k
    else s.nextAmong d fn ks (res ++ [k])

def State.nextFor (s : State) (d fn : Nat) : Option Candidate := s.nextAmong d fn (s.sorted d) []

/-- The task of highest priority that an earlier YIELD of a core descheduled: it resumes there. -/
def State.nextHere (s : State) (c fn : Nat) : Option Saved :=
  ((s.fn fn).away.filter fun v => v.task.yielded && !v.task.parked && v.place == c
    && s.mayTake (dieOf c) fn v.task.queue v.task.effPrio []).foldl Saved.better none

def canYieldOffer (core : Nat) (s : State) : Bool :=
  let x := s.core core
  x.freezes == [] && x.seq.stall == 11 && x.seq.phase == 2
    && x.task.any (fun t => !t.parked && t.stopping.isNone && t.stopped.isNone)
    && (s.die (dieOf core)).lookup.isNone && !(s.die (dieOf core)).tstop

/-- YIELD_OFFER (R316). A task that an earlier YIELD of this core descheduled is a candidate for it, too. -/
def execYieldOffer (core : Nat) (s : State) : Result :=
  .next (if canYieldOffer core s then
      match (s.core core).task with
      | none => s
      | some w =>
        let d := dieOf core
        let back (s : State) : State := s.updSeq core fun q => { q with phase := 3 }
        let leave (s : State) : State :=
          (back (s.updCore core fun x => { x with task := x.task.map fun (t : Task) => { t with yielded := true } })).vacate core none
        let free := (s.ownedCores w.fn d).any s.coreFree
        if w.gang ≠ 0 ∨ free ∨ (s.fn w.fn).suspended then back s
        else
          let takes (v : Saved) : Bool := decide (w.effPrio ≤ v.task.effPrio) || (s.fn w.fn).donations.any fun g => g.takes v.task && g.gives w
          let start (k : Candidate) : State := if w.effPrio ≤ k.record.prio then (leave s).dispatch d k [core] else back s
          match s.nextHere core w.fn, s.nextFor d w.fn with
          | some v, some k =>
            if v.task.effPrio < k.record.prio then start k else if takes v then (leave s).resumeYielded v else back s
          | some v, none => if takes v then (leave s).resumeYielded v else back s
          | none, some k => start k
          | none, none => back s
    else s)

/-! ## Donation (R315) -/

/-- Tasks not resident for which a stalled task may wait: of its record, earlier, with an atom or rw region that holds
the monitored address. -/
def State.awaited (s : State) (c : Nat) (w : Task) : List Task :=
  match (s.core c).mon with
  | none => []
  | some m =>
    if !m.armed || m.fired || !isVirtual m.addr then []
    else (((s.fn w.fn).away.map (·.task)).filter fun x =>
      x.wq == w.wq && x.rseq == w.rseq && decide (x.tseq < w.tseq)
        && x.regions.any fun r => r.space == 0 && (r.kind == .atom || r.kind == .rw) && r.has 0 m.addr.toNat).eraseDups

/-- Those that have no donation from the task yet. -/
def State.toDonate (s : State) (c : Nat) (w : Task) : List Task :=
  (s.awaited c w).filter fun x => !(s.fn w.fn).donations.any fun d => d.gives w && d.takes x

def canPriorityDonation (core : Nat) (s : State) : Bool :=
  (s.seq core).stall == 10 && (s.core core).task.any fun w => !w.parked && w.stopped.isNone && s.toDonate core w != []

def execPriorityDonation (core : Nat) (s : State) : Result :=
  .next (if canPriorityDonation core s then
      match (s.core core).task with
      | none => s
      | some w =>
        let l := s.toDonate core w
        let s := s.setDonations w.fn ((s.fn w.fn).donations ++ l.map fun x =>
          ⟨w.wq, w.rseq, w.tseq, x.tseq, w.effPrio, s.wall, false⟩)
        { s with out := s.out ++ l.map fun x => .donate w.fn x.rseq x.tseq }
    else s)

/-- Donations of a task whose taker has not become resident within a slice period. -/
def State.lateDonations (s : State) (w : Task) : List Donation :=
  (s.fn w.fn).donations.filter fun d =>
    d.gives w && !d.late && decide (d.at_ + 1024 * (s.fn w.fn).period.toNat ≤ s.wall)
      && (s.fn w.fn).away.any fun v => d.takes v.task

def canDonationTimeout (core : Nat) (s : State) : Bool := (s.core core).task.any fun w => s.lateDonations w != []

def execDonationTimeout (core : Nat) (s : State) : Result :=
  .next (match (s.core core).task with
    | none => s
    | some w =>
      let l := s.lateDonations w
      if l = [] then s
      else
        s.setDonations w.fn ((s.fn w.fn).donations.map fun (d : Donation) => if l.contains d then { d with late := true } else d))

end Sys2Proof.Machine
end

