-- ==== Sys2Proof/Machine/System.lean ====
section
/-! DEFINITION. What the system instructions share (R340, R341): their waits, results and writes, requests of PF0 that
they complete (R338), and PREEMPT (R346 to R348) with the events that complete a stop. -/

namespace Sys2Proof.Machine

open Sys2Proof

/-! ## Words of the Derailleur (R340, R341) -/

/-- A system word that waits: its effect is not complete. -/
def State.sysWait (s : State) : State := s.stallSeq 4

/-- A system word acts once st is zero; in its later steps (`phase` not 0) it goes on with what it waits for. -/
def State.sysWord (s : State) (reads : List Src) (go : State → State) : State :=
  s.withOperands reads fun s =>
    if (s.seq s.cur.core).phase = 0 ∧ (s.seq s.cur.core).st ≠ 0 then s.sysWait else go s

/-- The word comes to a later step. -/
def State.sysPhase (s : State) (n : Nat) : State := (s.updSeq s.cur.core fun q => { q with phase := n }).sysWait

/-- Result of a system word: status in bits 7:0, value in bits 63:8. -/
def sysResult (status value : Nat) : Dbl := dbl (status + value % 2 ^ 56 * 256)

/-- The word is complete with its result. -/
def State.sysDone (s : State) (reads : List Src) (d : Dest) (status value : Nat) : State :=
  s.issue reads 1 (some (sysResult status value, d))

/-- The request of PF0 that system words carry out ends with the status of the last of them for its function
(R338). -/
def State.pmEnd (s : State) (ops : List Nat) (fn status : Nat) : State :=
  if s.pf0.busy && ops.contains s.pf0.pmOp.toNat && s.pf0.pmFn.toNat == fn then
    { s with pf0 := { s.pf0 with busy := false, pstat := BitVec.ofNat 8 status } }
  else s

/-- The pieces of a range that lie in one line each. -/
def sysCuts (pa n : Nat) : List (Nat × Nat) := lineCuts (n / 128 + 2) pa n

/-- Stores of the Derailleur that a system word makes: the word is complete when they are performed (R340). -/
def State.sysStores (s : State) (wid : Nat) : List (Nat × Nat) → List Byte → State
  | [], _ => s
  | (pa, n) :: l, bs =>
    (s.send { Req.blank (.store derailleur wid) .write pa n with
      data := bs.take n, key := if isLocalHbm pa then 1 else 0, tc := 3 }).sysStores wid l (bs.drop n)

def State.sysWrite (s : State) (pa : Nat) (bs : List Byte) : State :=
  let cuts := sysCuts pa bs.length
  let wid := s.nextId
  let first := wid + 1
  if cuts = [] then s
  else
    (s.useId.sysStores wid cuts bs).updSeq derailleur fun q =>
      { q with
        st := q.st + 1
        stores := q.stores ++ [⟨wid, s.cur.addr, dbl pa, bs, (List.range cuts.length).map (first + ·)⟩] }

/-- Bytes of a descriptor in the Derailleur's memory. -/
def State.sysRead (s : State) (pa n : Nat) : List Byte := s.readPhys 1 pa n

/-- A range of local HBM. -/
def inHbm (pa n : Nat) : Bool := isLocalHbm pa && isLocalHbm (pa + n - 1) && homeDie pa == homeDie (pa + n - 1)

/-! ## Stopping (R346, R347) -/

def State.updTask (s : State) (c : Nat) (f : Task → Task) : State := s.updCore c fun x => { x with task := x.task.map f }

/-- R145: the innermost level that is not in its epilogue is clamped. -/
def clampLoops : List LoopLevel → List LoopLevel
  | [] => []
  | l :: r => if l.epi then l :: clampLoops r else { l with clamp := true } :: r

/-- A freeze stop: the domain freezes between two cycles (R346), the copy sides request no more (R197), and multiply words
stand mid-array (R269). -/
def State.freezeStop (s : State) (c : Nat) : State :=
  ((((s.freeze c .stop).updTask c fun t => { t with stopping := some 2, stopBy := none }).withdrawXfers c).withdrawFills
    c).freezeMat c

/-- At a freeze stop each unfinished transfer and fill is recorded with what it has moved (R197). A request that was
performed meanwhile has ended; its signals stay pending until the thaw (R126). -/
def State.recordStop (s : State) (c : Nat) : State :=
  let s := (s.reqs.filter fun r => r.phase == .acks && r.acks == [] && r.watches == [] && r.ends == some c).foldl State.ended_ s
  let s := (s.core c).copy.xfers.foldl (fun s f => s.recordMoved c f) s
  ((s.core c).copy.lines.filter fun l => l.state == .pending).foldl (fun s l => s.recordFill c l) s

/-- A stop of the task on a core begins, at a depth and with a deadline. A parked task stops where it parked (R348):
frozen as it is, or when its engines have finished what they started. -/
def State.beginStop (s : State) (c depth : Nat) (by_ : Option Nat) : State :=
  match (s.core c).task with
  | none => s
  | some t =>
    if t.stopped.isSome then s
    else if t.parked then
      s.updTask c fun t => { t with stopping := some (if (s.core c).freezes.any Freeze.lasting then 2 else 1), stopBy := by_ }
    else if depth = 2 then s.freezeStop c
    else
      let s := s.updTask c fun t => { t with stopping := some depth, stopBy := by_ }
      if depth = 0 then s.updSeq c fun q => { q with loops := clampLoops q.loops } else s

def State.beginStops (s : State) (depth : Nat) (by_ : Option Nat) : List Nat → State
  | [] => s
  | c :: cs => (s.beginStop c depth by_).beginStops depth by_ cs

/-- Cores on which tasks of a function are resident. -/
def State.residents (s : State) (fn : Nat) : List Nat :=
  (s.cores.filter fun (p : Nat × Core) => p.2.task.any fun t => t.fn == fn).map (·.1)

/-- The task of a core counts as stopped (R348). -/
def Core.halts (x : Core) : Bool := x.task.any fun t => t.stopped.isSome || (t.parked && t.stopping.isNone)

/-- Tasks among cores, each counted once. -/
def State.countTasks (s : State) (cs : List Nat) : Nat :=
  (cs.filter fun c => (s.taskMembers c).head? == some c).length

/-- Is this the task that a record's number names? -/
def Task.isTask (t : Task) (fn wq rseq tseq : Nat) : Bool := t.fn == fn && t.wq == wq && t.rseq == rseq && t.tseq == tseq

/-! ### When a stop is complete -/

/-- A core's request is over: performed, or kept only because completions wait for the thaw (R126). -/
def State.reqOver (s : State) (id : Nat) : Bool :=
  match s.req id with
  | none => true
  | some r => r.phase == .answered || (r.phase == .acks && r.acks == [])

/-- Nothing of a core's task is on its way but vector results, multiply words, loads and what its copy sides have not
requested (R197, R269, R295, R346). -/
def State.settled (s : State) (c : Nat) : Bool :=
  let x := s.core c
  x.copy.xfers.all (fun f => f.reqs.all s.xferReqDone) && x.copy.wbs.all (fun w => s.reqOver w.1)
    && x.mat.infl.all (fun f => f.done || isMul f.instr)
    && x.copy.lines.all (fun l => l.state != .pending || (l.unsent != [] && l.reqs.all s.reqOver))
    && x.seq.stores.all (fun p => p.reqs.all s.reqOver) && x.seq.atomicReq.all s.reqOver
    && x.seq.landing.all (fun l => l.arrived || (match l.kind with
      | .load _ => true
      | _ => false))
    && s.addendsDone c && !s.reqs.any fun r => r.src == .arm c

/-- Every word that the engines issued is complete. -/
def Core.wordsOver (x : Core) : Bool :=
  x.copy.xfers == [] && x.vec.own.infl == [] && x.mat.infl == []
    && x.queues.all fun q => q.all fun k => !k.ctx.any fun v => v.infl != []

/-- The sequencer stands at an instruction boundary with its landings dropped. -/
def Core.atBoundary (x : Core) : Bool :=
  x.seq.occ == 0 && x.seq.landing == [] && x.seq.pendTrap.isNone && x.seq.ld == 0 && x.seq.st == 0
    && (x.seq.halted || x.task.any fun t => t.finished || t.parked)

/-- A slot of the task's residual area is VALID. -/
def Core.hasSlots (x : Core) : Bool := x.res.tags.any fun p => p.2.valid

/-- Table Stop depths; a drain stop first delivers the residuals. -/
def State.stopDue (s : State) (c : Nat) : Bool :=
  let x := s.core c
  match x.task with
  | none => false
  | some t =>
    if (s.taskMembers c).all fun m => (s.core m).task.any (·.finished) then false
    else
      match t.parked, t.stopping with
      | _, none => false
      | _, some 2 => s.settled c
      | true, some _ => x.wordsOver && x.atBoundary && s.settled c && !x.queues.any fun q => q.any (·.started)
      | false, some 0 => x.wordsOver && x.atBoundary && x.queuesEmpty && x.noSignals && (x.hasSlots || s.settled c)
      | false, some _ => x.wordsOver && x.atBoundary && s.settled c

/-- Every task of a function counts as stopped, and no lookup of one is in progress. -/
def State.allStopped (s : State) (fn : Nat) : Bool :=
  (s.residents fn).all (fun c => (s.core c).halts) && !s.dies.any fun p => p.2.lookup.any fun l => l.task.fn == fn

/-- R338, R348: the quiesce point of a function. -/
def State.quiesce (s : State) (fn : Nat) : State := s.updFn fn fun f => { f with quiesced := true, lastQuiesce := s.wall }

/-- R384: the function of an interface in ERROR is at its quiesce point when the last of its tasks has stopped. -/
def State.errorQuiesce (s : State) (fn : Nat) : State :=
  let f := s.fn fn
  if f.tdisp = .error ∧ f.suspended ∧ !f.quiesced ∧ s.allStopped fn then s.quiesce fn else s

/-- STOP_COMPLETE (R346, R348): the monitor is fired and the lease given up. A parked task has no more to stop. -/
def canStopComplete (core : Nat) (s : State) : Bool :=
  (s.core core).task.any (fun t => t.stopped.isNone) && s.stopDue core

def execStopComplete (core : Nat) (s : State) : Result :=
  .next (if canStopComplete core s then
      if (s.core core).task.any (fun t => t.stopping == some 0 && !t.parked) ∧ (s.core core).hasSlots then s.deliverAll core
      else
        let s := if (s.core core).task.any fun t => t.stopping == some 2 then s.recordStop core else s
        let s := s.unmonitor core
        -- R363: a thermal stop leaves each lease to its holder
        let s := (if (s.core core).freezes.contains .heat then s else s.dropLease core).updTask core fun t =>
          { t with
            stopped := if t.parked then none else t.stopping
            stopping := none
            stopBy := none
            stoppedAt := s.wall }
        -- R268: the engine stands at a tile boundary
        let s := if (s.core core).task.any fun t => t.stopped == some 1 then
            s.updCore core fun x => { x with mat := { x.mat with tstop := true } } else s
        match (s.core core).task with
        | some t => s.errorQuiesce t.fn
        | none => s
    else s)

/-- STOP_DEADLINE_EXPIRY (R347): the task, whose drain or tile stop is not complete in time, is frozen at once. -/
def canStopDeadlineExpiry (core : Nat) (s : State) : Bool :=
  (s.core core).task.any fun t => t.stopped.isNone && t.stopping.any (· < 2) && t.stopBy.any (· ≤ s.wall)

def State.freezeStops (s : State) : List Nat → State
  | [] => s
  | c :: cs => (if (s.core c).task.any fun t => t.stopping.isSome && t.stopped.isNone then s.freezeStop c else s).freezeStops cs

def execStopDeadlineExpiry (core : Nat) (s : State) : Result :=
  .next (if canStopDeadlineExpiry core s then s.freezeStops (s.taskMembers core) else s)

/-! ### PREEMPT -/

/-- R347: a deadline, or the function's default for 0, clamped. -/
def State.stopTime (s : State) (fn deadline : Nat) : Nat :=
  s.wall + Nat.min 1048576 (if deadline = 0 then (s.fn fn).deadline else deadline)

/-- Dispatch of a function is suspended and the stop of all its tasks begins. -/
def State.stopAll (s : State) (fn depth deadline : Nat) : State :=
  (s.updFn fn fun f => { f with suspended := true }).beginStops depth
    (if depth = 2 then none else some (s.stopTime fn deadline)) (s.residents fn)

/-- R365: the pending counters are added into the meters. -/
def Func.fold (f : Func) : Func :=
  { f with meters := (f.meters.zip f.pending).map fun (p : Nat × Nat) => p.1 + p.2, pending := List.replicate 16 0 }

/-- DEPTH 3: dispatch is released, and the quiesced state ends (R346). -/
def State.releaseFn (s : State) (fn : Nat) : State :=
  s.updFn fn fun f => { f.fold with suspended := false, quiesced := false }

/-- Operands of PREEMPT (R342): function, core of ONE, depth, deadline. -/
def preemptArgs (a b : Nat) : Option (Nat × Option Nat × Nat × Nat) :=
  let one := bits a 8 1 == 1
  if !sliceFn (bits a 0 8) || bits a 9 3 != 0 || a / 2 ^ 21 != 0 || bits b 2 6 != 0
      || (if one then 24 ≤ bits a 16 5 else bits a 12 9 != 0) then none
  else some (bits a 0 8, if one then some (24 * bits a 12 4 + bits a 16 5) else none, bits b 0 2, b / 256)

/-- PREEMPT (R346): phase 1 waits until every targeted task has stopped. For ONE the task's numbers stand in `sweep`. -/
def execPreempt (a b : Src) (d : Dest) (s : State) : Result :=
  .next (s.sysWord [a, b] fun s =>
    let done (s : State) (st v : Nat) : State := s.sysDone [a, b] d st v
    match preemptArgs (s.opd a).toNat (s.opd b).toNat with
    | none => done s 0x04 0
    | some (fn, one, depth, deadline) =>
      if !(s.fn fn).bound then done s 0x01 0
      else if depth = 3 then done (s.releaseFn fn) 0 0
      else
        match one with
        | some c =>
          if (s.quad (quadOf c)).owner ≠ some fn then done s 0x03 0
          else
            match (s.core c).task with
            | none => done s 0 0
            | some t =>
              let q := s.seq s.cur.core
              if q.phase = 0 then
                let s := s.beginStops depth (if depth = 2 then none else some (s.stopTime fn deadline)) t.members
                (s.updSeq s.cur.core fun q => { q with sweep := [t.wq, t.rseq, t.tseq] }).sysPhase 1
              else if q.sweep ≠ [t.wq, t.rseq, t.tseq] then done s 0 0
              else if t.members.all fun m => (s.core m).halts then done s 0 1
              else s.sysWait
        | none =>
          if (s.seq s.cur.core).phase = 0 then (s.stopAll fn depth deadline).sysPhase 1
          else if s.allStopped fn then done (s.quiesce fn) 0 (s.countTasks (s.residents fn))
          else s.sysWait)

end Sys2Proof.Machine
end

