-- ==== Sys2Proof/Machine/Parking.lean ====
section
/-! DEFINITION. Tasks that end before their TEND (R359), the hang watchdog (R364), parking and resuming work queues
(R356 to R359, QPARK, QRESUME), and thermal and power limits (R362, R363). -/

namespace Sys2Proof.Machine

open Sys2Proof

/-! ## Ending a task (R359 ACT 3) -/

/-- Requests of a task that has ended, other than its addends and its lines': they are performed, and no one takes their
answers. -/
def ReqSrc.endsWith (c : Nat) : ReqSrc → Bool
  | .land k _ | .store k _ | .atomic k _ _ _ | .arm k | .copyRead k _ _ | .copyWrite k _ => k == c
  | _ => false

/-- Addends on their way are the Derailleur's from now on: each is applied once (R298). -/
def Req.adopt (c : Nat) (r : Req) : Req :=
  match r.src with
  | .addend k _ => if k = c then { r with src := .addend derailleur none } else r
  | _ => r

def State.adopt (s : State) (c : Nat) : State := { s with reqs := s.reqs.map (Req.adopt c) }

/-- A resident task ends on one of its cores: residuals are delivered, lines written back, claims and rows released. -/
def State.endCore (s : State) (t : Task) (c : Nat) : State :=
  ((((s.deliverAll c).writeBackAll c).orphan (ReqSrc.endsWith c)).adopt c).clearCore c t

def State.endCores (s : State) (t : Task) : List Nat → State
  | [] => s
  | c :: cs => (s.endCore t c).endCores t cs

/-- The evicted rows of a task are discarded. -/
def State.dropEvicted (s : State) (fn : Nat) (o : Row) : State :=
  s.updFn fn fun f => { f with evicted := f.evicted.filter fun (e : Evicted) => !sameOwner e.owner o }

/-- The like for a task that is not resident. -/
def State.endSaved (s : State) (v : Saved) : State :=
  let t := v.task
  let s := (List.range 64).foldl (fun s i => s.deliverSaved v.place v false i) s
  let s := s.writeBackList v.place 0 ((s.core v.place).dirtyLines.filter fun l => l.fn == t.fn)
  let s := (s.markRows (quadOf v.place) t.row .released).dropEvicted t.fn t.row
  s.updFn t.fn fun f => { f with away := f.away.filter fun w => w != v }

def State.endAllSaved (s : State) : List Saved → State
  | [] => s
  | v :: vs => (s.endSaved v).endAllSaved vs

/-- Cores of a task, and what of it is not resident. -/
def State.coresOf (s : State) (fn wq rseq tseq : Nat) : List Nat :=
  (s.cores.filter fun (p : Nat × Core) => p.2.task.any fun t => t.isTask fn wq rseq tseq).map (·.1)

def State.awayOf (s : State) (fn wq rseq tseq : Nat) : List Saved :=
  (s.fn fn).away.filter fun v => v.task.isTask fn wq rseq tseq

/-- Arrivals of an ended task at barriers are forgotten. -/
def Barrier.without (cs : List Nat) (b : Barrier) : Barrier := { b with cores := b.cores.filter fun c => !cs.contains c }

/-- A task ends: no further task of its record is dispatched, and the record completes with status 0x04 once its other
tasks are complete. -/
def State.endTaskOf (s : State) (fn wq rseq tseq : Nat) : State :=
  let cs := s.coresOf fn wq rseq tseq
  let vs := s.awayOf fn wq rseq tseq
  let s := match cs.head?.bind fun c => (s.core c).task with
    | some t => s.endCores t cs
    | none => s
  let s := s.endAllSaved vs
  let s := s.updWq fn wq fun w => { w with redo := w.redo.filter fun t => !t.isTask fn wq rseq tseq }
  let s := s.updFn fn fun f =>
    { f with barriers := (f.barriers.map (Barrier.without (cs ++ vs.map (·.place)))).filter fun b => b.cores != [] }
  let s := s.updRecord fn wq rseq fun r => { r with ended := true, drained := true }
  s.taskOver fn wq rseq tseq

/-! ## The hang watchdog (R364) -/

/-- The limit in cycles. -/
def Func.dogLimit (f : Func) : Nat := (if f.dog = 0 then 2 ^ 32 else f.dog.toNat) * 65536

def canHangWatchdogExpiry (core : Nat) (s : State) : Bool :=
  match (s.core core).task with
  | none => false
  | some t =>
    t.members.head? == some core
      && t.members.all fun m => (s.core m).task.any fun w =>
        !w.parked && !w.finished && w.stopped.isNone && decide ((s.fn t.fn).dogLimit ≤ w.wd)

/-- HANG_WATCHDOG_EXPIRY: the task ends, and its queue parks with cause 0x21, unit 6. -/
def execHangWatchdogExpiry (core : Nat) (s : State) : Result :=
  .next (if canHangWatchdogExpiry core s then
      match (s.core core).task with
      | none => s
      | some t =>
        ((s.endTaskOf t.fn t.wq t.rseq t.tseq).presentPark t.fn t.wq
          ⟨core, parkWords (parkHeader 0x21 6 false core) t.rseq t.tseq [], none⟩).telemeter t.fn 37 1
    else s)

/-! ## QPARK (R356) -/

/-- A task freezes where it stands and parks; its monitor is fired and its lease passes. -/
def State.parkFrozen (s : State) (f : Freeze) (c : Nat) : State :=
  (((s.freeze c f).freezeMat c).updTask c fun t => { t with parked := true }).unmonitor c |>.dropLease c

def State.parkFrozens (s : State) (f : Freeze) : List Nat → State
  | [] => s
  | c :: cs => (s.parkFrozen f c).parkFrozens f cs

/-- Cores of a queue's tasks that are not parked yet. -/
def State.queueCores (s : State) (fn wq : Nat) : List Nat :=
  (s.cores.filter fun (p : Nat × Core) => p.2.task.any fun t => t.fn == fn && t.wq == wq && !t.parked).map (·.1)

def Saved.parkAway (wq : Nat) (v : Saved) : Saved :=
  if v.task.wq = wq ∧ !v.task.parked then
    { v with task := { v.task with parked := true }, core := { v.core with freezes := .park :: v.core.freezes } }
  else v

/-- The marker of a park of a whole queue by QPARK; 400 + d marks a thermal stop of die d. -/
def parkAll : Nat := 386

/-- Every task of the queue freezes and parks under one record (cause, marker, UREC). -/
def State.parkQueue (s : State) (fn wq : Nat) (f : Freeze) (cs : List Nat) (cause marker : Nat) (urec : List Dbl) : State :=
  (s.parkFrozens f cs).presentPark fn wq ⟨marker, parkWords (parkHeader cause 5 false derailleur) 0 0 urec, none⟩

/-- QPARK: function in bits 7:0, queue in bits 10:8. -/
def execQpark (a : Src) (d : Dest) (s : State) : Result :=
  .next (s.sysWord [a] fun s =>
    let v := (s.opd a).toNat
    let fn := bits v 0 8
    let wq := bits v 8 3
    if !sliceFn fn || v / 2 ^ 11 != 0 then s.sysDone [a] d 0x04 0
    else if !(s.fn fn).bound then s.sysDone [a] d 0x01 0
    else
      let cs := s.queueCores fn wq
      let n := s.countTasks cs
      let s := s.parkQueue fn wq .park cs 0x22 parkAll []
      (s.updFn fn fun f => { f with away := f.away.map (Saved.parkAway wq) }).sysDone [a] d 0 n)

/-! ## Resuming (R359) -/

/-- Commands come back unfaulted, without translations, in the core's present epoch (R80, R187). -/
def Cmd.again (epoch : Bool) (k : Cmd) : Cmd := { k.renew epoch with faulted := false, fetchFault := none }

/-- What the resume of a parked task changes on a core: it thaws, its engines try their words anew, and an `SVC`
completes with the value given (R155). -/
def Core.resumed (x : Core) (value : Option (Dbl × Dest)) : Core :=
  let queues := x.queues.map fun l => l.map (Cmd.again x.epoch)
  let n := (queues.map (·.length)).sum
  let x := { x with
    task := x.task.map fun (t : Task) => { t with parked := false }
    queues := queues
    copy := { x.copy with faultL := none, faultS := none }
    vec := { x.vec with fault := none }
    mat := { x.mat with fault := none, gangWait := none, tstop := false }
    freezes := x.freezes.filter Freeze.ofDie
    inflight0 := if x.epoch then 0 else n
    inflight1 := if x.epoch then n else 0 }
  match x.seq.occWid with
  | some w => if x.seq.occ = 0 then
      ({ x with seq := { x.seq.writeOpt value with occWid := none } } : Core).completeWord .seq w
    else x
  | none => x

/-- A load whose data came poisoned is read again; another poisoned landing drops what was read. -/
def Landing.retry (l : Landing) : Landing :=
  match l.kind with
  | .load _ => if l.poison then { l with poison := false, arrived := false } else l
  | _ => { l with poison := false }

def State.rereads_ (s : State) (c : Nat) (t : Task) (ls : List Landing) : State :=
  let s := s.updSeq c fun q => { q with landing := q.landing.map Landing.retry }
  (ls.filter (·.poison)).foldl (fun s l => s.rereadLanding c t l.retry) s

/-- A core of a parked task resumes. A stop that was in progress goes on as a freeze stop. -/
def State.resumeCore (s : State) (value : Option (Dbl × Dest)) (c : Nat) : State :=
  match (s.core c).task with
  | none => s
  | some t =>
    let ls := (s.core c).seq.landing
    let s := s.updCore c fun x => x.resumed value
    let s := ((s.rereadXfers c (s.core c).copy.xfers).refills c t).rereads_ c t ls
    if t.stopping.isSome then s.freezeStop c else s

def State.resumeCores (s : State) (value : Option (Dbl × Dest)) : List Nat → State
  | [] => s
  | c :: cs => (s.resumeCore value c).resumeCores value cs

def Saved.resumed (value : Option (Dbl × Dest)) (v : Saved) : Saved :=
  { v with task := { v.task with parked := false }, core := v.core.resumed value }

/-- Cores of a task that are parked or stand frozen by a fault. -/
def State.parkedCores (s : State) (cs : List Nat) : List Nat :=
  cs.filter fun c => (s.core c).task.any (·.parked)

/-- The parked task of a record resumes. -/
def State.resumeTask (s : State) (fn wq rseq tseq : Nat) (value : Option (Dbl × Dest)) : State :=
  let s := s.resumeCores value (s.parkedCores (s.coresOf fn wq rseq tseq))
  let one (v : Saved) : Saved := if v.task.isTask fn wq rseq tseq ∧ v.task.parked then v.resumed value else v
  s.updFn fn fun f => { f with away := f.away.map one }

/-- Tasks that a park of a whole queue froze: on every core or on those of one die. -/
def State.frozenBy (s : State) (fn wq : Nat) (f : Freeze) (p : Nat → Bool) : List Nat :=
  (s.cores.filter fun (q : Nat × Core) => p q.1 && q.2.freezes.contains f
    && q.2.task.any fun t => t.fn == fn && t.wq == wq && t.parked).map (·.1)

/-- The tasks of cores resume, or end. -/
def State.resumeMany (s : State) (act : Nat) : List Nat → State
  | [] => s
  | c :: cs =>
    (match (s.core c).task with
      | none => s
      | some t => if act = 3 then s.endTaskOf t.fn t.wq t.rseq t.tseq else s.resumeCore none c).resumeMany act cs

def State.resumeAway (s : State) (act : Nat) : List Saved → State
  | [] => s
  | v :: vs =>
    let t := v.task
    (if act = 3 then s.endTaskOf t.fn t.wq t.rseq t.tseq
      else s.updFn t.fn fun f => { f with away := f.away.map fun w => if w == v then w.resumed none else w }).resumeAway act vs

/-- What the action does for the park that was presented. -/
def State.resumePark (s : State) (fn wq act : Nat) (b : Dbl) (p : Park) : State :=
  let rseq := (p.words.getD 1 0).toNat
  let tseq := (p.words.getD 2 0).toNat
  if p.core = 385 then
    if act = 3 then
      (s.updRecord fn wq rseq fun r => { r with ended := true, drained := true }).checkRecord fn wq rseq
    else s
  else if p.core = parkAll then
    (s.resumeMany act (s.frozenBy fn wq .park fun _ => true)).resumeAway act
      ((s.fn fn).away.filter fun v => v.task.wq == wq && v.task.parked && v.core.freezes.contains .park)
  else if 400 ≤ p.core then s.resumeMany act (s.frozenBy fn wq .heat fun c => dieOf c == p.core - 400)
  else if act = 3 then s.endTaskOf fn wq rseq tseq
  else s.resumeTask fn wq rseq tseq (if act = 2 then p.svc.map fun d => (b, d) else none)

/-- The next park record of a queue is presented. -/
def State.presentNext (s : State) (fn wq : Nat) : State :=
  match (s.wq fn wq).parks with
  | [] => s.updWq fn wq fun w => { w with park := false }
  | p :: _ =>
    (s.updWq fn wq fun w => { w with park := true, pkrec := p.words }).msix fn wq

/-- A parked queue resumes with an action. -/
def State.resumeQueue (s : State) (fn wq act : Nat) (b : Dbl) : State :=
  match (s.wq fn wq).parks with
  | [] => (s.updWq fn wq fun w => { w with park := false }).checkRecords fn wq
  | p :: rest =>
    (((s.updWq fn wq fun w => { w with park := false, parks := rest }).resumePark fn wq act b p).presentNext fn wq).checkRecords
      fn wq

/-- Status of a resume: 0x02 for a queue that is not parked, 0x05 during a migration. -/
def State.resumeStatus (s : State) (fn wq : Nat) : Nat :=
  if !(s.fn fn).bound then 0x01 else if !(s.wq fn wq).park then 0x02 else if (s.fn fn).migrating then 0x05 else 0

/-- QRESUME: function, queue in bits 10:8, ACT in bits 13:12. -/
def execQresume (a b : Src) (d : Dest) (s : State) : Result :=
  .next (s.sysWord [a, b] fun s =>
    let v := (s.opd a).toNat
    let fn := bits v 0 8
    let wq := bits v 8 3
    let act := bits v 12 2
    let bv := s.opd b
    if !sliceFn fn || bits v 11 1 != 0 || v / 2 ^ 14 != 0 || act = 0 then s.sysDone [a, b] d 0x04 0
    else
      let st := s.resumeStatus fn wq
      (if st = 0 then s.resumeQueue fn wq act bv else s).sysDone [a, b] d st 0)

/-! ## Thermal and power limits (R362, R363) -/

/-- At 100 °C the die's duty begins to be halved. -/
def canThermalThrottle (die : Nat) (s : State) : Bool := !(s.die die).hot

def execThermalThrottle (die : Nat) (s : State) : Result :=
  .next (if canThermalThrottle die s then s.updDie die fun d => { d with hot := true } else s)

/-- Every 85,000 clk above the limit the duty is halved. -/
def canThermalDutyStep (die : Nat) (s : State) : Bool := (s.die die).hot && !(s.die die).tstop

def execThermalDutyStep (die : Nat) (s : State) : Result :=
  .next (if canThermalDutyStep die s then s.updDie die fun d => { d with duty := d.duty / 2 } else s)

/-- Cores of a die. -/
def dieCores (d : Nat) : List Nat := (List.range 24).map (24 * d + ·)

/-- Queues with a task resident on a die that is not parked. -/
def State.dieQueues (s : State) (d : Nat) : List (Nat × Nat) :=
  ((dieCores d).filterMap fun c => ((s.core c).task.bind fun t => if t.parked then none else some (t.fn, t.wq))).eraseDups

def State.freezeAll (s : State) (f : Freeze) : List Nat → State
  | [] => s
  | c :: cs => (s.freeze c f).freezeAll f cs

/-- A thermally stopped task stops at freeze depth and parks; each lease is kept (R363). -/
def State.heatStop (s : State) (c : Nat) : State :=
  (((s.freeze c .heat).updTask c fun t =>
    if t.stopped.isSome then t else { t with parked := true, stopping := some 2, stopBy := none }).freezeMat c).unmonitor c

def State.heatStops (s : State) : List Nat → State
  | [] => s
  | c :: cs => (if (s.core c).task.any fun t => !t.parked then s.heatStop c else s).heatStops cs

def State.heatParks (s : State) (d : Nat) : List (Nat × Nat) → State
  | [] => s
  | (fn, wq) :: r =>
    (s.presentPark fn wq ⟨400 + d, parkWords (parkHeader 0x20 5 false derailleur) 0 0 [dbl (0x100 + d)], none⟩).heatParks d r

/-- THERMAL_STOP at 110 °C: every core of the die freezes, its tasks stop at freeze depth and their queues park. -/
def canThermalStop (die : Nat) (s : State) : Bool := !(s.die die).tstop

def execThermalStop (die : Nat) (s : State) : Result :=
  .next (if canThermalStop die s then
      let qs := s.dieQueues die
      let s := (s.freezeAll .thermal (dieCores die)).heatStops (dieCores die)
      (s.heatParks die qs).updDie die fun d => { d with tstop := true, hot := true }
    else s)

/-- THERMAL_RECOVER: the junction is below 97 °C. -/
def canThermalRecover (die : Nat) (s : State) : Bool := (s.die die).hot

def State.thawAll (s : State) (f : Freeze) : List Nat → State
  | [] => s
  | c :: cs => (s.thaw c f).thawAll f cs

def execThermalRecover (die : Nat) (s : State) : Result :=
  .next (if canThermalRecover die s then
      (s.thawAll .thermal (dieCores die)).updDie die fun d => { d with hot := false, tstop := false, duty := 65536 }
    else s)

/-- POWER_LIMIT_FREEZE: a core of the die freezes for some cycles, or goes on (R362). Counter 38 counts the cycles. -/
def canPowerLimitFreeze (die core : Nat) (on : Bool) (s : State) : Bool :=
  (s.core (24 * die + core)).freezes.contains .throttle != on

def State.throttledFn (s : State) (c n : Nat) : State :=
  match (s.core c).task with
  | none => s
  | some t => (s.telemeter t.fn 38 n).updFn t.fn fun f => { f with throttled := true, throttledAt := s.wall }

def execPowerLimitFreeze (die core : Nat) (on : Bool) (s : State) : Result :=
  .next (if canPowerLimitFreeze die core on s then
      let c := 24 * die + core
      if on then (s.freeze c .throttle).throttledFn c 1 else (s.thaw c .throttle).throttledFn c s.freeNat |>.useFree
    else s)

/-- Functions with a request on its way. -/
def State.busyFns (s : State) : List Nat :=
  (s.fns.filter fun (p : Nat × Func) => p.2.bound && s.reqs.any fun r => r.fn == p.1).map (·.1)

/-- What the shares held back in a window, cycle by cycle, is not modelled: the counts are free. -/
def State.shareOut (s : State) : List Nat → State
  | [] => s
  | fn :: fs =>
    let n := s.freeNat
    let held (f : Func) : Func := if n = 0 then f else { f with throttled := true, throttledAt := s.wall }
    (((s.updFn fn held).telemeter fn 38 n).useFree).shareOut fs

/-- SHARE_WINDOW: a window of 256 clk of a shared resource ends (R362). -/
def canShareWindow (s : State) : Bool := s.busyFns != []

def execShareWindow (_res : ShareRes) (s : State) : Result := .next (if canShareWindow s then s.shareOut s.busyFns else s)

end Sys2Proof.Machine
end

