-- ==== Sys2Proof/Machine/Save.lean ====
section
/-! DEFINITION. Snapshot blocks (R156, R196, R229, R270, R300), the save area (R349), and the words SNAPRD, SPILL and
RESTORE (R349 to R351). A field whose value the model does not hold (cycles left of a vector word) is a free value. A
restore takes every field of a block that differs from what was saved (entry 54). -/

namespace Sys2Proof.Machine

open Sys2Proof

/-! ## Packing -/

/-- A double from fields: first bit, length, value. -/
def packDbl (l : List (Nat × Nat × Nat)) : List Byte :=
  leBytes 8 ((l.map fun (p : Nat × Nat × Nat) => p.2.2 % 2 ^ p.2.1 * 2 ^ p.1).sum)

def bitNat (b : Bool) : Nat := if b then 1 else 0

/-- A string of exactly n bytes: what is missing is reserved and zero. -/
def padTo (n : Nat) (bs : List Byte) : List Byte := bs.take n ++ List.replicate (n - bs.length) 0

def dblBytes (l : List Dbl) : List Byte := l.flatMap fun v => leBytes 8 v.toNat

/-- Header of a block: version 0x01, unit, length. -/
def blockHdr (unit len : Nat) : List Byte := packDbl [(0, 8, 1), (8, 8, unit), (16, 32, len)]

/-! ## The sequencer's block (R156) -/

def destND : Dest → Nat
  | .belt => 0
  | .named _ => 1

def destDK : Dest → Nat
  | .belt => 0
  | .named k => k.toNat

/-- SZ codes of LD (R131). -/
def ldSzNum : LdSz → Nat
  | .z8 => 0
  | .s8 => 1
  | .z16 => 2
  | .s16 => 3
  | .z32 => 4
  | .s32 => 5
  | .d64 => 6

/-- SZ and data of a landing entry: an atomic's answer is held as the double that will drop. -/
def Landing.saved (l : Landing) : Nat × Nat :=
  match l.kind with
  | .load sz => (ldSzNum sz, l.data.toNat % 2 ^ 64)
  | _ => (6, if l.arrived then l.value.toNat else 0)

def Landing.bytes (cyc : Nat) (l : Landing) : List Byte :=
  leBytes 8 l.addr.toNat ++ leBytes 8 l.saved.2
    ++ packDbl [(0, 8, l.due - cyc), (8, 3, l.saved.1), (11, 1, bitNat l.arrived), (12, 1, 1), (13, 1, destND l.dest),
      (14, 4, destDK l.dest)]

def LoopLevel.bytes (l : LoopLevel) : List Byte :=
  leBytes 8 l.start.toNat ++ leBytes 8 l.last.toNat ++ packDbl [(0, 32, l.base), (32, 32, l.iter)]
    ++ packDbl [(0, 32, l.limit), (32, 3, l.stages - 1), (35, 6, l.epl), (41, 1, bitNat l.clamp), (42, 1, bitNat l.epi),
      (43, 1, bitNat l.dexit), (44, 1, 1), (45, 1, bitNat l.th), (46, 8, l.cd), (54, 6, l.plen)]

/-- The ten token counts. -/
def Core.tokenBytes (x : Core) : List Byte := packDbl ((List.range 10).map fun i => (4 * i, 4, x.token i))

def Core.seqBlock (x : Core) : List Byte :=
  let q := x.seq
  let f := x.flow .seq
  padTo 0x200 (blockHdr 1 0x400 ++ leBytes 8 q.pc.toNat ++ dblBytes q.belt ++ dblBytes q.named ++ dblBytes q.shadow
    ++ packDbl [(0, 12, q.xstat), (16, 16, q.released.toNat)] ++ leBytes 8 q.tvec.toNat
    ++ dblBytes [q.xpc, q.xcause, q.xaddr, q.xword, q.xinfo] ++ leBytes 8 q.cyc ++ leBytes 8 q.ocnt ++ leBytes 8 q.errc
    ++ x.tokenBytes
    ++ packDbl [(0, 8, q.occ), (8, 1, bitNat q.pres.isSome), (9, 1, bitNat f.psp), (10, 1, bitNat f.psn), (12, 4, q.stall),
      (16, 1, (q.pres.map fun p => destND p.2).getD 0), (17, 4, (q.pres.map fun p => destDK p.2).getD 0)]
    ++ leBytes 8 ((q.pres.map fun p => p.1.toNat).getD 0))
  ++ padTo 0x80 (q.loops.reverse.flatMap LoopLevel.bytes) ++ padTo 0x180 (q.landing.flatMap (Landing.bytes q.cyc))

/-! ## Waits of the current words (HOLD of R196, R229 and R270) -/

/-- The word at a command's place, and the state in which it is current, in a domain that is not frozen. -/
def State.wordOf (s : State) (c : Nat) (e : Engine) (k : Cmd) : Option (Instr × State) :=
  if k.body.isNone || k.fetchFault.isSome then none
  else
    match (s.updCore c fun x => { x with freezes := [] }).cmdWord c e k with
    | .word i t => some (i, t)
    | .done _ => none

/-- R161: a transfer word that has room neither issues nor faults. -/
def State.copyWaits (t : State) (c : Nat) (e : Engine) (i : Instr) : Bool :=
  let r : Option Result :=
    match i with
    | .ldt ch xf rm sat len => some (execLdt ch xf rm sat len t)
    | .stt ch xf rm sat len => some (execStt ch xf rm sat len t)
    | .ldo ch side slot len => some (execLdo ch side slot len t)
    | .gth ch esz cnt => some (execGth ch esz cnt t)
    | .sct ch esz cnt => some (execSct ch esz cnt t)
    | .cvd w => some (execCvd w t)
    | .cvq w => some (execCvq w t)
    | .acc ch ty len => some (execAcc ch ty len t)
    | _ => none
  ((t.core c).sideXfers e).length < 16
    && (match r with
      | some (.next u) => u.nextId == t.nextId && (u.core c).freezes == []
      | _ => false)

/-- Source codes of a vector word, as far as they may name a port (R204). -/
def vecSources : Instr → List (BitVec 4)
  | .vadd _ a b .. | .vsub _ a b .. | .vmul _ a b .. | .vdiv _ a b .. | .vmin _ a b .. | .vmax _ a b .. | .vcmp _ a b ..
  | .vsel _ a b .. | .vand _ a b .. | .vor _ a b .. | .vxor _ a b .. | .vshl _ a b .. | .vshr _ a b .. | .vsar _ a b ..
  | .vperm _ a b .. | .vamul _ a b .. | .vdcmp _ a b .. | .vdq _ a b .. => [a, b]
  | .vfma _ a b c .. | .vfms _ a b c .. | .vfnma _ a b c .. => [a, b, c]
  | .vsqrt _ a .. | .vrcp _ a .. | .vrsq _ a .. | .vabs _ a .. | .vneg _ a .. | .vcvt _ a .. | .vrnd _ a .. | .vexp2 _ a ..
  | .vlog2 _ a .. | .vred _ a .. | .vscan _ a .. | .vbcast _ a .. | .vrot _ a .. | .vmov _ a .. | .vmovTab a | .msetV _ a
  | .vconj _ a .. | .vnorm _ a .. | .vcomp _ a .. | .vhad _ a .. | .vqnt _ a .. => [a]
  | _ => []

/-- R209: a port that the word reads waits for a w0 write. -/
def State.vecWaits (s : State) (c : Nat) (v : VCtx) (k : Cmd) (i : Instr) : Bool :=
  (portsOf (vecSources i)).any fun p => (s.core c).portHeld (v.portAddr k p) (v.pset p).lstr.toNat

/-- R257: the word waits for earlier ones. -/
def State.matWaits (t : State) (c : Nat) (k : Cmd) (i : Instr) : Bool :=
  let m := (t.core c).mat
  let plane (p : BitVec 3) : Byte := BitVec.twoPow 8 p.toNat
  match i with
  | .mma w => m.waitsFor (t.mulUse c w 8 false)
  | .mmas w k4 => m.waitsFor (t.mulUse c w (if k4 then 4 else 2) false)
  | .mmat w => m.waitsFor (t.mulUse c w 8 true)
  | .mzero p => m.waitsFor { MUse.none with wp := p }
  | .mfill w => m.waitsFor (fillUse w (k.fillRange w).1)
  | .mfillAcc pl _ => m.waitsFor { MUse.none with wp := plane pl }
  | .mout w _ => m.waitsFor { MUse.none with rp := plane w.pl }
  | .maccld w => m.waitsFor { MUse.none with wp := plane w.pl }
  | .mrel side mask => m.infl.any fun f => f.uses side mask
  | _ => false

/-- HOLD of an engine. -/
def State.holdBit (s : State) (c : Nat) (e : Engine) : Nat :=
  bitNat (match (s.core c).curCmd e with
    | none => false
    | some k =>
      match s.wordOf c e k with
      | none => false
      | some (i, t) =>
        match e with
        | .load | .store => t.copyWaits c e i
        | .vec => s.vecWaits c (s.core c).vec.own k i
        | .mat => t.matWaits c k i
        | .seq => false)

/-! ## The copy engine's block (R196) -/

def words32 (l : List Word) : List Byte := l.flatMap fun w => leBytes 4 w.toNat

def idxBytes (idx : List Nat) : List Byte := (List.range 6).flatMap fun d => leBytes 4 (idx.getD d 0)

/-- Position of an engine: slot and next word of its current command, and the iteration indices. -/
def Core.posBytes (x : Core) (e : Engine) (hold : Nat) (more : List (Nat × Nat × Nat)) : List Byte :=
  match x.curCmd e with
  | some k =>
    packDbl ([(0, 5, k.slot), (5, 6, k.pos), (11, 1, bitNat k.started), (12, 1, hold), (13, 1, bitNat k.fetchFault.isSome)] ++ more)
      ++ idxBytes k.idx
  | none => packDbl more ++ List.replicate 24 0

def FaultRec.bytes (r : Option FaultRec) : List Byte :=
  match r with
  | some r => dblBytes r.words
  | none => List.replicate 32 0

/-- Undelivered signals of a word in flight. -/
def Core.sigsOf (x : Core) (e : Engine) (wid : Nat) : Nat × Nat :=
  match (x.flow e).order.find? fun w => w.wid == wid with
  | some w => (bitNat w.sp, bitNat w.sn)
  | none => (0, 0)

/-- Bytes of a transfer's memory side, or of the source of a scratchpad conversion. -/
def Xfer.size (f : Xfer) : Nat :=
  match f.instr with
  | .ldt _ _ _ _ len | .stt _ _ _ _ len => len.nat
  | .ldo _ _ _ len | .acc _ _ len => len.nat
  | .gth _ esz cnt | .sct _ esz cnt => cnt.toNat * 2 ^ esz.toNat
  | .cvd w | .cvq w => w.len.toNat
  | _ => 0

/-- Is the word element-wise? -/
def Xfer.elem (f : Xfer) : Bool :=
  match f.instr with
  | .gth .. | .sct .. => true
  | _ => false

/-- The conversion of a transfer, where it makes one. -/
def Xfer.conv (f : Xfer) : Option Conv :=
  match f.instr with
  | .cvd w | .cvq w => some (cvConv w)
  | .ldt _ xf rm sat _ => let k := rowConv true f.attr (!isVirtual f.g0) xf rm sat; if k.plain then none else some k
  | .stt _ xf rm sat _ => let k := rowConv false f.attr (!isVirtual f.g0) xf rm sat; if k.plain then none else some k
  | _ => none

/-- Bytes not moved: those of the requests that have not left or not been answered, or all. -/
def State.remaining (s : State) (f : Xfer) : Nat :=
  match f.instr with
  | .cvd _ | .cvq _ => f.size
  | _ => if f.poison then f.size else (((f.reqs.filterMap s.req).filter fun r => r.phase != .answered) ++ f.unsent).map (·.len) |>.sum

/-- Scratchpad or slot address of a place of a transfer. -/
def Xfer.sideAt (f : Xfer) (o : Nat) : Nat :=
  match f.instr with
  | .ldo _ _ slot _ => slot.toNat * 65536 + f.g1 + o
  | .ldt .. => f.g1 + ((f.conv.map fun k => k.spadLen true o).getD o)
  | .stt .. => f.g1 + ((f.conv.map fun k => k.spadLen false o).getD o)
  | .cvd _ | .cvq _ => f.g1
  | _ => f.g1 + o

/-- A transfer entry. A scratchpad conversion has no memory side: its field is a free value. -/
def State.xferBytes (s : State) (c : Nat) (f : Xfer) (free : Nat) : List Byte :=
  let sig := (s.core c).sigsOf f.eng f.wid
  let left := s.remaining f
  let o := f.size - left
  let mem := match f.instr with
    | .cvd _ | .cvq _ => Config.freeNat free
    | _ => s.xferVa c f o
  let esz := match f.instr with
    | .gth _ esz _ | .sct _ esz _ => 2 ^ esz.toNat
    | _ => 1
  packDbl [(0, 32, f.ident.toNat), (32, 3, f.ch % 4), (35, 6, f.index), (41, 1, 1), (42, 1, bitNat f.elem), (43, 1, bitNat f.conv.isSome)]
    ++ leBytes 8 mem ++ packDbl [(0, 32, f.sideAt o), (32, 32, left)]
    ++ packDbl [(0, 16, if f.elem then o / esz else 0), (16, 1, sig.1), (17, 1, sig.2)]

/-- A fill entry: the halves of the block that have come, each of four granules. -/
def State.fillEntry (s : State) (c : Nat) (l : PLine) : List Byte :=
  let out := l.unsent ++ ((l.reqs.filterMap s.req).filter fun r => r.phase != .answered).map Req.half
  leBytes 8 (l.block * 256) ++ leBytes 8 l.phys
    ++ packDbl [(0, 32, l.slot), (32, 1, 1), (33, 1, bitNat ((s.core c).copy.wbs.any fun w => w.2.1 == l.block))]
    ++ packDbl [(0, 4, if out.contains 0 then 0 else 15), (4, 4, if out.contains 1 then 0 else 15)]

/-- Transfers of a side that are not finished. -/
def Core.openXfers (x : Core) (e : Engine) : List Xfer := (x.sideXfers e).filter fun f => !f.landed

def State.copyBlock (s : State) (c free : Nat) : List Byte :=
  let x := s.core c
  let side (e : Engine) (n : Nat) : List Byte :=
    padTo 512 (((x.openXfers e).zipIdx).flatMap fun (p : Xfer × Nat) => s.xferBytes c p.1 (free + n + p.2))
  padTo 0x100 (blockHdr 2 0x800 ++ words32 x.copy.nxt ++ words32 x.copy.xw
    ++ x.posBytes .load (s.holdBit c .load) [] ++ x.posBytes .store (s.holdBit c .store) []
    ++ FaultRec.bytes (x.copy.faultL.or x.copy.faultS))
  ++ side .load 0 ++ side .store 16
  ++ padTo 0x300 ((x.copy.lines.filter fun l => l.state == .pending).flatMap (s.fillEntry c))

/-! ## The vector engine's block (R229) -/

def PSet.bytes (p : PSet) : List Byte :=
  leBytes 4 p.base.toNat ++ leBytes 4 p.step.toNat ++ packDbl [(0, 16, p.lstr.toNat), (16, 2, p.gsel.toNat)]

def laneMask (keep : List Dbl) : Nat := (maskOf fun l => keep.getD l 0 != 0).toNat

/-- An entry of a word in flight. It has one destination and one result: of VCOMP and VQNT, which have two, it shows the
first operand's, and the destination code of a word without one (VMOV.clr, VMOV.tab) is 0: the manual does not say
(entry 74). -/
def Core.vinflBytes (x : Core) (f : VInfl) (free : Nat) : List Byte :=
  let w := f.writes.headD ⟨0, [], []⟩
  let s := x.sigsOf .vec f.wid
  let res := match f.mask with
    | some (_, m) => [m]
    | none => w.lanes
  padTo 576 (packDbl [(0, 4, w.code.toNat), (4, 2, (f.mask.map fun p => p.1.toNat).getD 0), (6, 1, 1),
      (7, 1, bitNat f.mask.isSome), (8, 4, Config.freeNat free), (12, 6, f.index), (18, 1, s.1), (19, 1, s.2)]
    ++ leBytes 8 (laneMask w.keep) ++ leBytes 4 f.addr ++ leBytes 4 f.flags.toNat ++ List.replicate 40 0
    ++ dblBytes res)

/-- A context: the engine's own, or that of a relocated command. -/
def Core.vctxBytes (x : Core) (v : VCtx) (k : Option Cmd) (hold free : Nat) : List Byte :=
  let k' := k.map fun k => (k.slot, k.pos, k.started, k.fetchFault.isSome, k.idx)
  let (slot, pos, act, fp, idx) := k'.getD (0, 0, false, false, [])
  padTo 0x200 (padTo 0x40 (packDbl [(0, 5, v.flags.toNat), (8, 1, bitNat act), (9, 1, hold), (10, 1, bitNat fp),
      (11, 5, slot), (16, 6, pos), (22, 2, Config.freeNat (free + 1))] ++ idxBytes idx)
    ++ ((List.range 4).flatMap fun p => packDbl [(0, 4, v.binds.getD p 0), (32, 32, (v.poss.getD p 0).toNat)])
    ++ dblBytes v.masks ++ v.vt.image ++ v.psets.flatMap PSet.bytes)
  ++ padTo 0x1000 (v.regs.flatMap dblBytes)
  ++ padTo 0x1B00 ((v.infl.zipIdx).flatMap fun (p : VInfl × Nat) => x.vinflBytes p.1 (free + 2 + p.2))

/-- The command that runs in a context of its own, if there is one. -/
def Core.relocated (x : Core) : Option (Cmd × VCtx) := (x.queue .vec).findSome? fun k => k.ctx.map fun v => (k, v)

/-- HOLD of the relocated command's context. -/
def State.relocHold (s : State) (c : Nat) (k : Cmd) (v : VCtx) : Nat :=
  bitNat (match s.wordOf c .vec k with
    | none => false
    | some (i, _) => s.vecWaits c v k i)

def State.vecBlock (s : State) (c free : Nat) : List Byte :=
  let x := s.core c
  padTo 0x40 (blockHdr 3 0x5A40) ++ x.vctxBytes x.vec.own (x.curCmd .vec) (s.holdBit c .vec) free
    ++ (match x.relocated with
      | some (k, v) => x.vctxBytes v (some k) (s.relocHold c k v) (free + 20)
      | none => List.replicate 0x2D00 0)

/-! ## The matrix engine's block (R270) -/

/-- The words of an entry, from the body of its command. -/
def Core.bodyWord (x : Core) (cmd index : Nat) : Nat :=
  match (x.queue .mat).find? fun k => k.uid == cmd with
  | some k => ((k.body.getD []).getD index 0).toNat
  | none => 0

def Core.slotOf (x : Core) (cmd : Nat) : Nat := (((x.queue .mat).find? fun k => k.uid == cmd).map (·.slot)).getD 0

def Core.minflBytes (x : Core) (f : MInfl) : List Byte :=
  let s := x.sigsOf .mat f.wid
  let ext (i : Nat) : Nat := let w := x.bodyWord f.cmd (f.index + i); if isExt (BitVec.ofNat 32 w) then w else 0
  packDbl [(0, 32, x.bodyWord f.cmd f.index), (32, 32, ext 1)]
    ++ packDbl [(0, 32, if ext 1 = 0 then 0 else ext 2), (32, 6, f.index), (38, 5, x.slotOf f.cmd), (43, 1, 1),
      (44, 1, bitNat f.gangWord), (45, 1, bitNat f.done), (46, 1, s.1), (47, 1, s.2)]
    ++ packDbl [(0, 32, f.elapsed), (32, 21, f.mbase)] ++ packDbl [(0, 21, f.abase), (21, 21, f.bbase), (42, 20, f.soff)]

/-- Partial block sums of the quad's cells, while a multiply word of the core is inside them. -/
def State.partialBytes (s : State) (c : Nat) : List Byte :=
  if (s.core c).mat.infl = [] then List.replicate 0x20000 0
  else (List.range 32768).flatMap fun i => leBytes 4 (tget (s.quad (quadOf c)).partials i 0).toNat

def State.matBlock (s : State) (c : Nat) : List Byte :=
  let x := s.core c
  let D := (((x.task.map (·.members)).getD [c]).headD c)
  padTo 0x80 (blockHdr 4 0x20400
    ++ x.posBytes .mat (s.holdBit c .mat) [(14, 1, bitNat x.mat.tstop), (15, 1, bitNat x.mat.keep), (16, 1, bitNat x.mat.waiting.isSome)]
    ++ leBytes 8 x.claimsDbl.toNat ++ leBytes 8 (s.planesDbl c).toNat ++ leBytes 8 (s.leaseReg c)
    ++ packDbl [(0, 16, (s.gangDbl c).toNat), (16, 5, strips (quadOf D) (quadOf c)), (21, 11, x.mat.steps)]
    ++ FaultRec.bytes x.mat.fault)
  ++ padTo 0x180 (x.mat.tabs.flatMap AlgTab.image) ++ padTo 0x200 (x.mat.infl.flatMap x.minflBytes) ++ s.partialBytes c

/-! ## The residual unit's block (R300) -/

def Core.tagBytes (x : Core) (i : Nat) : List Byte :=
  let t := x.resTag i
  if !t.valid && t.va == 0 && t.pa == 0 then List.replicate 24 0
  else
    packDbl [(0, 3, accCode t.ty), (3, 1, bitNat t.valid), (7, 50, t.va / 128)]
      ++ packDbl [(7, 45, t.pa / 128), (52, 12, if t.valid then Nat.min 4095 (x.slotAge i) else 0)] ++ packDbl [(0, 32, t.mask.toNat)]

def Core.resBlock (x : Core) : List Byte :=
  let m := x.mon.getD ⟨0, 0, false, false, 0⟩
  padTo 0x40 (blockHdr 5 0x640 ++ leBytes 8 m.addr.toNat ++ leBytes 8 m.value.toNat ++ packDbl [(1, 1, bitNat m.fired)])
    ++ (List.range 64).flatMap x.tagBytes

/-! ## The save area (R349) -/

/-- A unit's block, numbered as in its header. -/
def State.unitBlock (s : State) (c unit : Nat) : List Byte :=
  let x := s.core c
  match unit with
  | 1 => x.seqBlock
  | 2 => s.copyBlock c s.freeCtr
  | 3 => s.vecBlock c (s.freeCtr + 200)
  | 4 => s.matBlock c
  | _ => x.resBlock

/-- Depth reached: of a parked task, freeze where its domain is frozen, else tile (R348). -/
def Core.depth (x : Core) : Nat :=
  match x.task.bind (·.stopped) with
  | some d => d
  | none => if x.freezes.any Freeze.lasting then 2 else 1

def State.whoBytes (s : State) (c : Nat) (t : Task) : List Byte :=
  packDbl [(0, 8, t.fn), (8, 3, t.wq), (12, 4, dieOf c), (16, 5, c % 24), (22, 2, (s.core c).depth), (24, 1, bitNat t.parked),
    (25, 1, bitNat (t.gang != 0)), (28, 4, t.effPrio), (32, 1, bitNat ((s.fn t.fn).donations.any fun d => d.takes t))]

def State.areaBytes (s : State) (c : Nat) (t : Task) : List Byte :=
  padTo 0x80 (blockHdr 0 0x27100 ++ s.whoBytes c t ++ leBytes 8 (t.rseq % 2 ^ 48) ++ leBytes 8 (t.tseq % 2 ^ 32)
    ++ leBytes 8 t.stoppedAt
    ++ packDbl [(0, 8, (s.core c).spreq), (8, 1, bitNat (s.core c).resreq), (16, 32, (s.core c).mat.claimA.toNat)])
  ++ (List.range 5).flatMap fun u => s.unitBlock c (u + 1)

def areaLen : Nat := 0x27100

/-! ## Checks of RESTORE (R351) -/

/-- A double of memory. -/
def State.mem8 (s : State) (pa : Nat) : Nat := leNat (s.readPhys 1 pa 8)

/-- Bits of a double of a unit's block that are not reserved. -/
def seqAllowed (i : Nat) : Nat :=
  if i ≤ 49 then 2 ^ 64 - 1
  else if i = 50 then 0xFFFF0FFF
  else if i ≤ 57 ∨ i = 59 ∨ i = 62 then 2 ^ 64 - 1
  else if i = 58 then 0xFFFFF
  else if i = 60 then 2 ^ 40 - 1
  else if i = 61 then 0x1FF7FF
  else if i = 63 then 0
  else if i < 80 then if i % 4 = 3 then 2 ^ 60 - 1 else 2 ^ 64 - 1
  else if (i - 80) % 3 = 2 then 2 ^ 18 - 1 else 2 ^ 64 - 1

def copyAllowed (i : Nat) : Nat :=
  if i ≤ 8 then 2 ^ 64 - 1
  else if i = 9 ∨ i = 13 then 0x3FFF
  else if i ≤ 16 ∨ i = 18 ∨ i = 20 then 2 ^ 64 - 1
  else if i = 17 then 2 ^ 21 - 1
  else if i = 19 then 2 ^ 35 - 1
  else if i < 32 then 0
  else if i < 160 then
    match i % 4 with
    | 0 => 2 ^ 44 - 1
    | 3 => 2 ^ 18 - 1
    | _ => 2 ^ 64 - 1
  else if i < 220 then
    match i % 4 with
    | 2 => 2 ^ 34 - 1
    | 3 => 0xFF
    | _ => 2 ^ 64 - 1
  else 0

/-- Doubles of a table image (R237). -/
def imageAllowed (i : Nat) : Nat := if i = 0 then 0xFFFF else if i ≤ 5 then 2 ^ 64 - 1 else 0

def vctxAllowed (o : Nat) : Nat :=
  if o = 0 then 0xFFFF1F
  else if o ≤ 3 then 2 ^ 64 - 1
  else if o < 8 then 0
  else if o < 12 then 0xFFFFFFFF0000000F
  else if o < 16 then 2 ^ 64 - 1
  else if o < 24 then imageAllowed (o - 16)
  else if o < 56 then if o % 2 = 0 then 2 ^ 64 - 1 else 0x3FFFF
  else if o < 64 then 0
  else if o < 576 then 2 ^ 64 - 1
  else
    let k := (o - 576) % 72
    if k = 0 then 2 ^ 20 - 1 else if k = 1 then 2 ^ 64 - 1 else if k = 2 then 2 ^ 37 - 1 else if k < 8 then 0 else 2 ^ 64 - 1

def vecAllowed (i : Nat) : Nat := if i < 8 then 0 else vctxAllowed ((i - 8) % 1440)

def matAllowed (i : Nat) : Nat :=
  if i = 1 then 2 ^ 17 - 1
  else if i ≤ 5 then 2 ^ 64 - 1
  else if i = 6 then 0xFFFF
  else if i = 7 then 0x1FFFF007F
  else if i = 8 then 2 ^ 32 - 1
  else if i = 9 then 2 ^ 29 - 1
  else if i = 11 then 0xFFFF
  else if i ≤ 12 then 2 ^ 64 - 1
  else if i < 16 then 0
  else if i < 48 then imageAllowed (i % 8)
  else if i < 64 then 0
  else if i < 128 then
    match i % 4 with
    | 0 => 2 ^ 64 - 1
    | 1 => 2 ^ 48 - 1
    | 2 => 2 ^ 53 - 1
    | _ => 2 ^ 62 - 1
  else 2 ^ 64 - 1

def resAllowed (i : Nat) : Nat :=
  if i ≤ 2 then 2 ^ 64 - 1
  else if i = 3 then 3
  else if i < 8 then 0
  else
    match (i - 8) % 3 with
    | 0 => 2 ^ 57 - 1 - 0x70
    | 1 => 2 ^ 64 - 1 - 0x7F
    | _ => 2 ^ 32 - 1

/-- A unit's block in memory: its header is exact, and its reserved fields are zero. -/
def State.blockOk (s : State) (pa unit len : Nat) (allowed : Nat → Nat) : Bool :=
  s.readPhys 1 pa 8 == blockHdr unit len
    && (List.range (len / 8 - 1)).all fun i => s.mem8 (pa + 8 * (i + 1)) &&& allowed (i + 1) == s.mem8 (pa + 8 * (i + 1))

/-- Offsets of the five blocks in the save area. -/
def areaOff (unit : Nat) : Nat :=
  match unit with
  | 1 => 0x80
  | 2 => 0x480
  | 3 => 0xC80
  | 4 => 0x66C0
  | _ => 0x26AC0

def State.areaOk (s : State) (a : Nat) : Bool :=
  s.readPhys 1 a 8 == blockHdr 0 areaLen
    && s.blockOk (a + areaOff 1) 1 0x400 seqAllowed && s.blockOk (a + areaOff 2) 2 0x800 copyAllowed
    && s.blockOk (a + areaOff 3) 3 0x5A40 vecAllowed && s.blockOk (a + areaOff 4) 4 0x20400 matAllowed
    && s.blockOk (a + areaOff 5) 5 0x640 resAllowed

/-! ## Reading a save area -/

def State.memDbls (s : State) (pa n : Nat) : List Dbl := (List.range n).map fun i => dbl (s.mem8 (pa + 8 * i))

/-- A level of the loop stack; none where VALID is 0. -/
def State.readLevel (s : State) (pa : Nat) : Option LoopLevel :=
  let v := s.mem8 (pa + 24)
  let w := s.mem8 (pa + 16)
  if bits v 44 1 = 0 then none
  else some
    { start := dbl (s.mem8 pa), body := dbl (s.mem8 pa) + dbl (4 * bits v 54 6), last := dbl (s.mem8 (pa + 8))
      epl := bits v 35 6, stages := bits v 32 3 + 1, plen := bits v 54 6, base := bits w 0 32, iter := bits w 32 32
      limit := bits v 0 32, cd := bits v 46 8, th := bits v 45 1 == 1, clamp := bits v 41 1 == 1, epi := bits v 42 1 == 1
      dexit := bits v 43 1 == 1 }

/-- SZ of a landing entry. -/
def szOfNum (n : Nat) : LdSz := [LdSz.z8, .s8, .z16, .s16, .z32, .s32, .d64].getD n .d64

def destOf (nd dk : Nat) : Dest := if nd = 1 then .named (BitVec.ofNat 4 dk) else .belt

/-- A landing entry, in place of the one that was saved there; none where VALID is 0. An answer that is not a load's is
kept while the entry shows its value. -/
def State.readLanding (s : State) (pa cyc i : Nat) (pc : Dbl) (old : Option Landing) : Option Landing :=
  let v := s.mem8 (pa + 16)
  let d := s.mem8 (pa + 8)
  let new : Landing :=
    { id := s.nextId + i, pc := pc, kind := .load (szOfNum (bits v 8 3)), addr := dbl (s.mem8 pa), data := BitVec.ofNat 128 d, ok := true
      due := cyc + bits v 0 8, arrived := bits v 11 1 == 1, poison := false, dest := destOf (bits v 13 1) (bits v 14 4), wid := 0
      forward := [] }
  if bits v 12 1 = 0 then none
  else
    match old with
    | none => some new
    | some l =>
      let l' := { new with id := l.id, pc := l.pc, wid := l.wid, poison := l.poison && new.arrived, ok := l.ok }
      some (if l.saved == (bits v 8 3, d) && l.arrived == new.arrived then { l' with kind := l.kind, data := l.data } else l')

/-- Registers of the sequencer from its block. -/
def State.readSeq (s : State) (pa : Nat) (q : Seq) : Seq :=
  let st := s.mem8 (pa + 0x190)
  let cyc := s.mem8 (pa + 0x1C8)
  let n := s.mem8 (pa + 0x1D0)
  let v := s.mem8 (pa + 0x1E8)
  let pc := dbl (s.mem8 (pa + 8))
  { q with
    pc := pc
    belt := s.memDbls (pa + 0x10) 16
    named := s.memDbls (pa + 0x90) 16
    shadow := s.memDbls (pa + 0x110) 16
    released := BitVec.ofNat 16 (bits st 16 16)
    th := bits st 0 1 == 1
    cd := bits st 4 8
    tvec := dbl (s.mem8 (pa + 0x198))
    xpc := dbl (s.mem8 (pa + 0x1A0))
    xcause := dbl (s.mem8 (pa + 0x1A8))
    xaddr := dbl (s.mem8 (pa + 0x1B0))
    xword := dbl (s.mem8 (pa + 0x1B8))
    xinfo := dbl (s.mem8 (pa + 0x1C0))
    cyc := cyc
    ld := bits n 0 4
    st := bits n 4 4
    cp := bits n 8 6
    mt := bits n 14 6
    errc := s.mem8 (pa + 0x1D8)
    occ := bits v 0 8
    pres := if bits v 8 1 = 1 then some (dbl (s.mem8 (pa + 0x1F0)), destOf (bits v 16 1) (bits v 17 4)) else none
    stall := bits v 12 4
    loops := ((List.range 4).filterMap fun i => s.readLevel (pa + 0x200 + 32 * i)).reverse
    landing := (List.range 16).filterMap fun i => s.readLanding (pa + 0x280 + 24 * i) cyc i pc q.landing[i]?
    halted := false }

/-- Position of a command: the block's fields at their places in the double, and six indices after it. -/
def State.readPos (s : State) (pa at_ : Nat) (k : Cmd) : Cmd :=
  let v := s.mem8 pa
  if bits v at_ 5 ≠ k.slot then k
  else { k with
    pos := bits v (at_ + 5) 6
    idx := (List.range k.idx.length).map fun d => leNat (s.readPhys 1 (pa + 8 + 4 * d) 4) }

/-- The current command of an engine stands where its block says. -/
def Core.atPos (x : Core) (e : Engine) (f : Cmd → Cmd) : Core :=
  match x.curCmd e with
  | some k => x.updCmd e k.uid f
  | none => x

/-- A fault record that is pending. -/
def State.readFault (s : State) (pa : Nat) (r : Option FaultRec) : Option FaultRec :=
  r.map fun _ => ⟨dbl (s.mem8 pa), dbl (s.mem8 (pa + 8)), dbl (s.mem8 (pa + 16)), dbl (s.mem8 (pa + 24))⟩

/-- An entry of a vector word in flight (R229). -/
def State.readVinfl (s : State) (pa : Nat) (f : VInfl) : VInfl :=
  let v := s.mem8 pa
  let lanes := s.memDbls (pa + 64) 64
  let m := s.mem8 (pa + 8)
  let one (w : VWrite) : VWrite :=
    { code := BitVec.ofNat 4 v, lanes := lanes
      keep := if laneMask w.keep = m then w.keep else (List.range 64).map fun l => if bits m l 1 = 1 then BitVec.allOnes 64 else 0 }
  { f with
    writes := match f.mask, f.writes with
      | none, w :: ws => one w :: ws
      | _, ws => ws
    mask := f.mask.map fun _ => (BitVec.ofNat 2 (bits v 4 2), lanes.headD 0)
    index := bits v 12 6
    addr := bits (s.mem8 (pa + 16)) 0 32
    flags := BitVec.ofNat 5 (bits (s.mem8 (pa + 16)) 32 5) }

/-- An entry of a matrix word in flight (R270). -/
def State.readMinfl (s : State) (pa : Nat) (f : MInfl) : MInfl :=
  let v := s.mem8 (pa + 8)
  let e := s.mem8 (pa + 16)
  let a := s.mem8 (pa + 24)
  { f with
    index := bits v 32 6
    done := bits v 45 1 == 1
    elapsed := bits e 0 32
    mbase := bits e 32 21
    abase := bits a 0 21
    bbase := bits a 21 21
    soff := bits a 42 20 }

def State.readVec (s : State) (pa : Nat) (v : VCtx) : VCtx :=
  { v with
    flags := BitVec.ofNat 5 (s.mem8 pa)
    binds := (List.range 4).map fun p => bits (s.mem8 (pa + 0x40 + 8 * p)) 0 4
    poss := (List.range 4).map fun p => BitVec.ofNat 32 (bits (s.mem8 (pa + 0x40 + 8 * p)) 32 32)
    masks := s.memDbls (pa + 0x60) 4
    vt := algOfImage (s.readPhys 1 (pa + 0x80) 64)
    psets := (List.range 16).map fun i =>
      let a := s.mem8 (pa + 0xC0 + 16 * i)
      let b := s.mem8 (pa + 0xC8 + 16 * i)
      ⟨BitVec.ofNat 32 (bits a 0 32), BitVec.ofNat 32 (bits a 32 32), BitVec.ofNat 16 (bits b 0 16), BitVec.ofNat 2 (bits b 16 2)⟩
    regs := (List.range 8).map fun r => s.memDbls (pa + 0x200 + 512 * r) 64
    infl := v.infl.mapIdx fun i f => s.readVinfl (pa + 0x1200 + 576 * i) f }

def accOfCode (n : Nat) : AccTy :=
  match n with
  | 0 => .s64
  | 1 => .s32
  | 2 => .f64
  | 3 => .f32
  | 4 => .f16x2
  | _ => .bf16x2

/-- A residual slot's tag; its key is that of the task's function, and its intermediate address that saved. -/
def State.readTag (s : State) (pa cyc key ipa : Nat) : ResTag :=
  let a := s.mem8 pa
  let b := s.mem8 (pa + 8)
  ⟨bits a 3 1 == 1, bits a 7 50 * 128, bits b 7 45 * 128, accOfCode (bits a 0 3), BitVec.ofNat 32 (s.mem8 (pa + 16)),
    cyc - bits b 52 12, key, ipa⟩

/-- The positions of the engines' commands. -/
def State.readPositions (s : State) (a : Nat) (x : Core) : Core :=
  let cp := a + areaOff 2
  let vc := a + areaOff 3 + 0x40
  let x := x.atPos .load fun k => { s.readPos (cp + 0x48) 0 k with started := bits (s.mem8 (cp + 0x48)) 11 1 == 1 }
  let x := x.atPos .store fun k => { s.readPos (cp + 0x68) 0 k with started := bits (s.mem8 (cp + 0x68)) 11 1 == 1 }
  let x := x.atPos .vec fun k => { s.readPos vc 11 k with started := bits (s.mem8 vc) 8 1 == 1 }
  let x := x.atPos .mat fun k =>
    { s.readPos (a + areaOff 4 + 8) 0 k with started := bits (s.mem8 (a + areaOff 4 + 8)) 11 1 == 1 }
  match x.relocated with
  | some (k, v) => x.updCmd .vec k.uid fun k => { s.readPos (vc + 0x2D00) 11 k with ctx := some (s.readVec (vc + 0x2D00) v) }
  | none => x

/-- The saved task as its area describes it. Transfers and fills continue as the stop recorded them: their entries show
that record, and a restore is defined for the area that SPILL wrote (R351, entry 54). -/
def State.readArea (s : State) (a : Nat) (v : Saved) : Saved :=
  let x := s.readPositions a v.core
  let sq := a + areaOff 1
  let q := s.readSeq sq x.seq
  let cp := a + areaOff 2
  let mt := a + areaOff 4
  let rs := a + areaOff 5
  let iss := s.mem8 (sq + 0x1E8)
  let half (o i : Nat) : Word := BitVec.ofNat 32 (leNat (s.readPhys 1 (cp + o + 4 * i) 4))
  let x := ({ x with
      seq := q
      tokens := (List.range 10).map fun i => bits (s.mem8 (sq + 0x1E0)) (4 * i) 4
      copy := { x.copy with
        nxt := (List.range 8).map (half 8)
        xw := (List.range 8).map (half 0x28)
        faultL := s.readFault (cp + 0x88) x.copy.faultL
        faultS := if x.copy.faultL.isSome then x.copy.faultS else s.readFault (cp + 0x88) x.copy.faultS }
      vec := { x.vec with own := s.readVec (a + areaOff 3 + 0x40) x.vec.own }
      mat := { x.mat with
        tabs := (List.range 4).map fun i => algOfImage (s.readPhys 1 (mt + 0x80 + 64 * i) 64)
        keep := bits (s.mem8 (mt + 8)) 15 1 == 1
        tstop := bits (s.mem8 (mt + 8)) 14 1 == 1
        claimA := BitVec.ofNat 32 (bits (s.mem8 (a + 0x28)) 16 32)
        claimB := BitVec.ofNat 32 (bits (s.mem8 (mt + 0x28)) 32 32)
        claimP := BitVec.ofNat 8 (s.mem8 (mt + 0x30))
        steps := bits (s.mem8 (mt + 0x40)) 21 11
        fault := s.readFault (mt + 0x48) x.mat.fault
        infl := x.mat.infl.mapIdx fun i f => s.readMinfl (mt + 0x200 + 32 * i) f }
      mon := x.mon.map fun m => { m with addr := dbl (s.mem8 (rs + 8)), value := dbl (s.mem8 (rs + 16)), armed := bits (s.mem8 (rs + 24)) 0 1 == 1,
                                         fired := bits (s.mem8 (rs + 24)) 1 1 == 1 }
      res := { x.res with
        tags := (List.range 64).map fun i => (i, s.readTag (rs + 0x40 + 24 * i) q.cyc (s.fn v.task.fn).key (x.resTag i).ipa) } } : Core)
  { v with core := x.updFlow .seq fun f => { f with psp := bits iss 9 1 == 1, psn := bits iss 10 1 == 1 } }

/-- The cells' partial block sums (R270). -/
def State.readPartials (s : State) (c a : Nat) (x : Core) : State :=
  if !x.mat.infl.any fun f => isMul f.instr then s
  else
    let mt := a + areaOff 4 + 0x400
    let cell (i : Nat) : Option (Nat × Word) :=
      let p : Word := BitVec.ofNat 32 (leNat (s.readPhys 1 (mt + 4 * i) 4))
      if p = 0 then none else some (i, p)
    s.updQuad (quadOf c) fun y => { y with partials := (List.range 32768).filterMap cell }

/-! ## Operands (R342) -/

/-- The target core of SPILL, RESTORE and SNAPRD, and the function: bits 15:12 die, 20:16 core. -/
def targetArgs (v more : Nat) : Option (Nat × Nat) :=
  if !sliceFn (bits v 0 8) || bits v 8 4 != 0 || 24 ≤ bits v 16 5 || (v - more) / 2 ^ 21 != 0 then none
  else some (bits v 0 8, 24 * bits v 12 4 + bits v 16 5)

/-- An address in the Derailleur's memory, aligned. -/
def sysAddr (v align len : Nat) : Bool := v % align == 0 && inHbm v len

/-- The core holds a stopped or parked task of a function. -/
def State.holdsStopped (s : State) (c fn : Nat) : Bool :=
  (s.core c).task.any fun t => t.fn == fn && (t.stopped.isSome || t.parked)

/-! ## SNAPRD, SPILL, RESTORE -/

/-- SNAPRD (R350): unit in bits 27:24. -/
def execSnaprd (a b : Src) (d : Dest) (s : State) : Result :=
  .next (s.sysWord [a, b] fun s =>
    let done (s : State) (st : Nat) : State := s.sysDone [a, b] d st 0
    let v := (s.opd a).toNat
    let pa := (s.opd b).toNat
    let unit := bits v 24 4
    match targetArgs v (unit * 2 ^ 24) with
    | none => done s 0x04
    | some (fn, c) =>
      if unit = 0 ∨ 5 < unit ∨ !sysAddr pa 64 (s.unitBlock c unit).length then done s 0x04
      else if !(s.fn fn).bound then done s 0x01
      else if (s.seq s.cur.core).phase = 1 then if (s.seq s.cur.core).st = 0 then done s 0 else s.sysWait
      else if !s.holdsStopped c fn then done s 0x02
      else ((s.sysWrite pa (s.unitBlock c unit)).useFree).sysPhase 1)

/-- SPILL (R350). Phase 1 waits until a parked task has settled, phase 2 until the area is written. -/
def execSpill (a b : Src) (d : Dest) (s : State) : Result :=
  .next (s.sysWord [a, b] fun s =>
    let done (s : State) (st : Nat) : State := s.sysDone [a, b] d st 0
    let pa := (s.opd b).toNat
    let phase := (s.seq s.cur.core).phase
    match targetArgs (s.opd a).toNat 0 with
    | none => done s 0x04
    | some (fn, c) =>
      if !sysAddr pa 256 areaLen then done s 0x04
      else if !(s.fn fn).bound then done s 0x01
      else if !s.holdsStopped c fn then done s 0x02
      else
        match (s.core c).task with
        | none => done s 0x02
        | some t =>
          if phase = 0 then (s.beginStop c 2 none).sysPhase 1
          else if phase = 1 then
            if (s.core c).halts then ((s.sysWrite pa (s.areaBytes c t)).useFree).sysPhase 2 else s.sysWait
          else if (s.seq s.cur.core).st ≠ 0 then s.sysWait
          else done (s.vacate c (some pa)) 0)

/-- The saved task of an area. -/
def State.savedAt (s : State) (fn a : Nat) : Option Saved := (s.fn fn).away.find? fun v => v.addr == some a

/-- WHO names the function and the core; with MIG the die may differ (R351). -/
def whoOk (who fn c : Nat) : Bool :=
  bits who 0 8 == fn && bits who 16 5 == c % 24 && (bits who 12 4 == dieOf c || bits who 26 1 == 1)

/-- The task as it is restored. -/
def Task.restored (t : Task) (who : Nat) : Task :=
  { t with stopped := none, stopping := none, stopBy := none, parked := bits who 24 1 == 1 }

/-- RESTORE (R351). Phase 1 waits for the write-backs of the settlement. -/
def execRestore (a b : Src) (d : Dest) (s : State) : Result :=
  .next (s.sysWord [a, b] fun s =>
    let done (s : State) (st : Nat) : State := s.sysDone [a, b] d st 0
    let pa := (s.opd b).toNat
    match targetArgs (s.opd a).toNat 0 with
    | none => done s 0x04
    | some (fn, c) =>
      let who := s.mem8 (pa + 8)
      if (s.seq s.cur.core).phase = 1 then if (s.core c).settling then s.sysWait else done s 0
      else if !sysAddr pa 256 areaLen then done s 0x04
      else if !(s.fn fn).bound then done s 0x01
      else if !s.areaOk pa then done s 0x06
      else if !whoOk who fn c then done s 0x04
      else if !s.coreFree c then done s 0x02
      else if (s.quad (quadOf c)).owner ≠ some fn then done s 0x03
      else
        match s.savedAt fn pa with
        | none => done s 0x05
        | some v =>
          if !s.settleable c then s.sysWait
          else
            let w := s.readArea pa v
            let s := (s.updFn fn fun f => { f with away := f.away.map fun u => if u = v then w else u }).readPartials c pa w.core
            let s : State := { s with nextId := s.nextId + 16 }
            (s.revive c w (v.task.restored who)).sysPhase 1)

end Sys2Proof.Machine
end

