-- ==== Sys2Proof/Machine/Meters.lean ====
section
/-! DEFINITION. The hash chain of a function's meters (R381) and CYCR (R365). -/

namespace Sys2Proof.Machine

open Sys2Proof

/-! ## The chain (R381) -/

/-- State byte of a record: 1 running, 2 quiesced, 3 migrating, 4 main power off. -/
def Func.chainState (power : Bool) (f : Func) : Nat :=
  if !power then 4 else if f.migrating then 3 else if f.quiesced then 2 else 1

/-- A record of 160 bytes. -/
def State.chainRecord (s : State) (fn kind : Nat) : List Byte :=
  let f := s.fn fn
  packDbl [(0, 8, kind), (8, 8, fn), (16, 8, f.chainState s.boot.mainPower)]
    ++ leBytes 8 f.chainIndex ++ leBytes 8 s.wall ++ leBytes 8 f.lastQuiesce
    ++ (f.meters.take 16).flatMap fun (m : Nat) => leBytes 8 m

/-- H := SHA-384(H ‖ record); the last eight records are kept (R379). A bind record follows the final head of the
previous chain of its function number in the same way. -/
def Func.chain (f : Func) (rec : List Byte) : Func :=
  let rs := f.chainRecords ++ [rec]
  { f with chainHead := Config.sha384 (f.chainHead ++ rec), chainRecords := rs.drop (rs.length - 8) }

def State.chainAppend (s : State) (fn kind : Nat) : State := s.updFn fn fun f => f.chain (s.chainRecord fn kind)

/-- A chain that an unbind record closes; pending counters are folded in first (R10). -/
def State.chainClose (s : State) (fn : Nat) : State :=
  ((s.updFn fn Func.fold).chainAppend fn 5).updFn fn fun f => { f with chainOpen := false }

/-- Functions that are bound, in rising order. -/
def State.boundFns (s : State) : List Nat := (s.fns.filter fun (p : Nat × Func) => p.2.bound).map (·.1)

/-- A period record of every bound function. -/
def State.periodRecords (s : State) : List Nat → State
  | [] => s
  | fn :: fns => ((s.updFn fn fun f => { f with chainIndex := f.chainIndex + 1 }).chainAppend fn 1).periodRecords fns

/-- CHAIN_PERIOD_RECORD: 2^30 cycles of the always-on timer have passed. -/
def execChainPeriodRecord (s : State) : Result :=
  .next { s.periodRecords s.boundFns with timer := s.timer + 2 ^ 30 }

/-! ## CYCR (R365) -/

/-- Counter of a function by index. -/
def Func.counter (f : Func) (i : Nat) : Option Nat :=
  if i < 16 then some (f.meters.getD i 0)
  else if i < 32 then some (f.pending.getD (i - 16) 0)
  else if i < 40 then some (f.telemetry.getD (i - 32) 0)
  else none

/-- CYCR: function in bits 7:0, index in bits 15:8. A reserved bit set returns all ones, too: the whole result is the
counter. -/
def execCycr (a : Src) (d : Dest) (s : State) : Result :=
  .next (s.sysWord [a] fun s =>
    let v := (s.opd a).toNat
    let n := if sliceFn (bits v 0 8) ∧ v < 2 ^ 16 then (s.fn (bits v 0 8)).counter (bits v 8 8) else none
    s.issue [a] 1 (some (match n with
      | some n => dbl n
      | none => BitVec.allOnes 64, d)))

end Sys2Proof.Machine
end

