-- ==== Sys2Proof/Machine/Slices.lean ====
section
/-! DEFINITION. Slice functions (R336 to R345, R361): SLMAP, SLUNMAP, WMASK, FNBIND, THROT and DOGSET. Where several
statuses of R341 apply, 0x04 is given first and otherwise the lowest (entry 20). -/

namespace Sys2Proof.Config

open Sys2Proof

/-- The DRBG has failed its health test when a key is drawn (R343, R370). -/
opaque drbgFails : Nat → Bool

end Sys2Proof.Config

namespace Sys2Proof.Machine

open Sys2Proof

/-- The interface's frozen set may not change (R383): status 0x09 with detail 0x04. -/
def State.locked (s : State) (fn : Nat) : Bool := (s.fn fn).tdisp != .unlocked

/-- Quads that a mask names on a die. -/
def maskQuads (die mask : Nat) : List Nat := ((List.range 6).filter fun i => bits mask i 1 == 1).map (6 * die + ·)

/-- Operands of SLMAP and SLUNMAP (R342): function, KIND, die, quad mask, queue. -/
def mapArgs (a : Nat) : Option (Nat × Bool × Nat × Nat × Nat) :=
  let queue := bits a 8 1 == 1
  if !sliceFn (bits a 0 8) || bits a 9 3 != 0 || a / 2 ^ 27 != 0 || bits a 22 2 != 0
      || (if queue then bits a 16 6 != 0 else bits a 24 3 != 0) then none
  else some (bits a 0 8, queue, bits a 12 4, bits a 16 6, bits a 24 3)

/-! ## SLMAP (R344) -/

/-- The lowest eviction frame that no quad of the function holds. -/
def Func.freeFrame (f : Func) : Option Nat := (List.range f.evq).find? fun i => !f.frames.any fun p => p.2 == i

/-- Quads become the function's, each with its frame; none where the frames do not suffice. -/
def State.mapQuads (s : State) (fn : Nat) : List Nat → Option State
  | [] => some s
  | q :: qs =>
    match (tfind q (s.fn fn).frames).or (s.fn fn).freeFrame with
    | none => none
    | some k =>
      ((s.updQuad q fun x => { x with owner := some fn }).updFn fn fun f => { f with frames := tset q k f.frames }).mapQuads fn qs

/-- SLMAP KIND 0: the status and the state. -/
def State.slmapQuads (s : State) (fn : Nat) (qs : List Nat) : Nat × State :=
  if qs.any fun q => (s.quad q).gated then (0x02, s)
  else if qs.any fun q => (s.quad q).owner.isSome || (s.quad q).fenced then (0x03, s)
  else
    match s.mapQuads fn qs with
    | none => (0x07, s)
    | some t => (0, t)

/-- SLMAP KIND 1. -/
def State.attach (s : State) (fn die wq : Nat) : Nat × State :=
  if (s.wq fn wq).att.isSome then (0x02, s)
  else if s.ownsOn fn die = 0 then (0x03, s)
  else (0, s.updWq fn wq fun w => { w with att := some die })

def execSlmap (a : Src) (d : Dest) (s : State) : Result :=
  .next (s.sysWord [a] fun s =>
    match mapArgs (s.opd a).toNat with
    | none => s.sysDone [a] d 0x04 0
    | some (fn, queue, die, mask, wq) =>
      if !(s.fn fn).bound then (s.pmEnd [3] fn 0x01).sysDone [a] d 0x01 0
      else
        let (st, t) := if queue then s.attach fn die wq else s.slmapQuads fn (maskQuads die mask)
        if !queue ∧ st = 0 ∧ s.locked fn then (s.pmEnd [3] fn 0x09).sysDone [a] d 0x09 4
        else (t.pmEnd [3] fn st).sysDone [a] d st 0)

/-! ## SLUNMAP (R344) -/

/-- Status of KIND 0. -/
def State.unmapStatus (s : State) (fn die : Nat) (qs : List Nat) : Nat :=
  let left := s.ownsOn fn die - qs.length
  if qs.any fun q => (quadCores q).any fun c => (s.core c).task.isSome then 0x02
  else if qs.any fun q => (s.quad q).owner != some fn then 0x03
  else if left = 0 ∧ qs ≠ [] ∧ (s.fn fn).queues.any (fun p => p.2.att == some die) then 0x02
  else 0

/-- A row of a quad that is given up: held rows are evicted, others zeroed. -/
def State.unmapRow (s : State) (q r : Nat) : State :=
  let o := s.rowOf q r
  let c := 4 * q + r / 40
  let s := if r < 160 then s.dropRowLines c (r % 40) else s
  let s :=
    if o.state = .held then
      (if r < 160 then
        match s.savedOf c o with
        | some v => s.deliverRow c (r % 40) v
        | none => s
      else s).evictRow q r
    else s
  s.zeroRow q r

def State.unmapRows (s : State) (q : Nat) : List Nat → State
  | [] => s
  | r :: rs => (s.unmapRow q r).unmapRows q rs

/-- A core whose rows belong to no one. -/
def Core.rowless (x : Core) : Core :=
  { x with rows := [], spreq := 0, resreq := false, mat := { x.mat with claimA := 0, claimB := 0, claimP := 0 } }

def State.rowlessCores (s : State) : List Nat → State
  | [] => s
  | c :: cs => (s.updCore c Core.rowless).rowlessCores cs

/-- Every row of a quad is free; nothing is claimed, poisoned or leased. -/
def State.freeQuad (s : State) (q : Nat) : State :=
  (s.rowlessCores (quadCores q)).updQuad q fun x =>
    { x with rows := [], tags := [], poison := 0, partials := [], leaseHolder := none, leaseCount := 0, leaseOver := false,
             leaseReqs := [] }

/-- The frame of a quad is free unless it holds evicted rows. -/
def Func.dropFrame (f : Func) (q : Nat) : Func :=
  if f.evicted.any fun e => some e.frame == tfind q f.frames then f else { f with frames := terase q f.frames }

def State.releaseQuads (s : State) (fn : Nat) : List Nat → State
  | [] => s
  | q :: qs =>
    ((((s.unmapRows q (List.range 232)).freeQuad q).updQuad q fun x => { x with owner := none }).updFn fn fun f =>
      f.dropFrame q).releaseQuads fn qs

/-- Rows of quads that stopped tasks hold. -/
def State.heldRows (s : State) (qs : List Nat) : Nat :=
  (qs.map fun q => ((List.range 232).filter fun r => (s.rowOf q r).state == .held).length).sum

/-- SLUNMAP KIND 1. -/
def State.detach (s : State) (fn die wq : Nat) : Nat × State :=
  let w := s.wq fn wq
  if w.att ≠ some die then (0x04, s)
  else if w.openCount ≠ 0 ∨ w.park then (0x02, s)
  else (0, s.updWq fn wq fun w => { w with att := none })

/-- Write-backs and deliveries that the words of quads started are over. -/
def State.quadsQuiet (s : State) (qs : List Nat) : Bool :=
  (qs.all fun q => (quadCores q).all fun c => (s.core c).copy.wbs == []) && !s.refusedOpen derailleur

/-- SLUNMAP: phase 1 waits for write-backs; the number of rows evicted stands in `sweep`. -/
def execSlunmap (a : Src) (d : Dest) (s : State) : Result :=
  .next (s.sysWord [a] fun s =>
    match mapArgs (s.opd a).toNat with
    | none => s.sysDone [a] d 0x04 0
    | some (fn, queue, die, mask, wq) =>
      let qs := maskQuads die mask
      if (s.seq s.cur.core).phase = 1 then
        if s.quadsQuiet qs then (s.pmEnd [3] fn 0).sysDone [a] d 0 ((s.seq s.cur.core).sweep.headD 0) else s.sysWait
      else if !(s.fn fn).bound then (s.pmEnd [3] fn 0x01).sysDone [a] d 0x01 0
      else if queue then
        let (st, t) := s.detach fn die wq
        t.sysDone [a] d st 0
      else
        let st := s.unmapStatus fn die qs
        if st ≠ 0 then (s.pmEnd [3] fn st).sysDone [a] d st 0
        else if s.locked fn then (s.pmEnd [3] fn 0x09).sysDone [a] d 0x09 4
        else
          let n := s.heldRows qs
          ((s.releaseQuads fn qs).updSeq s.cur.core fun q => { q with sweep := [n] }).sysPhase 1)

/-! ## WMASK (R345, R275 to R279) -/

/-- A way configuration from its bits; none where a policy or a reserved bit is wrong. -/
def parseWay (b : Nat) : Option WayCfg :=
  if b / 2 ^ 22 ≠ 0 ∨ bits b 16 2 = 3 ∨ bits b 18 2 = 3 ∨ bits b 20 2 = 3 then none
  else some ⟨BitVec.ofNat 16 b, BitVec.ofNat 2 (bits b 16 2), BitVec.ofNat 2 (bits b 18 2), BitVec.ofNat 2 (bits b 20 2)⟩

/-- Ways in any of a function's masks. -/
def Func.waysOf (f : Func) : BitVec 16 := f.ways.foldl (fun (m : BitVec 16) (w : WayCfg) => m ||| w.mask) 0

/-- Ways of the other bound functions. -/
def State.otherWays (s : State) (fn : Nat) : BitVec 16 :=
  (s.fns.filter fun (p : Nat × Func) => p.1 != fn && p.2.bound).foldl (fun (m : BitVec 16) (p : Nat × Func) => m ||| p.2.waysOf) 0

/-- Lines of replicas in ways of a die's slices. -/
def State.replicasIn (s : State) (m : BitVec 16) (d : Nat) : List Nat :=
  (List.range 16).flatMap fun i => ((s.slice (16 * d + i)).ways.filter fun l => l.replica && m.getLsbD l.way).map (·.line)

/-- Holder bits name the dies that still hold a replica of the granule. -/
def State.recountHolders (s : State) : State :=
  let holds (d g : Nat) : Bool := (s.die d).replicas.any fun r => r.line / 512 == g
  let one (e : RepEntry) : RepEntry :=
    { e with holders := (List.range 16).foldl (fun (m : BitVec 16) d =>
        if e.holders.getLsbD d && !holds d e.granule then m &&& ~~~(BitVec.twoPow 16 d) else m) e.holders }
  { s with dies := s.dies.map fun (p : Nat × Die) => (p.1, { p.2 with rep := p.2.rep.map one }) }

/-- Lines in removed ways leave every slice, and replicas that such ways hold leave their dies, whose homes are told;
memory holds the bytes of dirty lines already. -/
def State.dropWays (s : State) (fn : Nat) (m : BitVec 16) : State :=
  let n := (s.slices.map fun (p : Nat × Slice) => (p.2.ways.filter fun (l : L2Line) => m.getLsbD l.way && l.dirty).length).sum
  let s := (s.meter fn 12 (128 * n)).telemeter fn 33 n
  ({ s with
      dies := s.dies.map fun (p : Nat × Die) =>
        (p.1, { p.2 with replicas := p.2.replicas.filter fun (r : Replica) => !(s.replicasIn m p.1).contains r.line })
      slices := s.slices.map fun (p : Nat × Slice) => (p.1, { p.2 with ways := p.2.ways.filter fun (l : L2Line) => !m.getLsbD l.way }) }
    : State).recountHolders

/-- A class's configuration is written; what lies in ways that the function loses is invalidated (R279). -/
def State.setWay (s : State) (fn tc : Nat) (w : WayCfg) : State :=
  let old := (s.fn fn).waysOf
  let s := s.updFn fn fun f => { f with ways := f.ways.set tc w }
  let gone := old &&& ~~~(s.fn fn).waysOf
  if gone = 0 then s else s.dropWays fn gone

/-- WMASK: function in bits 7:0, class in bits 9:8. -/
def execWmask (a b : Src) (d : Dest) (s : State) : Result :=
  .next (s.sysWord [a, b] fun s =>
    let v := (s.opd a).toNat
    let fn := bits v 0 8
    match parseWay (s.opd b).toNat with
    | none => s.sysDone [a, b] d 0x04 0
    | some w =>
      if !sliceFn fn || v / 2 ^ 10 != 0 then s.sysDone [a, b] d 0x04 0
      else if !(s.fn fn).bound then s.sysDone [a, b] d 0x01 0
      else if w.mask &&& s.otherWays fn ≠ 0 then s.sysDone [a, b] d 0x03 0
      else if s.locked fn then s.sysDone [a, b] d 0x09 4
      else (s.setWay fn (bits v 8 2) w).sysDone [a, b] d 0 0)

/-! ## FNBIND (R337, R343, R370) -/

/-- Fields of a function descriptor. -/
def Func.described (f : Func) (bs : List Byte) : Func :=
  let n (o k : Nat) : Nat := leNat ((bs.drop o).take k)
  { f with
    s2root := dbl (n 0 8)
    arena := n 8 8
    arsz := n 0x10 4
    fwways := BitVec.ofNat 8 (n 0x14 1)
    acq := BitVec.ofNat 4 (n 0x15 1)
    prot := bits (n 0x16 1) 0 1 == 1
    mig := bits (n 0x16 1) 1 1 == 1
    evq := n 0x17 1
    evict := n 0x18 8
    shares := BitVec.ofNat 32 (n 0x20 4)
    caps := BitVec.ofNat 4 (n 0x24 1)
    dog := BitVec.ofNat 32 (n 0x28 4)
    period := BitVec.ofNat 32 (n 0x2C 4)
    deadline := Nat.min 1048576 (n 0x30 4) }

/-- A range of local HBM of one die, or an empty one. -/
def areaIn (a n : Nat) : Bool := a % 65536 == 0 && (n == 0 || inHbm a n)

/-- A descriptor without an invalid field. -/
def descOk (bs : List Byte) : Bool :=
  let n (o k : Nat) : Nat := leNat ((bs.drop o).take k)
  n 0 8 % 65536 == 0 && n 0 8 / 2 ^ 52 == 0 && areaIn (n 8 8) (n 0x10 4 * 65536) && n 0x15 1 < 16 && n 0x16 1 < 4
    && 1 ≤ n 0x17 1 && n 0x17 1 ≤ 96 && areaIn (n 0x18 8) (n 0x17 1 * 0x750000) && n 0x24 1 < 16 && n 0x25 3 == 0
    && 1 ≤ n 0x2C 4 && n 0x2C 4 ≤ 2 ^ 20 && (bs.drop 0x34).all (· == 0)

/-- First byte and length of a function's two areas. -/
def Func.areas (f : Func) : List (Nat × Nat) := [(f.arena, f.arsz * 65536), (f.evict, f.evq * 0x750000)]

def overlap (a b : Nat × Nat) : Bool := a.2 != 0 && b.2 != 0 && decide (a.1 < b.1 + b.2) && decide (b.1 < a.1 + a.2)

/-- Bound functions other than one. -/
def State.others (s : State) (fn : Nat) : List Func :=
  (s.fns.filter fun (p : Nat × Func) => p.1 != fn && p.2.bound).map (·.2)

/-- Areas or Freewheel ways meet another's (R336). -/
def State.clash (s : State) (fn : Nat) (f : Func) : Bool :=
  let taken := (0xFF0000000, 0x10000000) :: (s.others fn).flatMap Func.areas
  overlap (f.areas.getD 0 (0, 0)) (f.areas.getD 1 (0, 0))
    || (f.areas.any fun a => taken.any fun b => overlap a b)
    || (s.others fn).any fun g => g.fwways &&& f.fwways != 0

/-- A share sum passes 256 (R336). -/
def State.sharesOver (s : State) (fn : Nat) (shares : Word) : Bool :=
  (List.range 4).any fun i =>
    256 < bits shares.toNat (8 * i) 8 + ((s.others fn).map fun (g : Func) => bits g.shares.toNat (8 * i) 8).sum

/-- What a function number keeps between bindings: its configuration space, its mailbox, and its closed chain (R10). -/
def Func.unbound (f : Func) : Func :=
  { Func.reset with
    telemetry := f.telemetry
    chainHead := f.chainHead
    chainRecords := f.chainRecords
    meters := f.meters
    ideSecure := f.ideSecure
    sessions := f.sessions
    nextSession := f.nextSession
    cfgMse := f.cfgMse
    cfgBme := f.cfgBme
    cfgBars := f.cfgBars
    cfgMsix := f.cfgMsix }

/-- Status of a binding from a descriptor at an address. Nothing is bound before READY (R13, R15; entry 77). -/
def State.bindStatus (s : State) (fn pa : Nat) : Nat :=
  let bs := s.sysRead pa 128
  if pa % 128 ≠ 0 ∨ !inHbm pa 128 ∨ !descOk bs then 0x04
  else if (s.fn fn).bound ∨ s.boot.ready = false then 0x01
  else
    let f := Func.reset.described bs
    if s.clash fn f then 0x03
    else if s.sharesOver fn f.shares then 0x07
    else if Config.drbgFails s.freeCtr then 0x09
    else 0

/-- The function is bound: a new key and export key, meters from zero, a new chain (R370, R381). -/
def State.bindFn (s : State) (fn pa : Nat) : State :=
  let bs := s.sysRead pa 128
  let s := s.updFn fn fun f =>
    { f.unbound.described bs with
      bound := true
      key := s.nextKey
      exportKey := s.nextKey + 1
      keyEpoch := 1
      meters := List.replicate 16 0
      chainOpen := true }
  ({ s with nextKey := s.nextKey + 2, freeCtr := s.freeCtr + 1 } : State).chainAppend fn 0

/-- Tokens of a function that owns a quad or has a queue attached. -/
def State.inUse (s : State) (fn : Nat) : Bool :=
  (s.quads.any fun p => p.2.owner == some fn) || (s.fn fn).queues.any fun p => p.2.att.isSome

/-- The binding ends: entries, marks and exports go, the keys are destroyed, and the chain closes (R332, R370, R375). -/
def State.unbindFn (s : State) (fn : Nat) : State :=
  let ways := (s.fn fn).waysOf
  let s := ((s.dropFw fn fun _ => true).dropWays fn ways).chainClose fn
  let s := { s with exports := s.exports.filter fun e => e.fn != fn, failedMarks := s.failedMarks.filter fun m => m.1 != fn }
  s.updFn fn Func.unbound

/-- FNBIND: UNBIND in bit 8. A refusal by the Lockring has detail 0x05 (R371). -/
def execFnbind (a b : Src) (d : Dest) (s : State) : Result :=
  .next (s.sysWord [a, b] fun s =>
    let v := (s.opd a).toNat
    let fn := bits v 0 8
    let pa := (s.opd b).toNat
    let done (s : State) (st x : Nat) : State := (s.pmEnd [1, 2] fn st).sysDone [a, b] d st x
    if !sliceFn fn || v / 2 ^ 9 != 0 then done s 0x04 0
    else if bits v 8 1 = 1 then
      if pa ≠ 0 then done s 0x04 0
      else if !(s.fn fn).bound then done s 0x01 0
      else if s.inUse fn then done s 0x02 0
      else if s.locked fn then done s 0x09 4
      else done (s.unbindFn fn) 0 0
    else
      match s.bindStatus fn pa with
      | 0 => done (s.bindFn fn pa) 0 0
      | 9 => done s.useFree 9 5
      | st => done s st 0)

/-! ## THROT and DOGSET (R361) -/

/-- KIND 0. -/
def State.setShares (s : State) (fn b : Nat) : Nat × State :=
  if b / 2 ^ 36 ≠ 0 then (0x04, s)
  else if !(s.fn fn).bound then (0x01, s)
  else if s.sharesOver fn (BitVec.ofNat 32 b) then (0x07, s)
  else (0, s.updFn fn fun f => { f with shares := BitVec.ofNat 32 b, caps := BitVec.ofNat 4 (b / 2 ^ 32) })

/-- KIND 1. -/
def State.setAcq (s : State) (fn b : Nat) : Nat × State :=
  if b / 2 ^ 4 ≠ 0 then (0x04, s)
  else if !(s.fn fn).bound then (0x01, s)
  else (0, s.updFn fn fun f => { f with acq := BitVec.ofNat 4 b })

/-- KIND 2. -/
def State.setPower (s : State) (die b : Nat) : Nat × State :=
  if b / 2 ^ 8 ≠ 0 then (0x04, s)
  else (0, s.updDie die fun x => { x with powerLimit := if b = 0 ∨ 250 < b then 250 else b })

/-- A quad is gated, or, ungated, has every row zeroed and is no longer fenced. -/
def State.gateQuad (s : State) (q : Nat) (on : Bool) : State :=
  if on then s.updQuad q fun x => { x with gated := true }
  else if (s.quad q).gated then
    ((((List.range 232).foldl (fun s r => s.zeroRow q r) s).freeQuad q).updQuad q fun x => { x with gated := false, fenced := false })
  else s

def State.gateQuads (s : State) (die mask : Nat) : List Nat → State
  | [] => s
  | i :: is => (s.gateQuad (6 * die + i) (bits mask i 1 == 1)).gateQuads die mask is

/-- KIND 3. -/
def State.setGates (s : State) (die b : Nat) : Nat × State :=
  if b / 2 ^ 6 ≠ 0 then (0x04, s)
  else if (maskQuads die b).any fun q => (s.quad q).owner.isSome then (0x02, s)
  else (0, s.gateQuads die b (List.range 6))

/-- Function or die of THROT and DOGSET. The table puts a die at bits 11:8, where KIND lies; it is read from bits 15:12,
which name a die elsewhere (entry 21). -/
def kindArgs (dieKinds : List Nat) (a : Nat) : Option (Nat × Nat × Nat) :=
  let kind := bits a 8 2
  if dieKinds.contains kind then
    if bits a 0 8 ≠ 0 ∨ bits a 10 2 ≠ 0 ∨ a / 2 ^ 16 ≠ 0 then none else some (kind, 0, bits a 12 4)
  else if !sliceFn (bits a 0 8) || a / 2 ^ 10 != 0 then none
  else some (kind, bits a 0 8, 0)

def execThrot (a b : Src) (d : Dest) (s : State) : Result :=
  .next (s.sysWord [a, b] fun s =>
    let v := (s.opd b).toNat
    match kindArgs [2, 3] (s.opd a).toNat with
    | none => s.sysDone [a, b] d 0x04 0
    | some (kind, fn, die) =>
      let (st, t) := match kind with
        | 0 => s.setShares fn v
        | 1 => s.setAcq fn v
        | 2 => s.setPower die v
        | _ => s.setGates die v
      (if kind = 0 then t.pmEnd [4] fn st else t).sysDone [a, b] d st 0)

/-- DOGSET KIND 0 to 2 for a function. -/
def Func.dogset (f : Func) (kind b : Nat) : Func :=
  match kind with
  | 0 => { f with dog := BitVec.ofNat 32 b }
  | 1 => { f with period := BitVec.ofNat 32 b }
  | _ => { f with deadline := Nat.min 1048576 b }

def execDogset (a b : Src) (d : Dest) (s : State) : Result :=
  .next (s.sysWord [a, b] fun s =>
    let v := (s.opd b).toNat
    match kindArgs [3] (s.opd a).toNat with
    | none => s.sysDone [a, b] d 0x04 0
    | some (kind, fn, die) =>
      if v / 2 ^ 32 ≠ 0 then s.sysDone [a, b] d 0x04 0
      else if kind = 3 then
        if bits v 1 3 ≠ 0 then s.sysDone [a, b] d 0x04 0
        else (s.updDie die fun x => { x with repctl := BitVec.ofNat 32 v }).sysDone [a, b] d 0 0
      else if kind = 1 ∧ (v = 0 ∨ 2 ^ 20 < v) then s.sysDone [a, b] d 0x04 0
      else if !(s.fn fn).bound then s.sysDone [a, b] d 0x01 0
      else (s.updFn fn fun f => f.dogset kind v).sysDone [a, b] d 0 0)

end Sys2Proof.Machine
end

