-- ==== Sys2Proof/Machine/Invalidate.lean ====
section
/-! DEFINITION. Translation invalidation (R80, R295, R332, R360): S1INV, S2INV, and the event that carries an
invalidation from one of its steps to the next. -/

namespace Sys2Proof.Machine

open Sys2Proof

/-! ## What an invalidation names -/

/-- Does a range of addresses meet one of the invalidation's? -/
def Inval.meets (v : Inval) (a n : Nat) : Bool := v.all || v.ranges.any fun r => a < r.1 + r.2 && r.1 < a + n

def Inval.namesTlb (v : Inval) (fn : Nat) (t : TlbEntry) : Bool :=
  t.fn == fn && (if v.stage2 then v.meets t.ipa t.size else t.root == v.root && v.meets t.va t.size)

def Inval.namesLine (v : Inval) (fn : Nat) (l : PLine) : Bool :=
  l.fn == fn && (if v.stage2 then v.meets l.ipa 256 else l.root == v.root && v.meets (256 * l.block) 256)

/-- A residual slot's line lies in a named page. -/
def Inval.namesSlot (v : Inval) (root : Dbl) (t : ResTag) : Bool :=
  t.valid && (if v.stage2 then v.meets t.ipa 128 else root == v.root && v.meets t.va 128)

def Inval.namesEntry (v : Inval) (e : FwEntry) : Bool :=
  if v.stage2 then v.all || e.ipaGranules.any fun g => v.meets (65536 * g) 65536
  else e.root == v.root && (v.all || e.vaGranules.any fun g => v.meets (65536 * g) 65536)

/-! ## Step 1 -/

def dropNamed (v : Inval) (fn : Nat) (l : List TlbEntry) : List TlbEntry := l.filter fun t => !v.namesTlb fn t

/-- TLB entries go, and the epoch of every core of the function advances. -/
def State.startInval (s : State) (fn : Nat) (v : Inval) : State :=
  let one (p : Nat × Core) : Nat × Core :=
    let x := p.2
    let mine := x.task.any fun t => t.fn == fn
    (p.1, { x with
      tlb := dropNamed v fn x.tlb
      copy := { x.copy with tlb := dropNamed v fn x.copy.tlb }
      epoch := if mine then !x.epoch else x.epoch })
  { s with
    cores := s.cores.map one
    dies := s.dies.map fun (p : Nat × Die) => (p.1, { p.2 with tlb := dropNamed v fn p.2.tlb }) }

/-! ## Step 2 -/

/-- Commands of the previous epoch that a core counts; those of a parked or stopped task have left the counters. -/
def Core.oldCommands (x : Core) : Nat :=
  if x.task.any (fun t => t.parked || t.stopped.isSome) then 0 else if x.epoch then x.inflight0 else x.inflight1

/-- The counters are zero, and no named line is pending. -/
def State.epochDrained (s : State) (fn : Nat) (v : Inval) : Bool :=
  s.cores.all fun (p : Nat × Core) =>
    (!(p.2.task.any fun t => t.fn == fn) || p.2.oldCommands == 0)
      && !p.2.copy.lines.any fun l => v.namesLine fn l && l.state == .pending

/-! ## Step 3, and the residuals -/

/-- Named lines of a core are written back through their old translation and dropped. -/
def State.dropInvLines (s : State) (fn : Nat) (v : Inval) : List Nat → State
  | [] => s
  | c :: cs =>
    let ls := (s.core c).copy.lines.filter (v.namesLine fn)
    let s := s.writeBackList c 0 (ls.filter fun l => l.dirty != 0)
    (s.updCore c fun x => { x with copy := { x.copy with lines := x.copy.lines.filter fun l => !v.namesLine fn l } }).dropInvLines fn v cs

/-- Named residual slots of resident tasks are delivered. -/
def State.deliverInv (s : State) (fn : Nat) (v : Inval) : List Nat → State
  | [] => s
  | c :: cs =>
    let root := ((s.core c).task.map fun t => s.rootOf fn t.wq).getD 0
    (s.deliverSlots c ((List.range 64).filter fun i => v.namesSlot root ((s.core c).resTag i))).deliverInv fn v cs

/-- Those of tasks that are not resident; their saved blocks' VALID bits are cleared. -/
def State.deliverSavedInv (s : State) (fn : Nat) (v : Inval) : List Saved → State
  | [] => s
  | w :: ws =>
    let root := s.rootOf fn w.task.wq
    let is := (List.range 64).filter fun i => v.namesSlot root (w.core.resTag i)
    let s := is.foldl (fun s i => s.deliverSaved w.place w false i) s
    let x := is.foldl (fun (x : Core) i => x.emptySlot i) w.core
    let s := s.updFn fn fun f => { f with away := f.away.map fun (k : Saved) => if k == w then { k with core := x } else k }
    let s := match w.addr with
      | none => s
      | some a => is.foldl (fun s i =>
          let p := a + 0x26AC0 + 0x40 + 24 * i
          s.writeQuiet 1 p [(s.readByte 1 p) &&& ~~~(8 : Byte)]) s
    s.deliverSavedInv fn v ws

/-- Cores that hold a line or a task of the function. -/
def State.coresWith (s : State) (fn : Nat) : List Nat :=
  (s.cores.filter fun (p : Nat × Core) => (p.2.task.any fun t => t.fn == fn) || p.2.copy.lines.any fun l => l.fn == fn).map (·.1)

def State.flushInval (s : State) (fn : Nat) (v : Inval) : State :=
  ((s.dropInvLines fn v (s.coresWith fn)).deliverInv fn v (s.residents fn)).deliverSavedInv fn v (s.fn fn).away

/-- No write-back and no priority delivery of the function is on its way. -/
def State.flushOver (s : State) (fn : Nat) : Bool :=
  !s.reqs.any fun r => r.fn == fn && ((match r.src with
    | .probeWb _ => true
    | _ => false) || r.isPriority)

/-! ## Steps 4 and 5 -/

/-- Granules whose replicas a stage-2 invalidation takes: those that hold the function's bytes, or bytes of no key. Of the
old physical pages the hubs are told these contain all (entry 75). -/
def State.replicated (s : State) (fn : Nat) (e : RepEntry) : Bool :=
  e.replicated && s.dies.any fun (p : Nat × Die) => e.holders.getLsbD p.1 && p.2.replicas.any fun r =>
    r.line / 512 == e.granule && r.key.all fun k => k.key == (s.fn fn).key

/-- A home hub invalidates the replicas of a granule; its mode stays. -/
def State.callIn (s : State) (d ack : Nat) (e : RepEntry) : State :=
  let t := s.updDie d fun x => { x with rep := x.rep.map fun (y : RepEntry) => if y.granule = e.granule then { y with holders := 0 } else y }
  { t with invs := t.invs ++ e.invs d (512 * e.granule) ack }

def State.callInAll (s : State) (d ack : Nat) : List RepEntry → State
  | [] => s
  | e :: es => (s.callIn d ack e).callInAll d ack es

/-- Step 4: the messages go out under one number. -/
def State.dropPages (s : State) (fn : Nat) : State :=
  (List.range 16).foldl (fun (u : State) d => u.callInAll d s.nextId ((u.die d).rep.filter (u.replicated fn))) s.useId

/-- Step 5: Freewheel entries go. A host's invalidation reports completion in INVBUSY. -/
def State.endInval (s : State) (fn : Nat) (v : Inval) : State :=
  let s := s.dropFw fn v.namesEntry
  if v.host then s.updWq fn v.wq fun w => { w with invBusy := false } else s

/-! ## The event -/

/-- Replaces the first invalidation of a stage. -/
def setStage (st new : InvStage) : List Inval → List Inval
  | [] => []
  | v :: vs => if v.stage == st then { v with stage := new } :: vs else v :: setStage st new vs

def Func.invAt (f : Func) (st : InvStage) : Option Inval := f.inval.find? fun v => v.stage == st

/-- A flushed stage-2 invalidation has its replicas invalidated first; any other ends when nothing of it is on its way. -/
def State.endStep (s : State) (fn : Nat) (v : Inval) : Nat :=
  match v.ack with
  | some id => if s.invs.any fun m => m.req == id then 0 else 5
  | none => if !s.flushOver fn then 0 else if v.stage2 then 4 else 5

/-- The step that can be made next: 3 the drained one goes on, 1 the next one starts, 4 the replicas are invalidated, 5 a
flushed one ends. -/
def State.invStep (s : State) (fn : Nat) : Nat :=
  let f := s.fn fn
  let last := ((f.invAt .flush).map (s.endStep fn)).getD 0
  match f.invAt .drain, f.invAt .waiting with
  | some v, _ => if s.epochDrained fn v then 3 else last
  | none, some _ => 1
  | none, none => last

def canInvalidationEpochDrained (fn : Nat) (s : State) : Bool := s.invStep fn != 0

/-- Changes the first invalidation of a stage. -/
def mapStage (st : InvStage) (g : Inval → Inval) : List Inval → List Inval
  | [] => []
  | v :: vs => if v.stage == st then g v :: vs else v :: mapStage st g vs

/-- INVALIDATION_EPOCH_DRAINED (R80, R360): invalidations of one function start one after the other, each when the one
before it has passed step 2. -/
def execInvalidationEpochDrained (fn : Nat) (s : State) : Result :=
  .next (
    let f := s.fn fn
    match s.invStep fn with
    | 1 =>
      match f.invAt .waiting with
      | none => s
      | some v => (s.startInval fn v).updFn fn fun f => { f with inval := setStage .waiting .drain f.inval }
    | 3 =>
      match f.invAt .drain with
      | none => s
      | some v => (s.flushInval fn v).updFn fn fun f => { f with inval := setStage .drain .flush f.inval }
    | 4 => (s.dropPages fn).updFn fn fun f =>
        { f with inval := mapStage .flush (fun (v : Inval) => { v with ack := some s.nextId }) f.inval }
    | 5 =>
      match f.invAt .flush with
      | none => s
      | some v =>
        (s.endInval fn v).updFn fn fun f =>
          { f with inval := if v.host then f.inval.erase v else setStage .flush .done f.inval }
    | _ => s)

/-! ## S1INV, S2INV (R360) -/

/-- An invalidation is asked for. -/
def State.askInval (s : State) (fn : Nat) (v : Inval) : State := s.updFn fn fun f => { f with inval := f.inval ++ [v] }

/-- The range that a word names: base above, log2 size below; none where it is invalid. -/
def invRange (v top : Nat) : Option (Nat × Nat) :=
  let sz := bits v 0 6
  let base := v / 65536 * 65536
  if sz < 16 ∨ top < sz ∨ base % 2 ^ sz ≠ 0 then none else some (base, 2 ^ sz)

/-- The Derailleur's invalidation is over. -/
def State.invDone (s : State) (fn : Nat) : Bool := (s.fn fn).inval.any fun v => !v.host && v.stage == .done

def State.forgetInval (s : State) (fn : Nat) : State :=
  s.updFn fn fun f => { f with inval := f.inval.filter fun v => v.host || v.stage != .done }

/-- S1INV and S2INV from their ranges on; phase 1 waits for step 5. -/
def State.invWord (s : State) (a b : Src) (d : Dest) (stage2 : Bool) (top : Nat) : State :=
  s.sysWord [a, b] fun s =>
    let x := (s.opd a).toNat
    let y := (s.opd b).toNat
    let fn := bits x 0 8
    let wq := bits x 8 3
    let all := bits x 11 1 == 1
    if (s.seq s.cur.core).phase = 1 then
      if s.invDone fn then (s.forgetInval fn).sysDone [a, b] d 0 0 else s.sysWait
    else if !sliceFn fn || x / 2 ^ 12 != 0 || (stage2 && wq != 0) || bits y 6 10 != 0 || y / 2 ^ top != 0 then
      s.sysDone [a, b] d 0x04 0
    else
      match if all then some (0, 0) else invRange y top with
      | none => s.sysDone [a, b] d 0x04 0
      | some r =>
        if !(s.fn fn).bound then s.sysDone [a, b] d 0x01 0
        else (s.askInval fn ⟨stage2, wq, s.rootOf fn wq, [r], all, .waiting, none, false⟩).sysPhase 1

def execS1inv (a b : Src) (d : Dest) (s : State) : Result := .next (s.invWord a b d false 57)
def execS2inv (a b : Src) (d : Dest) (s : State) : Result := .next (s.invWord a b d true 52)

end Sys2Proof.Machine
end

