-- ==== Sys2Proof/Machine/Interface.lean ====
section
/-! DEFINITION. What happens to a whole function at once: an interface that enters ERROR (R384), the scrub of
STOP_INTERFACE_REQUEST (R382), and the work of a function-level reset (R339). -/

namespace Sys2Proof.Machine

open Sys2Proof

/-! ## ERROR (R384) -/

/-- Every queue of a function parks with cause 0x22, unit 5; its tasks are stopped, not parked. -/
def State.parkQueues (s : State) (fn : Nat) : List Nat → State
  | [] => s
  | wq :: wqs =>
    (if (s.wq fn wq).att.isSome then s.parkQueue fn wq .park [] 0x22 parkAll [] else s).parkQueues fn wqs

/-- A locked or running interface enters ERROR with a reason. `stop` is false at MIGOUT step 2, whose drain stop takes
the place of the freeze stop. -/
def State.enterError (s : State) (fn reason : Nat) (stop : Bool) : State :=
  if (s.fn fn).tdisp = .locked ∨ (s.fn fn).tdisp = .run then
    let s := s.updFn fn fun f => { f with tdisp := .error, errReason := reason, noTlp := true }
    let s := if stop then s.stopAll fn 2 0 else s
    let s := s.parkQueues fn (List.range 8)
    if stop && s.allStopped fn then s.quiesce fn else s
  else s

/-! ## Everything of a function goes -/

/-- A fill of the core's probed region. -/
def ReqSrc.fillOf (c : Nat) : ReqSrc → Bool
  | .probeFill k _ _ => k == c
  | _ => false

/-- What a core holds of a function is dropped: its task, and its lines, unwritten. -/
def State.scrapCore (s : State) (fn c : Nat) : State :=
  let mine := (s.core c).task.any fun t => t.fn == fn
  let fills := (s.core c).copy.lines.any fun l => l.fn == fn && l.state == .pending
  let s := if mine then (((s.orphan fun r => r.endsWith c || r.fillOf c).adopt c).unmonitor c).dropLease c
    else if fills then s.orphan (ReqSrc.fillOf c) else s
  s.updCore c fun x =>
    let x := if mine then x.cleared else x
    { x with copy := { x.copy with lines := x.copy.lines.filter fun l => l.fn != fn } }

def State.scrapCores (s : State) (fn : Nat) : List Nat → State
  | [] => s
  | c :: cs => (s.scrapCore fn c).scrapCores fn cs

/-- Quads of a function. -/
def State.quadsOf (s : State) (fn : Nat) : List Nat :=
  (s.quads.filter fun (p : Nat × Quad) => p.2.owner == some fn).map (·.1)

/-- Every row of quads is zeroed and belongs to no one. -/
def State.zeroQuads (s : State) : List Nat → State
  | [] => s
  | q :: qs => (((List.range 232).foldl (fun s r => s.zeroRow q r) s).freeQuad q).zeroQuads qs

/-- Tasks, evicted rows and what waits for them are forgotten; frames of quads that the function no longer has are
free. -/
def Func.forgetTasks (mine : List Nat) (f : Func) : Func :=
  { f with
    away := []
    evicted := []
    frames := f.frames.filter fun (p : Nat × Nat) => mine.contains p.1
    registry := []
    barriers := []
    donations := [] }

/-- Submissions that wait at walkers and lookups in progress of a function are dropped. -/
def State.dropWalks (s : State) (fn : Nat) : State :=
  { s with dies := s.dies.map fun (p : Nat × Die) =>
      (p.1, { p.2 with
        subs := p.2.subs.filter fun b => b.fn != fn
        lookup := if p.2.lookup.any fun l => l.task.fn == fn then none else p.2.lookup
        reserved := terase fn p.2.reserved }) }

/-- A queue without records and not parked. -/
def WorkQueue.emptied (w : WorkQueue) : WorkQueue := { w with records := [], redo := [], park := false, parks := [] }

def Func.mapQueues (g : WorkQueue → WorkQueue) (f : Func) : Func :=
  { f with queues := f.queues.map fun (p : Nat × WorkQueue) => (p.1, g p.2) }

/-- A new key replaces the old one in every slot, and the epoch rises (R370). -/
def State.newKey (s : State) (fn : Nat) : State :=
  { s.updFn fn (fun f => { f with key := s.nextKey, keyEpoch := f.keyEpoch + 1 }) with nextKey := s.nextKey + 1 }

/-- The scrub (R382). -/
def State.scrub (s : State) (fn : Nat) : State :=
  let s := s.scrapCores fn (s.coresWith fn)
  let s := s.zeroQuads (s.quadsOf fn)
  let s := (s.dropWalks fn).dropFw fn fun _ => true
  let mine := s.quadsOf fn
  let s := s.updFn fn fun f => { (f.forgetTasks mine).mapQueues WorkQueue.emptied with suspended := true }
  (s.quiesce fn).newKey fn

/-! ## Function-level reset (R339) -/

/-- Tasks of a function, resident or not. -/
def State.tasksOf (s : State) (fn : Nat) : List Task :=
  ((s.residents fn).filterMap fun c => (s.core c).task) ++ (s.fn fn).away.map (·.task)

def State.endTasks (s : State) (fn : Nat) : List Task → State
  | [] => s
  | t :: ts => (s.endTaskOf fn t.wq t.rseq t.tseq).endTasks fn ts

/-- Records of a queue that are not complete, by number. -/
def WorkQueue.openSeqs (w : WorkQueue) : List Nat := (w.records.filter fun r => r.state != .complete).map (·.seq)

def State.completeAll (s : State) (fn wq : Nat) : List Nat → State
  | [] => s
  | n :: ns => (s.completeRecord fn wq n 0x04).completeAll fn wq ns

def State.completeQueues (s : State) (fn : Nat) : List Nat → State
  | [] => s
  | wq :: wqs => (s.completeAll fn wq (s.wq fn wq).openSeqs).completeQueues fn wqs

/-- NEXT and S1ROOT return to 0 and the park record is cleared; the attachment stays, and INVBUSY while an invalidation of
the queue goes on. -/
def WorkQueue.forgotten (w : WorkQueue) : WorkQueue :=
  { WorkQueue.reset with att := w.att, wqval := w.wqval, invBusy := w.invBusy, invErr := w.invErr }

/-- Configuration space and BARs as PCIe resets them (entry 6). -/
def Func.resetConfig (f : Func) : Func :=
  { f with
    cfgMse := false
    cfgBme := false
    cfgBars := (List.range 4).map fun i => Config.cfgReset (0x10 + 4 * i)
    cfgMsix := Config.cfgReset Config.msixOffset
    sessions := [] }

/-- The function-level reset of an unlocked interface. -/
def State.resetFn (s : State) (fn : Nat) : State :=
  let s := s.endTasks fn (s.tasksOf fn)
  let s := s.scrapCores fn (s.coresWith fn)
  let s := s.completeQueues fn (List.range 8)
  let mine := s.quadsOf fn
  let s := (s.zeroQuads mine).dropWalks fn |>.dropFw fn fun _ => true
  s.updFn fn fun f => { ((f.forgetTasks mine).mapQueues WorkQueue.forgotten).resetConfig with fwctr := [] }

end Sys2Proof.Machine
end

