-- ==== Sys2Proof/Machine/Boot.lean ====
section
/-! DEFINITION. Power, resets and bring-up (R9 to R15), and the loss of power (R10, R381). -/

namespace Sys2Proof.Machine

open Sys2Proof

/-! ## What a reset leaves (R10, R15) -/

/-- The chain of a bound function closes: a reset record, then an unbind record, both with the pending counters folded
in. -/
def State.closeChains (s : State) : List Nat → State
  | [] => s
  | fn :: fns => (((s.updFn fn Func.fold).chainAppend fn 2).chainClose fn).closeChains fns

/-- What the always-on domain keeps of a function: its meters, and the head and records of its closed chain. -/
def Func.alwaysOn (f : Func) : Func :=
  { Func.reset with meters := f.meters, chainHead := f.chainHead, chainRecords := f.chainRecords }

/-- The volatile state is what it is right after reset. The bytes of memory stay until memory initialisation; host and
peer memory belong to others; what the J16 has logged and sent stays written. -/
def State.volatile (s : State) (fns : Tbl Func) : State :=
  { State.reset with
    fns := fns
    mem := s.mem
    memKey := s.memKey
    poison := s.poison
    timer := s.timer
    wall := s.wall
    nextKey := s.nextKey
    nextId := s.nextId
    freeCtr := s.freeCtr
    log := s.log
    out := s.out
    inbox := s.inbox
    actor := s.actor
    schedule := s.schedule }

/-- Every binding ends, and bring-up stands at stage 0x0. -/
def State.restart (s : State) : State :=
  let s := s.closeChains s.boundFns
  s.volatile (s.fns.map fun (p : Nat × Func) => (p.1, { p.2.alwaysOn.resetConfig with nextSession := p.2.nextSession }))

/-- POWER_UP: main power comes back. -/
def execPowerUp (s : State) : Result := .next (if s.boot.mainPower then s else s.restart)

/-- FUNDAMENTAL_OR_HOT_RESET, during bring-up too (R14). -/
def execFundamentalOrHotReset (s : State) : Result := .next (if s.boot.mainPower then s.restart else s)

/-! ## Bring-up (R9, R11, R12) -/

/-- Causes with which a stage fails. -/
def stageCauses (stage : Nat) : List Nat :=
  match stage with
  | 0 => [5, 6]
  | 1 => [1, 2, 3]
  | 2 => [4]
  | 3 => [5, 6]
  | _ => []

/-- Bring-up is under way. -/
def Boot.starting (b : Boot) : Bool := b.mainPower && !b.fail && b.stage.toNat < 4

/-- Bring-up stops. -/
def Boot.stop (b : Boot) (cause : Byte) (die : BitVec 4) : Boot :=
  { b with stage := 0xF, fail := true, cause := cause, die := if 1 ≤ cause.toNat ∧ cause.toNat ≤ 4 then die else 0 }

/-- A boundary has four spare lanes in each direction; a remap names twice the boundary plus the direction. -/
def remapsFit (rs : List Nat) : Bool := (List.range 48).all fun b => rs.count b ≤ 4

def canBringupStageDone (r : StageResult) (s : State) : Bool :=
  s.boot.starting && (match r with
    | .ok rs => s.boot.stage != 1 || remapsFit rs
    | .failed c _ => (stageCauses s.boot.stage.toNat).contains c.toNat)

/-- Is a byte of the one memory (`State.mem`) HBM or SRAM of this package? -/
def ownByte (a : Nat) : Bool := isLocalHbm a || 2 ^ 52 ≤ a

/-- HBM and SRAM hold 0. Lines are under no key until they are written again. -/
def State.clearMemory (s : State) : State :=
  { s with mem := s.mem.filter fun c => !ownByte c.1, memKey := [], poison := [] }

/-- A core whose register files and landing storage are cleared and whose TLBs are empty; the Derailleur's word and program
counter go on. -/
def Core.filesCleared (x : Core) : Core :=
  let q := Seq.reset 0
  { x with
    seq := { x.seq with
      belt := q.belt
      named := q.named
      shadow := q.shadow
      released := 0
      landing := []
      ld := 0 }
    vec := Vec.reset
    copy := { x.copy with lines := [], tlb := [] }
    res := { x.res with tags := [] }
    tlb := [] }

/-- Memory initialisation (R9): HBM and SRAM hold 0, and TLBs, reuse tables and watch tables are empty. -/
def State.initMemory (s : State) : State :=
  { s.clearMemory with
    quads := []
    cores := s.cores.map fun (p : Nat × Core) => (p.1, p.2.filesCleared)
    slices := s.slices.map fun (p : Nat × Slice) => (p.1, { p.2 with ways := [], heldCount := [] })
    dies := s.dies.map fun (p : Nat × Die) =>
      (p.1, { p.2 with rep := [], replicas := [], watch := [], tlb := [], fw := [], lookup := none }) }

/-- A stage has succeeded. -/
def State.stageOver (s : State) (rs : List Nat) : State :=
  let up (s : State) : State := { s with boot := { s.boot with stage := s.boot.stage + 1 } }
  match s.boot.stage.toNat with
  | 1 => up { s with
      log := s.log ++ rs.map LogEntry.laneRemap
      boot := { s.boot with spares := (List.range 48).filterMap fun b => if rs.contains b then some (b, rs.count b) else none } }
  | 2 => up s.initMemory
  | 3 => { up s with boot := { s.boot with stage := 4, ready := true }, wall := 0 }
  | _ => up s

def execBringupStageDone (r : StageResult) (s : State) : Result :=
  .next (if canBringupStageDone r s then
      match r with
      | .ok rs => s.stageOver rs
      | .failed c d => { s with boot := s.boot.stop c d }
    else s)

def execStageBoundExceeded (s : State) : Result :=
  .next (if s.boot.starting then { s with boot := s.boot.stop 7 0 } else s)

/-! ## Loss of power (R10, R381) -/

/-- The bytes of HBM and SRAM are lost with main power. -/
def State.powerOff (s : State) (fns : Tbl Func) : State :=
  let s := s.clearMemory.volatile fns
  { s with boot := { s.boot with mainPower := false } }

/-- ALWAYS_ON_POWER_LOSS: every chain, head and meter is lost. -/
def execAlwaysOnPowerLoss (s : State) : Result := .next { s.powerOff [] with timer := 0 }

/-- MAIN_POWER_LOSS: the always-on domain keeps the meters and chains of bound functions, whose records go on. -/
def execMainPowerLoss (s : State) : Result :=
  .next (if s.boot.mainPower then
      s.powerOff (s.fns.map fun (p : Nat × Func) =>
        (p.1, { p.2.alwaysOn with
          bound := p.2.bound
          pending := p.2.pending
          quiesced := p.2.quiesced
          lastQuiesce := p.2.lastQuiesce
          chainOpen := p.2.chainOpen
          chainIndex := p.2.chainIndex
          nextSession := p.2.nextSession }))
    else s)

end Sys2Proof.Machine
end

