-- ==== Sys2Proof/Machine/Faults.lean ====
section
/-! DEFINITION. Transient and lasting faults of the hardware: memory (R16), links (R17), registers (R18, R122) and
arrays (R264, R265). -/

namespace Sys2Proof.Config

/-- Lanes of a link, spares included, one of which a lasting error retires (R17). -/
opaque linkLanes : LinkId → Nat

/-- Did the flit that was lost carry the request of a number, or its answer (R17)? Arguments: the free counter and the
request. -/
opaque flitCarried : Nat → Nat → Bool

end Sys2Proof.Config

namespace Sys2Proof.Machine

open Sys2Proof

/-! ## Memory (R16) -/

/-- A line of this package's HBM that is not being read again. A fill of it waits from now on; what the J16 reads quietly
takes the line as it stands (entry 65). -/
def canHbmUncorrectableRead (line : Nat) (s : State) : Bool := !s.rereads.contains line && isLocalHbm (128 * line)

def execHbmUncorrectableRead (line : Nat) (s : State) : Result :=
  .next (if canHbmUncorrectableRead line s then { s with rereads := s.rereads ++ [line] } else s)

/-- Does the line hold bytes of a row that a function has in one of its frames? -/
def Func.evictedLine (f : Func) (line : Nat) : Bool :=
  f.evicted.any fun e =>
    let a := f.evict + e.frame * 0x750000 + rowFrameOff e.row
    decide (a < 128 * (line + 1)) && decide (128 * line < a + rowSize e.row)

/-- Functions that have a row in a line. -/
def State.rowFns (s : State) (line : Nat) : List Nat :=
  (s.fns.filter fun (p : Nat × Func) => p.2.bound && p.2.evictedLine line).map (·.1)

/-- A machine check that poisons a row of a function puts its interface into ERROR (R384). -/
def State.rowErrors (s : State) : List Nat → State
  | [] => s
  | fn :: fns => (s.enterError fn 5 true).rowErrors fns

/-- A line whose second read fails is poisoned. -/
def State.poisonLine (s : State) (line : Nat) : State :=
  if s.poison.contains line then s else { s with poison := s.poison ++ [line] }

def canHbmRereadResult (line : Nat) (s : State) : Bool := s.rereads.contains line

def execHbmRereadResult (line : Nat) (ok : Bool) (s : State) : Result :=
  .next (if canHbmRereadResult line s then
      let s := { s with rereads := s.rereads.filter (· != line) }
      if ok then { s with log := s.log ++ [.transientMemory line] }
      else
        let s := ({ s with log := s.log ++ [.lastingMemory line] } : State).poisonLine line
        s.rowErrors (s.rowFns line)
    else s)

/-! ## Links (R17) -/

def Link.fresh (k : LinkId) : Link := ⟨k, 0, 0, false⟩

def State.link (s : State) (k : LinkId) : Link := (s.links.find? fun l => l.link == k).getD (Link.fresh k)

def State.setLink (s : State) (l : Link) : State := { s with links := (s.links.filter fun m => m.link != l.link) ++ [l] }

/-- The link is up: it has not failed, and the host link is trained. -/
def State.linkUp (s : State) (k : LinkId) : Bool :=
  !(s.link k).failed && (match k with
    | .host => s.boot.linkTrained
    | _ => true)

/-- A flit fails its check and is sent again: no flit of the link is being sent again. -/
def canLinkFlitCheckFail (k : LinkId) (s : State) : Bool := s.linkUp k && (s.link k).retrying == 0

def execLinkFlitCheckFail (link : LinkId) (s : State) : Result :=
  .next (if canLinkFlitCheckFail link s then s.setLink { s.link link with retrying := 1 } else s)

/-- Does a request, or its answer, cross the link? -/
def Req.uses (r : Req) : LinkId → Bool
  | .boundary n => (routeOf r.src.die r.destDie).contains n
  | .port _ => isPeer r.pa
  | .host => isHost r.pa

/-- A request that the lost flit carried completes at its source; an answer that it carried is lost. -/
def State.loseOne (s : State) (r : Req) : State :=
  if r.phase = .travel ∨ r.phase = .homeward then (if r.isAddend then s.loseAddend r else s.lose r)
  else if r.phase = .answered ∧ r.kind ≠ .write then s.updReq r.id fun r => { r with poison := true }
  else s

def State.loseAll (s : State) : List Req → State
  | [] => s
  | r :: rs => (s.loseOne r).loseAll rs

/-- The link has failed. A failure of the host link is reported through AER, and HOST_LINK_TRAINED says that it has trained
again; what it lost ends as it does for a boundary (entry 76). -/
def State.failLink (s : State) (l : Link) : State :=
  let k := s.freeCtr
  let lost := s.reqs.filter fun r => r.uses l.link && Config.flitCarried k r.id
  let s := s.useFree
  let s := match l.link with
    | .host => { s with boot := { s.boot with linkTrained := false }, out := s.out ++ [OutMsg.aer] }
    | _ => s
  (s.setLink { l with retrying := 0, failed := true }).loseAll lost

/-- A flit of the link is being sent again. -/
def canLinkRetransmitResult (k : LinkId) (s : State) : Bool := s.linkUp k && (s.link k).retrying != 0

def execLinkRetransmitResult (link : LinkId) (ok : Bool) (s : State) : Result :=
  .next (if canLinkRetransmitResult link s then
      let l := s.link link
      if l.retrying = 1 then
        if ok then { s.setLink { l with retrying := 0 } with log := s.log ++ [LogEntry.transientLink link] }
        else
          let s := { s with log := s.log ++ [LogEntry.lastingLink link] }
          let l := { l with lanesLost := l.lanesLost + 1 }
          if l.lanesLost < Config.linkLanes link then s.setLink { l with retrying := 2 } else s.failLink l
      else if ok then s.setLink { l with retrying := 0 }
      else s.failLink l
    else s)

/-! ## Arrays (R264, R265) -/

/-- Unit of a machine check (R267). -/
def arrayCode : ArrayUnit → Nat
  | .aMemory => 1
  | .bMemory => 2
  | .accumulators => 3
  | .cells => 4

/-- Planes of a quad whose claims an aborted member holds become poisoned. -/
def State.poisonPlanes (s : State) (c : Nat) : State :=
  let m := (s.core c).mat.claimP
  s.updQuad (quadOf c) fun x => { x with poison := x.poison ||| m }

/-- The engines of a core stop with their queues and counters empty; requests under way go on for no one, addends are
applied once, and residuals are delivered at priority. -/
def Core.emptied (x : Core) : Core :=
  { x with
    queues := List.replicate 4 []
    flows := List.replicate 5 Flow.reset
    tokens := List.replicate 10 0
    copy := { x.copy with xfers := [] }
    vec := { x.vec with own := { x.vec.own with infl := [] } }
    mat := { x.mat with infl := [], gangWait := none, waiting := none, steps := 0 }
    seq := { x.seq with cp := 0, mt := 0 }
    inflight0 := 0
    inflight1 := 0 }

def ReqSrc.ofXfer (c : Nat) : ReqSrc → Bool
  | .copyRead k _ _ | .copyWrite k _ => k == c
  | _ => false

/-- The machine check of an array on one member. -/
def State.abortMember (s : State) (rec : Core → FaultRec) (c : Nat) : State :=
  let s := (s.freezeMat c).poisonPlanes c
  let r := rec (s.core c)
  let s := ((s.orphan (ReqSrc.ofXfer c)).adopt c).updCore c fun x =>
    { x.emptied with
      mat := { x.emptied.mat with fault := some r }
      task := x.task.map fun (t : Task) => { t with parked := true, stopping := none } }
  (((s.deliverAll c).freeze c (.bodyFault .mat)).unmonitor c).dropLease c

def State.abortMembers (s : State) (rec : Nat → Core → FaultRec) : List Nat → State
  | [] => s
  | c :: cs => (s.abortMember (rec c) c).abortMembers rec cs

/-- First double of a member's record: no command is named where the member has none; the failed quad stands in bits
27:24. -/
def abortHead (quad c : Nat) (irrev : Bool) (free : Nat) (x : Core) : Dbl :=
  let at_ := match x.curCmd .mat with
    | some k => k.slot % 32 * 2 ^ 8 + k.pos % 64 * 2 ^ 13
    | none => free % 2 ^ 11 * 2 ^ 8
  dbl (0x20 + at_ + (if x.mat.formed then 2 ^ 19 else 0) + 2 ^ 20 + x.memberIdx c % 8 * 2 ^ 21 + quad % 6 * 2 ^ 24
    + (if irrev then 2 ^ 28 else 0))

/-- A task that is not irrevocable starts anew: what it was when it was dispatched. -/
def Record.again (r : Record) (t : Task) : Task :=
  let r := { r with cursor := t.idx, nextTask := t.tseq }
  r.task t.fn t.wq [] (match r.nextRegions with
    | .ok rs => rs
    | .error _ => t.regions)

/-- The task waits at its queue to be dispatched again, and leaves its cores. -/
def State.startAgain (s : State) (t : Task) : State :=
  match (s.wq t.fn t.wq).records.find? fun r => r.seq == t.rseq with
  | none => s
  | some r => (s.clearCores t t.members).updWq t.fn t.wq fun w => { w with redo := w.redo ++ [r.again t] }

/-- A task whose array, or whose gang's register, has failed is aborted with a machine check; a unit's code stands in
`info`. -/
def State.abortTask (s : State) (quad : Nat) (info : Dbl) (t : Task) : State :=
  let irrev := t.members.any fun m => (s.core m).task.any fun (w : Task) => w.irrevocable
  let free := s.freeNat
  let addr := Config.freeDbl (s.freeCtr + 1)
  let rec_ (c : Nat) (x : Core) : FaultRec :=
    ⟨abortHead quad c irrev free x, addr, info,
      match x.curCmd .mat with
      | some k => dbl k.iters
      | none => 0⟩
  let row := t.members.any fun m => (s.core m).mat.claimP != 0
  let s := s.useFree.useFree.abortMembers rec_ t.members
  let head := (t.members.head?.bind fun l => (s.core l).mat.fault.map fun (r : FaultRec) => (l, r.words)).getD (4 * quad, [])
  let s := s.presentPark t.fn t.wq ⟨head.1, parkWords (parkHeader 0x20 3 false head.1) t.rseq t.tseq head.2, none⟩
  let s := if irrev then s else s.startAgain t
  if row then s.enterError t.fn 5 true else s

/-- No lease on the quad is granted, and no task is dispatched to its cores. -/
def State.fence (s : State) (quad : Nat) : State := s.updQuad quad fun x => { x with fenced := true, leaseReqs := [] }

/-- Something of the core's array is claimed. -/
def Core.claims (x : Core) : Bool := x.mat.claimA != 0 || x.mat.claimB != 0 || x.mat.claimP != 0

/-- With the lease free, the tasks that hold claims in the quad are those whose matrix commands the error touches. -/
def State.abortClaims (s : State) (quad : Nat) (info : Dbl) : List Nat → State
  | [] => s
  | c :: cs =>
    (match (s.core c).task with
      | some t => if (s.core c).claims && !(s.core c).freezes.contains (.bodyFault .mat) then s.abortTask quad info t else s
      | none => s).abortClaims quad info cs

/-- The task an error in a quad's array aborts is the one that holds its lease. -/
def execArrayUncorrectableError (quad : Nat) (unit : ArrayUnit) (s : State) : Result :=
  let info := dbl (arrayCode unit * 2 ^ 8)
  .next (match (s.quad quad).leaseHolder.bind fun c => (s.core c).task with
    | some t => (s.abortTask quad info t).fence quad
    | none => (s.abortClaims quad info (quadCores quad)).fence quad)

/-! ## Registers (R18, R122) -/

/-- Registers that a sequencer's word reads as operands. -/
def regReads : Instr → List Src
  | .add a b .. | .sub a b .. | .and a b .. | .or a b .. | .xor a b .. | .andn a b .. | .shl a b .. | .shr a b ..
  | .sar a b .. | .rol a b .. | .min a b .. | .max a b .. | .mul a b .. | .mulh a b .. | .div a b .. | .rem a b ..
  | .cmp a b .. | .insb a b .. | .st a b .. | .bcc a b .. | .ast a b .. | .aadd a b .. | .aand a b .. | .aor a b ..
  | .axor a b .. | .amin a b .. | .amax a b .. | .aswp a b .. | .afadd a b .. | .afmin a b .. | .afmax a b ..
  | .monw a b .. | .monc a b .. | .preempt a b .. | .spill a b .. | .restore a b .. | .snaprd a b .. | .wmask a b ..
  | .qresume a b .. | .s1inv a b .. | .s2inv a b .. | .fnbind a b .. | .throt a b .. | .dogset a b .. | .pgexp a b ..
  | .pgimp a b .. => [a, b]
  | .neg a .. | .clz a .. | .ctz a .. | .popc a .. | .mov a .. | .addi a .. | .andi a .. | .ori a .. | .xori a ..
  | .shli a .. | .shri a .. | .sari a .. | .extb a .. | .csrw _ a | .ld a .. | .jmp a .. | .ret a | .loop a ..
  | .bar _ _ a | .ald a .. | .flushres (some a) | .probe a .. | .pwb (some a) | .pinv (some a) | .waitx _ a _
  | .record a .. | .recordHand a .. | .rwait a .. | .fwinv (some a) | .slmap a .. | .slunmap a .. | .qpark a ..
  | .migout a .. | .migin a .. | .cycr a .. | .lkqry a .. => [a]
  | .sel c a b _ => [c, a, b]
  | .acas a e n .. => [a, e, n]
  | .acas128 a n .. => a :: quadRegs n
  | _ => []

/-- Does a sequencer's word read the register? `ERET` reads the shadow belt and xpc. -/
def readBy : ParityReg → Instr → Bool
  | .belt i, w => (regReads w).any fun r => r == .belt i
  | .named k, w => (regReads w).any fun r =>
      match r with
      | .named j _ => j == k
      | .belt _ => false
  | .shadow _, .eret => true
  | .special n, .eret => n == 0x011
  | .special n, .csrr m _ => n == m
  | _, _ => false

/-- The next word of a sequencer reads the register. -/
def State.nextReads (s : State) (c : Nat) (reg : ParityReg) : Bool :=
  let (w, xs) := s.wordsAt c (s.seq c).pc
  match decodeWord .seq w xs with
  | .ok i => readBy reg i
  | .error _ => false

/-- A duplicate stands in a released register, and is of another one. -/
def Seq.mayHold (q : Seq) (reg : ParityReg) : Bool :=
  (List.range 16).any fun k => q.released.getLsbD k && reg != .named (BitVec.ofNat 4 k)

/-- The register of a sequencer that runs is read by its next word; a duplicate is held in a released register. Of an
engine, a command has a word that is next to issue, and there are no duplicates. -/
def canRegisterParityError (core : Nat) (reg : ParityReg) (dup : Bool) (s : State) : Bool :=
  (s.core core).freezes == [] && (match reg with
    | .engine e => !dup && ((s.core core).curCmd e).any (·.started)
    | _ => s.seqRuns core && s.nextReads core reg && (!dup || (s.seq core).mayHold reg))

/-- The machine check of the word that read the register (R18). A member of a formed gang aborts the whole gang as R264
gives. -/
def State.parityCheck (s : State) (core : Nat) (reg : ParityReg) : State :=
  match (s.core core).task.filter fun _ => (s.core core).mat.formed with
  | some t => (s.useFree.abortTask (quadOf core) (dbl (s.freeNat % 256 * 256)) t).fence (quadOf core)
  | none =>
    match reg with
    | .engine e =>
      match (s.core core).curCmd e with
      | some k => s.useFree.bodyFault core e k 0x20 k.pos s.freeDbl 0
      | none => s
    | _ =>
      let pc := (s.seq core).pc
      let w := s.xwordAt core pc
      let p : PendTrap := ⟨0x20, pc, s.freeDbl, pc, pc, w.setWidth 32, (w >>> 32).setWidth 32⟩
      s.useFree.trapWhenLanded core p

/-- REGISTER_PARITY_ERROR: a duplicate restores the register under a freeze of 4 clk; without one the word that reads it
does not retire, and the task takes Machine check. -/
def execRegisterParityError (core : Nat) (reg : ParityReg) (duplicate : Bool) (s : State) : Result :=
  .next (if canRegisterParityError core reg duplicate s then
      if duplicate then
        let s := (s.freeze core .parity).updSeq core fun q => { q with errc := q.errc + 1 }
        { s with log := s.log ++ [.correctedRegister core] }
      else s.parityCheck core reg
    else s)

def canParityRepairDone (core : Nat) (s : State) : Bool := (s.core core).freezes.contains .parity

def execParityRepairDone (core : Nat) (s : State) : Result :=
  .next (if canParityRepairDone core s then s.thaw core .parity else s)

end Sys2Proof.Machine
end

