-- ==== Sys2Proof/Machine/Migrate.lean ====
section
/-! DEFINITION. Live migration (R366 to R368): MIGOUT, MIGIN and MIGRATION_PAGE_ARRIVAL. What crosses the fabric has no
layout in the manual; at the destination what the source sent is a constant of the session (entry 23). -/

namespace Sys2Proof.Config

open Sys2Proof Sys2Proof.Machine

/-- Bytes under the session key of the two Lockrings. -/
opaque sessionSeal : Word → List Byte → List Byte

/-- Bytes of a message whose layout the manual does not give, from the numbers that it carries. -/
opaque layout : List Nat → List Byte

/-- Source quads of a session's function. -/
opaque migQuads : Word → List Nat

/-- Queues of a session's function as the source sent them: attachment by source die, NEXT, records, park records. -/
opaque migQueues : Word → List (Nat × WorkQueue)

/-- Stopped tasks of a session's function, by source core. -/
opaque migSaved : Word → List Saved

/-- Rows of a session's function: source quad, row, owner, tag, poison. -/
opaque migRows : Word → List (Nat × Nat × Row × Tag × Bool)

/-- Byte of a row that arrived: source quad, row, place. -/
opaque migByte : Word → Nat → Nat → Nat → Byte

/-- Meters, pending counters, head, period index, and key epoch at the source. -/
opaque migMeter : Word → Nat → Nat
opaque migPending : Word → Nat → Nat
opaque migHead : Word → List Byte
opaque migIndex : Word → Nat
opaque migEpoch : Word → Nat

end Sys2Proof.Config

namespace Sys2Proof.Machine

open Sys2Proof

/-! ## Descriptors -/

/-- A migration descriptor: peer, session, destination die of each source die; none where it is invalid. -/
def parseMig (bs : List Byte) : Option (Nat × Word × List Nat) :=
  let n (o k : Nat) : Nat := leNat ((bs.drop o).take k)
  let map := (List.range 16).map fun i => n (0x10 + i) 1
  if n 0 8 / 64 ≠ 0 ∨ n 0x0C 4 ≠ 0 ∨ (map.any fun d => 16 ≤ d && d != 255) ∨ (bs.drop 0x20).any (· != 0) then none
  else some (n 0 8, BitVec.ofNat 32 (n 8 4), map)

def State.migDesc (s : State) (pa : Nat) : Option (Nat × Word × List Nat) :=
  if inHbm pa 64 then parseMig (s.sysRead pa 64) else none

/-! ## Pages (R366 step 1) -/

/-- Valid leaves below a table: intermediate address, page size, place, entry. -/
def leavesFrom (read : Nat → Nat) : List Level → Nat → Nat → List (Nat × Nat × Nat × Nat)
  | [], _, _ => []
  | l :: ls, base, table =>
    (List.range (2 ^ l.nbits)).flatMap fun i =>
      let place := table + 8 * i
      let e := read place
      let ipa := base + i * 2 ^ l.lo
      if e % 2 = 0 then []
      else if bits e 1 1 = 1 then
        let out := bits e 0 52 / 2 ^ 21 * 2 ^ 21
        if l.page = 0 ∨ bits e 7 14 ≠ 0 ∨ bits e 52 12 ≠ 0 ∨ out % l.page ≠ 0 then [] else [(ipa, l.page, place, e)]
      else if l.nextSize = 0 ∨ bits e 2 5 ≠ 0 ∨ bits e 52 12 ≠ 0 ∨ bits e 0 52 / 2 ^ 7 * 2 ^ 7 % l.nextSize ≠ 0 then []
      else leavesFrom read ls ipa (bits e 0 52 / 2 ^ 7 * 2 ^ 7)

def leafOut (e : Nat) : Nat := bits e 0 52 / 2 ^ 21 * 2 ^ 21

/-- Every page that the function's stage 2 maps. -/
def State.mapped (s : State) (fn : Nat) : List (Nat × Nat × Nat × Nat) :=
  (leavesFrom (fun p => leNat (s.readPhys 1 p 8)) stage2Levels 0 ((s.fn fn).s2root.toNat / 2 ^ 16 * 2 ^ 16 % 2 ^ 52)).filter
    fun l => inMap (leafOut l.2.2.2) && !s.reserved (leafOut l.2.2.2)

/-- A page that a further pass sends: its leaf has DT = 0 or DIRTY = 1. -/
def dirtyLeaf (l : Nat × Nat × Nat × Nat) : Bool := bits l.2.2.2 4 1 == 0 || bits l.2.2.2 5 1 == 1

/-- DT = 1 and DIRTY = 0 in a leaf. -/
def cleanEntry (e : Nat) : Nat := (if bits e 4 1 = 0 then e + 16 else e) - (if bits e 5 1 = 1 then 32 else 0)

def State.cleanLeaves (s : State) : List (Nat × Nat × Nat × Nat) → State
  | [] => s
  | l :: ls => (s.writeQuiet 1 l.2.2.1 (leBytes 8 (cleanEntry l.2.2.2))).cleanLeaves ls

/-- A message to the peer under the session key. -/
def State.toPeer (s : State) (fn tag : Nat) (bs : List Byte) : State :=
  let f := s.fn fn
  { s with out := s.out ++ [.fabric f.migPeer.toNat tag (Config.sessionSeal f.migSession bs)] }

/-- Pages leave decrypted from the function's key, with their intermediate addresses. -/
def State.sendPages (s : State) (fn : Nat) : List (Nat × Nat × Nat × Nat) → State
  | [] => s
  | l :: ls =>
    let pa := leafOut l.2.2.2
    let key := if isHbm pa then (s.fn fn).key else 0
    (s.toPeer fn 1 (leBytes 8 l.1 ++ s.readPhys key pa l.2.1)).sendPages fn ls

/-! ## MIGOUT -/

/-- Step 1, first half: the leaves are cleaned and their translations invalidated. -/
def State.migStart (s : State) (fn : Nat) (desc : Nat × Word × List Nat) : State :=
  let pages := if (s.fn fn).migStep = 0 then s.mapped fn else (s.mapped fn).filter dirtyLeaf
  let s := s.updFn fn fun f =>
    { f with migPeer := BitVec.ofNat 6 desc.1, migSession := desc.2.1, migMap := desc.2.2, mig := false }
  (s.cleanLeaves pages).askInval fn
    ⟨true, 0, 0, pages.map fun (l : Nat × Nat × Nat × Nat) => (l.1, l.2.1), false, .waiting, none, false⟩

/-- Pages of the invalidation that is over. -/
def State.migPages (s : State) (fn : Nat) : List (Nat × Nat × Nat × Nat) :=
  match (s.fn fn).inval.find? fun v => !v.host && v.stage == .done with
  | none => []
  | some v => (s.mapped fn).filter fun l => v.ranges.any fun r => r.1 == l.1

/-- Step 2 begins: the drain stop; the doorbells answer 0x0D. -/
def State.migStop (s : State) (fn deadline : Nat) : State :=
  let s := (s.enterError fn 0x04 false).stopAll fn 0 deadline
  s.updFn fn fun f => { f with migrating := true }

/-- What the stopped tasks still hold outside their rows leaves them: residuals and lines. -/
def State.migDrain (s : State) (fn : Nat) : State :=
  let v : Inval := ⟨true, 0, 0, [], true, .flush, none, false⟩
  s.flushInval fn v

/-- The save area of a task that is not resident. -/
def State.savedArea (s : State) (v : Saved) : List Byte :=
  match v.addr with
  | some a => s.readPhys 1 a areaLen
  | none => (s.setCore v.place v.core).areaBytes v.place v.task

def State.sendAreas (s : State) (fn : Nat) : List (List Byte) → State
  | [] => s
  | bs :: l => (s.toPeer fn 2 bs).sendAreas fn l

/-- Rows of the function that its stopped tasks own, by quad. -/
def State.ownedRows (s : State) (fn : Nat) : List (Nat × Nat) :=
  (s.quadsOf fn).flatMap fun q => ((List.range 232).filter fun r =>
    ((s.rowOf q r).state == .held || (s.rowOf q r).state == .live) && tagFn (s.rowOf q r).wtag == fn).map fun r => (q, r)

def State.sendRows (s : State) (fn : Nat) : List (Nat × Nat) → State
  | [] => s
  | (q, r) :: l => (s.toPeer fn 3 (Config.layout [q, r] ++ s.rowBytes q r)).sendRows fn l

/-- Evicted rows leave their frames decrypted. -/
def State.sendEvicted (s : State) (fn : Nat) : List Evicted → State
  | [] => s
  | e :: l =>
    let bs := s.readPhys (s.fn fn).key ((s.fn fn).evict + e.frame * 0x750000 + rowFrameOff e.row) (rowSize e.row)
    (s.toPeer fn 3 (Config.layout [e.frame, e.row] ++ bs)).sendEvicted fn l

/-- Numbers of a record that is not complete. -/
def recordNums (r : Record) : List Nat := [r.seq, r.nextTask] ++ r.cursor ++ r.open_

def State.sendQueues (s : State) (fn : Nat) : List (Nat × WorkQueue) → State
  | [] => s
  | (wq, w) :: l =>
    let s := if w.park then s.toPeer fn 4 (dblBytes w.pkrec) else s
    (s.toPeer fn 5 (Config.layout ([wq, w.next] ++ (w.records.filter fun r => r.state != .complete).flatMap recordNums))).sendQueues fn l

/-- Step 3: what is sent, in the order of the table. -/
def State.migSend (s : State) (fn : Nat) : State :=
  let s := s.sendPages fn ((s.mapped fn).filter dirtyLeaf)
  let here := (s.residents fn).filterMap fun c => (s.core c).task.map fun t => s.areaBytes c t
  let s := s.sendAreas fn (here ++ (s.fn fn).away.map s.savedArea)
  let s := (s.sendRows fn (s.ownedRows fn)).sendEvicted fn (s.fn fn).evicted
  let s := (s.sendQueues fn (s.fn fn).queues).chainAppend fn 3
  let f := s.fn fn
  s.toPeer fn 6 (Config.layout (f.meters ++ f.pending ++ [f.chainIndex]) ++ f.chainHead)

/-- Step 5: quads, queues, ways and the key are gone; the function stays bound without them. -/
def State.migRelease (s : State) (fn : Nat) : State :=
  let s := s.scrapCores fn (s.coresWith fn)
  let qs := s.quadsOf fn
  let s := s.zeroQuads qs
  let s := qs.foldl (fun s q => s.updQuad q fun x => { x with owner := none }) s
  let s := (s.dropWalks fn).dropWays fn (s.fn fn).waysOf
  s.updFn fn fun f =>
    { (f.forgetTasks []).fold with
      queues := []
      ways := List.replicate 4 WayCfg.reset
      key := 0
      exportKey := 0
      suspended := false
      quiesced := false
      migrating := false
      migStep := 0 }

/-- Step 0. -/
def State.migAbort (s : State) (fn : Nat) : State :=
  (s.releaseFn fn).updFn fn fun f => { f with migrating := false, migStep := 0 }

/-- Last step that must be complete before a step. -/
def migBefore (step last : Nat) : Bool :=
  match step with
  | 0 => last != 0
  | 1 => last ≤ 1
  | n => last + 1 == n

/-- A step whose effect is complete. -/
def State.migStepDone (s : State) (fn n : Nat) : State := s.updFn fn fun f => { f with migStep := n }

/-- MIGOUT from the checks of its step on. -/
def State.migoutStep (s : State) (fn step b phase : Nat) (done : State → Nat → Nat → State) : State :=
  match step with
  | 0 => done (s.migAbort fn) 0 0
  | 1 =>
    if phase = 1 then
      if s.invDone fn then
        let s := (s.sendPages fn (s.migPages fn)).forgetInval fn
        done (s.migStepDone fn 1) 0 ((s.mapped fn).filter dirtyLeaf).length
      else s.sysWait
    else
      match s.migDesc b with
      | none => done s 0x04 0
      | some m =>
        if s.exports.any fun e => e.fn == fn then done s 0x05 0
        else if s.fabricDown then done s 0x08 0
        else (s.migStart fn m).sysPhase 1
  | 2 =>
    if phase = 0 then (s.migStop fn b).sysPhase 1
    else if phase = 1 then
      if s.allStopped fn then (s.migDrain fn).sysPhase 2 else s.sysWait
    else if s.flushOver fn then
      done ((s.quiesce fn).migStepDone fn 2) 0 (s.countTasks (s.residents fn))
    else s.sysWait
  | 3 =>
    match s.migDesc b with
    | none => done s 0x04 0
    | some m =>
      if s.fabricDown then done s 0x08 0
      else
        let s := s.updFn fn fun f => { f with migPeer := BitVec.ofNat 6 m.1, migSession := m.2.1, migMap := m.2.2 }
        -- the number of bytes depends on a layout that the manual does not give
        let s := (s.migSend fn).migStepDone fn 3
        done s.useFree 0 s.freeNat
  | 4 =>
    let n := (s.dies.map fun (p : Nat × Die) => (p.2.fw.filter fun e => e.fn == fn).length).sum
    done ((s.dropFw fn fun _ => true).migStepDone fn 4) 0 n
  | _ => done ((s.migRelease fn).pmEnd [5] fn 0) 0 0

/-- Operands of MIGOUT and MIGIN: function, step in bits 11:8. -/
def migArgs (a : Nat) : Option (Nat × Nat) :=
  if !sliceFn (bits a 0 8) || a / 2 ^ 12 != 0 then none else some (bits a 0 8, bits a 8 4)

/-- Operands that a step reads: a, and b in the steps that have one, whose field is then checked as any operand's (R340);
none where that check fails. -/
def migReads (a : Src) (sb : BitVec 5) (lb hasB : Bool) : Option (List Src) :=
  if hasB then
    match srcOf sb lb with
    | .ok b => some [a, b]
    | .error _ => none
  else some [a]

/-- Value of b; 0 in a step without one. -/
def State.migB (s : State) (rs : List Src) : Nat := ((rs[1]?).map fun b => (s.opd b).toNat).getD 0

def execMigout (a : Src) (sb : BitVec 5) (lb : Bool) (d : Dest) (s : State) : Result :=
  let step := bits (s.opd a).toNat 8 4
  .next (match migReads a sb lb (decide (1 ≤ step ∧ step ≤ 3)) with
  | none => s.withOperands [a] fun s => s.trap 0x01 s.cur.addr 0
  | some rs => s.sysWord rs fun s =>
    let done (s : State) (st v : Nat) : State := (if st = 0 then s else s.pmEnd [5] (bits (s.opd a).toNat 0 8) st).sysDone rs d st v
    match migArgs (s.opd a).toNat with
    | none => done s 0x04 0
    | some (fn, step) =>
      let phase := (s.seq s.cur.core).phase
      if 5 < step then done s 0x04 0
      else if !(s.fn fn).bound then done s 0x01 0
      else if phase = 0 ∧ (!migBefore step (s.fn fn).migStep ∨ ((s.fn fn).mig ∧ (s.fn fn).migStep ≠ 0)) then done s 0x05 0
      else s.migoutStep fn step (s.migB rs) phase done)

/-! ## MIGIN (R367) -/

/-- Destination of a source quad, and of a source core. -/
def mapQuad (map : List Nat) (q : Nat) : Nat := 6 * map.getD (q / 6) 255 + q % 6
def mapCore (map : List Nat) (c : Nat) : Nat := 24 * map.getD (dieOf c) 255 + c % 24

/-- Quads that the placement names; none where a die with quads has no destination. -/
def migTargets (session : Word) (map : List Nat) : Option (List Nat) :=
  let qs := (Config.migQuads session).filter (· < 96)
  if qs.any fun q => map.getD (q / 6) 255 == 255 then none else some (qs.map (mapQuad map))

/-- The queues are attached to the mapped dies. -/
def State.migAttach (s : State) (fn : Nat) (map : List Nat) : List (Nat × WorkQueue) → State
  | [] => s
  | (wq, w) :: l =>
    (if wq < 8 then s.updWq fn wq fun x => { x with att := w.att.map fun d => map.getD d 0 } else s).migAttach fn map l

/-- Step 1: status and state. -/
def State.migBind (s : State) (fn b : Nat) : Nat × State :=
  match s.migDesc (b + 128) with
  | none => (0x04, s)
  | some (peer, session, map) =>
    match migTargets session map with
    | none => (0x04, s)
    | some qs =>
      let st := s.bindStatus fn b
      if st ≠ 0 then (st, s)
      else
        let (st, t) := (s.bindFn fn b).slmapQuads fn qs
        if st ≠ 0 then (st, s)
        else
          let t := t.updFn fn fun f =>
            { f with mig := true, suspended := true, migStep := 1, migPeer := BitVec.ofNat 6 peer, migSession := session,
                     migMap := map, keyEpoch := Config.migEpoch session + 1 }
          (0, t.migAttach fn map (Config.migQueues session))

/-- A stopped task as it is placed at the destination. -/
def Saved.moved (fn : Nat) (map : List Nat) (v : Saved) : Saved :=
  { v with
    place := mapCore map v.place
    addr := none
    task := { v.task with fn := fn, members := v.task.members.map (mapCore map) } }

/-- Rows are written into the frames of the mapped quads. -/
def State.migRowsIn (s : State) (fn : Nat) (session : Word) (map : List Nat) : List (Nat × Nat × Row × Tag × Bool) → State
  | [] => s
  | (q, r, o, t, p) :: l =>
    let k := tget (s.fn fn).frames (mapQuad map q) 0
    let bs := (List.range (rowSize r)).map fun i => Config.migByte session q r i
    let s := s.writeQuiet (s.fn fn).key ((s.fn fn).evict + k * 0x750000 + rowFrameOff r) bs
    let e : Evicted := ⟨k, r, { o with state := .held }, t, p⟩
    (s.updFn fn fun f => { f with evicted := f.evicted ++ [e] }).migRowsIn fn session map l

/-- The walker's state and the park records; a parked queue raises its MSI-X vector. -/
def State.migQueuesIn (s : State) (fn : Nat) : List (Nat × WorkQueue) → State
  | [] => s
  | (wq, w) :: l =>
    let s := if wq < 8 then s.updWq fn wq fun x => { w with att := x.att } else s
    (if wq < 8 ∧ w.park then s.msix fn wq else s).migQueuesIn fn l

/-- Step 3. -/
def State.migPlace (s : State) (fn : Nat) : State :=
  let f := s.fn fn
  let ss := f.migSession
  let s := s.updFn fn fun f =>
    { f with
      away := (Config.migSaved ss).map (Saved.moved fn f.migMap)
      meters := (List.range 16).map (Config.migMeter ss)
      pending := (List.range 16).map (Config.migPending ss)
      chainHead := Config.migHead ss
      chainIndex := Config.migIndex ss
      quiesced := true }
  let s := s.migRowsIn fn ss f.migMap ((Config.migRows ss).filter fun x => x.1 < 96 && x.2.1 < 232)
  (s.migQueuesIn fn (Config.migQueues ss)).chainAppend fn 4

/-- Step 5: every task is restored onto its core. -/
def State.migRestore (s : State) : List Saved → State
  | [] => s
  | v :: vs =>
    (if v.place < 384 ∧ s.coreFree v.place then
      s.revive v.place v { v.task with stopped := none, stopping := none, stopBy := none }
    else s).migRestore vs

/-- Dispatch is released, for a protected function only once its interface runs again. -/
def State.migOpen (s : State) (fn : Nat) : State :=
  if (s.fn fn).prot then s else (s.releaseFn fn).updFn fn fun f => { f with mig := false }

def execMigin (a : Src) (sb : BitVec 5) (lb : Bool) (d : Dest) (s : State) : Result :=
  let step := bits (s.opd a).toNat 8 4
  .next (match migReads a sb lb (decide (step = 1)) with
  | none => s.withOperands [a] fun s => s.trap 0x01 s.cur.addr 0
  | some rs => s.sysWord rs fun s =>
    let done (s : State) (st : Nat) : State :=
      -- the manual gives no value of these steps
      (if st = 0 then s.useFree else s.pmEnd [6] (bits (s.opd a).toNat 0 8) st).sysDone rs d st (if st = 0 then s.freeNat else 0)
    match migArgs (s.opd a).toNat with
    | none => done s 0x04
    | some (fn, step) =>
      if step ≠ 1 ∧ step ≠ 3 ∧ step ≠ 5 then done s 0x04
      else if step = 1 then
        let (st, t) := s.migBind fn (s.migB rs)
        done t st
      else if !(s.fn fn).bound then done s 0x01
      else if !(s.fn fn).mig ∨ (s.fn fn).migStep ≠ (if step = 3 then 1 else 3) then done s 0x05
      else if step = 3 then done ((s.migPlace fn).migStepDone fn 3) 0
      else
        let s := (s.migRestore (s.fn fn).away).migStepDone fn 0
        done ((s.migOpen fn).pmEnd [6] fn 0) 0)

/-! ## MIGRATION_PAGE_ARRIVAL (R367) -/

/-- A page arrives for a function that is bound as a destination; it is written where the new stage 2 puts it. -/
def State.pageArrives (s : State) (fn ipa : Nat) (page : List Byte) : State :=
  if !(s.fn fn).bound || !(s.fn fn).mig || (s.fn fn).migStep = 0 then s
  else
    match s.walk2 fn ipa with
    | .error _ => s
    | .ok l => s.writeQuiet (if isHbm l.out then (s.fn fn).key else 0) l.out page

def execMigrationPageArrival (s : State) : Result :=
  .next (match s.inbox with
    | .migrationPageArrival fn ipa page :: rest => { s with inbox := rest }.pageArrives fn ipa page
    | _ => s)

end Sys2Proof.Machine
end

