-- ==== Sys2Proof/Machine/Lockring.lean ====
section
/-! DEFINITION. The Lockring's instructions: PGEXP, PGIMP and LKQRY (R371 to R377). -/

namespace Sys2Proof.Machine

open Sys2Proof

/-- Bytes of an exported page. -/
def pageLen : Nat := 2 ^ 21

/-- An export descriptor (R372): intermediate address, physical address, address of the record; none where a field is
invalid. -/
def State.expDesc (s : State) (pa : Nat) : Option (Nat × Nat × Nat) :=
  if pa % 32 ≠ 0 ∨ !inHbm pa 32 then none
  else
    let d (i : Nat) : Nat := s.mem8 (pa + 8 * i)
    let ok := d 0 % 2 ^ 21 == 0 && d 0 / 2 ^ 52 == 0 && d 1 % 2 ^ 21 == 0 && isLocalHbm (d 1)
      && !((List.range 512).any fun i => s.reserved (d 1 + 4096 * i))
      && d 2 % 4096 == 0 && isHost (d 2) && isHost (d 2 + 64 + pageLen - 1) && d 3 == 0
    if ok then some (d 0, d 1, d 2) else none

/-- The IV: VERSION below, FN in bits 71:64 (R373). -/
def expIv (ver fn : Nat) : Nat := ver % 2 ^ 64 + fn * 2 ^ 64

/-- Bytes 0x00 to 0x2F of an export record. -/
def expHeader (fn ipa ver : Nat) : List Byte :=
  packDbl [(0, 8, 1), (8, 8, fn)] ++ leBytes 8 ipa ++ leBytes 8 ver ++ List.replicate 24 0

/-- AES-256-GCM is a sum with a key stream: the same function encrypts and decrypts. -/
def gcmSum (key iv : Nat) (bs : List Byte) : List Byte := bs.mapIdx fun i b => b ^^^ Config.gcmStream key iv i

/-- The 16 bytes of a record's TAG. -/
def gcmTagOf (key : Nat) (hdr cipher : List Byte) : List Byte := (List.range 16).map (Config.gcmTag key hdr cipher)

/-- Lines of memory are zero with valid ECC, as memory initialisation leaves them; nothing of the page is held under a
key any more. -/
def State.blankLines (s : State) (pa n : Nat) : State :=
  { s with
    mem := (List.range n).foldl (fun m i => memWrite (pa + i) 0 m) s.mem
    memKey := s.memKey.filter fun (p : Nat × LineKey) => !(pa ≤ 128 * p.1 && 128 * p.1 < pa + n)
    poison := s.poison.filter fun l => !(pa ≤ 128 * l && 128 * l < pa + n) }

/-! ## PGEXP and PGIMP (R374) -/

/-- The leaf of the function's stage-2 map for an intermediate address, as its table says, whatever pages are marked
failed. -/
def State.stage2Leaf (s : State) (fn ipa : Nat) : Except XFault Leaf :=
  walkLevels (fun p => .ok (leNat (s.readPhys 1 p 8))) 0x12 (fun e => bits e 7 14 + bits e 52 12) ipa
    ((s.fn fn).s2root.toNat / 2 ^ 16 * 2 ^ 16 % 2 ^ 52) stage2Levels

/-- PGEXP: the result's status and value, and the state. -/
def State.pgexp (s : State) (fn ipa pa host : Nat) : Nat × Nat × State :=
  let f := s.fn fn
  if !f.bound then (0x01, 0, s)
  else if f.migStep ≠ 0 then (0x05, 0, s)
  else
    match s.stage2Leaf fn ipa with
    | .ok _ => (0x02, 0, s)
    | .error _ =>
      if 65536 ≤ s.exports.length then (0x07, 0, s)
      else
        let ver := f.expCounter + 1
        let cipher := gcmSum f.exportKey (expIv ver fn) (s.readPhys f.key pa pageLen)
        let hdr := expHeader fn ipa ver
        let s := s.updFn fn fun f => { f with expCounter := ver }
        let s := s.writeQuiet 0 host (hdr ++ gcmTagOf f.exportKey hdr cipher ++ cipher)
        let s := { s with exports := (s.exports.filter fun (e : ExpEntry) => !(e.fn == fn && e.ipa == ipa)) ++ [(⟨fn, ipa, ver⟩ : ExpEntry)] }
        (0, ver, (s.writeQuiet 1 pa (List.replicate pageLen 0)).blankLines pa pageLen)

/-- A failed import marks its page. -/
def State.importFails (s : State) (fn ipa detail : Nat) : Nat × Nat × State :=
  (0x09, detail, { s with failedMarks := if s.failedMarks.contains (fn, ipa) then s.failedMarks else s.failedMarks ++ [(fn, ipa)] })

def State.pgimp (s : State) (fn ipa pa host : Nat) : Nat × Nat × State :=
  let f := s.fn fn
  if !f.bound then (0x01, 0, s)
  else
    match s.exports.find? fun e => e.fn == fn && e.ipa == ipa with
    | none => s.importFails fn ipa 0x05
    | some e =>
      let hdr := s.readPhys 0 host 48
      let n (o k : Nat) : Nat := leNat ((hdr.drop o).take k)
      if n 1 1 ≠ fn ∨ n 8 8 ≠ ipa ∨ n 0 1 ≠ 1 then s.importFails fn ipa 0x01
      else if n 0x10 8 ≠ e.version then s.importFails fn ipa 0x02
      else
        let cipher := s.readPhys 0 (host + 64) pageLen
        if s.readPhys 0 (host + 48) 16 ≠ gcmTagOf f.exportKey hdr cipher then s.importFails fn ipa 0x03
        else
          let plain := gcmSum f.exportKey (expIv e.version fn) cipher
          let s := s.writeQuiet f.key pa plain
          (0, e.version, { s with
            exports := s.exports.filter fun x => x != e
            failedMarks := s.failedMarks.filter fun m => m != (fn, ipa) })

/-- The request of PF0 for the page ends with the word's result (R376). -/
def State.pxEnd (s : State) (op fn ipa st value : Nat) : State :=
  let p := s.pf0
  if p.pxBusy && p.pxOp.toNat == op && p.pxFn.toNat == fn && p.pxIpa == ipa then
    { s with pf0 := { p with
        pxBusy := false
        pxStat := BitVec.ofNat 16 (st + value * 256)
        pxVer := if st = 0 then dbl value else p.pxVer } }
  else s

/-- PGEXP and PGIMP from their operands on. -/
def State.pageWord (s : State) (a b : Src) (d : Dest) (op : Nat) (act : State → Nat → Nat → Nat → Nat → Nat × Nat × State) :
    State :=
  s.sysWord [a, b] fun s =>
    let fn := (s.opd a).toNat
    match (if sliceFn fn then s.expDesc (s.opd b).toNat else none) with
    | none => s.sysDone [a, b] d 0x04 0
    | some (ipa, pa, host) =>
      let (st, v, t) := act s fn ipa pa host
      (t.pxEnd op fn ipa st v).sysDone [a, b] d st v

def execPgexp (a b : Src) (d : Dest) (s : State) : Result := .next (s.pageWord a b d 1 State.pgexp)
def execPgimp (a b : Src) (d : Dest) (s : State) : Result := .next (s.pageWord a b d 2 State.pgimp)

/-! ## LKQRY (R377) -/

def tdispCode : Tdisp → Nat
  | .unlocked => 0
  | .locked => 1
  | .run => 2
  | .error => 3

/-- A count of 65,536 does not fit its field of 16 bits: what the field then holds is a free value. -/
def State.fit16 (s : State) (n : Nat) : Nat := if n < 65536 then n else s.freeNat % 65536

/-- Value by KIND. -/
def State.lkValue (s : State) (fn kind : Nat) : Nat :=
  let f := s.fn fn
  match kind with
  | 0 => tdispCode f.tdisp + f.errReason % 256 * 2 ^ 8 + bitNat f.prot * 2 ^ 16
  | 1 => f.keyEpoch
  | 2 => s.fit16 (s.exports.filter fun e => e.fn == fn).length + s.fit16 (65536 - s.exports.length) * 2 ^ 16
  | _ => f.chainIndex

def execLkqry (a : Src) (d : Dest) (s : State) : Result :=
  .next (s.sysWord [a] fun s =>
    let v := (s.opd a).toNat
    let fn := bits v 0 8
    let kind := bits v 8 4
    if !sliceFn fn || v / 2 ^ 12 != 0 || 4 ≤ kind then s.sysDone [a] d 0x04 0
    else if !(s.fn fn).bound then s.sysDone [a] d 0x01 0
    else s.useFree.sysDone [a] d 0 (s.lkValue fn kind))

end Sys2Proof.Machine
end

