-- ==== Sys2Proof/Machine/HostLink.lean ====
section
/-! DEFINITION. Accesses of the host (R303, R338, R357, R376, R383): each is the oldest message of the inbox, and is
taken from it. Before READY every write to a register other than configuration space is dropped (R13). -/

namespace Sys2Proof.Machine

open Sys2Proof

/-- The oldest message is taken. -/
def State.took (s : State) : State := { s with inbox := s.inbox.tail }

/-- Do writes to a slice function's BARs reach it? Not before READY, not unbound, and not while its interface is
locked and not running, or in ERROR (R13, R343, R382, R384; entry 24). -/
def State.barOpen (s : State) (fn : Nat) : Bool :=
  s.boot.ready && sliceFn fn && (s.fn fn).bound && ((s.fn fn).tdisp == .unlocked || (s.fn fn).tdisp == .run)

/-! ## Doorbells (R301, R303) -/

def State.setWqres (s : State) (fn wq : Nat) (v : Dbl) : State := s.updWq fn wq fun w => { w with wqres := v }

/-- A write of 64 bits to WQDB: a submission, or reason 0x0D while the queue is not attached or the function migrates
(R303, R366). -/
def State.ring (s : State) (fn wq : Nat) (va : Dbl) : State :=
  if !s.barOpen fn || 8 ≤ wq then s
  else
    match (s.wq fn wq).att with
    | none => s.setWqres fn wq (submissionResult wq (.error 0x0D))
    | some d =>
      if (s.fn fn).migrating then s.setWqres fn wq (submissionResult wq (.error 0x0D))
      else s.updDie d fun x => { x with subs := x.subs ++ [⟨fn, wq, va, none, false, [], none⟩] }

/-- Doorbells of the queue that the walker has neither accepted nor rejected. -/
def State.bellPending (s : State) (fn wq : Nat) : Bool :=
  s.dies.any fun (p : Nat × Die) => p.2.subs.any fun b => b.fn == fn && b.wq == wq && b.from_.isNone

/-- A write to WQDB is refused with reason 0x0D, and not before earlier doorbells have their results. -/
def State.bellRefused (s : State) (fn wq : Nat) : Bool := (s.wq fn wq).att.isNone || (s.fn fn).migrating

def execDoorbell (s : State) : Result :=
  .next (match s.inbox with
    | .doorbell fn wq va :: _ => if s.bellRefused fn wq && s.bellPending fn wq then s else s.took.ring fn wq va
    | _ => s)

/-! ## Resume actions of the host (R357, R359, R368) -/

/-- A write to ACT is carried out as QRESUME; one that would fail changes nothing. -/
def State.act (s : State) (fn wq act : Nat) : State :=
  if !s.barOpen fn || 8 ≤ wq || act = 0 || s.resumeStatus fn wq ≠ 0 then s
  else s.resumeQueue fn wq act (s.wq fn wq).wqval

def execActRetry (s : State) : Result :=
  .next (match s.inbox with
    | .actRetry fn wq :: _ => s.took.act fn wq 1
    | _ => s)

def execActValue (s : State) : Result :=
  .next (match s.inbox with
    | .actValue fn wq :: _ => s.took.act fn wq 2
    | _ => s)

def execActEnd (s : State) : Result :=
  .next (match s.inbox with
    | .actEnd fn wq :: _ => s.took.act fn wq 3
    | _ => s)

/-! ## INVVA (R357, R360) -/

/-- A write to INVVA starts a stage-1 invalidation of the queue's root; dropped while INVBUSY is 1. -/
def State.invva (s : State) (fn wq : Nat) (value : Dbl) : State :=
  if !s.barOpen fn || 8 ≤ wq || (s.wq fn wq).invBusy then s
  else
    let v := bits value.toNat 0 57
    let all := bits v 0 6 == 63
    match (if all then some (0, 0) else invRange v 57) with
    | none => s.updWq fn wq fun w => { w with invErr := true }
    | some r =>
      (s.updWq fn wq fun w => { w with invErr := false, invBusy := true }).askInval fn
        ⟨false, wq, s.rootOf fn wq, [r], all, .waiting, none, true⟩

def execInvvaWrite (s : State) : Result :=
  .next (match s.inbox with
    | .invvaWrite fn wq v :: _ => s.took.invva fn wq v
    | _ => s)

/-! ## Requests of PF0 (R338, R376) -/

/-- A write of 64 bits to PMCMD: firmware carries the request out, with PMARG as it stands now; an OP that does not exist
completes with 0x04. -/
def State.pmRequest (s : State) (op fn : Byte) : State :=
  if !s.boot.ready || s.pf0.busy then s
  else if op = 0 ∨ 6 < op.toNat then { s with pf0 := { s.pf0 with pstat := 0x04 } }
  else { s with pf0 := { s.pf0 with pmOp := op, pmFn := fn, pmReq := s.pf0.pmarg, busy := true } }

def execCreate (s : State) : Result :=
  .next (match s.inbox with
    | .create fn :: _ => s.took.pmRequest 1 fn
    | _ => s)

def execDestroy (s : State) : Result :=
  .next (match s.inbox with
    | .destroy fn :: _ => s.took.pmRequest 2 fn
    | _ => s)

def execSetQuads (s : State) : Result :=
  .next (match s.inbox with
    | .setQuads fn :: _ => s.took.pmRequest 3 fn
    | _ => s)

def execSetShares (s : State) : Result :=
  .next (match s.inbox with
    | .setShares fn :: _ => s.took.pmRequest 4 fn
    | _ => s)

def execMigrateOut (s : State) : Result :=
  .next (match s.inbox with
    | .migrateOut fn :: _ => s.took.pmRequest 5 fn
    | _ => s)

def execAcceptMigration (s : State) : Result :=
  .next (match s.inbox with
    | .acceptMigration fn :: _ => s.took.pmRequest 6 fn
    | _ => s)

/-- A write of 64 bits to PXCMD. -/
def State.pxRequest (s : State) (op fn : Byte) (ipa : Nat) : State :=
  if !s.boot.ready || s.pf0.pxBusy then s
  else if op ≠ 1 ∧ op ≠ 2 then { s with pf0 := { s.pf0 with pxStat := 0x04 } }
  else { s with pf0 := { s.pf0 with pxOp := op, pxFn := fn, pxIpa := ipa, pxBusy := true } }

def execPageExport (s : State) : Result :=
  .next (match s.inbox with
    | .pageExport fn ipa :: _ => s.took.pxRequest 1 fn (ipa.toNat * 2 ^ 21)
    | _ => s)

def execPageImport (s : State) : Result :=
  .next (match s.inbox with
    | .pageImport fn ipa :: _ => s.took.pxRequest 2 fn (ipa.toNat * 2 ^ 21)
    | _ => s)

/-! ## Other registers (R7, R303, R338, R357, R376) -/

/-- A register of 64 bits after a write of all of it, or of its half at an offset. -/
def merge64 (old : Dbl) (off size : Nat) (v : Dbl) : Dbl :=
  if size = 8 then v
  else if off % 8 = 4 then ((v.setWidth 32) ++ (old.setWidth 32) : Dbl)
  else ((old.extractLsb' 32 32) ++ (v.setWidth 32) : Dbl)

/-- A write to a register of PF0: PMARG and PXHOST are written, PMCMD and PXCMD take writes of 64 bits, and every other
register is read-only. -/
def State.writePf0 (s : State) (off size : Nat) (v : Dbl) : State :=
  let n := v.toNat
  if off / 8 * 8 = 0x108 then { s with pf0 := { s.pf0 with pmarg := merge64 s.pf0.pmarg off size v } }
  else if off = 0x100 ∧ size = 8 then s.pmRequest (BitVec.ofNat 8 n) (BitVec.ofNat 8 (n / 256))
  else if off / 8 * 8 = 0x408 then
    let w := merge64 (dbl s.pf0.pxHost) off size v
    { s with pf0 := { s.pf0 with pxHost := bits w.toNat 12 38 * 4096 } }
  else if off = 0x400 ∧ size = 8 then
    s.pxRequest (BitVec.ofNat 8 n) (BitVec.ofNat 8 (n / 256)) (bits n 21 31 * 2 ^ 21)
  else s

/-- A write to a register of a work queue. A write of 32 bits to WQDB is dropped and gives reason 0x0D; S1ROOT is not
written while the queue is attached and not parked. -/
def State.writeQueue (s : State) (fn wq off size : Nat) (v : Dbl) : State :=
  let w := s.wq fn wq
  let reg := off / 8 * 8
  if reg = 0x00 then
    if size = 8 then s.ring fn wq v else s.setWqres fn wq (submissionResult wq (.error 0x0D))
  else if reg = 0x18 then
    if w.att.isSome ∧ !w.park then s
    else s.updWq fn wq fun w => { w with s1root := dbl (bits (merge64 w.s1root off size v).toNat 12 40 * 4096) }
  else if off = 0x20 then s.act fn wq (bits v.toNat 0 2)
  else if reg = 0x28 then s.updWq fn wq fun w => { w with wqval := merge64 w.wqval off size v }
  else if reg = 0x30 ∧ size = 8 then s.invva fn wq v
  else s

/-- A write of 4 or 8 bytes to a register of a BAR0. -/
def State.writeReg (s : State) (fn off size : Nat) (v : Dbl) : State :=
  if !s.boot.ready || (size != 4 && size != 8) || off % size != 0 then s
  else if fn = 0 then s.writePf0 off size v
  else if !s.barOpen fn || off < 0x10000 || 0x10800 ≤ off then s
  else s.writeQueue fn ((off - 0x10000) / 0x100) (off % 0x100) size v

/-! ## Reads of registers (R7, R11, R13, R303, R338, R357, R376, R384) -/

/-- BOOTSTS (R11). -/
def Boot.word (b : Boot) : Nat :=
  (if b.ready then 1 else 0) + (if b.fail then 2 else 0) + b.stage.toNat * 2 ^ 4 + b.cause.toNat * 2 ^ 8 + b.die.toNat * 2 ^ 16

/-- STATE of FNSTS: 0 unbound, 1 bound, 2 quiesced, 3 migrating. -/
def Func.stateCode (f : Func) : Nat :=
  if !f.bound then 0 else if f.migrating then 3 else if f.quiesced then 2 else 1

/-- FNSTS of a function (R338). -/
def State.fnsts (s : State) (fn : Nat) : Nat :=
  let f := s.fn fn
  let thr := f.throttled && s.wall < f.throttledAt + 2 ^ 20
  f.stateCode + (s.quadsOf fn).length * 2 ^ 2 + (if f.prot then 2 ^ 9 else 0) + (if thr then 2 ^ 10 else 0)

/-- DRSTS (R338). -/
def State.drsts (s : State) : Nat :=
  s.pf0.drcause.toNat + (if s.pf0.halt then 2 ^ 8 else 0)
    + ((List.range 16).map fun d => if (s.die d).tstop then 2 ^ (16 + d) else 0).sum

/-- The double of PF0's BAR0 at a multiple of 8. Reserved bits and registers that are only written read as 0. -/
def State.pf0Read (s : State) (off : Nat) : Nat :=
  if off = 0x0000 then s.boot.word
  else if off = 0x0010 then s.drsts
  else if off = 0x0108 then s.pf0.pmarg.toNat
  else if off = 0x0110 then s.pf0.pstat.toNat + (if s.pf0.busy then 2 ^ 8 else 0)
  else if 0x0200 ≤ off ∧ off ≤ 0x0380 then s.fnsts ((off - 0x0200) / 8)
  else if off = 0x0408 then s.pf0.pxHost
  else if off = 0x0410 then s.pf0.pxStat.toNat + (if s.pf0.pxBusy then 2 ^ 16 else 0)
  else if off = 0x0418 then s.pf0.pxVer.toNat
  else 0

/-- The double of a work queue's registers at a multiple of 8. -/
def WorkQueue.readAt (w : WorkQueue) (off : Nat) : Nat :=
  if off = 0x08 then w.wqres.toNat
  else if off = 0x10 then
    w.next % 2 ^ 48 + w.openCount * 2 ^ 48 + (if w.att.isSome then 2 ^ 56 else 0) + (if w.park then 2 ^ 57 else 0)
  else if off = 0x18 then w.s1root.toNat
  else if off = 0x28 then w.wqval.toNat
  else if off = 0x38 then (if w.invBusy then 1 else 0) + (if w.invErr then 2 else 0)
  else if 0x40 ≤ off ∧ off < 0x80 then (w.pkrec.getD ((off - 0x40) / 8) 0).toNat
  else 0

/-- The double that a read finds in a BAR0. A read that reaches no register of a slice function has all bits one. -/
def State.readDbl (s : State) (fn off : Nat) : Nat :=
  if fn = 0 then s.pf0Read off
  else if !s.barOpen fn then 2 ^ 64 - 1
  else if off < 0x10000 ∨ 0x10800 ≤ off then 0
  else (s.wq fn ((off - 0x10000) / 0x100)).readAt (off % 0x100)

/-- A read of 4 or 8 bytes. -/
def State.readReg (s : State) (fn off size : Nat) : Dbl :=
  dbl (s.readDbl fn (off / 8 * 8) / 2 ^ (8 * (off % 8)) % 2 ^ (8 * size))

/-- The access meets registers of a queue whose earlier doorbells must be decided first: a read of WQRES, NEXT or QCNT, or a
refused write to WQDB (R303). -/
def State.accessWaits (s : State) (fn off : Nat) (read : Bool) (size : Nat) : Bool :=
  let wq := (off - 0x10000) / 0x100
  let reg := off % 0x100 / 8 * 8
  fn != 0 && decide (0x10000 ≤ off) && decide (off < 0x10800) && s.bellPending fn wq
    && (if read then reg == 0x08 || reg == 0x10 else reg == 0 && (size != 8 || s.bellRefused fn wq))

/-- REGISTER_WRITE. A read of a register comes by the same event, and its answer leaves. -/
def execRegisterWrite (s : State) : Result :=
  .next (match s.inbox with
    | .registerWrite fn off size v :: _ => if s.accessWaits fn off false size then s else s.took.writeReg fn off size v
    | .registerRead fn off size tag :: _ =>
      if s.accessWaits fn off true size then s
      else { s.took with out := s.out ++ [.register tag (s.readReg fn off size)] }
    | _ => s)

/-! ## Configuration space (R383) -/

/-- Writable bits of the BARs at 0x10 to 0x1C: BAR0 of 256 KiB and BAR2 of 16 KiB, each of 64 bits (R382). -/
def barMask (i : Nat) : Word :=
  match i with
  | 0 => 0xFFFC0000
  | 2 => 0xFFFFC000
  | _ => 0xFFFFFFFF

/-- The function with a double word of its configuration space written. -/
def Func.config (f : Func) (off : Nat) (v : Word) : Func :=
  if off = 0x04 then { f with cfgMse := bit v 1, cfgBme := bit v 2 }
  else if 0x10 ≤ off ∧ off ≤ 0x1C ∧ off % 4 = 0 then
    let i := (off - 0x10) / 4
    let old := f.cfgBars.getD i 0
    { f with cfgBars := f.cfgBars.set i ((v &&& barMask i) ||| (old &&& ~~~barMask i)) }
  else if off = Config.msixOffset then { f with cfgMsix := v &&& 0xC0000000 ||| (f.cfgMsix &&& 0x3FFFFFFF) }
  else f

/-- A write of another value to a register that is frozen sends a locked or running interface to ERROR, and nothing
changes. -/
def State.writeConfig (s : State) (fn off : Nat) (v : Word) : State :=
  let f := s.fn fn
  let g := f.config off v
  if g = f then s
  else if f.tdisp = .unlocked then s.updFn fn fun _ => g
  else s.enterError fn 0x01 true

def execConfigWrite (s : State) : Result :=
  .next (match s.inbox with
    | .configWrite fn off v :: _ => if fn ≤ 48 then s.took.writeConfig fn off v else s.took
    | _ => s)

/-! ## Function-level reset (R14, R339) and the stream of IDE (R384) -/

/-- A function-level reset. PF0's, and one before READY, has no effect. A reset of an interface already in ERROR does
nothing more; of a function that is not bound, it resets the configuration space and ends the sessions. -/
def State.flr (s : State) (fn : Nat) : State :=
  if !s.boot.ready || !sliceFn fn then s
  else if !(s.fn fn).bound then s.updFn fn Func.resetConfig
  else if (s.fn fn).tdisp = .unlocked then s.resetFn fn
  else s.enterError fn 0x02 true

def execFunctionLevelReset (s : State) : Result :=
  .next (match s.inbox with
    | .functionLevelReset fn :: _ => s.took.flr fn
    | _ => s)

def execIdeIntegrityFailure (s : State) : Result :=
  .next (match s.inbox with
    | .ideIntegrityFailure fn :: _ => s.took.enterError fn 0x03 true
    | _ => s)

/-- HOST_LINK_TRAINED (R13, R17): configuration requests are answered from now on, and the host link is up. -/
def execHostLinkTrained (s : State) : Result :=
  .next { s with
    boot := { s.boot with linkTrained := true }
    links := s.links.map fun (l : Link) => if l.link == .host then { l with failed := false, retrying := 0 } else l }

end Sys2Proof.Machine
end

