-- ==== Sys2Proof/Machine/Mailbox.lean ====
section
/-! DEFINITION. The DOE mailboxes of PF0 (0) and the slice functions: SPDM (R378), measurements and evidence (R379,
R381), and TDISP (R382 to R384). Response codes are those of DSP0274 (entry 25). -/

namespace Sys2Proof.Machine

open Sys2Proof

/-! ## Answers (R378) -/

/-- A mailbox answers after READY, and one of a function number that the part has (R13). -/
def State.mailOpen (s : State) (mb : Nat) : Bool := s.boot.ready && mb ≤ 48

/-- An answer of the Lockring. -/
def State.mailReply (s : State) (mb : Nat) (code : Byte) (body : List Byte) : State :=
  if s.mailOpen mb then { s with out := s.out ++ [.spdm mb code body] } else s

/-- ERROR with an error code: 0x01 invalid request, 0x05 session limit, 0x06 decrypt error, 0x07 unsupported request,
0x0A session required. -/
def State.replyError (s : State) (mb : Nat) (err : Byte) : State := s.mailReply mb 0x7F [err]

/-! ## Sessions -/

def Func.session (f : Func) (id : Nat) : Option Session := f.sessions.find? fun k => k.id == id

/-- A secured session: its key exchange is finished. -/
def Func.secured (f : Func) (id : Nat) : Bool := (f.session id).any (·.finished)

def State.dropSession (s : State) (mb id : Nat) : State :=
  s.updFn mb fun f => { f with sessions := f.sessions.filter fun k => k.id != id }

/-- The end of the session that locked the interface sends it to ERROR (R384). -/
def State.sessionOver (s : State) (mb id : Nat) : State :=
  let s := s.dropSession mb id
  if sliceFn mb && (s.fn mb).lockSession == id then s.enterError mb 0x06 true else s

/-! ## Requests outside a session -/

def execDoeDiscovery (s : State) : Result :=
  .next (match s.inbox with
    | .doeDiscovery mb i :: _ =>
      if s.mailOpen mb then { s.took with out := s.out ++ [.doe mb (Config.doeProtocol i)] } else s.took
    | _ => s)

/-- SPDM 1.2 and 1.3. -/
def execGetVersion (s : State) : Result :=
  .next (match s.inbox with
    | .getVersion mb :: _ => s.took.mailReply mb 0x04 [0x12, 0x13]
    | _ => s)

/-- Capabilities in the order of the table: CERT, CHAL, MEAS with signature, MEAS_FRESH, KEY_EX, ENCRYPT, MAC, HBEAT,
KEY_UPD, as a mask. -/
def execGetCapabilities (s : State) : Result :=
  .next (match s.inbox with
    | .getCapabilities mb :: _ => s.took.mailReply mb 0x61 (leBytes 2 0x1FF)
    | _ => s)

/-- The supported algorithms are selected; no other offer is. -/
def execNegotiateAlgorithms (s : State) : Result :=
  .next (match s.inbox with
    | .negotiateAlgorithms mb ok :: _ => s.took.mailReply mb 0x63 [if ok then 1 else 0]
    | _ => s)

/-- Slot 0 holds the device chain. -/
def execGetDigests (s : State) : Result :=
  .next (match s.inbox with
    | .getDigests mb :: _ => s.took.mailReply mb 0x01 (1 :: Config.sha384 Config.certChain)
    | _ => s)

/-- A portion of slot 0's chain; the other slots are empty. -/
def execGetCertificate (s : State) : Result :=
  .next (match s.inbox with
    | .getCertificate mb slot off len :: _ =>
      if slot = 0 then s.took.mailReply mb 0x02 ((Config.certChain.drop off).take len) else s.took.replyError mb 0x01
    | _ => s)

/-- CHALLENGE_AUTH signed by the device's leaf key. -/
def execChallenge (s : State) : Result :=
  .next (match s.inbox with
    | .challenge mb slot nonce :: _ =>
      if slot = 0 then s.took.mailReply mb 0x03 (Config.sign (Config.sha384 Config.certChain ++ nonce)) else s.took.replyError mb 0x01
    | _ => s)

/-! ## Measurements (R379, R381) -/

/-- The evidence block of 208 bytes. -/
def State.evidence (s : State) (fn : Nat) : List Byte :=
  let f := s.fn fn
  let last := f.chainRecords.getLast?.getD []
  packDbl [(0, 8, 1), (8, 8, fn), (16, 8, f.chainState s.boot.mainPower)] ++ leBytes 8 f.chainIndex ++ leBytes 8 f.lastQuiesce
    ++ (last.drop 0x10).take 8 ++ f.chainHead ++ (last.drop 0x20).take 128

/-- Fields of a function descriptor, as measured. -/
def Func.descNums (f : Func) : List Nat :=
  [f.s2root.toNat, f.arena, f.arsz, f.fwways.toNat, f.acq.toNat, bitNat f.prot, f.evq, f.evict, f.shares.toNat,
    f.caps.toNat, f.dog.toNat, f.period.toNat, f.deadline]

def WayCfg.num (w : WayCfg) : Nat := w.mask.toNat + w.rpol.toNat * 2 ^ 16 + w.wpol.toNat * 2 ^ 18 + w.apol.toNat * 2 ^ 20

/-- Block 0x10: digest of the descriptor, owned quads, way configurations, Freewheel ways and key epoch. -/
def State.fnDigest (s : State) (fn : Nat) : List Byte :=
  let f := s.fn fn
  Config.sha384 (Config.layout (f.descNums ++ s.quadsOf fn ++ f.ways.map WayCfg.num ++ [f.fwways.toNat, f.keyEpoch]))

/-- Block 0x05: REPCTL of every die and the partition registers of PF0. -/
def State.pf0Digest (s : State) : List Byte :=
  Config.sha384 (Config.layout (((List.range 16).map fun d => (s.die d).repctl.toNat) ++ [s.pf0.pmarg.toNat, s.pf0.pstat.toNat]))

/-- A measurement block, where the mailbox returns it. -/
def State.block (s : State) (mb i : Nat) : Option (List Byte) :=
  let own := sliceFn mb && (s.fn mb).bound
  if 1 ≤ i ∧ i ≤ 4 then some (Config.sha384 (Config.image i))
  else if i = 0x05 ∧ mb = 0 then some s.pf0Digest
  else if i = 0x10 ∧ own then some (s.fnDigest mb)
  else if i = 0x20 ∧ own then some (s.evidence mb)
  else if i = 0x21 ∧ own then some (s.fn mb).chainRecords.flatten
  else none

/-- Blocks of a mailbox, each with its index. -/
def State.blocks (s : State) (mb : Nat) : List (List Byte) :=
  [1, 2, 3, 4, 0x05, 0x10, 0x20, 0x21].filterMap fun i => (s.block mb i).map fun b => BitVec.ofNat 8 i :: b

/-- GET_MEASUREMENTS: index 0 asks for the number of blocks, 0xFF for all, another for one. The answer is signed. -/
def execGetMeasurements (s : State) : Result :=
  .next (match s.inbox with
    | .getMeasurements mb i nonce :: _ =>
      let body := if i = 0 then [BitVec.ofNat 8 (s.blocks mb).length]
        else if i = 0xFF then (s.blocks mb).flatten
        else ((s.block mb i).map fun b => BitVec.ofNat 8 i :: b).getD []
      s.took.mailReply mb 0x60 (body ++ Config.sign (nonce ++ body))
    | _ => s)

/-! ## Requests of a session -/

/-- KEY_EXCHANGE: at most four sessions per mailbox. -/
def State.newSession (s : State) (mb : Nat) (nonce : List Byte) : State :=
  let f := s.fn mb
  if 4 ≤ f.sessions.length then s.replyError mb 0x05
  else
    let id := f.nextSession
    (s.updFn mb fun f => { f with sessions := f.sessions ++ [(⟨id, false, 0⟩ : Session)], nextSession := id + 1 }).mailReply mb 0x64
      (leBytes 4 id ++ Config.exchange id nonce)

def execKeyExchange (s : State) : Result :=
  .next (match s.inbox with
    | .keyExchange mb slot nonce :: _ =>
      if !s.mailOpen mb then s.took
      else if slot = 0 then s.took.newSession mb nonce
      else s.took.replyError mb 0x01
    | _ => s)

/-- FINISH: a session whose keys do not agree ends. -/
def execFinish (s : State) : Result :=
  .next (match s.inbox with
    | .finish mb id ok :: _ =>
      if !s.mailOpen mb then s.took
      else if ((s.fn mb).session id).isNone then s.took.replyError mb 0x0A
      else if ok then
        (s.took.updFn mb fun f => { f with sessions := f.sessions.map fun (k : Session) => if k.id = id then { k with finished := true } else k }).mailReply mb 0x65 []
      else (s.took.dropSession mb id).replyError mb 0x06
    | _ => s)

def execEndSession (s : State) : Result :=
  .next (match s.inbox with
    | .endSession mb id :: _ =>
      if !s.mailOpen mb then s.took
      else if (s.fn mb).secured id then (s.took.mailReply mb 0x6C []).sessionOver mb id
      else s.took.replyError mb 0x0A
    | _ => s)

def execHeartbeat (s : State) : Result :=
  .next (match s.inbox with
    | .heartbeat mb id :: _ => if (s.fn mb).secured id then s.took.mailReply mb 0x68 [] else s.took.replyError mb 0x0A
    | _ => s)

def execKeyUpdate (s : State) : Result :=
  .next (match s.inbox with
    | .keyUpdate mb id :: _ =>
      if s.mailOpen mb && (s.fn mb).secured id then
        (s.took.updFn mb fun f => { f with sessions := f.sessions.map fun (k : Session) => if k.id = id then { k with keyGen := k.keyGen + 1 } else k }).mailReply mb 0x69 []
      else s.took.replyError mb 0x0A
    | _ => s)

/-- IDE_KM programs the keys of the function's selective stream. -/
def execIdeKm (s : State) : Result :=
  .next (match s.inbox with
    | .ideKm mb id secure :: _ =>
      if s.mailOpen mb && (s.fn mb).secured id then (s.took.updFn mb fun f => { f with ideSecure := secure }).mailReply mb 0x7E []
      else s.took.replyError mb 0x0A
    | _ => s)

/-- Any other request. -/
def execUnsupportedSpdmRequest (s : State) : Result :=
  .next (match s.inbox with
    | .unsupportedSpdmRequest mb _ :: _ => s.took.replyError mb 0x07
    | _ => s)

/-! ## TDISP (R382): requests are taken only inside a secured session on the function's own mailbox -/

def State.tdispReply (s : State) (fn : Nat) (ok : Bool) (body : List Byte) : State :=
  { s with out := s.out ++ [.tdisp fn ok body] }

/-- A request of a bound function's interface in a secured session; any other is answered with an error. -/
def State.inSession (s : State) (fn id : Nat) (k : State → State) : State :=
  if !s.mailOpen fn then s
  else if !sliceFn fn || !(s.fn fn).bound || !(s.fn fn).secured id then s.replyError fn 0x0A
  else k s

/-- The checks of a lock. -/
def State.lockOk (s : State) (fn : Nat) : Bool :=
  let f := s.fn fn
  f.tdisp == .unlocked && f.prot && s.quadsOf fn != [] && f.ideSecure && f.cfgMse

def execLockInterfaceRequest (s : State) : Result :=
  .next (match s.inbox with
    | .lockInterfaceRequest fn id :: _ =>
      s.took.inSession fn id fun s =>
        if s.lockOk fn then
          let n := (Config.nonce s.freeCtr).take 32
          (s.useFree.updFn fn fun f => { f with tdisp := .locked, nonce := n, lockSession := id }).tdispReply fn true n
        else s.tdispReply fn false []
    | _ => s)

/-- START with the nonce: RUN. A migrated function's dispatch is released then (R367). -/
def execStartInterfaceRequest (s : State) : Result :=
  .next (match s.inbox with
    | .startInterfaceRequest fn id nonce :: _ =>
      s.took.inSession fn id fun s =>
        if (s.fn fn).tdisp = .locked ∧ (s.fn fn).nonce = nonce then
          let s := s.updFn fn fun f => { f with tdisp := .run }
          let s := if (s.fn fn).mig ∧ (s.fn fn).migStep = 0 then (s.releaseFn fn).updFn fn fun f => { f with mig := false } else s
          s.tdispReply fn true []
        else s.tdispReply fn false []
    | _ => s)

/-- STOP scrubs a function that is locked, running or in ERROR. -/
def execStopInterfaceRequest (s : State) : Result :=
  .next (match s.inbox with
    | .stopInterfaceRequest fn id :: _ =>
      s.took.inSession fn id fun s =>
        if (s.fn fn).tdisp = .unlocked then s.tdispReply fn true []
        else
          ((s.scrub fn).updFn fn fun f => { f with tdisp := .unlocked, noTlp := false, lockSession := 0, nonce := [] }).tdispReply
            fn true []
    | _ => s)

/-- The interface report: two MMIO ranges, MSI-X Message Control, and the device-specific part. -/
def State.report (s : State) (fn : Nat) : List Byte :=
  let f := s.fn fn
  Config.layout ([(f.cfgBars.getD 0 0).toNat, (f.cfgBars.getD 1 0).toNat, 0x40000, (f.cfgBars.getD 2 0).toNat,
      (f.cfgBars.getD 3 0).toNat, 0x4000, f.cfgMsix.toNat] ++ s.quadsOf fn ++ f.ways.map WayCfg.num
    ++ [f.fwways.toNat, f.keyEpoch]) ++ s.fnDigest fn

def execGetDeviceInterfaceReport (s : State) : Result :=
  .next (match s.inbox with
    | .getDeviceInterfaceReport fn id :: _ => s.took.inSession fn id fun s => s.tdispReply fn true (s.report fn)
    | _ => s)

def execGetDeviceInterfaceState (s : State) : Result :=
  .next (match s.inbox with
    | .getDeviceInterfaceState fn id :: _ =>
      s.took.inSession fn id fun s => s.tdispReply fn true [BitVec.ofNat 8 (tdispCode (s.fn fn).tdisp)]
    | _ => s)

/-- BIND_P2P receives ERROR with UnsupportedRequest. -/
def execBindP2p (s : State) : Result :=
  .next (match s.inbox with
    | .bindP2p fn id :: _ => s.took.inSession fn id fun s => s.tdispReply fn false [0x07]
    | _ => s)

/-- SET_MMIO_ATTRIBUTE receives ERROR with UnsupportedRequest. -/
def execSetMmioAttribute (s : State) : Result :=
  .next (match s.inbox with
    | .setMmioAttribute fn id :: _ => s.took.inSession fn id fun s => s.tdispReply fn false [0x07]
    | _ => s)

end Sys2Proof.Machine
end

