-- ==== Sys2Proof/Machine/Stalls.lean ====
section
/-! DEFINITION. The end of a sequencer's stall (R126, R147, R156). -/

namespace Sys2Proof.Machine

open Sys2Proof

/-- What a word that stalls for more than its tokens comes to; every other word stalls for tokens and signals alone
(R26, R27). -/
def stalledWord (i : Instr) (s : State) : Result :=
  match i with
  | .push q nq => execPush q nq s
  | .probe a d off => execProbe a d off s
  | .pwb a => execPwb a s
  | .pinv a => execPinv a s
  | .flushres a => execFlushres a s
  | .wait ldb stb cpb mtb => execWait ldb stb cpb mtb s
  | .waitx ch a d => execWaitx ch a d s
  | .ld base d sz slot off => execLd base d sz slot off s
  | .st base data sz off => execSt base data sz off s
  | .ald a sb d ty sc slot => execAld a sb d ty sc slot s
  | .ast a v ty sc => execAst a v ty sc s
  | .aadd a v d ty sc slot => execAadd a v d ty sc slot s
  | .aand a v d ty sc slot => execAand a v d ty sc slot s
  | .aor a v d ty sc slot => execAor a v d ty sc slot s
  | .axor a v d ty sc slot => execAxor a v d ty sc slot s
  | .amin a v d ty sc slot => execAmin a v d ty sc slot s
  | .amax a v d ty sc slot => execAmax a v d ty sc slot s
  | .aswp a v d ty sc slot => execAswp a v d ty sc slot s
  | .acas a expect new d ty sc slot => execAcas a expect new d ty sc slot s
  | .acas128 a n sx lx d sc slot => execAcas128 a n sx lx d sc slot s
  | .afadd a v d ty sc slot => execAfadd a v d ty sc slot s
  | .afmin a v d ty sc slot => execAfmin a v d ty sc slot s
  | .afmax a v d ty sc slot => execAfmax a v d ty sc slot s
  | .fence scope sc => execFence scope sc s
  | .bar scope id n => execBar scope id n s
  | .monw a v d => execMonw a v d s
  | .monc a v d => execMonc a v d s
  | .record a d wq slot => execRecord a d wq slot s
  | .recordHand a d wq slot => execRecordHand a d wq slot s
  | .rwait a d => execRwait a d s
  | .tend => execTend s
  | .yield => execYield s
  | .slunmap a d => execSlunmap a d s
  | .preempt a b d => execPreempt a b d s
  | .spill a b d => execSpill a b d s
  | .restore a b d => execRestore a b d s
  | .s1inv a b d => execS1inv a b d s
  | .s2inv a b d => execS2inv a b d s
  | .migout a sb lb d => execMigout a sb lb d s
  | .migin a sb lb d => execMigin a sb lb d s
  | .slmap a d => execSlmap a d s
  | .snaprd a b d => execSnaprd a b d s
  | .wmask a b d => execWmask a b d s
  | .qpark a d => execQpark a d s
  | .qresume a b d => execQresume a b d s
  | .fnbind a b d => execFnbind a b d s
  | .cycr a d => execCycr a d s
  | .throt a b d => execThrot a b d s
  | .dogset a b d => execDogset a b d s
  | .pgexp a b d => execPgexp a b d s
  | .pgimp a b d => execPgimp a b d s
  | .lkqry a d => execLkqry a d s
  | _ => .next (s.updSeq s.cur.core fun q => { q with stall := 0 })

/-- The word at which a sequencer stalls, and the state in which it would be tried. -/
def State.stalledAt (s : State) (c : Nat) : Option (Instr × State) :=
  if (s.seq c).stall = 0 then none
  else
    match s.attemptSeq c with
    | .word i t => some (i, t)
    | .done _ => none

/-- The condition of the stall is met: tried now, the word stalls no longer. -/
def canSequencerStallRelease (core : Nat) (s : State) : Bool :=
  match s.stalledAt core with
  | none => false
  | some (i, t) =>
    ((t.seq core).phase != 0 || (t.core core).chainReady .seq t.cur.chain)
      && (match stalledWord i t with
        | .next u => (u.seq core).stall == 0
        | _ => false)

/-- SEQUENCER_STALL_RELEASE: the sequencer issues again; its word is the next it tries. -/
def execSequencerStallRelease (core : Nat) (s : State) : Result :=
  .next (if canSequencerStallRelease core s then s.updSeq core fun q => { q with stall := 0 } else s)

end Sys2Proof.Machine
end

