-- ==== Sys2Proof/Machine/Dispatch.lean ====
section
/-! DEFINITION. One arm per constructor of `Instr`, each a direct call of that instruction's meaning. -/

namespace Sys2Proof.Machine

open Sys2Proof

def exec (i : Instr) (s : State) : Host.Outcome State Fault Refusal :=
  match i with
  | .bringupStageDone r => Sys2Proof.Machine.execBringupStageDone r s
  | .hbmUncorrectableRead line => Sys2Proof.Machine.execHbmUncorrectableRead line s
  | .hbmRereadResult line ok => Sys2Proof.Machine.execHbmRereadResult line ok s
  | .linkFlitCheckFail link => Sys2Proof.Machine.execLinkFlitCheckFail link s
  | .linkRetransmitResult link ok => Sys2Proof.Machine.execLinkRetransmitResult link ok s
  | .registerParityError core reg duplicate => Sys2Proof.Machine.execRegisterParityError core reg duplicate s
  | .parityRepairDone core => Sys2Proof.Machine.execParityRepairDone core s
  | .arrayUncorrectableError quad unit => Sys2Proof.Machine.execArrayUncorrectableError quad unit s
  | .pendingSignalDelivered core eng => Sys2Proof.Machine.execPendingSignalDelivered core eng s
  | .engineWordComplete core eng wid => Sys2Proof.Machine.execEngineWordComplete core eng wid s
  | .commandRetire core eng => Sys2Proof.Machine.execCommandRetire core eng s
  | .bodyFetch core eng => Sys2Proof.Machine.execBodyFetch core eng s
  | .bodyFetchFaultTaken core eng => Sys2Proof.Machine.execBodyFetchFaultTaken core eng s
  | .leaseRequest core => Sys2Proof.Machine.execLeaseRequest core s
  | .leaseGrant quad => Sys2Proof.Machine.execLeaseGrant quad s
  | .leaseCycleLimit quad => Sys2Proof.Machine.execLeaseCycleLimit quad s
  | .landingDrop core => Sys2Proof.Machine.execLandingDrop core s
  | .lateLandingFreeze core => Sys2Proof.Machine.execLateLandingFreeze core s
  | .landingDataArrived core id => Sys2Proof.Machine.execLandingDataArrived core id s
  | .sequencerStallRelease core => Sys2Proof.Machine.execSequencerStallRelease core s
  | .barrierRelease fn scope inst id => Sys2Proof.Machine.execBarrierRelease fn scope inst id s
  | .monitorWake core => Sys2Proof.Machine.execMonitorWake core s
  | .monitorRearmTimer core => Sys2Proof.Machine.execMonitorRearmTimer core s
  | .probeFillComplete core slot => Sys2Proof.Machine.execProbeFillComplete core slot s
  | .vectorRelocation owner => Sys2Proof.Machine.execVectorRelocation owner s
  | .hubRequestArrive req => Sys2Proof.Machine.execHubRequestArrive req s
  | .hubLookup slice => Sys2Proof.Machine.execHubLookup slice s
  | .hbmFillArrive slice line => Sys2Proof.Machine.execHbmFillArrive slice line s
  | .hbmRowClose die row => Sys2Proof.Machine.execHbmRowClose die row s
  | .atomicOperation req => Sys2Proof.Machine.execAtomicOperation req s
  | .replicaInvalidate die line => Sys2Proof.Machine.execReplicaInvalidate die line s
  | .replicaAckComplete req => Sys2Proof.Machine.execReplicaAckComplete req s
  | .replicationWindowEnd die => Sys2Proof.Machine.execReplicationWindowEnd die s
  | .fenceSweepAnswer core die => Sys2Proof.Machine.execFenceSweepAnswer core die s
  | .addendVerdict req => Sys2Proof.Machine.execAddendVerdict req s
  | .priorityAddendEntry slice => Sys2Proof.Machine.execPriorityAddendEntry slice s
  | .verdictReceived req => Sys2Proof.Machine.execVerdictReceived req s
  | .refusedAddendHeld req => Sys2Proof.Machine.execRefusedAddendHeld req s
  | .addendApply req => Sys2Proof.Machine.execAddendApply req s
  | .applyNotice req => Sys2Proof.Machine.execApplyNotice req s
  | .residualAgeExpiry core slot => Sys2Proof.Machine.execResidualAgeExpiry core slot s
  | .submissionDecided die => Sys2Proof.Machine.execSubmissionDecided die s
  | .recordStart fn wq => Sys2Proof.Machine.execRecordStart fn wq s
  | .taskDispatch die => Sys2Proof.Machine.execTaskDispatch die s
  | .freewheelCleanHit die => Sys2Proof.Machine.execFreewheelCleanHit die s
  | .freewheelDirtyHitDone die => Sys2Proof.Machine.execFreewheelDirtyHitDone die s
  | .freewheelEntryMade core => Sys2Proof.Machine.execFreewheelEntryMade core s
  | .watchMessage msg => Sys2Proof.Machine.execWatchMessage msg s
  | .taskComplete core => Sys2Proof.Machine.execTaskComplete core s
  | .priorityDonation core => Sys2Proof.Machine.execPriorityDonation core s
  | .donationTimeout core => Sys2Proof.Machine.execDonationTimeout core s
  | .yieldOffer core => Sys2Proof.Machine.execYieldOffer core s
  | .hangWatchdogExpiry core => Sys2Proof.Machine.execHangWatchdogExpiry core s
  | .stopComplete core => Sys2Proof.Machine.execStopComplete core s
  | .stopDeadlineExpiry core => Sys2Proof.Machine.execStopDeadlineExpiry core s
  | .invalidationEpochDrained fn => Sys2Proof.Machine.execInvalidationEpochDrained fn s
  | .thermalThrottle die => Sys2Proof.Machine.execThermalThrottle die s
  | .thermalDutyStep die => Sys2Proof.Machine.execThermalDutyStep die s
  | .thermalStop die => Sys2Proof.Machine.execThermalStop die s
  | .thermalRecover die => Sys2Proof.Machine.execThermalRecover die s
  | .powerLimitFreeze die core on => Sys2Proof.Machine.execPowerLimitFreeze die core on s
  | .shareWindow res => Sys2Proof.Machine.execShareWindow res s
  | .add a b d ty => Sys2Proof.Machine.execAdd a b d ty s
  | .sub a b d ty => Sys2Proof.Machine.execSub a b d ty s
  | .and a b d ty => Sys2Proof.Machine.execAnd a b d ty s
  | .or a b d ty => Sys2Proof.Machine.execOr a b d ty s
  | .xor a b d ty => Sys2Proof.Machine.execXor a b d ty s
  | .andn a b d ty => Sys2Proof.Machine.execAndn a b d ty s
  | .shl a b d ty => Sys2Proof.Machine.execShl a b d ty s
  | .shr a b d ty => Sys2Proof.Machine.execShr a b d ty s
  | .sar a b d ty => Sys2Proof.Machine.execSar a b d ty s
  | .rol a b d ty => Sys2Proof.Machine.execRol a b d ty s
  | .min a b d ty => Sys2Proof.Machine.execMin a b d ty s
  | .max a b d ty => Sys2Proof.Machine.execMax a b d ty s
  | .mul a b d ty => Sys2Proof.Machine.execMul a b d ty s
  | .mulh a b d ty => Sys2Proof.Machine.execMulh a b d ty s
  | .div a b d ty => Sys2Proof.Machine.execDiv a b d ty s
  | .rem a b d ty => Sys2Proof.Machine.execRem a b d ty s
  | .neg a d ty => Sys2Proof.Machine.execNeg a d ty s
  | .clz a d ty => Sys2Proof.Machine.execClz a d ty s
  | .ctz a d ty => Sys2Proof.Machine.execCtz a d ty s
  | .popc a d ty => Sys2Proof.Machine.execPopc a d ty s
  | .mov a d ty => Sys2Proof.Machine.execMov a d ty s
  | .cmp a b d cc => Sys2Proof.Machine.execCmp a b d cc s
  | .addi a d imm => Sys2Proof.Machine.execAddi a d imm s
  | .andi a d imm => Sys2Proof.Machine.execAndi a d imm s
  | .ori a d imm => Sys2Proof.Machine.execOri a d imm s
  | .xori a d imm => Sys2Proof.Machine.execXori a d imm s
  | .shli a d ty amt => Sys2Proof.Machine.execShli a d ty amt s
  | .shri a d ty amt => Sys2Proof.Machine.execShri a d ty amt s
  | .sari a d ty amt => Sys2Proof.Machine.execSari a d ty amt s
  | .li d imm => Sys2Proof.Machine.execLi d imm s
  | .sel c a b d => Sys2Proof.Machine.execSel c a b d s
  | .extb a d sgn pos lenM1 => Sys2Proof.Machine.execExtb a d sgn pos lenM1 s
  | .insb a b d pos lenM1 => Sys2Proof.Machine.execInsb a b d pos lenM1 s
  | .idx lv d imm => Sys2Proof.Machine.execIdx lv d imm s
  | .csrr csr d => Sys2Proof.Machine.execCsrr csr d s
  | .csrw csr a => Sys2Proof.Machine.execCsrw csr a s
  | .ld base d sz slot off => Sys2Proof.Machine.execLd base d sz slot off s
  | .st base data sz off => Sys2Proof.Machine.execSt base data sz off s
  | .b off => Sys2Proof.Machine.execB off s
  | .bcc a b cc off => Sys2Proof.Machine.execBcc a b cc off s
  | .jmp a off => Sys2Proof.Machine.execJmp a off s
  | .call d off => Sys2Proof.Machine.execCall d off s
  | .ret a => Sys2Proof.Machine.execRet a s
  | .loop n stg plen blen => Sys2Proof.Machine.execLoop n stg plen blen s
  | .lend epl => Sys2Proof.Machine.execLend epl s
  | .trap code => Sys2Proof.Machine.execTrap code s
  | .svc val code => Sys2Proof.Machine.execSvc val code s
  | .push q nq => Sys2Proof.Machine.execPush q nq s
  | .wait ldb stb cpb mtb => Sys2Proof.Machine.execWait ldb stb cpb mtb s
  | .fence scope sc => Sys2Proof.Machine.execFence scope sc s
  | .bar scope id n => Sys2Proof.Machine.execBar scope id n s
  | .ald a sb d ty sc slot => Sys2Proof.Machine.execAld a sb d ty sc slot s
  | .ast a v ty sc => Sys2Proof.Machine.execAst a v ty sc s
  | .aadd a v d ty sc slot => Sys2Proof.Machine.execAadd a v d ty sc slot s
  | .aand a v d ty sc slot => Sys2Proof.Machine.execAand a v d ty sc slot s
  | .aor a v d ty sc slot => Sys2Proof.Machine.execAor a v d ty sc slot s
  | .axor a v d ty sc slot => Sys2Proof.Machine.execAxor a v d ty sc slot s
  | .amin a v d ty sc slot => Sys2Proof.Machine.execAmin a v d ty sc slot s
  | .amax a v d ty sc slot => Sys2Proof.Machine.execAmax a v d ty sc slot s
  | .aswp a v d ty sc slot => Sys2Proof.Machine.execAswp a v d ty sc slot s
  | .acas a expect new d ty sc slot => Sys2Proof.Machine.execAcas a expect new d ty sc slot s
  | .acas128 a n sx lx d sc slot => Sys2Proof.Machine.execAcas128 a n sx lx d sc slot s
  | .afadd a v d ty sc slot => Sys2Proof.Machine.execAfadd a v d ty sc slot s
  | .afmin a v d ty sc slot => Sys2Proof.Machine.execAfmin a v d ty sc slot s
  | .afmax a v d ty sc slot => Sys2Proof.Machine.execAfmax a v d ty sc slot s
  | .monw a v d => Sys2Proof.Machine.execMonw a v d s
  | .monc a v d => Sys2Proof.Machine.execMonc a v d s
  | .flushres a => Sys2Proof.Machine.execFlushres a s
  | .bpqry kind d => Sys2Proof.Machine.execBpqry kind d s
  | .probe a d off => Sys2Proof.Machine.execProbe a d off s
  | .pwb a => Sys2Proof.Machine.execPwb a s
  | .pinv a => Sys2Proof.Machine.execPinv a s
  | .waitx ch a d => Sys2Proof.Machine.execWaitx ch a d s
  | .xwr ch d => Sys2Proof.Machine.execXwr ch d s
  | .record a d wq slot => Sys2Proof.Machine.execRecord a d wq slot s
  | .recordHand a d wq slot => Sys2Proof.Machine.execRecordHand a d wq slot s
  | .rwait a d => Sys2Proof.Machine.execRwait a d s
  | .fwinv a => Sys2Proof.Machine.execFwinv a s
  | .fwqry kind d => Sys2Proof.Machine.execFwqry kind d s
  | .slmap a d => Sys2Proof.Machine.execSlmap a d s
  | .slunmap a d => Sys2Proof.Machine.execSlunmap a d s
  | .preempt a b d => Sys2Proof.Machine.execPreempt a b d s
  | .spill a b d => Sys2Proof.Machine.execSpill a b d s
  | .restore a b d => Sys2Proof.Machine.execRestore a b d s
  | .snaprd a b d => Sys2Proof.Machine.execSnaprd a b d s
  | .wmask a b d => Sys2Proof.Machine.execWmask a b d s
  | .qpark a d => Sys2Proof.Machine.execQpark a d s
  | .qresume a b d => Sys2Proof.Machine.execQresume a b d s
  | .s1inv a b d => Sys2Proof.Machine.execS1inv a b d s
  | .s2inv a b d => Sys2Proof.Machine.execS2inv a b d s
  | .migout a sb lb d => Sys2Proof.Machine.execMigout a sb lb d s
  | .migin a sb lb d => Sys2Proof.Machine.execMigin a sb lb d s
  | .fnbind a b d => Sys2Proof.Machine.execFnbind a b d s
  | .cycr a d => Sys2Proof.Machine.execCycr a d s
  | .throt a b d => Sys2Proof.Machine.execThrot a b d s
  | .dogset a b d => Sys2Proof.Machine.execDogset a b d s
  | .pgexp a b d => Sys2Proof.Machine.execPgexp a b d s
  | .pgimp a b d => Sys2Proof.Machine.execPgimp a b d s
  | .lkqry a d => Sys2Proof.Machine.execLkqry a d s
  | .ldt ch xf rm sat len => Sys2Proof.Machine.execLdt ch xf rm sat len s
  | .stt ch xf rm sat len => Sys2Proof.Machine.execStt ch xf rm sat len s
  | .ldo ch sideB slot len => Sys2Proof.Machine.execLdo ch sideB slot len s
  | .gth ch esz cnt => Sys2Proof.Machine.execGth ch esz cnt s
  | .sct ch esz cnt => Sys2Proof.Machine.execSct ch esz cnt s
  | .cvd w => Sys2Proof.Machine.execCvd w s
  | .cvq w => Sys2Proof.Machine.execCvq w s
  | .xid ch => Sys2Proof.Machine.execXid ch s
  | .acc ch ty len => Sys2Proof.Machine.execAcc ch ty len s
  | .pset ps fld imm => Sys2Proof.Machine.execPset ps fld imm s
  | .pbind port ps => Sys2Proof.Machine.execPbind port ps s
  | .pskip port n => Sys2Proof.Machine.execPskip port n s
  | .vadd d a b ty rm mk sat => Sys2Proof.Machine.execVadd d a b ty rm mk sat s
  | .vsub d a b ty rm mk sat => Sys2Proof.Machine.execVsub d a b ty rm mk sat s
  | .vmul d a b ty rm mk sat => Sys2Proof.Machine.execVmul d a b ty rm mk sat s
  | .vfma d a b c tf rm mk => Sys2Proof.Machine.execVfma d a b c tf rm mk s
  | .vfms d a b c tf rm mk => Sys2Proof.Machine.execVfms d a b c tf rm mk s
  | .vfnma d a b c tf rm mk => Sys2Proof.Machine.execVfnma d a b c tf rm mk s
  | .vdiv d a b tf rm mk => Sys2Proof.Machine.execVdiv d a b tf rm mk s
  | .vsqrt d a tf rm mk => Sys2Proof.Machine.execVsqrt d a tf rm mk s
  | .vrcp d a tf rm mk => Sys2Proof.Machine.execVrcp d a tf rm mk s
  | .vrsq d a tf rm mk => Sys2Proof.Machine.execVrsq d a tf rm mk s
  | .vmin d a b ty mk => Sys2Proof.Machine.execVmin d a b ty mk s
  | .vmax d a b ty mk => Sys2Proof.Machine.execVmax d a b ty mk s
  | .vabs d a ty mk sat => Sys2Proof.Machine.execVabs d a ty mk sat s
  | .vneg d a ty mk sat => Sys2Proof.Machine.execVneg d a ty mk sat s
  | .vcmp md a b cond ty mk => Sys2Proof.Machine.execVcmp md a b cond ty mk s
  | .vsel d a b ms mk => Sys2Proof.Machine.execVsel d a b ms mk s
  | .vand d a b mk => Sys2Proof.Machine.execVand d a b mk s
  | .vor d a b mk => Sys2Proof.Machine.execVor d a b mk s
  | .vxor d a b mk => Sys2Proof.Machine.execVxor d a b mk s
  | .vshl d a b ty mk => Sys2Proof.Machine.execVshl d a b ty mk s
  | .vshr d a b ty mk => Sys2Proof.Machine.execVshr d a b ty mk s
  | .vsar d a b ty mk => Sys2Proof.Machine.execVsar d a b ty mk s
  | .vcvt d a ty dt rm mk sat h => Sys2Proof.Machine.execVcvt d a ty dt rm mk sat h s
  | .vrnd d a tf rm mk => Sys2Proof.Machine.execVrnd d a tf rm mk s
  | .vexp2 d a tf rm mk => Sys2Proof.Machine.execVexp2 d a tf rm mk s
  | .vlog2 d a tf rm mk => Sys2Proof.Machine.execVlog2 d a tf rm mk s
  | .vred d a op ty rm mk => Sys2Proof.Machine.execVred d a op ty rm mk s
  | .vscan d a op ty rm mk => Sys2Proof.Machine.execVscan d a op ty rm mk s
  | .vperm d a b mk => Sys2Proof.Machine.execVperm d a b mk s
  | .vbcast d a lane => Sys2Proof.Machine.execVbcast d a lane s
  | .vbcastHi d imm => Sys2Proof.Machine.execVbcastHi d imm s
  | .vbcastLo d imm => Sys2Proof.Machine.execVbcastLo d imm s
  | .vrot d a amt mk => Sys2Proof.Machine.execVrot d a amt mk s
  | .vmov d a mk => Sys2Proof.Machine.execVmov d a mk s
  | .vmovFlg d mk => Sys2Proof.Machine.execVmovFlg d mk s
  | .vmovTab a => Sys2Proof.Machine.execVmovTab a s
  | .mset md n => Sys2Proof.Machine.execMset md n s
  | .msetV md a => Sys2Proof.Machine.execMsetV md a s
  | .mand md ma mb ia ib => Sys2Proof.Machine.execMand md ma mb ia ib s
  | .mor md ma mb ia ib => Sys2Proof.Machine.execMor md ma mb ia ib s
  | .vconj d a tf mk => Sys2Proof.Machine.execVconj d a tf mk s
  | .vnorm d a tf rm mk => Sys2Proof.Machine.execVnorm d a tf rm mk s
  | .vamul d a b tf rm mk => Sys2Proof.Machine.execVamul d a b tf rm mk s
  | .vcomp d a x tf k4 => Sys2Proof.Machine.execVcomp d a x tf k4 s
  | .vdcmp d a x tf k4 => Sys2Proof.Machine.execVdcmp d a x tf k4 s
  | .vhad d a tf rm mk inv lead blk => Sys2Proof.Machine.execVhad d a tf rm mk inv lead blk s
  | .vqnt d a sv tf rm mf blk => Sys2Proof.Machine.execVqnt d a sv tf rm mf blk s
  | .vdq d a sv tf rm mf blk => Sys2Proof.Machine.execVdq d a sv tf rm mf blk s
  | .mclaim side mask => Sys2Proof.Machine.execMclaim side mask s
  | .claimGranted core => Sys2Proof.Machine.execClaimGranted core s
  | .mrel side mask => Sys2Proof.Machine.execMrel side mask s
  | .mtab st pre => Sys2Proof.Machine.execMtab st pre s
  | .mtabSlot st sideB slot off => Sys2Proof.Machine.execMtabSlot st sideB slot off s
  | .mzero pmask => Sys2Proof.Machine.execMzero pmask s
  | .mma w => Sys2Proof.Machine.execMma w s
  | .mmas w k4 => Sys2Proof.Machine.execMmas w k4 s
  | .mmat w => Sys2Proof.Machine.execMmat w s
  | .mout w rm => Sys2Proof.Machine.execMout w rm s
  | .maccld w => Sys2Proof.Machine.execMaccld w s
  | .mfill w => Sys2Proof.Machine.execMfill w s
  | .mfillAcc pl val => Sys2Proof.Machine.execMfillAcc pl val s
  | .mqry soff => Sys2Proof.Machine.execMqry soff s
  | .illegalInstruction w => Sys2Proof.Machine.execIllegalInstruction w s
  | .watchAcknowledgement watch => Sys2Proof.Machine.execWatchAcknowledgement watch s
  | .powerUp => Sys2Proof.Machine.execPowerUp s
  | .fundamentalOrHotReset => Sys2Proof.Machine.execFundamentalOrHotReset s
  | .stageBoundExceeded => Sys2Proof.Machine.execStageBoundExceeded s
  | .alwaysOnPowerLoss => Sys2Proof.Machine.execAlwaysOnPowerLoss s
  | .chainPeriodRecord => Sys2Proof.Machine.execChainPeriodRecord s
  | .eret => Sys2Proof.Machine.execEret s
  | .nop => Sys2Proof.Machine.execNop s
  | .tend => Sys2Proof.Machine.execTend s
  | .yield => Sys2Proof.Machine.execYield s
  | .engineNop => Sys2Proof.Machine.execEngineNop s
  | .vmovClr => Sys2Proof.Machine.execVmovClr s
  | .mlease => Sys2Proof.Machine.execMlease s
  | .munlease => Sys2Proof.Machine.execMunlease s
  | .mgang => Sys2Proof.Machine.execMgang s
  | .mungang => Sys2Proof.Machine.execMungang s
  | .msync => Sys2Proof.Machine.execMsync s
  | .mainPowerLoss => Sys2Proof.Machine.execMainPowerLoss s
  | .hostLinkTrained => Sys2Proof.Machine.execHostLinkTrained s
  | .functionLevelReset => Sys2Proof.Machine.execFunctionLevelReset s
  | .doorbell => Sys2Proof.Machine.execDoorbell s
  | .create => Sys2Proof.Machine.execCreate s
  | .destroy => Sys2Proof.Machine.execDestroy s
  | .setQuads => Sys2Proof.Machine.execSetQuads s
  | .setShares => Sys2Proof.Machine.execSetShares s
  | .migrateOut => Sys2Proof.Machine.execMigrateOut s
  | .acceptMigration => Sys2Proof.Machine.execAcceptMigration s
  | .pageExport => Sys2Proof.Machine.execPageExport s
  | .pageImport => Sys2Proof.Machine.execPageImport s
  | .actRetry => Sys2Proof.Machine.execActRetry s
  | .actValue => Sys2Proof.Machine.execActValue s
  | .actEnd => Sys2Proof.Machine.execActEnd s
  | .invvaWrite => Sys2Proof.Machine.execInvvaWrite s
  | .registerWrite => Sys2Proof.Machine.execRegisterWrite s
  | .configWrite => Sys2Proof.Machine.execConfigWrite s
  | .ideIntegrityFailure => Sys2Proof.Machine.execIdeIntegrityFailure s
  | .getVersion => Sys2Proof.Machine.execGetVersion s
  | .getCapabilities => Sys2Proof.Machine.execGetCapabilities s
  | .negotiateAlgorithms => Sys2Proof.Machine.execNegotiateAlgorithms s
  | .getDigests => Sys2Proof.Machine.execGetDigests s
  | .getCertificate => Sys2Proof.Machine.execGetCertificate s
  | .challenge => Sys2Proof.Machine.execChallenge s
  | .getMeasurements => Sys2Proof.Machine.execGetMeasurements s
  | .keyExchange => Sys2Proof.Machine.execKeyExchange s
  | .finish => Sys2Proof.Machine.execFinish s
  | .endSession => Sys2Proof.Machine.execEndSession s
  | .heartbeat => Sys2Proof.Machine.execHeartbeat s
  | .keyUpdate => Sys2Proof.Machine.execKeyUpdate s
  | .ideKm => Sys2Proof.Machine.execIdeKm s
  | .unsupportedSpdmRequest => Sys2Proof.Machine.execUnsupportedSpdmRequest s
  | .lockInterfaceRequest => Sys2Proof.Machine.execLockInterfaceRequest s
  | .startInterfaceRequest => Sys2Proof.Machine.execStartInterfaceRequest s
  | .stopInterfaceRequest => Sys2Proof.Machine.execStopInterfaceRequest s
  | .getDeviceInterfaceReport => Sys2Proof.Machine.execGetDeviceInterfaceReport s
  | .getDeviceInterfaceState => Sys2Proof.Machine.execGetDeviceInterfaceState s
  | .bindP2p => Sys2Proof.Machine.execBindP2p s
  | .setMmioAttribute => Sys2Proof.Machine.execSetMmioAttribute s
  | .migrationPageArrival => Sys2Proof.Machine.execMigrationPageArrival s
  | .doeDiscovery => Sys2Proof.Machine.execDoeDiscovery s

end Sys2Proof.Machine
end

