-- ==== Sys2Proof/Machine/Schedule.lean ====
section
/-! DEFINITION. Which agent moves next (entry 1), and where an instruction is placed so that the next step fetches
it. -/

namespace Sys2Proof.Machine

open Sys2Proof

/-- Time passes before a step (entry 1). -/
def State.tick (s : State) : State :=
  { s with wall := s.wall + Config.elapsed s.freeCtr, freeCtr := s.freeCtr + 1 }

/-- An action's agent exists (R19, R21), and the action is an event, not a word of a stream. -/
def Action.ok : Action → Bool
  | .event i => i.wf && !([Engine.seq, .load, .vec, .mat, .store].any fun e => i.inStream e)
      && !(match i with
        | .illegalInstruction _ => true
        | _ => false)
  | .issue c e => c < 384 || (c == 384 && e == .seq)

/-- An engine's attempt to issue its next word. Without main power nothing issues. -/
def State.attempt (s : State) (c : Nat) (e : Engine) : Attempt :=
  if !s.boot.mainPower then .done s
  else
    match e with
    | .seq => s.attemptSeq c
    | _ => s.attemptEngine c e

/-- The base of the code that `State.place` lays out: a virtual and a physical address. -/
def placeBase : Nat := 0x10000

/-- The task that a placed word of an ordinary core belongs to. -/
def codeTask (s : State) : Task where
  fn := 1
  wq := 0
  rseq := 0
  tseq := 0
  idx := []
  arg := 0
  prio := 0
  effPrio := 0
  isPure := false
  strict := false
  reloc := false
  resid := false
  spreq := (s.core 0).spreq
  gang := 0
  members := [0]
  code := List.replicate 5 (dbl placeBase, 16)
  regions := []
  handed := []
  irrevocable := false
  eligible := true
  wd := 0
  stopping := none
  stopped := none
  stopBy := none
  stoppedAt := 0
  parked := false
  finished := false
  yielded := false
  settling := []
  pureInfo := none

/-- Words as bytes, each little-endian (R6). -/
def wordBytes (ws : List Word) : List Byte := ws.flatMap fun w => leBytes 4 w.toNat

/-- A sequencer ready to issue at an address. -/
def Seq.ready (q : Seq) (pc : Dbl) : Seq :=
  { q with pc := pc, occ := 0, pendTrap := none, phase := 0, halted := false, fell := false, landing := [], stall := 0 }

/-- The words stand at the Derailleur's program counter in the firmware region. -/
def State.placeDerailleur (s : State) (ws : List Word) : State :=
  let s := { s with pf0 := { s.pf0 with halt := false }, actor := (derailleur, .seq), schedule := [] }
  let pc : Dbl := if s.inCode derailleur (s.seq derailleur).pc then (s.seq derailleur).pc else 0xFF0000000
  let s := s.writePhys 1 pc.toNat (wordBytes ws)
  s.updCore derailleur fun x => { x with freezes := [], seq := x.seq.ready pc }

/-- The words stand at the program counter of core 0, in a task of function 1 whose code page is translated. -/
def State.placeCore (s : State) (ws : List Word) : State :=
  let s := { s with actor := (0, .seq), schedule := [] }
  let e : TlbEntry := ⟨1, s.rootOf 1 0, 0x10000, 0x10000, placeBase, placeBase, placeBase, 0b1111, 0b11, false, 0, false, true⟩
  let s := s.writePhys (s.fn 1).key placeBase (wordBytes ws)
  s.updCore 0 fun x =>
    { x with task := some (codeTask s), freezes := [], tlb := e :: x.tlb, seq := x.seq.ready (dbl placeBase) }

/-- A command whose body is the words: no dimensions, one iteration. -/
def placeCmd (s : State) (ws : List Word) : Cmd where
  uid := s.nextId
  slot := 0
  cw0 := 0
  cw1 := 0
  cw2 := 0
  cw3 := 0
  nest := ⟨[], [], [], [], []⟩
  regions := []
  desc := CopyDesc.none
  edges := []
  waits := []
  epoch := (s.core 0).epoch
  bodyAddr := dbl placeBase
  body := some ws
  fetchFault := none
  started := true
  pos := 0
  idx := []
  iters := 0
  allIssued := false
  wids := []
  reloc := false
  ctx := none
  xlat := []
  takenBy := none
  faulted := false

/-- The words are the body of the command at the head of an engine's queue on core 0, which holds its array's lease. -/
def State.placeEngine (s : State) (e : Engine) (ws : List Word) : State :=
  let s := s.placeCore []
  let k := placeCmd s ws
  let s := s.updCore 0 fun x => (x.updFlow e fun f => { f with psp := false, psn := false }).updQueue e fun _ => [k]
  let s := s.updQuad 0 fun q => { q with leaseHolder := some 0, leaseOver := false }
  { s with actor := (0, e), nextId := s.nextId + 1 }

/-- The words stand where the machine fetches its next instruction (entry 1). -/
def State.place (s : State) (ws : List Word) : State :=
  match decodeAny ws with
  | some (.seq, i, _) => if allowedOn 0 i then s.placeCore (ws ++ [0]) else s.placeDerailleur (ws ++ [0])
  | some (e, _, n) => s.placeEngine e (ws.take n)
  | none => s.placeCore (ws ++ [0])

end Sys2Proof.Machine
end

