-- ==== Sys2Proof/Machine/Step.lean ====
section
/-! DEFINITION. One step of the machine: the next action of the schedule, or, where it is empty, the next word of the
acting engine (entry 1). -/

namespace Sys2Proof.Machine

open Sys2Proof

/-- An attempt that found a word executes it. -/
def runAttempt : Attempt → Host.Outcome State Fault Refusal
  | .word i s => exec i s
  | .done s => .next s

def step (s : State) : Host.Outcome State Fault Refusal :=
  let s := s.tick
  match s.schedule with
  | a :: rest =>
    if a.ok then
      match a with
      | .event i => exec i { s with schedule := rest }
      | .issue c e => runAttempt ({ s with schedule := rest }.attempt c e)
    else .fault .illFormedAction
  | [] => runAttempt (s.attempt s.actor.1 s.actor.2)

def State.withFetchWord (s : State) (nbits w : Nat) : State := s.place (tableWords nbits w)

end Sys2Proof.Machine
end

