-- ==== Sys2Proof/Safety.lean ====
section
/-! DEFINITION. The terms in which the statements speak of a safe step: when a word can issue, what a word that issued has
changed, and what it has left as it was. -/

namespace Sys2Proof.Safety

open Sys2Proof Sys2Proof.Machine

/-- The step answers a next state. -/
def Goes (s : State) : Prop := ∃ t, step s = .next t

/-- The instruction answers a next state. -/
def Runs (i : Instr) (s : State) : Prop := ∃ t, exec i s = .next t

/-! ## Sequencer words -/

/-- The operand of a sequencer word that a selector names (R120). -/
def operand (s : State) (a : Src) : Dbl :=
  match a with
  | .belt i => (s.seq s.cur.core).belt.getD i.toNat 0
  | .named k _ => (s.seq s.cur.core).named.getD k.toNat 0

/-- The current word of a sequencer has not begun; its tokens are there and no register it reads is released (R26,
R121). -/
def Fresh (s : State) (reads : List Src) : Prop :=
  (s.seq s.cur.core).phase = 0 ∧ (s.core s.cur.core).chainReady .seq s.cur.chain = true
    ∧ (s.seq s.cur.core).releasedRead reads = none

/-- The belt after a result that enters at b0 (R120). -/
def beltAfter (old : List Dbl) : Option (Dbl × Dest) → List Dbl
  | some (v, .belt) => v :: old.take 15
  | _ => old

/-- The named registers after a result. -/
def namedAfter (old : List Dbl) : Option (Dbl × Dest) → List Dbl
  | some (v, .named k) => old.set k.toNat v
  | _ => old

/-- Is a named register released after the word (R121): its mark of last read, or an earlier one, unless the result is
written to it? -/
def releasedAfter (old : BitVec 16) (marks : List Src) (res : Option (Dbl × Dest)) (k : BitVec 4) : Bool :=
  (match res with
    | some (_, .named j) => j != k
    | _ => true)
  && (old.getLsbD k.toNat || marks.contains (.named k true))

/-- Registers of a sequencer that a result reaches. -/
structure Wrote (q r : Seq) (marks : List Src) (res : Option (Dbl × Dest)) : Prop where
  belt : r.belt = beltAfter q.belt res
  named : r.named = namedAfter q.named res
  released : ∀ k : BitVec 4, r.released.getLsbD k.toNat = releasedAfter q.released marks res k

/-- Trap registers, loop stack, and what is in flight. -/
structure SpecialsKept (q r : Seq) : Prop where
  shadow : r.shadow = q.shadow
  handler : r.th = q.th ∧ r.tvec = q.tvec ∧ r.errc = q.errc
  saved : r.xpc = q.xpc ∧ r.xcause = q.xcause ∧ r.xaddr = q.xaddr ∧ r.xword = q.xword ∧ r.xinfo = q.xinfo
  loops : r.loops = q.loops ∧ r.cd = q.cd
  counts : r.ld = q.ld ∧ r.st = q.st ∧ r.cp = q.cp ∧ r.mt = q.mt
  flight : r.landing = q.landing ∧ r.stores = q.stores ∧ r.atomicReq = q.atomicReq

/-- Everything of a core but its sequencer, its tokens and signals, and the count of its watchdog. -/
structure EnginesKept (x y : Core) : Prop where
  queues : y.queues = x.queues
  copy : y.copy = x.copy
  vec : y.vec = x.vec
  mat : y.mat = x.mat
  monitors : y.mon = x.mon ∧ y.portMon = x.portMon
  freezes : y.freezes = x.freezes
  tlb : y.tlb = x.tlb
  rows : y.rows = x.rows ∧ y.spreq = x.spreq ∧ y.resreq = x.resreq
  epochs : y.epoch = x.epoch ∧ y.inflight0 = x.inflight0 ∧ y.inflight1 = x.inflight1
  resid : x.task.any (·.parked) = false → y.res = x.res
  task : (y.task.map fun t => { t with wd := 0 }) = x.task.map fun t => { t with wd := 0 }

/-- Memory of the package, its keys and its poison. -/
structure MemoryKept (s t : State) : Prop where
  bytes : ∀ a, memRead t.mem a = memRead s.mem a
  keys : t.memKey = s.memKey
  poison : t.poison = s.poison ∧ t.rereads = s.rereads

/-- Everything of the package outside its cores and its memory, but the numbers given and the free values used. -/
structure OutsideKept (s t : State) : Prop where
  quads : t.quads = s.quads
  dies : t.dies = s.dies
  slices : t.slices = s.slices
  fns : t.fns = s.fns
  reqs : t.reqs = s.reqs ∧ t.invs = s.invs ∧ t.watchMsgs = s.watchMsgs
  boot : t.boot = s.boot ∧ t.pf0 = s.pf0
  exports : t.exports = s.exports ∧ t.failedMarks = s.failedMarks ∧ t.nextKey = s.nextKey
  links : t.links = s.links ∧ t.log = s.log
  host : t.out = s.out ∧ t.inbox = s.inbox
  cur : t.cur = s.cur

/-- An address was looked up: translations may have entered TLBs, and a write may have set the dirty mark of a page's
table entry (R74). A walk looks its table entries up in the slices, where it may take ways and be counted (R275). -/
structure Looked (s t : State) : Prop where
  cores : ∀ k, ∃ l, t.core k = { s.core k with tlb := l }
  dies : ∀ d, ∃ l rs os, t.die d = { s.die d with tlb := l, replicas := rs, openRows := os }
  slices : ∀ i, ∃ ws, t.slice i = { s.slice i with ways := ws }
  fns : ∀ n, ∃ ms ps ts, t.fn n = { s.fn n with meters := ms, pending := ps, telemetry := ts }
  rest : ∃ cs ds ss fs m k j, t =
    { s with cores := cs, dies := ds, slices := ss, fns := fs, mem := m, memKey := k, freeCtr := j }

/-- A lookup of an access that does not write. -/
structure LookedRead (s t : State) : Prop extends Looked s t where
  memory : t.mem = s.mem ∧ t.memKey = s.memKey ∧ t.freeCtr = s.freeCtr

/-- The current word of a sequencer issued and left the engine after `clk` cycles: it wrote its result, released what it
marks, and the sequencer goes on at `pc`. `f` is all that it changed of its core beside; nothing else changed. -/
structure Retired (s t : State) (clk : Nat) (marks : List Src) (res : Option (Dbl × Dest)) (pc : Dbl)
    (f : Core → Core) : Prop where
  pc : (t.seq s.cur.core).pc = pc
  ready : (t.seq s.cur.core).stall = 0 ∧ (t.seq s.cur.core).phase = 0 ∧ (t.seq s.cur.core).occ = 0
  clock : (t.seq s.cur.core).cyc = (s.seq s.cur.core).cyc + clk
  wrote : Wrote (f (s.core s.cur.core)).seq (t.seq s.cur.core) marks res
  specials : SpecialsKept (f (s.core s.cur.core)).seq (t.seq s.cur.core)
  engines : EnginesKept (f (s.core s.cur.core)) (t.core s.cur.core)
  others : ∀ k, k ≠ s.cur.core → t.core k = s.core k
  memory : MemoryKept s t
  outside : OutsideKept s t

/-- What `Retired` says of the sequencer alone. -/
structure Stepped (q r : Seq) (clk : Nat) (marks : List Src) (res : Option (Dbl × Dest)) (pc : Dbl) (f : Seq → Seq) :
    Prop where
  pc : r.pc = pc
  ready : r.stall = 0 ∧ r.phase = 0 ∧ r.occ = 0
  clock : r.cyc = q.cyc + clk
  wrote : Wrote (f q) r marks res
  specials : SpecialsKept (f q) r

/-- The sequencer's current word stalls with a code (R126, R156): it does not issue, takes no token and writes nothing. -/
structure Stalled (s t : State) (code : Nat) : Prop where
  code : (t.seq s.cur.core).stall = code
  pc : (t.seq s.cur.core).pc = (s.seq s.cur.core).pc
  registers : (t.seq s.cur.core).belt = (s.seq s.cur.core).belt ∧ (t.seq s.cur.core).named = (s.seq s.cur.core).named
    ∧ (t.seq s.cur.core).released = (s.seq s.cur.core).released
  tokens : (t.core s.cur.core).tokens = (s.core s.cur.core).tokens
  memory : MemoryKept s t

/-- The further cycles of a word that occupies its sequencer for several (R125). -/
def after (c : Nat) : Nat → State → State
  | 0, s => s
  | n + 1, s => after c n (s.occCycle c)

/-- R144: the loop stack after a branch: levels whose range does not hold the target are left, innermost first, while
their call depth and TH are the current ones. -/
def left (target : Dbl) (l : List LoopLevel) (cd : Nat) (th : Bool) : List LoopLevel :=
  l.dropWhile fun v =>
    !(decide (v.start.toNat ≤ target.toNat) && decide (target.toNat ≤ v.last.toNat + 4 * v.epl)) && v.cd == cd && v.th == th

/-- A change of loops and call depth alone. -/
def withLoops (l : List LoopLevel → Nat → Bool → List LoopLevel) (d : Nat → Nat) (x : Core) : Core :=
  { x with seq := { x.seq with loops := l x.seq.loops x.seq.cd x.seq.th, cd := d x.seq.cd } }

/-! ## Traps (R152 to R155) -/

/-- The word that stands in XWORD: the word and its first EXT word (R123). -/
def xwordOf (s : State) : Dbl := s.cur.word.setWidth 64 ||| (s.cur.ext1.setWidth 64 <<< 32)

/-- R153: the handler is entered. Named registers, loop levels, counters and engine queues are untouched. -/
structure Entered (s t : State) (cause : Nat) (addr info xpc : Dbl) : Prop where
  xpc : (t.seq s.cur.core).xpc = xpc
  cause : (t.seq s.cur.core).xcause = BitVec.ofNat 64 cause
  addr : (t.seq s.cur.core).xaddr = addr
  info : (t.seq s.cur.core).xinfo = info
  word : (t.seq s.cur.core).xword = xwordOf s
  shadow : (t.seq s.cur.core).shadow = (s.seq s.cur.core).belt
  belt : (t.seq s.cur.core).belt = List.replicate 16 0
  th : (t.seq s.cur.core).th = true
  pc : (t.seq s.cur.core).pc = (s.seq s.cur.core).tvec
  clk : (t.seq s.cur.core).occ = 8
  named : (t.seq s.cur.core).named = (s.seq s.cur.core).named
    ∧ (t.seq s.cur.core).released = (s.seq s.cur.core).released
  kept : (t.seq s.cur.core).tvec = (s.seq s.cur.core).tvec ∧ (t.seq s.cur.core).loops = (s.seq s.cur.core).loops
    ∧ (t.seq s.cur.core).cd = (s.seq s.cur.core).cd ∧ (t.seq s.cur.core).errc = (s.seq s.cur.core).errc
  counts : (t.seq s.cur.core).ld = (s.seq s.cur.core).ld ∧ (t.seq s.cur.core).st = (s.seq s.cur.core).st
    ∧ (t.seq s.cur.core).cp = (s.seq s.cur.core).cp ∧ (t.seq s.cur.core).mt = (s.seq s.cur.core).mt
  engines : EnginesKept (s.core s.cur.core) (t.core s.cur.core)
  others : ∀ k, k ≠ s.cur.core → t.core k = s.core k
  memory : MemoryKept s t
  outside : OutsideKept s t

/-- R356, R358: the task of the current core parks its queue as unit 0, and its record is presented if none is. The
sequencer stands at `pc`; xcause, xpc, xaddr, xword and xinfo are as they were. -/
structure ParkedHere (s t : State) (k : Task) (cause : Nat) (double : Bool) (addr info pc : Dbl) : Prop where
  pc : (t.seq s.cur.core).pc = pc
  task : (t.core s.cur.core).task.any (·.parked) = true
  record : (s.wq k.fn k.wq).park = false → (t.wq k.fn k.wq).park = true
    ∧ (t.wq k.fn k.wq).pkrec =
      [BitVec.ofNat 64 (cause + (if double then 2 ^ 11 else 0) + s.cur.core / 24 * 2 ^ 12 + s.cur.core % 24 * 2 ^ 16),
        BitVec.ofNat 64 (k.rseq % 2 ^ 48), BitVec.ofNat 64 (k.tseq % 2 ^ 32), 0, s.cur.addr, addr, xwordOf s, info]
  waits : (s.wq k.fn k.wq).park = true → (t.wq k.fn k.wq).pkrec = (s.wq k.fn k.wq).pkrec
    ∧ (t.wq k.fn k.wq).parks.length = (s.wq k.fn k.wq).parks.length + 1
  belt : (t.seq s.cur.core).belt = (s.seq s.cur.core).belt ∧ (t.seq s.cur.core).named = (s.seq s.cur.core).named
    ∧ (t.seq s.cur.core).shadow = (s.seq s.cur.core).shadow
  first : (t.seq s.cur.core).xcause = (s.seq s.cur.core).xcause ∧ (t.seq s.cur.core).xpc = (s.seq s.cur.core).xpc
    ∧ (t.seq s.cur.core).xaddr = (s.seq s.cur.core).xaddr ∧ (t.seq s.cur.core).xword = (s.seq s.cur.core).xword
    ∧ (t.seq s.cur.core).xinfo = (s.seq s.cur.core).xinfo ∧ (t.seq s.cur.core).th = (s.seq s.cur.core).th
  memory : MemoryKept s t

/-- R356, R358: the task of a core parks its queue with a cause and a unit, and its record is presented if none is. -/
structure Parks (s t : State) (c : Nat) (k : Task) (cause unit : Nat) (urec : List Dbl) : Prop where
  task : (t.core c).task.any (·.parked) = true
  record : (s.wq k.fn k.wq).park = false → (t.wq k.fn k.wq).park = true
    ∧ (t.wq k.fn k.wq).pkrec =
      [BitVec.ofNat 64 (cause + unit * 2 ^ 8 + (c / 24 * 2 ^ 12 + c % 24 * 2 ^ 16)),
        BitVec.ofNat 64 (k.rseq % 2 ^ 48), BitVec.ofNat 64 (k.tseq % 2 ^ 32), 0] ++ (urec ++ [0, 0, 0, 0]).take 4
  waits : (s.wq k.fn k.wq).park = true → (t.wq k.fn k.wq).pkrec = (s.wq k.fn k.wq).pkrec
    ∧ (t.wq k.fn k.wq).parks.length = (s.wq k.fn k.wq).parks.length + 1

/-- A change of one command of a core's queues. -/
def onCmd (e : Engine) (uid : Nat) (f : Cmd → Cmd) (l : List (List Cmd)) : List (List Cmd) :=
  l.modify (queueIdx e) fun q => q.map fun j => if j.uid = uid then f j else j

/-! ## Waits (R93, R149) -/

/-- R93: a request is performed at a scope: nothing of it is left, or, within a die, no more than replica
acknowledgements. -/
def Performed (s : State) (sc : Scope) (id : Nat) : Prop :=
  match s.reqs.find? fun r => r.id == id with
  | none => True
  | some r => (sc = .core ∨ sc = .quad ∨ sc = .die) ∧ r.phase = .acks

/-- R93, R194, R299: what a fence or a barrier of a scope waits for has come about on a core, and no probe line is
dirty. -/
structure Settled (s : State) (c : Nat) (sc : Scope) : Prop where
  stores : ∀ p ∈ (s.seq c).stores, ∀ id ∈ p.reqs, Performed s sc id
  writeBacks : ∀ w ∈ (s.core c).copy.wbs, Performed s sc w.1
  atomic : ∀ id, (s.seq c).atomicReq = some id → Performed s sc id
  addends : sc ≠ .core → (s.core c).res.pend = 0 ∧ (s.core c).res.prio = 0
  lines : sc ≠ .core → ∀ l ∈ (s.core c).copy.lines, l.state = .valid → l.dirty = 0

/-- Everything but one core's sequencer is as it was, free values and numbers apart. -/
structure OnlySeq (s t : State) (c : Nat) : Prop where
  core : ∃ q, t.core c = { s.core c with seq := q }
  others : ∀ k, k ≠ c → t.core k = s.core k
  memory : MemoryKept s t
  outside : OutsideKept s t

/-! ## Atomics (R281, R283) -/

/-- An atomic word: its operation, type and order, its address, the operands it reads, their values, and what lands. -/
structure AtomicForm where
  op : AtOp
  ty : AtTy
  sc : Bool
  addr : Src
  reads : List Src
  value : BitVec 128
  other : BitVec 128
  lands : Option (LandKind × Dest × Nat)
  deriving DecidableEq, Repr

/-- Two consecutive named registers as a quad, the first its low half. -/
def quadOperand (s : State) (k : Nat) : BitVec 128 :=
  (s.seq s.cur.core).named.getD (k + 1) 0 ++ (s.seq s.cur.core).named.getD k 0

/-- Table Atomic instructions: the operation of each word. -/
def atomicForm (s : State) : Instr → Option AtomicForm
  | .ald a _ d ty sc n => some ⟨.ld, ty, sc, a, [a], 0, 0, some (.atomic ty, d, n.toNat)⟩
  | .ast a v ty sc => some ⟨.st, ty, sc, a, [a, v], (operand s v).setWidth 128, 0, none⟩
  | .aadd a v d ty sc n => some ⟨.add, ty, sc, a, [a, v], (operand s v).setWidth 128, 0, some (.atomic ty, d, n.toNat)⟩
  | .aand a v d ty sc n => some ⟨.and, ty, sc, a, [a, v], (operand s v).setWidth 128, 0, some (.atomic ty, d, n.toNat)⟩
  | .aor a v d ty sc n => some ⟨.or, ty, sc, a, [a, v], (operand s v).setWidth 128, 0, some (.atomic ty, d, n.toNat)⟩
  | .axor a v d ty sc n => some ⟨.xor, ty, sc, a, [a, v], (operand s v).setWidth 128, 0, some (.atomic ty, d, n.toNat)⟩
  | .amin a v d ty sc n => some ⟨.min, ty, sc, a, [a, v], (operand s v).setWidth 128, 0, some (.atomic ty, d, n.toNat)⟩
  | .amax a v d ty sc n => some ⟨.max, ty, sc, a, [a, v], (operand s v).setWidth 128, 0, some (.atomic ty, d, n.toNat)⟩
  | .aswp a v d ty sc n => some ⟨.swp, ty, sc, a, [a, v], (operand s v).setWidth 128, 0, some (.atomic ty, d, n.toNat)⟩
  | .afadd a v d ty sc n => some ⟨.fadd, ty, sc, a, [a, v], (operand s v).setWidth 128, 0, some (.atomic ty, d, n.toNat)⟩
  | .afmin a v d ty sc n => some ⟨.fmin, ty, sc, a, [a, v], (operand s v).setWidth 128, 0, some (.atomic ty, d, n.toNat)⟩
  | .afmax a v d ty sc n => some ⟨.fmax, ty, sc, a, [a, v], (operand s v).setWidth 128, 0, some (.atomic ty, d, n.toNat)⟩
  | .acas a e v d ty sc n =>
    some ⟨.cas, ty, sc, a, [a, e, v], (operand s e).setWidth 128, (operand s v).setWidth 128, some (.atomic ty, d, n.toNat)⟩
  | .acas128 a k _ _ d sc n =>
    some ⟨.cas128, .s64, sc, a, a :: quadRegs k, quadOperand s (4 * k.toNat), quadOperand s (4 * k.toNat + 2),
      some (.cas128 k, d, n.toNat)⟩
  | _ => none

/-- Memory afterwards, of w bits, for the integer atomics, the exchanges and the comparisons (table Atomic
instructions). -/
def atomicMemory {w : Nat} (op : AtOp) (signed : Bool) (old v x : BitVec w) : BitVec w :=
  match op with
  | .ld => old
  | .st | .swp => v
  | .add => old + v
  | .and => old &&& v
  | .or => old ||| v
  | .xor => old ^^^ v
  | .min => if (if signed then v.slt old else v.ult old) then v else old
  | .max => if (if signed then old.slt v else old.ult v) then v else old
  | .cas | .cas128 => if old = v then x else old
  | .fadd | .fmin | .fmax => old

/-! ## Integer results (R133), on patterns of the type's own width -/

/-- The integer words with two operands. -/
inductive IntOp where
  | add | sub | and | or | xor | andn | shl | shr | sar | rol | min | max | mul | mulh | div | rem
  deriving DecidableEq, Repr

/-- R133: r_w of two w-bit patterns. -/
def IntOp.result {w : Nat} (o : IntOp) (signed : Bool) (a b : BitVec w) : BitVec w :=
  match o with
  | .add => a + b
  | .sub => a - b
  | .and => a &&& b
  | .or => a ||| b
  | .xor => a ^^^ b
  | .andn => a &&& ~~~b
  | .shl => a <<< (b.toNat % w)
  | .shr => a >>> (b.toNat % w)
  | .sar => a.sshiftRight (b.toNat % w)
  | .rol => a.rotateLeft (b.toNat % w)
  | .min => if (if signed then b.slt a else b.ult a) then b else a
  | .max => if (if signed then a.slt b else a.ult b) then b else a
  | .mul => a * b
  | .mulh =>
    if signed then ((a.signExtend (2 * w)) * (b.signExtend (2 * w))).extractLsb' w w
    else ((a.setWidth (2 * w)) * (b.setWidth (2 * w))).extractLsb' w w
  | .div => if b = 0 then BitVec.allOnes w else if signed then a.sdiv b else a.udiv b
  | .rem => if b = 0 then a else if signed then a.srem b else a.umod b

/-- The word of an operation. -/
def IntOp.word (o : IntOp) (a b : Src) (d : Dest) (t : IntTy) : Instr :=
  match o with
  | .add => .add a b d t
  | .sub => .sub a b d t
  | .and => .and a b d t
  | .or => .or a b d t
  | .xor => .xor a b d t
  | .andn => .andn a b d t
  | .shl => .shl a b d t
  | .shr => .shr a b d t
  | .sar => .sar a b d t
  | .rol => .rol a b d t
  | .min => .min a b d t
  | .max => .max a b d t
  | .mul => .mul a b d t
  | .mulh => .mulh a b d t
  | .div => .div a b d t
  | .rem => .rem a b d t

/-- Operations whose words occupy the sequencer for one cycle (R125). -/
def IntOp.short : IntOp → Bool
  | .mul | .mulh | .div | .rem => false
  | _ => true

/-- The integer words with one operand. -/
inductive UnOp where
  | neg | clz | ctz | popc | mov
  deriving DecidableEq, Repr

/-- R133: r_w of one w-bit pattern. -/
def UnOp.result {w : Nat} (o : UnOp) (a : BitVec w) : BitVec w :=
  match o with
  | .neg => -a
  | .clz => BitVec.ofNat w ((List.range w).takeWhile fun i => !a.getLsbD (w - 1 - i)).length
  | .ctz => BitVec.ofNat w ((List.range w).takeWhile fun i => !a.getLsbD i).length
  | .popc => BitVec.ofNat w ((List.range w).filter fun i => a.getLsbD i).length
  | .mov => a

def UnOp.word (o : UnOp) (a : Src) (d : Dest) (t : IntTy) : Instr :=
  match o with
  | .neg => .neg a d t
  | .clz => .clz a d t
  | .ctz => .ctz a d t
  | .popc => .popc a d t
  | .mov => .mov a d t

/-- R133: operands cut to the type's width, and the result extended to 64 bits. -/
def intValue (t : IntTy) (f : {w : Nat} → Bool → BitVec w → BitVec w → BitVec w) (x y : Dbl) : Dbl :=
  match t with
  | .s64 => f true x y
  | .z64 => f false x y
  | .s32 => (f true (x.setWidth 32) (y.setWidth 32)).signExtend 64
  | .z32 => (f false (x.setWidth 32) (y.setWidth 32)).setWidth 64

/-- R133 for one operand. -/
def unValue (t : IntTy) (f : {w : Nat} → BitVec w → BitVec w) (x : Dbl) : Dbl :=
  match t with
  | .s64 | .z64 => f x
  | .s32 => (f (x.setWidth 32)).signExtend 64
  | .z32 => (f (x.setWidth 32)).setWidth 64

/-- R134: a field of a double, extended to 64 bits. -/
def fieldOf (x : Dbl) (sgn : Bool) (pos len : Nat) : Dbl :=
  if sgn then ((x >>> pos).setWidth len).signExtend 64 else ((x >>> pos).setWidth len).setWidth 64

/-- R134: the comparison of a condition code. -/
def compares (c : Cond) (a b : Dbl) : Prop :=
  match c with
  | .eq => a = b
  | .ne => a ≠ b
  | .lt => a.toInt < b.toInt
  | .ge => b.toInt ≤ a.toInt
  | .gt => b.toInt < a.toInt
  | .le => a.toInt ≤ b.toInt
  | .lo => a.toNat < b.toNat
  | .hs => b.toNat ≤ a.toNat
  | .hi => b.toNat < a.toNat
  | .ls => a.toNat ≤ b.toNat

/-- The lease register of a core (R124): HELD, GANG, NCMD, CREM. -/
def leaseValue (s : State) (c : Nat) : Dbl :=
  if (s.quad (c / 4)).leaseHolder = some c then
    BitVec.ofNat 64 (1 + (s.core c).mat.formed.toNat * 2 + (s.quad (c / 4)).leaseCount % 32 * 4
      + (65536 - (s.wall - (s.quad (c / 4)).leaseFrom)) * 65536)
  else 0

/-- The special registers of R123, with lease, ocnt and xstat as R124 packs them. On the Derailleur, number 384, the manual
does not say what fn, core, quad and wtag return. -/
def specialValue (s : State) (c n : Nat) : Option Dbl :=
  let q := s.seq c
  let own (f : Task → Nat) : Option Dbl := if c < 384 then (s.core c).task.map fun t => BitVec.ofNat 64 (f t) else none
  match n with
  | 0x000 => some (BitVec.ofNat 64 q.cyc)
  | 0x001 => own fun t => t.fn
  | 0x002 => own fun _ => c % 24
  | 0x003 => own fun _ => c % 24 / 4
  | 0x004 => own fun _ => c / 24
  | 0x005 => some (Config.pkgNumber.setWidth 64)
  | 0x006 => own fun t => 8 * t.fn + t.wq
  | 0x007 => if c < 384 then some (leaseValue s c) else none
  | 0x008 => some (BitVec.ofNat 64 (q.ld % 16 + q.st % 16 * 16 + q.cp % 64 * 256 + q.mt % 64 * 16384))
  | 0x009 => some (q.released.setWidth 64)
  | 0x00A => some (BitVec.ofNat 64 (q.th.toNat + q.loops.length % 8 * 2 + q.cd % 256 * 16))
  | 0x00B => some (BitVec.ofNat 64 q.errc)
  | 0x010 => some q.tvec
  | 0x011 => some q.xpc
  | 0x012 => some q.xcause
  | 0x013 => some q.xaddr
  | 0x014 => some q.xword
  | 0x015 => some q.xinfo
  | n => if 0x020 ≤ n ∧ n ≤ 0x02F then some (q.shadow.getD (n - 0x020) 0) else none

/-- Registers that R123 marks varying. -/
def varying (n : Nat) : Prop := n = 0x000 ∨ (0x002 ≤ n ∧ n ≤ 0x008) ∨ n = 0x00B

/-- A read-write special register takes a value (R123). -/
def specialSet (q : Seq) (n : Nat) (v : Dbl) : Seq :=
  if n = 0x010 then { q with tvec := v }
  else if n = 0x011 then { q with xpc := v }
  else if 0x020 ≤ n ∧ n ≤ 0x02F then { q with shadow := q.shadow.set (n - 0x020) v }
  else q

/-- No pure task runs on a core, so that nothing is a purity violation (R330). -/
def Ordinary (s : State) (c : Nat) : Prop := (s.core c).task.any (·.isPure) = false

/-! ## Fetch (R126, R127, R140, R144) -/

/-- In this cycle the sequencer of a core comes to the word at its program counter: its domain is not frozen, nothing
lands, no word occupies it, no signal keeps a word that has begun from going on, and its task runs and does not stop
here. -/
structure AtWord (s : State) (c : Nat) : Prop where
  free : (s.core c).freezes = [] ∧ (s.core c).task.any (·.stopped.isSome) = false
  idle : (s.seq c).due = none ∧ (s.seq c).pendTrap = none ∧ (s.seq c).occ = 0 ∧ (s.seq c).halted = false
  begins : (s.seq c).phase = 0 ∨ (((s.core c).flow .seq).psp = false ∧ ((s.core c).flow .seq).psn = false)
  runs : s.seqRuns c = true ∧ ((s.ended c).core c).stopsHere = false

/-- An engine of a core comes to the next word of a command in its queue: the domain is not frozen, the command may run,
waits for nothing, has a body and is not empty, the lease is there where one is needed, and so are the word's tokens. -/
structure AtBody (s : State) (c : Nat) (e : Engine) (k : Cmd) (ws : List Word) : Prop where
  free : (s.core c).freezes = [] ∧ (s.core c).mayRun k = true ∧ s.leased c e = true
  ready : k.edges = [] ∧ k.waits = [] ∧ k.empty = false ∧ k.body = some ws ∧ k.takenBy = none
  chain : (s.core c).chainReady e (Chain.ofWord (ws.getD k.pos 0)) = true

/-! ## System words (R340, R341) -/

/-- A Derailleur's word can act: nothing keeps it from issuing, and no store before it is outstanding (R340). -/
def SysReady (s : State) (reads : List Src) : Prop := Fresh s reads ∧ (s.seq s.cur.core).st = 0

/-- The number in an operand. -/
def number (s : State) (a : Src) : Nat := (operand s a).toNat

/-- A system word is complete with a status in bits 7:0 and a value above it (R341): it issues, and u is the state with
its effect. A request of PF0 that the word carries out may have ended with the status (R338). -/
def SysEnds (u t : State) (reads : List Src) (d : Dest) (status value : Nat) : Prop :=
  ∃ p : Pf0, (p = u.pf0 ∨ p = { u.pf0 with busy := false, pstat := BitVec.ofNat 8 status })
    ∧ Retired { u with pf0 := p } t 1 reads (some (BitVec.ofNat 64 (status + value % 2 ^ 56 * 256), d)) u.nextPc id

/-- A system word waits with code 4 in a step: it does not issue. -/
structure SysWaits (s t : State) (n : Nat) : Prop where
  stall : (t.seq s.cur.core).stall = 4 ∧ (t.seq s.cur.core).phase = n
  kept : (t.seq s.cur.core).pc = (s.seq s.cur.core).pc ∧ (t.seq s.cur.core).belt = (s.seq s.cur.core).belt
    ∧ (t.seq s.cur.core).named = (s.seq s.cur.core).named

/-- Nothing but PF0's registers has changed. -/
def OnlyPf0 (s w : State) : Prop := w = { s with pf0 := w.pf0 }

/-- PGEXP or PGIMP is complete with a status and a value, its effect as said; a request of PF0 for the page, with its
operation, has ended with them (R376). -/
def PageEnds (i : Instr) (s : State) (reads : List Src) (d : Dest) (op fn ipa status value : Nat) (effect : State → Prop) :
    Prop :=
  ∃ w t, exec i s = .next t ∧ SysEnds w t reads d status value ∧ effect w
    ∧ w.pf0 =
      if s.pf0.pxBusy = true ∧ s.pf0.pxOp.toNat = op ∧ s.pf0.pxFn.toNat = fn ∧ s.pf0.pxIpa = ipa then
        { s.pf0 with pxBusy := false, pxStat := BitVec.ofNat 16 (status + value * 256),
                     pxVer := if status = 0 then BitVec.ofNat 64 value else s.pf0.pxVer }
      else s.pf0

/-! ## Engine words (R27, R34, R169, R208) -/

/-- The current word of an engine issued: its command stands past it, and the sequencer is as it was. -/
structure EngineIssued (s t : State) : Prop where
  goes : ∀ k, s.cmd = some k → ∃ j ∈ (t.core s.cur.core).queue s.cur.eng, j.uid = k.uid
    ∧ j.pos = (k.advance s.cur.len).pos ∧ j.idx = (k.advance s.cur.len).idx ∧ j.allIssued = (k.advance s.cur.len).allIssued
  seq : t.seq s.cur.core = s.seq s.cur.core

/-- A transfer word of the copy engine issued on a channel: it took the channel's next identifier and stands among the
transfers. -/
def Transferred (i : Instr) (s : State) (k : Cmd) (ch : Nat) : Prop :=
  ∃ t, exec i s = .next t ∧ EngineIssued s t
    ∧ (t.core s.cur.core).copy.nxt = (s.core s.cur.core).copy.nxt.set ch ((s.core s.cur.core).copy.nxt.getD ch 0 + 1)
    ∧ ∃ f ∈ (t.core s.cur.core).copy.xfers, f.ident = (s.core s.cur.core).copy.nxt.getD ch 0 ∧ f.ch = ch ∧ f.instr = i
      ∧ f.cmd = k.uid ∧ f.eng = s.cur.eng ∧ f.poison = false

/-- A vector word of the engine's own context, on registers alone, can issue: there is room, and nothing that it names is
in flight. -/
structure VecReady (s : State) (k : Cmd) (codes : List (BitVec 4)) (masks : List (BitVec 2)) : Prop where
  cmd : s.cmd = some k ∧ s.task ≠ none ∧ s.cur.eng = .vec ∧ k.reloc = false
  room : ((s.core s.cur.core).engineInfl k).length < 12
  registers : ∀ c ∈ codes, c.toNat < 8
  free : (s.core s.cur.core).vec.own.interlocked codes masks = false

/-- The word issued: it stands in flight, and nothing of the context changes before it is complete. -/
def VecIssued (i : Instr) (s : State) (k : Cmd) (p : VInfl → Prop) : Prop :=
  let own := (s.core s.cur.core).vec.own
  ∃ t f, exec i s = .next t ∧ EngineIssued s t ∧ p f ∧ f.cmd = k.uid
    ∧ (t.core s.cur.core).vec.own = { own with infl := own.infl ++ [f] }
    ∧ (∀ n, n ≠ s.cur.core → t.core n = s.core n) ∧ MemoryKept s t ∧ t.quads = s.quads

/-- It will write one register: these lanes, the active ones of a mask. -/
def WritesLanes (d : BitVec 4) (lanes keep : List Dbl) (f : VInfl) : Prop :=
  f.writes = [⟨d, lanes, keep⟩] ∧ f.mask = none ∧ f.clear = false ∧ f.tab = none

/-- It will write two registers, whole. -/
def WritesTwo (d : BitVec 4) (lanes : List Dbl) (x : BitVec 4) (second : List Dbl) (f : VInfl) : Prop :=
  f.writes = [⟨d, lanes, keepAll⟩, ⟨x, second, keepAll⟩] ∧ f.mask = none ∧ f.clear = false ∧ f.tab = none

/-- It will write one mask. -/
def WritesMask (md : BitVec 2) (p : Nat → Bool) (f : VInfl) : Prop :=
  ∃ m, f.writes = [] ∧ f.mask = some (md, m) ∧ f.clear = false ∧ f.tab = none ∧ ∀ l, l < 64 → m.getLsbD l = p l

/-- A matrix word was complete as it issued; its engine changed so. -/
def MatEnds (i : Instr) (s : State) (f : Mat → Mat) : Prop :=
  ∃ t, exec i s = .next t ∧ EngineIssued s t
    ∧ (t.core s.cur.core).mat = { f (s.core s.cur.core).mat with gangWait := none, waiting := none }
    ∧ ∀ n, n ≠ s.cur.core → t.core n = s.core n

/-- A matrix word stands in flight as `f`, to complete later; nothing else of the array, the claims or the memory has
changed. -/
def MatStands (i : Instr) (s : State) (p : MInfl → Prop) : Prop :=
  ∃ t f, exec i s = .next t ∧ EngineIssued s t ∧ f.instr = i ∧ p f
    ∧ (t.core s.cur.core).mat =
      { (s.core s.cur.core).mat with infl := (s.core s.cur.core).mat.infl ++ [f], gangWait := none }
    ∧ (∀ n, n ≠ s.cur.core → t.core n = s.core n) ∧ MemoryKept s t ∧ t.quads = s.quads

/-- R247: every check of a multiply word outside a gang passes: the group of accumulators, the tags, the pair, the components,
KLEN, the rotation, the ranges and their alignment, the claims, the regions, and no plane poisoned. -/
structure MulOk (s : State) (k : Cmd) (w : MulWord) (ks : Nat) (km : Bool) (g : MulGeom) : Prop where
  group : w.pg.toNat % g.tab.n = 0 ∧ w.pg.toNat + g.tab.n ≤ 8
  tags : (∀ j ∈ slotsOf g.a, (s.quad (quadOf s.cur.core)).tag 0 j = g.atag)
    ∧ ∀ j ∈ slotsOf g.b, (s.quad (quadOf s.cur.core)).tag 1 j = g.btag
  pair : (pairP (tagFmt g.atag) (tagFmt g.btag)).isSome = true
    ∧ ((tagFmt g.atag).isMx = true → g.atag.blk = g.btag.blk ∧ ks = 8 ∧ km = false)
  comps : tagComps g.atag = g.tab.n ∧ tagComps g.btag = g.tab.n
  klen : ((tagFmt g.atag).isMx = true ∨ 1 < g.tab.n →
      (w.klenM1.toNat + 1) % tagBlock g.atag = 0 ∧ (w.klenM1.toNat + 1) % tagBlock g.btag = 0)
    ∧ (ks ≠ 8 → (w.klenM1.toNat + 1) % 8 = 0)
  turned : g.atag.had = g.btag.had ∧ (g.atag.had = true → tagBlock g.atag = 32 → g.atag.lead ≠ g.btag.lead)
  ranges : g.abase < 2 ^ 21 ∧ g.bbase < 2 ^ 21 ∧ g.a.2 ≤ 2 ^ 21 ∧ g.b.2 ≤ 2 ^ 21 ∧ (ks ≠ 8 → g.m.2 ≤ 2 ^ 21)
  aligned : (tagFmt g.atag).isMx = false →
    g.abase % fmtBytes (tagFmt g.atag) g.atag.blk = 0 ∧ g.bbase % fmtBytes (tagFmt g.btag) g.btag.blk = 0
  slotsA : ∀ j, j ∈ slotsOf g.a ∨ j ∈ slotsOf g.m →
    (s.core s.cur.core).mat.claimA.getLsbD j = true ∧ k.slotOk readKinds 0 j = true
  slotsB : ∀ j ∈ slotsOf g.b, (s.core s.cur.core).mat.claimB.getLsbD j = true ∧ k.slotOk readKinds 1 j = true
  planes : ∀ p, w.pg.toNat ≤ p → p < w.pg.toNat + g.tab.n → (s.core s.cur.core).mat.claimP.getLsbD p = true
    ∧ k.planeOk [.rw] p = true ∧ (s.quad (quadOf s.cur.core)).poison.getLsbD p = false

/-- A multiply word outside a gang stands in flight with its table, tags, bases and strides, and what it reads and writes. -/
def MulStands (i : Instr) (s : State) (k : Cmd) (w : MulWord) (g : MulGeom) : Prop :=
  MatStands i s fun f => f.cmd = k.uid ∧ f.tab = g.tab ∧ f.atag = g.atag ∧ f.btag = g.btag ∧ f.abase = g.abase
    ∧ f.bbase = g.bbase ∧ f.mbase = g.mbase ∧ f.astr = k.astr ∧ f.bstr = k.bstr ∧ f.mstr = k.mstr ∧ f.elapsed = 0
    ∧ f.done = false ∧ f.gangWord = false ∧ f.leader = s.cur.core ∧ f.delay = 0
    ∧ f.readsA = slotMask g.a ||| slotMask g.m ∧ f.readsB = slotMask g.b
    ∧ f.writesP = groupMask w.pg.toNat g.tab.n

/-- Every member of the current core's gang stands at a word of the kind and could issue it. -/
structure GangStands (s : State) (kind : Nat) : Prop where
  here : gangKind s.cur.word = kind
  members : ∀ m ∈ s.members,
    let u := s.updCore s.cur.core fun x => { x with mat := { x.mat with gangWait := some s.cur.words } }
    (u.core m).mat.gangWait.isSome = true ∧ ∃ r, u.memberWord m = some r ∧ (kind = 1 → r.2.cur.words = s.cur.words)
  others : ∀ m ∈ s.members, m ≠ s.cur.core → ∀ w, (s.core m).mat.gangWait.bind List.head? = some w →
    gangKind w = kind ∨ kind = 0

end Sys2Proof.Safety
end

