-- ==== Sys2Proof/Certificates/Slice0/Obligations.lean ====
section
/-! DEFINITION. The statements for the provers. -/

open Sys2Proof Sys2Proof.Machine Sys2Proof.Safety

/-! ## Integer words -/

/-- R133 for ADD, SUB, AND, OR, XOR, ANDN, SHL, SHR, SAR, ROL, MIN and MAX: from a state in which the word can issue
it issues, and after its one cycle its result stands where R120 says; nothing else changed. -/
def Obligations.ShortIntegerWords : Prop :=
  ∀ (s : State) (o : IntOp) (a b : Src) (d : Dest) (ty : IntTy), o.short = true → Fresh s [a, b] →
    ∃ t, exec (o.word a b d ty) s = .next t
      ∧ Retired s t 1 [a, b] (some (intValue ty o.result (operand s a) (operand s b), d)) s.nextPc id

/-- R133 for MUL, MULH, DIV and REM: they occupy their sequencer for the cycles of R125, in which no other word issues,
and then their result is written. -/
def Obligations.LongIntegerWords : Prop :=
  ∀ (s : State) (o : IntOp) (a b : Src) (d : Dest) (ty : IntTy), o.short = false → Fresh s [a, b] →
    ∃ t n, exec (o.word a b d ty) s = .next t
      ∧ n + 1 = (match o, ty with
          | .div, .s64 | .div, .z64 | .rem, .s64 | .rem, .z64 => 20
          | .div, _ | .rem, _ => 12
          | _, _ => 3)
      ∧ (t.seq s.cur.core).occ = n ∧ (t.seq s.cur.core).belt = (s.seq s.cur.core).belt
      ∧ (t.seq s.cur.core).named = (s.seq s.cur.core).named
      ∧ Retired s (after s.cur.core n t) (n + 1) [a, b]
          (some (intValue ty o.result (operand s a) (operand s b), d)) s.nextPc id

/-- R133 for NEG, CLZ, CTZ, POPC and MOV. -/
def Obligations.OneOperandWords : Prop :=
  ∀ (s : State) (o : UnOp) (a : Src) (d : Dest) (ty : IntTy), Fresh s [a] →
    ∃ t, exec (o.word a d ty) s = .next t
      ∧ Retired s t 1 [a] (some (unValue ty o.result (operand s a), d)) s.nextPc id

/-- R134 for ADDI, ANDI, ORI, XORI and LI, and R133 for SHLI, SHRI and SARI: an immediate is sign-extended from its full
width. -/
def Obligations.ImmediateWords : Prop :=
  ∀ (s : State) (a : Src) (d : Dest) (i : Imm 11) (j : Imm 17) (ty : IntTy) (n : BitVec 6), Fresh s [a] →
    let done (i : Instr) (v : Dbl) := ∃ t, exec i s = .next t ∧ Retired s t 1 [a] (some (v, d)) s.nextPc id
    let x := operand s a
    done (.addi a d i) (BitVec.ofInt 64 (x.toInt + i.int))
      ∧ done (.andi a d i) (x &&& BitVec.ofInt 64 i.int)
      ∧ done (.ori a d i) (x ||| BitVec.ofInt 64 i.int)
      ∧ done (.xori a d i) (x ^^^ BitVec.ofInt 64 i.int)
      ∧ done (.shli a d ty n) (intValue ty IntOp.shl.result x (n.setWidth 64))
      ∧ done (.shri a d ty n) (intValue ty IntOp.shr.result x (n.setWidth 64))
      ∧ done (.sari a d ty n) (intValue ty IntOp.sar.result x (n.setWidth 64))
      ∧ ∃ t, exec (.li d j) s = .next t ∧ Retired s t 1 [] (some (BitVec.ofInt 64 j.int, d)) s.nextPc id

/-- R134 for CMP, SEL, EXTB and INSB: a comparison writes 1 or 0; SEL chooses by c; a field is taken out or put in at
POS, of LEN bits. -/
def Obligations.CompareSelectFields : Prop :=
  (∀ (s : State) (a b : Src) (d : Dest) (c : Cond), Fresh s [a, b] → ∃ t v, exec (.cmp a b d c) s = .next t
      ∧ Retired s t 1 [a, b] (some (v, d)) s.nextPc id
      ∧ (compares c (operand s a) (operand s b) → v = 1) ∧ (¬ compares c (operand s a) (operand s b) → v = 0))
  ∧ (∀ (s : State) (c a b : Src) (d : Dest), Fresh s [c, a, b] → ∃ t v, exec (.sel c a b d) s = .next t
      ∧ Retired s t 1 [a, b] (some (v, d)) s.nextPc id
      ∧ (operand s c ≠ 0 → v = operand s a) ∧ (operand s c = 0 → v = operand s b))
  ∧ (∀ (s : State) (a : Src) (d : Dest) (sgn : Bool) (pos len : BitVec 6), Fresh s [a] →
      ∃ t, exec (.extb a d sgn pos len) s = .next t
        ∧ Retired s t 1 [a] (some (fieldOf (operand s a) sgn pos.toNat (len.toNat + 1), d)) s.nextPc id)
  ∧ ∀ (s : State) (a b : Src) (d : Dest) (pos len : BitVec 6), Fresh s [a, b] → ∃ t v,
      exec (.insb a b d pos len) s = .next t ∧ Retired s t 1 [a, b] (some (v, d)) s.nextPc id
        ∧ ∀ i, i < 64 → v.getLsbD i =
            if pos.toNat ≤ i ∧ i < pos.toNat + len.toNat + 1 then (operand s b).getLsbD (i - pos.toNat)
            else (operand s a).getLsbD i

/-- R123, R124, R135, R136: IDX writes the element number of an active level, CSRR the special register's value, and
CSRW writes its operand into the register: tvec takes zero or an address of the code area, xpc anything. -/
def Obligations.SpecialRegisterWords : Prop :=
  (∀ (s : State) (lv : BitVec 2) (d : Dest) (i : Imm 15) (l : LoopLevel), Fresh s [] →
      (s.seq s.cur.core).loops[lv.toNat]? = some l → ∃ t, exec (.idx lv d i) s = .next t
        ∧ Retired s t 1 [] (some (BitVec.ofInt 64 ((l.base : Int) + l.iter + i.int), d)) s.nextPc id)
  ∧ (∀ (s : State) (n : BitVec 10) (d : Dest) (v : Dbl), Fresh s [] → (varying n.toNat → Ordinary s s.cur.core) →
      specialValue s s.cur.core n.toNat = some v →
      ∃ t, exec (.csrr n d) s = .next t ∧ Retired s t 1 [] (some (v, d)) s.nextPc id)
  ∧ ∀ (s : State) (n : BitVec 10) (a : Src), Fresh s [a] →
      (n.toNat = 0x010 → operand s a = 0 ∨ s.inCode s.cur.core (operand s a) = true) →
      (n.toNat = 0x010 ∨ n.toNat = 0x011 ∨ (0x020 ≤ n.toNat ∧ n.toNat ≤ 0x02F)) →
      ∃ t, exec (.csrw n a) s = .next t
        ∧ Retired s t 1 [a] none s.nextPc (fun x => { x with seq := specialSet x.seq n.toNat (operand s a) })

/-! ## Control -/

/-- R125, R140, R141, R144: B, B.cc, JMP, CALL and RET go in 2 clk to a target inside the code area; a B, B.cc or JMP
leaves the loop levels that R144 says, CALL and RET none; a B.cc whose comparison fails falls through in 1 clk. -/
def Obligations.BranchWords : Prop :=
  (∀ (s : State) (off : Imm 22), Fresh s [] → let dst := s.cur.addr + BitVec.ofInt 64 (4 * off.int)
    s.inCode s.cur.core dst = true → ∃ t, exec (.b off) s = .next t
      ∧ Retired s (after s.cur.core 1 t) 2 [] none dst (withLoops (left dst) id))
  ∧ (∀ (s : State) (a b : Src) (c : Cond) (off : Imm 6), Fresh s [a, b] →
      let dst := s.cur.addr + BitVec.ofInt 64 (4 * off.int)
      (compares c (operand s a) (operand s b) → s.inCode s.cur.core dst = true →
        ∃ t, exec (.bcc a b c off) s = .next t
          ∧ Retired s (after s.cur.core 1 t) 2 [a, b] none dst (withLoops (left dst) id))
      ∧ (¬ compares c (operand s a) (operand s b) →
        ∃ t, exec (.bcc a b c off) s = .next t ∧ Retired s t 1 [a, b] none s.nextPc id))
  ∧ (∀ (s : State) (a : Src) (off : Imm 16), Fresh s [a] → let dst := operand s a + BitVec.ofInt 64 (4 * off.int)
      s.inCode s.cur.core dst = true → ∃ t, exec (.jmp a off) s = .next t
        ∧ Retired s (after s.cur.core 1 t) 2 [a] none dst (withLoops (left dst) id))
  ∧ (∀ (s : State) (d : Dest) (off : Imm 17), Fresh s [] → let dst := s.cur.addr + BitVec.ofInt 64 (4 * off.int)
      (s.seq s.cur.core).cd ≠ 255 → s.inCode s.cur.core dst = true → ∃ t, exec (.call d off) s = .next t
        ∧ Retired s (after s.cur.core 1 t) 2 [] (some (s.nextPc, d)) dst (withLoops (fun l _ _ => l) (· + 1)))
  ∧ ∀ (s : State) (a : Src), Fresh s [a] → s.inCode s.cur.core (operand s a) = true →
      ∃ t, exec (.ret a) s = .next t
        ∧ Retired s (after s.cur.core 1 t) 2 [a] none (operand s a) (withLoops (fun l _ _ => l) (· - 1))

/-- R142: a LOOP whose LEND stands where it names it pushes a level, or, with a count of zero, skips the whole loop in
2 clk. Fetching the LEND may fill TLBs. -/
def Obligations.LoopWord : Prop :=
  ∀ (s r : State) (n : Src) (stg : BitVec 3) (plen : BitVec 6) (blen : Imm 7) (w : Word), Fresh s [n] →
    let body := s.nextPc + BitVec.ofNat 64 (4 * plen.toNat)
    let last := body + BitVec.ofNat 64 (4 * blen.nat)
    let epl := (fld w 16 6).toNat
    s.inCode s.cur.core last = true → s.fetchWord s.cur.core last = (r, .ok w) → major w = 0x2D#6 →
    LookedRead s r
    ∧ (operand s n = 0 → ∃ t, exec (.loop n stg plen blen) s = .next t
        ∧ Retired r (after s.cur.core 1 t) 2 [n] none (last + BitVec.ofNat 64 (4 + 4 * epl)) id)
    ∧ (stg.toNat + 1 ≤ (operand s n).toNat → (operand s n).toNat < 2 ^ 32 → (s.seq s.cur.core).loops.length < 4 →
        ∃ t, exec (.loop n stg plen blen) s = .next t
          ∧ Retired r t 1 [n] none s.nextPc (withLoops (fun l cd th =>
            { start := s.nextPc, body := body, last := last, epl := epl, stages := stg.toNat + 1, plen := plen.toNat,
              base := 0, iter := 0, limit := (operand s n).toNat - stg.toNat, cd := cd, th := th, clamp := false,
              epi := false, dexit := false } :: l) id))

/-- R143, R145: LEND runs the body again while elements remain, leaves a clamped level where at least S remain, and
without an epilogue ends the level at once: it is popped, or, left by a drain stop, rewritten to start again. -/
def Obligations.LendWord : Prop :=
  ∀ (s : State) (epl : BitVec 6) (l : LoopLevel) (rest : List LoopLevel), Fresh s [] →
    (s.seq s.cur.core).loops = l :: rest → s.cur.addr = l.last → epl.toNat = l.epl → l.epi = false → l.dexit = false →
    let more := l.iter + 1 < l.limit
    let out := l.clamp = true ∧ l.stages ≤ l.limit - (l.iter + 1)
    (more → ¬ out → ∃ t, exec (.lend epl) s = .next t
      ∧ Retired s t 1 [] none l.body (withLoops (fun _ _ _ => { l with iter := l.iter + 1 } :: rest) id))
    ∧ (¬ more → l.epl ≠ 0 → ∃ t, exec (.lend epl) s = .next t
      ∧ Retired s t 1 [] none s.nextPc (withLoops (fun _ _ _ => { l with iter := l.iter + 1, epi := true } :: rest) id))
    ∧ (¬ more → l.epl = 0 → ∃ t, exec (.lend epl) s = .next t
      ∧ Retired s t 1 [] none s.nextPc (withLoops (fun _ _ _ => rest) id))
    ∧ (more → out → l.epl ≠ 0 → ∃ t, exec (.lend epl) s = .next t
      ∧ Retired s t 1 [] none s.nextPc
        (withLoops (fun _ _ _ => { l with iter := l.iter + 1, epi := true, dexit := true } :: rest) id))
    ∧ (more → out → l.epl = 0 → ∃ t, exec (.lend epl) s = .next t ∧ (t.seq s.cur.core).halted = true
      ∧ Retired s t 1 [] none l.start (withLoops (fun _ _ _ =>
        { l with base := l.base + (l.iter + 1) + l.stages - 1, limit := l.limit - (l.iter + 1) - l.stages + 1, iter := 0,
                 clamp := false, epi := false, dexit := false } :: rest) id))

/-- R152, R153: with tvec set, no handler running and no load in the landing buffer, a TRAP issues, completes and enters
the handler with xpc after it; an illegal instruction does not issue, and enters it with xpc at the word. -/
def Obligations.TrapEntry : Prop :=
  ∀ s : State, (s.seq s.cur.core).tvec ≠ 0 → (s.seq s.cur.core).th = false → (s.seq s.cur.core).landing = [] →
    (∀ code : BitVec 16, Fresh s [] → ∃ t, exec (.trap code) s = .next t
      ∧ Entered s t 0x06 s.cur.addr (code.setWidth 64) s.nextPc)
    ∧ ∀ w, ∃ t, exec (.illegalInstruction w) s = .next t ∧ Entered s t 0x01 s.cur.addr 0 s.cur.addr

/-- R152, R155, R356, R358: with tvec zero, or in a handler as a double trap, the same words park the work queue of the
core's task, TRAP with the PC after it; an SVC always parks it, and stands issued until the queue is resumed. On the
Derailleur a park halts it and leaves the cause in DRCAUSE (R334). -/
def Obligations.TrapParks : Prop :=
  (∀ (s : State) (k : Task), s.cur.core < 384 → (s.core s.cur.core).task = some k → (s.seq s.cur.core).landing = [] →
    ((s.seq s.cur.core).tvec = 0 ∨ (s.seq s.cur.core).th = true →
      (∀ code : BitVec 16, Fresh s [] → ∃ t, exec (.trap code) s = .next t
        ∧ ParkedHere s t k 0x06 (s.seq s.cur.core).th s.cur.addr (code.setWidth 64) s.nextPc)
      ∧ ∀ w, ∃ t, exec (.illegalInstruction w) s = .next t
        ∧ ParkedHere s t k 0x01 (s.seq s.cur.core).th s.cur.addr 0 s.cur.addr)
    ∧ ∀ (v : Option Dest) (code : BitVec 16), Fresh s [] → ∃ t, exec (.svc v code) s = .next t
        ∧ ParkedHere s t k 0x10 false s.cur.addr (code.setWidth 64) s.nextPc
        ∧ (t.seq s.cur.core).occWid = some s.nextId)
  ∧ ∀ s : State, s.cur.core = 384 → (s.seq 384).landing = [] →
    ((s.seq 384).tvec = 0 ∨ (s.seq 384).th = true → ∀ w, ∃ t, exec (.illegalInstruction w) s = .next t
      ∧ t.pf0.halt = true ∧ t.pf0.drcause = 0x01 ∧ (t.seq 384).pc = s.cur.addr)
    ∧ ∀ (v : Option Dest) (code : BitVec 16), Fresh s [] → ∃ t, exec (.svc v code) s = .next t
      ∧ t.pf0.halt = true ∧ t.pf0.drcause = 0x10 ∧ (t.seq 384).pc = s.nextPc

/-- R154: ERET in a handler, with xpc inside the code area, takes 2 clk, copies the shadow belt into the belt, clears
TH and goes to xpc; with xpc outside it, it is a Branch target fault, which parks the queue of the core's task as a double
trap; with TH = 0 it is Illegal Instruction. -/
def Obligations.ReturnFromTrap : Prop :=
  ∀ s : State, Fresh s [] →
    ((s.seq s.cur.core).th = true → s.inCode s.cur.core (s.seq s.cur.core).xpc = true → ∃ t, exec .eret s = .next t
      ∧ Retired s (after s.cur.core 1 t) 2 [] none (s.seq s.cur.core).xpc
        (fun x => { x with seq := { x.seq with belt := x.seq.shadow, th := false } }))
    ∧ ((s.seq s.cur.core).th = true → s.inCode s.cur.core (s.seq s.cur.core).xpc = false → ∃ t, exec .eret s = .next t
      ∧ t = s.trap 0x02 (s.seq s.cur.core).xpc 0
      ∧ ∀ k, s.cur.core < 384 → (s.core s.cur.core).task = some k → (s.seq s.cur.core).landing = [] →
        ParkedHere s t k 0x02 true (s.seq s.cur.core).xpc 0 s.cur.addr)
    ∧ ((s.seq s.cur.core).th = false → exec .eret s = .next (s.trap 0x01 s.cur.addr 0))

/-- R52, R147: NOP has no effect but its chain bits; a WAIT whose four bounds hold issues, and one of which a bound does
not hold stalls with code 3. -/
def Obligations.NopAndWait : Prop :=
  ∀ s : State, Fresh s [] → (∃ t, exec .nop s = .next t ∧ Retired s t 1 [] none s.nextPc id)
    ∧ ∀ (ldb stb : BitVec 4) (cpb mtb : BitVec 6),
      let q := s.seq s.cur.core
      let met := q.ld ≤ ldb.toNat ∧ q.st ≤ stb.toNat ∧ q.cp ≤ cpb.toNat ∧ q.mt ≤ mtb.toNat
      (met → ∃ t, exec (.wait ldb stb cpb mtb) s = .next t ∧ Retired s t 1 [] none s.nextPc id)
      ∧ (¬ met → ∃ t, exec (.wait ldb stb cpb mtb) s = .next t ∧ (t.seq s.cur.core).stall = 3
        ∧ (t.seq s.cur.core).pc = q.pc ∧ (t.core s.cur.core).tokens = (s.core s.cur.core).tokens)

/-! ## Fences and barriers -/

/-- R93, R148: a fence whose accesses are performed issues, or, at .pkg or .pod with .sc, first sends its sweep to the
sixteen dies; each die's answer takes it off the list, and the fence issues when all have come. -/
def Obligations.FenceWords : Prop :=
  (∀ (s : State) (scope : Scope) (sc : Bool), Fresh s [] → Settled s s.cur.core scope →
    (¬ (sc = true ∧ (scope = .pkg ∨ scope = .pod)) → ∃ t, exec (.fence scope sc) s = .next t
      ∧ Retired s t 1 [] none s.nextPc id)
    ∧ (sc = true → scope = .pkg ∨ scope = .pod → ∃ t, exec (.fence scope sc) s = .next t
      ∧ (t.seq s.cur.core).phase = 1 ∧ (t.seq s.cur.core).sweep = List.range 16 ∧ (t.seq s.cur.core).stall = 4
      ∧ (t.seq s.cur.core).pc = (s.seq s.cur.core).pc))
  ∧ (∀ (s : State) (scope : Scope) (sc : Bool), (s.seq s.cur.core).phase = 1 → (s.seq s.cur.core).sweep = [] →
    Settled s s.cur.core scope → ∃ t, exec (.fence scope sc) s = .next t ∧ Retired s t 1 [] none s.nextPc id)
  ∧ ∀ (s : State) (c d : Nat), (s.seq c).phase = 1 → d ∈ (s.seq c).sweep →
    (∀ m ∈ s.invs, ¬ (m.src = d ∧ m.dst = if c = 384 then 0 else c / 24)) →
    ∃ t, exec (.fenceSweepAnswer c d) s = .next t ∧ OnlySeq s t c
      ∧ (t.seq c).sweep = (s.seq c).sweep.filter (· != d) ∧ d ∉ (t.seq c).sweep

/-- R149: with its engine queues empty and its accesses performed, a core completes BAR.core and a barrier of one core at
once; at a wider barrier of n cores it arrives, and stalls with code 6. -/
def Obligations.BarrierArrival : Prop :=
  ∀ (s : State) (scope : Scope) (id : BitVec 4) (n : Src), (∀ q ∈ (s.core s.cur.core).queues, q = []) →
    Settled s s.cur.core scope →
    (scope = .core → Fresh s [] → ∃ t, exec (.bar scope id n) s = .next t ∧ Retired s t 1 [] none s.nextPc (fun x => x))
    ∧ (scope ≠ .core → Fresh s [n] → ∀ k, (s.core s.cur.core).task = some k →
      let v := (operand s n).toNat
      let here (b : Barrier) : Prop := b.scope = scope ∧ b.inst = scopeInst scope s.cur.core ∧ b.id = id.toNat
      (∀ b ∈ (s.fn k.fn).barriers, here b → b.cores.length < b.n → b.n = v) → 1 ≤ v → v ≤ scopeCores scope →
      (v = 1 → ∃ t, exec (.bar scope id n) s = .next t ∧ Retired s t 1 [n] none s.nextPc (fun x => x))
      ∧ (v ≠ 1 → ∃ t, exec (.bar scope id n) s = .next t ∧ (t.seq s.cur.core).phase = 2
        ∧ (t.seq s.cur.core).arrived = true ∧ (t.seq s.cur.core).stall = 6
        ∧ (t.seq s.cur.core).pc = (s.seq s.cur.core).pc
        ∧ ∃ b ∈ (t.fn k.fn).barriers, here b ∧ b.n = v ∧ s.cur.core ∈ b.cores))

/-- R149: when n cores have arrived at a barrier all of them are released in one step and the generation ends; a released
BAR issues. -/
def Obligations.BarrierRelease : Prop :=
  (∀ (s : State) (fn inst id : Nat) (scope : Scope) (b : Barrier), b ∈ (s.fn fn).barriers → b.scope = scope →
    b.inst = inst → b.id = id → b.n ≤ b.cores.length → ∃ t, exec (.barrierRelease fn scope inst id) s = .next t
      ∧ (∀ c ∈ b.cores, (s.seq c).arrived = true → (s.seq c).sweep = [scope.code.toNat, inst, id, b.gen] →
        (t.seq c).phase = 3 ∧ (t.seq c).belt = (s.seq c).belt ∧ (t.seq c).named = (s.seq c).named)
      ∧ (∀ e ∈ (t.fn fn).barriers, e ∈ (s.fn fn).barriers ∧ ¬ (e.scope = scope ∧ e.inst = inst ∧ e.id = id ∧ e.n ≤ e.cores.length))
      ∧ MemoryKept s t)
  ∧ ∀ (s : State) (scope : Scope) (id : BitVec 4) (n : Src), (s.seq s.cur.core).phase = 3 →
    ∃ t, exec (.bar scope id n) s = .next t ∧ Retired s t 1 [n] none s.nextPc (fun x => x)

/-! ## Loads and stores -/

/-- R127, R137, R192: an LD whose address passes its checks issues and takes a landing entry for the cycle of its slot:
with the bytes of its own array, or of a valid probe line, at once, and else waiting, with a read request on its way
where no line of the block is pending. Behind an atomic of the core that is still on its way to those bytes of its own array
it waits (R87, R139; its stall code is the model's choice, entry 60). -/
def Obligations.LoadWord : Prop :=
  ∀ (s r : State) (base : Src) (d : Dest) (sz : LdSz) (slot : BitVec 8) (off : Imm 0) (pa : Nat), Fresh s [base] →
    let c := s.cur.core
    let a := operand s base + BitVec.ofInt 64 off.int
    let n := ldBytes sz
    s.scalar a n Need.read [.rd, .rw] = (r, .ok pa) → r.regionWait c a n [.wr, .rw, .acc, .atom] = false →
    (s.seq c).landing.length < 16 →
    LookedRead s r
    ∧ (r.portFirst pa n = true → ∃ t, exec (.ld base d sz slot off) s = .next t ∧ Stalled r t 15)
    ∧ (r.portFirst pa n = false → ∃ t e, exec (.ld base d sz slot off) s = .next t
      ∧ Stepped (s.seq c) (t.seq c) 1 [base] none s.nextPc (fun q => { q with landing := q.landing ++ [e] })
      ∧ e.kind = .load sz ∧ e.addr = a ∧ e.due = (s.seq c).cyc + slot.toNat ∧ e.dest = d
      ∧ (∀ k, k ≠ c → t.core k = r.core k) ∧ MemoryKept s t
      ∧ (isArray pa = true → arrayCore pa = c → e.arrived = true
          ∧ e.data = BitVec.ofNat 128 (leNat (memReads s.mem pa n)) ∧ t.reqs = s.reqs)
      ∧ (¬ (isArray pa = true ∧ arrayCore pa = c) →
          (∀ l, r.scalarLine a = some l → l.state = .valid → e.arrived = true
            ∧ e.data = BitVec.ofNat 128 (leNat (memReads s.mem (arrayAt c (l.slot + a.toNat % 256)) n)) ∧ t.reqs = s.reqs)
          ∧ (∀ l, r.scalarLine a = some l → l.state = .pending → e.arrived = false ∧ t.reqs = s.reqs)
          ∧ ((∀ l, r.scalarLine a = some l → l.state = .retained) → e.arrived = false ∧ ∃ q, t.reqs = s.reqs ++ [q]
            ∧ q.src = .land c e.id ∧ q.kind = .read ∧ q.pa = pa ∧ q.len = n ∧ q.phase = .travel)))

/-- R127, R128: data that arrives waits in its entry and thaws the domain; the first entry whose slot has come drops,
extended by its size, onto the belt or into its register; where its data is not there the domain freezes. -/
def Obligations.LandingEvents : Prop :=
  (∀ (s : State) (c : Nat) (r : Req) (l : Landing), l ∈ (s.seq c).landing → s.landingReq c l.id = some r →
    r.src = .land c l.id → ∃ t, exec (.landingDataArrived c l.id) s = .next t
      ∧ { l with data := BitVec.ofNat 128 (leNat (r.result.mapIdx fun i b => (tfind i l.forward).getD b)), ok := r.ok,
                 arrived := true, poison := r.poison } ∈ (t.seq c).landing
      ∧ Freeze.lateLanding ∉ (t.core c).freezes ∧ t.reqs = s.reqs.filter (·.id != r.id)
      ∧ (t.seq c).belt = (s.seq c).belt ∧ (t.seq c).named = (s.seq c).named ∧ (t.seq c).pc = (s.seq c).pc
      ∧ (∀ k, k ≠ c → t.core k = s.core k) ∧ MemoryKept s t)
  ∧ (∀ (s : State) (c : Nat) (l : Landing), (s.core c).freezes = [] →
      (s.seq c).landing.find? (fun e => decide (e.due ≤ (s.seq c).cyc)) = some l → l.arrived = true → l.poison = false →
      (∀ n, l.kind ≠ .cas128 n) → ∃ t v, exec (.landingDrop c) s = .next t
        ∧ (t.seq c).belt = beltAfter (s.seq c).belt (some (v, l.dest))
        ∧ (t.seq c).named = namedAfter (s.seq c).named (some (v, l.dest))
        ∧ (t.seq c).landing = (s.seq c).landing.filter (·.id != l.id)
        ∧ (∀ sz, l.kind = .load sz → let x := BitVec.ofNat (8 * ldBytes sz) l.data.toNat
            v = match sz with
              | .s8 | .s16 | .s32 => x.signExtend 64
              | _ => x.setWidth 64)
        ∧ (∀ ty, l.kind = .atomic ty → v = match ty with
              | .s32 => (l.data.setWidth 32).signExtend 64
              | .z32 | .f32 | .f16x2 | .bf16x2 => (l.data.setWidth 32).setWidth 64
              | _ => l.data.setWidth 64)
        ∧ (l.kind = .record → v = l.data.setWidth 64)
        ∧ (∀ k, k ≠ c → t.core k = s.core k) ∧ MemoryKept s t ∧ OutsideKept s t)
  ∧ ∀ (s : State) (c : Nat) (l : Landing), (s.core c).freezes = [] →
      (s.seq c).landing.find? (fun e => decide (e.due ≤ (s.seq c).cyc)) = some l → l.arrived = false →
      ∃ t, exec (.lateLandingFreeze c) s = .next t ∧ (t.core c).freezes = [.lateLanding] ∧ (t.seq c) = (s.seq c)
        ∧ (∀ k, k ≠ c → t.core k = s.core k) ∧ MemoryKept s t ∧ OutsideKept s t

/-- R129, R138, R192: an ST whose address passes its checks stores its bytes into its own array, or into a valid probe
line, whose bytes become dirty, and is complete; any other store raises st and sends a write of the bytes. Behind an atomic
of the core that is still on its way to those bytes of its own array it waits (R87, R139; its stall code is the model's
choice, entry 60). -/
def Obligations.StoreWord : Prop :=
  ∀ (s r : State) (base data : Src) (sz : StSz) (off : Imm 0) (pa : Nat), Fresh s [base, data] →
    Memory.wf s.mem = true →
    let c := s.cur.core
    let a := operand s base + BitVec.ofInt 64 off.int
    let n := stBytes sz
    let bs := leBytes n (operand s data).toNat
    s.scalar a n Need.write [.wr, .rw] = (r, .ok pa) → r.regionWait c a n [.rd, .wr, .rw, .acc, .atom] = false →
    (s.seq c).st ≠ 15 →
    Looked s r
    ∧ (r.portFirst pa n = true → ∃ t, exec (.st base data sz off) s = .next t ∧ Stalled r t 15)
    ∧ (isArray pa = true → arrayCore pa = c → r.portFirst pa n = false → ∃ t, exec (.st base data sz off) s = .next t
        ∧ Stepped (s.seq c) (t.seq c) 1 [base, data] none s.nextPc (fun q => q)
        ∧ ∀ x, memRead t.mem x = if pa ≤ x ∧ x < pa + n then bs.getD (x - pa) 0 else memRead r.mem x)
    ∧ (¬ (isArray pa = true ∧ arrayCore pa = c) → ∀ l, r.scalarLine a = some l → l.state = .valid →
        let at_ := arrayAt c (l.slot + a.toNat % 256)
        ∃ t, exec (.st base data sz off) s = .next t ∧ (t.seq c).pc = s.nextPc ∧ (t.seq c).st = (s.seq c).st
        ∧ (t.seq c).belt = (s.seq c).belt ∧ (t.seq c).named = (s.seq c).named ∧ t.reqs = s.reqs
        ∧ (∀ x, memRead t.mem x = if at_ ≤ x ∧ x < at_ + n then bs.getD (x - at_) 0 else memRead r.mem x)
        ∧ ∀ m ∈ (t.core c).copy.lines, m.slot = l.slot → ∀ i, i < n → a.toNat % 256 + n ≤ 256 →
            m.dirty.getLsbD (a.toNat % 256 + i) = true)
    ∧ (¬ (isArray pa = true ∧ arrayCore pa = c) → (∀ l, r.scalarLine a = some l → l.state = .retained) →
        ∃ t p q, exec (.st base data sz off) s = .next t
        ∧ Stepped (s.seq c) (t.seq c) 1 [base, data] none s.nextPc
          (fun q => { q with st := q.st + 1, stores := q.stores ++ [p] })
        ∧ (∀ x, memRead t.mem x = memRead r.mem x) ∧ t.reqs = s.reqs ++ [q] ∧ p.reqs = [q.id] ∧ p.bytes = bs
        ∧ q.src = .store c p.wid ∧ q.kind = .write ∧ q.pa = pa ∧ q.data = bs ∧ q.phase = .travel)

/-! ## Atomics -/

/-- R92, R127, R281, R283: an atomic whose address passes its checks, with the core's previous atomic performed and room to
land, issues, makes the task irrevocable and sends its operation to the home; one with a result takes a landing entry. -/
def Obligations.AtomicWords : Prop :=
  ∀ (s r : State) (i : Instr) (f : AtomicForm) (pa : Nat), atomicForm s i = some f → Fresh s f.reads →
    Ordinary s s.cur.core →
    let c := s.cur.core
    let a := operand s f.addr
    let n := if f.op = .cas128 then 16 else atBytes f.ty
    s.scalar a n (if f.op = .ld then Need.atomicRead else Need.atomicRmw)
      (if f.op = .ld then [.rd, .rw, .atom] else [.rw, .atom]) = (r, .ok pa) →
    (isHost pa = true → f.op = .ld ∨ f.op = .st ∨ f.op = .add ∨ f.op = .swp ∨ f.op = .cas ∨ f.op = .cas128) →
    (s.seq c).atomicReq = none → (f.lands ≠ none → (s.seq c).landing.length < 16) →
    (∀ l, r.scalarLine a = some l → l.state ≠ .pending) →
    Looked s r ∧ ∃ t q, exec i s = .next t ∧ q ∈ t.reqs ∧ q.kind = .atomic f.op f.ty f.value f.other f.sc ∧ q.pa = pa
      ∧ q.len = n ∧ q.phase = .travel ∧ (t.seq c).atomicReq = some q.id ∧ (t.seq c).pc = s.nextPc
      ∧ (t.seq c).belt = (s.seq c).belt ∧ (t.seq c).named = (s.seq c).named
      ∧ (t.core c).task.all (·.irrevocable) = true ∧ MemoryKept r t
      ∧ (f.lands = none → (t.seq c).landing = (s.seq c).landing ∧ ∃ w, q.src = .atomic c none w s.cur.addr)
      ∧ ∀ k d slot, f.lands = some (k, d, slot) → ∃ e, (t.seq c).landing = (s.seq c).landing ++ [e] ∧ e.kind = k
          ∧ e.dest = d ∧ e.due = (s.seq c).cyc + slot ∧ e.arrived = false ∧ q.src = .atomic c (some e.id) e.wid s.cur.addr

/-- R274, R281, R283: an integer atomic, exchange or comparison at the arithmetic unit of its home is one operation: memory
afterwards is as the table gives it, no other byte of a line under its key changes, and the old value is the result of one
that lands. -/
def Obligations.AtomicAtHome : Prop :=
  ∀ (s : State) (q : Req) (op : AtOp) (ty : AtTy) (v x : BitVec 128) (sc : Bool), Memory.wf s.mem = true →
    s.req q.id = some q → q.kind = .atomic op ty v x sc → q.phase = .alu → isLocalHbm q.pa = true →
    (s.slice (homeIdx q.pa)).ops.find? (fun k => ((s.req k).map fun r => r.pa / 128 == q.pa / 128).getD false) = some q.id →
    q.pa / 128 ∉ s.poison → (∃ lk, tfind (q.pa / 128) s.memKey = some lk ∧ lk.key = q.key) →
    op ≠ .fadd ∧ op ≠ .fmin ∧ op ≠ .fmax → (ty = .s64 ∨ ty = .z64 ∨ ty = .s32 ∨ ty = .z32) →
    let n := if op = .cas128 then 16 else atBytes ty
    q.pa % n = 0 →
    let old := leNat (s.readPhys q.key q.pa n)
    let new := (atomicMemory (w := 8 * n) op (ty = .s64 ∨ ty = .s32) (BitVec.ofNat _ old) (v.setWidth _) (x.setWidth _)).toNat
    ∃ t, exec (.atomicOperation q.id) s = .next t
      ∧ t.readPhys q.key q.pa n = leBytes n new
      ∧ (∀ a, ¬ (q.pa ≤ a ∧ a < q.pa + n) → t.readByte q.key a = s.readByte q.key a)
      ∧ q.id ∉ (t.slice (homeIdx q.pa)).ops
      ∧ ∀ c l w pc, q.src = .atomic c (some l) w pc → ∃ r ∈ t.reqs, r.id = q.id ∧ r.result = leBytes n old
        ∧ (r.phase = .answered ∨ r.phase = .acks)

/-! ## The probed cache region -/

/-- R191: a PROBE whose block is in a valid or pending line answers that line's slot and goes on; one whose block is in
no line takes a way, sends the fill of its two halves, raises ld, answers the slot and branches. When both halves have come
the line becomes valid with their bytes and ld falls. -/
def Obligations.ProbeWord : Prop :=
  (∀ (s r : State) (a : Src) (d : Dest) (off : Imm 6) (pa : Nat) (k : Task), Fresh s [a] → isVirtual (operand s a) = true →
    formOk (operand s a) = true → s.scalar (operand s a) 1 Need.read [.rd, .rw] = (r, .ok pa) →
    (s.core s.cur.core).task = some k →
    let root := s.rootOf k.fn k.wq
    let block := (operand s a).toNat / 256
    let x := s.core s.cur.core
    LookedRead s r
    ∧ (∀ l, x.lineOf k.fn root block = some l → l.state = .valid ∨ l.state = .pending →
        ∃ t, exec (.probe a d off) s = .next t
          ∧ Retired r t 1 [a] (some (BitVec.ofNat 64 l.slot, d)) s.nextPc (fun x => x.mru l.slot))
    ∧ (∀ w, x.lineOf k.fn root block = none → x.probeWay (block % x.probeSets) = some w → x.seq.ld ≠ 15 →
        let dst := s.cur.addr + BitVec.ofInt 64 (4 * off.int)
        let slot := x.probeSlot (block % x.probeSets) w
        s.inCode s.cur.core dst = true → ∃ t l, exec (.probe a d off) s = .next t
          ∧ Stepped x.seq ((after s.cur.core 1 t).seq s.cur.core) 2 [a] (some (BitVec.ofNat 64 slot, d)) dst
              (fun q => { q with ld := q.ld + 1 })
          ∧ (t.core s.cur.core).lineAt slot = some l ∧ l.state = .pending ∧ l.fn = k.fn ∧ l.root = root ∧ l.block = block
          ∧ l.dirty = 0 ∧ l.rank = 0 ∧ l.phys = pa - (operand s a).toNat % 256
          ∧ ∀ i, i < 2 → ∃ q ∈ t.reqs, q.id = l.reqs.getD i 0 ∧ q.kind = .read ∧ q.pa = l.phys + 128 * i ∧ q.len = 128
              ∧ q.src = .probeFill s.cur.core slot i))
  ∧ ∀ (s : State) (c slot : Nat) (l : PLine) (p q : Req), (s.core c).lineAt slot = some l → l.state = .pending →
    l.unsent = [] → l.reqs = [p.id, q.id] → s.req p.id = some p → s.req q.id = some q → p.phase = .answered → q.phase = .answered →
    p.poison = false → q.poison = false → ∃ t m, exec (.probeFillComplete c slot) s = .next t
      ∧ (t.core c).lineAt slot = some m ∧ m.state = .valid ∧ m.dirty = l.dirty ∧ m.block = l.block
      ∧ (t.seq c).ld = (s.seq c).ld - 1 ∧ (t.seq c).pc = (s.seq c).pc ∧ (t.seq c).belt = (s.seq c).belt
      ∧ (∀ n, n ≠ c → t.core n = s.core n)
      ∧ (∀ r ∈ t.reqs, r ∈ s.reqs ∧ r.id ≠ p.id ∧ r.id ≠ q.id)
      ∧ (Memory.wf s.mem = true → (s.seq c).stores = [] → p.src = .probeFill c slot 0 → q.src = .probeFill c slot 1 →
          p.result.length = 128 → q.result.length = 128 → ∀ a, memRead t.mem a =
            if arrayAt c slot ≤ a ∧ a < arrayAt c slot + 256 then (p.result ++ q.result).getD (a - arrayAt c slot) 0
            else memRead s.mem a)

/-- R193: with no line pending among those that PWB or PINV names, and none of them dirty, the word issues, and PINV makes
them invalid, as either does a retained line; with dirty lines st rises and their dirty bytes are sent: PWB keeps the lines
valid and clean, PINV makes them invalid. -/
def Obligations.WriteBackWords : Prop :=
  ∀ (s r : State) (drop : Bool) (o : Option Src) (k : Task), Fresh s o.toList → (s.core s.cur.core).task = some k →
    let c := s.cur.core
    (match o with
      | none => r = s
      | some a => isVirtual (operand s a) = true ∧ formOk (operand s a) = true
        ∧ ∃ e, s.translate (.seq c) k.fn (s.rootOf k.fn k.wq) (operand s a).toNat Need.read = (r, .ok e)) →
    let ls := r.namedLines k (o.map fun a => (operand s a).toNat / 256)
    let i : Instr := if drop then .pinv o else .pwb o
    (∀ l ∈ ls, l.state ≠ .pending) →
    let gone (m : PLine) : Bool := (ls.filter fun l => drop || l.state == .retained).any (·.slot == m.slot)
    LookedRead s r
    ∧ ((∀ l ∈ ls, l.state = .valid → l.dirty = 0) → ∃ t, exec i s = .next t
      ∧ Retired r t 1 o.toList none s.nextPc
        (fun x => { x with copy := { x.copy with lines := x.copy.lines.filter fun m => !gone m } }))
    ∧ ((∃ l ∈ ls, l.state = .valid ∧ l.dirty ≠ 0) → (s.seq c).st ≠ 15 → ∃ t, exec i s = .next t
      ∧ Stepped (s.seq c) (t.seq c) 1 o.toList none s.nextPc (fun q => { q with st := q.st + 1 })
      ∧ (∀ m ∈ (t.core c).copy.lines, gone m = false)
      ∧ (∀ l ∈ (s.core c).copy.lines, gone l = false →
          ∃ m ∈ (t.core c).copy.lines, m.slot = l.slot ∧ m.state = l.state ∧ m.block = l.block
            ∧ m.dirty = if ls.any fun n => n.slot == l.slot && n.state == .valid && n.dirty != 0 then 0 else l.dirty)
      ∧ (∀ q ∈ s.reqs, q ∈ t.reqs) ∧ (∀ n, n ≠ c → t.core n = r.core n) ∧ MemoryKept s t)

/-- R163, R164: WAITX issues once its transfer is complete, with the channel's xw, and stalls with code 13 before; XWR
returns NXT and xw of its channel. -/
def Obligations.WatermarkWords : Prop :=
  ∀ (s : State) (ch : BitVec 3) (a : Src) (d : Dest),
    let x := (s.core s.cur.core).copy
    let xw := x.xw.getD ch.toNat 0
    (Fresh s [a] → (0 < (xw - (operand s a).setWidth 32).toInt → ∃ t, exec (.waitx ch a d) s = .next t
        ∧ Retired s t 1 [a] (some (xw.setWidth 64, d)) s.nextPc id)
      ∧ (¬ 0 < (xw - (operand s a).setWidth 32).toInt → ∃ t, exec (.waitx ch a d) s = .next t ∧ Stalled s t 13))
    ∧ (Fresh s [] → ∃ t, exec (.xwr ch d) s = .next t
      ∧ Retired s t 1 [] (some (BitVec.ofNat 64 ((x.nxt.getD ch.toNat 0).toNat * 2 ^ 32 + xw.toNat), d)) s.nextPc id)

/-! ## Monitors -/

/-- R286, R287: MONW and MONC send one compare-and-arm to the home and stall; MONC returns the home's value; MONW returns
it where it never armed, goes on waiting while its monitor is armed, and otherwise returns the value that the firing
carried. -/
def Obligations.MonitorWords : Prop :=
  (∀ (s r : State) (wait : Bool) (a v : Src) (d : Dest) (pa : Nat), Fresh s [a, v] → Ordinary s s.cur.core →
    s.scalar (operand s a) 8 Need.atomicRead [.rw, .atom] = (r, .ok pa) → isHost pa = false →
    (wait = true → ∀ m, (s.core s.cur.core).mon = some m → m.armed = false ∧ m.fired = false) →
    (s.seq s.cur.core).atomicReq = none → (∀ l, r.scalarLine (operand s a) = some l → l.state ≠ .pending) →
    Looked s r ∧ ∃ t q, exec (if wait then .monw a v d else .monc a v d) s = .next t ∧ q ∈ t.reqs ∧ q.src = .arm s.cur.core
      ∧ q.kind = .arm (operand s v) ∧ q.pa = pa ∧ q.len = 8 ∧ q.phase = .travel
      ∧ (t.seq s.cur.core).phase = 1 ∧ (t.seq s.cur.core).stall = 10 ∧ (t.core s.cur.core).mon = none
      ∧ (t.seq s.cur.core).pc = (s.seq s.cur.core).pc ∧ (t.seq s.cur.core).belt = (s.seq s.cur.core).belt)
  ∧ (∀ (s : State) (a v : Src) (d : Dest), (s.seq s.cur.core).phase ≠ 0 →
      ((s.seq s.cur.core).answer = none → ∀ i, i = .monw a v d ∨ i = .monc a v d → ∃ t, exec i s = .next t ∧ Stalled s t 10)
      ∧ ∀ w, (s.seq s.cur.core).answer = some w →
        (∃ t, exec (.monc a v d) s = .next t ∧ Retired s t 1 [a, v] (some (w, d)) s.nextPc id)
        ∧ ((s.core s.cur.core).mon = none → ∃ t, exec (.monw a v d) s = .next t
          ∧ Retired s t 1 [a, v] (some (w, d)) s.nextPc (fun x => { x with mon := none }))
        ∧ ∀ m, (s.core s.cur.core).mon = some m →
          (m.fired = true → ∃ t, exec (.monw a v d) s = .next t
            ∧ Retired s t 1 [a, v] (some (m.seen, d)) s.nextPc (fun x => { x with mon := none }))
          ∧ (m.fired = false → ∃ t, exec (.monw a v d) s = .next t ∧ Stalled s t 10 ∧ (t.seq s.cur.core).phase = 2))
  ∧ (∀ (s : State) (c : Nat) (r : Req), s.armAnswer c = some r → r.poison = false → (s.seq c).phase = 1 →
      ∃ t, exec (.monitorWake c) s = .next t ∧ (t.seq c).answer = some (BitVec.ofNat 64 (leNat r.result))
        ∧ t.reqs = s.reqs.filter (·.id != r.id) ∧ (t.seq c).pc = (s.seq c).pc ∧ (∀ n, n ≠ c → t.core n = s.core n))
  ∧ (∀ (s : State) (c : Nat) (m : Monitor), s.armAnswer c = none → (s.core c).mon = some m → m.fired = true →
      (s.seq c).phase = 2 → (s.seq c).stall = 10 → (s.seq c).answer = none →
      ∃ t, exec (.monitorWake c) s = .next t ∧ (t.seq c).answer = some m.seen ∧ t.reqs = s.reqs
        ∧ (∀ n, n ≠ c → t.core n = s.core n))
  ∧ ∀ (s : State) (c : Nat) (m : Monitor) (k : Task), (s.core c).mon = some m → (s.core c).task = some k →
      s.unheldMonitor c = true →
      (isVirtual m.addr = true → ∃ r e, s.translate (.seq c) k.fn (s.rootOf k.fn k.wq) m.addr.toNat Need.atomicRead = (r, .ok e)) →
      ∃ t q, exec (.monitorRearmTimer c) s = .next t ∧ t.reqs = s.reqs ++ [q] ∧ q.src = .arm c ∧ q.kind = .arm m.value
        ∧ q.len = 8 ∧ (∀ n, t.seq n = s.seq n) ∧ MemoryKept s t

/-! ## Engine commands -/

/-- R32 to R40, R146: a PUSH that has room, no launch fault and no unlinked chained pair enters its command, with the words
of the quad, in a free slot of its queue, with an edge to each conflicting command, and raises cp or mt. -/
def Obligations.PushWord : Prop :=
  ∀ (s r : State) (q : Queue) (nq : BitVec 2) (k : Task) (held : List TlbEntry), Fresh s (quadRegs nq) →
    let c := s.cur.core
    let x := s.core c
    let e := queueEngine q
    let w (i : Nat) : Dbl := x.seq.named.getD (4 * nq.toNat + i) 0
    let l := s.launchBytes c e (w 0) (w 1) (w 2) (w 3)
    let regs := l.regionBytes.filterMap parseRegion
    x.task = some k → (x.queue e).length < 32 → (isCopy e = true → x.seq.cp ≠ 63) →
    launchReason k e (w 0) (w 1) (w 2) (w 3) l = none →
    (∀ slot, x.unlinked c e (cwChain (w 0)) slot regs = none) → handedByte c k.handed regs = none →
    s.useFree.xlatRegions c k.fn (s.rootOf k.fn k.wq) [] regs = (r, .ok held) →
    (∀ m ∈ r.metLines c k regs fun g => g.kind.writes, m.state ≠ .pending) →
    ∃ t n, exec (.push q nq) s = .next t
      ∧ (t.core c).queues = x.queues.modify (queueIdx e) (fun l => l ++ [n])
      ∧ n.slot < 32 ∧ (∀ j ∈ x.queue e, j.slot ≠ n.slot)
      ∧ n.cw0 = w 0 ∧ n.cw1 = w 1 ∧ n.cw2 = w 2 ∧ n.cw3 = w 3 ∧ n.regions = regs ∧ n.xlat = held
      ∧ n.nest = parseNest (cwDims (w 0)) l.nestBytes ∧ n.edges = x.newEdges c e regs
      ∧ n.body = none ∧ n.started = false ∧ MemoryKept r t
      ∧ Stepped x.seq (t.seq c) 1 (quadRegs nq) none s.nextPc (fun q => if isCopy e then { q with cp := q.cp + 1 }
          else if e = .mat then { q with mt := q.mt + 1 } else q)
      ∧ ∀ j, j ≠ c → t.core j = r.core j

/-- R34, R385: fetching a body gives the command its words, or keeps the fault of the word that could not be fetched until
the first word would issue; a word that is illegal, exceeds CHS or runs over the body's end parks the queue with cause 0x01
and its place. -/
def Obligations.BodyFetch : Prop :=
  ∀ (s r : State) (c : Nat) (e : Engine) (k : Cmd) (v : Task) (x : Except (Nat × XFault) (List Word)), e ≠ .seq → c < 384 →
    (s.core c).freezes = [] → (s.core c).task = some v → (s.core c).unfetched e = some k →
    s.fetchBody c v.fn (s.rootOf v.fn v.wq) k.bodyAddr (cwLen k.cw0) 0 = (r, x) →
    (∀ i f, x = .error (i, f) → ∃ t g, exec (.bodyFetch c e) s = .next t
      ∧ (t.core c).queues = onCmd e k.uid (fun j => { j with fetchFault := some g }) (s.core c).queues
      ∧ g.cause = f.cause ∧ g.index = i ∧ g.addr = k.bodyAddr + BitVec.ofNat 64 (4 * i))
    ∧ ∀ ws, x = .ok ws → ∃ t after, exec (.bodyFetch c e) s = .next t
      ∧ ((r.fetchBody c v.fn (s.rootOf v.fn v.wq) (k.bodyAddr + BitVec.ofNat 64 (4 * cwLen k.cw0))
          (Nat.min ((v.codeArea e).2 - (cwBody k.cw0 + cwLen k.cw0)) 3) 0).2 = .ok after ∨ after = [])
      ∧ (bodyFails e (cwChain k.cw0) after (cwLen k.cw0 + 1) 0 ws = none →
          (t.core c).queues = onCmd e k.uid (fun j => { j with body := some ws }) (s.core c).queues)
      ∧ ∀ i sub, bodyFails e (cwChain k.cw0) after (cwLen k.cw0 + 1) 0 ws = some (i, sub) →
          (t.core c).queues = onCmd e k.uid (fun j => { j with faulted := true }) (s.core c).queues
          ∧ Parks s t c v 0x01 (engUnit e) [BitVec.ofNat 64 (0x01 + engCode e * 2 ^ 8 + k.slot * 2 ^ 11 + i * 2 ^ 16 + sub * 2 ^ 22),
              (ws.getD i 0).setWidth 64, k.bodyAddr + BitVec.ofNat 64 (4 * i), 0]

/-- R31, R39, R385: a fetch fault is taken where the first word would issue: the domain freezes, the engine's fault record
is written, and the queue parks. A command whose words are complete and whose signals are given retires: it leaves its
queue, no edge names it, and cp or mt falls. -/
def Obligations.CommandEnds : Prop :=
  (∀ (s : State) (c : Nat) (e : Engine) (k : Cmd) (f : FetchFault) (v : Task), c < 384 → s.fetchFaulted c e = some (k, f) →
    (s.core c).task = some v → ∃ t info cause, exec (.bodyFetchFaultTaken c e) s = .next t
      ∧ .bodyFault e ∈ (t.core c).freezes
      ∧ (e = .load → (t.core c).copy.faultL = some ⟨cause, f.addr, info, 0⟩)
      ∧ (e = .store → (t.core c).copy.faultS = some ⟨cause, f.addr, info, 0⟩)
      ∧ (e = .vec → (t.core c).vec.fault = some ⟨cause, f.addr, info, 0⟩)
      ∧ (e = .mat → (t.core c).mat.fault = some ⟨cause, f.addr, info, 0⟩)
      ∧ Parks s t c v f.cause (engUnit e) [cause, f.addr, info, 0])
  ∧ ∀ (s : State) (c : Nat) (e : Engine) (k : Cmd) (l : List Cmd), e ≠ .seq → (s.core c).freezes = [] →
    (s.core c).queue e = k :: l → (s.core c).cmdOver e k = true → ∃ t, exec (.commandRetire c e) s = .next t
      ∧ (t.core c).queues = (((s.core c).queues.modify (queueIdx e) fun q => q.filter fun j => j.uid != k.uid).map
          fun (q : List Cmd) => q.map fun (j : Cmd) => { j with edges := j.edges.filter (· != k.uid) })
      ∧ (t.seq c).cp = (if isCopy e then (s.seq c).cp - 1 else (s.seq c).cp)
      ∧ (t.seq c).mt = (if e = .mat then (s.seq c).mt - 1 else (s.seq c).mt)
      ∧ (t.seq c).pc = (s.seq c).pc ∧ (t.seq c).belt = (s.seq c).belt ∧ (t.seq c).named = (s.seq c).named
      ∧ ((s.core c).mat.formed = false → ∀ j, j ≠ c → t.core j = s.core j) ∧ MemoryKept s t

/-- R42, R263: a core that is to issue matrix words requests its array; the next requesting member after the last holder has
the lease, and where it is the last lease a gang waits for, no member waits any longer; at the limit of cycles a lease ends,
where another member requests it and every matrix word is complete. -/
def Obligations.LeaseEvents : Prop :=
  (∀ (s : State) (c : Nat), c < 384 → (s.core c).freezes = [] → s.wantsLease c = true → s.holdsLease c = false →
    c ∉ (s.quad (c / 4)).leaseReqs → ∃ t, exec (.leaseRequest c) s = .next t
      ∧ t = s.updQuad (c / 4) fun q => { q with leaseReqs := q.leaseReqs ++ [c] })
  ∧ (∀ (s : State) (q c : Nat), (s.quad q).fenced = false → (s.quad q).leaseHolder = none →
    (s.quad q).nextHolder q = some c → s.wantsLease c = true → ∃ t, exec (.leaseGrant q) s = .next t
      ∧ t = { s.updQuad q fun v => { v with leaseHolder := some c, leaseCount := 0, leaseFrom := s.wall, leaseOver := false,
                                            leaseReqs := v.leaseReqs.filter (· != c) } with cores := t.cores }
      ∧ ((s.core c).mat.anew = false → t.cores = s.cores)
      ∧ ((s.core c).mat.anew = true → (∀ m ∈ (s.core c).leaseGroup c, t.holdsLease m = true) →
        ∀ m ∈ (s.core c).leaseGroup c, (t.core m).mat.anew = false))
  ∧ (∀ (s : State) (q c d : Nat), c / 4 = q → c < 384 → (s.quad q).leaseHolder = some c → (s.core c).freezes = [] →
    (s.quad q).leaseFrom + 65536 ≤ s.wall → (s.core c).mat.formed = false → (s.core c).mat.infl = [] → d ≠ c →
    d ∈ (s.quad q).leaseReqs → ∃ t, exec (.leaseCycleLimit q) s = .next t
      ∧ t = s.updQuad q fun v => { v with leaseHolder := none, leaseLast := c % 4, leaseOver := false })
  ∧ ∀ (s : State) (c : Nat), canSequencerStallRelease c s = true → ∃ t, exec (.sequencerStallRelease c) s = .next t
      ∧ t = s.updSeq c fun q => { q with stall := 0 }

/-! ## Backpedal accumulation -/

/-- R296: FLUSHRES takes its tokens and stalls with code 14 until no store command is left, then delivers the slot of its
line, or every slot, and issues once no addend of the core is outside its slots and the memory. -/
def Obligations.FlushResiduals : Prop :=
  (∀ (s : State) (o : Option Src), Fresh s o.toList → (∀ a ∈ o, formOk (operand s a) = true) →
    ∃ t, exec (.flushres o) s = .next t ∧ (t.seq s.cur.core).phase = 1 ∧ (t.seq s.cur.core).stall = 14
      ∧ (t.core s.cur.core).tokens = ((s.core s.cur.core).takeTokens .seq s.cur.chain).tokens
      ∧ (t.seq s.cur.core).pc = (s.seq s.cur.core).pc ∧ (t.seq s.cur.core).belt = (s.seq s.cur.core).belt ∧ MemoryKept s t)
  ∧ (∀ (s : State) (o : Option Src), (s.seq s.cur.core).phase = 1 → (s.core s.cur.core).queue .store = [] →
      ∃ t, exec (.flushres o) s = .next t ∧ (t.seq s.cur.core).phase = 2 ∧ (t.seq s.cur.core).stall = 14
        ∧ (o = none → ∀ i, i < 64 → ((t.core s.cur.core).resTag i).valid = false)
        ∧ (∀ a, o = some a → let j := resSlot (operand s a).toNat
            ∀ i, ((t.core s.cur.core).resTag i).valid = (((s.core s.cur.core).resTag i).valid
              && !(i == j && ((s.core s.cur.core).resTag j).va == (operand s a).toNat / 128 * 128)))
        ∧ (t.seq s.cur.core).pc = (s.seq s.cur.core).pc ∧ MemoryKept s t)
  ∧ ∀ (s : State) (o : Option Src), (s.seq s.cur.core).phase = 2 → s.addendsDone s.cur.core = true →
      ∃ t, exec (.flushres o) s = .next t
        ∧ Stepped (s.seq s.cur.core) (t.seq s.cur.core) 1 o.toList none s.nextPc (fun q => q)
        ∧ (∀ k, k ≠ s.cur.core → t.core k = s.core k) ∧ MemoryKept s t

/-- R294, R297: BPQRY gives the mask of the valid slots, a slot's tag, or the counts of addends; a slot that is 4,096
cycles old is delivered at priority and is empty. -/
def Obligations.ResidualWords : Prop :=
  (∀ (s : State) (d : Dest), Fresh s [] → ∃ t v, exec (.bpqry .mask d) s = .next t
      ∧ Retired s t 1 [] (some (v, d)) s.nextPc id
      ∧ ∀ i, i < 64 → v.getLsbD i = (((s.core s.cur.core).task.map (·.resid)).getD false && ((s.core s.cur.core).resTag i).valid))
  ∧ (∀ (s : State) (a : Src) (d : Dest), Fresh s [a] → let x := s.core s.cur.core
      let g := x.resTag ((operand s a).toNat % 64)
      let age := Nat.min 4096 (x.seq.cyc - g.born) / 64
      ∃ t, exec (.bpqry (.slot a) d) s = .next t
        ∧ Retired s t 1 [a] (some (BitVec.ofNat 64 (g.va / 2 ^ 7 % 2 ^ 50 * 2 ^ 7 + (if g.valid then 8 else 0)
            + (match g.ty with | .s64 => 0 | .s32 => 1 | .f64 => 2 | .f32 => 3 | .f16x2 => 4 | .bf16x2 => 5)
            + (if g.valid then Nat.min 127 age else 0) * 2 ^ 57), d)) s.nextPc id)
  ∧ (∀ (s : State) (d : Dest), Fresh s [] → let r := (s.core s.cur.core).res
      ∃ t, exec (.bpqry .pend d) s = .next t
        ∧ Retired s t 1 [] (some (BitVec.ofNat 64 (r.pend % 1024 + r.prio % 128 * 1024), d)) s.nextPc id)
  ∧ ∀ (s : State) (c i : Nat), ((s.core c).resTag i).valid = true → (s.core c).freezes = [] →
      (s.core c).task.any (fun t => t.parked || t.stopped.isSome) = false → 4096 ≤ (s.seq c).cyc - ((s.core c).resTag i).born →
      let g := (s.core c).resTag i
      ∃ t q, exec (.residualAgeExpiry c i) s = .next t ∧ t.reqs = s.reqs ++ [q] ∧ q.kind = .addend g.ty g.mask true
        ∧ q.pa = g.pa ∧ q.va = g.va ∧ q.data = memReads s.mem (arrayAt c ((s.core c).residAt i)) 128 ∧ q.src = .addend c none
        ∧ (∀ j, ((t.core c).resTag j).valid = (((s.core c).resTag j).valid && j != i))
        ∧ (t.core c).res.prio = (s.core c).res.prio + 1 ∧ t.seq c = s.seq c
        ∧ (∀ k, k ≠ c → t.core k = s.core k) ∧ MemoryKept s t

/-! ## Records and Freewheel -/

/-- R318, R319, R320: a RECORD whose 256 bytes can be read takes a landing entry for its answer and reaches its walker;
RECORD.hand first waits until the accesses of the task's cores are performed at package scope, and hands its writing regions
over. RWAIT
gives the completion double of a record that has one, and stalls with code 3 before. -/
def Obligations.RecordWords : Prop :=
  (∀ (s r : State) (hand : Bool) (a : Src) (d : Dest) (wq : BitVec 3) (slot : BitVec 8) (pa : Nat) (k : Task), Fresh s [a] →
    Ordinary s s.cur.core → isVirtual (operand s a) = true →
    s.scalar (operand s a) 256 Need.read [.rd, .rw] = (r, .ok pa) → (s.core s.cur.core).task = some k →
    (hand = true → ∀ m, m = s.cur.core ∨ m ∈ k.members → (s.core m).writersIn = false ∧ Settled r m .pkg) →
    (s.seq s.cur.core).landing.length < 16 →
    let c := s.cur.core
    let w := (s.wq k.fn wq.toNat).att.getD (c / 24)
    ∃ t e b, exec (if hand then .recordHand a d wq slot else .record a d wq slot) s = .next t
      ∧ Stepped (s.seq c) (t.seq c) 1 [a] none s.nextPc (fun q => { q with landing := q.landing ++ [e] })
      ∧ e.kind = .record ∧ e.due = (s.seq c).cyc + slot.toNat ∧ e.dest = d ∧ e.arrived = false
      ∧ (t.die w).subs = (s.die w).subs ++ [b]
      ∧ b.fn = k.fn ∧ b.wq = wq.toNat ∧ b.va = operand s a ∧ b.from_ = some (c, e.id) ∧ b.hand = hand
      ∧ (t.core c).task.any (fun v => v.regions == if hand then handOver k.regions else k.regions) = true
      ∧ MemoryKept s t)
  ∧ ∀ (s : State) (a : Src) (d : Dest) (k : Task), Fresh s [a] → Ordinary s s.cur.core → (s.core s.cur.core).task = some k →
    let v := operand s a
    let n := (v.setWidth 48).toNat
    let q := ((v >>> 48).setWidth 3).toNat
    let st := (s.wq k.fn q).status n
    (st = 0 → ∃ t, exec (.rwait a d) s = .next t ∧ Stalled s t 3)
    ∧ (st ≠ 0 → ∃ t, exec (.rwait a d) s = .next t
      ∧ Retired s t 1 [a] (some (BitVec.ofNat 64 (n + q * 2 ^ 48 + st * 2 ^ 56), d)) s.nextPc id)

/-- R321, R322: FWINV drops the entries of the function that reference the address's granule, or all of them, on every
die; FWQRY gives a count of the core's die. -/
def Obligations.FreewheelWords : Prop :=
  (∀ (s : State) (o : Option Src) (k : Task), Fresh s o.toList → Ordinary s s.cur.core → (s.core s.cur.core).task = some k →
    (∀ a ∈ o, formOk (operand s a) = true) →
    ∃ t, exec (.fwinv o) s = .next t
      ∧ Stepped (s.seq s.cur.core) (t.seq s.cur.core) 1 o.toList none s.nextPc (fun q => q)
      ∧ (∀ d, (t.die d).fw = (s.die d).fw.filter fun e => !(e.fn == k.fn && (o.all fun a =>
          isVirtual (operand s a) && e.vaGranules.contains ((operand s a).toNat / 65536))))
      ∧ (∀ n, n ≠ s.cur.core → t.core n = s.core n) ∧ MemoryKept s t)
  ∧ ∀ (s : State) (w : FwKind) (d : Dest) (k : Task), Fresh s [] → Ordinary s s.cur.core → (s.core s.cur.core).task = some k →
    let die := s.cur.core / 24
    let c := tget (s.fn k.fn).fwctr die ⟨0, 0, 0, 0, 0⟩
    ∃ t, exec (.fwqry w d) s = .next t
      ∧ Retired s t 1 [] (some (BitVec.ofNat 64 (match w with
          | .hit => c.hit | .hitc => c.hitc | .miss => c.miss | .viol => c.viol | .unc => c.unc
          | .ent => ((s.die die).fw.filter fun e => e.fn == k.fn).length), d)) s.nextPc id

/-- R326, R327, R329, R331: a hit retires its task and is counted, a dirty one when its writes are performed; the entry of
a pure task is made, or abandoned and counted where it is too large; a watch message drops entries or marks them dirty, and
no write waits for a watch once every walker has acknowledged. -/
def Obligations.FreewheelEvents : Prop :=
  (∀ (s : State) (d : Nat) (l : FwLookup), (s.die d).lookup = some l →
    let k := l.task
    let n (s : State) := tget (s.fn k.fn).fwctr d ⟨0, 0, 0, 0, 0⟩
    let gone (t : State) := (t.die d).lookup = none
      ∧ (t.fn k.fn).registry = (s.fn k.fn).registry.filter fun g => !(g.wq == k.wq && g.rseq == k.rseq && g.tseq == k.tseq)
    (l.clean = true → ∃ t, exec (.freewheelCleanHit d) s = .next t ∧ gone t ∧ n t = { n s with hit := (n s).hit + 1 })
    ∧ (l.clean = false → (∀ i ∈ l.reqs, ∃ r ∈ s.reqs, r.id = i ∧ r.phase = .answered) →
      ∃ t, exec (.freewheelDirtyHitDone d) s = .next t ∧ gone t ∧ n t = { n s with hitc := (n s).hitc + 1 }
        ∧ ((∀ r ∈ (s.wq k.fn k.wq).records, r.cpl = 0) → ∀ e ∈ (t.die d).fw, e.id = l.entry.id → e.wclean = true)))
  ∧ (∀ (s : State) (c : Nat) (k : Task) (p : PureInfo), canFreewheelEntryMade c s = true → (s.core c).task = some k →
    k.pureInfo = some p →
    let d := c / 24
    let rows := wrRows k.regions
    let n := rowsLen rows
    let done (t : State) := ∀ m ∈ k.members, (t.core m).task.all (fun v => v.pureInfo.all (·.counted)) = true
    (2 ^ 24 < 1024 + n → ∃ t, exec (.freewheelEntryMade c) s = .next t ∧ done t
      ∧ (tget (t.fn k.fn).fwctr d ⟨0, 0, 0, 0, 0⟩).unc = (tget (s.fn k.fn).fwctr d ⟨0, 0, 0, 0, 0⟩).unc + 1)
    ∧ ∀ (v : FwView) (u : State) (l : List (Nat × Nat)) (w : Nat), 1024 + n ≤ 2 ^ 24 →
      (s.fwView d k.fn (s.rootOf k.fn k.wq) k.regions).2 = some v →
      s.rowPieces d k.fn (s.rootOf k.fn k.wq) ⟨0, 0⟩ rows = (u, some l) →
      let need := (1024 + n + 65535) / 65536
      let r := u.makeRoom d k.fn need 2048
      r.fwVictim d k.fn p.key = some w → need ≤ (r.freeChunks k.fn).length →
      ∃ t e, exec (.freewheelEntryMade c) s = .next t ∧ done t ∧ e ∈ (t.die d).fw ∧ e.key = p.key ∧ e.words = p.words
        ∧ e.fn = k.fn ∧ e.set = p.key.toNat % 256 ∧ e.way = w ∧ e.wclean = true ∧ e.rdGranules = p.granules ∧ e.wrGranules = v.wr)
  ∧ (∀ (s : State) (m : WatchMsg), s.watchMsgs.find? (fun k => k.id == m.id && !k.applied) = some m →
    ∃ t, exec (.watchMessage m.id) s = .next t
      ∧ (∀ k ∈ t.watchMsgs, k.id = m.id → k.applied = true)
      ∧ (t.die m.dst).fw = (if m.invalidate then (s.die m.dst).fw.filter fun e => !e.rdGranules.contains m.granule
          else (s.die m.dst).fw.map fun e => if e.wrGranules.contains m.granule then { e with wclean := false } else e)
      ∧ (∀ d, d ≠ m.dst → t.die d = s.die d) ∧ t.reqs = s.reqs ∧ MemoryKept s t)
  ∧ ∀ (s : State) (w : Nat), (∃ m ∈ s.watchMsgs, m.watch = w) → (∀ m ∈ s.watchMsgs, m.watch = w → m.applied = true) →
    ∃ t, exec (.watchAcknowledgement w) s = .next t ∧ t.watchMsgs = s.watchMsgs.filter (·.watch != w)
      ∧ (∀ r ∈ t.reqs, w ∉ r.watches) ∧ MemoryKept s t

/-! ## Tasks -/

/-- R301, R302, R318: a submission is decided: an accepted record joins its queue under the next number, a rejected one does
not, and the result lands at the RECORD that sent it, or stands in WQRES for a doorbell. -/
def Obligations.SubmissionDecided : Prop :=
  ∀ (s r : State) (d : Nat) (b : Submission) (l : List Submission) (x : Except Nat Record), (s.die d).subs = b :: l →
    (s.updDie d fun v => { v with subs := l }).decideSubmission d b = (r, x) →
    ∃ t, exec (.submissionDecided d) s = .next t
      ∧ (∀ k, x = .ok k → k ∈ (t.wq b.fn b.wq).records ∧ (t.wq b.fn b.wq).next = (r.wq b.fn b.wq).next + 1)
      ∧ (∀ e, x = .error e → (t.wq b.fn b.wq).records = (r.wq b.fn b.wq).records ∧ (t.wq b.fn b.wq).next = (r.wq b.fn b.wq).next)
      ∧ (b.from_ = none → (t.wq b.fn b.wq).wqres = submissionResult b.wq x)
      ∧ ∀ c i, b.from_ = some (c, i) → ∀ e ∈ (t.seq c).landing, e.id = i →
          e.arrived = true ∧ e.data = (submissionResult b.wq x).setWidth 128

/-- R304, R305: the oldest waiting record of a queue starts when it may: its tasks are dispatched from then on, or, where a
record that it depends on failed, it is complete with status 0x03, and so will be every waiting record that depends on it. -/
def Obligations.RecordStart : Prop :=
  ∀ (s : State) (fn wq : Nat) (r : Record), (s.wq fn wq).park = false → (s.wq fn wq).att ≠ none →
    (s.wq fn wq).startable (s.fn fn) = some r → (s.wq fn wq).records.find? (fun k => k.seq == r.seq) = some r →
    let ok (p : Nat × Nat) : Prop := let st := (s.wq fn p.2).status p.1
      st = 0x01 ∨ st = 0x80 ∨ st = 0xFE
    (r.depFailed = false → (∀ p ∈ r.deps, ok p) → (∀ b ∈ r.bounds, b ≠ 0) → ∃ t, exec (.recordStart fn wq) s = .next t
      ∧ (t.wq fn wq).records = (s.wq fn wq).records.map fun k =>
          if k.seq = r.seq then { k with state := .dispatching, drained := k.bounds.any (· == 0) } else k)
    ∧ (r.depFailed = true ∨ (∃ p ∈ r.deps, ¬ ok p) → r.cpl = 0 → ∃ t, exec (.recordStart fn wq) s = .next t
      ∧ (t.wq fn wq).records = (s.wq fn wq).records.map fun k =>
          if k.seq = r.seq then { k with state := .complete, status := 0x03 }
          else if k.state = .waiting ∧ (r.seq, wq) ∈ k.deps then { k with depFailed := true } else k)

/-- R307 to R312: where the walker chooses a record's next task, which is not pure, has valid regions and races with none,
the task is registered and placed on its cores, in the state that R48 and R119 give. -/
def Obligations.TaskDispatch : Prop :=
  ∀ (s : State) (d : Nat) (k : Candidate) (cs : List Nat) (g : List Candidate) (rs : List Region),
    (s.die d).lookup = none → (s.die d).tstop = false → s.choose d (s.sorted d) [] = (some (k, cs), g) →
    let u := s.reserve d g
    u.redoTask d = none → u.resumable d = none → ¬ (k.record.nextTask = 0 ∧ 38 < k.record.spreq) →
    k.record.isPure = false → k.record.nextRegions = .ok rs → s.race k.fn k.wq k.record.seq rs = none →
    let v := k.record.task k.fn k.wq cs rs
    ∃ t, exec (.taskDispatch d) s = .next t
      ∧ (∀ c ∈ cs, (t.core c).task.any (fun w => w.fn == k.fn && w.wq == k.wq && w.rseq == k.record.seq
          && w.tseq == k.record.nextTask && w.members == cs) = true ∧ t.seq c = Seq.dispatched v)
      ∧ (t.fn k.fn).registry = (s.fn k.fn).registry ++ [⟨k.wq, k.record.seq, k.record.nextTask, rs⟩]

/-- R151, R309: TEND stalls with code 12 while it delivers the residuals, writes the lines back and, for a pure task, waits
for its entry; then it issues, and the task is finished. When every member has finished the task leaves its cores and the
registry. -/
def Obligations.TaskEnd : Prop :=
  (∀ s : State, Fresh s [] → (s.core s.cur.core).tendReady = true → s.gangWaits s.cur.core = false →
    ∃ t, exec .tend s = .next t ∧ (t.seq s.cur.core).phase = 1 ∧ (t.seq s.cur.core).stall = 12
      ∧ (t.seq s.cur.core).pc = (s.seq s.cur.core).pc
      ∧ ∀ i, i < 64 → ((t.core s.cur.core).resTag i).valid = false)
  ∧ (∀ s : State, (s.seq s.cur.core).phase = 1 → s.addendsDone s.cur.core = true →
    ∃ t, exec .tend s = .next t ∧ (t.seq s.cur.core).phase = 2 ∧ (t.seq s.cur.core).stall = 12
      ∧ (t.seq s.cur.core).pc = (s.seq s.cur.core).pc ∧ (t.core s.cur.core).dirtyLines = [] ∧ MemoryKept s t)
  ∧ (∀ s : State, 2 ≤ (s.seq s.cur.core).phase → (s.core s.cur.core).copy.wbs = [] →
    (s.pureOpen s.cur.core = true → ∃ t, exec .tend s = .next t ∧ (t.seq s.cur.core).phase = 3 ∧ (t.seq s.cur.core).stall = 12)
    ∧ (s.pureOpen s.cur.core = false → ∃ t, exec .tend s = .next t
      ∧ Stepped (s.seq s.cur.core) (t.seq s.cur.core) 1 [] none s.nextPc (fun q => q)
      ∧ (t.core s.cur.core).task.all (·.finished) = true ∧ (t.core s.cur.core).mat.keep = false
      ∧ (s.cur.core < 384 → (t.quad (s.cur.core / 4)).leaseHolder ≠ some s.cur.core)))
  ∧ ∀ (s : State) (c : Nat) (k : Task), canTaskComplete c s = true → (s.core c).task = some k →
    ∃ t, exec (.taskComplete c) s = .next t ∧ (∀ m ∈ k.members, (t.core m).task = none)
      ∧ (t.fn k.fn).registry = (s.fn k.fn).registry.filter fun g => !(g.wq == k.wq && g.rseq == k.rseq && g.tseq == k.tseq)

/-- R150, R316: YIELD stalls with code 11 while the task's residuals and lines go out, is offered, and issues when its core
is given back; a gang, a task whose function has a free core, or one for which no other task may run goes on at once, and
another task takes the core of one that leaves it. -/
def Obligations.Yielding : Prop :=
  (∀ s : State, Fresh s [] → (s.core s.cur.core).queuesEmpty = true → (s.core s.cur.core).noSignals = true →
    (s.seq s.cur.core).st = 0 → ∃ t, exec .yield s = .next t ∧ (t.seq s.cur.core).phase = 1
      ∧ (t.seq s.cur.core).stall = 11 ∧ (∀ i, i < 64 → ((t.core s.cur.core).resTag i).valid = false)
      ∧ (t.core s.cur.core).dirtyLines = [])
  ∧ (∀ s : State, (s.seq s.cur.core).phase = 1 → s.yieldReady s.cur.core = true →
    ∃ t, exec .yield s = .next t ∧ (t.seq s.cur.core).phase = 2 ∧ (t.seq s.cur.core).stall = 11)
  ∧ (∀ s : State, (s.seq s.cur.core).phase = 3 → ∃ t, exec .yield s = .next t ∧ Retired s t 1 [] none s.nextPc id)
  ∧ ∀ (s : State) (c : Nat) (w : Task), canYieldOffer c s = true → (s.core c).task = some w →
    (w.gang ≠ 0 ∨ (s.ownedCores w.fn (c / 24)).any s.coreFree = true ∨ (s.fn w.fn).suspended = true →
      ∃ t, exec (.yieldOffer c) s = .next t ∧ t = s.updSeq c fun q => { q with phase := 3 })
    ∧ ∀ k rs, w.gang = 0 → (s.ownedCores w.fn (c / 24)).any s.coreFree = false → (s.fn w.fn).suspended = false →
      s.settleable c = true → (∀ v ∈ (s.fn w.fn).away, v.task.yielded = false) → s.nextFor (c / 24) w.fn = some k →
      w.effPrio ≤ k.record.prio → ¬ (k.record.nextTask = 0 ∧ 38 < k.record.spreq) → k.record.isPure = false →
      k.record.nextRegions = .ok rs → s.race k.fn k.wq k.record.seq rs = none →
      ∃ t, exec (.yieldOffer c) s = .next t
        ∧ (∃ v ∈ (t.fn w.fn).away, v.place = c ∧ v.task.yielded = true ∧ v.task.tseq = w.tseq ∧ v.task.rseq = w.rseq)
        ∧ (t.core c).task.any (fun x => x.rseq == k.record.seq && x.tseq == k.record.nextTask) = true

/-! ## System words of the Derailleur -/

/-- R344: SLMAP gives a bound function free quads, or attaches a queue to a die on which it owns one; SLUNMAP detaches a
queue without open records, or takes back quads on which no task is resident, and is complete when their write-backs are. -/
def Obligations.MapWords : Prop :=
  ∀ (s : State) (a : Src) (d : Dest) (fn die : Nat), 1 ≤ fn → fn ≤ 48 → die < 16 → (s.fn fn).bound = true →
    (∀ (u : State) (mask : Nat), mask < 64 → number s a = fn + die * 2 ^ 12 + mask * 2 ^ 16 → SysReady s [a] →
      let qs := maskQuads die mask
      (s.fn fn).tdisp = .unlocked → (∀ q ∈ qs, (s.quad q).gated = false ∧ (s.quad q).fenced = false ∧ (s.quad q).owner = none) →
      s.mapQuads fn qs = some u →
      ∃ t, exec (.slmap a d) s = .next t ∧ SysEnds u t [a] d 0 0
        ∧ (∀ q, (u.quad q).owner = if q ∈ qs then some fn else (s.quad q).owner) ∧ u.cores = s.cores ∧ u.mem = s.mem)
    ∧ (∀ wq, wq < 8 → number s a = fn + 2 ^ 8 + die * 2 ^ 12 + wq * 2 ^ 24 → SysReady s [a] →
      ((s.wq fn wq).att = none → s.ownsOn fn die ≠ 0 → ∃ t, exec (.slmap a d) s = .next t
        ∧ SysEnds (s.updWq fn wq fun w => { w with att := some die }) t [a] d 0 0)
      ∧ ((s.wq fn wq).att = some die → (s.wq fn wq).openCount = 0 → (s.wq fn wq).park = false →
        ∃ t, exec (.slunmap a d) s = .next t ∧ SysEnds (s.updWq fn wq fun w => { w with att := none }) t [a] d 0 0))
    ∧ ∀ mask, mask < 64 → number s a = fn + die * 2 ^ 12 + mask * 2 ^ 16 →
      let qs := maskQuads die mask
      (SysReady s [a] → (s.fn fn).tdisp = .unlocked → s.unmapStatus fn die qs = 0 →
        ∃ t, exec (.slunmap a d) s = .next t ∧ SysWaits s t 1 ∧ ∀ q ∈ qs, (t.quad q).owner = none ∧ (t.quad q).rows = [])
      ∧ ((s.seq s.cur.core).phase = 1 → (s.seq s.cur.core).st = 0 → s.quadsQuiet qs = true →
        ∀ n, (s.seq s.cur.core).sweep = [n] → ∃ t, exec (.slunmap a d) s = .next t ∧ SysEnds s t [a] d 0 n)

/-- R279, R345, R361: WMASK gives a class of a function its ways and policies, and lines in ways that the function loses
leave every slice; THROT sets shares, acquisition, a die's power limit or its gated quads, and DOGSET the watchdog, the
slice period, the stop deadline or a die's replication control. THROT's and DOGSET's die stands where entry 21 reads it. -/
def Obligations.LimitWords : Prop :=
  ∀ (s : State) (a b : Src) (d : Dest), SysReady s [a, b] →
    let x := number s a
    let y := number s b
    let ends (i : Instr) (u : State) := ∃ t, exec i s = .next t ∧ SysEnds u t [a, b] d 0 0
    (∀ fn, 1 ≤ fn → fn ≤ 48 → (s.fn fn).bound = true →
      (∀ tc m p q r, x = fn + tc * 2 ^ 8 → tc < 4 → y = m + p * 2 ^ 16 + q * 2 ^ 18 + r * 2 ^ 20 → m < 2 ^ 16 → p < 3 → q < 3 → r < 3 →
        BitVec.ofNat 16 m &&& s.otherWays fn = 0 → (s.fn fn).tdisp = .unlocked → ∃ u, ends (.wmask a b d) u
          ∧ (u.fn fn).ways = (s.fn fn).ways.set tc ⟨BitVec.ofNat 16 m, BitVec.ofNat 2 p, BitVec.ofNat 2 q, BitVec.ofNat 2 r⟩
          ∧ (∀ i, (u.slice i).ways = (s.slice i).ways.filter fun l => !((s.fn fn).waysOf &&& ~~~(u.fn fn).waysOf).getLsbD l.way)
          ∧ u.cores = s.cores ∧ u.mem = s.mem)
      ∧ (x = fn → y < 2 ^ 36 → s.sharesOver fn (BitVec.ofNat 32 y) = false → ends (.throt a b d)
          (s.updFn fn fun f => { f with shares := BitVec.ofNat 32 y, caps := BitVec.ofNat 4 (y / 2 ^ 32) }))
      ∧ (x = fn + 2 ^ 8 → y < 16 → ends (.throt a b d) (s.updFn fn fun f => { f with acq := BitVec.ofNat 4 y }))
      ∧ (x = fn → y < 2 ^ 32 → ends (.dogset a b d) (s.updFn fn fun f => { f with dog := BitVec.ofNat 32 y }))
      ∧ (x = fn + 2 ^ 8 → 0 < y → y ≤ 2 ^ 20 → ends (.dogset a b d) (s.updFn fn fun f => { f with period := BitVec.ofNat 32 y }))
      ∧ (x = fn + 2 ^ 9 → y < 2 ^ 32 → ends (.dogset a b d) (s.updFn fn fun f => { f with deadline := Nat.min 1048576 y })))
    ∧ ∀ die, die < 16 →
      (x = 2 * 2 ^ 8 + die * 2 ^ 12 → y < 256 → ends (.throt a b d)
          (s.updDie die fun v => { v with powerLimit := if y = 0 ∨ 250 < y then 250 else y }))
      ∧ (x = 3 * 2 ^ 8 + die * 2 ^ 12 → y < 64 → (∀ q ∈ maskQuads die y, (s.quad q).owner = none) →
          ∃ u, ends (.throt a b d) u ∧ ∀ i, i < 6 → (u.quad (6 * die + i)).gated = y.testBit i)
      ∧ (x = 3 * 2 ^ 8 + die * 2 ^ 12 → y < 2 ^ 32 → y / 2 % 8 = 0 → ends (.dogset a b d)
          (s.updDie die fun v => { v with repctl := BitVec.ofNat 32 y }))

/-! ## The machine as a whole -/

/-- A step runs the word that it decodes: where the bytes at the program counter of the acting sequencer decode to an
instruction that the core has, the step is that instruction at the state in which the word is current; a word that the core
does not have, or that does not decode, is Illegal Instruction (R51). An engine's step runs the word at the command's place
in its body, and an event at the head of the schedule is that event. Time has passed before (entry 1). -/
def Obligations.StepRunsDecodedWord : Prop :=
  (∀ (s r u : State) (c : Nat) (w : Word) (xs : List Word), s.schedule = [] → s.actor = (c, .seq) → s.boot.mainPower = true →
    AtWord s.tick c →
    let q := (s.tick.seq c).endEpilogues (s.tick.seq c).loops
    let v := s.tick.updSeq c fun _ => q
    q.halted = false → v.inCode c q.pc = true → v.fetchWord c q.pc = (r, .ok w) →
    r.fetchExts c (seqExts w) (q.pc + 4) = (u, .ok xs) →
    let t := u.setCur c .seq q.pc w xs
    (∀ i, decodeWord .seq w xs = .ok i → (allowedOn c i = true → step s = exec i t)
      ∧ (allowedOn c i = false → step s = exec (.illegalInstruction w) t))
    ∧ ∀ e, decodeWord .seq w xs = .error e → step s = exec (.illegalInstruction w) t)
  ∧ (∀ (s : State) (c : Nat) (e : Engine) (k : Cmd) (ws : List Word) (i : Instr), s.schedule = [] → s.actor = (c, e) → e ≠ .seq →
    s.boot.mainPower = true → (e = .vec → s.tick.takenCmd c = none) → (s.tick.core c).curCmd e = some k → AtBody s.tick c e k ws →
    let w := ws.getD k.pos 0
    let xs := takenExts e w (ws.drop (k.pos + 1))
    decodeWord e w xs = .ok i →
    let u := (s.tick.updCore c fun x => x.startCmd e k).setCur c e (k.bodyAddr + BitVec.ofNat 64 (4 * k.pos)) w xs
    step s = exec i { u with cur := { u.cur with cmd := k.uid } })
  ∧ ∀ (s : State) (i : Instr) (rest : List Action), s.schedule = .event i :: rest → (Action.event i).ok = true →
    step s = exec i { s.tick with schedule := rest }

/-- Words written out from the manual's encodings decode to what they stand for: ADD.s64 k1, b0 => k1; LOOP k3', 3, 5, 1;
VBCAST.hi v2, 0x4042; FWQRY.hit; MIGOUT k1 => k4; and RECORD k0, 1, 1 => k4 with its EXT word. -/
def Obligations.DecodeWords : Prop :=
  decodeTableWord 32 0x00620220 = some (.add (.named 1 false) (.belt 0) (.named 1) .s64)
  ∧ decodeTableWord 32 0x0B272283 = some (.loop (.named 3 true) 1 5 (.e0 3))
  ∧ decodeTableWord 32 0x08894042 = some (.vbcastHi 2 (.e0 0x4042))
  ∧ decodeTableWord 32 0x0EC60000 = some (.fwqry .hit .belt)
  ∧ decodeTableWord 32 0x0F171014 = some (.migout (.named 1 false) 0 false (.named 4))
  ∧ decodeTableWord 64 0x0FC000010EC10508 = some (.record (.named 0 false) (.named 4) 1 1)

/-- Decode and encode agree: every well-formed instruction of a stream, with any chain bits, has words, and the decoder of
that stream reads the same instruction and chain bits from them. -/
def Obligations.DecodeEncode : Prop :=
  ∀ (c : Chain) (e : Engine) (i : Instr), i.wf = true → i.inStream e = true →
    ∃ w xs, encode c i = some (w :: xs) ∧ decodeWord e w xs = .ok i ∧ Chain.ofWord w = c

/-- Every step keeps the canonical form of memory: addresses rise strictly, and no byte is listed that reads as an unlisted
one. -/
def Obligations.MemoryForm : Prop :=
  ∀ s t : State, Memory.wf s.mem = true → step s = .next t → Memory.wf t.mem = true

/-- What reset leaves (R9, R10, R15, R82, R337, R362): bring-up stands at stage 0 and has neither failed nor ended, no
function is bound, no quad is owned, no task is resident, replication is on with its reset thresholds, no power limit is
set below 250 W, nothing is freezing or on its way; and memory is in canonical form. That a byte outside the package that
nothing has written reads as 0 is the model's choice (entry 5). -/
def Obligations.ResetState : Prop :=
  let s := State.reset
  s.boot.stage = 0 ∧ s.boot.fail = false ∧ s.boot.ready = false ∧ s.reqs = [] ∧ s.invs = []
  ∧ (∀ f, (s.fn f).bound = false ∧ (s.fn f).tdisp = .unlocked ∧ (s.fn f).away = [])
  ∧ (∀ q, (s.quad q).owner = none ∧ (s.quad q).leaseHolder = none)
  ∧ (∀ c, (s.core c).task = none ∧ (s.core c).freezes = [] ∧ (s.core c).copy.lines = [] ∧ (s.core c).tlb = [])
  ∧ (∀ d, (s.die d).repctl = 0x00400041 ∧ (s.die d).powerLimit = 250 ∧ (s.die d).duty = 65536 ∧ (s.die d).lookup = none)
  ∧ Memory.wf s.mem = true ∧ ∀ a, memRead s.mem a = 0

/-! ## Stops, parks, bindings and pages -/

/-- R346 to R351: PREEMPT begins the stop of the task of a core, or of every task of a function, whose dispatch it
suspends, and is complete when they have stopped; with depth 3 it lets dispatch go on. SPILL stops, saves and removes a stopped
task; RESTORE places it again and is complete when its write-backs are; SNAPRD writes one unit's block. -/
def Obligations.StopWords : Prop :=
  ∀ (s : State) (a b : Src) (d : Dest) (fn die core : Nat), 1 ≤ fn → fn ≤ 48 → die < 16 → core < 24 → s.cur.core = 384 →
    (s.fn fn).bound = true →
    let c := 24 * die + core
    let at_ := die * 2 ^ 12 + core * 2 ^ 16
    let x := number s a
    let y := number s b
    (∀ depth dl, depth < 4 → y = depth + dl * 2 ^ 8 →
      (x = fn → depth = 3 → SysReady s [a, b] → ∃ u t, exec (.preempt a b d) s = .next t ∧ SysEnds u t [a, b] d 0 0
        ∧ u = s.updFn fn fun f => { f.fold with suspended := false, quiesced := false })
      ∧ (x = fn → depth < 3 →
        (SysReady s [a, b] → ∃ t, exec (.preempt a b d) s = .next t ∧ SysWaits s t 1 ∧ (t.fn fn).suspended = true)
        ∧ ((s.seq 384).phase = 1 → s.allStopped fn = true → ∃ u t, exec (.preempt a b d) s = .next t
          ∧ SysEnds u t [a, b] d 0 (s.countTasks (s.residents fn))
          ∧ u = s.updFn fn fun f => { f with quiesced := true, lastQuiesce := s.wall }))
      ∧ (x = fn + 2 ^ 8 + at_ → depth < 3 → (s.quad (c / 4)).owner = some fn →
        ((s.core c).task = none → SysReady s [a, b] → ∃ t, exec (.preempt a b d) s = .next t ∧ SysEnds s t [a, b] d 0 0)
        ∧ ∀ k, (s.core c).task = some k →
          (SysReady s [a, b] → ∃ t, exec (.preempt a b d) s = .next t ∧ SysWaits s t 1
            ∧ ∀ m ∈ k.members, ∀ w, (s.core m).task = some w → w.stopped = none → w.parked = false →
              (t.core m).task.any (fun v => v.stopping == some depth) = true)
          ∧ ((s.seq 384).phase = 1 → (s.seq 384).sweep = [k.wq, k.rseq, k.tseq] →
            (∀ m ∈ k.members, ∃ w, (s.core m).task = some w ∧ w.stopped.isSome = true) →
            ∃ t, exec (.preempt a b d) s = .next t ∧ SysEnds s t [a, b] d 0 1)))
    ∧ ((x = fn + at_ → y % 256 = 0 → inHbm y areaLen = true →
        (∀ k, (s.core c).task = some k → k.fn = fn → k.stopped.isSome = true →
          (SysReady s [a, b] → ∃ t, exec (.spill a b d) s = .next t ∧ SysWaits s t 1)
          ∧ ((s.seq 384).phase = 1 → ∃ t, exec (.spill a b d) s = .next t ∧ SysWaits s t 2)
          ∧ ((s.seq 384).phase = 2 → (s.seq 384).st = 0 → ∃ u t, exec (.spill a b d) s = .next t ∧ SysEnds u t [a, b] d 0 0
            ∧ (u.core c).task = none ∧ ∃ v ∈ (u.fn fn).away, v.addr = some y ∧ v.place = c ∧ v.task = k))
        ∧ (∀ v, SysReady s [a, b] → s.areaOk y = true → whoOk (s.mem8 (y + 8)) fn c = true → s.coreFree c = true →
            (s.quad (c / 4)).owner = some fn → s.savedAt fn y = some v → s.settleable c = true →
            ∃ t, exec (.restore a b d) s = .next t ∧ SysWaits s t 1
              ∧ (t.core c).task.any (fun w => w.rseq == v.task.rseq && w.tseq == v.task.tseq && w.stopped.isNone) = true)
        ∧ ((s.seq 384).phase = 1 → (s.core c).settling = false → ∃ t, exec (.restore a b d) s = .next t
            ∧ SysEnds s t [a, b] d 0 0))
      ∧ ∀ unit, 1 ≤ unit → unit ≤ 5 → x = fn + at_ + unit * 2 ^ 24 → y % 64 = 0 → inHbm y (s.unitBlock c unit).length = true →
        (SysReady s [a, b] → s.holdsStopped c fn = true → ∃ t, exec (.snaprd a b d) s = .next t ∧ SysWaits s t 1)
        ∧ ((s.seq 384).phase = 1 → (s.seq 384).st = 0 → ∃ t, exec (.snaprd a b d) s = .next t ∧ SysEnds s t [a, b] d 0 0))

/-- R356, R358, R359: QPARK freezes and parks every task of a queue, counts them, and presents a record with cause 0x22,
unit 5. QRESUME retries, gives a value or ends the task whose record is presented, and presents the next. Each ends with a
status where it cannot act. -/
def Obligations.ParkWords : Prop :=
  ∀ (s : State) (a b : Src) (d : Dest) (fn wq : Nat),
    let w := s.wq fn wq
    (number s a < 2 ^ 11 → ∀ st, SysReady s [a] →
      (¬ (1 ≤ number s a % 2 ^ 8 ∧ number s a % 2 ^ 8 ≤ 48) ∧ st = 4
        ∨ number s a = fn + wq * 2 ^ 8 ∧ 1 ≤ fn ∧ fn ≤ 48 ∧ (s.fn fn).bound = false ∧ st = 1) →
      ∃ t, exec (.qpark a d) s = .next t ∧ SysEnds s t [a] d st 0)
    ∧ (2 ^ 11 ≤ number s a → SysReady s [a] → ∃ t, exec (.qpark a d) s = .next t ∧ SysEnds s t [a] d 4 0)
    ∧ (∀ st, SysReady s [a, b] →
      (number s a % 2 ^ 12 ≥ 2 ^ 11 ∨ number s a ≥ 2 ^ 14 ∨ number s a / 2 ^ 12 % 4 = 0 ∨ number s a % 2 ^ 8 = 0
          ∨ 48 < number s a % 2 ^ 8) ∧ st = 4
        ∨ (∃ act, number s a = fn + wq * 2 ^ 8 + act * 2 ^ 12 ∧ wq < 8 ∧ 1 ≤ fn ∧ fn ≤ 48 ∧ 1 ≤ act ∧ act ≤ 3)
          ∧ ((s.fn fn).bound = false ∧ st = 1 ∨ (s.fn fn).bound = true ∧ w.park = false ∧ st = 2
            ∨ (s.fn fn).bound = true ∧ w.park = true ∧ (s.fn fn).migrating = true ∧ st = 5) →
      ∃ t, exec (.qresume a b d) s = .next t ∧ SysEnds s t [a, b] d st 0)
    ∧ (1 ≤ fn → fn ≤ 48 → wq < 8 → (s.fn fn).bound = true →
      (number s a = fn + wq * 2 ^ 8 → SysReady s [a] → ∃ u t p, exec (.qpark a d) s = .next t
        ∧ SysEnds u t [a] d 0 (s.countTasks (s.queueCores fn wq))
        ∧ (u.wq fn wq).park = true ∧ (u.wq fn wq).parks = w.parks ++ [p]
        ∧ (p.words.getD 0 0).toNat % 2 ^ 12 = 0x22 + 5 * 2 ^ 8 ∧ p.words.length = 8 ∧ (∀ i, 1 ≤ i → p.words.getD i 0 = 0)
        ∧ (u.wq fn wq).pkrec = (if w.park = true then w.pkrec else p.words)
        ∧ (∀ c k, (s.core c).task = some k → k.fn = fn → k.wq = wq → (u.core c).task.any (·.parked) = true
          ∧ (k.parked = false → .park ∈ (u.core c).freezes ∧ (u.seq c).pc = (s.seq c).pc ∧ (u.seq c).belt = (s.seq c).belt))
        ∧ u.mem = s.mem)
      ∧ ∀ act, 1 ≤ act → act ≤ 3 → number s a = fn + wq * 2 ^ 8 + act * 2 ^ 12 → SysReady s [a, b] → w.park = true →
        (s.fn fn).migrating = false →
        (∃ t, exec (.qresume a b d) s = .next t ∧ SysEnds (s.resumeQueue fn wq act (operand s b)) t [a, b] d 0 0)
        ∧ ∀ p rest, w.parks = p :: rest → p.core < 384 →
          let rs := (p.words.getD 1 0).toNat
          let ts := (p.words.getD 2 0).toNat
          let cs := s.coresOf fn wq rs ts
          ∃ u t, exec (.qresume a b d) s = .next t ∧ SysEnds u t [a, b] d 0 0
            ∧ ((∀ c ∈ cs, ∀ k, (s.core c).task = some k → k.stopping = none ∧ (∀ l ∈ (s.seq c).landing, l.poison = false)
                ∧ (∀ f ∈ (s.core c).copy.xfers, f.poison = false ∧ f.unsent = [])
                ∧ ∀ l ∈ (s.core c).copy.lines, l.state ≠ .pending) → act ≠ 3 →
              (∀ r ∈ w.records, r.drained = false ∨ r.open_ ≠ [] ∨ r.cpl = 0) →
              (u.wq fn wq).parks = rest ∧ ((u.wq fn wq).park = true ↔ rest ≠ [])
              ∧ (∀ q, rest.head? = some q → (u.wq fn wq).pkrec = q.words) ∧ u.mem = s.mem
              ∧ (∀ c ∈ cs, ∀ k, (s.core c).task = some k → k.parked = true →
                (∃ n, (u.core c).task = some { k with parked := false, wd := n }) ∧ (u.seq c).pc = (s.seq c).pc
                ∧ (u.core c).freezes = (s.core c).freezes.filter Freeze.ofDie
                ∧ (u.core c).copy.faultL = none ∧ (u.core c).copy.faultS = none ∧ (u.core c).vec.fault = none
                ∧ (u.core c).mat.fault = none
                ∧ (∀ q wid, act = 2 → p.svc = some q → (s.seq c).occWid = some wid → (s.seq c).occ = 0 →
                  (u.seq c).belt = beltAfter (s.seq c).belt (some (operand s b, q))
                  ∧ (u.seq c).named = namedAfter (s.seq c).named (some (operand s b, q))))
              ∧ (∀ c, (c ∈ cs → (s.core c).task.any (·.parked) = false) → u.core c = s.core c)
              ∧ ∀ v ∈ (u.fn fn).away, v.task.isTask fn wq rs ts = true → v.task.parked = false)
            ∧ (act = 3 → (s.cores.map (·.1)).Nodup →
              (∀ r ∈ w.records, r.cpl = 0 ∨ r.seq ≠ rs ∧ (r.drained = false ∨ r.open_ ≠ [])) →
              (u.wq fn wq).parks = rest ∧ ((u.wq fn wq).park = true ↔ rest ≠ [])
              ∧ (∀ c k, (u.core c).task = some k → k.isTask fn wq rs ts = false)
              ∧ (∀ v ∈ (u.fn fn).away, v.task.isTask fn wq rs ts = false)
              ∧ ∀ r, (w.records.find? fun r => r.seq == rs) = some r →
                ∃ q, ((u.wq fn wq).records.find? fun r => r.seq == rs) = some q ∧ q.ended = true
                ∧ ts ∉ q.open_ ∧ (r.state = .draining → (∀ x ∈ r.open_, x = ts) → q.state = .complete ∧ q.status = 4)))

/-- R80, R360, R365, R377: S1INV and S2INV ask for an invalidation and are complete when it is; each of its steps drops what
it names: translations, at the start, with the epoch of the function's cores advanced; lines, when the old commands are over;
of a stage-2 invalidation the replicas, whose dies are told under one number; Freewheel entries, at the end. CYCR and
LKQRY read a function's counters and states. -/
def Obligations.InvalidationWords : Prop :=
  (∀ (s : State) (a b : Src) (d : Dest) (fn : Nat), 1 ≤ fn → fn ≤ 48 → (s.fn fn).bound = true →
    (∀ wq base sz, wq < 8 → 16 ≤ sz → base % 2 ^ sz = 0 → number s a = fn + wq * 2 ^ 8 → number s b = base + sz →
      SysReady s [a, b] →
      (sz ≤ 57 → base < 2 ^ 57 → ∃ t, exec (.s1inv a b d) s = .next t ∧ SysWaits s t 1
        ∧ (t.fn fn).inval = (s.fn fn).inval ++ [⟨false, wq, (s.wq fn wq).s1root, [(base, 2 ^ sz)], false, .waiting, none, false⟩])
      ∧ (sz ≤ 52 → base < 2 ^ 52 → wq = 0 → ∃ t, exec (.s2inv a b d) s = .next t ∧ SysWaits s t 1
        ∧ (t.fn fn).inval = (s.fn fn).inval ++ [⟨true, 0, (s.wq fn 0).s1root, [(base, 2 ^ sz)], false, .waiting, none, false⟩]))
    ∧ (number s a % 2 ^ 8 = fn → (s.seq s.cur.core).phase = 1 → (∃ v ∈ (s.fn fn).inval, v.host = false ∧ v.stage = .done) →
      ∀ i, i = .s1inv a b d ∨ i = .s2inv a b d → ∃ u t, exec i s = .next t ∧ SysEnds u t [a, b] d 0 0
        ∧ u = s.updFn fn fun f => { f with inval := f.inval.filter fun v => v.host || v.stage != .done })
    ∧ (∀ i, i < 256 → number s a = fn + i * 2 ^ 8 → SysReady s [a] → ∃ t v, exec (.cycr a d) s = .next t
      ∧ Retired s t 1 [a] (some (v, d)) s.nextPc id
      ∧ (i < 16 → v = BitVec.ofNat 64 ((s.fn fn).meters.getD i 0))
      ∧ (16 ≤ i → i < 32 → v = BitVec.ofNat 64 ((s.fn fn).pending.getD (i - 16) 0))
      ∧ (32 ≤ i → i < 40 → v = BitVec.ofNat 64 ((s.fn fn).telemetry.getD (i - 32) 0))
      ∧ (40 ≤ i → v = BitVec.allOnes 64))
    ∧ ∀ kind, kind < 4 → number s a = fn + kind * 2 ^ 8 → SysReady s [a] → ∃ t n, exec (.lkqry a d) s = .next t
      ∧ SysEnds s t [a] d 0 n
      ∧ (kind = 0 → n = (match (s.fn fn).tdisp with | .unlocked => 0 | .locked => 1 | .run => 2 | .error => 3)
          + (s.fn fn).errReason % 256 * 2 ^ 8 + (if (s.fn fn).prot then 2 ^ 16 else 0))
      ∧ (kind = 1 → n = (s.fn fn).keyEpoch)
      ∧ (kind = 2 → let m := (s.exports.filter fun e => e.fn == fn).length
          m < 65536 → 0 < s.exports.length → n = m + (65536 - s.exports.length) * 2 ^ 16)
      ∧ (kind = 3 → n = (s.fn fn).chainIndex))
  ∧ ∀ (s : State) (fn : Nat) (v : Inval),
    ((s.fn fn).invAt .drain = none → (s.fn fn).invAt .waiting = some v → ∃ t, exec (.invalidationEpochDrained fn) s = .next t
      ∧ (t.fn fn).inval = setStage .waiting .drain (s.fn fn).inval
      ∧ ∀ c, (∀ e ∈ (t.core c).tlb, e ∈ (s.core c).tlb ∧ v.namesTlb fn e = false)
        ∧ (t.core c).epoch = ((s.core c).epoch ^^ (s.core c).task.any fun k => k.fn == fn)
        ∧ (t.core c).task = (s.core c).task ∧ (t.seq c) = (s.seq c))
    ∧ ((s.fn fn).invAt .drain = some v → s.epochDrained fn v = true → ∃ t, exec (.invalidationEpochDrained fn) s = .next t
      ∧ ∀ c, ∀ l ∈ (t.core c).copy.lines, v.namesLine fn l = false)
    ∧ ((s.fn fn).invAt .drain = none → (s.fn fn).invAt .waiting = none → (s.fn fn).invAt .flush = some v →
      v.stage2 = true → v.ack = none → s.flushOver fn = true → ∃ t, exec (.invalidationEpochDrained fn) s = .next t
        ∧ (t.fn fn).invAt .flush = some { v with ack := some s.nextId }
        ∧ (∀ die, die < 16 → ∀ e ∈ (s.die die).rep, s.replicated fn e = true →
            ∀ m ∈ e.invs die (512 * e.granule) s.nextId, m ∈ t.invs)
        ∧ t.cores = s.cores ∧ t.mem = s.mem)
    ∧ ((s.fn fn).invAt .drain = none → (s.fn fn).invAt .waiting = none → (s.fn fn).invAt .flush = some v →
      (v.stage2 = false ∧ v.ack = none ∧ s.flushOver fn = true) ∨ (∃ id, v.ack = some id ∧ ∀ m ∈ s.invs, m.req ≠ id) →
      ∃ t, exec (.invalidationEpochDrained fn) s = .next t
        ∧ (∀ die, ∀ e ∈ (t.die die).fw, e.fn = fn → v.namesEntry e = false)
        ∧ (v.host = false → (t.fn fn).inval = setStage .flush .done (s.fn fn).inval)
        ∧ (v.host = true → (t.wq fn v.wq).invBusy = false) ∧ t.cores = s.cores ∧ t.mem = s.mem)

/-- R337, R343, R370, R375, R366, R367: FNBIND binds a function from a good descriptor, with a new key and meters of zero; with
UNBIND it ends the binding of one that has neither quads nor queues, and no entry, export or reuse of it is left. Each
step of MIGOUT and MIGIN in its order: MIGOUT cleans and sends the pages, stops the tasks, sends the rest, drops the
reuse entries and gives all up, or, as step 0, ends the attempt; MIGIN binds, places and restores. -/
def Obligations.BindAndMigrationWords : Prop :=
  (∀ (s : State) (a b : Src) (d : Dest) (fn : Nat), 1 ≤ fn → fn ≤ 48 → SysReady s [a, b] →
      (number s a = fn → s.bindStatus fn (number s b) = 0 → ∃ u t, exec (.fnbind a b d) s = .next t ∧ SysEnds u t [a, b] d 0 0
        ∧ (u.fn fn).bound = true ∧ (u.fn fn).key = s.nextKey ∧ (u.fn fn).exportKey = s.nextKey + 1 ∧ u.nextKey = s.nextKey + 2
        ∧ (u.fn fn).keyEpoch = 1 ∧ (u.fn fn).meters = List.replicate 16 0 ∧ (u.fn fn).chainOpen = true
        ∧ u.cores = s.cores ∧ u.mem = s.mem ∧ ∀ f, f ≠ fn → u.fn f = s.fn f)
      ∧ (number s a = fn + 2 ^ 8 → number s b = 0 → (s.fn fn).bound = true → s.inUse fn = false → (s.fn fn).tdisp = .unlocked →
        ∃ u t, exec (.fnbind a b d) s = .next t ∧ SysEnds u t [a, b] d 0 0
          ∧ (u.fn fn).bound = false ∧ (u.fn fn).key = 0 ∧ (∀ e ∈ u.exports, e.fn ≠ fn) ∧ (∀ m ∈ u.failedMarks, m.1 ≠ fn)
          ∧ (∀ die, ∀ e ∈ (u.die die).fw, e.fn ≠ fn) ∧ u.cores = s.cores ∧ u.mem = s.mem))
  ∧ (∀ (s : State) (a b : Src) (sb : BitVec 5) (lb : Bool) (d : Dest) (fn n : Nat), 1 ≤ fn → fn ≤ 48 →
    number s a = fn + n * 2 ^ 8 → Sys2Proof.srcOf sb lb = .ok b →
    ((s.fn fn).bound = true → (s.fn fn).mig = false →
      let ph := (s.seq s.cur.core).phase
      let ends (rs : List Src) (p : State → Prop) := ∃ u t v, exec (.migout a sb lb d) s = .next t ∧ SysEnds u t rs d 0 v
        ∧ (u.fn fn).migStep = n ∧ p u
      (n = 0 → SysReady s [a] → (s.fn fn).migStep ≠ 0 → ends [a] fun u => (u.fn fn).migrating = false
        ∧ (u.fn fn).suspended = false ∧ u.cores = s.cores ∧ u.mem = s.mem)
      ∧ (n = 1 →
        (∀ m, SysReady s [a, b] → (s.fn fn).migStep ≤ 1 → s.migDesc (number s b) = some m → (∀ e ∈ s.exports, e.fn ≠ fn) →
          s.fabricDown = false → ∃ t, exec (.migout a sb lb d) s = .next t ∧ SysWaits s t 1
            ∧ (t.fn fn).migSession = m.2.1 ∧ ∃ v ∈ (t.fn fn).inval, v.stage2 = true ∧ v.stage = .waiting)
        ∧ (ph = 1 → s.invDone fn = true → ends [a, b] fun _ => True))
      ∧ (n = 2 →
        (SysReady s [a, b] → (s.fn fn).migStep = 1 → ∃ t, exec (.migout a sb lb d) s = .next t ∧ SysWaits s t 1
          ∧ (t.fn fn).migrating = true ∧ (t.fn fn).suspended = true)
        ∧ (ph = 1 → s.allStopped fn = true → ∃ t, exec (.migout a sb lb d) s = .next t ∧ SysWaits s t 2)
        ∧ (ph = 2 → s.flushOver fn = true → ends [a, b] fun u => (u.fn fn).quiesced = true))
      ∧ (n = 3 → ∀ m, SysReady s [a, b] → (s.fn fn).migStep = 2 → s.migDesc (number s b) = some m → s.fabricDown = false →
        ends [a, b] fun u => ∃ l, u.out = s.out ++ l)
      ∧ (n = 4 → SysReady s [a] → (s.fn fn).migStep = 3 → ends [a] fun u => ∀ die, ∀ e ∈ (u.die die).fw, e.fn ≠ fn)
      ∧ (n = 5 → SysReady s [a] → (s.fn fn).migStep = 4 → ∃ u t, exec (.migout a sb lb d) s = .next t ∧ SysEnds u t [a] d 0 0
        ∧ (u.fn fn).queues = [] ∧ (u.fn fn).key = 0 ∧ (u.fn fn).migStep = 0 ∧ ∀ q, (u.quad q).owner ≠ some fn))
    ∧ (n = 1 → SysReady s [a, b] → ∀ u, s.migBind fn (number s b) = (0, u) → ∃ t v, exec (.migin a sb lb d) s = .next t
      ∧ SysEnds u t [a, b] d 0 v ∧ (u.fn fn).bound = true ∧ (u.fn fn).mig = true ∧ (u.fn fn).migStep = 1)
    ∧ (n = 3 → SysReady s [a] → (s.fn fn).bound = true → (s.fn fn).mig = true → (s.fn fn).migStep = 1 →
      ∃ u t v, exec (.migin a sb lb d) s = .next t ∧ SysEnds u t [a] d 0 v ∧ (u.fn fn).migStep = 3 ∧ (u.fn fn).quiesced = true)
    ∧ (n = 5 → SysReady s [a] → (s.fn fn).bound = true → (s.fn fn).mig = true → (s.fn fn).migStep = 3 →
      ∃ u t v, exec (.migin a sb lb d) s = .next t ∧ SysEnds u t [a] d 0 v ∧ (u.fn fn).migStep = 0
        ∧ ((s.fn fn).prot = false → (u.fn fn).mig = false ∧ (u.fn fn).suspended = false)))
  ∧ ∀ (s : State) (fn ipa : Nat) (page : List Byte) (rest : List HostMsg) (l : Leaf),
    s.inbox = .migrationPageArrival fn ipa page :: rest → (s.fn fn).bound = true → (s.fn fn).mig = true → (s.fn fn).migStep ≠ 0 →
    s.walk2 fn ipa = .ok l → ∃ t, exec .migrationPageArrival s = .next t
      ∧ t = { s with inbox := rest }.writeQuiet (if isHbm l.out then (s.fn fn).key else 0) l.out page

/-- R371 to R376: PGEXP writes an export record of an unmapped page under the next version, enters it in the table and zeroes
the page; PGIMP brings a good record back and takes it off the table; a failed import marks its page and changes nothing
else. Each check that fails gives its status, and a request of PF0 for the page ends with the word. -/
def Obligations.PageWords : Prop :=
  ∀ (s : State) (a b : Src) (d : Dest), SysReady s [a, b] →
    (number s a < 1 ∨ 48 < number s a ∨ s.expDesc (number s b) = none →
      ∀ i, i = .pgexp a b d ∨ i = .pgimp a b d → ∃ t, exec i s = .next t ∧ SysEnds s t [a, b] d 4 0)
    ∧ ∀ fn ipa pa host, 1 ≤ fn → fn ≤ 48 → number s a = fn → s.expDesc (number s b) = some (ipa, pa, host) →
      let f := s.fn fn
      let exp := PageEnds (.pgexp a b d) s [a, b] d 1 fn ipa
      let imp := PageEnds (.pgimp a b d) s [a, b] d 2 fn ipa
      let mapped := ∃ l, s.stage2Leaf fn ipa = .ok l
      let ver := f.expCounter + 1
      let hdr := (List.range 48).map fun i => memRead s.mem (host + i)
      let num (o k : Nat) : Nat := leNat ((hdr.drop o).take k)
      (f.bound = false → exp 1 0 (OnlyPf0 s) ∧ imp 1 0 (OnlyPf0 s))
      ∧ (f.bound = true → f.migStep ≠ 0 → exp 5 0 (OnlyPf0 s))
      ∧ (f.bound = true → f.migStep = 0 → mapped → exp 2 0 (OnlyPf0 s))
      ∧ (f.bound = true → f.migStep = 0 → ¬ mapped → 65536 ≤ s.exports.length → exp 7 0 (OnlyPf0 s))
      ∧ (f.bound = true → f.migStep = 0 → ¬ mapped → s.exports.length < 65536 → Memory.wf s.mem = true → exp 0 ver fun w =>
        let cipher (i : Nat) : Byte := s.readByte f.key (pa + i) ^^^ Config.gcmStream f.exportKey (ver % 2 ^ 64 + fn * 2 ^ 64) i
        let head := [1, BitVec.ofNat 8 fn, 0, 0, 0, 0, 0, 0] ++ leBytes 8 ipa ++ leBytes 8 ver ++ List.replicate 24 (0 : Byte)
        (w.fn fn).expCounter = ver
        ∧ w.exports = (s.exports.filter fun e => !(e.fn == fn && e.ipa == ipa)) ++ [⟨fn, ipa, ver⟩]
        ∧ (∀ i, i < 48 → memRead w.mem (host + i) = head.getD i 0)
        ∧ (∀ i, i < 16 → memRead w.mem (host + 48 + i)
          = Config.gcmTag f.exportKey head ((List.range (2 ^ 21)).map cipher) i)
        ∧ (∀ i, i < 2 ^ 21 → memRead w.mem (host + 64 + i) = cipher i ∧ memRead w.mem (pa + i) = 0)
        ∧ (∀ l ∈ w.poison, 128 * l < pa ∨ pa + 2 ^ 21 ≤ 128 * l)
        ∧ (∀ x, (x < host ∨ host + 64 + 2 ^ 21 ≤ x) → (x < pa ∨ pa + 2 ^ 21 ≤ x) → memRead w.mem x = memRead s.mem x)
        ∧ w.failedMarks = s.failedMarks ∧ ∀ c, w.seq c = s.seq c)
      ∧ (f.bound = true →
        let fails (detail : Nat) := imp 9 detail fun w => (∀ m, m ∈ w.failedMarks ↔ m ∈ s.failedMarks ∨ m = (fn, ipa))
          ∧ OnlyPf0 { s with failedMarks := w.failedMarks } w
        ((∀ e ∈ s.exports, e.fn = fn → e.ipa ≠ ipa) → fails 5)
        ∧ ∀ e, (s.exports.find? fun e => e.fn == fn && e.ipa == ipa) = some e →
          let good := num 1 1 = fn ∧ num 8 8 = ipa ∧ num 0 1 = 1
          let text := (List.range (2 ^ 21)).map fun i => memRead s.mem (host + 64 + i)
          let tag := ∀ i, i < 16 → memRead s.mem (host + 48 + i) = Config.gcmTag f.exportKey hdr text i
          (¬ good → fails 1) ∧ (good → num 16 8 ≠ e.version → fails 2)
          ∧ (good → num 16 8 = e.version → ¬ tag → fails 3)
          ∧ (good → num 16 8 = e.version → tag → Memory.wf s.mem = true → imp 0 e.version fun w =>
            (∀ i, i < 2 ^ 21 → w.readByte f.key (pa + i)
              = memRead s.mem (host + 64 + i) ^^^ Config.gcmStream f.exportKey (e.version % 2 ^ 64 + fn * 2 ^ 64) i)
            ∧ (∀ key x, x < pa ∨ pa + 2 ^ 21 ≤ x → w.readByte key x = s.readByte key x)
            ∧ w.exports = s.exports.filter (fun x => x != e)
            ∧ (∀ m, m ∈ w.failedMarks ↔ m ∈ s.failedMarks ∧ m ≠ (fn, ipa)) ∧ ∀ c, w.seq c = s.seq c))

/-! ## What befalls a task -/

/-- R315, R346 to R348, R362 to R364: what befalls a task from outside: a donation of priority and its lapse, the end of a stop
or its deadline, the hang watchdog, the thermal limits, the power limit, and a window of the shares. -/
def Obligations.TaskEvents : Prop :=
  (∀ (s : State) (c : Nat) (k : Task), (s.core c).task = some k →
    ((s.seq c).stall = 10 → k.parked = false → k.stopped = none → s.toDonate c k ≠ [] →
      ∃ t, exec (.priorityDonation c) s = .next t
        ∧ ∀ x ∈ s.toDonate c k, (∃ g ∈ (t.fn k.fn).donations, g.gives k = true ∧ g.takes x = true ∧ g.prio = k.effPrio)
          ∧ .donate k.fn x.rseq x.tseq ∈ t.out)
    ∧ (s.lateDonations k ≠ [] → ∃ t, exec (.donationTimeout c) s = .next t
      ∧ (∃ p, (t.core c).task = some { k with eligible := false, effPrio := p })
      ∧ (∀ g ∈ s.lateDonations k, { g with late := true } ∈ (t.fn k.fn).donations)
      ∧ (∀ n, t.seq n = s.seq n ∧ (((s.core n).task.all fun w => w.fn != k.fn) = true → t.core n = s.core n)) ∧ t.mem = s.mem)
    ∧ (c < 384 → canHangWatchdogExpiry c s = true → ∃ t, exec (.hangWatchdogExpiry c) s = .next t
      ∧ (t.core c).task = none ∧ (t.wq k.fn k.wq).park = true
      ∧ ((s.wq k.fn k.wq).park = false → (t.wq k.fn k.wq).pkrec.getD 0 0 =
          BitVec.ofNat 64 (0x21 + 6 * 2 ^ 8 + c / 24 * 2 ^ 12 + c % 24 * 2 ^ 16)))
    ∧ (k.stopped = none → s.stopDue c = true →
      (k.stopping = some 0 → k.parked = false → (s.core c).hasSlots = true → ∃ t, exec (.stopComplete c) s = .next t
        ∧ ∀ i, i < 64 → ((t.core c).resTag i).valid = false)
      ∧ (∀ n, k.stopping = some n → k.parked = false → (n = 0 → (s.core c).hasSlots = false) →
        (n = 2 → ∀ r ∈ s.reqs, r.poison = false ∧ r.refused = false) →
        ∃ t, exec (.stopComplete c) s = .next t ∧ (c < 384 → (s.core c).freezes.contains .heat = false →
            (t.quad (c / 4)).leaseHolder ≠ some c)
          ∧ (t.core c).task.any (fun w => w.stopped == some n && w.stopping.isNone && w.stoppedAt == s.wall) = true)
      ∧ (k.parked = true → ∃ t, exec (.stopComplete c) s = .next t
        ∧ (t.core c).task.any (fun w => w.stopped.isNone && w.stopping.isNone && w.parked) = true))
    ∧ ∀ n b, k.stopped = none → k.stopping = some n → n < 2 → k.stopBy = some b → b ≤ s.wall →
      ∃ t, exec (.stopDeadlineExpiry c) s = .next t ∧ ∀ m ∈ s.taskMembers c, ∀ w, (s.core m).task = some w →
        w.stopping.isSome = true → w.stopped = none →
          (t.core m).task.any (fun v => v.stopping == some 2) = true ∧ .stop ∈ (t.core m).freezes)
  ∧ (∀ (s : State) (d : Nat), d < 16 →
    ((s.die d).hot = false → ∃ t, exec (.thermalThrottle d) s = .next t ∧ t = s.updDie d fun x => { x with hot := true })
    ∧ ((s.die d).hot = true → (s.die d).tstop = false → ∃ t, exec (.thermalDutyStep d) s = .next t
      ∧ t = s.updDie d fun x => { x with duty := x.duty / 2 })
    ∧ ((s.die d).tstop = false → ∃ t, exec (.thermalStop d) s = .next t ∧ (t.die d).tstop = true
      ∧ ∀ c, c / 24 = d → .thermal ∈ (t.core c).freezes ∧ ∀ k, (s.core c).task = some k → k.parked = false → k.stopped = none →
        (t.core c).task.any (·.parked) = true ∧ .heat ∈ (t.core c).freezes ∧ (t.wq k.fn k.wq).park = true)
    ∧ ((s.die d).hot = true → ∃ t, exec (.thermalRecover d) s = .next t
      ∧ (t.die d).hot = false ∧ (t.die d).tstop = false ∧ (t.die d).duty = 65536
      ∧ ∀ c, (c / 24 = d → (t.core c).freezes = (s.core c).freezes.filter (· != .thermal))
          ∧ (c / 24 ≠ d → t.core c = s.core c))
    ∧ ∀ n on, n < 24 → (on = true ↔ .throttle ∉ (s.core (24 * d + n)).freezes) →
      ∃ t, exec (.powerLimitFreeze d n on) s = .next t ∧ (on = true ↔ .throttle ∈ (t.core (24 * d + n)).freezes)
        ∧ (t.core (24 * d + n)).seq = (s.core (24 * d + n)).seq ∧ (∀ c, c ≠ 24 * d + n → t.core c = s.core c) ∧ t.mem = s.mem)
  ∧ ∀ (s : State) (r : ShareRes), s.busyFns ≠ [] → ∃ t, exec (.shareWindow r) s = .next t ∧ t.cores = s.cores ∧ t.mem = s.mem
    ∧ ∀ f, (f ∉ s.busyFns → t.fn f = s.fn f) ∧ (s.fn f).telemetry.getD 6 0 ≤ (t.fn f).telemetry.getD 6 0

/-! ## Copy engine -/

/-- R158 to R183, R288 to R290: a transfer word that passes its checks takes its identifier and stands among the transfers; one
of size zero is complete at once; XID writes xw to the scratchpad; a transfer whose requests are answered completes; a
waiting signal is delivered; NOP only issues. -/
def Obligations.CopyWords : Prop :=
  (∀ (s : State) (t : Task) (k : Cmd), s.task = some t → s.cmd = some k →
    let c := s.cur.core
    let e := s.cur.eng
    let x := s.core c
    (∀ ch : BitVec 2, (x.sideXfers e).length < 16 →
      (∀ i, (∃ xf rm sat len, len.nat = 0 ∧ (i = .ldt ch xf rm sat len ∨ i = .stt ch xf rm sat len)) ∨
          (∃ b sl len, len.nat = 0 ∧ i = .ldo ch b sl len) ∨ (∃ ty len, len.nat = 0 ∧ i = .acc ch ty len)
          ∨ (∃ esz, i = .gth ch esz 0 ∨ i = .sct ch esz 0) ∨ (∃ w, w.ch = ch ∧ w.len.toNat = 0 ∧ (i = .cvd w ∨ i = .cvq w)) →
        ∃ u, exec i s = .next u ∧ EngineIssued s u ∧ (u.core c).copy.xfers = x.copy.xfers ∧ MemoryKept s u
          ∧ (u.core c).copy.nxt = x.copy.nxt.set (chanOf e ch) (x.copy.nxt.getD (chanOf e ch) 0 + 1))
      ∧ (∀ (load : Bool) (xf : Fmt) (rm : Rm) (sat : Bool) (len : Imm 13) (r : State) (m : MemSide), len.nat ≠ 0 →
        s.memSide c t k e k.g0 len.nat (if load then Need.read else Need.write) (rowFormatOk load xf) none = (r, .ok m) →
        let conv := rowConv load m.attr m.isLocal xf rm sat
        let page := if load then conv.src else conv.dst
        let mem := memSpan k.g0 len.nat
        let pad := span 2 k.g1 (conv.spadLen load len.nat)
        (r.core c).xferHeld e (if load then mem else pad) (if load then pad else mem) = false →
        (page.isMx = true ∨ k.g0.toNat % fmtBytes page conv.blk = 0) → k.g1 % fmtBytes xf conv.blk = 0 →
        len.nat % fmtBytes page conv.blk = 0 → k.memOk c (if load then readKinds else writeKinds) k.g0 len.nat = true →
        k.spadOk c t (if load then writeKinds else readKinds) k.g1 (conv.spadLen load len.nat) = true →
        Transferred (if load then .ldt ch xf rm sat len else .stt ch xf rm sat len) s k (chanOf e ch))
      ∧ (∀ (b : Bool) (sl : BitVec 5) (len : Imm 13) (r : State) (m : MemSide), len.nat ≠ 0 →
        s.memSide c t k e k.g0 len.nat Need.read (fun _ => true) (some 0x14) = (r, .ok m) →
        let page := attrFormat m.attr
        (r.core c).xferHeld e (memSpan k.g0 len.nat) (span 3 (sideNum b * 2 ^ 21 + sl.toNat * 2 ^ 16 + k.g1) len.nat) = false →
        (page.isMx = true ∨ k.g0.toNat % fmtBytes page (attrBlk m.attr) = 0) → len.nat % fmtBytes page (attrBlk m.attr) = 0 →
        k.memOk c readKinds k.g0 len.nat = true → k.slotOk writeKinds (sideNum b) sl.toNat = true →
        (r.core c).mat.holds (sideNum b) sl.toNat = true → k.g1 + len.nat ≤ 65536 →
        Transferred (.ldo ch b sl len) s k (chanOf e ch))
      ∧ (∀ (load : Bool) (esz : BitVec 4) (n : BitVec 16) (r : State) (ps : Pieces), n ≠ 0 → formOk k.g0 = true →
        (isVirtual k.desc.mbase = true ∨ isVirtual k.g0 = false) →
        let size := 2 ^ esz.toNat
        let idx := s.indices c k.g2 n.toNat
        let mem := idx.flatMap fun i => memSpan (elemAddr k.g0 size i) size
        let pad := span 2 k.g1 (n.toNat * size)
        x.xferHeld e (span 2 k.g2 (4 * n.toNat) ++ if load then mem else pad) (if load then pad else mem) = false →
        s.elemSides c t k e k.g0 load size 0 idx = (r, .ok ps) →
        k.g0.toNat % size = 0 → k.g1 % size = 0 → k.g2 % 4 = 0 →
        (∀ i ∈ idx, k.memOk c (if load then readKinds else writeKinds) (elemAddr k.g0 size i) size = true) →
        k.spadOk c t (if load then writeKinds else readKinds) k.g1 (n.toNat * size) = true →
        k.spadOk c t readKinds k.g2 (4 * n.toNat) = true →
        Transferred (if load then .gth ch esz n else .sct ch esz n) s k (chanOf e ch))
      ∧ (∀ (w : CvWord) (q : Bool), w.ch = ch → w.len.toNat ≠ 0 →
        x.xferHeld e (span 2 k.g1 w.len.toNat) (span 2 k.g2 (cvLen w)) = false →
        k.g1 % fmtBytes w.sf w.blk = 0 → k.g2 % fmtBytes w.df w.blk = 0 →
        w.len.toNat % fmtBytes w.sf w.blk = 0 → k.spadOk c t readKinds k.g1 w.len.toNat = true →
        k.spadOk c t writeKinds k.g2 (cvLen w) = true → ¬ (k.g1 < k.g2 + cvLen w ∧ k.g2 < k.g1 + w.len.toNat) →
        Transferred (if q then .cvq w else .cvd w) s k (chanOf e ch))
      ∧ ∀ (ty : AccTy) (len : Imm 13) (r : State) (m : MemSide), len.nat ≠ 0 →
        s.memSide c t k e k.g0 len.nat Need.atomicRmw (accFormatOk ty) (some 0x16) = (r, .ok m) →
        (r.core c).xferHeld e (span 2 k.g1 len.nat) (memSpan k.g0 len.nat) = false →
        (∀ p ∈ m.pieces, isLocalHbm p.2.1 = true) → k.g0.toNat % 128 = 0 → k.g1 % 32 = 0 → len.nat % accBytes ty = 0 →
        k.memOk c [.acc, .rw] k.g0 len.nat = true → k.spadOk c t readKinds k.g1 len.nat = true →
        Transferred (.acc ch ty len) s k (chanOf e ch))
    ∧ (∀ ch : BitVec 2, Memory.wf s.mem = true → (∀ f ∈ x.copy.xfers, f.ch ≠ chanOf e ch) → k.g1 % 4 = 0 →
      k.spadOk c t writeKinds k.g1 4 = true → ∃ u, exec (.xid ch) s = .next u ∧ EngineIssued s u
        ∧ ∀ a, memRead u.mem a = if arrayAt c k.g1 ≤ a ∧ a < arrayAt c k.g1 + 4
            then (leBytes 4 (x.copy.xw.getD (chanOf e ch) 0).toNat).getD (a - arrayAt c k.g1) 0 else memRead s.mem a)
    ∧ ∃ u, exec .engineNop s = .next u ∧ EngineIssued s u ∧ (u.core c).copy = x.copy ∧ (u.core c).vec = x.vec
      ∧ (u.core c).mat = x.mat ∧ (∀ n, n ≠ c → u.core n = s.core n) ∧ MemoryKept s u ∧ OutsideKept s u)
  ∧ (∀ (s : State) (c : Nat) (e : Engine) (wid : Nat) (f : Xfer), e = .load ∨ e = .store → (s.core c).freezes = [] →
    s.xferOf c wid = some f → f.eng = e → f.poison = false → f.unsent = [] →
    (∀ id ∈ f.reqs, ∃ r, s.req id = some r ∧ r.phase = .answered ∧ r.isAddend = false ∧ r.poison = false) →
    ∃ t, exec (.engineWordComplete c e wid) s = .next t
      ∧ (t.core c).copy.xfers = (s.core c).copy.xfers.filter (·.wid != wid)
      ∧ t.reqs = s.reqs.filter (fun r => !f.reqs.contains r.id) ∧ t.seq c = s.seq c
      ∧ ((∃ ch xf rm sat len, f.instr = .stt ch xf rm sat len) → MemoryKept s t))
  ∧ ∀ (s : State) (c : Nat) (e : Engine), (s.core c).freezes = [] →
    (s.core c).deliverable e false = true ∨ (s.core c).deliverable e true = true →
    ∃ t, exec (.pendingSignalDelivered c e) s = .next t ∧ (t.core c).seq = (s.core c).seq
      ∧ (t.core c).queues = (s.core c).queues ∧ (t.core c).copy = (s.core c).copy ∧ (∀ n, n ≠ c → t.core n = s.core n)
      ∧ MemoryKept s t ∧ OutsideKept s t ∧ (t.core c).tokens.length = (s.core c).tokens.length

/-! ## Vector engine -/

/-- R200, R201, R203, R206, R208, R210, R225, R226: PSET, PBIND and PSKIP change a port's parameters at once; a vector word
that no earlier word of its engine keeps back completes, and writes its registers and flags; a relocatable
command is taken by an idle sibling. -/
def Obligations.VectorState : Prop :=
  (∀ (s : State) (k : Cmd), s.cmd = some k → s.cur.eng = .vec → k.reloc = false →
    let c := s.cur.core
    let own := (s.core c).vec.own
    let ends (i : Instr) (v : VCtx) := ∃ t, exec i s = .next t ∧ EngineIssued s t ∧ (t.core c).vec.own = v
      ∧ (∀ n, n ≠ c → t.core n = s.core n) ∧ MemoryKept s t ∧ OutsideKept s t
    (∀ (ps : BitVec 4) (imm : Imm 15),
      ends (.pset ps .base imm) { own with psets := own.psets.modify ps.toNat fun p => { p with base := BitVec.ofNat 32 imm.nat } }
      ∧ ends (.pset ps .step imm) { own with psets := own.psets.modify ps.toNat fun p => { p with step := BitVec.ofInt 32 imm.int } }
      ∧ ends (.pset ps .lstr imm) { own with psets := own.psets.modify ps.toNat fun p => { p with lstr := BitVec.ofNat 16 imm.nat } }
      ∧ ends (.pset ps .gsel imm) { own with psets := own.psets.modify ps.toNat fun p => { p with gsel := BitVec.ofNat 2 imm.nat } })
    ∧ (∀ (port : BitVec 2) (ps : BitVec 4), ends (.pbind port ps)
        { own with binds := own.binds.set port.toNat ps.toNat, poss := own.poss.set port.toNat 0 })
    ∧ ∀ (port : BitVec 2) (n : BitVec 20), ends (.pskip port n)
        { own with poss := own.poss.modify port.toNat (· + n.setWidth 32 *
            (own.psets.getD (own.binds.getD port.toNat 0) PSet.reset).step) })
  ∧ (∀ (s : State) (c wid : Nat) (f : VInfl), (s.core c).freezes = [] →
    (s.core c).vec.own.infl.find? (fun g => g.wid == wid) = some f → (∀ w ∈ f.writes, w.code.toNat < 8) →
    (∀ g ∈ (s.core c).vec.own.infl, f.wid ≤ g.wid ∨ f.latency < g.latency) →
    (∀ k ∈ (s.core c).queue .vec, ∀ g ∈ (s.core c).engineInfl k, f.wid ≤ g.wid ∨ f.latency < g.latency) →
    ∃ t, exec (.engineWordComplete c .vec wid) s = .next t
      ∧ (t.core c).vec.own.infl = (s.core c).vec.own.infl.filter (·.wid != wid)
      ∧ (t.core c).vec.own.flags = (if f.clear then 0 else (s.core c).vec.own.flags) ||| f.flags
      ∧ (f.writes = [] → (t.core c).vec.own.regs = (s.core c).vec.own.regs)
      ∧ (∀ w, f.writes = [w] → ∀ r, r < 8 → (t.core c).vec.own.regs.getD r [] =
          if r = w.code.toNat then mergeLanes ((s.core c).vec.own.regs.getD r []) w else (s.core c).vec.own.regs.getD r [])
      ∧ (∀ m v, f.mask = some (m, v) → (t.core c).vec.own.masks = (s.core c).vec.own.masks.set m.toNat v)
      ∧ (f.mask = none → (t.core c).vec.own.masks = (s.core c).vec.own.masks)
      ∧ t.seq c = s.seq c ∧ MemoryKept s t)
  ∧ ∀ (s : State) (c o : Nat) (k : Cmd), (s.core c).freezes = [] → s.relocTarget c = some (k, o) →
    ∃ t, exec (.vectorRelocation c) s = .next t ∧ (∀ n, n ≠ c → t.core n = s.core n) ∧ MemoryKept s t
      ∧ (∀ j ∈ (t.core c).queue .vec, j.uid = k.uid → j.takenBy = some o) ∧ (∃ j ∈ (t.core c).queue .vec, j.uid = k.uid)
      ∧ (t.core c).seq = (s.core c).seq

/-- R198, R204, R211, R212: each element-wise word on registers stands in flight with the results of its elements, for the
lanes that its mask makes active. -/
def Obligations.VectorArithmetic : Prop :=
  ∀ (s : State) (k : Cmd) (d a b c : BitVec 4) (ty : VTy) (tf : FTy) (ti : ITy) (rm : Rm) (mk : BitVec 2) (sat : Bool),
    let own := (s.core s.cur.core).vec.own
    let reg (r : BitVec 4) : List Dbl := own.regs.getD r.toNat []
    let one (i : Instr) (t : VTy) (f : Nat → Nat × Exc) := VecReady s k [a, d] (mkReads mk) →
      VecIssued i s k (WritesLanes d (vpack t ((velems t (reg a)).map fun x => (f x).1)) (own.keep mk))
    let two (i : Instr) (t : VTy) (f : Nat → Nat → Nat × Exc) := VecReady s k [a, b, d] (mkReads mk) →
      VecIssued i s k (WritesLanes d (vpack t (((velems t (reg a)).zip (velems t (reg b))).map fun p => (f p.1 p.2).1)) (own.keep mk))
    let three (i : Instr) (f : Nat → Nat → Nat → Nat × Exc) := VecReady s k [a, b, c, d] (mkReads mk) →
      VecIssued i s k (WritesLanes d (vpack (ftyVTy tf) (((velems (ftyVTy tf) (reg a)).zip ((velems (ftyVTy tf) (reg b)).zip
        (velems (ftyVTy tf) (reg c)))).map fun p => (f p.1 p.2.1 p.2.2).1)) (own.keep mk))
    let w := 64 / (ityVTy ti).perLane
    two (.vadd d a b ty rm mk sat) ty (vadd2 ty rm sat) ∧ two (.vsub d a b ty rm mk sat) ty (vsub2 ty rm sat)
    ∧ two (.vmul d a b ty rm mk sat) ty (vmul2 ty rm sat) ∧ two (.vdiv d a b tf rm mk) (ftyVTy tf) ((ftyForm tf).div rm)
    ∧ two (.vmin d a b ty mk) ty (vminmax ty true) ∧ two (.vmax d a b ty mk) ty (vminmax ty false)
    ∧ two (.vand d a b mk) .z64 (fun x y => (x &&& y, 0)) ∧ two (.vor d a b mk) .z64 (fun x y => (x ||| y, 0))
    ∧ two (.vxor d a b mk) .z64 (fun x y => (x ^^^ y, 0))
    ∧ two (.vshl d a b ti mk) (ityVTy ti) (fun x y => (x * 2 ^ (y % w) % 2 ^ w, 0))
    ∧ two (.vshr d a b ti mk) (ityVTy ti) (fun x y => (x / 2 ^ (y % w), 0))
    ∧ two (.vsar d a b ti mk) (ityVTy ti) (fun x y => (intBits w (readInt true w x / 2 ^ (y % w)), 0))
    ∧ three (.vfma d a b c tf rm mk) ((ftyForm tf).fma rm false false)
    ∧ three (.vfms d a b c tf rm mk) ((ftyForm tf).fma rm false true)
    ∧ three (.vfnma d a b c tf rm mk) ((ftyForm tf).fma rm true false)
    ∧ one (.vsqrt d a tf rm mk) (ftyVTy tf) ((ftyForm tf).sqrt rm) ∧ one (.vrcp d a tf rm mk) (ftyVTy tf) ((ftyForm tf).rcp rm)
    ∧ one (.vrsq d a tf rm mk) (ftyVTy tf) ((ftyForm tf).rsqrt rm) ∧ one (.vrnd d a tf rm mk) (ftyVTy tf) ((ftyForm tf).rint rm)
    ∧ one (.vexp2 d a tf rm mk) (ftyVTy tf) ((ftyForm tf).exp2 rm) ∧ one (.vlog2 d a tf rm mk) (ftyVTy tf) ((ftyForm tf).log2 rm)
    ∧ one (.vabs d a ty mk sat) ty (vabsneg ty false sat) ∧ one (.vneg d a ty mk sat) ty (vabsneg ty true sat)

/-- R213 to R224: the other vector words on registers stand in flight with what they write: comparisons and masks bit by bit,
moves lane by lane, and the conversions, reductions, scans, algebra and block words element by element, in the lanes of their
mask. -/
def Obligations.VectorMoves : Prop :=
  ∀ (s : State) (k : Cmd) (d a b x : BitVec 4) (md ma mb mk : BitVec 2) (ty dt : VTy) (tf : FTy) (rm : Rm) (sat : Bool),
    let own := (s.core s.cur.core).vec.own
    let reg (r : BitVec 4) : List Dbl := own.regs.getD r.toNat []
    let lanes (f : Nat → Dbl) : List Dbl := (List.range 64).map f
    let bit (m : BitVec 2) (inv : Bool) (l : Nat) : Bool := inv ^^ (own.masks.getD m.toNat 0).getLsbD l
    (∀ cond, VecReady s k [a, b] (md :: mkReads mk) → VecIssued (.vcmp md a b cond ty mk) s k (WritesMask md fun l =>
      if own.active mk l then ((((velems ty (reg a)).zip (velems ty (reg b))).map fun p => (vcompare ty cond p.1 p.2).1).drop
        (l * ty.perLane)).take ty.perLane |>.all id else (own.masks.getD md.toNat 0).getLsbD l))
    ∧ (VecReady s k [a, b, d] (md :: mkReads mk) → VecIssued (.vsel d a b md mk) s k (WritesLanes d (lanes fun l =>
        if (own.masks.getD md.toNat 0).getLsbD l then (reg a).getD l 0 else (reg b).getD l 0) (own.keep mk)))
    ∧ (VecReady s k [a, b, d] (mkReads mk) → VecIssued (.vperm d a b mk) s k (WritesLanes d
        (lanes fun l => (reg a).getD (((reg b).getD l 0).toNat % 64) 0) (own.keep mk)))
    ∧ (∀ amt, VecReady s k [a, d] (mkReads mk) → VecIssued (.vrot d a amt mk) s k (WritesLanes d
        (lanes fun l => (reg a).getD ((l + amt.toNat) % 64) 0) (own.keep mk)))
    ∧ (∀ n, VecReady s k [a, d] [] → VecIssued (.vbcast d a n) s k (WritesLanes d (lanes fun _ => (reg a).getD n.toNat 0) keepAll))
    ∧ (∀ imm, VecReady s k [d] [] →
        VecIssued (.vbcastHi d imm) s k (WritesLanes d (lanes fun _ => BitVec.ofNat 64 (imm.nat * 2 ^ (48 - 22 * imm.exts))) keepAll)
        ∧ VecIssued (.vbcastLo d imm) s k (WritesLanes d (lanes fun _ => BitVec.ofInt 64 imm.int) keepAll))
    ∧ (VecReady s k [a, d] (mkReads mk) → VecIssued (.vmov d a mk) s k (WritesLanes d (reg a) (own.keep mk)))
    ∧ (VecReady s k [d] (mkReads mk) → own.infl = [] →
        VecIssued (.vmovFlg d mk) s k (WritesLanes d (lanes fun _ => own.flags.setWidth 64) (own.keep mk)))
    ∧ (VecReady s k [] [] → VecIssued .vmovClr s k fun f => f.writes = [] ∧ f.mask = none ∧ f.clear = true ∧ f.tab = none)
    ∧ (VecReady s k [a] [] → own.tabPending = false →
        let img := ((reg a).take 8).flatMap fun v => leBytes 8 v.toNat
        imageFaults img = false → VecIssued (.vmovTab a) s k fun f => f.writes = [] ∧ f.mask = none ∧ f.clear = false
          ∧ f.tab = some (algOfImage img))
    ∧ (∀ n, VecReady s k [] [md] → VecIssued (.mset md n) s k (WritesMask md fun l => decide (l < n.toNat)))
    ∧ (VecReady s k [a] [md] → VecIssued (.msetV md a) s k (WritesMask md fun l => (reg a).getD l 0 != 0))
    ∧ (∀ ia ib, VecReady s k [] [md, ma, mb] →
        VecIssued (.mand md ma mb ia ib) s k (WritesMask md fun l => bit ma ia l && bit mb ib l)
        ∧ VecIssued (.mor md ma mb ia ib) s k (WritesMask md fun l => bit ma ia l || bit mb ib l))
    ∧ (∀ op, VecReady s k [a, d] (mkReads mk) →
      let l := own.activeElems mk ty (reg a)
      let r := if l.length = 1 then vcanon ty (l.getD 0 0) else redTree (vcombine op ty rm) 9 l 0
      VecIssued (.vred d a op ty rm mk) s k fun f => f.flags = r.2
        ∧ WritesLanes d (vpack ty (List.replicate (64 * ty.perLane) r.1)) (own.keep mk) f)
    ∧ (∀ op, VecReady s k [a, d] (mkReads mk) →
      let rs := (vscan op ty rm (own.activeElems mk ty (reg a))).map (·.1)
      let place (j : Nat) : Nat := ((List.range j).filter fun i => own.active mk (i / ty.perLane)).length
      VecIssued (.vscan d a op ty rm mk) s k (WritesLanes d (vpack ty ((List.range (64 * ty.perLane)).map fun j =>
        if own.active mk (j / ty.perLane) then rs.getD (place j) 0 else 0)) (own.keep mk)))
    ∧ (∀ h, VecReady s k [a, d] (mkReads mk) →
      let es := ty.perLane
      let ed := dt.perLane
      let src (j : Nat) : Option Nat :=
        if ed < es then some (j + 64 * ed * h.toNat)
        else if h.toNat * 64 * es ≤ j ∧ j < (h.toNat + 1) * 64 * es then some (j - 64 * es * h.toNat) else none
      let val (j : Nat) : Nat := ((src j).map fun i => (vconvert ty dt rm sat ((velems ty (reg a)).getD i 0)).1).getD 0
      let put (j : Nat) : Nat := if (src j).isSome then 2 ^ vwidth dt - 1 else 0
      VecIssued (.vcvt d a ty dt rm mk sat h) s k (WritesLanes d (vpack dt ((List.range (64 * ed)).map val))
        (((vpack dt ((List.range (64 * ed)).map put)).zip (own.keep mk)).map fun p => p.1 &&& p.2)))
    ∧ (∀ inv lead blk, VecReady s k [a, d] (mkReads mk) →
      let e := if inv then unrotK blk lead else -(rotK blk lead)
      VecIssued (.vhad d a tf rm mk inv lead blk) s k (WritesLanes d (vpack (ftyVTy tf)
        ((blocksOf (if blk then 16 else 32) (velems (ftyVTy tf) (reg a))).flatMap fun b =>
          (hadamard rm e (b.map (ftyForm tf).value)).map fun y => ((ftyForm tf).round rm false y).1)) (own.keep mk)))
    ∧ (∀ mf blk, VecReady s k [a, d, x] [] →
      let bs := (blocksOf (if blk then 16 else 32) (velems (ftyVTy tf) (reg a))).map fun b =>
        quantiseBlock mf rm (b.map (ftyForm tf).value)
      VecIssued (.vqnt d a x tf rm mf blk) s k (WritesTwo
        d (vpack (ftyVTy tf) (bs.flatMap fun b => b.2.map (intBits (vwidth (ftyVTy tf)))))
        x (lanes fun i => BitVec.ofNat 64 ((bs.map (·.1)).getD i 0))))
    ∧ (∀ mf blk, VecReady s k [a, x, d] [] → VecIssued (.vdq d a x tf rm mf blk) s k (WritesLanes d
      (vpack (ftyVTy tf) ((velems (ftyVTy tf) (reg a)).mapIdx fun j e => ((ftyForm tf).round rm false
        (mxValue mf (((reg x).getD (j / if blk then 16 else 32) 0).toNat % 256) (readInt true (mxWidth mf) e))).1)) keepAll))
    ∧ (own.tabPending = false →
      let n := own.vt.n
      let t := ftyVTy tf
      let F := ftyForm tf
      let la := velems t (reg a)
      let comps (l : List Nat) (j : Nat) : List FVal := (algComps t n l j).map F.value
      let comp (j : Nat) : Nat := j / t.perLane % n
      (VecReady s k [a, d] (mkReads mk) →
        VecIssued (.vconj d a tf mk) s k (WritesLanes d (vpack t (la.mapIdx fun j e =>
          (if own.vt.conjugates (comp j) then F.absNeg true e else vcanon t e).1)) (own.keep mk))
        ∧ VecIssued (.vnorm d a tf rm mk) s k (WritesLanes d (vpack t (la.mapIdx fun j _ =>
          if comp j = 0 then (F.round rm false (FVal.sum rm (own.vt.terms (comps la j) (own.vt.conjOf (comps la j)) 0))).1
          else 0)) (own.keep mk)))
      ∧ (VecReady s k [a, b, d] (mkReads mk) →
        VecIssued (.vamul d a b tf rm mk) s k (WritesLanes d (vpack t (la.mapIdx fun j _ =>
          (F.round rm false (FVal.sum rm (own.vt.terms (comps la j) (comps (velems t (reg b)) j) (comp j)))).1)) (own.keep mk)))
      ∧ ∀ k4,
        let K := if k4 then 4 else 2
        let kept := (List.range (8 * t.perLane / n)).map fun q =>
          keptOf K ((List.range 8).map fun i => algRank F (algElem t n la (8 * q + i)))
        (VecReady s k [a, d, x] [] → VecIssued (.vcomp d a x tf k4) s k (WritesTwo
          d (vpack t (algLayout t n (kept.zipIdx.flatMap fun p => p.1.map fun i => algElem t n la (8 * p.2 + i))))
          x (lanes fun q => BitVec.ofNat 64 ((kept.getD q []).zipIdx.foldl (fun m p => m + p.1 * 2 ^ (3 * p.2)) 0))))
        ∧ (VecReady s k [a, x, d] [] → VecIssued (.vdcmp d a x tf k4) s k (WritesLanes d
          (vpack t (algLayout t n ((List.range (64 * t.perLane / n)).map fun i =>
            match (List.range K).reverse.find? fun j => bits ((reg x).getD (i / 8) 0).toNat (3 * j) 3 == i % 8 with
            | some j => algElem t n la (i / 8 * K + j)
            | none => []))) keepAll)))

/-! ## Matrix engine -/

/-- R235, R239, R242, R246 to R256, R260, R262: the matrix words. Leases, claims and tables are changed as the word issues; a
transfer, a fill, a query or a multiply that passes its checks stands in flight, and writes its bytes, tags or accumulators when
it is complete; a gang forms, dissolves and goes on in step. -/
def Obligations.MatrixWords : Prop :=
  (∀ (s : State) (k : Cmd) (t : Task), s.cmd = some k → s.task = some t → s.cur.eng = .mat →
    let c := s.cur.core
    let m := (s.core c).mat
    let use (i : Instr) (f : MInfl → Prop) := MatStands i s fun g => g.cmd = k.uid ∧ g.done = false ∧ g.gangWord = false ∧ f g
    MatEnds .mlease s (fun m => { m with keep := true })
    ∧ (m.infl = [] → ∃ u, exec .munlease s = .next u ∧ EngineIssued s u
      ∧ (u.core c).mat = { m with keep := false, gangWait := none, waiting := none }
      ∧ (c < 384 → (s.quad (quadOf c)).leaseHolder = some c → (u.quad (quadOf c)).leaseHolder = none)
      ∧ ∀ n, n ≠ c → u.core n = s.core n)
    ∧ (∀ st pre, MatEnds (.mtab st pre) s fun m => { m with tabs := m.tabs.set st.toNat (presetTab pre) })
    ∧ (∀ (st : BitVec 2) (b : Bool) (slot : BitVec 5) (off : BitVec 10),
      let img := s.readSide (quadOf c) (sideNum b) (slot.toNat * 65536 + off.toNat * 64) 64
      m.infl.length < 16 → m.holds (sideNum b) slot.toNat = true → k.slotOk readKinds (sideNum b) slot.toNat = true →
      imageInvalid img = false → MatEnds (.mtabSlot st b slot off) s fun m => { m with tabs := m.tabs.set st.toNat (algOfImage img) })
    ∧ (∀ side mask, (∀ f ∈ m.infl, f.uses side mask = false) →
      MatEnds (.mrel side mask) s fun m => m.setClaim side (m.claimOf side &&& ~~~mask))
    ∧ (∀ side mask, s.claimBlocked c side mask = false → ∃ u, exec (.mclaim side mask) s = .next u ∧ EngineIssued s u
      ∧ (u.core c).mat = { m.setClaim side (m.claimOf side ||| mask) with gangWait := none, waiting := none }
      ∧ (∀ r ∈ claimRows side mask, u.rowOf (quadOf c) r = t.row)
      ∧ ∀ n, n ≠ c → (u.core n).mat = (s.core n).mat ∧ u.seq n = s.seq n)
    ∧ (∀ side mask, s.claimBlocked c side mask = true → exec (.mclaim side mask) s
      = .next (s.updCore c fun x => { x with mat := { x.mat with waiting := some (side, mask) } }))
    ∧ MatEnds (.mzero 0) s id
    ∧ (∀ mask, mask ≠ 0 → m.holdsBack { MUse.none with wp := mask } = false → s.planeCheck c k mask writeKinds false = none →
      use (.mzero mask) fun f => f.writesP = mask)
    ∧ (∀ pl v, m.holdsBack { MUse.none with wp := BitVec.twoPow 8 pl.toNat } = false →
      s.planeCheck c k (BitVec.twoPow 8 pl.toNat) writeKinds false = none →
      use (.mfillAcc pl v) fun f => f.writesP = BitVec.twoPow 8 pl.toNat)
    ∧ (∀ w : FillWord,
      let base := plusGen (w.addr.toNat * 32) (k.gen64 (if w.sideB then k.nest.s1 else k.nest.s0))
      let stride := if w.sideB then k.bstr else k.astr
      let past := base + (fillRows w - 1) * stride + fillRowLen w
      let slots := slotMask (base, past)
      m.holdsBack (if w.sideB then { MUse.none with wb := slots } else { MUse.none with wa := slots }) = false →
      past ≤ 2 ^ 21 → base % fillEs w = 0 → w.csel.toNat < fillComps w →
      (∀ j ∈ slotsOf (base, past), m.holds (sideNum w.sideB) j = true ∧ k.slotOk writeKinds (sideNum w.sideB) j = true) →
      use (.mfill w) fun f => f.abase = base ∧ f.astr = stride ∧ (if w.sideB then f.writesB else f.writesA) = slots
        ∧ (if w.sideB then f.writesA else f.writesB) = 0)
    ∧ (∀ (w : OutWord) (rm : Rm) (off : Nat), m.holdsBack { MUse.none with rp := BitVec.twoPow 8 w.pl.toNat } = false →
      s.planeRows k t w readKinds true writeKinds = .ok off → use (.mout w rm) fun f => f.soff = off)
    ∧ (∀ (w : OutWord) (off : Nat), m.holdsBack { MUse.none with wp := BitVec.twoPow 8 w.pl.toNat } = false →
      s.planeRows k t w writeKinds false readKinds = .ok off → use (.maccld w) fun f => f.soff = off)
    ∧ (∀ soff : BitVec 19,
      let off := plusGen soff.toNat (k.gen64 k.nest.s2)
      m.infl = [] → off % 64 = 0 → k.spadFail c t writeKinds off 64 = none →
      use (.mqry soff) fun f => f.soff = off ∧ f.out = s.queryRecord c)
    ∧ (∀ w : MulWord,
      let ready (ks : Nat) (km : Bool) (g : MulGeom) : Prop := g = s.mulGeom c c k k w ks km ∧ MulOk s k w ks km g
        ∧ m.holdsBack { MUse.none with ra := slotMask g.a ||| slotMask g.m, rb := slotMask g.b,
                                       wp := groupMask w.pg.toNat g.tab.n, mul := true } = false
      (m.formed = false →
        (∀ g, ready 8 false g → MulStands (.mma w) s k w g)
        ∧ (∀ (k4 : Bool) g, ready (if k4 then 4 else 2) false g → MulStands (.mmas w k4) s k w g)
        ∧ ∀ g, ready 8 true g → MulStands (.mmat w) s k w g)
      ∧ ∀ (i : Instr) (ks : Nat) (km : Bool),
        i = .mma w ∧ ks = 8 ∧ km = false ∨ (∃ k4, i = .mmas w k4 ∧ ks = (if k4 then 4 else 2) ∧ km = false)
          ∨ i = .mmat w ∧ ks = 8 ∧ km = true →
        m.formed = true → GangStands s 1 → t.members.Nodup →
        (∀ n ∈ t.members, (s.core n).mat.formed = true
          ∧ ∀ j r, (s.updCore c fun x => { x with mat := { x.mat with gangWait := some s.cur.words } }).memberWord n = some (j, r) →
            (r.core n).mat.holdsBack (r.mulUse n w ks km) = false ∧ ∃ f, r.mulTry n i w ks km = .ok f) →
        ∃ u, exec i s = .next u ∧ ∀ n ∈ t.members, (u.core n).mat.steps = (s.core n).mat.steps + 1
          ∧ ∃ f, (u.core n).mat.infl = (s.core n).mat.infl ++ [f] ∧ f.instr = i ∧ f.gangWord = true ∧ f.done = false)
    ∧ (t.gang ≠ 0 → m.formed = true → MatEnds .mgang s id) ∧ (m.formed = false → MatEnds .mungang s id)
    ∧ (m.formed = false → m.infl = [] → MatEnds .msync s id)
    ∧ (t.gang ≠ 0 → m.formed = false → GangStands s 0 → ∃ u, exec .mgang s = .next u
      ∧ ∀ n ∈ t.members, (u.core n).mat.formed = true ∧ (u.core n).mat.steps = 0)
    ∧ (m.formed = true → GangStands s 2 → (∀ n ∈ t.members, ∀ f ∈ (s.core n).mat.infl, f.gangWord = false) →
      ∃ u, exec .mungang s = .next u ∧ ∀ n ∈ t.members, (u.core n).mat.formed = false)
    ∧ (m.formed = true → GangStands s 1 → t.members.Nodup → (∀ n ∈ t.members, (s.core n).mat.infl = []) →
      ∃ u, exec .msync s = .next u ∧ ∀ n ∈ t.members, (u.core n).mat.steps = (s.core n).mat.steps + 1))
  ∧ (∀ (s : State) (c : Nat), (s.core c).task ≠ none →
    let m := (s.core c).mat
    (∀ side mask u, m.reclaims = [] → m.waiting = some (side, mask) → s.memberWord c = some (.mclaim side mask, u) →
      s.claimBlocked c side mask = false → ∃ t, exec (.claimGranted c) s = .next t
        ∧ (t.core c).mat.claimOf side = m.claimOf side ||| mask &&& (if side = .acc then 0xFF else BitVec.allOnes 32)
        ∧ (t.core c).mat.waiting = none)
    ∧ (m.reclaims ≠ [] → (s.core c).freezes = [] → (∀ p ∈ m.reclaims, s.claimBlocked c p.1 p.2 = false) →
      ∃ t, exec (.claimGranted c) s = .next t ∧ (t.core c).mat.claimA = m.claimA ||| m.reclaimA
        ∧ (t.core c).mat.claimB = m.claimB ||| m.reclaimB ∧ (t.core c).mat.claimP = m.claimP ||| m.reclaimP
        ∧ (t.core c).mat.reclaims = []))
  ∧ ∀ (s : State) (c wid : Nat) (f : MInfl), (s.core c).freezes = [] → s.matOf c wid = some f →
    let m := (s.core c).mat
    let q := quadOf c
    let members := ((s.core c).task.map (·.members)).getD [c]
    m.reclaims = [] →
    f.done = true ∨ isMul f.instr = false ∨ (∀ g ∈ m.infl.takeWhile (fun g => g.wid != wid), isMul g.instr = false) →
    (f.done = true ∨ f.gangWord = false ∨ ∀ k, (s.core c).task = some k → ∀ n ∈ k.members, (s.core n).mat.reclaims = []) →
    ∃ t, exec (.engineWordComplete c .mat wid) s = .next t ∧ t.seq c = s.seq c ∧ (∀ g ∈ (t.core c).mat.infl, g.wid ≠ wid)
      ∧ (f.gangWord = true → ∀ n ∈ members, n ≠ c → ∀ g,
        ((s.core n).mat.infl.find? fun g => g.gangWord && g.step == f.step) = some g →
        ((s.core n).freezes = [] → ∀ h ∈ (t.core n).mat.infl, h.wid ≠ g.wid)
        ∧ ((s.core n).freezes ≠ [] → ∃ h ∈ (t.core n).mat.infl, h.wid = g.wid ∧ h.done = true))
      ∧ (f.gangWord = false → (t.core c).mat = { m with infl := m.infl.filter (·.wid != wid) }
        ∧ (f.done = true → MemoryKept s t ∧ t.quads = s.quads)
        ∧ (f.done = false →
          (∀ n, n ≠ q → t.quad n = s.quad n)
          ∧ (∀ mask, f.instr = .mzero mask → MemoryKept s t ∧ t.quad q = (s.quad q).fillPlanes mask 0)
          ∧ (∀ pl v, f.instr = .mfillAcc pl v → MemoryKept s t
            ∧ t.quad q = (s.quad q).fillPlanes (BitVec.twoPow 8 pl.toNat) (widen formBf16 v.toNat))
          ∧ (∀ soff, f.instr = .mqry soff → Memory.wf s.mem = true → t.quads = s.quads
            ∧ (∀ i, i < f.out.length → memRead t.mem (arrayAt c (f.soff + i)) = f.out.getD i 0)
            ∧ ∀ a, a < arrayAt c f.soff ∨ arrayAt c (f.soff + f.out.length) ≤ a → memRead t.mem a = memRead s.mem a)
          ∧ (∀ w, f.instr = .mfill w → Memory.wf s.mem = true →
            let at_ (row i : Nat) : Nat := slotAt q (sideNum w.sideB) 0 (f.abase + row * f.astr + i)
            (fillRowLen w ≤ f.astr → ∀ row, row < fillRows w → ∀ i, i < fillRowLen w →
              memRead t.mem (at_ row i) = (fillRowBytes w row).getD i 0)
            ∧ (∀ a, (∀ row, row < fillRows w → ∀ i, i < fillRowLen w → a ≠ at_ row i) → memRead t.mem a = memRead s.mem a)
            ∧ (∀ j, j < 32 → (f.writesA ||| f.writesB).getLsbD j = true →
              (t.quad q).tag (sideNum w.sideB) j = ⟨fillCode w.fmt, w.blk, false, false, w.nc⟩)
            ∧ (t.quad q).planes = (s.quad q).planes)
          ∧ (∀ w rm, f.instr = .mout w rm → Memory.wf s.mem = true →
            let at_ (i j : Nat) : Nat := arrayAt c (f.soff + i * w.sstr.toNat + j)
            t.quads = s.quads
            ∧ (256 * outEs w ≤ w.sstr.toNat → ∀ i, i < outRows w → ∀ col, col < 256 → ∀ b, b < outEs w →
              memRead t.mem (at_ i (col * outEs w + b)) = (moutElem w rm
                ((s.quad q).acc w.pl.toNat (w.row0.toNat + i) col)).getD b 0)
            ∧ ∀ a, (∀ i, i < outRows w → ∀ j, j < 256 * outEs w → a ≠ at_ i j) → memRead t.mem a = memRead s.mem a)
          ∧ (∀ w, f.instr = .maccld w → MemoryKept s t
            ∧ ∀ i, i < outRows w → ∀ col, col < 256 → (t.quad q).acc w.pl.toNat (w.row0.toNat + i) col
              = widen (ftyForm w.df) (leNat (memReads s.mem (arrayAt c (f.soff + i * w.sstr.toNat + col * outEs w)) (outEs w))))
          ∧ ∀ w ks km, mulOf f.instr = some (w, ks, km) → MemoryKept s t
            ∧ (f.elapsed = 0 → ∀ r, r < 128 → ∀ col, col < 256 →
              let p := (pairP (tagFmt f.atag) (tagFmt f.btag)).getD 1
              let old := (List.range f.tab.n).map fun j => (s.quad q).acc (w.pg.toNat + j) r col
              let cycles := f.cycles w ks
              let out := match fmtMx (tagFmt f.atag), fmtMx (tagFmt f.btag) with
                | some ma, some mb =>
                  s.mxSteps (quadOf f.leader) q f w ma mb r col (cycles / ((tagBlock f.atag + p - 1) / p)) 0 0 0 old
                | _, _ => chunkSteps p (s.mulSequence (quadOf f.leader) q f w ks km r col) cycles 0 old
              (∀ j, j < f.tab.n → (t.quad q).acc (w.pg.toNat + j) r col = out.getD j 0)
              ∧ ∀ n, n < 8 → n < w.pg.toNat ∨ w.pg.toNat + f.tab.n ≤ n → (t.quad q).acc n r col = (s.quad q).acc n r col)))

/-! ## Homes, replicas and addends -/

/-- R82 to R85, R273 to R276, R290 to R293: the steps of a home slice. A request that arrives joins the queue or is held; a lookup
answers from the line, hands an operation to the arithmetic unit, or waits for a fill; rows close, replicas go and
their holders are acknowledged; an addend has its verdict, is applied, or is held, and its sender is told. -/
def Obligations.HubEvents : Prop :=
  (∀ (s : State) (id : Nat) (r : Req), s.req id = some r →
    let i := r.sliceIdx
    let x := s.slice i
    let h := homeIdx r.pa
    let y := s.slice h
    (canHubRequestArrive id s = true → s.severed r = false → r.direct = false → ∃ t, exec (.hubRequestArrive id) s = .next t
      ∧ (x.heldReqs = [] ∧ x.inq.length < 16 → (t.slice i).inq = x.inq ++ [id] ∧ ∃ q, t.req id = some q ∧ q.phase = .queued)
      ∧ (x.heldReqs ≠ [] ∨ 16 ≤ x.inq.length → (t.slice i).heldReqs = x.heldReqs ++ [id] ∧ ∃ q, t.req id = some q ∧ q.phase = .held)
      ∧ t.mem = s.mem ∧ t.cores = s.cores)
    ∧ (∀ n, canHubLookup n s = true → (s.slice n).nextLookup = some id → r.replicaOf = none →
      let z := s.slice n
      ((z.fills.any fun f => f.line == r.pa / 128) = false →
        (∀ c l, z.lineIn (r.pa / 128) ≠ none → r.kind = .read → r.src = .land c l → ∃ t q, exec (.hubLookup n) s = .next t
          ∧ t.req id = some q ∧ q.phase = .answered ∧ q.result = s.readPhys r.key r.pa r.len ∧ t.mem = s.mem ∧ t.cores = s.cores)
        ∧ (z.lineIn (r.pa / 128) ≠ none → r.kind ≠ .read → r.kind ≠ .write → ∃ t, exec (.hubLookup n) s = .next t
          ∧ (t.slice n).ops = z.ops ++ [id] ∧ (∃ q, t.req id = some q ∧ q.phase = .alu) ∧ t.mem = s.mem ∧ t.cores = s.cores)
        ∧ (z.lineIn (r.pa / 128) = none → z.fills.length < 128 → r.kind ≠ .write → ∃ t, exec (.hubLookup n) s = .next t
          ∧ (t.slice n).fills = z.fills ++ [⟨r.pa / 128, r.fn, r.tc, r.kind != .read, [id]⟩]
          ∧ (∃ q, t.req id = some q ∧ q.phase = .fill) ∧ t.mem = s.mem ∧ t.cores = s.cores)))
    ∧ (∀ c wid p, canReplicaAckComplete id s = true → r.src = .store c wid → (s.seq c).stores.find? (fun p => p.wid == wid) = some p →
      ∃ t, exec (.replicaAckComplete id) s = .next t ∧ t.reqs = s.reqs.filter (·.id != id) ∧ t.mem = s.mem
        ∧ (p.reqs = [id] → (t.seq c).st = (s.seq c).st - 1
          ∧ (t.seq c).stores = (s.seq c).stores.filter fun p => p.wid != wid))
    ∧ (∀ c wid ty mask p, r.src = .addend c wid → r.kind = .addend ty mask p →
      (canAddendVerdict id s = true → s.severed r = false → ∃ t, exec (.addendVerdict id) s = .next t ∧ t.mem = s.mem
        ∧ (p = true ∧ y.accq.length < 16 ∧ y.prioWait = [] ∨ p = false ∧ tget y.heldCount r.fn 0 < (s.fn r.fn).acq.toNat
              ∧ s.lineCount h (r.pa / 128) < 4 ∧ y.accq.length + y.prioWait.length < 16 →
            (t.slice h).accq = y.accq ++ [id] ∧ (t.slice h).ops = y.ops ++ [id] ∧ ∃ q, t.req id = some q ∧ q.phase = .accepted)
        ∧ (p = true ∧ ¬ (y.accq.length < 16 ∧ y.prioWait = []) → (t.slice h).prioWait = y.prioWait ++ [id])
        ∧ (p = false ∧ (tget y.heldCount r.fn 0 ≥ (s.fn r.fn).acq.toNat ∨ 4 ≤ s.lineCount h (r.pa / 128)
            ∨ 16 ≤ y.accq.length + y.prioWait.length) → ∃ q, t.req id = some q ∧ q.phase = .verdict false))
      ∧ (canVerdictReceived id s = true → ∃ t q, exec (.verdictReceived id) s = .next t ∧ t.mem = s.mem
        ∧ t.req id = some q ∧ q.told = true ∧ (r.phase = .verdict false → q.phase = .returned ∧ t.cores = s.cores)
        ∧ (r.phase ≠ .verdict false → q.phase = r.phase ∧ (t.core c).res.pend = (s.core c).res.pend + 1))
      ∧ (r.phase = .returned → ∃ t, exec (.refusedAddendHeld id) s = .next t
        ∧ (s.hasResid c = true → t.req id = none ∧ ((t.core c).resTag (resSlot r.va)).valid = true
          ∧ ((t.core c).resTag (resSlot r.va)).va = r.va / 128 * 128 ∧ ((t.core c).resTag (resSlot r.va)).ty = ty)
        ∧ (s.hasResid c = false → (t.core c).res.prio = (s.core c).res.prio + 1 ∧ t.mem = s.mem
          ∧ ∃ q, t.req id = some q ∧ q.phase = .travel ∧ q.kind = .addend ty mask true))
      ∧ (canAddendApply id s = true → Memory.wf s.mem = true → ∃ t, exec (.addendApply id) s = .next t
        ∧ (t.slice h).accq = y.accq.filter (· != id) ∧ (t.slice h).ops = y.ops.filter (· != id)
        ∧ (∀ a, a < r.pa / 128 * 128 ∨ r.pa / 128 * 128 + 128 ≤ a → memRead t.mem a = memRead s.mem a)
        ∧ (s.poisoned r.pa = true → t.mem = s.mem ∧ ∃ q, t.req id = some q ∧ q.phase = .answered ∧ q.poison = true))
      ∧ (canApplyNotice id s = true → r.poison = false → ∃ t, exec (.applyNotice id) s = .next t
        ∧ t.reqs = s.reqs.filter (·.id != id) ∧ t.mem = s.mem ∧ (t.core c).res.pend = (s.core c).res.pend - 1
        ∧ (t.core c).res.prio = (if p then (s.core c).res.prio - 1 else (s.core c).res.prio)))
    ∧ ∀ n rest, (s.slice n).accq.length < 16 → s.mayStage n r = true → (s.slice n).prioWait = id :: rest →
      ∃ t, exec (.priorityAddendEntry n) s = .next t
      ∧ (t.slice n).accq = (s.slice n).accq ++ [id] ∧ (t.slice n).prioWait = rest.filter (· != id)
      ∧ (∃ q, t.req id = some q ∧ q.phase = .accepted) ∧ t.mem = s.mem ∧ t.cores = s.cores)
  ∧ (∀ (s : State) (n line : Nat) (f : Fill), (s.slice n).fills.find? (fun f => f.line == line) = some f →
    s.rereads.contains line = false → (∀ id ∈ f.reqs, ∀ r, s.req id = some r → ∃ c l, r.src = .land c l) →
    ∃ t, exec (.hbmFillArrive n line) s = .next t ∧ (t.slice n).fills = (s.slice n).fills.filter (·.line != line)
      ∧ t.mem = s.mem ∧ t.cores = s.cores
      ∧ ∀ id ∈ f.reqs, ∀ r, s.req id = some r → r.kind = .read → ∃ q, t.req id = some q ∧ q.phase = .answered)
  ∧ (∀ (s : State) (d row : Nat), canHbmRowClose d row s = true → ∃ t, exec (.hbmRowClose d row) s = .next t
    ∧ t = s.updDie d fun x => { x with openRows := x.openRows.filter fun p => p.1 != row })
  ∧ (∀ (s : State) (d line : Nat) (m : InvMsg), (s.invs.find? fun m => m.dst == d && m.line == line) = some m →
    (s.invs.find? fun k => k.src == m.src && k.dst == d) = some m → ∃ t, exec (.replicaInvalidate d line) s = .next t
      ∧ (t.die d).replicas = (s.die d).replicas.filter (fun p => p.line / 512 != line / 512) ∧ t.invs = s.invs.filter (· != m)
      ∧ (∀ r ∈ s.reqs, r.id = m.req → r.replicaOf = none → { r with acks := r.acks.filter (· != d) } ∈ t.reqs)
      ∧ t.mem = s.mem ∧ t.cores = s.cores)
  ∧ ∀ (s : State) (d : Nat), ∃ t, exec (.replicationWindowEnd d) s = .next t ∧ t.mem = s.mem ∧ t.cores = s.cores
    ∧ ∀ e ∈ (s.die d).rep, e.replicated = false → e.nrep = false → s.nrepGranule e.granule = false →
      let ctl := (s.die d).repctl
      let on := ctl.getLsbD 0 && decide ((ctl.extractLsb' 16 16).toNat ≠ 0)
        && decide ((ctl.extractLsb' 16 16).toNat ≤ e.reads) && decide (e.writes ≤ (ctl.extractLsb' 8 8).toNat)
      { e with replicated := on, reads := 0, writes := 0 } ∈ (t.die d).rep

/-! ## Power, bring-up and errors -/

/-- R9 to R18, R122, R264, R381: stages of bring-up, resets and losses of power, the host link, the period records of the chains,
and the errors of memory, links, registers and arrays. -/
def Obligations.BootAndErrors : Prop :=
  (∀ (s : State) (rs : List Nat) (cause : Byte) (die : BitVec 4),
    (canBringupStageDone (.ok rs) s = true → ∃ t, exec (.bringupStageDone (.ok rs)) s = .next t
      ∧ t.boot.stage = s.boot.stage + 1 ∧ (s.boot.stage = 3 → t.boot.ready = true ∧ t.wall = 0)
      ∧ (s.boot.stage ≠ 2 → t.mem = s.mem) ∧ (s.boot.stage = 2 → ∀ a, ownByte a = true → memRead t.mem a = 0)
      ∧ (s.boot.stage = 1 → t.log = s.log ++ rs.map LogEntry.laneRemap))
    ∧ (canBringupStageDone (.failed cause die) s = true → ∃ t, exec (.bringupStageDone (.failed cause die)) s = .next t
      ∧ t.boot.fail = true ∧ t.boot.cause = cause ∧ t.boot.stage = 0xF ∧ t.mem = s.mem)
    ∧ (s.boot.starting = true → ∃ t, exec .stageBoundExceeded s = .next t
      ∧ t = { s with boot := { s.boot with stage := 0xF, fail := true, cause := 7, die := 0 } })
    ∧ (∀ i, (i = .powerUp ∧ s.boot.mainPower = false ∨ i = .fundamentalOrHotReset ∧ s.boot.mainPower = true) →
      ∃ t, exec i s = .next t ∧ t.boot = State.reset.boot ∧ t.pf0 = State.reset.pf0 ∧ t.cores = State.reset.cores
        ∧ t.quads = State.reset.quads ∧ t.slices = State.reset.slices ∧ t.reqs = State.reset.reqs ∧ t.mem = s.mem)
    ∧ (∃ t, exec .alwaysOnPowerLoss s = .next t ∧ t.boot = { State.reset.boot with mainPower := false } ∧ t.fns = [] ∧ t.timer = 0
      ∧ t.cores = State.reset.cores ∧ ∀ a, ownByte a = true → memRead t.mem a = 0)
    ∧ (s.boot.mainPower = true → ∃ t, exec .mainPowerLoss s = .next t ∧ t.boot = { State.reset.boot with mainPower := false }
      ∧ t.cores = State.reset.cores ∧ (∀ a, ownByte a = true → memRead t.mem a = 0)
      ∧ ∀ f, (t.fn f).meters = (s.fn f).meters ∧ (t.fn f).chainHead = (s.fn f).chainHead
        ∧ (t.fn f).chainRecords = (s.fn f).chainRecords)
    ∧ (∃ t, exec .hostLinkTrained s = .next t ∧ t.boot = { s.boot with linkTrained := true } ∧ t.mem = s.mem ∧ t.cores = s.cores)
    ∧ (s.boundFns.Nodup → ∃ t, exec .chainPeriodRecord s = .next t ∧ t.timer = s.timer + 2 ^ 30 ∧ t.mem = s.mem ∧ t.cores = s.cores
      ∧ (∀ f ∈ s.boundFns, (t.fn f).chainIndex = (s.fn f).chainIndex + 1 ∧ (t.fn f).meters = (s.fn f).meters)
      ∧ ∀ f, f ∉ s.boundFns → t.fn f = s.fn f))
  ∧ (∀ (s : State) (line : Nat),
    (canHbmUncorrectableRead line s = true → ∃ t, exec (.hbmUncorrectableRead line) s = .next t
      ∧ t = { s with rereads := s.rereads ++ [line] })
    ∧ (s.rereads.contains line = true →
      let u := { s with rereads := s.rereads.filter (· != line) }
      (∃ t, exec (.hbmRereadResult line true) s = .next t ∧ t = { u with log := s.log ++ [.transientMemory line] })
      ∧ (s.rowFns line = [] → ∃ t, exec (.hbmRereadResult line false) s = .next t ∧ line ∈ t.poison
        ∧ t.log = s.log ++ [.lastingMemory line] ∧ t.rereads = u.rereads ∧ t.mem = s.mem ∧ t.cores = s.cores)))
  ∧ (∀ (s : State) (l : LinkId), s.linkUp l = true →
    let k := s.link l
    (k.retrying = 0 → ∃ t, exec (.linkFlitCheckFail l) s = .next t ∧ t = s.setLink { k with retrying := 1 })
    ∧ (k.retrying = 1 → ∃ t, exec (.linkRetransmitResult l true) s = .next t
      ∧ t = { s.setLink { k with retrying := 0 } with log := s.log ++ [.transientLink l] })
    ∧ (k.retrying = 1 → k.lanesLost + 1 < Config.linkLanes l → ∃ t, exec (.linkRetransmitResult l false) s = .next t
      ∧ t = { s.setLink { k with retrying := 2, lanesLost := k.lanesLost + 1 } with log := s.log ++ [.lastingLink l] })
    ∧ (1 < k.retrying → ∃ t, exec (.linkRetransmitResult l true) s = .next t ∧ t = s.setLink { k with retrying := 0 }))
  ∧ (∀ (s : State) (c : Nat) (r : ParityReg),
    (canRegisterParityError c r true s = true → ∃ t, exec (.registerParityError c r true) s = .next t
      ∧ (t.seq c).errc = (s.seq c).errc + 1 ∧ (t.core c).freezes = [.parity] ∧ t.log = s.log ++ [.correctedRegister c]
      ∧ (t.seq c).belt = (s.seq c).belt ∧ (t.seq c).named = (s.seq c).named ∧ (t.seq c).pc = (s.seq c).pc ∧ t.mem = s.mem)
    ∧ (canRegisterParityError c r false s = true → r.inEngine = false → (s.core c).mat.formed = false →
      (s.seq c).landing ≠ [] → ∃ t p, exec (.registerParityError c r false) s = .next t
      ∧ (t.seq c).pendTrap = some p ∧ p.cause = 0x20 ∧ p.addr = (s.seq c).pc ∧ p.pc = (s.seq c).pc ∧ t.mem = s.mem)
    ∧ ((s.core c).freezes.contains .parity = true → ∃ t, exec (.parityRepairDone c) s = .next t
      ∧ (t.core c).freezes = (s.core c).freezes.filter (· != .parity) ∧ t.seq c = s.seq c ∧ t.mem = s.mem))
  ∧ ∀ (s : State) (q : Nat) (u : ArrayUnit), ∃ t, exec (.arrayUncorrectableError q u) s = .next t
    ∧ (t.quad q).fenced = true ∧ (t.quad q).leaseReqs = []
    ∧ (((s.quad q).leaseHolder.bind fun c => (s.core c).task) = none → (∀ c ∈ quadCores q, (s.core c).claims = false) →
      t.cores = s.cores ∧ t.mem = s.mem)

/-! ## The host -/

/-- R7, R11, R13, R301, R303, R338, R339, R357, R360, R376, R378, R382 to R384: what the oldest message of the host does:
doorbells, resume actions, INVVA, requests of PF0, register reads and writes, configuration writes, resets, and the requests of the
DOE mailboxes inside and outside a session. -/
def Obligations.HostRequests : Prop :=
  ∀ (s : State) (m : HostMsg) (rest : List HostMsg), s.inbox = m :: rest →
    let u := { s with inbox := rest }
    let answers (i : Instr) (b : Nat) (code : Byte) (body : List Byte) :=
      s.boot.ready = true → b ≤ 48 → ∃ t, exec i s = .next t ∧ t = { u with out := s.out ++ [.spdm b code body] }
    let secured (f id : Nat) : Prop := s.boot.ready = true ∧ sliceFn f = true ∧ (s.fn f).bound = true ∧ (s.fn f).secured id = true
    let tdisp (i : Instr) (f : Nat) (ok : Bool) (body : List Byte) :=
      ∃ t, exec i s = .next t ∧ t = { u with out := s.out ++ [.tdisp f ok body] }
    (∀ f q va d, m = .doorbell f q va → s.barOpen f = true → q < 8 → (s.wq f q).att = some d → (s.fn f).migrating = false →
      ∃ t, exec .doorbell s = .next t ∧ t = u.updDie d fun x => { x with subs := x.subs ++ [⟨f, q, va, none, false, [], none⟩] })
    ∧ (∀ f, s.boot.ready = true → s.pf0.busy = false → ∀ i op,
        (i = .create ∧ m = .create f ∧ op = 1 ∨ i = .destroy ∧ m = .destroy f ∧ op = 2 ∨ i = .setQuads ∧ m = .setQuads f ∧ op = 3
          ∨ i = .setShares ∧ m = .setShares f ∧ op = 4 ∨ i = .migrateOut ∧ m = .migrateOut f ∧ op = 5
          ∨ i = .acceptMigration ∧ m = .acceptMigration f ∧ op = 6) →
        ∃ t, exec i s = .next t ∧ t = { u with pf0 := { s.pf0 with pmOp := op, pmFn := f, pmReq := s.pf0.pmarg, busy := true } })
    ∧ (∀ f ipa, s.boot.ready = true → s.pf0.pxBusy = false → ∀ i op,
        (i = .pageExport ∧ m = .pageExport f ipa ∧ op = 1 ∨ i = .pageImport ∧ m = .pageImport f ipa ∧ op = 2) →
        ∃ t, exec i s = .next t
          ∧ t = { u with pf0 := { s.pf0 with pxOp := op, pxFn := f, pxIpa := ipa.toNat * 2 ^ 21, pxBusy := true } })
    ∧ (∀ f q, s.barOpen f = true → q < 8 → s.resumeStatus f q = 0 → ∀ i act,
        (i = .actRetry ∧ m = .actRetry f q ∧ act = 1 ∨ i = .actValue ∧ m = .actValue f q ∧ act = 2
          ∨ i = .actEnd ∧ m = .actEnd f q ∧ act = 3) →
        ∃ t, exec i s = .next t ∧ t = u.resumeQueue f q act (s.wq f q).wqval)
    ∧ (∀ f q v, m = .invvaWrite f q v → s.barOpen f = true → q < 8 → (s.wq f q).invBusy = false →
      ∃ t, exec .invvaWrite s = .next t
        ∧ (v.toNat % 64 = 63 → (t.wq f q).invBusy = true ∧ (t.wq f q).invErr = false)
        ∧ (v.toNat % 64 < 16 → (t.wq f q).invBusy = false ∧ (t.wq f q).invErr = true))
    ∧ (∀ v, m = .registerWrite 0 0x108 8 v → s.boot.ready = true → ∃ t, exec .registerWrite s = .next t
      ∧ t = { u with pf0 := { s.pf0 with pmarg := v } })
    ∧ (∀ f q v, m = .registerWrite f (0x10028 + 0x100 * q) 8 v → s.barOpen f = true → q < 8 → ∃ t, exec .registerWrite s = .next t
      ∧ t = u.updWq f q fun w => { w with wqval := v })
    ∧ (∀ f off size tag, m = .registerRead f off size tag → s.accessWaits f off true size = false →
      ∃ t, exec .registerWrite s = .next t ∧ t = { u with out := s.out ++ [.register tag (s.readReg f off size)] })
    ∧ (∀ tag, m = .registerRead 0 0 4 tag → ∃ t, exec .registerWrite s = .next t
      ∧ t = { u with out := s.out ++ [.register tag (BitVec.ofNat 64 ((if s.boot.ready then 1 else 0) + (if s.boot.fail then 2 else 0)
          + s.boot.stage.toNat * 2 ^ 4 + s.boot.cause.toNat * 2 ^ 8 + s.boot.die.toNat * 2 ^ 16))] })
    ∧ (∀ f off v, m = .configWrite f off v → f ≤ 48 → (s.fn f).tdisp = .unlocked → ∃ t, exec .configWrite s = .next t
      ∧ t.fn f = (s.fn f).config off v ∧ (∀ g, g ≠ f → t.fn g = s.fn g) ∧ t.mem = s.mem ∧ t.cores = s.cores)
    ∧ (∀ f, m = .functionLevelReset f → s.boot.ready = true → sliceFn f = true → (s.fn f).bound = true →
      ∃ t, exec .functionLevelReset s = .next t
        ∧ ((s.fn f).tdisp = .unlocked → (t.fn f).away = [] ∧ (t.fn f).registry = [] ∧ (t.fn f).sessions = []
          ∧ ∀ q, (t.wq f q).records = [] ∧ (t.wq f q).next = 0 ∧ (t.wq f q).s1root = 0 ∧ (t.wq f q).park = false)
        ∧ ((s.fn f).tdisp = .locked ∨ (s.fn f).tdisp = .run → (t.fn f).tdisp = .error ∧ (t.fn f).errReason = 2))
    ∧ (∀ f, m = .ideIntegrityFailure f → ∃ t, exec .ideIntegrityFailure s = .next t
      ∧ ((s.fn f).tdisp = .locked ∨ (s.fn f).tdisp = .run → (t.fn f).tdisp = .error ∧ (t.fn f).errReason = 3 ∧ (t.fn f).noTlp = true)
      ∧ ((s.fn f).tdisp = .unlocked → t = u))
    ∧ (∀ b i, m = .doeDiscovery b i → s.boot.ready = true → b ≤ 48 → ∃ t, exec .doeDiscovery s = .next t
      ∧ t = { u with out := s.out ++ [.doe b (Config.doeProtocol i)] })
    ∧ (∀ b, (m = .getVersion b → answers .getVersion b 0x04 [0x12, 0x13])
      ∧ (m = .getCapabilities b → answers .getCapabilities b 0x61 [0xFF, 0x01])
      ∧ (∀ ok, m = .negotiateAlgorithms b ok → answers .negotiateAlgorithms b 0x63 [if ok then 1 else 0])
      ∧ (m = .getDigests b → answers .getDigests b 0x01 (1 :: Config.sha384 Config.certChain))
      ∧ (∀ off n, m = .getCertificate b 0 off n → answers .getCertificate b 0x02 ((Config.certChain.drop off).take n))
      ∧ (∀ x, m = .challenge b 0 x → answers .challenge b 0x03 (Config.sign (Config.sha384 Config.certChain ++ x)))
      ∧ (∀ x, m = .getMeasurements b 0 x → answers .getMeasurements b 0x60
          (BitVec.ofNat 8 (s.blocks b).length :: Config.sign (x ++ [BitVec.ofNat 8 (s.blocks b).length])))
      ∧ (∀ code, m = .unsupportedSpdmRequest b code → answers .unsupportedSpdmRequest b 0x7F [0x07])
      ∧ (∀ x, m = .keyExchange b 0 x → s.boot.ready = true → b ≤ 48 → (s.fn b).sessions.length < 4 →
        ∃ t, exec .keyExchange s = .next t ∧ (t.fn b).sessions = (s.fn b).sessions ++ [⟨(s.fn b).nextSession, false, 0⟩]
          ∧ (t.fn b).nextSession = (s.fn b).nextSession + 1 ∧ (∀ g, g ≠ b → t.fn g = s.fn g))
      ∧ (∀ id, m = .finish b id true → s.boot.ready = true → b ≤ 48 → (s.fn b).session id ≠ none →
        ∃ t, exec .finish s = .next t ∧ (t.fn b).secured id = true)
      ∧ ∀ id, (s.fn b).secured id = true → s.boot.ready = true → b ≤ 48 →
        (m = .endSession b id → (s.fn b).lockSession ≠ id → ∃ t, exec .endSession s = .next t
          ∧ t = { u with fns := tset b { s.fn b with sessions := (s.fn b).sessions.filter (·.id != id) } s.fns
                         out := s.out ++ [.spdm b 0x6C []] })
        ∧ (m = .heartbeat b id → answers .heartbeat b 0x68 [])
        ∧ (m = .keyUpdate b id → ∃ t, exec .keyUpdate s = .next t ∧ t.out = s.out ++ [.spdm b 0x69 []]
          ∧ (t.fn b).sessions = (s.fn b).sessions.map fun k => if k.id = id then { k with keyGen := k.keyGen + 1 } else k)
        ∧ ∀ ok, m = .ideKm b id ok → ∃ t, exec .ideKm s = .next t ∧ t.out = s.out ++ [.spdm b 0x7E []]
          ∧ t.fn b = { s.fn b with ideSecure := ok })
    ∧ ∀ f id, secured f id →
      (m = .lockInterfaceRequest f id → s.lockOk f = true → ∃ t, exec .lockInterfaceRequest s = .next t
        ∧ (t.fn f).tdisp = .locked ∧ (t.fn f).lockSession = id ∧ t.out = s.out ++ [.tdisp f true (t.fn f).nonce])
      ∧ (∀ x, m = .startInterfaceRequest f id x → (s.fn f).tdisp = .locked → (s.fn f).nonce = x →
        ∃ t, exec .startInterfaceRequest s = .next t ∧ (t.fn f).tdisp = .run ∧ t.out = s.out ++ [.tdisp f true []])
      ∧ (∀ x, m = .startInterfaceRequest f id x → (s.fn f).nonce ≠ x → tdisp .startInterfaceRequest f false [])
      ∧ (m = .stopInterfaceRequest f id → ∃ t, exec .stopInterfaceRequest s = .next t ∧ (t.fn f).tdisp = .unlocked
        ∧ ((s.fn f).tdisp ≠ .unlocked → (t.fn f).noTlp = false ∧ (t.fn f).away = [] ∧ (t.fn f).suspended = true))
      ∧ (m = .getDeviceInterfaceReport f id → tdisp .getDeviceInterfaceReport f true (s.report f))
      ∧ (m = .getDeviceInterfaceState f id →
        tdisp .getDeviceInterfaceState f true [match (s.fn f).tdisp with | .unlocked => 0 | .locked => 1 | .run => 2 | .error => 3])
      ∧ (m = .bindP2p f id → tdisp .bindP2p f false [0x07])
      ∧ (m = .setMmioAttribute f id → tdisp .setMmioAttribute f false [0x07])
end

