-- ==== Sys2Proof/Laws/Tables.lean ====
section
/-! SUPPORT. Sparse tables and memory: a read after a write gives what was written, a write leaves every other place
alone, and every operation over memory keeps its canonical form. -/

namespace Sys2Proof.Machine

open Sys2Proof

/-! ## Tables -/

@[simp] theorem tfind_tset_same {α : Type} (k : Nat) (v : α) (t : Tbl α) : tfind k (tset k v t) = some v := by
  induction t with
  | nil => simp [tset, tfind]
  | cons p r ih =>
    obtain ⟨j, w⟩ := p
    simp only [tset]
    split
    · simp [tfind]
    · split
      · simp [tfind]
      · rename_i h1 h2
        simp [tfind, Ne.symm h2, ih]

theorem tfind_tset_ne {α : Type} {k j : Nat} (v : α) (t : Tbl α) (h : j ≠ k) : tfind j (tset k v t) = tfind j t := by
  induction t with
  | nil => simp [tset, tfind, Ne.symm h]
  | cons p r ih =>
    obtain ⟨i, w⟩ := p
    simp only [tset]
    split
    · simp [tfind, Ne.symm h]
    · split
      · rename_i h1 h2
        subst h2
        simp [tfind, Ne.symm h]
      · simp [tfind, ih]

@[simp] theorem tget_tset_same {α : Type} (k : Nat) (v d : α) (t : Tbl α) : tget (tset k v t) k d = v := by
  simp [tget]

theorem tget_tset_ne {α : Type} {k j : Nat} (v d : α) (t : Tbl α) (h : j ≠ k) : tget (tset k v t) j d = tget t j d := by
  simp [tget, tfind_tset_ne v t h]

@[simp] theorem tset_tset {α : Type} (k : Nat) (v w : α) (t : Tbl α) : tset k v (tset k w t) = tset k v t := by
  induction t with
  | nil => simp [tset]
  | cons p r ih =>
    obtain ⟨j, u⟩ := p
    by_cases h1 : k < j
    · simp [tset, h1]
    · by_cases h2 : k = j
      · simp [tset, h2]
      · simp [tset, h1, h2, ih]

/-! ## The canonical form of memory -/

theorem Memory.wfFrom_mono {lo hi : Nat} {m : List Host.Cell} (h : lo ≤ hi) (w : Memory.wfFrom hi m = true) :
    Memory.wfFrom lo m = true := by
  cases m with
  | nil => rfl
  | cons p r =>
    obtain ⟨a, b⟩ := p
    simp only [Memory.wfFrom, Bool.and_eq_true, decide_eq_true_eq] at w ⊢
    exact ⟨⟨by omega, w.1.2⟩, w.2⟩

/-- An address below the first one is not listed. -/
theorem tfind_below {lo : Nat} {m : List Host.Cell} (w : Memory.wfFrom lo m = true) {a : Nat} (h : a < lo) :
    tfind a m = none := by
  induction m generalizing lo with
  | nil => rfl
  | cons p r ih =>
    obtain ⟨x, y⟩ := p
    simp only [Memory.wfFrom, Bool.and_eq_true, decide_eq_true_eq] at w
    have : x ≠ a := by omega
    simp [tfind, this, ih w.2 (by omega)]

theorem memWrite_wfFrom {lo a : Nat} {b : Byte} {m : List Host.Cell} (h : lo ≤ a) (w : Memory.wfFrom lo m = true) :
    Memory.wfFrom lo (memWrite a b m) = true := by
  induction m generalizing lo with
  | nil =>
    by_cases hb : b = memDefault
    · simp [memWrite, hb, Memory.wfFrom]
    · simp only [memWrite, hb, if_false, Memory.wfFrom]
      simpa [h, memDefault] using hb
  | cons p r ih =>
    obtain ⟨x, y⟩ := p
    simp only [Memory.wfFrom, Bool.and_eq_true, decide_eq_true_eq] at w
    obtain ⟨⟨h1, h2⟩, h3⟩ := w
    simp only [memWrite]
    split
    · by_cases hb : b = memDefault
      · simp [hb, Memory.wfFrom, h1, h3]; simpa using h2
      · simp only [hb, if_false, Memory.wfFrom, Bool.and_eq_true, decide_eq_true_eq]
        exact ⟨⟨h, by simpa [memDefault] using hb⟩, ⟨by omega, h2⟩, h3⟩
    · split
      · rename_i hlt he
        subst he
        by_cases hb : b = memDefault
        · simp only [hb, if_true]
          exact Memory.wfFrom_mono (by omega) h3
        · simp only [hb, if_false, Memory.wfFrom, Bool.and_eq_true, decide_eq_true_eq]
          exact ⟨⟨h, by simpa [memDefault] using hb⟩, h3⟩
      · simp only [Memory.wfFrom, Bool.and_eq_true, decide_eq_true_eq]
        exact ⟨⟨h1, h2⟩, ih (by omega) h3⟩

/-- A write keeps the canonical form. -/
theorem memWrite_wf {a : Nat} {b : Byte} {m : List Host.Cell} (w : Memory.wf m = true) :
    Memory.wf (memWrite a b m) = true := memWrite_wfFrom (Nat.zero_le a) w

/-- Writes of a string keep the canonical form. -/
theorem memWrites_wf {a : Nat} {bs : List Byte} {m : List Host.Cell} (w : Memory.wf m = true) :
    Memory.wf (memWrites a bs m) = true := by
  induction bs generalizing a m with
  | nil => exact w
  | cons b r ih => exact ih (memWrite_wf w)

theorem memRead_memWrite_from {lo : Nat} (a x : Nat) (b : Byte) {m : List Host.Cell} (w : Memory.wfFrom lo m = true) :
    memRead (memWrite a b m) x = if x = a then b else memRead m x := by
  induction m generalizing lo with
  | nil =>
    by_cases hb : b = memDefault
    · by_cases hx : x = a <;> simp [memWrite, memRead, tget, tfind, hb, hx]
    · by_cases hx : x = a
      · simp [memWrite, memRead, tget, tfind, hb, hx]
      · simp [memWrite, memRead, tget, tfind, hb, hx, Ne.symm hx]
  | cons p r ih =>
    obtain ⟨y, v⟩ := p
    simp only [Memory.wfFrom, Bool.and_eq_true, decide_eq_true_eq] at w
    have ihr := ih w.2
    have low : ∀ z, z ≤ y → tfind z r = none := fun z hz => tfind_below w.2 (by omega)
    simp only [memRead, tget] at ihr ⊢
    simp only [memWrite]
    split
    · rename_i hlt
      by_cases hb : b = memDefault
      · by_cases hx : x = a
        · have : y ≠ a := by omega
          simp [hb, hx, tfind, this, low a (by omega)]
        · simp [hb, hx]
      · by_cases hx : x = a
        · simp [hb, hx, tfind]
        · simp [hb, hx, tfind, Ne.symm hx]
    · split
      · rename_i hlt he
        subst he
        by_cases hb : b = memDefault
        · by_cases hx : x = a
          · simp [hb, hx, low a (Nat.le_refl a)]
          · simp [hb, hx, tfind, Ne.symm hx]
        · by_cases hx : x = a
          · simp [hb, hx, tfind]
          · simp [hb, hx, tfind, Ne.symm hx]
      · rename_i hlt he
        by_cases hyx : y = x
        · subst hyx
          have : y ≠ a := fun e => he e.symm
          simp [tfind, this]
        · simp [tfind, hyx, ihr]

/-- A byte read after a write. -/
theorem memRead_memWrite (a x : Nat) (b : Byte) {m : List Host.Cell} (w : Memory.wf m = true) :
    memRead (memWrite a b m) x = if x = a then b else memRead m x := memRead_memWrite_from a x b w

/-- A byte outside the bytes written reads as before. -/
theorem memRead_memWrites_outside {a x : Nat} {bs : List Byte} {m : List Host.Cell} (w : Memory.wf m = true)
    (h : x < a ∨ a + bs.length ≤ x) : memRead (memWrites a bs m) x = memRead m x := by
  induction bs generalizing a m with
  | nil => rfl
  | cons b r ih =>
    simp only [List.length_cons] at h
    simp only [memWrites]
    rw [ih (memWrite_wf w) (by omega), memRead_memWrite a x b w, if_neg (by omega)]

/-- A byte among those written reads as it was written. -/
theorem memRead_memWrites_inside {a i : Nat} {bs : List Byte} {m : List Host.Cell} (w : Memory.wf m = true)
    (h : i < bs.length) : memRead (memWrites a bs m) (a + i) = bs.getD i 0 := by
  induction bs generalizing a i m with
  | nil => simp at h
  | cons b r ih =>
    simp only [memWrites]
    cases i with
    | zero =>
      rw [memRead_memWrites_outside (memWrite_wf w) (by omega), memRead_memWrite _ _ _ w]
      simp
    | succ i =>
      have := ih (a := a + 1) (i := i) (m := memWrite a b m) (memWrite_wf w) (by simpa using h)
      rw [show a + (i + 1) = a + 1 + i by omega, this]
      simp

end Sys2Proof.Machine
end

