-- ==== Sys2Proof/Laws/State.lean ====
section
/-! SUPPORT. What each named update of the state leaves as it was: one lemma for a field and an update, all by `rfl`;
and what the accessor of an updated agent gives. -/

namespace Sys2Proof.Machine

open Sys2Proof

@[simp] theorem State.setCore_boot (s : State) (c : Nat) (x : Core) : (s.setCore c x).boot = s.boot := rfl
@[simp] theorem State.setCore_pf0 (s : State) (c : Nat) (x : Core) : (s.setCore c x).pf0 = s.pf0 := rfl
@[simp] theorem State.setCore_quads (s : State) (c : Nat) (x : Core) : (s.setCore c x).quads = s.quads := rfl
@[simp] theorem State.setCore_dies (s : State) (c : Nat) (x : Core) : (s.setCore c x).dies = s.dies := rfl
@[simp] theorem State.setCore_slices (s : State) (c : Nat) (x : Core) : (s.setCore c x).slices = s.slices := rfl
@[simp] theorem State.setCore_fns (s : State) (c : Nat) (x : Core) : (s.setCore c x).fns = s.fns := rfl
@[simp] theorem State.setCore_mem (s : State) (c : Nat) (x : Core) : (s.setCore c x).mem = s.mem := rfl
@[simp] theorem State.setCore_memKey (s : State) (c : Nat) (x : Core) : (s.setCore c x).memKey = s.memKey := rfl
@[simp] theorem State.setCore_poison (s : State) (c : Nat) (x : Core) : (s.setCore c x).poison = s.poison := rfl
@[simp] theorem State.setCore_rereads (s : State) (c : Nat) (x : Core) : (s.setCore c x).rereads = s.rereads := rfl
@[simp] theorem State.setCore_reqs (s : State) (c : Nat) (x : Core) : (s.setCore c x).reqs = s.reqs := rfl
@[simp] theorem State.setCore_invs (s : State) (c : Nat) (x : Core) : (s.setCore c x).invs = s.invs := rfl
@[simp] theorem State.setCore_watchMsgs (s : State) (c : Nat) (x : Core) : (s.setCore c x).watchMsgs = s.watchMsgs := rfl
@[simp] theorem State.setCore_exports (s : State) (c : Nat) (x : Core) : (s.setCore c x).exports = s.exports := rfl
@[simp] theorem State.setCore_failedMarks (s : State) (c : Nat) (x : Core) : (s.setCore c x).failedMarks = s.failedMarks := rfl
@[simp] theorem State.setCore_links (s : State) (c : Nat) (x : Core) : (s.setCore c x).links = s.links := rfl
@[simp] theorem State.setCore_log (s : State) (c : Nat) (x : Core) : (s.setCore c x).log = s.log := rfl
@[simp] theorem State.setCore_out (s : State) (c : Nat) (x : Core) : (s.setCore c x).out = s.out := rfl
@[simp] theorem State.setCore_wall (s : State) (c : Nat) (x : Core) : (s.setCore c x).wall = s.wall := rfl
@[simp] theorem State.setCore_timer (s : State) (c : Nat) (x : Core) : (s.setCore c x).timer = s.timer := rfl
@[simp] theorem State.setCore_nextKey (s : State) (c : Nat) (x : Core) : (s.setCore c x).nextKey = s.nextKey := rfl
@[simp] theorem State.setCore_nextId (s : State) (c : Nat) (x : Core) : (s.setCore c x).nextId = s.nextId := rfl
@[simp] theorem State.setCore_freeCtr (s : State) (c : Nat) (x : Core) : (s.setCore c x).freeCtr = s.freeCtr := rfl
@[simp] theorem State.setCore_actor (s : State) (c : Nat) (x : Core) : (s.setCore c x).actor = s.actor := rfl
@[simp] theorem State.setCore_schedule (s : State) (c : Nat) (x : Core) : (s.setCore c x).schedule = s.schedule := rfl
@[simp] theorem State.setCore_inbox (s : State) (c : Nat) (x : Core) : (s.setCore c x).inbox = s.inbox := rfl
@[simp] theorem State.setCore_cur (s : State) (c : Nat) (x : Core) : (s.setCore c x).cur = s.cur := rfl
@[simp] theorem State.setCore_quad (s : State) (c : Nat) (x : Core) (k : Nat) : (s.setCore c x).quad k = s.quad k := rfl
@[simp] theorem State.setCore_die (s : State) (c : Nat) (x : Core) (k : Nat) : (s.setCore c x).die k = s.die k := rfl
@[simp] theorem State.setCore_slice (s : State) (c : Nat) (x : Core) (k : Nat) : (s.setCore c x).slice k = s.slice k := rfl
@[simp] theorem State.setCore_fn (s : State) (c : Nat) (x : Core) (k : Nat) : (s.setCore c x).fn k = s.fn k := rfl
@[simp] theorem State.setCore_wq (s : State) (c : Nat) (x : Core) (k j : Nat) : (s.setCore c x).wq k j = s.wq k j := rfl
@[simp] theorem State.setCore_req (s : State) (c : Nat) (x : Core) (k : Nat) : (s.setCore c x).req k = s.req k := rfl

@[simp] theorem State.updCore_boot (s : State) (c : Nat) (f : Core → Core) : (s.updCore c f).boot = s.boot := rfl
@[simp] theorem State.updCore_pf0 (s : State) (c : Nat) (f : Core → Core) : (s.updCore c f).pf0 = s.pf0 := rfl
@[simp] theorem State.updCore_quads (s : State) (c : Nat) (f : Core → Core) : (s.updCore c f).quads = s.quads := rfl
@[simp] theorem State.updCore_dies (s : State) (c : Nat) (f : Core → Core) : (s.updCore c f).dies = s.dies := rfl
@[simp] theorem State.updCore_slices (s : State) (c : Nat) (f : Core → Core) : (s.updCore c f).slices = s.slices := rfl
@[simp] theorem State.updCore_fns (s : State) (c : Nat) (f : Core → Core) : (s.updCore c f).fns = s.fns := rfl
@[simp] theorem State.updCore_mem (s : State) (c : Nat) (f : Core → Core) : (s.updCore c f).mem = s.mem := rfl
@[simp] theorem State.updCore_memKey (s : State) (c : Nat) (f : Core → Core) : (s.updCore c f).memKey = s.memKey := rfl
@[simp] theorem State.updCore_poison (s : State) (c : Nat) (f : Core → Core) : (s.updCore c f).poison = s.poison := rfl
@[simp] theorem State.updCore_rereads (s : State) (c : Nat) (f : Core → Core) : (s.updCore c f).rereads = s.rereads := rfl
@[simp] theorem State.updCore_reqs (s : State) (c : Nat) (f : Core → Core) : (s.updCore c f).reqs = s.reqs := rfl
@[simp] theorem State.updCore_invs (s : State) (c : Nat) (f : Core → Core) : (s.updCore c f).invs = s.invs := rfl
@[simp] theorem State.updCore_watchMsgs (s : State) (c : Nat) (f : Core → Core) : (s.updCore c f).watchMsgs = s.watchMsgs := rfl
@[simp] theorem State.updCore_exports (s : State) (c : Nat) (f : Core → Core) : (s.updCore c f).exports = s.exports := rfl
@[simp] theorem State.updCore_failedMarks (s : State) (c : Nat) (f : Core → Core) : (s.updCore c f).failedMarks = s.failedMarks := rfl
@[simp] theorem State.updCore_links (s : State) (c : Nat) (f : Core → Core) : (s.updCore c f).links = s.links := rfl
@[simp] theorem State.updCore_log (s : State) (c : Nat) (f : Core → Core) : (s.updCore c f).log = s.log := rfl
@[simp] theorem State.updCore_out (s : State) (c : Nat) (f : Core → Core) : (s.updCore c f).out = s.out := rfl
@[simp] theorem State.updCore_wall (s : State) (c : Nat) (f : Core → Core) : (s.updCore c f).wall = s.wall := rfl
@[simp] theorem State.updCore_timer (s : State) (c : Nat) (f : Core → Core) : (s.updCore c f).timer = s.timer := rfl
@[simp] theorem State.updCore_nextKey (s : State) (c : Nat) (f : Core → Core) : (s.updCore c f).nextKey = s.nextKey := rfl
@[simp] theorem State.updCore_nextId (s : State) (c : Nat) (f : Core → Core) : (s.updCore c f).nextId = s.nextId := rfl
@[simp] theorem State.updCore_freeCtr (s : State) (c : Nat) (f : Core → Core) : (s.updCore c f).freeCtr = s.freeCtr := rfl
@[simp] theorem State.updCore_actor (s : State) (c : Nat) (f : Core → Core) : (s.updCore c f).actor = s.actor := rfl
@[simp] theorem State.updCore_schedule (s : State) (c : Nat) (f : Core → Core) : (s.updCore c f).schedule = s.schedule := rfl
@[simp] theorem State.updCore_inbox (s : State) (c : Nat) (f : Core → Core) : (s.updCore c f).inbox = s.inbox := rfl
@[simp] theorem State.updCore_cur (s : State) (c : Nat) (f : Core → Core) : (s.updCore c f).cur = s.cur := rfl
@[simp] theorem State.updCore_quad (s : State) (c : Nat) (f : Core → Core) (k : Nat) : (s.updCore c f).quad k = s.quad k := rfl
@[simp] theorem State.updCore_die (s : State) (c : Nat) (f : Core → Core) (k : Nat) : (s.updCore c f).die k = s.die k := rfl
@[simp] theorem State.updCore_slice (s : State) (c : Nat) (f : Core → Core) (k : Nat) : (s.updCore c f).slice k = s.slice k := rfl
@[simp] theorem State.updCore_fn (s : State) (c : Nat) (f : Core → Core) (k : Nat) : (s.updCore c f).fn k = s.fn k := rfl
@[simp] theorem State.updCore_wq (s : State) (c : Nat) (f : Core → Core) (k j : Nat) : (s.updCore c f).wq k j = s.wq k j := rfl
@[simp] theorem State.updCore_req (s : State) (c : Nat) (f : Core → Core) (k : Nat) : (s.updCore c f).req k = s.req k := rfl

@[simp] theorem State.updSeq_boot (s : State) (c : Nat) (f : Seq → Seq) : (s.updSeq c f).boot = s.boot := rfl
@[simp] theorem State.updSeq_pf0 (s : State) (c : Nat) (f : Seq → Seq) : (s.updSeq c f).pf0 = s.pf0 := rfl
@[simp] theorem State.updSeq_quads (s : State) (c : Nat) (f : Seq → Seq) : (s.updSeq c f).quads = s.quads := rfl
@[simp] theorem State.updSeq_dies (s : State) (c : Nat) (f : Seq → Seq) : (s.updSeq c f).dies = s.dies := rfl
@[simp] theorem State.updSeq_slices (s : State) (c : Nat) (f : Seq → Seq) : (s.updSeq c f).slices = s.slices := rfl
@[simp] theorem State.updSeq_fns (s : State) (c : Nat) (f : Seq → Seq) : (s.updSeq c f).fns = s.fns := rfl
@[simp] theorem State.updSeq_mem (s : State) (c : Nat) (f : Seq → Seq) : (s.updSeq c f).mem = s.mem := rfl
@[simp] theorem State.updSeq_memKey (s : State) (c : Nat) (f : Seq → Seq) : (s.updSeq c f).memKey = s.memKey := rfl
@[simp] theorem State.updSeq_poison (s : State) (c : Nat) (f : Seq → Seq) : (s.updSeq c f).poison = s.poison := rfl
@[simp] theorem State.updSeq_rereads (s : State) (c : Nat) (f : Seq → Seq) : (s.updSeq c f).rereads = s.rereads := rfl
@[simp] theorem State.updSeq_reqs (s : State) (c : Nat) (f : Seq → Seq) : (s.updSeq c f).reqs = s.reqs := rfl
@[simp] theorem State.updSeq_invs (s : State) (c : Nat) (f : Seq → Seq) : (s.updSeq c f).invs = s.invs := rfl
@[simp] theorem State.updSeq_watchMsgs (s : State) (c : Nat) (f : Seq → Seq) : (s.updSeq c f).watchMsgs = s.watchMsgs := rfl
@[simp] theorem State.updSeq_exports (s : State) (c : Nat) (f : Seq → Seq) : (s.updSeq c f).exports = s.exports := rfl
@[simp] theorem State.updSeq_failedMarks (s : State) (c : Nat) (f : Seq → Seq) : (s.updSeq c f).failedMarks = s.failedMarks := rfl
@[simp] theorem State.updSeq_links (s : State) (c : Nat) (f : Seq → Seq) : (s.updSeq c f).links = s.links := rfl
@[simp] theorem State.updSeq_log (s : State) (c : Nat) (f : Seq → Seq) : (s.updSeq c f).log = s.log := rfl
@[simp] theorem State.updSeq_out (s : State) (c : Nat) (f : Seq → Seq) : (s.updSeq c f).out = s.out := rfl
@[simp] theorem State.updSeq_wall (s : State) (c : Nat) (f : Seq → Seq) : (s.updSeq c f).wall = s.wall := rfl
@[simp] theorem State.updSeq_timer (s : State) (c : Nat) (f : Seq → Seq) : (s.updSeq c f).timer = s.timer := rfl
@[simp] theorem State.updSeq_nextKey (s : State) (c : Nat) (f : Seq → Seq) : (s.updSeq c f).nextKey = s.nextKey := rfl
@[simp] theorem State.updSeq_nextId (s : State) (c : Nat) (f : Seq → Seq) : (s.updSeq c f).nextId = s.nextId := rfl
@[simp] theorem State.updSeq_freeCtr (s : State) (c : Nat) (f : Seq → Seq) : (s.updSeq c f).freeCtr = s.freeCtr := rfl
@[simp] theorem State.updSeq_actor (s : State) (c : Nat) (f : Seq → Seq) : (s.updSeq c f).actor = s.actor := rfl
@[simp] theorem State.updSeq_schedule (s : State) (c : Nat) (f : Seq → Seq) : (s.updSeq c f).schedule = s.schedule := rfl
@[simp] theorem State.updSeq_inbox (s : State) (c : Nat) (f : Seq → Seq) : (s.updSeq c f).inbox = s.inbox := rfl
@[simp] theorem State.updSeq_cur (s : State) (c : Nat) (f : Seq → Seq) : (s.updSeq c f).cur = s.cur := rfl
@[simp] theorem State.updSeq_quad (s : State) (c : Nat) (f : Seq → Seq) (k : Nat) : (s.updSeq c f).quad k = s.quad k := rfl
@[simp] theorem State.updSeq_die (s : State) (c : Nat) (f : Seq → Seq) (k : Nat) : (s.updSeq c f).die k = s.die k := rfl
@[simp] theorem State.updSeq_slice (s : State) (c : Nat) (f : Seq → Seq) (k : Nat) : (s.updSeq c f).slice k = s.slice k := rfl
@[simp] theorem State.updSeq_fn (s : State) (c : Nat) (f : Seq → Seq) (k : Nat) : (s.updSeq c f).fn k = s.fn k := rfl
@[simp] theorem State.updSeq_wq (s : State) (c : Nat) (f : Seq → Seq) (k j : Nat) : (s.updSeq c f).wq k j = s.wq k j := rfl
@[simp] theorem State.updSeq_req (s : State) (c : Nat) (f : Seq → Seq) (k : Nat) : (s.updSeq c f).req k = s.req k := rfl

@[simp] theorem State.updQuad_boot (s : State) (q : Nat) (f : Quad → Quad) : (s.updQuad q f).boot = s.boot := rfl
@[simp] theorem State.updQuad_pf0 (s : State) (q : Nat) (f : Quad → Quad) : (s.updQuad q f).pf0 = s.pf0 := rfl
@[simp] theorem State.updQuad_cores (s : State) (q : Nat) (f : Quad → Quad) : (s.updQuad q f).cores = s.cores := rfl
@[simp] theorem State.updQuad_dies (s : State) (q : Nat) (f : Quad → Quad) : (s.updQuad q f).dies = s.dies := rfl
@[simp] theorem State.updQuad_slices (s : State) (q : Nat) (f : Quad → Quad) : (s.updQuad q f).slices = s.slices := rfl
@[simp] theorem State.updQuad_fns (s : State) (q : Nat) (f : Quad → Quad) : (s.updQuad q f).fns = s.fns := rfl
@[simp] theorem State.updQuad_mem (s : State) (q : Nat) (f : Quad → Quad) : (s.updQuad q f).mem = s.mem := rfl
@[simp] theorem State.updQuad_memKey (s : State) (q : Nat) (f : Quad → Quad) : (s.updQuad q f).memKey = s.memKey := rfl
@[simp] theorem State.updQuad_poison (s : State) (q : Nat) (f : Quad → Quad) : (s.updQuad q f).poison = s.poison := rfl
@[simp] theorem State.updQuad_rereads (s : State) (q : Nat) (f : Quad → Quad) : (s.updQuad q f).rereads = s.rereads := rfl
@[simp] theorem State.updQuad_reqs (s : State) (q : Nat) (f : Quad → Quad) : (s.updQuad q f).reqs = s.reqs := rfl
@[simp] theorem State.updQuad_invs (s : State) (q : Nat) (f : Quad → Quad) : (s.updQuad q f).invs = s.invs := rfl
@[simp] theorem State.updQuad_watchMsgs (s : State) (q : Nat) (f : Quad → Quad) : (s.updQuad q f).watchMsgs = s.watchMsgs := rfl
@[simp] theorem State.updQuad_exports (s : State) (q : Nat) (f : Quad → Quad) : (s.updQuad q f).exports = s.exports := rfl
@[simp] theorem State.updQuad_failedMarks (s : State) (q : Nat) (f : Quad → Quad) : (s.updQuad q f).failedMarks = s.failedMarks := rfl
@[simp] theorem State.updQuad_links (s : State) (q : Nat) (f : Quad → Quad) : (s.updQuad q f).links = s.links := rfl
@[simp] theorem State.updQuad_log (s : State) (q : Nat) (f : Quad → Quad) : (s.updQuad q f).log = s.log := rfl
@[simp] theorem State.updQuad_out (s : State) (q : Nat) (f : Quad → Quad) : (s.updQuad q f).out = s.out := rfl
@[simp] theorem State.updQuad_wall (s : State) (q : Nat) (f : Quad → Quad) : (s.updQuad q f).wall = s.wall := rfl
@[simp] theorem State.updQuad_timer (s : State) (q : Nat) (f : Quad → Quad) : (s.updQuad q f).timer = s.timer := rfl
@[simp] theorem State.updQuad_nextKey (s : State) (q : Nat) (f : Quad → Quad) : (s.updQuad q f).nextKey = s.nextKey := rfl
@[simp] theorem State.updQuad_nextId (s : State) (q : Nat) (f : Quad → Quad) : (s.updQuad q f).nextId = s.nextId := rfl
@[simp] theorem State.updQuad_freeCtr (s : State) (q : Nat) (f : Quad → Quad) : (s.updQuad q f).freeCtr = s.freeCtr := rfl
@[simp] theorem State.updQuad_actor (s : State) (q : Nat) (f : Quad → Quad) : (s.updQuad q f).actor = s.actor := rfl
@[simp] theorem State.updQuad_schedule (s : State) (q : Nat) (f : Quad → Quad) : (s.updQuad q f).schedule = s.schedule := rfl
@[simp] theorem State.updQuad_inbox (s : State) (q : Nat) (f : Quad → Quad) : (s.updQuad q f).inbox = s.inbox := rfl
@[simp] theorem State.updQuad_cur (s : State) (q : Nat) (f : Quad → Quad) : (s.updQuad q f).cur = s.cur := rfl
@[simp] theorem State.updQuad_core (s : State) (q : Nat) (f : Quad → Quad) (k : Nat) : (s.updQuad q f).core k = s.core k := rfl
@[simp] theorem State.updQuad_seq (s : State) (q : Nat) (f : Quad → Quad) (k : Nat) : (s.updQuad q f).seq k = s.seq k := rfl
@[simp] theorem State.updQuad_die (s : State) (q : Nat) (f : Quad → Quad) (k : Nat) : (s.updQuad q f).die k = s.die k := rfl
@[simp] theorem State.updQuad_slice (s : State) (q : Nat) (f : Quad → Quad) (k : Nat) : (s.updQuad q f).slice k = s.slice k := rfl
@[simp] theorem State.updQuad_fn (s : State) (q : Nat) (f : Quad → Quad) (k : Nat) : (s.updQuad q f).fn k = s.fn k := rfl
@[simp] theorem State.updQuad_wq (s : State) (q : Nat) (f : Quad → Quad) (k j : Nat) : (s.updQuad q f).wq k j = s.wq k j := rfl
@[simp] theorem State.updQuad_req (s : State) (q : Nat) (f : Quad → Quad) (k : Nat) : (s.updQuad q f).req k = s.req k := rfl

@[simp] theorem State.updDie_boot (s : State) (d : Nat) (f : Die → Die) : (s.updDie d f).boot = s.boot := rfl
@[simp] theorem State.updDie_pf0 (s : State) (d : Nat) (f : Die → Die) : (s.updDie d f).pf0 = s.pf0 := rfl
@[simp] theorem State.updDie_cores (s : State) (d : Nat) (f : Die → Die) : (s.updDie d f).cores = s.cores := rfl
@[simp] theorem State.updDie_quads (s : State) (d : Nat) (f : Die → Die) : (s.updDie d f).quads = s.quads := rfl
@[simp] theorem State.updDie_slices (s : State) (d : Nat) (f : Die → Die) : (s.updDie d f).slices = s.slices := rfl
@[simp] theorem State.updDie_fns (s : State) (d : Nat) (f : Die → Die) : (s.updDie d f).fns = s.fns := rfl
@[simp] theorem State.updDie_mem (s : State) (d : Nat) (f : Die → Die) : (s.updDie d f).mem = s.mem := rfl
@[simp] theorem State.updDie_memKey (s : State) (d : Nat) (f : Die → Die) : (s.updDie d f).memKey = s.memKey := rfl
@[simp] theorem State.updDie_poison (s : State) (d : Nat) (f : Die → Die) : (s.updDie d f).poison = s.poison := rfl
@[simp] theorem State.updDie_rereads (s : State) (d : Nat) (f : Die → Die) : (s.updDie d f).rereads = s.rereads := rfl
@[simp] theorem State.updDie_reqs (s : State) (d : Nat) (f : Die → Die) : (s.updDie d f).reqs = s.reqs := rfl
@[simp] theorem State.updDie_invs (s : State) (d : Nat) (f : Die → Die) : (s.updDie d f).invs = s.invs := rfl
@[simp] theorem State.updDie_watchMsgs (s : State) (d : Nat) (f : Die → Die) : (s.updDie d f).watchMsgs = s.watchMsgs := rfl
@[simp] theorem State.updDie_exports (s : State) (d : Nat) (f : Die → Die) : (s.updDie d f).exports = s.exports := rfl
@[simp] theorem State.updDie_failedMarks (s : State) (d : Nat) (f : Die → Die) : (s.updDie d f).failedMarks = s.failedMarks := rfl
@[simp] theorem State.updDie_links (s : State) (d : Nat) (f : Die → Die) : (s.updDie d f).links = s.links := rfl
@[simp] theorem State.updDie_log (s : State) (d : Nat) (f : Die → Die) : (s.updDie d f).log = s.log := rfl
@[simp] theorem State.updDie_out (s : State) (d : Nat) (f : Die → Die) : (s.updDie d f).out = s.out := rfl
@[simp] theorem State.updDie_wall (s : State) (d : Nat) (f : Die → Die) : (s.updDie d f).wall = s.wall := rfl
@[simp] theorem State.updDie_timer (s : State) (d : Nat) (f : Die → Die) : (s.updDie d f).timer = s.timer := rfl
@[simp] theorem State.updDie_nextKey (s : State) (d : Nat) (f : Die → Die) : (s.updDie d f).nextKey = s.nextKey := rfl
@[simp] theorem State.updDie_nextId (s : State) (d : Nat) (f : Die → Die) : (s.updDie d f).nextId = s.nextId := rfl
@[simp] theorem State.updDie_freeCtr (s : State) (d : Nat) (f : Die → Die) : (s.updDie d f).freeCtr = s.freeCtr := rfl
@[simp] theorem State.updDie_actor (s : State) (d : Nat) (f : Die → Die) : (s.updDie d f).actor = s.actor := rfl
@[simp] theorem State.updDie_schedule (s : State) (d : Nat) (f : Die → Die) : (s.updDie d f).schedule = s.schedule := rfl
@[simp] theorem State.updDie_inbox (s : State) (d : Nat) (f : Die → Die) : (s.updDie d f).inbox = s.inbox := rfl
@[simp] theorem State.updDie_cur (s : State) (d : Nat) (f : Die → Die) : (s.updDie d f).cur = s.cur := rfl
@[simp] theorem State.updDie_core (s : State) (d : Nat) (f : Die → Die) (k : Nat) : (s.updDie d f).core k = s.core k := rfl
@[simp] theorem State.updDie_seq (s : State) (d : Nat) (f : Die → Die) (k : Nat) : (s.updDie d f).seq k = s.seq k := rfl
@[simp] theorem State.updDie_quad (s : State) (d : Nat) (f : Die → Die) (k : Nat) : (s.updDie d f).quad k = s.quad k := rfl
@[simp] theorem State.updDie_slice (s : State) (d : Nat) (f : Die → Die) (k : Nat) : (s.updDie d f).slice k = s.slice k := rfl
@[simp] theorem State.updDie_fn (s : State) (d : Nat) (f : Die → Die) (k : Nat) : (s.updDie d f).fn k = s.fn k := rfl
@[simp] theorem State.updDie_wq (s : State) (d : Nat) (f : Die → Die) (k j : Nat) : (s.updDie d f).wq k j = s.wq k j := rfl
@[simp] theorem State.updDie_req (s : State) (d : Nat) (f : Die → Die) (k : Nat) : (s.updDie d f).req k = s.req k := rfl

@[simp] theorem State.updSlice_boot (s : State) (i : Nat) (f : Slice → Slice) : (s.updSlice i f).boot = s.boot := rfl
@[simp] theorem State.updSlice_pf0 (s : State) (i : Nat) (f : Slice → Slice) : (s.updSlice i f).pf0 = s.pf0 := rfl
@[simp] theorem State.updSlice_cores (s : State) (i : Nat) (f : Slice → Slice) : (s.updSlice i f).cores = s.cores := rfl
@[simp] theorem State.updSlice_quads (s : State) (i : Nat) (f : Slice → Slice) : (s.updSlice i f).quads = s.quads := rfl
@[simp] theorem State.updSlice_dies (s : State) (i : Nat) (f : Slice → Slice) : (s.updSlice i f).dies = s.dies := rfl
@[simp] theorem State.updSlice_fns (s : State) (i : Nat) (f : Slice → Slice) : (s.updSlice i f).fns = s.fns := rfl
@[simp] theorem State.updSlice_mem (s : State) (i : Nat) (f : Slice → Slice) : (s.updSlice i f).mem = s.mem := rfl
@[simp] theorem State.updSlice_memKey (s : State) (i : Nat) (f : Slice → Slice) : (s.updSlice i f).memKey = s.memKey := rfl
@[simp] theorem State.updSlice_poison (s : State) (i : Nat) (f : Slice → Slice) : (s.updSlice i f).poison = s.poison := rfl
@[simp] theorem State.updSlice_rereads (s : State) (i : Nat) (f : Slice → Slice) : (s.updSlice i f).rereads = s.rereads := rfl
@[simp] theorem State.updSlice_reqs (s : State) (i : Nat) (f : Slice → Slice) : (s.updSlice i f).reqs = s.reqs := rfl
@[simp] theorem State.updSlice_invs (s : State) (i : Nat) (f : Slice → Slice) : (s.updSlice i f).invs = s.invs := rfl
@[simp] theorem State.updSlice_watchMsgs (s : State) (i : Nat) (f : Slice → Slice) : (s.updSlice i f).watchMsgs = s.watchMsgs := rfl
@[simp] theorem State.updSlice_exports (s : State) (i : Nat) (f : Slice → Slice) : (s.updSlice i f).exports = s.exports := rfl
@[simp] theorem State.updSlice_failedMarks (s : State) (i : Nat) (f : Slice → Slice) : (s.updSlice i f).failedMarks = s.failedMarks := rfl
@[simp] theorem State.updSlice_links (s : State) (i : Nat) (f : Slice → Slice) : (s.updSlice i f).links = s.links := rfl
@[simp] theorem State.updSlice_log (s : State) (i : Nat) (f : Slice → Slice) : (s.updSlice i f).log = s.log := rfl
@[simp] theorem State.updSlice_out (s : State) (i : Nat) (f : Slice → Slice) : (s.updSlice i f).out = s.out := rfl
@[simp] theorem State.updSlice_wall (s : State) (i : Nat) (f : Slice → Slice) : (s.updSlice i f).wall = s.wall := rfl
@[simp] theorem State.updSlice_timer (s : State) (i : Nat) (f : Slice → Slice) : (s.updSlice i f).timer = s.timer := rfl
@[simp] theorem State.updSlice_nextKey (s : State) (i : Nat) (f : Slice → Slice) : (s.updSlice i f).nextKey = s.nextKey := rfl
@[simp] theorem State.updSlice_nextId (s : State) (i : Nat) (f : Slice → Slice) : (s.updSlice i f).nextId = s.nextId := rfl
@[simp] theorem State.updSlice_freeCtr (s : State) (i : Nat) (f : Slice → Slice) : (s.updSlice i f).freeCtr = s.freeCtr := rfl
@[simp] theorem State.updSlice_actor (s : State) (i : Nat) (f : Slice → Slice) : (s.updSlice i f).actor = s.actor := rfl
@[simp] theorem State.updSlice_schedule (s : State) (i : Nat) (f : Slice → Slice) : (s.updSlice i f).schedule = s.schedule := rfl
@[simp] theorem State.updSlice_inbox (s : State) (i : Nat) (f : Slice → Slice) : (s.updSlice i f).inbox = s.inbox := rfl
@[simp] theorem State.updSlice_cur (s : State) (i : Nat) (f : Slice → Slice) : (s.updSlice i f).cur = s.cur := rfl
@[simp] theorem State.updSlice_core (s : State) (i : Nat) (f : Slice → Slice) (k : Nat) : (s.updSlice i f).core k = s.core k := rfl
@[simp] theorem State.updSlice_seq (s : State) (i : Nat) (f : Slice → Slice) (k : Nat) : (s.updSlice i f).seq k = s.seq k := rfl
@[simp] theorem State.updSlice_quad (s : State) (i : Nat) (f : Slice → Slice) (k : Nat) : (s.updSlice i f).quad k = s.quad k := rfl
@[simp] theorem State.updSlice_die (s : State) (i : Nat) (f : Slice → Slice) (k : Nat) : (s.updSlice i f).die k = s.die k := rfl
@[simp] theorem State.updSlice_fn (s : State) (i : Nat) (f : Slice → Slice) (k : Nat) : (s.updSlice i f).fn k = s.fn k := rfl
@[simp] theorem State.updSlice_wq (s : State) (i : Nat) (f : Slice → Slice) (k j : Nat) : (s.updSlice i f).wq k j = s.wq k j := rfl
@[simp] theorem State.updSlice_req (s : State) (i : Nat) (f : Slice → Slice) (k : Nat) : (s.updSlice i f).req k = s.req k := rfl

@[simp] theorem State.updFn_boot (s : State) (n : Nat) (g : Func → Func) : (s.updFn n g).boot = s.boot := rfl
@[simp] theorem State.updFn_pf0 (s : State) (n : Nat) (g : Func → Func) : (s.updFn n g).pf0 = s.pf0 := rfl
@[simp] theorem State.updFn_cores (s : State) (n : Nat) (g : Func → Func) : (s.updFn n g).cores = s.cores := rfl
@[simp] theorem State.updFn_quads (s : State) (n : Nat) (g : Func → Func) : (s.updFn n g).quads = s.quads := rfl
@[simp] theorem State.updFn_dies (s : State) (n : Nat) (g : Func → Func) : (s.updFn n g).dies = s.dies := rfl
@[simp] theorem State.updFn_slices (s : State) (n : Nat) (g : Func → Func) : (s.updFn n g).slices = s.slices := rfl
@[simp] theorem State.updFn_mem (s : State) (n : Nat) (g : Func → Func) : (s.updFn n g).mem = s.mem := rfl
@[simp] theorem State.updFn_memKey (s : State) (n : Nat) (g : Func → Func) : (s.updFn n g).memKey = s.memKey := rfl
@[simp] theorem State.updFn_poison (s : State) (n : Nat) (g : Func → Func) : (s.updFn n g).poison = s.poison := rfl
@[simp] theorem State.updFn_rereads (s : State) (n : Nat) (g : Func → Func) : (s.updFn n g).rereads = s.rereads := rfl
@[simp] theorem State.updFn_reqs (s : State) (n : Nat) (g : Func → Func) : (s.updFn n g).reqs = s.reqs := rfl
@[simp] theorem State.updFn_invs (s : State) (n : Nat) (g : Func → Func) : (s.updFn n g).invs = s.invs := rfl
@[simp] theorem State.updFn_watchMsgs (s : State) (n : Nat) (g : Func → Func) : (s.updFn n g).watchMsgs = s.watchMsgs := rfl
@[simp] theorem State.updFn_exports (s : State) (n : Nat) (g : Func → Func) : (s.updFn n g).exports = s.exports := rfl
@[simp] theorem State.updFn_failedMarks (s : State) (n : Nat) (g : Func → Func) : (s.updFn n g).failedMarks = s.failedMarks := rfl
@[simp] theorem State.updFn_links (s : State) (n : Nat) (g : Func → Func) : (s.updFn n g).links = s.links := rfl
@[simp] theorem State.updFn_log (s : State) (n : Nat) (g : Func → Func) : (s.updFn n g).log = s.log := rfl
@[simp] theorem State.updFn_out (s : State) (n : Nat) (g : Func → Func) : (s.updFn n g).out = s.out := rfl
@[simp] theorem State.updFn_wall (s : State) (n : Nat) (g : Func → Func) : (s.updFn n g).wall = s.wall := rfl
@[simp] theorem State.updFn_timer (s : State) (n : Nat) (g : Func → Func) : (s.updFn n g).timer = s.timer := rfl
@[simp] theorem State.updFn_nextKey (s : State) (n : Nat) (g : Func → Func) : (s.updFn n g).nextKey = s.nextKey := rfl
@[simp] theorem State.updFn_nextId (s : State) (n : Nat) (g : Func → Func) : (s.updFn n g).nextId = s.nextId := rfl
@[simp] theorem State.updFn_freeCtr (s : State) (n : Nat) (g : Func → Func) : (s.updFn n g).freeCtr = s.freeCtr := rfl
@[simp] theorem State.updFn_actor (s : State) (n : Nat) (g : Func → Func) : (s.updFn n g).actor = s.actor := rfl
@[simp] theorem State.updFn_schedule (s : State) (n : Nat) (g : Func → Func) : (s.updFn n g).schedule = s.schedule := rfl
@[simp] theorem State.updFn_inbox (s : State) (n : Nat) (g : Func → Func) : (s.updFn n g).inbox = s.inbox := rfl
@[simp] theorem State.updFn_cur (s : State) (n : Nat) (g : Func → Func) : (s.updFn n g).cur = s.cur := rfl
@[simp] theorem State.updFn_core (s : State) (n : Nat) (g : Func → Func) (k : Nat) : (s.updFn n g).core k = s.core k := rfl
@[simp] theorem State.updFn_seq (s : State) (n : Nat) (g : Func → Func) (k : Nat) : (s.updFn n g).seq k = s.seq k := rfl
@[simp] theorem State.updFn_quad (s : State) (n : Nat) (g : Func → Func) (k : Nat) : (s.updFn n g).quad k = s.quad k := rfl
@[simp] theorem State.updFn_die (s : State) (n : Nat) (g : Func → Func) (k : Nat) : (s.updFn n g).die k = s.die k := rfl
@[simp] theorem State.updFn_slice (s : State) (n : Nat) (g : Func → Func) (k : Nat) : (s.updFn n g).slice k = s.slice k := rfl
@[simp] theorem State.updFn_req (s : State) (n : Nat) (g : Func → Func) (k : Nat) : (s.updFn n g).req k = s.req k := rfl

@[simp] theorem State.updWq_boot (s : State) (n q : Nat) (g : WorkQueue → WorkQueue) : (s.updWq n q g).boot = s.boot := rfl
@[simp] theorem State.updWq_pf0 (s : State) (n q : Nat) (g : WorkQueue → WorkQueue) : (s.updWq n q g).pf0 = s.pf0 := rfl
@[simp] theorem State.updWq_cores (s : State) (n q : Nat) (g : WorkQueue → WorkQueue) : (s.updWq n q g).cores = s.cores := rfl
@[simp] theorem State.updWq_quads (s : State) (n q : Nat) (g : WorkQueue → WorkQueue) : (s.updWq n q g).quads = s.quads := rfl
@[simp] theorem State.updWq_dies (s : State) (n q : Nat) (g : WorkQueue → WorkQueue) : (s.updWq n q g).dies = s.dies := rfl
@[simp] theorem State.updWq_slices (s : State) (n q : Nat) (g : WorkQueue → WorkQueue) : (s.updWq n q g).slices = s.slices := rfl
@[simp] theorem State.updWq_mem (s : State) (n q : Nat) (g : WorkQueue → WorkQueue) : (s.updWq n q g).mem = s.mem := rfl
@[simp] theorem State.updWq_memKey (s : State) (n q : Nat) (g : WorkQueue → WorkQueue) : (s.updWq n q g).memKey = s.memKey := rfl
@[simp] theorem State.updWq_poison (s : State) (n q : Nat) (g : WorkQueue → WorkQueue) : (s.updWq n q g).poison = s.poison := rfl
@[simp] theorem State.updWq_rereads (s : State) (n q : Nat) (g : WorkQueue → WorkQueue) : (s.updWq n q g).rereads = s.rereads := rfl
@[simp] theorem State.updWq_reqs (s : State) (n q : Nat) (g : WorkQueue → WorkQueue) : (s.updWq n q g).reqs = s.reqs := rfl
@[simp] theorem State.updWq_invs (s : State) (n q : Nat) (g : WorkQueue → WorkQueue) : (s.updWq n q g).invs = s.invs := rfl
@[simp] theorem State.updWq_watchMsgs (s : State) (n q : Nat) (g : WorkQueue → WorkQueue) : (s.updWq n q g).watchMsgs = s.watchMsgs := rfl
@[simp] theorem State.updWq_exports (s : State) (n q : Nat) (g : WorkQueue → WorkQueue) : (s.updWq n q g).exports = s.exports := rfl
@[simp] theorem State.updWq_failedMarks (s : State) (n q : Nat) (g : WorkQueue → WorkQueue) : (s.updWq n q g).failedMarks = s.failedMarks := rfl
@[simp] theorem State.updWq_links (s : State) (n q : Nat) (g : WorkQueue → WorkQueue) : (s.updWq n q g).links = s.links := rfl
@[simp] theorem State.updWq_log (s : State) (n q : Nat) (g : WorkQueue → WorkQueue) : (s.updWq n q g).log = s.log := rfl
@[simp] theorem State.updWq_out (s : State) (n q : Nat) (g : WorkQueue → WorkQueue) : (s.updWq n q g).out = s.out := rfl
@[simp] theorem State.updWq_wall (s : State) (n q : Nat) (g : WorkQueue → WorkQueue) : (s.updWq n q g).wall = s.wall := rfl
@[simp] theorem State.updWq_timer (s : State) (n q : Nat) (g : WorkQueue → WorkQueue) : (s.updWq n q g).timer = s.timer := rfl
@[simp] theorem State.updWq_nextKey (s : State) (n q : Nat) (g : WorkQueue → WorkQueue) : (s.updWq n q g).nextKey = s.nextKey := rfl
@[simp] theorem State.updWq_nextId (s : State) (n q : Nat) (g : WorkQueue → WorkQueue) : (s.updWq n q g).nextId = s.nextId := rfl
@[simp] theorem State.updWq_freeCtr (s : State) (n q : Nat) (g : WorkQueue → WorkQueue) : (s.updWq n q g).freeCtr = s.freeCtr := rfl
@[simp] theorem State.updWq_actor (s : State) (n q : Nat) (g : WorkQueue → WorkQueue) : (s.updWq n q g).actor = s.actor := rfl
@[simp] theorem State.updWq_schedule (s : State) (n q : Nat) (g : WorkQueue → WorkQueue) : (s.updWq n q g).schedule = s.schedule := rfl
@[simp] theorem State.updWq_inbox (s : State) (n q : Nat) (g : WorkQueue → WorkQueue) : (s.updWq n q g).inbox = s.inbox := rfl
@[simp] theorem State.updWq_cur (s : State) (n q : Nat) (g : WorkQueue → WorkQueue) : (s.updWq n q g).cur = s.cur := rfl
@[simp] theorem State.updWq_core (s : State) (n q : Nat) (g : WorkQueue → WorkQueue) (k : Nat) : (s.updWq n q g).core k = s.core k := rfl
@[simp] theorem State.updWq_seq (s : State) (n q : Nat) (g : WorkQueue → WorkQueue) (k : Nat) : (s.updWq n q g).seq k = s.seq k := rfl
@[simp] theorem State.updWq_quad (s : State) (n q : Nat) (g : WorkQueue → WorkQueue) (k : Nat) : (s.updWq n q g).quad k = s.quad k := rfl
@[simp] theorem State.updWq_die (s : State) (n q : Nat) (g : WorkQueue → WorkQueue) (k : Nat) : (s.updWq n q g).die k = s.die k := rfl
@[simp] theorem State.updWq_slice (s : State) (n q : Nat) (g : WorkQueue → WorkQueue) (k : Nat) : (s.updWq n q g).slice k = s.slice k := rfl
@[simp] theorem State.updWq_req (s : State) (n q : Nat) (g : WorkQueue → WorkQueue) (k : Nat) : (s.updWq n q g).req k = s.req k := rfl

@[simp] theorem State.useFree_boot (s : State) : s.useFree.boot = s.boot := rfl
@[simp] theorem State.useFree_pf0 (s : State) : s.useFree.pf0 = s.pf0 := rfl
@[simp] theorem State.useFree_cores (s : State) : s.useFree.cores = s.cores := rfl
@[simp] theorem State.useFree_quads (s : State) : s.useFree.quads = s.quads := rfl
@[simp] theorem State.useFree_dies (s : State) : s.useFree.dies = s.dies := rfl
@[simp] theorem State.useFree_slices (s : State) : s.useFree.slices = s.slices := rfl
@[simp] theorem State.useFree_fns (s : State) : s.useFree.fns = s.fns := rfl
@[simp] theorem State.useFree_mem (s : State) : s.useFree.mem = s.mem := rfl
@[simp] theorem State.useFree_memKey (s : State) : s.useFree.memKey = s.memKey := rfl
@[simp] theorem State.useFree_poison (s : State) : s.useFree.poison = s.poison := rfl
@[simp] theorem State.useFree_rereads (s : State) : s.useFree.rereads = s.rereads := rfl
@[simp] theorem State.useFree_reqs (s : State) : s.useFree.reqs = s.reqs := rfl
@[simp] theorem State.useFree_invs (s : State) : s.useFree.invs = s.invs := rfl
@[simp] theorem State.useFree_watchMsgs (s : State) : s.useFree.watchMsgs = s.watchMsgs := rfl
@[simp] theorem State.useFree_exports (s : State) : s.useFree.exports = s.exports := rfl
@[simp] theorem State.useFree_failedMarks (s : State) : s.useFree.failedMarks = s.failedMarks := rfl
@[simp] theorem State.useFree_links (s : State) : s.useFree.links = s.links := rfl
@[simp] theorem State.useFree_log (s : State) : s.useFree.log = s.log := rfl
@[simp] theorem State.useFree_out (s : State) : s.useFree.out = s.out := rfl
@[simp] theorem State.useFree_wall (s : State) : s.useFree.wall = s.wall := rfl
@[simp] theorem State.useFree_timer (s : State) : s.useFree.timer = s.timer := rfl
@[simp] theorem State.useFree_nextKey (s : State) : s.useFree.nextKey = s.nextKey := rfl
@[simp] theorem State.useFree_nextId (s : State) : s.useFree.nextId = s.nextId := rfl
@[simp] theorem State.useFree_actor (s : State) : s.useFree.actor = s.actor := rfl
@[simp] theorem State.useFree_schedule (s : State) : s.useFree.schedule = s.schedule := rfl
@[simp] theorem State.useFree_inbox (s : State) : s.useFree.inbox = s.inbox := rfl
@[simp] theorem State.useFree_cur (s : State) : s.useFree.cur = s.cur := rfl
@[simp] theorem State.useFree_core (s : State) (k : Nat) : s.useFree.core k = s.core k := rfl
@[simp] theorem State.useFree_seq (s : State) (k : Nat) : s.useFree.seq k = s.seq k := rfl
@[simp] theorem State.useFree_quad (s : State) (k : Nat) : s.useFree.quad k = s.quad k := rfl
@[simp] theorem State.useFree_die (s : State) (k : Nat) : s.useFree.die k = s.die k := rfl
@[simp] theorem State.useFree_slice (s : State) (k : Nat) : s.useFree.slice k = s.slice k := rfl
@[simp] theorem State.useFree_fn (s : State) (k : Nat) : s.useFree.fn k = s.fn k := rfl
@[simp] theorem State.useFree_wq (s : State) (k j : Nat) : s.useFree.wq k j = s.wq k j := rfl
@[simp] theorem State.useFree_req (s : State) (k : Nat) : s.useFree.req k = s.req k := rfl

@[simp] theorem State.useId_boot (s : State) : s.useId.boot = s.boot := rfl
@[simp] theorem State.useId_pf0 (s : State) : s.useId.pf0 = s.pf0 := rfl
@[simp] theorem State.useId_cores (s : State) : s.useId.cores = s.cores := rfl
@[simp] theorem State.useId_quads (s : State) : s.useId.quads = s.quads := rfl
@[simp] theorem State.useId_dies (s : State) : s.useId.dies = s.dies := rfl
@[simp] theorem State.useId_slices (s : State) : s.useId.slices = s.slices := rfl
@[simp] theorem State.useId_fns (s : State) : s.useId.fns = s.fns := rfl
@[simp] theorem State.useId_mem (s : State) : s.useId.mem = s.mem := rfl
@[simp] theorem State.useId_memKey (s : State) : s.useId.memKey = s.memKey := rfl
@[simp] theorem State.useId_poison (s : State) : s.useId.poison = s.poison := rfl
@[simp] theorem State.useId_rereads (s : State) : s.useId.rereads = s.rereads := rfl
@[simp] theorem State.useId_reqs (s : State) : s.useId.reqs = s.reqs := rfl
@[simp] theorem State.useId_invs (s : State) : s.useId.invs = s.invs := rfl
@[simp] theorem State.useId_watchMsgs (s : State) : s.useId.watchMsgs = s.watchMsgs := rfl
@[simp] theorem State.useId_exports (s : State) : s.useId.exports = s.exports := rfl
@[simp] theorem State.useId_failedMarks (s : State) : s.useId.failedMarks = s.failedMarks := rfl
@[simp] theorem State.useId_links (s : State) : s.useId.links = s.links := rfl
@[simp] theorem State.useId_log (s : State) : s.useId.log = s.log := rfl
@[simp] theorem State.useId_out (s : State) : s.useId.out = s.out := rfl
@[simp] theorem State.useId_wall (s : State) : s.useId.wall = s.wall := rfl
@[simp] theorem State.useId_timer (s : State) : s.useId.timer = s.timer := rfl
@[simp] theorem State.useId_nextKey (s : State) : s.useId.nextKey = s.nextKey := rfl
@[simp] theorem State.useId_freeCtr (s : State) : s.useId.freeCtr = s.freeCtr := rfl
@[simp] theorem State.useId_actor (s : State) : s.useId.actor = s.actor := rfl
@[simp] theorem State.useId_schedule (s : State) : s.useId.schedule = s.schedule := rfl
@[simp] theorem State.useId_inbox (s : State) : s.useId.inbox = s.inbox := rfl
@[simp] theorem State.useId_cur (s : State) : s.useId.cur = s.cur := rfl
@[simp] theorem State.useId_core (s : State) (k : Nat) : s.useId.core k = s.core k := rfl
@[simp] theorem State.useId_seq (s : State) (k : Nat) : s.useId.seq k = s.seq k := rfl
@[simp] theorem State.useId_quad (s : State) (k : Nat) : s.useId.quad k = s.quad k := rfl
@[simp] theorem State.useId_die (s : State) (k : Nat) : s.useId.die k = s.die k := rfl
@[simp] theorem State.useId_slice (s : State) (k : Nat) : s.useId.slice k = s.slice k := rfl
@[simp] theorem State.useId_fn (s : State) (k : Nat) : s.useId.fn k = s.fn k := rfl
@[simp] theorem State.useId_wq (s : State) (k j : Nat) : s.useId.wq k j = s.wq k j := rfl
@[simp] theorem State.useId_req (s : State) (k : Nat) : s.useId.req k = s.req k := rfl

@[simp] theorem State.send_boot (s : State) (r : Req) : (s.send r).boot = s.boot := rfl
@[simp] theorem State.send_pf0 (s : State) (r : Req) : (s.send r).pf0 = s.pf0 := rfl
@[simp] theorem State.send_cores (s : State) (r : Req) : (s.send r).cores = s.cores := rfl
@[simp] theorem State.send_quads (s : State) (r : Req) : (s.send r).quads = s.quads := rfl
@[simp] theorem State.send_dies (s : State) (r : Req) : (s.send r).dies = s.dies := rfl
@[simp] theorem State.send_slices (s : State) (r : Req) : (s.send r).slices = s.slices := rfl
@[simp] theorem State.send_fns (s : State) (r : Req) : (s.send r).fns = s.fns := rfl
@[simp] theorem State.send_mem (s : State) (r : Req) : (s.send r).mem = s.mem := rfl
@[simp] theorem State.send_memKey (s : State) (r : Req) : (s.send r).memKey = s.memKey := rfl
@[simp] theorem State.send_poison (s : State) (r : Req) : (s.send r).poison = s.poison := rfl
@[simp] theorem State.send_rereads (s : State) (r : Req) : (s.send r).rereads = s.rereads := rfl
@[simp] theorem State.send_invs (s : State) (r : Req) : (s.send r).invs = s.invs := rfl
@[simp] theorem State.send_watchMsgs (s : State) (r : Req) : (s.send r).watchMsgs = s.watchMsgs := rfl
@[simp] theorem State.send_exports (s : State) (r : Req) : (s.send r).exports = s.exports := rfl
@[simp] theorem State.send_failedMarks (s : State) (r : Req) : (s.send r).failedMarks = s.failedMarks := rfl
@[simp] theorem State.send_links (s : State) (r : Req) : (s.send r).links = s.links := rfl
@[simp] theorem State.send_log (s : State) (r : Req) : (s.send r).log = s.log := rfl
@[simp] theorem State.send_out (s : State) (r : Req) : (s.send r).out = s.out := rfl
@[simp] theorem State.send_wall (s : State) (r : Req) : (s.send r).wall = s.wall := rfl
@[simp] theorem State.send_timer (s : State) (r : Req) : (s.send r).timer = s.timer := rfl
@[simp] theorem State.send_nextKey (s : State) (r : Req) : (s.send r).nextKey = s.nextKey := rfl
@[simp] theorem State.send_freeCtr (s : State) (r : Req) : (s.send r).freeCtr = s.freeCtr := rfl
@[simp] theorem State.send_actor (s : State) (r : Req) : (s.send r).actor = s.actor := rfl
@[simp] theorem State.send_schedule (s : State) (r : Req) : (s.send r).schedule = s.schedule := rfl
@[simp] theorem State.send_inbox (s : State) (r : Req) : (s.send r).inbox = s.inbox := rfl
@[simp] theorem State.send_cur (s : State) (r : Req) : (s.send r).cur = s.cur := rfl
@[simp] theorem State.send_core (s : State) (r : Req) (k : Nat) : (s.send r).core k = s.core k := rfl
@[simp] theorem State.send_seq (s : State) (r : Req) (k : Nat) : (s.send r).seq k = s.seq k := rfl
@[simp] theorem State.send_quad (s : State) (r : Req) (k : Nat) : (s.send r).quad k = s.quad k := rfl
@[simp] theorem State.send_die (s : State) (r : Req) (k : Nat) : (s.send r).die k = s.die k := rfl
@[simp] theorem State.send_slice (s : State) (r : Req) (k : Nat) : (s.send r).slice k = s.slice k := rfl
@[simp] theorem State.send_fn (s : State) (r : Req) (k : Nat) : (s.send r).fn k = s.fn k := rfl
@[simp] theorem State.send_wq (s : State) (r : Req) (k j : Nat) : (s.send r).wq k j = s.wq k j := rfl

@[simp] theorem State.updReq_boot (s : State) (id : Nat) (f : Req → Req) : (s.updReq id f).boot = s.boot := rfl
@[simp] theorem State.updReq_pf0 (s : State) (id : Nat) (f : Req → Req) : (s.updReq id f).pf0 = s.pf0 := rfl
@[simp] theorem State.updReq_cores (s : State) (id : Nat) (f : Req → Req) : (s.updReq id f).cores = s.cores := rfl
@[simp] theorem State.updReq_quads (s : State) (id : Nat) (f : Req → Req) : (s.updReq id f).quads = s.quads := rfl
@[simp] theorem State.updReq_dies (s : State) (id : Nat) (f : Req → Req) : (s.updReq id f).dies = s.dies := rfl
@[simp] theorem State.updReq_slices (s : State) (id : Nat) (f : Req → Req) : (s.updReq id f).slices = s.slices := rfl
@[simp] theorem State.updReq_fns (s : State) (id : Nat) (f : Req → Req) : (s.updReq id f).fns = s.fns := rfl
@[simp] theorem State.updReq_mem (s : State) (id : Nat) (f : Req → Req) : (s.updReq id f).mem = s.mem := rfl
@[simp] theorem State.updReq_memKey (s : State) (id : Nat) (f : Req → Req) : (s.updReq id f).memKey = s.memKey := rfl
@[simp] theorem State.updReq_poison (s : State) (id : Nat) (f : Req → Req) : (s.updReq id f).poison = s.poison := rfl
@[simp] theorem State.updReq_rereads (s : State) (id : Nat) (f : Req → Req) : (s.updReq id f).rereads = s.rereads := rfl
@[simp] theorem State.updReq_invs (s : State) (id : Nat) (f : Req → Req) : (s.updReq id f).invs = s.invs := rfl
@[simp] theorem State.updReq_watchMsgs (s : State) (id : Nat) (f : Req → Req) : (s.updReq id f).watchMsgs = s.watchMsgs := rfl
@[simp] theorem State.updReq_exports (s : State) (id : Nat) (f : Req → Req) : (s.updReq id f).exports = s.exports := rfl
@[simp] theorem State.updReq_failedMarks (s : State) (id : Nat) (f : Req → Req) : (s.updReq id f).failedMarks = s.failedMarks := rfl
@[simp] theorem State.updReq_links (s : State) (id : Nat) (f : Req → Req) : (s.updReq id f).links = s.links := rfl
@[simp] theorem State.updReq_log (s : State) (id : Nat) (f : Req → Req) : (s.updReq id f).log = s.log := rfl
@[simp] theorem State.updReq_out (s : State) (id : Nat) (f : Req → Req) : (s.updReq id f).out = s.out := rfl
@[simp] theorem State.updReq_wall (s : State) (id : Nat) (f : Req → Req) : (s.updReq id f).wall = s.wall := rfl
@[simp] theorem State.updReq_timer (s : State) (id : Nat) (f : Req → Req) : (s.updReq id f).timer = s.timer := rfl
@[simp] theorem State.updReq_nextKey (s : State) (id : Nat) (f : Req → Req) : (s.updReq id f).nextKey = s.nextKey := rfl
@[simp] theorem State.updReq_nextId (s : State) (id : Nat) (f : Req → Req) : (s.updReq id f).nextId = s.nextId := rfl
@[simp] theorem State.updReq_freeCtr (s : State) (id : Nat) (f : Req → Req) : (s.updReq id f).freeCtr = s.freeCtr := rfl
@[simp] theorem State.updReq_actor (s : State) (id : Nat) (f : Req → Req) : (s.updReq id f).actor = s.actor := rfl
@[simp] theorem State.updReq_schedule (s : State) (id : Nat) (f : Req → Req) : (s.updReq id f).schedule = s.schedule := rfl
@[simp] theorem State.updReq_inbox (s : State) (id : Nat) (f : Req → Req) : (s.updReq id f).inbox = s.inbox := rfl
@[simp] theorem State.updReq_cur (s : State) (id : Nat) (f : Req → Req) : (s.updReq id f).cur = s.cur := rfl
@[simp] theorem State.updReq_core (s : State) (id : Nat) (f : Req → Req) (k : Nat) : (s.updReq id f).core k = s.core k := rfl
@[simp] theorem State.updReq_seq (s : State) (id : Nat) (f : Req → Req) (k : Nat) : (s.updReq id f).seq k = s.seq k := rfl
@[simp] theorem State.updReq_quad (s : State) (id : Nat) (f : Req → Req) (k : Nat) : (s.updReq id f).quad k = s.quad k := rfl
@[simp] theorem State.updReq_die (s : State) (id : Nat) (f : Req → Req) (k : Nat) : (s.updReq id f).die k = s.die k := rfl
@[simp] theorem State.updReq_slice (s : State) (id : Nat) (f : Req → Req) (k : Nat) : (s.updReq id f).slice k = s.slice k := rfl
@[simp] theorem State.updReq_fn (s : State) (id : Nat) (f : Req → Req) (k : Nat) : (s.updReq id f).fn k = s.fn k := rfl
@[simp] theorem State.updReq_wq (s : State) (id : Nat) (f : Req → Req) (k j : Nat) : (s.updReq id f).wq k j = s.wq k j := rfl

@[simp] theorem State.dropReq_boot (s : State) (id : Nat) : (s.dropReq id).boot = s.boot := rfl
@[simp] theorem State.dropReq_pf0 (s : State) (id : Nat) : (s.dropReq id).pf0 = s.pf0 := rfl
@[simp] theorem State.dropReq_cores (s : State) (id : Nat) : (s.dropReq id).cores = s.cores := rfl
@[simp] theorem State.dropReq_quads (s : State) (id : Nat) : (s.dropReq id).quads = s.quads := rfl
@[simp] theorem State.dropReq_dies (s : State) (id : Nat) : (s.dropReq id).dies = s.dies := rfl
@[simp] theorem State.dropReq_slices (s : State) (id : Nat) : (s.dropReq id).slices = s.slices := rfl
@[simp] theorem State.dropReq_fns (s : State) (id : Nat) : (s.dropReq id).fns = s.fns := rfl
@[simp] theorem State.dropReq_mem (s : State) (id : Nat) : (s.dropReq id).mem = s.mem := rfl
@[simp] theorem State.dropReq_memKey (s : State) (id : Nat) : (s.dropReq id).memKey = s.memKey := rfl
@[simp] theorem State.dropReq_poison (s : State) (id : Nat) : (s.dropReq id).poison = s.poison := rfl
@[simp] theorem State.dropReq_rereads (s : State) (id : Nat) : (s.dropReq id).rereads = s.rereads := rfl
@[simp] theorem State.dropReq_invs (s : State) (id : Nat) : (s.dropReq id).invs = s.invs := rfl
@[simp] theorem State.dropReq_watchMsgs (s : State) (id : Nat) : (s.dropReq id).watchMsgs = s.watchMsgs := rfl
@[simp] theorem State.dropReq_exports (s : State) (id : Nat) : (s.dropReq id).exports = s.exports := rfl
@[simp] theorem State.dropReq_failedMarks (s : State) (id : Nat) : (s.dropReq id).failedMarks = s.failedMarks := rfl
@[simp] theorem State.dropReq_links (s : State) (id : Nat) : (s.dropReq id).links = s.links := rfl
@[simp] theorem State.dropReq_log (s : State) (id : Nat) : (s.dropReq id).log = s.log := rfl
@[simp] theorem State.dropReq_out (s : State) (id : Nat) : (s.dropReq id).out = s.out := rfl
@[simp] theorem State.dropReq_wall (s : State) (id : Nat) : (s.dropReq id).wall = s.wall := rfl
@[simp] theorem State.dropReq_timer (s : State) (id : Nat) : (s.dropReq id).timer = s.timer := rfl
@[simp] theorem State.dropReq_nextKey (s : State) (id : Nat) : (s.dropReq id).nextKey = s.nextKey := rfl
@[simp] theorem State.dropReq_nextId (s : State) (id : Nat) : (s.dropReq id).nextId = s.nextId := rfl
@[simp] theorem State.dropReq_freeCtr (s : State) (id : Nat) : (s.dropReq id).freeCtr = s.freeCtr := rfl
@[simp] theorem State.dropReq_actor (s : State) (id : Nat) : (s.dropReq id).actor = s.actor := rfl
@[simp] theorem State.dropReq_schedule (s : State) (id : Nat) : (s.dropReq id).schedule = s.schedule := rfl
@[simp] theorem State.dropReq_inbox (s : State) (id : Nat) : (s.dropReq id).inbox = s.inbox := rfl
@[simp] theorem State.dropReq_cur (s : State) (id : Nat) : (s.dropReq id).cur = s.cur := rfl
@[simp] theorem State.dropReq_core (s : State) (id : Nat) (k : Nat) : (s.dropReq id).core k = s.core k := rfl
@[simp] theorem State.dropReq_seq (s : State) (id : Nat) (k : Nat) : (s.dropReq id).seq k = s.seq k := rfl
@[simp] theorem State.dropReq_quad (s : State) (id : Nat) (k : Nat) : (s.dropReq id).quad k = s.quad k := rfl
@[simp] theorem State.dropReq_die (s : State) (id : Nat) (k : Nat) : (s.dropReq id).die k = s.die k := rfl
@[simp] theorem State.dropReq_slice (s : State) (id : Nat) (k : Nat) : (s.dropReq id).slice k = s.slice k := rfl
@[simp] theorem State.dropReq_fn (s : State) (id : Nat) (k : Nat) : (s.dropReq id).fn k = s.fn k := rfl
@[simp] theorem State.dropReq_wq (s : State) (id : Nat) (k j : Nat) : (s.dropReq id).wq k j = s.wq k j := rfl

@[simp] theorem State.writeArray_boot (s : State) (c x : Nat) (bs : List Byte) : (s.writeArray c x bs).boot = s.boot := rfl
@[simp] theorem State.writeArray_pf0 (s : State) (c x : Nat) (bs : List Byte) : (s.writeArray c x bs).pf0 = s.pf0 := rfl
@[simp] theorem State.writeArray_cores (s : State) (c x : Nat) (bs : List Byte) : (s.writeArray c x bs).cores = s.cores := rfl
@[simp] theorem State.writeArray_quads (s : State) (c x : Nat) (bs : List Byte) : (s.writeArray c x bs).quads = s.quads := rfl
@[simp] theorem State.writeArray_dies (s : State) (c x : Nat) (bs : List Byte) : (s.writeArray c x bs).dies = s.dies := rfl
@[simp] theorem State.writeArray_slices (s : State) (c x : Nat) (bs : List Byte) : (s.writeArray c x bs).slices = s.slices := rfl
@[simp] theorem State.writeArray_fns (s : State) (c x : Nat) (bs : List Byte) : (s.writeArray c x bs).fns = s.fns := rfl
@[simp] theorem State.writeArray_memKey (s : State) (c x : Nat) (bs : List Byte) : (s.writeArray c x bs).memKey = s.memKey := rfl
@[simp] theorem State.writeArray_poison (s : State) (c x : Nat) (bs : List Byte) : (s.writeArray c x bs).poison = s.poison := rfl
@[simp] theorem State.writeArray_rereads (s : State) (c x : Nat) (bs : List Byte) : (s.writeArray c x bs).rereads = s.rereads := rfl
@[simp] theorem State.writeArray_reqs (s : State) (c x : Nat) (bs : List Byte) : (s.writeArray c x bs).reqs = s.reqs := rfl
@[simp] theorem State.writeArray_invs (s : State) (c x : Nat) (bs : List Byte) : (s.writeArray c x bs).invs = s.invs := rfl
@[simp] theorem State.writeArray_watchMsgs (s : State) (c x : Nat) (bs : List Byte) : (s.writeArray c x bs).watchMsgs = s.watchMsgs := rfl
@[simp] theorem State.writeArray_exports (s : State) (c x : Nat) (bs : List Byte) : (s.writeArray c x bs).exports = s.exports := rfl
@[simp] theorem State.writeArray_failedMarks (s : State) (c x : Nat) (bs : List Byte) : (s.writeArray c x bs).failedMarks = s.failedMarks := rfl
@[simp] theorem State.writeArray_links (s : State) (c x : Nat) (bs : List Byte) : (s.writeArray c x bs).links = s.links := rfl
@[simp] theorem State.writeArray_log (s : State) (c x : Nat) (bs : List Byte) : (s.writeArray c x bs).log = s.log := rfl
@[simp] theorem State.writeArray_out (s : State) (c x : Nat) (bs : List Byte) : (s.writeArray c x bs).out = s.out := rfl
@[simp] theorem State.writeArray_wall (s : State) (c x : Nat) (bs : List Byte) : (s.writeArray c x bs).wall = s.wall := rfl
@[simp] theorem State.writeArray_timer (s : State) (c x : Nat) (bs : List Byte) : (s.writeArray c x bs).timer = s.timer := rfl
@[simp] theorem State.writeArray_nextKey (s : State) (c x : Nat) (bs : List Byte) : (s.writeArray c x bs).nextKey = s.nextKey := rfl
@[simp] theorem State.writeArray_nextId (s : State) (c x : Nat) (bs : List Byte) : (s.writeArray c x bs).nextId = s.nextId := rfl
@[simp] theorem State.writeArray_freeCtr (s : State) (c x : Nat) (bs : List Byte) : (s.writeArray c x bs).freeCtr = s.freeCtr := rfl
@[simp] theorem State.writeArray_actor (s : State) (c x : Nat) (bs : List Byte) : (s.writeArray c x bs).actor = s.actor := rfl
@[simp] theorem State.writeArray_schedule (s : State) (c x : Nat) (bs : List Byte) : (s.writeArray c x bs).schedule = s.schedule := rfl
@[simp] theorem State.writeArray_inbox (s : State) (c x : Nat) (bs : List Byte) : (s.writeArray c x bs).inbox = s.inbox := rfl
@[simp] theorem State.writeArray_cur (s : State) (c x : Nat) (bs : List Byte) : (s.writeArray c x bs).cur = s.cur := rfl
@[simp] theorem State.writeArray_core (s : State) (c x : Nat) (bs : List Byte) (k : Nat) : (s.writeArray c x bs).core k = s.core k := rfl
@[simp] theorem State.writeArray_seq (s : State) (c x : Nat) (bs : List Byte) (k : Nat) : (s.writeArray c x bs).seq k = s.seq k := rfl
@[simp] theorem State.writeArray_quad (s : State) (c x : Nat) (bs : List Byte) (k : Nat) : (s.writeArray c x bs).quad k = s.quad k := rfl
@[simp] theorem State.writeArray_die (s : State) (c x : Nat) (bs : List Byte) (k : Nat) : (s.writeArray c x bs).die k = s.die k := rfl
@[simp] theorem State.writeArray_slice (s : State) (c x : Nat) (bs : List Byte) (k : Nat) : (s.writeArray c x bs).slice k = s.slice k := rfl
@[simp] theorem State.writeArray_fn (s : State) (c x : Nat) (bs : List Byte) (k : Nat) : (s.writeArray c x bs).fn k = s.fn k := rfl
@[simp] theorem State.writeArray_wq (s : State) (c x : Nat) (bs : List Byte) (k j : Nat) : (s.writeArray c x bs).wq k j = s.wq k j := rfl
@[simp] theorem State.writeArray_req (s : State) (c x : Nat) (bs : List Byte) (k : Nat) : (s.writeArray c x bs).req k = s.req k := rfl

/-! ## An updated agent -/

@[simp] theorem State.core_setCore (s : State) (c : Nat) (x : Core) : (s.setCore c x).core c = x := by
  simp [State.setCore, State.core]

theorem State.core_setCore_ne (s : State) {c k : Nat} (x : Core) (h : k ≠ c) : (s.setCore c x).core k = s.core k := by
  simp [State.setCore, State.core, tget_tset_ne, h]

@[simp] theorem State.core_updCore (s : State) (c : Nat) (f : Core → Core) : (s.updCore c f).core c = f (s.core c) := by
  simp [State.updCore]

theorem State.core_updCore_ne (s : State) {c k : Nat} (f : Core → Core) (h : k ≠ c) :
    (s.updCore c f).core k = s.core k := by
  simp [State.updCore, State.core_setCore_ne, h]

@[simp] theorem State.seq_updCore (s : State) (c : Nat) (f : Core → Core) : (s.updCore c f).seq c = (f (s.core c)).seq := by
  simp [State.seq]

@[simp] theorem State.core_updSeq (s : State) (c : Nat) (f : Seq → Seq) :
    (s.updSeq c f).core c = { s.core c with seq := f (s.seq c) } := by
  simp [State.updSeq, State.seq]

theorem State.core_updSeq_ne (s : State) {c k : Nat} (f : Seq → Seq) (h : k ≠ c) : (s.updSeq c f).core k = s.core k := by
  simp [State.updSeq, State.core_updCore_ne, h]

@[simp] theorem State.seq_updSeq (s : State) (c : Nat) (f : Seq → Seq) : (s.updSeq c f).seq c = f (s.seq c) := by
  simp [State.updSeq, State.seq]

@[simp] theorem State.quad_updQuad (s : State) (q : Nat) (f : Quad → Quad) : (s.updQuad q f).quad q = f (s.quad q) := by
  simp [State.updQuad, State.quad]

theorem State.quad_updQuad_ne (s : State) {q k : Nat} (f : Quad → Quad) (h : k ≠ q) :
    (s.updQuad q f).quad k = s.quad k := by
  simp [State.updQuad, State.quad, tget_tset_ne, h]

@[simp] theorem State.die_updDie (s : State) (d : Nat) (f : Die → Die) : (s.updDie d f).die d = f (s.die d) := by
  simp [State.updDie, State.die]

theorem State.die_updDie_ne (s : State) {d k : Nat} (f : Die → Die) (h : k ≠ d) : (s.updDie d f).die k = s.die k := by
  simp [State.updDie, State.die, tget_tset_ne, h]

@[simp] theorem State.slice_updSlice (s : State) (i : Nat) (f : Slice → Slice) :
    (s.updSlice i f).slice i = f (s.slice i) := by
  simp [State.updSlice, State.slice]

theorem State.slice_updSlice_ne (s : State) {i k : Nat} (f : Slice → Slice) (h : k ≠ i) :
    (s.updSlice i f).slice k = s.slice k := by
  simp [State.updSlice, State.slice, tget_tset_ne, h]

@[simp] theorem State.fn_updFn (s : State) (n : Nat) (g : Func → Func) : (s.updFn n g).fn n = g (s.fn n) := by
  simp [State.updFn, State.fn]

theorem State.fn_updFn_ne (s : State) {n k : Nat} (g : Func → Func) (h : k ≠ n) : (s.updFn n g).fn k = s.fn k := by
  simp [State.updFn, State.fn, tget_tset_ne, h]

@[simp] theorem State.wq_updWq (s : State) (n q : Nat) (g : WorkQueue → WorkQueue) :
    (s.updWq n q g).wq n q = g (s.wq n q) := by
  simp [State.updWq, State.wq, Func.queue]

theorem State.fn_updWq (s : State) (n q : Nat) (g : WorkQueue → WorkQueue) :
    (s.updWq n q g).fn n = { s.fn n with queues := tset q (g (s.wq n q)) (s.fn n).queues } := by
  simp [State.updWq, State.wq]

/-- Two updates of one core are one. -/
@[simp] theorem State.updCore_updCore (s : State) (c : Nat) (f g : Core → Core) :
    (s.updCore c f).updCore c g = s.updCore c fun x => g (f x) := by
  simp [State.updCore, State.setCore, State.core]

end Sys2Proof.Machine
end

