-- ==== Sys2Proof/Laws/Sequencer.lean ====
section
/-! SUPPORT. What the shared operations of the sequencer do, said once: the Chain touches tokens and signals alone, a word
that can issue goes past `withOperands`, and a word that issues leaves what `Retired` says. -/

namespace Sys2Proof.Machine

open Sys2Proof Sys2Proof.Safety

/-! ## The Chain -/

theorem Core.updFlow_shape (x : Core) (e : Engine) (f : Flow → Flow) : ∃ fl, x.updFlow e f = { x with flows := fl } :=
  ⟨_, rfl⟩

theorem Core.signal_shape (x : Core) (e : Engine) (n : Bool) :
    ∃ tk fl, x.signal e n = { x with tokens := tk, flows := fl } := by
  simp only [Core.signal]
  split
  · exact ⟨_, _, rfl⟩
  · exact ⟨_, _, rfl⟩

/-- Signals that leave change tokens and flows alone. -/
theorem Core.drain_shape (x : Core) (e : Engine) (n : Nat) :
    ∃ tk fl, x.drain e n = { x with tokens := tk, flows := fl } := by
  induction n generalizing x with
  | zero => exact ⟨_, _, rfl⟩
  | succ n ih =>
    simp only [Core.drain]
    split
    · exact ⟨_, _, rfl⟩
    · rename_i w ws _
      split
      · exact ⟨_, _, rfl⟩
      · have h1 : ∃ tk fl, (if w.sp then x.signal e false else x) = { x with tokens := tk, flows := fl } := by
          split
          · exact x.signal_shape e false
          · exact ⟨_, _, rfl⟩
        obtain ⟨tk, fl, h1⟩ := h1
        rw [h1]
        have h2 : ∃ tk' fl', (if w.sn then ({ x with tokens := tk, flows := fl } : Core).signal e true
            else { x with tokens := tk, flows := fl }) = { x with tokens := tk', flows := fl' } := by
          split
          · obtain ⟨a, b, h⟩ := ({ x with tokens := tk, flows := fl } : Core).signal_shape e true
            exact ⟨a, b, h⟩
          · exact ⟨_, _, rfl⟩
        obtain ⟨tk', fl', h2⟩ := h2
        rw [h2]
        split
        · exact ⟨_, _, rfl⟩
        · obtain ⟨a, b, h⟩ := ih (({ x with tokens := tk', flows := fl' } : Core).updFlow e fun f => { f with order := ws })
          exact ⟨a, b, h⟩

theorem Core.settle_shape (x : Core) (e : Engine) : ∃ tk fl, x.settle e = { x with tokens := tk, flows := fl } := by
  rw [Core.settle]
  split
  · exact x.drain_shape e _
  · exact ⟨_, _, rfl⟩

/-- A word that begins changes tokens and flows alone. -/
theorem Core.beginWord_shape (x : Core) (e : Engine) (w : Nat) (d : Bool) (ch : Chain) :
    ∃ tk fl, x.beginWord e w d ch = { x with tokens := tk, flows := fl } := by
  obtain ⟨a, b, h⟩ := Core.settle_shape ((x.takeTokens e ch).updFlow e fun f =>
    { f with order := f.order ++ [⟨w, d, ch.sp, ch.sn⟩] }) e
  exact ⟨a, b, h⟩

/-- A word that is complete changes tokens and flows, and the watchdog's count. -/
theorem Core.completeWord_shape (x : Core) (e : Engine) (w : Nat) :
    ∃ tk fl, x.completeWord e w = { x with tokens := tk, flows := fl, task := x.task.map fun t => { t with wd := 0 } } := by
  obtain ⟨a, b, h⟩ := Core.settle_shape (x.updFlow e fun f =>
    { f with order := f.order.map fun v => if v.wid = w then { v with done := true } else v }) e
  refine ⟨a, b, ?_⟩
  simp only [Core.completeWord, h]
  rfl

@[simp] theorem Core.completeWord_seq (x : Core) (e : Engine) (w : Nat) : (x.completeWord e w).seq = x.seq := by
  obtain ⟨tk, fl, h⟩ := x.completeWord_shape e w
  rw [h]

/-! ## Registers -/

theorem Seq.release_shape (q : Seq) (l : List Src) : ∃ r, q.release l = { q with released := r } := by
  induction l generalizing q with
  | nil => exact ⟨_, rfl⟩
  | cons a l ih =>
    cases a with
    | belt i => exact ih q
    | named k m =>
      cases m with
      | false => exact ih q
      | true =>
        obtain ⟨r, h⟩ := ih { q with released := q.released ||| BitVec.twoPow 16 k.toNat }
        exact ⟨r, h⟩

theorem Seq.release_bit (q : Seq) (l : List Src) (k : BitVec 4) :
    (q.release l).released.getLsbD k.toNat = (q.released.getLsbD k.toNat || l.contains (.named k true)) := by
  induction l generalizing q with
  | nil => simp [Seq.release]
  | cons a l ih =>
    cases a with
    | belt i => simp [Seq.release, ih]
    | named j m =>
      cases m with
      | false => simp [Seq.release, ih]
      | true =>
        simp only [Seq.release, ih, BitVec.getLsbD_or, BitVec.getLsbD_twoPow, List.contains_cons, Bool.or_assoc]
        congr 1
        have hk := k.isLt
        by_cases h : j = k
        · subst h
          simp
          omega
        · have : ¬ j.toNat = k.toNat := fun e => h (BitVec.eq_of_toNat_eq e)
          simp [this, Ne.symm h]

theorem Seq.writeOpt_shape (q : Seq) (r : Option (Dbl × Dest)) :
    ∃ m, q.writeOpt r = { q with belt := beltAfter q.belt r, named := namedAfter q.named r, released := m }
      ∧ ∀ k : BitVec 4, m.getLsbD k.toNat = ((match r with
          | some (_, .named j) => j != k
          | _ => true) && q.released.getLsbD k.toNat) := by
  cases r with
  | none => exact ⟨_, rfl, by simp⟩
  | some p =>
    obtain ⟨v, d⟩ := p
    cases d with
    | belt => exact ⟨_, rfl, by simp⟩
    | named j =>
      refine ⟨_, rfl, fun k => ?_⟩
      have hk := k.isLt
      simp only [BitVec.getLsbD_and, BitVec.getLsbD_not, BitVec.getLsbD_twoPow]
      by_cases h : j = k
      · subst h
        simp
      · have : ¬ j.toNat = k.toNat := fun e => h (BitVec.eq_of_toNat_eq e)
        have hj : (j != k) = true := by simpa using h
        have h16 : k.toNat < 16 := by omega
        simp [this, hj, h16]

/-! ## Issue -/

/-- A word that can issue goes past its waits and checks. -/
theorem State.withOperands_fresh {s : State} {reads : List Src} (h : Fresh s reads) (k : State → State) :
    s.withOperands reads k = k s := by
  obtain ⟨h1, h2, h3⟩ := h
  simp only [State.seq] at h1 h3
  simp [State.withOperands, h1, h2, h3]

/-- A word in a later step goes past them too. -/
theorem State.withOperands_later {s : State} {reads : List Src} (h : (s.seq s.cur.core).phase ≠ 0) (k : State → State) :
    s.withOperands reads k = k s := by
  simp only [State.seq] at h
  simp [State.withOperands, h]

/-- A word whose tokens are not there stalls. -/
theorem State.withOperands_tokens {s : State} {reads : List Src} (h : (s.seq s.cur.core).phase = 0)
    (c : (s.core s.cur.core).chainReady .seq s.cur.chain = false) (k : State → State) :
    s.withOperands reads k = s.stallSeq 1 := by
  simp only [State.seq] at h
  simp [State.withOperands, h, c]

/-- A word that reads a released register takes Released register trap. -/
theorem State.withOperands_released {s : State} {reads : List Src} {n : BitVec 4} (h : (s.seq s.cur.core).phase = 0)
    (c : (s.core s.cur.core).chainReady .seq s.cur.chain = true)
    (r : (s.seq s.cur.core).releasedRead reads = some n) (k : State → State) :
    s.withOperands reads k = s.trap 0x04 s.cur.addr (dbl n.toNat) := by
  simp only [State.seq] at h r
  simp [State.withOperands, h, c, r]

/-- A retirement releases what the word marks, then writes its result. -/
theorem Seq.retire_shape (q : Seq) (marks : List Src) (r : Option (Dbl × Dest)) :
    ∃ m, q.retire marks r = { q with belt := beltAfter q.belt r, named := namedAfter q.named r, released := m }
      ∧ ∀ k : BitVec 4, m.getLsbD k.toNat = releasedAfter q.released marks r k := by
  obtain ⟨v, hv⟩ := q.release_shape marks
  obtain ⟨m, hm, hb⟩ := Seq.writeOpt_shape (q.release marks) r
  have hbit := fun k => q.release_bit marks k
  rw [hv] at hm hb hbit
  exact ⟨m, by rw [Seq.retire, hv, hm], fun k => by simp only at hb hbit; rw [hb k, hbit k]; rfl⟩

/-- The core after a word that issues: its sequencer explicitly, tokens and flows existentially. -/
theorem Core.issue_shape (x : Core) (wid : Nat) (ch : Chain) (marks : List Src) (clk : Nat) (res : Option (Dbl × Dest))
    (d : Bool) (pc next : Dbl) : ∃ tk fl m, x.issue wid ch marks clk res d pc next =
      { x with
        tokens := tk
        flows := fl
        seq := { x.seq with
          belt := beltAfter x.seq.belt (if clk ≤ 1 then res else none)
          named := namedAfter x.seq.named (if clk ≤ 1 then res else none)
          released := m, occ := clk - 1, pres := if clk ≤ 1 then none else res, marks := if clk ≤ 1 then [] else marks, pc := pc
          fell := decide (pc = next), stall := 0, phase := 0, sweep := [], answer := none, arrived := false,
          occWid := if clk ≤ 1 then none else some wid, cyc := x.seq.cyc + 1 }
        task := x.task.map Task.tick
        res := if x.task.any (·.parked) then
            { x.res with tags := x.res.tags.map fun (p : Nat × ResTag) => (p.1, { p.2 with born := p.2.born + 1 }) }
          else x.res }
      ∧ ∀ k : BitVec 4, m.getLsbD k.toNat =
          releasedAfter x.seq.released (if clk ≤ 1 then marks else []) (if clk ≤ 1 then res else none) k := by
  have hq : ∃ m, (if clk ≤ 1 then x.seq.retire marks res else x.seq) =
      { x.seq with
        belt := beltAfter x.seq.belt (if clk ≤ 1 then res else none)
        named := namedAfter x.seq.named (if clk ≤ 1 then res else none)
        released := m }
      ∧ ∀ k : BitVec 4, m.getLsbD k.toNat =
          releasedAfter x.seq.released (if clk ≤ 1 then marks else []) (if clk ≤ 1 then res else none) k := by
    split
    · exact x.seq.retire_shape marks res
    · exact ⟨x.seq.released, rfl, fun k => by simp [releasedAfter]⟩
  obtain ⟨m, hm, hb⟩ := hq
  simp only [Core.issue, decide_eq_true_eq, hm]
  obtain ⟨tk, fl, h⟩ := Core.beginWord_shape ({ x with
    seq := { x.seq with
      belt := beltAfter x.seq.belt (if clk ≤ 1 then res else none),
      named := namedAfter x.seq.named (if clk ≤ 1 then res else none),
      released := m, occ := clk - 1, pres := if clk ≤ 1 then none else res, marks := if clk ≤ 1 then [] else marks,
      pc := pc, fell := decide (pc = next), stall := 0, phase := 0, sweep := [], answer := none, arrived := false,
      occWid := if clk ≤ 1 then none else some wid } } : Core) .seq wid (decide (clk ≤ 1) && d) ch
  refine ⟨tk, fl, m, ?_, hb⟩
  simp only [h]
  rfl

theorem task_tick_wd (t : Option Task) :
    ((t.map Task.tick).map fun t => { t with wd := 0 }) = t.map fun t => { t with wd := 0 } := by
  cases t with
  | none => rfl
  | some t => simp only [Option.map_some, Task.tick]; split <;> rfl

theorem task_tick_parked (t : Option Task) : (t.map Task.tick).any (·.parked) = t.any (·.parked) := by
  cases t with
  | none => rfl
  | some t => simp only [Option.map_some, Task.tick]; split <;> rfl

theorem task_wd_parked (t : Option Task) :
    (t.map fun t => { t with wd := 0 }).any (·.parked) = t.any (·.parked) := by
  cases t <;> rfl

/-! ## Further cycles -/

/-- Cycles of a core change the sequencer's registers as stated, tokens and flows, and the task's watchdog. -/
theorem Core.occ_shape (n : Nat) : ∀ (x : Core) (w : Nat), x.seq.occ = n + 1 → x.seq.occWid = some w →
    ∃ tk fl tt rr m, Core.occCycle^[n + 1] x =
      { x with
        tokens := tk
        flows := fl
        task := tt
        res := rr
        seq := { x.seq with
          belt := beltAfter x.seq.belt x.seq.pres, named := namedAfter x.seq.named x.seq.pres, released := m,
          occ := 0, pres := none, marks := [], occWid := none, cyc := x.seq.cyc + (n + 1) } }
      ∧ (tt.map fun t => { t with wd := 0 }) = (x.task.map fun t => { t with wd := 0 })
      ∧ (x.task.any (·.parked) = false → rr = x.res)
      ∧ ∀ k : BitVec 4, m.getLsbD k.toNat = releasedAfter x.seq.released x.seq.marks x.seq.pres k := by
  induction n with
  | zero =>
    intro x w ho hw
    obtain ⟨m, hm, hb⟩ := x.seq.retire_shape x.seq.marks x.seq.pres
    simp only [Nat.zero_add, Function.iterate_one, Core.occCycle, ho, hw, hm, if_true]
    obtain ⟨tk, fl, h⟩ := Core.completeWord_shape (Core.cycle { x with seq := { x.seq with
        belt := beltAfter x.seq.belt x.seq.pres, named := namedAfter x.seq.named x.seq.pres, released := m, occ := 0,
        pres := none, marks := [], occWid := none } }) .seq w
    refine ⟨tk, fl, (x.task.map Task.tick).map fun t => { t with wd := 0 },
      if x.task.any (·.parked) then
        { x.res with tags := x.res.tags.map fun (p : Nat × ResTag) => (p.1, { p.2 with born := p.2.born + 1 }) }
      else x.res, m, ?_, ?_, ?_, hb⟩
    · rw [h]; rfl
    · cases x.task with
      | none => rfl
      | some t => exact task_tick_wd (some t)
    · intro hp; simp [hp]
  | succ n ih =>
    intro x w ho hw
    have h1 : Core.occCycle x = ({ x with seq := { x.seq with occ := n + 1 } } : Core).cycle := by
      simp only [Core.occCycle, ho]
      rfl
    obtain ⟨tk, fl, tt, rr, m, h, ht, hr, hb⟩ := ih (Core.occCycle x) w (by rw [h1]; rfl) (by rw [h1]; exact hw)
    rw [Function.iterate_succ_apply, h]
    rw [h1] at ht hr hb
    refine ⟨tk, fl, tt, rr, m, ?_, ?_, ?_, hb⟩
    · rw [h1]
      simp only [Core.cycle]
      congr 2
      omega
    · rw [ht]
      exact task_tick_wd _
    · intro hp
      have hp' : (Core.cycle { x with seq := { x.seq with occ := n + 1 } }).task.any (·.parked) = false := by
        simp only [Core.cycle, task_tick_parked, hp]
      rw [hr hp']
      simp only [Core.cycle, hp]
      rfl

theorem after_shape (c : Nat) (n : Nat) (s : State) :
    ∃ cs, after c n s = { s with cores := cs } ∧ (after c n s).core c = Core.occCycle^[n] (s.core c)
      ∧ ∀ k, k ≠ c → (after c n s).core k = s.core k := by
  induction n generalizing s with
  | zero => exact ⟨_, rfl, rfl, fun _ _ => rfl⟩
  | succ n ih =>
    obtain ⟨cs, h, hc, ho⟩ := ih (s.occCycle c)
    refine ⟨cs, by rw [after, h]; rfl, ?_, fun k hk => ?_⟩
    · rw [after, hc, Function.iterate_succ_apply, State.occCycle, State.core_updCore]
    · rw [after, ho k hk, State.occCycle, State.core_updCore_ne s _ hk]

/-! ## Words that are retired -/

/-- What `Retired` says of the core alone. -/
structure CoreRetired (x y : Core) (clk : Nat) (marks : List Src) (res : Option (Dbl × Dest)) (pc : Dbl)
    (f : Core → Core) : Prop where
  pc : y.seq.pc = pc
  ready : y.seq.stall = 0 ∧ y.seq.phase = 0 ∧ y.seq.occ = 0
  clock : y.seq.cyc = x.seq.cyc + clk
  wrote : Wrote (f x).seq y.seq marks res
  specials : SpecialsKept (f x).seq y.seq
  engines : EnginesKept (f x) y

/-- A step that changes one core alone, but for the numbers given and the free values used. -/
theorem Retired.of_core {s t : State} {clk : Nat} {marks : List Src} {res : Option (Dbl × Dest)} {pc : Dbl}
    {f : Core → Core} (h : CoreRetired (s.core s.cur.core) (t.core s.cur.core) clk marks res pc f)
    (e : ∃ cs i j, t = { s with cores := cs, nextId := i, freeCtr := j })
    (ho : ∀ k, k ≠ s.cur.core → t.core k = s.core k) : Retired s t clk marks res pc f := by
  obtain ⟨cs, i, j, e⟩ := e
  refine ⟨h.pc, h.ready, h.clock, h.wrote, h.specials, h.engines, ho, ?_, ?_⟩
  · rw [e]; exact ⟨fun a => rfl, rfl, ⟨rfl, rfl⟩⟩
  · rw [e]; exact ⟨rfl, rfl, rfl, rfl, ⟨rfl, rfl, rfl⟩, ⟨rfl, rfl⟩, ⟨rfl, rfl, rfl⟩, ⟨rfl, rfl⟩, ⟨rfl, rfl⟩, rfl⟩

/-- The issue of a word, then a change of its loop stack and call depth, then the rest of its cycles. -/
theorem Core.retired_loops (x : Core) (wid : Nat) (ch : Chain) (marks : List Src) (n : Nat) (res : Option (Dbl × Dest))
    (pc next : Dbl) (l : List LoopLevel → Nat → Bool → List LoopLevel) (d : Nat → Nat) (b : Bool → Bool) :
    CoreRetired x (Core.occCycle^[n] (let y := x.issue wid ch marks (n + 1) res true pc next
        { y with
          task := y.task.map fun t => { t with wd := 0 }
          seq := { y.seq with loops := l y.seq.loops y.seq.cd y.seq.th, cd := d y.seq.cd, fell := b y.seq.fell } }))
      (n + 1) marks res pc
      (fun x => { x with seq := { x.seq with loops := l x.seq.loops x.seq.cd x.seq.th, cd := d x.seq.cd } }) := by
  obtain ⟨tk, fl, m, h, hb⟩ := x.issue_shape wid ch marks (n + 1) res true pc next
  cases n with
  | zero =>
    simp only [Nat.zero_add, Nat.le_refl, if_true] at h hb ⊢
    rw [Function.iterate_zero, id]
    simp only [h]
    exact ⟨rfl, ⟨rfl, rfl, rfl⟩, rfl, ⟨rfl, rfl, hb⟩,
      ⟨rfl, ⟨rfl, rfl, rfl⟩, ⟨rfl, rfl, rfl, rfl, rfl⟩, ⟨rfl, rfl⟩, ⟨rfl, rfl, rfl, rfl⟩, ⟨rfl, rfl, rfl⟩⟩,
      ⟨rfl, rfl, rfl, rfl, ⟨rfl, rfl⟩, rfl, rfl, ⟨rfl, rfl, rfl⟩, ⟨rfl, rfl, rfl⟩, fun hp => by simp [hp],
        by cases x.task with
          | none => rfl
          | some t => exact (task_tick_wd ((some t).map Task.tick |>.map fun t => { t with wd := 0 })).symm.trans (by
              simp only [Option.map_some, Task.tick]; split <;> rfl)⟩⟩
  | succ n =>
    have h1 : ¬ n + 1 + 1 ≤ 1 := by omega
    simp only [h1, if_false] at h hb
    simp only [h]
    obtain ⟨tk', fl', tt, rr, m', h', ht, hr, hb'⟩ := Core.occ_shape n ({ x with
        tokens := tk
        flows := fl
        seq := { x.seq with
          belt := beltAfter x.seq.belt none
          named := namedAfter x.seq.named none
          released := m, occ := n + 1 + 1 - 1, pres := res, marks := marks, pc := pc, fell := b (decide (pc = next)),
          stall := 0, phase := 0, sweep := [], answer := none, arrived := false,
          occWid := some wid, cyc := x.seq.cyc + 1, loops := l x.seq.loops x.seq.cd x.seq.th, cd := d x.seq.cd }
        task := (x.task.map Task.tick).map fun t => { t with wd := 0 }
        res := if x.task.any (·.parked) then
            { x.res with tags := x.res.tags.map fun (p : Nat × ResTag) => (p.1, { p.2 with born := p.2.born + 1 }) }
          else x.res } : Core) wid rfl rfl
    rw [h']
    refine ⟨rfl, ⟨rfl, rfl, rfl⟩, ?_, ⟨rfl, rfl, ?_⟩,
      ⟨rfl, ⟨rfl, rfl, rfl⟩, ⟨rfl, rfl, rfl, rfl, rfl⟩, ⟨rfl, rfl⟩, ⟨rfl, rfl, rfl, rfl⟩, ⟨rfl, rfl, rfl⟩⟩,
      ⟨rfl, rfl, rfl, rfl, ⟨rfl, rfl⟩, rfl, rfl, ⟨rfl, rfl, rfl⟩, ⟨rfl, rfl, rfl⟩, ?_, ?_⟩⟩
    · simp only; omega
    · intro k
      simp [hb', hb, releasedAfter]
    · intro hp
      simp only at hr hp
      have hp' : ((x.task.map Task.tick).map fun t => { t with wd := 0 }).any (·.parked) = false := by
        rw [task_wd_parked, task_tick_parked]; exact hp
      simp only [hr hp', hp]
      rfl
    · simp only [ht]
      cases x.task with
      | none => rfl
      | some t => simp only [Option.map_some, Task.tick]; split <;> rfl

/-- A word that falls through or branches, and changes loops and call depth at most. -/
theorem State.retired_loops (s : State) (marks : List Src) (n : Nat) (res : Option (Dbl × Dest)) (pc : Dbl)
    (l : List LoopLevel → Nat → Bool → List LoopLevel) (d : Nat → Nat) (b : Bool → Bool) :
    Retired s (after s.cur.core n ((s.issueAt marks (n + 1) res pc).updSeq s.cur.core fun q =>
        { q with loops := l q.loops q.cd q.th, cd := d q.cd, fell := b q.fell })) (n + 1) marks res pc
      (fun x => { x with seq := { x.seq with loops := l x.seq.loops x.seq.cd x.seq.th, cd := d x.seq.cd } }) := by
  obtain ⟨cs, h, hc, ho⟩ := after_shape s.cur.core n ((s.issueAt marks (n + 1) res pc).updSeq s.cur.core fun q =>
        { q with loops := l q.loops q.cd q.th, cd := d q.cd, fell := b q.fell })
  refine Retired.of_core ?_ ⟨cs, _, _, h⟩ fun k hk => ?_
  · rw [hc]
    simp only [State.updSeq, State.issueAt, State.core_updCore, State.useId_core]
    exact Core.retired_loops _ _ _ _ _ _ _ _ _ _ _
  · rw [ho k hk]
    simp only [State.updSeq, State.issueAt, State.useId_core, State.core_updCore_ne _ _ hk]

/-- A word that has a result at most. -/
theorem State.retired_issueAt (s : State) (marks : List Src) (n : Nat) (res : Option (Dbl × Dest)) (pc : Dbl) :
    Retired s (after s.cur.core n (s.issueAt marks (n + 1) res pc)) (n + 1) marks res pc id := by
  obtain ⟨cs, h, hc, ho⟩ := after_shape s.cur.core n (s.issueAt marks (n + 1) res pc)
  refine Retired.of_core ?_ ⟨cs, _, _, h⟩ fun k hk => ?_
  · rw [hc]
    simp only [State.issueAt, State.core_updCore, State.useId_core]
    exact Core.retired_loops (s.core s.cur.core) s.nextId s.cur.chain marks n res pc s.nextPc (fun l _ _ => l) id id
  · rw [ho k hk]
    simp only [State.issueAt, State.useId_core, State.core_updCore_ne _ _ hk]

theorem State.retired_issue (s : State) (marks : List Src) (res : Option (Dbl × Dest)) :
    Retired s (s.issue marks 1 res) 1 marks res s.nextPc id := s.retired_issueAt marks 0 res s.nextPc

/-! ## A change of the core after the issue -/

/-- A change of a core that leaves what the issue writes and depends on nothing that the issue changes. -/
structure Tame (g : Core → Core) : Prop where
  control : ∀ x, (g x).seq.pc = x.seq.pc ∧ (g x).seq.stall = x.seq.stall ∧ (g x).seq.phase = x.seq.phase
    ∧ (g x).seq.occ = x.seq.occ ∧ (g x).seq.cyc = x.seq.cyc ∧ (g x).seq.belt = x.seq.belt
    ∧ (g x).seq.named = x.seq.named ∧ (g x).seq.released = x.seq.released
  kept : ∀ x y, SpecialsKept x.seq y.seq → EnginesKept x y → SpecialsKept (g x).seq (g y).seq ∧ EnginesKept (g x) (g y)

theorem CoreRetired.change {x y : Core} {clk : Nat} {marks : List Src} {res : Option (Dbl × Dest)} {pc : Dbl}
    {f g : Core → Core} (h : CoreRetired x y clk marks res pc f) (t : Tame g) :
    CoreRetired x (g y) clk marks res pc (g ∘ f) := by
  obtain ⟨c1, c2, c3, c4, c5, c6, c7, c8⟩ := t.control y
  obtain ⟨-, -, -, -, -, d6, d7, d8⟩ := t.control (f x)
  obtain ⟨k1, k2⟩ := t.kept _ _ h.specials h.engines
  refine ⟨c1.trans h.pc, ⟨c2.trans h.ready.1, c3.trans h.ready.2.1, c4.trans h.ready.2.2⟩, c5.trans h.clock,
    ⟨?_, ?_, fun k => ?_⟩, k1, k2⟩
  · simp only [Function.comp, d6, c6]; exact h.wrote.belt
  · simp only [Function.comp, d7, c7]; exact h.wrote.named
  · simp only [Function.comp, d8, c8]; exact h.wrote.released k

/-- A word that issues and completes later has given no result; nothing else differs from a word that is retired. -/
theorem State.retired_issueOpen (s : State) (marks : List Src) :
    Retired s (s.issueOpen marks) 1 marks none s.nextPc id := by
  refine Retired.of_core ?_ ⟨_, _, _, rfl⟩ fun k hk => ?_
  · obtain ⟨tk, fl, m, h, hb⟩ := Core.issue_shape (s.core s.cur.core) s.nextId s.cur.chain marks 1 none false s.nextPc
      s.nextPc
    simp only [State.issueOpen, State.core_updCore, State.useId_core, h, Nat.le_refl, if_true] at hb ⊢
    exact ⟨rfl, ⟨rfl, rfl, rfl⟩, rfl, ⟨rfl, rfl, hb⟩,
      ⟨rfl, ⟨rfl, rfl, rfl⟩, ⟨rfl, rfl, rfl, rfl, rfl⟩, ⟨rfl, rfl⟩, ⟨rfl, rfl, rfl, rfl⟩, ⟨rfl, rfl, rfl⟩⟩,
      ⟨rfl, rfl, rfl, rfl, ⟨rfl, rfl⟩, rfl, rfl, ⟨rfl, rfl, rfl⟩, ⟨rfl, rfl, rfl⟩, fun hp => if_neg
        (ne_true_of_eq_false hp), task_tick_wd _⟩⟩
  · simp only [State.issueOpen, State.useId_core, State.core_updCore_ne _ _ hk]

end Sys2Proof.Machine

namespace Sys2Proof.Safety

open Sys2Proof Sys2Proof.Machine

theorem Retired.core {s t : State} {clk : Nat} {marks : List Src} {res : Option (Dbl × Dest)} {pc : Dbl}
    {f : Core → Core} (h : Retired s t clk marks res pc f) :
    CoreRetired (s.core s.cur.core) (t.core s.cur.core) clk marks res pc f :=
  ⟨h.pc, h.ready, h.clock, h.wrote, h.specials, h.engines⟩

theorem Retired.change {s t : State} {clk : Nat} {marks : List Src} {res : Option (Dbl × Dest)} {pc : Dbl}
    {f g : Core → Core} (h : Retired s t clk marks res pc f) (k : Tame g) :
    Retired s (t.updCore s.cur.core g) clk marks res pc (g ∘ f) := by
  have hc := h.core.change k
  have e : (t.updCore s.cur.core g).core s.cur.core = g (t.core s.cur.core) := State.core_updCore ..
  rw [← e] at hc
  refine ⟨hc.pc, hc.ready, hc.clock, hc.wrote, hc.specials, hc.engines, fun j hj => ?_, ?_, ?_⟩
  · rw [State.core_updCore_ne _ _ hj, h.others j hj]
  · exact ⟨h.memory.1, h.memory.2, h.memory.3⟩
  · exact ⟨h.outside.1, h.outside.2, h.outside.3, h.outside.4, h.outside.5, h.outside.6, h.outside.7, h.outside.8,
      h.outside.9, h.outside.10⟩

/-- Free values used and numbers given before a word issues do not show. -/
theorem Retired.of_counters {s s' t : State} {clk : Nat} {marks : List Src} {res : Option (Dbl × Dest)} {pc : Dbl}
    {f : Core → Core} (h : Retired s' t clk marks res pc f) (e : ∃ i j, s' = { s with nextId := i, freeCtr := j }) :
    Retired s t clk marks res pc f := by
  obtain ⟨i, j, e⟩ := e
  subst e
  exact ⟨h.pc, h.ready, h.clock, h.wrote, h.specials, h.engines, h.others, ⟨h.memory.1, h.memory.2, h.memory.3⟩,
    ⟨h.outside.1, h.outside.2, h.outside.3, h.outside.4, h.outside.5, h.outside.6, h.outside.7, h.outside.8,
      h.outside.9, h.outside.10⟩⟩

/-- A change of the core before the word issues. -/
theorem Retired.before {s t : State} {clk : Nat} {marks : List Src} {res : Option (Dbl × Dest)} {pc : Dbl}
    {f g : Core → Core} (h : Retired (s.updCore s.cur.core g) t clk marks res pc f)
    (k : (g (s.core s.cur.core)).seq.cyc = (s.core s.cur.core).seq.cyc) : Retired s t clk marks res pc (f ∘ g) := by
  have e : (s.updCore s.cur.core g).core s.cur.core = g (s.core s.cur.core) := State.core_updCore ..
  refine ⟨h.pc, h.ready, ?_, ?_, ?_, ?_, fun j hj => ?_, ⟨h.memory.1, h.memory.2, h.memory.3⟩,
    ⟨h.outside.1, h.outside.2, h.outside.3, h.outside.4, h.outside.5, h.outside.6, h.outside.7, h.outside.8,
      h.outside.9, h.outside.10⟩⟩
  · rw [State.seq, State.seq, ← k, ← e]; exact h.clock
  · have := h.wrote; rw [State.updCore_cur, e] at this; exact this
  · have := h.specials; rw [State.updCore_cur, e] at this; exact this
  · have := h.engines; rw [State.updCore_cur, e] at this; exact this
  · rw [h.others j hj, State.core_updCore_ne _ _ hj]

/-- A stall takes no token and writes nothing. -/
theorem Stalled.stallSeq (s : State) (code : Nat) : Stalled s (s.stallSeq code) code := by
  constructor <;> simp only [State.stallSeq, State.seq, State.core_updCore, Core.cycle]
  · exact ⟨trivial, trivial, trivial⟩
  · exact ⟨fun _ => rfl, rfl, rfl, rfl⟩

end Sys2Proof.Safety
end

