-- ==== Sys2Proof/Laws/Integer.lean ====
section
/-! SUPPORT. The integer results of the sequencer are those that R133 gives on patterns of the type's own width. -/

namespace Sys2Proof.Machine

open Sys2Proof Sys2Proof.Safety

theorem State.opd_eq_operand (s : State) (a : Src) : s.opd a = operand s a := by
  cases a <;> rfl

theorem setWidth32_shl (a : Dbl) (n : Nat) : (a <<< n).setWidth 32 = (a.setWidth 32) <<< n := by
  apply BitVec.eq_of_getLsbD_eq
  intro i hi
  simp only [BitVec.getLsbD_setWidth, BitVec.getLsbD_shiftLeft]
  by_cases h : i < n
  · simp [h]
  · have h1 : i < 64 := by omega
    have h2 : i - n < 32 := by omega
    simp [hi, h1, h2]

theorem aluAdd_eq (t : IntTy) (x y : Dbl) : aluAdd t x y = intValue t IntOp.add.result x y := by
  cases t <;> simp [aluAdd, tyOut, intValue, IntOp.result, BitVec.setWidth_add]

theorem aluMul_eq (t : IntTy) (x y : Dbl) : aluMul t x y = intValue t IntOp.mul.result x y := by
  cases t <;> simp [aluMul, tyOut, intValue, IntOp.result, BitVec.setWidth_mul]

theorem aluSub_eq (t : IntTy) (x y : Dbl) : aluSub t x y = intValue t IntOp.sub.result x y := by
  have h : (x - y).setWidth 32 = x.setWidth 32 - y.setWidth 32 := by
    apply BitVec.eq_of_toNat_eq
    have hx := x.isLt
    have hy := y.isLt
    simp only [BitVec.toNat_setWidth, BitVec.toNat_sub]
    omega
  cases t <;> simp [aluSub, tyOut, intValue, IntOp.result, h]

theorem aluAnd_eq (t : IntTy) (x y : Dbl) : aluAnd t x y = intValue t IntOp.and.result x y := by
  cases t <;> simp [aluAnd, tyOut, intValue, IntOp.result, BitVec.setWidth_and]

theorem aluOr_eq (t : IntTy) (x y : Dbl) : aluOr t x y = intValue t IntOp.or.result x y := by
  cases t <;> simp [aluOr, tyOut, intValue, IntOp.result, BitVec.setWidth_or]

theorem aluXor_eq (t : IntTy) (x y : Dbl) : aluXor t x y = intValue t IntOp.xor.result x y := by
  cases t <;> simp [aluXor, tyOut, intValue, IntOp.result, BitVec.setWidth_xor]

theorem aluAndn_eq (t : IntTy) (x y : Dbl) : aluAndn t x y = intValue t IntOp.andn.result x y := by
  have h : (~~~y).setWidth 32 = ~~~(y.setWidth 32) := BitVec.setWidth_not (by decide)
  cases t <;> simp [aluAndn, tyOut, intValue, IntOp.result, BitVec.setWidth_and, h]

theorem mod64_mod32 (n : Nat) : n % 64 % 32 = n % 32 := by omega

theorem toNat_setWidth32_mod (y : Dbl) : (y.setWidth 32).toNat % 32 = y.toNat % 32 := by
  simp only [BitVec.toNat_setWidth]
  omega

theorem aluShl_eq (t : IntTy) (x y : Dbl) : aluShl t x y.toNat = intValue t IntOp.shl.result x y := by
  cases t <;> simp [aluShl, tyOut, tyWidth, intValue, IntOp.result]

theorem dbl_toNat (x : Dbl) : dbl x.toNat = x := by simp [dbl]

theorem aluShr_eq (t : IntTy) (x y : Dbl) : aluShr t x y.toNat = intValue t IntOp.shr.result x y := by
  have h64 : ∀ n : Nat, dbl (x.toNat % 2 ^ 64 / 2 ^ n) = x >>> n := by
    intro n
    apply BitVec.eq_of_toNat_eq
    have hx := x.isLt
    have h1 : x.toNat / 2 ^ n ≤ x.toNat := Nat.div_le_self _ _
    simp only [dbl, BitVec.toNat_ofNat, BitVec.toNat_ushiftRight, Nat.shiftRight_eq_div_pow, Nat.mod_eq_of_lt hx]
    exact Nat.mod_eq_of_lt (by omega)
  have h32 : ∀ n : Nat, (dbl (x.toNat % 2 ^ 32 / 2 ^ n)).setWidth 32 = (x.setWidth 32) >>> n := by
    intro n
    apply BitVec.eq_of_toNat_eq
    have h0 : x.toNat % 2 ^ 32 < 2 ^ 32 := Nat.mod_lt _ (by decide)
    have h1 : x.toNat % 2 ^ 32 / 2 ^ n ≤ x.toNat % 2 ^ 32 := Nat.div_le_self _ _
    simp only [dbl, BitVec.toNat_setWidth, BitVec.toNat_ofNat, BitVec.toNat_ushiftRight, Nat.shiftRight_eq_div_pow]
    generalize x.toNat % 2 ^ 32 / 2 ^ n = q at h1 ⊢
    omega
  cases t <;> simp only [aluShr, tyOut, tyNat, tyWidth, intValue, IntOp.result, h64, h32, toNat_setWidth32_mod]

theorem sar32 (x : Dbl) (n : Nat) :
    ((((x.setWidth 32).signExtend 64 : Dbl)).sshiftRight (n % 32)).setWidth 32 = (x.setWidth 32).sshiftRight (n % 32) := by
  apply BitVec.eq_of_getLsbD_eq
  intro i hi
  have hn : n % 32 < 32 := Nat.mod_lt _ (by decide)
  simp only [BitVec.getLsbD_setWidth, BitVec.getLsbD_sshiftRight, BitVec.getLsbD_signExtend, BitVec.msb_signExtend]
  by_cases h : n % 32 + i < 32
  · have h64 : n % 32 + i < 64 := by omega
    have hi64 : ¬ 64 ≤ i := by omega
    have hi32 : ¬ 32 ≤ i := by omega
    simp [h, h64, hi, hi64, hi32]
  · have h64 : n % 32 + i < 64 := by omega
    have hi64 : ¬ 64 ≤ i := by omega
    have hi32 : ¬ 32 ≤ i := by omega
    simp [h, h64, hi, hi64, hi32]

theorem aluSar_eq (t : IntTy) (x y : Dbl) : aluSar t x y.toNat = intValue t IntOp.sar.result x y := by
  cases t
  · simp [aluSar, tyOut, tyWidth, intValue, IntOp.result]
  · simp [aluSar, tyOut, tyWidth, intValue, IntOp.result]
  · have h := sar32 x y.toNat
    simp [aluSar, tyOut, tyWidth, intValue, IntOp.result, h]
  · have h := sar32 x y.toNat
    simp [aluSar, tyOut, tyWidth, intValue, IntOp.result, h]

/-- A rotation as the sum of its two parts. -/
theorem rol_toNat {w : Nat} (x : BitVec w) (n : Nat) (h : n < w) :
    (x.rotateLeft n).toNat = (x.toNat * 2 ^ n + x.toNat / 2 ^ (w - n)) % 2 ^ w := by
  have hx := x.isLt
  have hp : 2 ^ w = 2 ^ n * 2 ^ (w - n) := by rw [← Nat.pow_add]; congr 1; omega
  have hlt : x.toNat / 2 ^ (w - n) < 2 ^ n := by
    apply Nat.div_lt_of_lt_mul; rw [Nat.mul_comm, ← hp]; exact hx
  have hle : 2 ^ n ≤ 2 ^ w := Nat.pow_le_pow_right (by decide) (by omega)
  rw [BitVec.toNat_rotateLeft, Nat.mod_eq_of_lt h, Nat.shiftLeft_eq, Nat.shiftRight_eq_div_pow]
  have e : x.toNat * 2 ^ n % 2 ^ w = (x.toNat % 2 ^ (w - n)) * 2 ^ n := by
    rw [hp, Nat.mul_comm x.toNat, Nat.mul_mod_mul_left, Nat.mul_comm]
  rw [Nat.add_mod, e, Nat.mod_eq_of_lt (show x.toNat / 2 ^ (w - n) < 2 ^ w by omega)]
  rw [← Nat.shiftLeft_eq, Nat.shiftLeft_add_eq_or_of_lt hlt]
  apply (Nat.mod_eq_of_lt _).symm
  apply Nat.or_lt_two_pow
  · rw [Nat.shiftLeft_eq, hp, Nat.mul_comm (2 ^ n)]
    exact Nat.mul_lt_mul_of_pos_right (Nat.mod_lt _ (Nat.two_pow_pos _)) (Nat.two_pow_pos _)
  · omega

theorem aluRol_eq (t : IntTy) (x y : Dbl) : aluRol t x y.toNat = intValue t IntOp.rol.result x y := by
  have h64 : dbl (x.toNat % 2 ^ 64 * 2 ^ (y.toNat % 64) + x.toNat % 2 ^ 64 / 2 ^ (64 - y.toNat % 64)) =
      x.rotateLeft (y.toNat % 64) := by
    apply BitVec.eq_of_toNat_eq
    rw [rol_toNat x _ (Nat.mod_lt _ (by decide))]
    simp only [dbl, BitVec.toNat_ofNat, Nat.mod_eq_of_lt x.isLt]
  have h32 : (dbl (x.toNat % 2 ^ 32 * 2 ^ (y.toNat % 32) + x.toNat % 2 ^ 32 / 2 ^ (32 - y.toNat % 32))).setWidth 32 =
      (x.setWidth 32).rotateLeft (y.toNat % 32) := by
    apply BitVec.eq_of_toNat_eq
    rw [rol_toNat _ _ (Nat.mod_lt _ (by decide))]
    simp only [dbl, BitVec.toNat_setWidth, BitVec.toNat_ofNat]
    omega
  cases t <;> simp only [aluRol, tyOut, tyNat, tyWidth, intValue, IntOp.result, h64, h32, toNat_setWidth32_mod]

theorem slt_iff {w : Nat} (a b : BitVec w) : a.slt b = decide (a.toInt < b.toInt) := rfl
theorem ult_iff {w : Nat} (a b : BitVec w) : a.ult b = decide (a.toNat < b.toNat) := rfl

theorem aluMin_eq (t : IntTy) (x y : Dbl) : aluMin t x y = intValue t IntOp.min.result x y := by
  cases t <;> simp only [aluMin, tyOut, tyInt, intValue, IntOp.result, slt_iff, ult_iff, if_true, decide_eq_true_eq,
    Int.ofNat_lt, Bool.false_eq_true, if_false] <;> split <;> simp only [*, if_true, if_false]

theorem aluMax_eq (t : IntTy) (x y : Dbl) : aluMax t x y = intValue t IntOp.max.result x y := by
  cases t <;> simp only [aluMax, tyOut, tyInt, intValue, IntOp.result, slt_iff, ult_iff, if_true, decide_eq_true_eq,
    Int.ofNat_lt, Bool.false_eq_true, if_false] <;> split <;> simp only [*, if_true, if_false]

theorem ofInt64_setWidth32 (r : Int) : (BitVec.ofInt 64 r).setWidth 32 = BitVec.ofInt 32 r := by
  apply BitVec.eq_of_toNat_eq
  simp only [BitVec.toNat_setWidth, BitVec.toNat_ofInt]
  omega

/-- High half of a product of patterns, by the product of the numbers they stand for. -/
theorem high64 (p : BitVec (2 * 64)) (m : Int) (h : p = BitVec.ofInt (2 * 64) m) :
    p.extractLsb' 64 64 = BitVec.ofInt 64 (m / 2 ^ 64) := by
  subst h
  apply BitVec.eq_of_toNat_eq
  simp only [BitVec.extractLsb'_toNat, BitVec.toNat_ofInt, Nat.shiftRight_eq_div_pow]
  omega

theorem high32 (p : BitVec (2 * 32)) (m : Int) (h : p = BitVec.ofInt (2 * 32) m) :
    p.extractLsb' 32 32 = BitVec.ofInt 32 (m / 2 ^ 32) := by
  subst h
  apply BitVec.eq_of_toNat_eq
  simp only [BitVec.extractLsb'_toNat, BitVec.toNat_ofInt, Nat.shiftRight_eq_div_pow]
  omega

theorem signExtend_mul_eq {w v : Nat} (a b : BitVec w) :
    a.signExtend v * b.signExtend v = BitVec.ofInt v (a.toInt * b.toInt) := by
  rw [BitVec.ofInt_mul]; rfl

theorem setWidth_eq_ofInt {w v : Nat} (a : BitVec w) : a.setWidth v = BitVec.ofInt v (a.toNat : Int) := by
  apply BitVec.eq_of_toNat_eq
  simp only [BitVec.toNat_setWidth, BitVec.toNat_ofInt]
  omega

theorem setWidth_mul_eq {w v : Nat} (a b : BitVec w) :
    a.setWidth v * b.setWidth v = BitVec.ofInt v ((a.toNat : Int) * b.toNat) := by
  rw [BitVec.ofInt_mul, setWidth_eq_ofInt, setWidth_eq_ofInt]

theorem aluMulh_eq (t : IntTy) (x y : Dbl) : aluMulh t x y = intValue t IntOp.mulh.result x y := by
  cases t
  · exact (high64 _ _ (signExtend_mul_eq _ _)).symm
  · exact (high64 _ _ (setWidth_mul_eq _ _)).symm
  · simp only [aluMulh, tyOutInt, tyOut, tyInt, tyWidth, intValue, IntOp.result, if_true, ofInt64_setWidth32,
      high32 _ _ (signExtend_mul_eq _ _)]
  · simp only [aluMulh, tyOutInt, tyOut, tyInt, tyWidth, intValue, IntOp.result, if_false, Bool.false_eq_true,
      ofInt64_setWidth32, high32 _ _ (setWidth_mul_eq _ _)]

theorem sdiv_ofInt {w : Nat} (a b : BitVec w) : a.sdiv b = BitVec.ofInt w (a.toInt.tdiv b.toInt) := by
  apply BitVec.eq_of_toInt_eq
  rw [BitVec.toInt_sdiv, BitVec.toInt_ofInt]

theorem srem_ofInt {w : Nat} (a b : BitVec w) : a.srem b = BitVec.ofInt w (a.toInt.tmod b.toInt) := by
  rw [← BitVec.toInt_srem, BitVec.ofInt_toInt]

theorem udiv_ofInt {w : Nat} (a b : BitVec w) : a.udiv b = BitVec.ofInt w ((a.toNat : Int).tdiv b.toNat) := by
  apply BitVec.eq_of_toNat_eq
  have h : (a.udiv b).toNat = a.toNat / b.toNat := by simp
  have hlt := (a.udiv b).isLt
  rw [h] at hlt
  rw [h, BitVec.toNat_ofInt, ← Int.ofNat_tdiv]
  refine ((congrArg Int.toNat (Int.natCast_emod _ _).symm).trans ?_).symm
  rw [Int.toNat_natCast]
  exact Nat.mod_eq_of_lt hlt

theorem umod_ofInt {w : Nat} (a b : BitVec w) : a.umod b = BitVec.ofInt w ((a.toNat : Int).tmod b.toNat) := by
  apply BitVec.eq_of_toNat_eq
  have h : (a.umod b).toNat = a.toNat % b.toNat := by simp
  have hlt := (a.umod b).isLt
  rw [h] at hlt
  rw [h, BitVec.toNat_ofInt, ← Int.ofNat_tmod]
  refine ((congrArg Int.toNat (Int.natCast_emod _ _).symm).trans ?_).symm
  rw [Int.toNat_natCast]
  exact Nat.mod_eq_of_lt hlt

theorem toInt_eq_zero {w : Nat} (b : BitVec w) : b.toInt = 0 ↔ b = 0 := by
  rw [← BitVec.toInt_inj]; simp

theorem toNat_int_eq_zero {w : Nat} (b : BitVec w) : (b.toNat : Int) = 0 ↔ b = 0 := by
  rw [← BitVec.toNat_inj]; simp

theorem aluDiv_eq (t : IntTy) (x y : Dbl) : aluDiv t x y = intValue t IntOp.div.result x y := by
  cases t <;> simp only [aluDiv, tyOutInt, tyOut, tyInt, intValue, IntOp.result, if_true, if_false, Bool.false_eq_true,
      sdiv_ofInt, udiv_ofInt, ofInt64_setWidth32, toInt_eq_zero, toNat_int_eq_zero] <;> split <;> simp_all

theorem aluRem_eq (t : IntTy) (x y : Dbl) : aluRem t x y = intValue t IntOp.rem.result x y := by
  cases t <;> simp only [aluRem, tyOutInt, tyOut, tyInt, intValue, IntOp.result, if_true, if_false, Bool.false_eq_true,
      srem_ofInt, umod_ofInt, ofInt64_setWidth32, toInt_eq_zero, toNat_int_eq_zero] <;> split <;> simp_all

/-! ## One operand -/

theorem tyNat_testBit (t : IntTy) (x : Dbl) (i : Nat) (h : i < tyWidth t) : (tyNat t x).testBit i = x.getLsbD i := by
  simp [tyNat, Nat.testBit_mod_two_pow, h, BitVec.testBit_toNat]

theorem leadingZeros_eq (w n : Nat) :
    leadingZeros w n = ((List.range w).takeWhile fun i => !n.testBit (w - 1 - i)).length := by
  induction w with
  | zero => rfl
  | succ w ih =>
    rw [leadingZeros, List.range_succ_eq_map, List.takeWhile_cons]
    simp only [Nat.add_sub_cancel, Nat.sub_zero]
    by_cases h : n.testBit w = true
    · simp [h]
    · simp only [h, Bool.not_eq_true] at h ⊢
      simp only [Bool.not_false, if_true, Bool.false_eq_true, if_false, List.length_cons, ih, List.takeWhile_map,
        List.length_map]
      rw [Nat.add_comm]
      congr 3
      funext i
      simp only [Function.comp]
      congr 2
      omega

theorem trailingZeros_eq (w n : Nat) :
    trailingZeros w n = ((List.range w).takeWhile fun i => !n.testBit i).length := by
  induction w generalizing n with
  | zero => rfl
  | succ w ih =>
    rw [trailingZeros, List.range_succ_eq_map, List.takeWhile_cons]
    by_cases h : n % 2 = 1
    · simp [h, Nat.testBit_zero]
    · have h0 : n % 2 = 0 := by omega
      simp only [h0, Nat.testBit_zero, ih, List.takeWhile_map]
      simp [Function.comp_def, Nat.testBit_succ, Nat.add_comm]

theorem ones_eq (w n : Nat) : ones w n = ((List.range w).filter fun i => n.testBit i).length := by
  induction w generalizing n with
  | zero => rfl
  | succ w ih =>
    rw [ones, List.range_succ_eq_map, List.filter_cons]
    by_cases h : n % 2 = 1
    · simp [h, Nat.testBit_zero, ih, List.filter_map, Function.comp_def, Nat.testBit_succ, Nat.add_comm]
    · have h0 : n % 2 = 0 := by omega
      simp [h0, Nat.testBit_zero, ih, List.filter_map, Function.comp_def, Nat.testBit_succ]

theorem aluNeg_eq (t : IntTy) (x : Dbl) : aluNeg t x = unValue t UnOp.neg.result x := by
  have h : (-x).setWidth 32 = -x.setWidth 32 := by
    apply BitVec.eq_of_toNat_eq
    have hx := x.isLt
    simp only [BitVec.toNat_setWidth, BitVec.toNat_neg]
    omega
  cases t <;> simp only [aluNeg, tyOut, unValue, UnOp.result, h]

theorem aluMov_eq (t : IntTy) (x : Dbl) : tyOut t x = unValue t UnOp.mov.result x := by
  cases t <;> rfl

theorem dbl_setWidth32 (n : Nat) : (dbl n).setWidth 32 = BitVec.ofNat 32 n := by
  apply BitVec.eq_of_toNat_eq
  simp only [dbl, BitVec.toNat_setWidth, BitVec.toNat_ofNat]
  omega

theorem takeWhile_range_congr (w : Nat) (p q : Nat → Bool) (h : ∀ i, i < w → p i = q i) :
    (List.range w).takeWhile p = (List.range w).takeWhile q := by
  have : ∀ l : List Nat, (∀ i ∈ l, p i = q i) → l.takeWhile p = l.takeWhile q := by
    intro l
    induction l with
    | nil => intro _; rfl
    | cons a l ih =>
      intro hl
      rw [List.takeWhile_cons, List.takeWhile_cons, hl a (by simp), ih fun i hi => hl i (by simp [hi])]
  exact this _ fun i hi => h i (List.mem_range.mp hi)

theorem filter_range_congr (w : Nat) (p q : Nat → Bool) (h : ∀ i, i < w → p i = q i) :
    (List.range w).filter p = (List.range w).filter q :=
  List.filter_congr fun i hi => h i (List.mem_range.mp hi)

theorem aluClz_eq (t : IntTy) (x : Dbl) : aluClz t x = unValue t UnOp.clz.result x := by
  have h : leadingZeros (tyWidth t) (tyNat t x) =
      ((List.range (tyWidth t)).takeWhile fun i => !x.getLsbD (tyWidth t - 1 - i)).length := by
    rw [leadingZeros_eq]
    congr 1
    exact takeWhile_range_congr _ _ _ fun i hi => by rw [tyNat_testBit _ _ _ (by omega)]
  have h32 : ∀ i, i < 32 → (!(x.setWidth 32).getLsbD (32 - 1 - i)) = !x.getLsbD (32 - 1 - i) := by
    intro i hi
    have : 32 - 1 - i < 32 := by omega
    simp only [BitVec.getLsbD_setWidth, this, decide_true, Bool.true_and]
  have e := takeWhile_range_congr 32 _ _ h32
  rw [aluClz, h]
  cases t <;> simp only [tyOut, unValue, UnOp.result, tyWidth, dbl_setWidth32, e] <;> rfl

theorem aluCtz_eq (t : IntTy) (x : Dbl) : aluCtz t x = unValue t UnOp.ctz.result x := by
  have h : trailingZeros (tyWidth t) (tyNat t x) =
      ((List.range (tyWidth t)).takeWhile fun i => !x.getLsbD i).length := by
    rw [trailingZeros_eq]
    congr 1
    exact takeWhile_range_congr _ _ _ fun i hi => by rw [tyNat_testBit _ _ _ hi]
  have h32 : ∀ i, i < 32 → (!(x.setWidth 32).getLsbD i) = !x.getLsbD i := by
    intro i hi
    simp only [BitVec.getLsbD_setWidth, hi, decide_true, Bool.true_and]
  have e := takeWhile_range_congr 32 _ _ h32
  rw [aluCtz, h]
  cases t <;> simp only [tyOut, unValue, UnOp.result, tyWidth, dbl_setWidth32, e] <;> rfl

theorem aluPopc_eq (t : IntTy) (x : Dbl) : aluPopc t x = unValue t UnOp.popc.result x := by
  have h : ones (tyWidth t) (tyNat t x) = ((List.range (tyWidth t)).filter fun i => x.getLsbD i).length := by
    rw [ones_eq]
    congr 1
    exact filter_range_congr _ _ _ fun i hi => tyNat_testBit _ _ _ hi
  have h32 : ∀ i, i < 32 → (x.setWidth 32).getLsbD i = x.getLsbD i := by
    intro i hi
    simp only [BitVec.getLsbD_setWidth, hi, decide_true, Bool.true_and]
  have e := filter_range_congr 32 _ _ h32
  rw [aluPopc, h]
  cases t <;> simp only [tyOut, unValue, UnOp.result, tyWidth, dbl_setWidth32, e] <;> rfl

/-! ## Fields, comparisons and special registers -/

theorem extractBits_eq (x : Dbl) (sgn : Bool) (pos len : Nat) (h : len < 64) :
    extractBits x sgn pos (len + 1) = fieldOf x sgn pos (len + 1) := by
  have hv : ((x >>> pos).setWidth (len + 1)).toNat = (x >>> pos).toNat % 2 ^ (len + 1) := by
    rw [BitVec.toNat_setWidth]
  have hle : 2 ^ (len + 1) ≤ 2 ^ 64 := Nat.pow_le_pow_right (by decide) (by omega)
  have hlt : (x >>> pos).toNat % 2 ^ (len + 1) < 2 ^ (len + 1) := Nat.mod_lt _ (Nat.two_pow_pos _)
  have hz : dbl ((x >>> pos).toNat % 2 ^ (len + 1)) = ((x >>> pos).setWidth (len + 1)).setWidth 64 := by
    apply BitVec.eq_of_toNat_eq
    rw [BitVec.toNat_setWidth, hv, dbl, BitVec.toNat_ofNat]
  have hm : ((x >>> pos).toNat % 2 ^ (len + 1)).testBit len = ((x >>> pos).setWidth (len + 1)).msb := by
    rw [BitVec.msb_eq_getLsbD_last, ← BitVec.testBit_toNat, hv, Nat.add_sub_cancel]
  cases sgn with
  | false =>
    simp only [extractBits, fieldOf, Bool.false_and, Bool.false_eq_true, if_false]
    exact hz
  | true =>
    simp only [extractBits, fieldOf, Bool.true_and, Nat.add_sub_cancel, hm, if_true, BitVec.signExtend]
    rw [BitVec.toInt_eq_msb_cond, hv]
    split
    · congr 1
    · exact (BitVec.ofInt_natCast 64 _).symm

theorem condHolds_iff (c : Cond) (a b : Dbl) : condHolds c a b = true ↔ compares c a b := by
  cases c <;> simp [condHolds, compares, BitVec.slt, BitVec.sle, BitVec.ult, BitVec.ule]

theorem insertBits_bit (a b : Dbl) (pos len i : Nat) (h : i < 64) (_ : len < 64) :
    (insertBits a b pos (len + 1)).getLsbD i =
      if pos ≤ i ∧ i < pos + len + 1 then b.getLsbD (i - pos) else a.getLsbD i := by
  have hm : ∀ j, j < 64 → (dbl (2 ^ (len + 1) - 1)).getLsbD j = decide (j < len + 1) := by
    intro j hj
    simp only [dbl, BitVec.getLsbD_ofNat, hj, decide_true, Bool.true_and, Nat.testBit_two_pow_sub_one]
  simp only [insertBits, BitVec.getLsbD_or, BitVec.getLsbD_and, BitVec.getLsbD_not, BitVec.getLsbD_shiftLeft, h,
    decide_true, Bool.true_and]
  by_cases h1 : i < pos
  · have : ¬ (pos ≤ i ∧ i < pos + len + 1) := by omega
    simp [h1]
  · rw [hm (i - pos) (by omega)]
    by_cases h2 : i < pos + len + 1
    · have h3 : i - pos < len + 1 := by omega
      have h4 : pos ≤ i := by omega
      simp [h1, h2, h3, h4]
    · have h3 : ¬ i - pos < len + 1 := by omega
      simp [h1, h2, h3]

theorem imm_add (x : Dbl) {w : Nat} (i : Imm w) : x + immDbl i = BitVec.ofInt 64 (x.toInt + i.int) := by
  rw [BitVec.ofInt_add, BitVec.ofInt_toInt]; rfl

/-- Nothing is a purity violation where no pure task runs. -/
theorem State.impure_ordinary {s : State} (h : Ordinary s s.cur.core) (a b : Nat) (k : State → State) :
    s.impure a b k = k s := by
  simp only [State.impure]
  cases e : (s.core s.cur.core).task with
  | none => rfl
  | some t =>
    simp only [Ordinary, e, Option.any_some] at h
    simp [h]

end Sys2Proof.Machine
end

