-- ==== Sys2Proof/Laws/Translate.lean ====
section
/-! SUPPORT. What translating an address, and checking a scalar access, can change. -/

namespace Sys2Proof.Safety

open Sys2Proof Sys2Proof.Machine

theorem LookedRead.refl (s : State) : LookedRead s s :=
  ⟨⟨fun _ => ⟨_, rfl⟩, fun _ => ⟨_, _, _, rfl⟩, fun _ => ⟨_, rfl⟩, fun _ => ⟨_, _, _, rfl⟩, ⟨_, _, _, _, _, _, _, rfl⟩⟩, rfl, rfl, rfl⟩

theorem Looked.trans {s t u : State} (h : Looked s t) (k : Looked t u) : Looked s u := by
  refine ⟨fun i => ?_, fun d => ?_, fun i => ?_, fun n => ?_, ?_⟩
  · obtain ⟨l, e⟩ := h.cores i
    obtain ⟨m, f⟩ := k.cores i
    exact ⟨m, by rw [f, e]⟩
  · obtain ⟨_, _, _, e⟩ := h.dies d
    obtain ⟨_, _, _, f⟩ := k.dies d
    exact ⟨_, _, _, by rw [f, e]⟩
  · obtain ⟨_, e⟩ := h.slices i
    obtain ⟨_, f⟩ := k.slices i
    exact ⟨_, by rw [f, e]⟩
  · obtain ⟨_, _, _, e⟩ := h.fns n
    obtain ⟨_, _, _, f⟩ := k.fns n
    exact ⟨_, _, _, by rw [f, e]⟩
  · obtain ⟨_, _, _, _, _, _, _, e⟩ := h.rest
    obtain ⟨_, _, _, _, _, _, _, f⟩ := k.rest
    exact ⟨_, _, _, _, _, _, _, by rw [f, e]⟩

theorem LookedRead.trans {s t u : State} (h : LookedRead s t) (k : LookedRead t u) : LookedRead s u :=
  ⟨Looked.trans h.toLooked k.toLooked, k.memory.1.trans h.memory.1, k.memory.2.1.trans h.memory.2.1,
    k.memory.2.2.trans h.memory.2.2⟩

end Sys2Proof.Safety

namespace Sys2Proof.Machine

open Sys2Proof Sys2Proof.Safety

/-- Writes of physical memory change memory, its keys and the free values used. -/
theorem State.writePhys_shape (s : State) (key a : Nat) (bs : List Byte) :
    ∃ m k j, s.writePhys key a bs = { s with mem := m, memKey := k, freeCtr := j } := by
  induction bs generalizing s a with
  | nil => exact ⟨_, _, _, rfl⟩
  | cons b bs ih =>
    obtain ⟨m, k, j, h⟩ := ih (s.writeByte key a b) (a + 1)
    refine ⟨m, k, j, ?_⟩
    rw [State.writePhys, h, State.writeByte]
    split <;> rfl

theorem Looked.writePhys (s : State) (key a : Nat) (bs : List Byte) : Looked s (s.writePhys key a bs) := by
  obtain ⟨m, k, j, h⟩ := s.writePhys_shape key a bs
  rw [h]
  exact ⟨fun _ => ⟨_, rfl⟩, fun _ => ⟨_, _, _, rfl⟩, fun _ => ⟨_, rfl⟩, fun _ => ⟨_, _, _, rfl⟩, ⟨_, _, _, _, _, _, _, rfl⟩⟩

end Sys2Proof.Machine

namespace Sys2Proof.Safety

open Sys2Proof Sys2Proof.Machine

/-- Changes of one die, of one slice and of one function that a lookup may make. -/
theorem LookedRead.updDie (s : State) (d : Nat) (f : Die → Die)
    (h : ∀ x, ∃ l rs os, f x = { x with tlb := l, replicas := rs, openRows := os }) : LookedRead s (s.updDie d f) := by
  refine ⟨⟨fun _ => ⟨_, rfl⟩, fun k => ?_, fun _ => ⟨_, rfl⟩, fun _ => ⟨_, _, _, rfl⟩, ⟨_, _, _, _, _, _, _, rfl⟩⟩, rfl, rfl, rfl⟩
  by_cases e : k = d
  · subst e
    rw [State.die_updDie]
    exact h _
  · rw [State.die_updDie_ne _ _ e]
    exact ⟨_, _, _, rfl⟩

theorem LookedRead.updSlice (s : State) (i : Nat) (f : Slice → Slice) (h : ∀ x, ∃ ws, f x = { x with ways := ws }) :
    LookedRead s (s.updSlice i f) := by
  refine ⟨⟨fun _ => ⟨_, rfl⟩, fun _ => ⟨_, _, _, rfl⟩, fun k => ?_, fun _ => ⟨_, _, _, rfl⟩, ⟨_, _, _, _, _, _, _, rfl⟩⟩, rfl, rfl, rfl⟩
  by_cases e : k = i
  · subst e
    rw [State.slice_updSlice]
    exact h _
  · rw [State.slice_updSlice_ne _ _ e]
    exact ⟨_, rfl⟩

theorem LookedRead.updFn (s : State) (n : Nat) (f : Func → Func)
    (h : ∀ x, ∃ ms ps ts, f x = { x with meters := ms, pending := ps, telemetry := ts }) : LookedRead s (s.updFn n f) := by
  refine ⟨⟨fun _ => ⟨_, rfl⟩, fun _ => ⟨_, _, _, rfl⟩, fun _ => ⟨_, rfl⟩, fun k => ?_, ⟨_, _, _, _, _, _, _, rfl⟩⟩, rfl, rfl, rfl⟩
  by_cases e : k = n
  · subst e
    rw [State.fn_updFn]
    exact h _
  · rw [State.fn_updFn_ne _ _ e]
    exact ⟨_, _, _, rfl⟩

theorem LookedRead.meter (s : State) (fn i n : Nat) : LookedRead s (s.meter fn i n) := by
  rw [State.meter]
  split
  · exact LookedRead.refl s
  · exact LookedRead.updFn s fn _ fun x => by split <;> exact ⟨_, _, _, rfl⟩

theorem LookedRead.telemeter (s : State) (fn i n : Nat) : LookedRead s (s.telemeter fn i n) := by
  rw [State.telemeter]
  split
  · exact LookedRead.updFn s fn _ fun x => ⟨_, _, _, rfl⟩
  · exact LookedRead.refl s

theorem LookedRead.hbmRead (s : State) (fn : Nat) : LookedRead s (s.hbmRead fn) :=
  (LookedRead.meter s fn 11 128).trans (LookedRead.telemeter _ fn 33 1)

theorem LookedRead.hbmWritten (s : State) (fn : Nat) : LookedRead s (s.hbmWritten fn) :=
  (LookedRead.meter s fn 12 128).trans (LookedRead.telemeter _ fn 33 1)

theorem LookedRead.dropReplica (s : State) (d line : Nat) : LookedRead s (s.dropReplica d line) :=
  (LookedRead.updDie s d _ fun _ => ⟨_, _, _, rfl⟩).trans (LookedRead.updSlice _ _ _ fun _ => ⟨_, rfl⟩)

theorem Slice.install_shape (x : Slice) (line set : Nat) (mask : BitVec 16) (stream dirty replica : Bool) :
    ∃ ws, x.install line set mask stream dirty replica = { x with ways := ws } := by
  rw [Slice.install]
  split <;> exact ⟨_, rfl⟩

theorem Slice.hit_shape (x : Slice) (l : L2Line) (mask : BitVec 16) (write : Bool) :
    ∃ ws, x.hit l mask write = { x with ways := ws } := by
  rw [Slice.hit, Slice.touch]
  split <;> split <;> exact ⟨_, rfl⟩

theorem LookedRead.install (s : State) (i fn line : Nat) (mask : BitVec 16) (stream dirty replica : Bool) :
    LookedRead s (s.install i fn line mask stream dirty replica) := by
  rw [State.install]
  have h : LookedRead s (match (s.slice i).victimLine (setOf (128 * line)) mask with
      | none => s
      | some l =>
        if l.line == line then s
        else if l.replica then s.dropReplica (i / 16) l.line
        else if l.dirty then s.hbmWritten fn
        else s) := by
    split
    · exact LookedRead.refl s
    · split
      · exact LookedRead.refl s
      · split
        · exact LookedRead.dropReplica s _ _
        · split
          · exact LookedRead.hbmWritten s fn
          · exact LookedRead.refl s
  exact h.trans (LookedRead.updSlice _ _ _ fun x => Slice.install_shape x ..)

theorem LookedRead.openRow (s : State) (pa : Nat) : LookedRead s (s.openRow pa) :=
  LookedRead.updDie s _ _ fun x => by dsimp only; split <;> exact ⟨_, _, _, rfl⟩

/-- A lookup without a request changes ways, counters, open rows and replicas. -/
theorem LookedRead.quietLookup (s : State) (fn tc : Nat) (write : Bool) (pa : Nat) :
    LookedRead s (s.quietLookup fn tc write pa) := by
  simp only [State.quietLookup]
  split
  · exact LookedRead.refl s
  · have h := LookedRead.telemeter s fn 32 1
    split
    · exact h.trans (LookedRead.updSlice _ _ _ fun x => Slice.hit_shape x ..)
    · split
      · exact h
      · have k := h.trans ((LookedRead.hbmRead _ fn).trans (LookedRead.openRow _ pa))
        generalize (if write then (s.wayCfg fn tc).wpol else (s.wayCfg fn tc).rpol) = pol
        split
        · split
          · exact k.trans (LookedRead.hbmWritten _ fn)
          · exact k
        · exact k.trans (LookedRead.install ..)

theorem LookedRead.quietLookups (fn tc : Nat) (write : Bool) (as : List Nat) : ∀ s : State,
    LookedRead s (s.quietLookups fn tc write as) := by
  induction as with
  | nil => exact LookedRead.refl
  | cons a as ih => exact fun s => (LookedRead.quietLookup s fn tc write a).trans (ih _)

/-- A sequencer's translation enters its TLBs. -/
theorem LookedRead.fillTlb (s : State) (c : Nat) (e : TlbEntry) : LookedRead s (s.fillTlb (.seq c) e) := by
  refine (LookedRead.updDie s (TlbUser.seq c).die (fun d => { d with tlb := lastInsert e d.tlb }) fun _ => ⟨_, _, _, rfl⟩).trans ?_
  refine ⟨⟨fun k => ?_, fun _ => ⟨_, _, _, rfl⟩, fun _ => ⟨_, rfl⟩, fun _ => ⟨_, _, _, rfl⟩, ⟨_, _, _, _, _, _, _, rfl⟩⟩, rfl, rfl, rfl⟩
  simp only [State.fillTlb]
  by_cases h : k = c
  · subst h
    rw [State.core_updCore]
    exact ⟨_, rfl⟩
  · rw [State.core_updCore_ne _ _ h]
    exact ⟨_, rfl⟩

end Sys2Proof.Safety

namespace Sys2Proof.Machine

open Sys2Proof Sys2Proof.Safety

/-- What a translation for a sequencer can change. -/
theorem State.translate_looked (s : State) (c fn : Nat) (root : Dbl) (va : Nat) (n : Need) :
    Looked s (s.translate (.seq c) fn root va n).1 := by
  simp only [State.translate]
  split
  · split
    · exact (LookedRead.refl s).toLooked
    · split <;> exact (LookedRead.refl s).toLooked
  · have q := LookedRead.quietLookups fn 3 false (s.walkReads (TlbUser.seq c).die fn root va) s
    split
    · exact q.toLooked
    · rename_i t l2 _
      split
      · have h := q.toLooked.trans (Looked.trans (Looked.writePhys _ 1 l2.place (leBytes 8 (l2.entry + 32)))
          (LookedRead.fillTlb _ c { t with clean := false }).toLooked)
        split
        · exact h
        · split <;> exact h
      · have h := (q.trans (LookedRead.fillTlb _ c t)).toLooked
        split
        · exact h
        · split <;> exact h

/-- A translation for an access that does not write changes TLBs, and what lookups in the slices change. -/
theorem State.translate_lookedRead (s : State) (c fn : Nat) (root : Dbl) (va : Nat) (n : Need)
    (hn : n.s2.getLsbD 1 = false) : LookedRead s (s.translate (.seq c) fn root va n).1 := by
  simp only [State.translate, hn, Bool.false_and, Bool.false_eq_true, if_false]
  split
  · split
    · exact LookedRead.refl s
    · split <;> exact LookedRead.refl s
  · have q := LookedRead.quietLookups fn 3 false (s.walkReads (TlbUser.seq c).die fn root va) s
    split
    · exact q
    · rename_i t l2 _
      have h := q.trans (LookedRead.fillTlb _ c t)
      split
      · exact h
      · split <;> exact h

/-- What the fetch of a word can change. -/
theorem State.fetchWord_looked (s : State) (c : Nat) (a : Dbl) : LookedRead s (s.fetchWord c a).1 := by
  simp only [State.fetchWord]
  split
  · split
    · exact LookedRead.refl s
    · exact LookedRead.quietLookup ..
  · split
    · exact LookedRead.refl s
    · rename_i t _
      split
      · exact LookedRead.refl s
      · have h := s.translate_lookedRead c t.fn (s.rootOf t.fn t.wq) a.toNat Need.fetch (by decide)
        split
        · rename_i e; rw [e] at h; exact h
        · rename_i e; rw [e] at h; split
          · exact h
          · exact h.trans (LookedRead.quietLookup ..)

theorem State.scalar_looked (s : State) (a : Dbl) (size : Nat) (n : Need) (kinds : List RegKind) :
    Looked s (s.scalar a size n kinds).1 := by
  have r := (LookedRead.refl s).toLooked
  simp only [State.scalar]
  split
  · exact r
  · split
    · exact r
    · split
      · split <;> exact r
      · split
        · exact r
        · rename_i t _
          split
          · have h := s.translate_looked s.cur.core t.fn (s.rootOf t.fn t.wq) a.toNat n
            split
            · rename_i e; rw [e] at h; exact h
            · rename_i e; rw [e] at h; split <;> exact h
          · split <;> exact r

theorem State.scalar_lookedRead (s : State) (a : Dbl) (size : Nat) (n : Need) (kinds : List RegKind)
    (hn : n.s2.getLsbD 1 = false) : LookedRead s (s.scalar a size n kinds).1 := by
  have r := LookedRead.refl s
  simp only [State.scalar]
  split
  · exact r
  · split
    · exact r
    · split
      · split <;> exact r
      · split
        · exact r
        · rename_i t _
          split
          · have h := s.translate_lookedRead s.cur.core t.fn (s.rootOf t.fn t.wq) a.toNat n hn
            split
            · rename_i e; rw [e] at h; exact h
            · rename_i e; rw [e] at h; split <;> exact h
          · split <;> exact r

/-! ## The canonical form of memory -/

theorem State.writeByte_wf (s : State) (key a : Nat) (b : Byte) (h : Memory.wf s.mem = true) :
    Memory.wf (s.writeByte key a b).mem = true := by
  rw [State.writeByte]
  split <;> exact memWrite_wf h

theorem State.writePhys_wf (s : State) (key a : Nat) (bs : List Byte) (h : Memory.wf s.mem = true) :
    Memory.wf (s.writePhys key a bs).mem = true := by
  induction bs generalizing s a with
  | nil => exact h
  | cons b bs ih => exact ih _ _ (s.writeByte_wf key a b h)

theorem State.fillTlb_mem (s : State) (u : TlbUser) (e : TlbEntry) : (s.fillTlb u e).mem = s.mem := by
  cases u <;> rfl

theorem State.translate_wf (s : State) (u : TlbUser) (fn : Nat) (root : Dbl) (va : Nat) (n : Need)
    (h : Memory.wf s.mem = true) : Memory.wf (s.translate u fn root va n).1.mem = true := by
  simp only [State.translate]
  split
  · split
    · exact h
    · split <;> exact h
  · have q : Memory.wf (s.quietLookups fn 3 false (s.walkReads u.die fn root va)).mem = true := by
      rw [(LookedRead.quietLookups fn 3 false (s.walkReads u.die fn root va) s).memory.1]; exact h
    split
    · exact q
    · rename_i t l2 _
      split
      · have k : Memory.wf (((s.quietLookups fn 3 false (s.walkReads u.die fn root va)).writePhys 1 l2.place
            (leBytes 8 (l2.entry + 32))).fillTlb u { t with clean := false }).mem = true := by
          rw [State.fillTlb_mem]; exact State.writePhys_wf _ _ _ _ q
        split
        · exact k
        · split <;> exact k
      · have k : Memory.wf ((s.quietLookups fn 3 false (s.walkReads u.die fn root va)).fillTlb u t).mem = true := by
          rw [State.fillTlb_mem]; exact q
        split
        · exact k
        · split <;> exact k

theorem State.scalar_wf (s : State) (a : Dbl) (size : Nat) (n : Need) (kinds : List RegKind)
    (h : Memory.wf s.mem = true) : Memory.wf (s.scalar a size n kinds).1.mem = true := by
  simp only [State.scalar]
  split
  · exact h
  · split
    · exact h
    · split
      · split <;> exact h
      · split
        · exact h
        · rename_i t _
          split
          · have k := s.translate_wf (.seq s.cur.core) t.fn (s.rootOf t.fn t.wq) a.toNat n h
            split
            · rename_i e; rw [e] at k; exact k
            · rename_i e; rw [e] at k; split <;> exact k
          · split <;> exact h

end Sys2Proof.Machine
end

