-- ==== Sys2Proof/Laws/Control.lean ====
section
/-! SUPPORT. Branches, loops and traps: what the shared operations behind them do. -/

namespace Sys2Proof.Machine

open Sys2Proof Sys2Proof.Safety

/-- A branch leaves the levels that R144 says. -/
theorem Seq.branchOut_eq (t : Dbl) (l : List LoopLevel) : ∀ q : Seq, q.loops = l →
    q.branchOut t l = { q with loops := left t l q.cd q.th } := by
  induction l with
  | nil => intro q h; rw [Seq.branchOut, left, List.dropWhile_nil, ← h]
  | cons v l ih =>
    intro q h
    rw [Seq.branchOut]
    by_cases c : (!v.holds t && v.cd == q.cd && v.th == q.th) = true
    · rw [if_pos c, ih _ rfl, left, left, List.dropWhile_cons_of_pos (by exact c)]
    · rw [if_neg c, left, List.dropWhile_cons_of_neg (by exact c), ← h]

theorem imm_times4 {w : Nat} (i : Imm w) : 4 * immDbl i = BitVec.ofInt 64 (4 * i.int) := by
  rw [BitVec.ofInt_mul]; rfl

/-- A transfer to a checked target. -/
theorem State.retired_transfer (s : State) (marks : List Src) (res : Option (Dbl × Dest)) (target : Dbl)
    (f : Seq → Seq) (l : List LoopLevel → Nat → Bool → List LoopLevel) (d : Nat → Nat)
    (hc : s.inCode s.cur.core target = true)
    (hf : ∀ q : Seq, f q = { q with loops := l q.loops q.cd q.th, cd := d q.cd }) :
    Retired s (after s.cur.core 1 (s.transfer marks res target f)) 2 marks res target (withLoops l d) := by
  rw [State.transfer, if_pos hc]
  simp only [hf]
  exact s.retired_loops marks 1 res target l d fun _ => false

/-- A later change of the program counter. -/
theorem Retired.redirect {s t : State} {clk : Nat} {marks : List Src} {res : Option (Dbl × Dest)} {pc : Dbl}
    {f : Core → Core} (h : Retired s t clk marks res pc f) (pc' : Dbl) (b : Bool) (hh : Bool) :
    Retired s (t.updSeq s.cur.core fun q => { q with pc := pc', fell := b, halted := hh }) clk marks res pc' f := by
  have e : (t.updSeq s.cur.core fun q => { q with pc := pc', fell := b, halted := hh }).core s.cur.core =
      { t.core s.cur.core with seq := { (t.core s.cur.core).seq with pc := pc', fell := b, halted := hh } } := State.core_updCore ..
  obtain ⟨a1, a2, a3, ⟨w1, w2, w3⟩, k, g⟩ := h.core
  refine ⟨?p1, ?p2, ?p3, ?p4, ?_, ?_, fun j hj => ?_, ⟨h.memory.1, h.memory.2, h.memory.3⟩,
    ⟨h.outside.1, h.outside.2, h.outside.3, h.outside.4, h.outside.5, h.outside.6, h.outside.7, h.outside.8,
      h.outside.9, h.outside.10⟩⟩
  case p1 => simp only [State.seq, e]
  case p2 => simp only [State.seq, e]; exact a2
  case p3 => simp only [State.seq, e]; exact a3
  case p4 => simp only [State.seq, e]; exact ⟨w1, w2, w3⟩
  · rw [State.seq, e]; exact ⟨k.1, k.2, k.3, k.4, k.5, k.6⟩
  · rw [e]; exact ⟨g.1, g.2, g.3, g.4, g.5, g.6, g.7, g.8, g.9, g.10, g.11⟩
  · rw [State.updSeq, State.core_updCore_ne _ _ hj, h.others j hj]

theorem State.updSeq_updSeq (s : State) (c : Nat) (f g : Seq → Seq) : (s.updSeq c f).updSeq c g = s.updSeq c fun q => g (f q) := by
  simp only [State.updSeq, State.updCore_updCore]


/-! ## Traps -/

/-- Taking a trap with no load in the landing buffer; a Machine check names the word. -/
theorem State.trap_now (s : State) (cause : Nat) (addr info : Dbl) (h : (s.seq s.cur.core).landing = [])
    (hc : cause ≠ 0x20 := by decide) :
    s.trap cause addr info = s.takeTrap s.cur.core
      ⟨cause, addr, info, s.cur.addr, s.cur.addr + dbl (4 * s.cur.len), s.cur.word, s.cur.ext1⟩ := by
  simp only [State.trap, State.trapWhenLanded, h, hc, if_true, if_false]

/-- A handler-class trap that goes to the handler. -/
theorem State.takeTrap_handler (s : State) (c : Nat) (p : PendTrap) (h : handlerClass p.cause = true)
    (hv : (s.seq c).tvec ≠ 0) (ht : (s.seq c).th = false) : s.takeTrap c p = s.updSeq c fun q => q.enter p := by
  have hv' : ((s.seq c).tvec != 0) = true := by simpa using hv
  simp only [State.takeTrap, h, hv', ht, Bool.not_false, Bool.and_self, if_true]

/-- A trap that parks. -/
theorem State.takeTrap_park (s : State) (c : Nat) (p : PendTrap)
    (h : handlerClass p.cause = false ∨ (s.seq c).tvec = 0 ∨ (s.seq c).th = true) :
    s.takeTrap c p = s.parkSeq c p (handlerClass p.cause && (s.seq c).th)
      (if p.cause = 0x10 then svcDest p.word else none) := by
  have : ¬ (handlerClass p.cause && (s.seq c).tvec != 0 && !(s.seq c).th) = true := by
    rcases h with h | h | h <;> simp [h]
  rw [State.takeTrap]
  exact if_neg this

/-- Entering the handler from a state in which the core has changed no more than a retired word changes it. -/
theorem Entered.of_retired {s t : State} {cause : Nat} {addr info pc : Dbl} (r : Retired s t 1 [] none pc id)
    (p : PendTrap) (hw : p.word.setWidth 64 ||| (p.ext.setWidth 64 <<< 32) = xwordOf s) (hc : p.cause = cause)
    (ha : p.addr = addr) (hi : p.info = info) :
    Entered s (t.updSeq s.cur.core fun q => q.enter p) cause addr info (if p.cause = 0x06 then p.after else p.pc) := by
  have e : (t.updSeq s.cur.core fun q => q.enter p).core s.cur.core =
      { t.core s.cur.core with seq := (t.core s.cur.core).seq.enter p } := State.core_updCore ..
  have hs : (t.updSeq s.cur.core fun q => q.enter p).seq s.cur.core = (t.core s.cur.core).seq.enter p := by
    rw [State.seq, e]
  have hw := hw
  have k := r.specials
  have w := r.wrote
  refine ⟨?_, ?_, ?_, ?_, ?_, ?_, ?_, ?_, ?_, ?_, ⟨?_, ?_⟩, ⟨?_, ?_, ?_, ?_⟩, ?_, ?_, ?_, ?_, ?_⟩
  · rw [hs]; rfl
  · rw [hs, ← hc]; rfl
  · rw [hs, ← ha]; rfl
  · rw [hs, ← hi]; rfl
  · rw [hs, ← hw]; rfl
  · rw [hs]; exact w.belt
  · rw [hs]; rfl
  · rw [hs]; rfl
  · rw [hs]; exact k.handler.2.1
  · rw [hs]; rfl
  · rw [hs]; exact w.named
  · rw [hs]
    apply BitVec.eq_of_getLsbD_eq
    intro i hi
    have h := w.released (BitVec.ofNat 4 i)
    have hn : (BitVec.ofNat 4 i).toNat = i := by rw [BitVec.toNat_ofNat]; omega
    rw [hn] at h
    have : releasedAfter (id (s.core s.cur.core)).seq.released [] none (BitVec.ofNat 4 i) =
        (s.core s.cur.core).seq.released.getLsbD i := by simp [releasedAfter, hn]
    rw [this] at h
    exact h
  · rw [hs]; exact k.handler.2.1
  · rw [hs]; exact k.loops.1
  · rw [hs]; exact k.loops.2
  · rw [hs]; exact k.handler.2.2
  · rw [hs]; exact k.counts
  · rw [e]
    have g := r.engines
    exact ⟨g.queues, g.copy, g.vec, g.mat, g.monitors, g.freezes, g.tlb, g.rows, g.epochs, g.resid, g.task⟩
  · intro j hj
    rw [State.updSeq, State.core_updCore_ne _ _ hj, r.others j hj]
  · exact ⟨r.memory.1, r.memory.2, r.memory.3⟩
  · exact ⟨r.outside.1, r.outside.2, r.outside.3, r.outside.4, r.outside.5, r.outside.6, r.outside.7, r.outside.8,
      r.outside.9, r.outside.10⟩

end Sys2Proof.Machine
end

