-- ==== Sys2Proof/Laws/Engine.lean ====
section
/-! SUPPORT. What the engines' words share: a word that issues changes tokens, flows and its queue alone and moves its
command on, and a vector word on registers that can issue stands in flight with what it writes. -/

namespace Sys2Proof.Machine

open Sys2Proof Sys2Proof.Safety

/-- A queue that a command of it is changed in. -/
theorem mem_modify_queue {qs : List (List Cmd)} {n : Nat} {k : Cmd} (f : Cmd → Cmd) (h : k ∈ qs.getD n []) :
    f k ∈ (qs.modify n fun q => q.map fun j => if j.uid = k.uid then f j else j).getD n [] := by
  rw [List.getD_eq_getElem?_getD] at h ⊢
  rw [List.getElem?_modify_eq]
  cases e : qs[n]? with
  | none => simp [e] at h
  | some q =>
    rw [e] at h
    simp only [Option.getD_some] at h ⊢
    exact List.mem_map.mpr ⟨k, h, if_pos rfl⟩

/-- What an engine word that issues changes: tokens, flows, its queue, the watchdog's count, and a number. -/
theorem State.engineIssue_shape {s : State} {k : Cmd} (done : Bool) (h : s.cmd = some k) :
    ∃ tk fl qs, s.engineIssue done =
        (s.setCore s.cur.core { s.core s.cur.core with
          tokens := tk, flows := fl, queues := qs, task := (s.core s.cur.core).task.map fun t => { t with wd := 0 } }).useId
      ∧ ∃ j ∈ qs.getD (queueIdx s.cur.eng) [], j.uid = k.uid ∧ j.pos = (k.advance s.cur.len).pos
        ∧ j.idx = (k.advance s.cur.len).idx ∧ j.allIssued = (k.advance s.cur.len).allIssued := by
  have hm : k ∈ (s.core s.cur.core).queues.getD (queueIdx s.cur.eng) [] := List.mem_of_find?_eq_some h
  have hu : k.uid = s.cur.cmd := by simpa using List.find?_some h
  have hb : ∃ tk fl, (if (s.cmd.map (·.reloc)).getD false then s.core s.cur.core
      else (s.core s.cur.core).beginWord s.cur.eng s.nextId done s.cur.chain)
        = { s.core s.cur.core with tokens := tk, flows := fl } := by
    split
    · exact ⟨_, _, rfl⟩
    · exact Core.beginWord_shape ..
  obtain ⟨tk, fl, hb⟩ := hb
  rw [State.engineIssue, State.updCore, ← hu]
  simp only [hb]
  refine ⟨tk, fl, _, rfl, _, mem_modify_queue _ hm, ?_⟩
  have ha : (k.advance s.cur.len).uid = k.uid := by
    rw [Cmd.advance]
    split
    · rfl
    · split <;> rfl
  exact ⟨ha, rfl, rfl, rfl⟩

/-! ## Vector words on registers -/

theorem portsOf_registers {l : List (BitVec 4)} (h : ∀ c ∈ l, c.toNat < 8) : portsOf l = [] := by
  rw [portsOf, List.filter_eq_nil_iff]
  intro p _
  simp only [List.any_eq_true, not_exists, not_and, beq_iff_eq]
  intro c hc e
  have := h c hc
  omega

theorem VCtx.opd_register {v : VCtx} {l : List (Nat × List Dbl)} {c : BitVec 4} (h : c.toNat < 8) :
    v.opd l c = v.regs.getD c.toNat [] := if_pos h

/-- The names of a word are among those it may use. -/
theorem VCtx.interlocked_mono {v : VCtx} {cs ds : List (BitVec 4)} {ms ns : List (BitVec 2)} (hc : ∀ c ∈ cs, c ∈ ds)
    (hm : ∀ m ∈ ms, m ∈ ns) (h : v.interlocked ds ns = false) : v.interlocked cs ms = false := by
  simp only [VCtx.interlocked, List.any_eq_false, Bool.or_eq_true, List.any_eq_true, Bool.and_eq_true, not_or, not_exists,
    not_and, List.contains_iff_mem] at h ⊢
  intro f hf
  refine ⟨fun w hw hl hi => (h f hf).1 w hw hl (hc _ hi), ?_⟩
  have := (h f hf).2
  revert this
  cases f.mask with
  | none => exact id
  | some p => simp only [List.contains_iff_mem]; exact fun g hp => g (hm _ hp)

/-- A vector word on registers that can issue stands in flight with what it computes. -/
theorem State.vecWord_issued {i : Instr} {s : State} {k : Cmd} {lat : Nat} {srcs dests codes : List (BitVec 4)}
    {masks names : List (BitVec 2)} {ready : VCtx → Bool} {go : VCtx → (BitVec 4 → List Dbl) → Option VOut} {out : VOut}
    {p : VInfl → Prop} (he : exec i s = .next (s.vecWord lat srcs masks dests ready go)) (hr : VecReady s k codes names)
    (hc : ∀ c ∈ srcs ++ dests, c ∈ codes) (hm : ∀ m ∈ masks, m ∈ names) (hd : ready (s.core s.cur.core).vec.own = true)
    (hg : go (s.core s.cur.core).vec.own ((s.core s.cur.core).vec.own.opd []) = some out)
    (hw : ∀ w ∈ out.writes, w.code ∈ codes)
    (hp : ∀ f : VInfl, f.writes = out.writes → f.mask = out.mask → f.flags = out.flags → f.clear = out.clear →
      f.tab = out.tab → p f) : VecIssued i s k p := by
  obtain ⟨⟨hk, ht, hv, hrel⟩, hroom, hreg, hfree⟩ := hr
  obtain ⟨t, ht⟩ := Option.ne_none_iff_exists'.mp ht
  have hq : (((s.core s.cur.core).queue .vec).find? fun j => j.uid == s.cur.cmd) = some k := by rw [← hv]; exact hk
  have hx : s.vctx = (s.core s.cur.core).vec.own := by simp [State.vctx, hk, hrel]
  have hpo : portsOf srcs = [] := portsOf_registers fun c h => hreg c (hc c (List.mem_append_left _ h))
  have h11 : dests.contains 11 = false := by
    cases e : dests.contains 11 with
    | false => rfl
    | true => exact absurd (hreg _ (hc _ (List.mem_append_right _ (List.contains_iff_mem.mp e)))) (by decide)
  have hw11 : out.writes.filter (fun w => w.code == 11) = [] := by
    rw [List.filter_eq_nil_iff]
    intro w hm' e
    have := hreg _ (hw w hm')
    rw [beq_iff_eq.mp e] at this
    exact absurd this (by decide)
  have hi := VCtx.interlocked_mono hc hm hfree
  let f : VInfl :=
    { wid := s.nextId, cmd := k.uid, index := k.pos, writes := out.writes, mask := out.mask, flags := out.flags
      clear := out.clear, addr := s.vctx.portAddr k 3, lstr := (s.vctx.pset 3).lstr.toNat, tab := out.tab
      latency := lat, meter := out.meter, ops := out.ops }
  let u : State := s.updCore s.cur.core fun x =>
    { x with vec := { x.vec with own := { x.vec.own with infl := x.vec.own.infl ++ [f] } } }
  have hu : s.vecWord lat srcs masks dests ready go = u.engineIssue false := by
    rw [State.vecWord]
    simp only [ht, hk, hx, hi, hd, Nat.not_le.mpr hroom, decide_false, Bool.or_self, Bool.not_true, Bool.false_eq_true,
      if_false, hpo, List.map_nil, List.any_nil, List.findSome?_nil, hg, hw11, h11, List.foldl_nil]
    rw [State.updVctx, State.updCore]
    simp only [hq, hrel, Bool.false_eq_true, if_false]
    simp only [u, f, hx, State.updCore]
  have hcmd : u.cmd = some k := by
    simp only [State.cmd, u, State.updCore_cur, State.core_updCore]
    exact hk
  obtain ⟨tk, fl, qs, e, j, hj, ha, hb, hc', hd'⟩ := State.engineIssue_shape false hcmd
  refine ⟨_, f, he, ⟨?_, ?_⟩, hp f rfl rfl rfl rfl rfl, rfl, ?_, ?_, ?_, ?_⟩
  all_goals rw [hu, e]
  · intro k' h'
    rw [hk] at h'
    cases h'
    refine ⟨j, ?_, ha, hb, hc', hd'⟩
    simp only [State.useId_core, u, State.updCore_cur, State.core_setCore]
    exact hj
  · simp [u, State.seq]
  · simp [u]
  · intro n hn
    simp [u, State.core_setCore_ne, State.core_updCore_ne, hn]
  · exact ⟨fun _ => rfl, rfl, rfl, rfl⟩
  · rfl

/-- The bits of a mask are what its lanes say. -/
theorem maskOf_getLsbD (p : Nat → Bool) {l : Nat} (h : l < 64) : (maskOf p).getLsbD l = p l := by
  have k : ∀ n ≤ 64, ((List.range n).foldl (fun m l => if p l then m ||| BitVec.twoPow 64 l else m) (0 : Dbl)).getLsbD l
      = (decide (l < n) && p l) := by
    intro n hn
    induction n with
    | zero => simp
    | succ n ih =>
      rw [List.range_succ, List.foldl_append, List.foldl_cons, List.foldl_nil]
      have ih := ih (by omega)
      by_cases e : l = n
      · subst e
        split <;> simp_all
      · have d : decide (l < n + 1) = decide (l < n) := by simp; omega
        split <;> simp_all
  rw [maskOf, k 64 (le_refl _)]
  simp [h]

end Sys2Proof.Machine
end

