-- ==== Sys2Proof/Laws/Parking.lean ====
section
/-! SUPPORT. What parking a work queue changes (R356, R358): a task marked as parked, its monitors and donations, its lease
and the queue's record. -/

namespace Sys2Proof.Machine

open Sys2Proof Sys2Proof.Safety

theorem tfind_map {α : Type} (k : Nat) (g : α → α) (t : Tbl α) :
    tfind k (t.map fun (p : Nat × α) => (p.1, g p.2)) = (tfind k t).map g := by
  induction t with
  | nil => rfl
  | cons p t ih =>
    obtain ⟨j, v⟩ := p
    simp only [List.map_cons, tfind]
    split
    · rfl
    · exact ih

theorem tget_map {α : Type} (k : Nat) (g : α → α) (d : α) (h : g d = d) (t : Tbl α) :
    tget (t.map fun (p : Nat × α) => (p.1, g p.2)) k d = g (tget t k d) := by
  rw [tget, tget, tfind_map]
  cases tfind k t with
  | none => exact h.symm
  | some v => rfl

/-- A change of every core that leaves a core at reset as it is. -/
theorem State.core_mapCores (s : State) (g : Core → Core) (h1 : g Core.derailleur = Core.derailleur)
    (h2 : g Core.reset = Core.reset) (k : Nat) :
    ({ s with cores := s.cores.map fun (p : Nat × Core) => (p.1, g p.2) } : State).core k = g (s.core k) := by
  simp only [State.core]
  apply tget_map
  split
  · exact h1
  · exact h2

/-- Nothing that monitors and donations do reaches these. -/
structure Quiet (s t : State) : Prop where
  mem : t.mem = s.mem ∧ t.memKey = s.memKey ∧ t.poison = s.poison ∧ t.rereads = s.rereads
  cur : t.cur = s.cur
  seqs : ∀ k, (t.core k).seq = (s.core k).seq
  frozen : ∀ k, (t.core k).freezes = (s.core k).freezes ∧ (t.core k).queues = (s.core k).queues
  parked : ∀ k, (t.core k).task.any (·.parked) = (s.core k).task.any (·.parked)
  wqs : ∀ f q, t.wq f q = s.wq f q
  pf0 : t.pf0 = s.pf0
  noTlp : ∀ f, (t.fn f).noTlp = (s.fn f).noTlp
  host : t.inbox = s.inbox ∧ t.out = s.out ∧ t.boot = s.boot ∧ t.nextId = s.nextId
  rest : t.reqs = s.reqs ∧ t.invs = s.invs ∧ t.watchMsgs = s.watchMsgs ∧ t.freeCtr = s.freeCtr
  units : ∀ k, (t.core k).copy = (s.core k).copy ∧ (t.core k).vec = (s.core k).vec ∧ (t.core k).mat = (s.core k).mat
    ∧ (t.core k).flows = (s.core k).flows ∧ (t.core k).tokens = (s.core k).tokens ∧ (t.core k).res = (s.core k).res
  slices : ∀ i, (t.slice i).ops = (s.slice i).ops

theorem Quiet.refl (s : State) : Quiet s s :=
  ⟨⟨rfl, rfl, rfl, rfl⟩, rfl, fun _ => rfl, fun _ => ⟨rfl, rfl⟩, fun _ => rfl, fun _ _ => rfl, rfl, fun _ => rfl,
    ⟨rfl, rfl, rfl, rfl⟩, ⟨rfl, rfl, rfl, rfl⟩, fun _ => ⟨rfl, rfl, rfl, rfl, rfl, rfl⟩, fun _ => rfl⟩

theorem Quiet.trans {s t u : State} (h : Quiet s t) (k : Quiet t u) : Quiet s u := by
  refine ⟨⟨k.mem.1.trans h.mem.1, k.mem.2.1.trans h.mem.2.1, k.mem.2.2.1.trans h.mem.2.2.1,
    k.mem.2.2.2.trans h.mem.2.2.2⟩, k.cur.trans h.cur, fun i => (k.seqs i).trans (h.seqs i),
    fun i => ⟨(k.frozen i).1.trans (h.frozen i).1, (k.frozen i).2.trans (h.frozen i).2⟩,
    fun i => (k.parked i).trans (h.parked i), fun f q => (k.wqs f q).trans (h.wqs f q), k.pf0.trans h.pf0,
    fun f => (k.noTlp f).trans (h.noTlp f), ⟨k.host.1.trans h.host.1, k.host.2.1.trans h.host.2.1, k.host.2.2.1.trans h.host.2.2.1,
      k.host.2.2.2.trans h.host.2.2.2⟩, ⟨k.rest.1.trans h.rest.1, k.rest.2.1.trans h.rest.2.1,
      k.rest.2.2.1.trans h.rest.2.2.1, k.rest.2.2.2.trans h.rest.2.2.2⟩, fun i => ?_,
      fun i => (k.slices i).trans (h.slices i)⟩
  obtain ⟨a1, a2, a3, a4, a5, a6⟩ := h.units i
  obtain ⟨b1, b2, b3, b4, b5, b6⟩ := k.units i
  exact ⟨b1.trans a1, b2.trans a2, b3.trans a3, b4.trans a4, b5.trans a5, b6.trans a6⟩

theorem task_any_map (t : Option Task) (f : Task → Task) (h : ∀ t, (f t).parked = t.parked) :
    (t.map f).any (·.parked) = t.any (·.parked) := by
  cases t with
  | none => rfl
  | some t => simp [h]

theorem Quiet.mapTasks (s : State) (fn : Nat) (f : Task → Task) (h : ∀ t, (f t).parked = t.parked) :
    Quiet s (s.mapTasks fn f) := by
  have e := fun k => State.core_mapCores s (fun x => { x with task := x.task.map fun (w : Task) => if w.fn = fn then f w else w })
    rfl rfl k
  refine ⟨⟨rfl, rfl, rfl, rfl⟩, rfl, fun k => ?_, fun k => ⟨?_, ?_⟩, fun k => ?_, fun _ _ => rfl, rfl, fun _ => rfl, ⟨rfl, rfl, rfl, rfl⟩, ⟨rfl, rfl, rfl, rfl⟩, fun k => ?_, fun _ => rfl⟩
  · exact (congrArg Core.seq (e k)).trans rfl
  · exact (congrArg Core.freezes (e k)).trans rfl
  · exact (congrArg Core.queues (e k)).trans rfl
  · refine (congrArg (fun x : Core => x.task.any (·.parked)) (e k)).trans ?_
    apply task_any_map
    intro t
    split
    · exact h t
    · rfl
  · exact ⟨(congrArg Core.copy (e k)).trans rfl, (congrArg Core.vec (e k)).trans rfl, (congrArg Core.mat (e k)).trans rfl,
      (congrArg Core.flows (e k)).trans rfl, (congrArg Core.tokens (e k)).trans rfl, (congrArg Core.res (e k)).trans rfl⟩

theorem Quiet.updFn (s : State) (f : Nat) (g : Func → Func) (h : ∀ x, (g x).queues = x.queues ∧ (g x).noTlp = x.noTlp) :
    Quiet s (s.updFn f g) := by
  refine ⟨⟨rfl, rfl, rfl, rfl⟩, rfl, fun _ => rfl, fun _ => ⟨rfl, rfl⟩, fun _ => rfl, fun k q => ?_, rfl, fun k => ?_, ⟨rfl, rfl, rfl, rfl⟩, ⟨rfl, rfl, rfl, rfl⟩, 
    fun _ => ⟨rfl, rfl, rfl, rfl, rfl, rfl⟩, fun _ => rfl⟩
  · by_cases e : k = f
    · subst e
      simp only [State.wq, State.fn_updFn, Func.queue, (h _).1]
    · simp only [State.wq, State.fn_updFn_ne _ _ e]
  · by_cases e : k = f
    · subst e
      simp only [State.fn_updFn, (h _).2]
    · simp only [State.fn_updFn_ne _ _ e]

theorem Quiet.dropDonations (s : State) (fn : Nat) (p : Donation → Bool) : Quiet s (s.dropDonations fn p) := by
  rw [State.dropDonations]
  split
  · generalize (s.fn fn).donations.filter (fun d => !p d) = l
    exact Quiet.trans (Quiet.updFn s fn (fun f => { f with donations := l, away := f.away.map (Saved.mapTask (Task.withPrio l)) })
      fun x => ⟨rfl, rfl⟩) (Quiet.mapTasks _ fn (Task.withPrio l) fun t => rfl)
  · exact Quiet.refl s

theorem Quiet.giveNoMore (s : State) (c : Nat) : Quiet s (s.giveNoMore c) := by
  rw [State.giveNoMore]
  split
  · exact Quiet.refl s
  · exact Quiet.dropDonations s _ _

/-- A change of one core outside its sequencer, freezes, queues and task. -/
theorem Quiet.updCore (s : State) (c : Nat) (g : Core → Core)
    (h : ∀ x, (g x).seq = x.seq ∧ (g x).freezes = x.freezes ∧ (g x).queues = x.queues ∧ (g x).task = x.task)
    (u : ∀ x, (g x).copy = x.copy ∧ (g x).vec = x.vec ∧ (g x).mat = x.mat ∧ (g x).flows = x.flows ∧ (g x).tokens = x.tokens
      ∧ (g x).res = x.res) :
    Quiet s (s.updCore c g) := by
  have e : ∀ k, ((s.updCore c g).core k).seq = (s.core k).seq ∧ ((s.updCore c g).core k).freezes = (s.core k).freezes
      ∧ ((s.updCore c g).core k).queues = (s.core k).queues ∧ ((s.updCore c g).core k).task = (s.core k).task := by
    intro k
    by_cases hk : k = c
    · subst hk; rw [State.core_updCore]; exact h _
    · rw [State.core_updCore_ne _ _ hk]; exact ⟨rfl, rfl, rfl, rfl⟩
  exact ⟨⟨rfl, rfl, rfl, rfl⟩, rfl, fun k => (e k).1, fun k => ⟨(e k).2.1, (e k).2.2.1⟩, fun k => by rw [(e k).2.2.2],
    fun _ _ => rfl, rfl, fun _ => rfl, ⟨rfl, rfl, rfl, rfl⟩, ⟨rfl, rfl, rfl, rfl⟩, fun k => by
      by_cases hk : k = c
      · subst hk; rw [State.core_updCore]; exact u _
      · rw [State.core_updCore_ne _ _ hk]; exact ⟨rfl, rfl, rfl, rfl, rfl, rfl⟩, fun _ => rfl⟩

theorem Quiet.unmonitor (s : State) (c : Nat) : Quiet s (s.unmonitor c) := by
  rw [State.unmonitor]
  refine Quiet.trans (Quiet.trans ?_ (Quiet.giveNoMore _ c)) (Quiet.updCore _ c _ (fun x => ⟨rfl, rfl, rfl, rfl⟩)
    fun x => ⟨rfl, rfl, rfl, rfl, rfl, rfl⟩)
  have e := fun k => State.core_mapCores s (fun x => { x with portMon := x.portMon.filter fun m => m.core != c }) rfl rfl k
  refine ⟨⟨rfl, rfl, rfl, rfl⟩, rfl, fun k => (congrArg Core.seq (e k)).trans rfl,
    fun k => ⟨(congrArg Core.freezes (e k)).trans rfl, (congrArg Core.queues (e k)).trans rfl⟩,
    fun k => (congrArg (fun x : Core => x.task.any (·.parked)) (e k)).trans rfl, fun _ _ => rfl, rfl, fun _ => rfl, ⟨rfl, rfl, rfl, rfl⟩, ⟨rfl, rfl, rfl, rfl⟩, 
    fun k => ⟨(congrArg Core.copy (e k)).trans rfl, (congrArg Core.vec (e k)).trans rfl, (congrArg Core.mat (e k)).trans rfl,
      (congrArg Core.flows (e k)).trans rfl, (congrArg Core.tokens (e k)).trans rfl, (congrArg Core.res (e k)).trans rfl⟩,
    fun i => ?_⟩
  have h : ({ s with slices := s.slices.map fun (p : Nat × Slice) => (p.1, { p.2 with mons := p.2.mons.filter fun m => m.core != c }) } : State).slice i
      = { s.slice i with mons := (s.slice i).mons.filter fun m => m.core != c } :=
    tget_map i (fun x : Slice => { x with mons := x.mons.filter fun m => m.core != c }) Slice.reset rfl s.slices
  exact (congrArg Slice.ops h).trans rfl

theorem Quiet.dropLease (s : State) (c : Nat) : Quiet s (s.dropLease c) := by
  rw [State.dropLease]
  split
  · exact ⟨⟨rfl, rfl, rfl, rfl⟩, rfl, fun _ => rfl, fun _ => ⟨rfl, rfl⟩, fun _ => rfl, fun _ _ => rfl, rfl, fun _ => rfl, ⟨rfl, rfl, rfl, rfl⟩, ⟨rfl, rfl, rfl, rfl⟩, 
      fun _ => ⟨rfl, rfl, rfl, rfl, rfl, rfl⟩, fun _ => rfl⟩
  · exact Quiet.refl s

theorem State.msix_cases (s : State) (f v : Nat) : ∃ o, s.msix f v = { s with out := o } := by
  rw [State.msix]
  split
  · exact ⟨_, rfl⟩
  · exact ⟨_, rfl⟩

/-- A park is presented where none is, and waits otherwise. -/
theorem State.presentPark_wq (s : State) (fn wq : Nat) (p : Park) :
    ((s.wq fn wq).park = false → ((s.presentPark fn wq p).wq fn wq).park = true
      ∧ ((s.presentPark fn wq p).wq fn wq).pkrec = p.words)
    ∧ ((s.wq fn wq).park = true → ((s.presentPark fn wq p).wq fn wq).pkrec = (s.wq fn wq).pkrec)
    ∧ ((s.presentPark fn wq p).wq fn wq).parks = (s.wq fn wq).parks ++ [p] := by
  have q := Quiet.updFn s fn (fun f => { f with telemetry := lmod f.telemetry 7 (· + 1) }) fun x => ⟨rfl, rfl⟩
  have hq := q.wqs fn wq
  simp only [State.presentPark]
  cases h : (s.wq fn wq).park with
  | true =>
    rw [if_pos (by rw [hq, h])]
    simp only [State.wq_updWq, hq, h]
    exact ⟨fun e => Bool.noConfusion e, fun _ => trivial, trivial⟩
  | false =>
    rw [if_neg (by rw [hq, h]; decide)]
    obtain ⟨o, ho⟩ := ((s.updFn fn fun f => { f with telemetry := lmod f.telemetry 7 (· + 1) }).updWq fn wq
      fun w => { w with park := true, pkrec := p.words, parks := w.parks ++ [p] }).msix_cases fn wq
    rw [ho]
    have e : ∀ t : State, ({ t with out := o } : State).wq fn wq = t.wq fn wq := fun _ => rfl
    rw [e, State.wq_updWq, hq]
    exact ⟨fun _ => ⟨rfl, rfl⟩, fun e => Bool.noConfusion e, rfl⟩

/-- What presenting a park leaves as it was. -/
theorem State.presentPark_rest (s : State) (fn wq : Nat) (p : Park) :
    ∃ fs o, s.presentPark fn wq p = { s with fns := fs, out := o } := by
  simp only [State.presentPark]
  split
  · exact ⟨_, _, rfl⟩
  · obtain ⟨o, ho⟩ := ((s.updFn fn fun f => { f with telemetry := lmod f.telemetry 7 (· + 1) }).updWq fn wq
      fun w => { w with park := true, pkrec := p.words, parks := w.parks ++ [p] }).msix_cases fn wq
    exact ⟨_, o, ho⟩

/-- A park by the task of a core (R356). -/
theorem State.park_shape (s : State) (c cause unit : Nat) (double : Bool) (urec : List Dbl) (svc : Option Dest) (t : Task)
    (h : (s.core c).task = some t) : ∃ u, Quiet (s.updCore c fun x => { x with task := some { t with parked := true } }) u
      ∧ s.park c cause unit double urec svc =
        u.presentPark t.fn t.wq ⟨c, parkWords (parkHeader cause unit double c) t.rseq t.tseq urec, svc⟩ := by
  simp only [State.park, h]
  have q := Quiet.unmonitor (s.updCore c fun x => { x with task := some { t with parked := true } }) c
  split
  · exact ⟨_, q, rfl⟩
  · exact ⟨_, Quiet.trans q (Quiet.dropLease _ c), rfl⟩

end Sys2Proof.Machine
end

