-- ==== Sys2Proof/Laws/Memory.lean ====
section
/-! SUPPORT. What the sequencer's accesses share: a landing entry taken by a word that issues, requests that leave the
core, and the places of the core's own array. -/

namespace Sys2Proof.Safety

open Sys2Proof Sys2Proof.Machine

theorem Retired.stepped {s t : State} {clk : Nat} {marks : List Src} {res : Option (Dbl × Dest)} {pc : Dbl}
    {f : Core → Core} {g : Machine.Seq → Machine.Seq} (h : Retired s t clk marks res pc f)
    (e : (f (s.core s.cur.core)).seq = g (s.seq s.cur.core)) :
    Stepped (s.seq s.cur.core) (t.seq s.cur.core) clk marks res pc g :=
  ⟨h.pc, h.ready, h.clock, e ▸ h.wrote, e ▸ h.specials⟩

theorem CoreRetired.stepped {x y : Core} {clk : Nat} {marks : List Src} {res : Option (Dbl × Dest)} {pc : Dbl}
    {f : Core → Core} {g : Machine.Seq → Machine.Seq} (h : CoreRetired x y clk marks res pc f) (e : (f x).seq = g x.seq) :
    Stepped x.seq y.seq clk marks res pc g :=
  ⟨h.pc, h.ready, h.clock, e ▸ h.wrote, e ▸ h.specials⟩

end Sys2Proof.Safety

namespace Sys2Proof.Machine

open Sys2Proof Sys2Proof.Safety

theorem arrayAt_arrayCore {pa : Nat} (h : isArray pa = true) : arrayAt (arrayCore pa) ((pa - 2 ^ 52) % 2 ^ 19) = pa := by
  simp only [isArray, Bool.and_eq_true, decide_eq_true_eq] at h
  simp only [arrayAt, arrayCore]
  have := Nat.div_add_mod (pa - 2 ^ 52) (2 ^ 19)
  omega

/-- A load or an atomic that lands issues and takes an entry; nothing else of its core differs from a word that is
retired. -/
theorem State.retired_land (s : State) (marks : List Src) (kind : LandKind) (a : Dbl) (d : Dest) (slot : Nat)
    (data : Option (List Byte)) (fwd : List (Nat × Byte)) : ∃ e : Landing,
      Retired s (s.land marks kind a d slot data fwd) 1 marks none s.nextPc
        (fun x => { x with seq := { x.seq with landing := x.seq.landing ++ [e] } })
      ∧ e.id = s.nextId ∧ e.wid = s.nextId ∧ e.kind = kind ∧ e.addr = a ∧ e.due = (s.seq s.cur.core).cyc + slot ∧ e.dest = d
      ∧ e.arrived = data.isSome ∧ e.data = BitVec.ofNat 128 (leNat (data.getD [])) ∧ e.forward = fwd := by
  refine ⟨_, (s.retired_issueOpen marks).change (g := fun x => { x with seq := { x.seq with landing := x.seq.landing ++ [_] } })
    ⟨fun x => ⟨rfl, rfl, rfl, rfl, rfl, rfl, rfl, rfl⟩, fun x y h k => ⟨?_,
      ⟨k.queues, k.copy, k.vec, k.mat, k.monitors, k.freezes, k.tlb, k.rows, k.epochs, k.resid, k.task⟩⟩⟩, rfl, rfl, rfl, rfl, rfl, rfl, rfl, rfl, rfl⟩
  exact ⟨h.shadow, h.handler, h.saved, h.loops, h.counts, ⟨by simp only [h.flight.1], h.flight.2⟩⟩

theorem State.land_shape (s : State) (marks : List Src) (kind : LandKind) (a : Dbl) (d : Dest) (slot : Nat)
    (data : Option (List Byte)) (fwd : List (Nat × Byte)) : ∃ cs,
      s.land marks kind a d slot data fwd = { s with cores := cs, nextId := s.nextId + 1 } := ⟨_, rfl⟩

theorem State.taintRead_seq (s : State) (pa k : Nat) : (s.taintRead pa).seq k = s.seq k := by
  simp only [State.taintRead]
  split
  · by_cases h : k = s.cur.core
    · subst h; simp only [State.seq, State.core_updCore]
    · simp only [State.seq, State.core_updCore_ne _ _ h]
  · rfl

theorem State.taintRead_core (s : State) (pa : Nat) {k : Nat} (h : k ≠ s.cur.core) : (s.taintRead pa).core k = s.core k := by
  simp only [State.taintRead]
  split
  · rw [State.core_updCore_ne _ _ h]
  · rfl

theorem State.taintRead_shape (s : State) (pa : Nat) : ∃ cs, s.taintRead pa = { s with cores := cs } := by
  simp only [State.taintRead]
  split <;> exact ⟨_, rfl⟩

theorem State.taintRead_scalarLine (s : State) (pa : Nat) (a : Dbl) : (s.taintRead pa).scalarLine a = s.scalarLine a := by
  simp only [State.taintRead]
  split
  · simp only [State.scalarLine, State.task, State.updCore_cur, State.core_updCore]
    cases e : (s.core s.cur.core).task with
    | none => rfl
    | some t =>
      simp only [Option.map_some]
      by_cases h : t.isPure = true
      · simp only [if_pos h]; rfl
      · simp only [if_neg h]; rfl
  · rfl

/-! ## What a lookup leaves -/

theorem Looked.cur {s r : State} (h : Looked s r) : r.cur = s.cur := by obtain ⟨_,_,_,_,_,_,_,e⟩ := h.rest; rw [e]
theorem Looked.reqs {s r : State} (h : Looked s r) : r.reqs = s.reqs := by obtain ⟨_,_,_,_,_,_,_,e⟩ := h.rest; rw [e]
theorem Looked.seq {s r : State} (h : Looked s r) (k : Nat) : r.seq k = s.seq k := by
  obtain ⟨l, e⟩ := h.cores k; rw [State.seq, State.seq, e]
theorem LookedRead.kept {s r : State} (h : LookedRead s r) : MemoryKept s r := by
  obtain ⟨a, b, c⟩ := h.memory
  obtain ⟨_,_,_,_,_,_,_,e⟩ := h.rest
  exact ⟨fun x => by rw [a], b, by rw [e]; exact ⟨rfl, rfl⟩⟩
theorem MemoryKept.trans {s t u : State} (h : MemoryKept s t) (k : MemoryKept t u) : MemoryKept s u :=
  ⟨fun a => (k.bytes a).trans (h.bytes a), k.keys.trans h.keys, k.poison.1.trans h.poison.1, k.poison.2.trans h.poison.2⟩
theorem State.dropRetained_shape (s : State) (l) : ∃ cs, s.dropRetained l = { s with cores := cs } := by
  simp only [State.dropRetained]; split
  · split <;> exact ⟨_, rfl⟩
  · exact ⟨_, rfl⟩
theorem State.dropRetained_seq (s : State) (l) (k : Nat) : (s.dropRetained l).seq k = s.seq k := by
  simp only [State.dropRetained]; split
  · split
    · by_cases h : k = s.cur.core
      · subst h; simp only [State.seq, State.core_updCore, Core.dropLine]
      · simp only [State.seq, State.core_updCore_ne _ _ h]
    · rfl
  · rfl
theorem State.dropRetained_core (s : State) (l) {k : Nat} (h : k ≠ s.cur.core) : (s.dropRetained l).core k = s.core k := by
  simp only [State.dropRetained]; split
  · split
    · simp only [State.core_updCore_ne _ _ h]
    · rfl
  · rfl

/-! ## Monitors of a written line (R287) -/

theorem Quiet.updSlice (s : State) (i : Nat) (f : Slice → Slice) (h : ∀ x, (f x).ops = x.ops) :
    Quiet s (s.updSlice i f) :=
  ⟨⟨rfl, rfl, rfl, rfl⟩, rfl, fun _ => rfl, fun _ => ⟨rfl, rfl⟩, fun _ => rfl, fun _ _ => rfl, rfl, fun _ => rfl,
    ⟨rfl, rfl, rfl, rfl⟩, ⟨rfl, rfl, rfl, rfl⟩, fun _ => ⟨rfl, rfl, rfl, rfl, rfl, rfl⟩, fun j => by
      by_cases e : j = i
      · subst e; rw [State.slice_updSlice]; exact h _
      · rw [State.slice_updSlice_ne _ _ e]⟩

theorem Quiet.updDie (s : State) (d : Nat) (f : Die → Die) : Quiet s (s.updDie d f) :=
  ⟨⟨rfl, rfl, rfl, rfl⟩, rfl, fun _ => rfl, fun _ => ⟨rfl, rfl⟩, fun _ => rfl, fun _ _ => rfl, rfl, fun _ => rfl,
    ⟨rfl, rfl, rfl, rfl⟩, ⟨rfl, rfl, rfl, rfl⟩, fun _ => ⟨rfl, rfl, rfl, rfl, rfl, rfl⟩, fun _ => rfl⟩

theorem Quiet.dropReplica (s : State) (d line : Nat) : Quiet s (s.dropReplica d line) :=
  (Quiet.updDie s d _).trans (Quiet.updSlice _ _ _ fun _ => rfl)

theorem Quiet.freshFor (s : State) (d pa : Nat) : Quiet s (s.freshFor d pa) := by
  rw [State.freshFor]
  split
  · exact Quiet.dropReplica ..
  · exact Quiet.refl s

theorem Quiet.fireMon (s : State) (m : HomeMon) : Quiet s (s.fireMon m) := by
  rw [State.fireMon]
  exact ((Quiet.giveNoMore s m.core).trans (Quiet.freshFor ..)).trans (Quiet.updCore _ _ _ (fun x => ⟨rfl, rfl, rfl, rfl⟩)
    fun x => ⟨rfl, rfl, rfl, rfl, rfl, rfl⟩)

theorem Quiet.fireMons (s : State) (l : List HomeMon) : Quiet s (s.fireMons l) := by
  induction l generalizing s with
  | nil => exact Quiet.refl s
  | cons m l ih => exact Quiet.trans (Quiet.fireMon s m) (ih _)

theorem Quiet.setMonsAt (s : State) (pa : Nat) (l : List HomeMon) : Quiet s (s.setMonsAt pa l) := by
  rw [State.setMonsAt]
  split
  · exact Quiet.updCore _ _ _ (fun x => ⟨rfl, rfl, rfl, rfl⟩) fun x => ⟨rfl, rfl, rfl, rfl, rfl, rfl⟩
  · exact Quiet.updSlice _ _ _ fun _ => rfl

theorem Quiet.fireLine (s : State) (pa : Nat) : Quiet s (s.fireLine pa) := by
  simp only [State.fireLine]
  split
  · exact Quiet.refl s
  · exact Quiet.trans (Quiet.setMonsAt ..) (Quiet.fireMons ..)

/-! ## Stores -/

theorem leBytes_length (n v : Nat) : (leBytes n v).length = n := by
  induction n generalizing v with
  | zero => rfl
  | succ n ih => simp [leBytes, ih]

theorem State.irrevocable_seq (s : State) (k : Nat) : s.irrevocable.seq k = s.seq k := by
  simp only [State.irrevocable]
  by_cases h : k = s.cur.core
  · subst h; simp only [State.seq, State.core_updCore]
  · simp only [State.seq, State.core_updCore_ne _ _ h]
theorem State.irrevocable_copy (s : State) (k : Nat) : (s.irrevocable.core k).copy = (s.core k).copy := by
  simp only [State.irrevocable]
  by_cases h : k = s.cur.core
  · subst h; simp only [State.core_updCore]
  · simp only [State.core_updCore_ne _ _ h]

theorem memRead_memWrites {m : List Host.Cell} (w : Memory.wf m = true) (a : Nat) (bs : List Byte) (x : Nat) :
    memRead (memWrites a bs m) x = if a ≤ x ∧ x < a + bs.length then bs.getD (x - a) 0 else memRead m x := by
  split
  · rename_i h
    have := memRead_memWrites_inside (a := a) (i := x - a) (bs := bs) w (by omega)
    rwa [show a + (x - a) = x by omega] at this
  · exact memRead_memWrites_outside w (by omega)

theorem State.irrevocable_scalarLine (s : State) (a : Dbl) : s.irrevocable.scalarLine a = s.scalarLine a := by
  simp only [State.irrevocable, State.scalarLine, State.task, State.updCore_cur, State.core_updCore]
  cases e : (s.core s.cur.core).task with
  | none => rfl
  | some t => rfl

theorem State.storeOut_shape (s : State) (marks : List Src) (a : Dbl) (pa : Nat) (bs : List Byte) :
    ∃ p q, CoreRetired (s.core s.cur.core) ((s.storeOut marks a pa bs).core s.cur.core) 1 marks none s.nextPc
        (fun x => { x with seq := { x.seq with st := x.seq.st + 1, stores := x.seq.stores ++ [p] } })
      ∧ (s.storeOut marks a pa bs).mem = s.mem
      ∧ (s.storeOut marks a pa bs).reqs = s.reqs ++ [q] ∧ p.reqs = [q.id] ∧ p.bytes = bs
      ∧ q.src = .store s.cur.core p.wid ∧ q.kind = .write ∧ q.pa = pa ∧ q.data = bs ∧ q.phase = .travel := by
  refine ⟨⟨s.nextId, s.cur.addr, dbl pa, bs, [s.nextId + 1]⟩, { (s.issueOpen marks).scalarReq (.store s.cur.core s.nextId) .write pa bs.length 0 a with data := bs, id := s.nextId + 1 }, ?_, rfl, rfl, rfl, rfl, rfl, rfl, rfl, rfl, rfl⟩
  have R := (s.retired_issueOpen marks).change (g := fun x => { x with seq := { x.seq with st := x.seq.st + 1, stores := x.seq.stores ++ [⟨s.nextId, s.cur.addr, dbl pa, bs, [s.nextId + 1]⟩] } })
    ⟨fun x => ⟨rfl, rfl, rfl, rfl, rfl, rfl, rfl, rfl⟩, fun x y h k => ⟨⟨h.shadow, h.handler, h.saved, h.loops, ⟨h.counts.1, by simp only [h.counts.2.1], h.counts.2.2⟩, ⟨h.flight.1, by simp only [h.flight.2.1], h.flight.2.2⟩⟩,
      ⟨k.queues, k.copy, k.vec, k.mat, k.monitors, k.freezes, k.tlb, k.rows, k.epochs, k.resid, k.task⟩⟩⟩
  exact R.core

/-! ## Write-backs of probe lines (R191, R193) -/

/-- Probe lines were written back or dropped: requests were sent, and copy engines alone changed. -/
structure Flushed (s t : State) : Prop where
  rest : ∃ cs l i, t = { s with cores := cs, reqs := s.reqs ++ l, nextId := i }
  cores : ∀ k, ∃ cp, t.core k = { s.core k with copy := cp }

theorem Flushed.refl (s : State) : Flushed s s :=
  ⟨⟨s.cores, [], s.nextId, by rw [List.append_nil]⟩, fun _ => ⟨_, rfl⟩⟩

theorem Flushed.trans {s t u : State} (h : Flushed s t) (k : Flushed t u) : Flushed s u := by
  obtain ⟨cs, l, i, e⟩ := h.rest
  obtain ⟨ds, m, j, f⟩ := k.rest
  refine ⟨⟨ds, l ++ m, j, ?_⟩, fun n => ?_⟩
  · rw [f, e, List.append_assoc]
  · obtain ⟨p, a⟩ := h.cores n
    obtain ⟨q, b⟩ := k.cores n
    exact ⟨q, by rw [b, a]⟩

theorem Flushed.copy (s : State) (c : Nat) (g : Core → Core) (h : ∀ x, ∃ cp, g x = { x with copy := cp }) :
    Flushed s (s.updCore c g) := by
  refine ⟨⟨_, [], _, by rw [List.append_nil]; rfl⟩, fun k => ?_⟩
  by_cases e : k = c
  · subst e; rw [State.core_updCore]; exact h _
  · rw [State.core_updCore_ne _ _ e]; exact ⟨_, rfl⟩

theorem Flushed.send (s : State) (r : Req) : Flushed s (s.send r) := ⟨⟨_, _, _, rfl⟩, fun _ => ⟨_, rfl⟩⟩

theorem Flushed.sendRuns (s : State) (c grp : Nat) (l : PLine) (runs : List (Nat × Nat)) :
    Flushed s (s.sendRuns c grp l runs) := by
  induction runs generalizing s with
  | nil => exact Flushed.refl s
  | cons p runs ih =>
    obtain ⟨o, n⟩ := p
    exact Flushed.trans (Flushed.trans (Flushed.send s _) (Flushed.copy _ c _ fun x => ⟨_, rfl⟩)) (ih _)

theorem Flushed.writeBack (s : State) (c grp : Nat) (l : PLine) : Flushed s (s.writeBack c grp l) :=
  Flushed.trans (Flushed.sendRuns ..) (Flushed.copy _ c _ fun x => ⟨_, rfl⟩)

theorem Flushed.writeBackList (s : State) (c grp : Nat) (l : List PLine) : Flushed s (s.writeBackList c grp l) := by
  induction l generalizing s with
  | nil => exact Flushed.refl s
  | cons p l ih => exact Flushed.trans (Flushed.writeBack ..) (ih _)

theorem Flushed.flushBlock (s : State) (a : Dbl) : Flushed s (s.flushBlock a) := by
  simp only [State.flushBlock]
  split
  · simp only [State.flushLine]
    split
    · exact Flushed.trans (Flushed.writeBack ..) (Flushed.copy _ _ _ fun x => ⟨_, rfl⟩)
    · exact Flushed.copy _ _ _ fun x => ⟨_, rfl⟩
  · exact Flushed.refl s

end Sys2Proof.Machine
end

