-- ==== Sys2Proof/Laws/Home.lean ====
section
/-! SUPPORT. Writes at a home: the bytes that a write under a key leaves, and what settling a request leaves alone. -/

namespace Sys2Proof.Machine

open Sys2Proof Sys2Proof.Safety

/-! ## A write within a line of local HBM (R177) -/

theorem bits_line {a b lo len : Nat} (h : a / 128 = b / 128) (k : 7 ≤ lo) : bits a lo len = bits b lo len := by
  have e : ∀ x : Nat, x / 2 ^ lo = x / 128 / 2 ^ (lo - 7) := fun x => by
    rw [Nat.div_div_eq_div_mul, show (128 : Nat) = 2 ^ 7 from rfl, ← Nat.pow_add, show 7 + (lo - 7) = lo by omega]
  rw [bits, bits, e, e, h]

theorem isLocalHbm_line {a b : Nat} (h : a / 128 = b / 128) : isLocalHbm a = isLocalHbm b := by
  have e : (a < 2 ^ 52) ↔ (b < 2 ^ 52) := by omega
  rw [isLocalHbm, isLocalHbm, bits_line h (by decide), bits_line h (by decide), decide_eq_decide.mpr e]

theorem isHbm_line {a b : Nat} (h : a / 128 = b / 128) : isHbm a = isHbm b := by
  have e : (a < 2 ^ 52) ↔ (b < 2 ^ 52) := by omega
  rw [isHbm, isHbm, isLocalHbm_line h, isPeer, isPeer, bits_line h (by decide), bits_line h (by decide), decide_eq_decide.mpr e]

theorem isHbm_of_local {a : Nat} (h : isLocalHbm a = true) : isHbm a = true := by rw [isHbm, h, Bool.true_or]

/-- A write of a byte of a line that stands under its key changes that byte alone. -/
theorem State.readByte_writeByte {s : State} (w : Memory.wf s.mem = true) {key a : Nat} (b : Byte) {lk : LineKey}
    (h : isHbm a = true) (hk : tfind (a / 128) s.memKey = some lk) (he : lk.key = key) :
    (∀ x, (s.writeByte key a b).readByte key x = if x = a then b else s.readByte key x)
    ∧ ∃ lk', tfind (a / 128) (s.writeByte key a b).memKey = some lk' ∧ lk'.key = key := by
  have hw : s.writeByte key a b = { s with
      mem := memWrite a b s.mem
      memKey := tset (a / 128) { lk with known := lk.known ||| BitVec.twoPow 128 (a % 128) } s.memKey
      freeCtr := s.freeCtr + 1 } := by
    simp only [State.writeByte, h, if_true, hk, he]
  refine ⟨fun x => ?_, ⟨{ lk with known := lk.known ||| BitVec.twoPow 128 (a % 128) }, by rw [hw]; exact tfind_tset_same .., he⟩⟩
  rw [hw]
  simp only [State.readByte]
  by_cases hx : isHbm x = true
  · simp only [hx, if_true]
    by_cases e : x / 128 = a / 128
    · rw [e, tfind_tset_same, hk]
      simp only [he, if_true, memRead_memWrite a x b w, BitVec.getLsbD_or, BitVec.getLsbD_twoPow]
      by_cases ex : x = a
      · subst ex
        simp [Nat.mod_lt]
      · have : ¬ a % 128 = x % 128 := by omega
        simp [ex, this]
    · rw [tfind_tset_ne _ _ e]
      have ex : x ≠ a := fun h => e (by rw [h])
      rw [if_neg ex]
      split
      · rename_i l _
        split
        · simp only [memRead_memWrite a x b w, if_neg ex]
        · congr 3
          simp only [memReads, List.map_map]
          apply List.map_congr_left
          intro i hi
          simp only [Function.comp]
          have hi' : i < 128 := List.mem_range.mp hi
          rw [memRead_memWrite a _ b w, if_neg (by omega)]
      · rfl
  · have ex : x ≠ a := fun e => hx (e ▸ h)
    simp only [hx, Bool.false_eq_true, if_false, if_neg ex]
    rw [memRead_memWrite a x b w, if_neg ex]

/-- The same for several bytes of one line. -/
theorem State.readByte_writePhys {s : State} (w : Memory.wf s.mem = true) {key a : Nat} (bs : List Byte) {lk : LineKey}
    (h : isHbm a = true) (hk : tfind (a / 128) s.memKey = some lk) (he : lk.key = key) (hl : a % 128 + bs.length ≤ 128) :
    ∀ x, (s.writePhys key a bs).readByte key x = if a ≤ x ∧ x < a + bs.length then bs.getD (x - a) 0 else s.readByte key x := by
  induction bs generalizing s a lk with
  | nil => intro x; rw [if_neg (by simp)]; rfl
  | cons b bs ih =>
    intro x
    obtain ⟨h1, lk', h2, h3⟩ := State.readByte_writeByte w b h hk he
    simp only [List.length_cons] at hl ⊢
    rw [State.writePhys]
    by_cases hb : bs = []
    · subst hb
      rw [State.writePhys, h1]
      by_cases e : x = a
      · subst e; simp
      · rw [if_neg e, if_neg]; simp only [List.length_nil]; omega
    · have hpos : 0 < bs.length := List.length_pos_iff.mpr hb
      have hd : (a + 1) / 128 = a / 128 := by omega
      have hm : (a + 1) % 128 = a % 128 + 1 := by omega
      rw [ih (s.writeByte_wf key a b w) (by rw [isHbm_line hd]; exact h) (by rw [hd]; exact h2) h3 (by omega) x, h1]
      by_cases e1 : a + 1 ≤ x ∧ x < a + 1 + bs.length
      · rw [if_pos e1, if_pos (by omega), show x - a = x - (a + 1) + 1 by omega, List.getD_cons_succ]
      · rw [if_neg e1]
        by_cases e : x = a
        · subst e; rw [if_pos rfl, if_pos (by omega)]; simp
        · rw [if_neg e, if_neg (by omega)]

theorem leBytes_leNat (l : List Byte) : leBytes l.length (leNat l) = l := by
  induction l with
  | nil => rfl
  | cons b l ih =>
    have h1 : (b.toNat + 256 * leNat l) / 256 = leNat l := by have := b.isLt; omega
    simp only [List.length_cons, leBytes, leNat]
    rw [h1, ih]
    congr 1
    apply BitVec.eq_of_toNat_eq
    simp only [BitVec.toNat_ofNat]
    have := b.isLt
    omega

theorem leNat_lt (l : List Byte) : leNat l < 2 ^ (8 * l.length) := by
  induction l with
  | nil => simp [leNat]
  | cons b l ih =>
    have := b.isLt
    simp only [leNat, List.length_cons, Nat.mul_add, Nat.mul_one, Nat.pow_add] at ih ⊢
    omega

/-! ## Memory and the arithmetic units stay -/

/-- Memory, its keys, and the queues of the homes' arithmetic units are as they were. -/
structure Still (s t : State) : Prop where
  mem : t.mem = s.mem ∧ t.memKey = s.memKey ∧ t.poison = s.poison
  ops : ∀ i, (t.slice i).ops = (s.slice i).ops

theorem Still.refl (s : State) : Still s s := ⟨⟨rfl, rfl, rfl⟩, fun _ => rfl⟩
theorem Still.trans {s t u : State} (h : Still s t) (k : Still t u) : Still s u :=
  ⟨⟨k.mem.1.trans h.mem.1, k.mem.2.1.trans h.mem.2.1, k.mem.2.2.trans h.mem.2.2⟩, fun i => (k.ops i).trans (h.ops i)⟩
theorem Still.of_quiet {s t : State} (h : Quiet s t) : Still s t :=
  ⟨⟨h.mem.1, h.mem.2.1, h.mem.2.2.1⟩, h.slices⟩
theorem Still.readByte {s t : State} (h : Still s t) (k a : Nat) : t.readByte k a = s.readByte k a := by
  simp only [State.readByte, h.mem.1, h.mem.2.1]
theorem Still.readPhys {s t : State} (h : Still s t) (k a n : Nat) : t.readPhys k a n = s.readPhys k a n := by
  simp only [State.readPhys, h.readByte]

theorem Still.park (s : State) (c cause unit : Nat) (double : Bool) (urec : List Dbl) (svc : Option Dest) :
    Still s (s.park c cause unit double urec svc) := by
  cases h : (s.core c).task with
  | none => simp only [State.park, h]; exact Still.refl s
  | some t =>
    obtain ⟨u, q, e⟩ := s.park_shape c cause unit double urec svc t h
    obtain ⟨fs, o, p⟩ := u.presentPark_rest t.fn t.wq ⟨c, parkWords (parkHeader cause unit double c) t.rseq t.tseq urec, svc⟩
    rw [e, p]
    exact Still.trans (t := s.updCore c fun x => { x with task := some { t with parked := true } }) ⟨⟨rfl, rfl, rfl⟩, fun _ => rfl⟩
      (Still.trans (Still.of_quiet q) ⟨⟨rfl, rfl, rfl⟩, fun _ => rfl⟩)

theorem Still.parkSeq (s : State) (c : Nat) (p : PendTrap) (double : Bool) (svc : Option Dest) :
    Still s (s.parkSeq c p double svc) := by
  simp only [State.parkSeq]
  split
  · exact ⟨⟨rfl, rfl, rfl⟩, fun _ => rfl⟩
  · exact Still.trans (t := s.updSeq c _) ⟨⟨rfl, rfl, rfl⟩, fun _ => rfl⟩ (Still.park ..)

theorem Still.trapWhenLanded (s : State) (c : Nat) (p : PendTrap) : Still s (s.trapWhenLanded c p) := by
  rw [State.trapWhenLanded]
  split
  · simp only [State.takeTrap]
    split
    · exact ⟨⟨rfl, rfl, rfl⟩, fun _ => rfl⟩
    · exact Still.parkSeq ..
  · exact ⟨⟨rfl, rfl, rfl⟩, fun _ => rfl⟩

theorem Still.unrelease (s : State) (c : Nat) (pc : Dbl) : Still s (s.unrelease c pc) := by
  simp only [State.unrelease]
  split <;> exact ⟨⟨rfl, rfl, rfl⟩, fun _ => rfl⟩

theorem Still.parkAt (s : State) (c cause : Nat) (pc addr : Dbl) : Still s (s.parkAt c cause pc addr) := by
  have h : Still s (s.useFree.unrelease c pc) :=
    Still.trans (t := s.useFree) ⟨⟨rfl, rfl, rfl⟩, fun _ => rfl⟩ (Still.unrelease ..)
  simp only [State.parkAt]
  split
  · exact Still.trans h ⟨⟨rfl, rfl, rfl⟩, fun _ => rfl⟩
  · exact Still.trans h (Still.trapWhenLanded ..)

theorem Still.updCore (s : State) (c : Nat) (g : Core → Core) : Still s (s.updCore c g) := ⟨⟨rfl, rfl, rfl⟩, fun _ => rfl⟩

theorem Still.dropReq (s : State) (id : Nat) : Still s (s.dropReq id) := ⟨⟨rfl, rfl, rfl⟩, fun _ => rfl⟩

theorem Still.ended_ (s : State) (r : Req) : Still s (s.ended_ r) := by
  simp only [State.ended_]
  split
  · exact Still.trans (Still.dropReq s _) (Still.updCore ..)
  · exact Still.trans (Still.dropReq s _) (Still.updCore ..)
  · split
    · exact Still.trans (Still.trans (Still.trans (Still.dropReq s _) (Still.updCore ..)) (Still.updCore ..)) (Still.parkAt ..)
    · exact Still.trans (Still.trans (Still.dropReq s _) (Still.updCore ..)) (Still.updCore ..)
  · exact Still.dropReq s _
  · refine Still.trans (Still.dropReq s r.id) ?_
    rw [State.reply]; split <;> exact ⟨⟨rfl, rfl, rfl⟩, fun _ => rfl⟩
  · refine Still.trans (Still.dropReq s r.id) ?_
    rw [State.reply]; split <;> exact ⟨⟨rfl, rfl, rfl⟩, fun _ => rfl⟩
  · exact ⟨⟨rfl, rfl, rfl⟩, fun _ => rfl⟩

/-- What ends a request leaves memory and the arithmetic units alone. -/
theorem Still.finish (s : State) (r : Req) : Still s (s.finish r) := by
  simp only [State.finish]
  generalize (if s.answerLost r = true then { r with poison := true } else r) = r
  split
  · exact ⟨⟨rfl, rfl, rfl⟩, fun _ => rfl⟩
  · exact Still.ended_ ..

theorem Still.settleReq (s : State) (r : Req) (dies : List Nat) (w : Option Nat) : Still s (s.settleReq r dies w) := by
  simp only [State.settleReq]
  split
  · exact Still.finish ..
  · exact ⟨⟨rfl, rfl, rfl⟩, fun _ => rfl⟩

theorem Still.meter (s : State) (fn i n : Nat) : Still s (s.meter fn i n) := by
  simp only [State.meter]
  repeat' split
  all_goals exact ⟨⟨rfl, rfl, rfl⟩, fun _ => rfl⟩

theorem Still.updDie (s : State) (d : Nat) (f : Die → Die) : Still s (s.updDie d f) := ⟨⟨rfl, rfl, rfl⟩, fun _ => rfl⟩

theorem Still.reclaim (s : State) (d : Nat) : Still s (s.reclaim d) := by
  simp only [State.reclaim]
  split
  · exact Still.refl s
  · split <;> exact ⟨⟨rfl, rfl, rfl⟩, fun _ => rfl⟩

theorem Still.countRemote (s : State) (r : Req) (w : Bool) : Still s (s.countRemote r w) := by
  simp only [State.countRemote]
  split
  · exact Still.refl s
  · split
    · exact Still.updDie ..
    · split
      · exact Still.updDie ..
      · exact Still.trans (Still.reclaim ..) (Still.updDie ..)

/-- What a write at a home causes beside its bytes. -/
theorem State.writeHome_still (s : State) (key pa : Nat) (bs : List Byte) (req : Nat) :
    Still (s.writePhys key pa bs) (s.writeHome key pa bs req).1
    ∧ (s.writeHome key pa bs req).1.reqs = (s.writePhys key pa bs).reqs := by
  have q := Quiet.fireLine (s.writePhys key pa bs) pa
  simp only [State.writeHome]
  generalize (s.writePhys key pa bs).fireLine pa = u at q
  have h1 : ∃ ds is, (u.unreplicate pa req).1 = { u with dies := ds, invs := is } := by
    simp only [State.unreplicate]
    split
    · exact ⟨_, _, rfl⟩
    · split <;> exact ⟨_, _, rfl⟩
  obtain ⟨ds, is, h1⟩ := h1
  generalize (u.unreplicate pa req).1 = v at h1 ⊢
  have h2 : ∃ ds ws i, (v.fireWatch pa).1 = { v with dies := ds, watchMsgs := ws, nextId := i } := by
    simp only [State.fireWatch]
    split
    · exact ⟨_, _, _, rfl⟩
    · split <;> exact ⟨_, _, _, rfl⟩
  obtain ⟨ds', ws, i, h2⟩ := h2
  rw [h2, h1]
  exact ⟨Still.trans (Still.of_quiet q) ⟨⟨rfl, rfl, rfl⟩, fun _ => rfl⟩, q.rest.1⟩

end Sys2Proof.Machine
end

