-- ==== Sys2Proof/Laws/Walker.lean ====
section
/-! SUPPORT. What the accesses of a walker and the settlement of an array leave as it was: sequencers, which task stands
where, lookups, registries, counters and parks; and memory keeps its canonical form. -/

namespace Sys2Proof.Machine

open Sys2Proof Sys2Proof.Safety

/-- Fields of a task that neither priorities nor settlement change. -/
def Task.name (t : Task) : (Nat × Nat × Nat × Nat) × List Nat × (Bool × Bool × Bool) × Option Nat × Option Nat :=
  ((t.fn, t.wq, t.rseq, t.tseq), t.members, (t.finished, t.yielded, t.parked), t.stopping, t.stopped)

/-- Fields of a function that walkers only add to by name. -/
structure FuncKept (x y : Func) : Prop where
  lists : y.registry = x.registry ∧ y.fwctr = x.fwctr ∧ y.noTlp = x.noTlp ∧ y.bound = x.bound
  queues : ∀ q, (y.queue q).park = (x.queue q).park ∧ (y.queue q).pkrec = (x.queue q).pkrec
    ∧ (y.queue q).parks = (x.queue q).parks ∧ (y.queue q).att = (x.queue q).att ∧ (y.queue q).s1root = (x.queue q).s1root
  cpls : ∀ q, ∀ r ∈ (y.queue q).records, ∃ o ∈ (x.queue q).records, o.cpl = r.cpl
  away : ∀ v ∈ x.away, ∃ u ∈ y.away, u.place = v.place ∧ u.addr = v.addr ∧ u.task.name = v.task.name

theorem FuncKept.refl (x : Func) : FuncKept x x :=
  ⟨⟨rfl, rfl, rfl, rfl⟩, fun _ => ⟨rfl, rfl, rfl, rfl, rfl⟩, fun _ r h => ⟨r, h, rfl⟩, fun v h => ⟨v, h, rfl, rfl, rfl⟩⟩

theorem FuncKept.trans {x y z : Func} (h : FuncKept x y) (k : FuncKept y z) : FuncKept x z := by
  obtain ⟨⟨a1, a2, a3, a4⟩, hq, hc, ha⟩ := h
  obtain ⟨⟨b1, b2, b3, b4⟩, kq, kc, ka⟩ := k
  refine ⟨⟨b1.trans a1, b2.trans a2, b3.trans a3, b4.trans a4⟩, fun q => ?_, fun q r hr => ?_, fun v hv => ?_⟩
  · obtain ⟨c1, c2, c3, c4, c5⟩ := hq q
    obtain ⟨d1, d2, d3, d4, d5⟩ := kq q
    exact ⟨d1.trans c1, d2.trans c2, d3.trans c3, d4.trans c4, d5.trans c5⟩
  · obtain ⟨o, ho, e⟩ := kc q r hr
    obtain ⟨p, hp, f⟩ := hc q o ho
    exact ⟨p, hp, f.trans e⟩
  · obtain ⟨u, hu, e1, e2, e3⟩ := ha v hv
    obtain ⟨w, hw, f1, f2, f3⟩ := ka u hu
    exact ⟨w, hw, f1.trans e1, f2.trans e2, f3.trans e3⟩

/-- Work of a walker, or of the unit that settles an array. -/
structure Walked (s t : State) : Prop where
  cur : t.cur = s.cur
  seqs : ∀ k, (t.core k).seq = (s.core k).seq
  who : ∀ k, (t.core k).task.map Task.name = (s.core k).task.map Task.name
  frozen : ∀ k, (t.core k).freezes = (s.core k).freezes
  lookups : ∀ d, (t.die d).lookup = (s.die d).lookup
  fns : ∀ f, FuncKept (s.fn f) (t.fn f)
  wf : Memory.wf s.mem = true → Memory.wf t.mem = true

theorem Walked.refl (s : State) : Walked s s :=
  ⟨rfl, fun _ => rfl, fun _ => rfl, fun _ => rfl, fun _ => rfl, fun _ => FuncKept.refl _, id⟩

theorem Walked.trans {s t u : State} (h : Walked s t) (k : Walked t u) : Walked s u :=
  ⟨k.cur.trans h.cur, fun i => (k.seqs i).trans (h.seqs i), fun i => (k.who i).trans (h.who i),
    fun i => (k.frozen i).trans (h.frozen i), fun i => (k.lookups i).trans (h.lookups i),
    fun i => FuncKept.trans (h.fns i) (k.fns i), k.wf ∘ h.wf⟩

/-- Cores, dies, functions and memory stay. -/
theorem Walked.aside {s t : State} (h : t.cur = s.cur ∧ t.cores = s.cores ∧ t.dies = s.dies ∧ t.fns = s.fns ∧ t.mem = s.mem) :
    Walked s t := by
  obtain ⟨h1, h2, h3, h4, h5⟩ := h
  have hc : ∀ k, t.core k = s.core k := fun k => by simp only [State.core, h2]
  have hd : ∀ k, t.die k = s.die k := fun k => by simp only [State.die, h3]
  have hf : ∀ k, t.fn k = s.fn k := fun k => by simp only [State.fn, h4]
  exact ⟨h1, fun k => by rw [hc], fun k => by rw [hc], fun k => by rw [hc], fun k => by rw [hd],
    fun k => by rw [hf]; exact FuncKept.refl _, by rw [h5]; exact id⟩

theorem Walked.updCore (s : State) (c : Nat) (g : Core → Core)
    (h : ∀ x, (g x).seq = x.seq ∧ (g x).task.map Task.name = x.task.map Task.name ∧ (g x).freezes = x.freezes) :
    Walked s (s.updCore c g) := by
  have e : ∀ k, ((s.updCore c g).core k).seq = (s.core k).seq
      ∧ ((s.updCore c g).core k).task.map Task.name = (s.core k).task.map Task.name
      ∧ ((s.updCore c g).core k).freezes = (s.core k).freezes := by
    intro k
    by_cases hk : k = c
    · subst hk; rw [State.core_updCore]; exact h _
    · rw [State.core_updCore_ne _ _ hk]; exact ⟨rfl, rfl, rfl⟩
  exact ⟨rfl, fun k => (e k).1, fun k => (e k).2.1, fun k => (e k).2.2, fun _ => rfl, fun _ => FuncKept.refl _, id⟩

theorem Walked.updDie (s : State) (d : Nat) (g : Die → Die) (h : ∀ x, (g x).lookup = x.lookup) : Walked s (s.updDie d g) := by
  refine ⟨rfl, fun _ => rfl, fun _ => rfl, fun _ => rfl, fun k => ?_, fun _ => FuncKept.refl _, id⟩
  by_cases e : k = d
  · subst e; rw [State.die_updDie]; exact h _
  · rw [State.die_updDie_ne _ _ e]

theorem Walked.updFn (s : State) (f : Nat) (g : Func → Func) (h : ∀ x, FuncKept x (g x)) : Walked s (s.updFn f g) := by
  refine ⟨rfl, fun _ => rfl, fun _ => rfl, fun _ => rfl, fun _ => rfl, fun k => ?_, id⟩
  by_cases e : k = f
  · subst e; rw [State.fn_updFn]; exact h _
  · rw [State.fn_updFn_ne _ _ e]; exact FuncKept.refl _

/-- A change of functions outside queues, registry, counters and tasks away. -/
theorem FuncKept.of_eq {x y : Func} (h : y.registry = x.registry ∧ y.fwctr = x.fwctr ∧ y.noTlp = x.noTlp ∧ y.bound = x.bound
    ∧ y.queues = x.queues ∧ y.away = x.away) : FuncKept x y := by
  obtain ⟨a, b, c, d, e, f⟩ := h
  have hq : ∀ q, y.queue q = x.queue q := fun q => by simp only [Func.queue, e]
  exact ⟨⟨a, b, c, d⟩, fun q => by rw [hq]; exact ⟨rfl, rfl, rfl, rfl, rfl⟩, fun q r h => ⟨r, hq q ▸ h, rfl⟩,
    fun v hv => ⟨v, f ▸ hv, rfl, rfl, rfl⟩⟩

theorem Walked.updRecord (s : State) (fn wq n : Nat) (g : Record → Record) (hg : ∀ r, (g r).cpl = r.cpl) :
    Walked s (s.updRecord fn wq n g) := by
  refine Walked.updFn s fn (fun x => { x with queues := tset wq ({ x.queue wq with records := (x.queue wq).records.map fun (r : Record) => if r.seq = n then g r else r } : WorkQueue) x.queues })
    fun x => ⟨⟨rfl, rfl, rfl, rfl⟩, fun q => ?_, fun q r hr => ?_, fun v h => ⟨v, h, rfl, rfl, rfl⟩⟩
  · by_cases e : q = wq
    · subst e; simp [Func.queue, tget_tset_same]
    · simp [Func.queue, tget_tset_ne _ _ _ e]
  · by_cases e : q = wq
    · subst e
      simp only [Func.queue, tget_tset_same] at hr
      obtain ⟨o, ho, e⟩ := List.mem_map.mp hr
      refine ⟨o, ho, ?_⟩
      rw [← e]
      split
      · exact (hg o).symm
      · rfl
    · simp only [Func.queue, tget_tset_ne _ _ _ e] at hr
      exact ⟨r, hr, rfl⟩

/-! ## Monitors and donations -/

theorem task_names (t : Option Task) (f : Task → Task) (h : ∀ t, (f t).name = t.name) :
    (t.map f).map Task.name = t.map Task.name := by
  cases t with
  | none => rfl
  | some t => simp [h]

theorem Walked.mapTasks (s : State) (fn : Nat) (f : Task → Task) (h : ∀ t, (f t).name = t.name) : Walked s (s.mapTasks fn f) := by
  have e := fun k => State.core_mapCores s (fun x => { x with task := x.task.map fun (w : Task) => if w.fn = fn then f w else w })
    rfl rfl k
  refine ⟨rfl, fun k => (congrArg Core.seq (e k)).trans rfl, fun k => ?_, fun k => (congrArg Core.freezes (e k)).trans rfl,
    fun _ => rfl, fun _ => FuncKept.refl _, id⟩
  refine (congrArg (fun x : Core => x.task.map Task.name) (e k)).trans (task_names _ _ fun t => ?_)
  split
  · exact h t
  · rfl

theorem Walked.setDonations (s : State) (fn : Nat) (l : List Donation) : Walked s (s.setDonations fn l) := by
  refine Walked.trans (Walked.updFn s fn (fun f => { f with donations := l, away := f.away.map (Saved.mapTask (Task.withPrio l)) })
    fun x => ⟨⟨rfl, rfl, rfl, rfl⟩, fun _ => ⟨rfl, rfl, rfl, rfl, rfl⟩, fun _ r h => ⟨r, h, rfl⟩, fun v h => ?_⟩)
    (Walked.mapTasks _ fn (Task.withPrio l) fun t => rfl)
  exact ⟨_, List.mem_map_of_mem h, rfl, rfl, rfl⟩

theorem Walked.dropDonations (s : State) (fn : Nat) (p : Donation → Bool) : Walked s (s.dropDonations fn p) := by
  rw [State.dropDonations]
  split
  · exact Walked.setDonations ..
  · exact Walked.refl s

theorem Walked.giveNoMore (s : State) (c : Nat) : Walked s (s.giveNoMore c) := by
  rw [State.giveNoMore]
  split
  · exact Walked.refl s
  · exact Walked.dropDonations ..

theorem Walked.unmonitor (s : State) (c : Nat) : Walked s (s.unmonitor c) := by
  rw [State.unmonitor]
  refine Walked.trans (Walked.trans ?_ (Walked.giveNoMore _ c)) (Walked.updCore _ c _ fun x => ⟨rfl, rfl, rfl⟩)
  have e := fun k => State.core_mapCores s (fun x => { x with portMon := x.portMon.filter fun m => m.core != c }) rfl rfl k
  exact ⟨rfl, fun k => (congrArg Core.seq (e k)).trans rfl, fun k => (congrArg (fun x : Core => x.task.map Task.name) (e k)).trans rfl,
    fun k => (congrArg Core.freezes (e k)).trans rfl, fun _ => rfl, fun _ => FuncKept.refl _, id⟩

theorem Walked.dropLease (s : State) (c : Nat) : Walked s (s.dropLease c) := by
  rw [State.dropLease]
  split
  · exact Walked.aside ⟨rfl, rfl, rfl, rfl, rfl⟩
  · exact Walked.refl s

theorem Walked.dropReplica (s : State) (d line : Nat) : Walked s (s.dropReplica d line) :=
  Walked.trans (Walked.updDie s d (fun x => { x with replicas := x.replicas.filter fun p => p.line != line }) fun x => rfl)
    (Walked.aside ⟨rfl, rfl, rfl, rfl, rfl⟩)

theorem Walked.dropReplicas (d : Nat) (l : List Nat) : ∀ s : State, Walked s (s.dropReplicas d l) := by
  induction l with
  | nil => exact Walked.refl
  | cons x l ih => intro s; exact Walked.trans (Walked.dropReplica ..) (ih _)

theorem Walked.freshFor (s : State) (d pa : Nat) : Walked s (s.freshFor d pa) := by
  rw [State.freshFor]
  split
  · exact Walked.dropReplica ..
  · exact Walked.refl s

theorem Walked.fireMon (s : State) (m : HomeMon) : Walked s (s.fireMon m) := by
  rw [State.fireMon]
  exact Walked.trans (Walked.trans (Walked.giveNoMore ..) (Walked.freshFor ..)) (Walked.updCore _ _ _ fun x => ⟨rfl, rfl, rfl⟩)

theorem Walked.fireMons (s : State) (l : List HomeMon) : Walked s (s.fireMons l) := by
  induction l generalizing s with
  | nil => exact Walked.refl s
  | cons m l ih => exact Walked.trans (Walked.fireMon s m) (ih _)

theorem Walked.setMonsAt (s : State) (pa : Nat) (l : List HomeMon) : Walked s (s.setMonsAt pa l) := by
  rw [State.setMonsAt]
  split
  · exact Walked.updCore _ _ _ fun x => ⟨rfl, rfl, rfl⟩
  · exact Walked.aside ⟨rfl, rfl, rfl, rfl, rfl⟩

theorem Walked.fireLine (s : State) (pa : Nat) : Walked s (s.fireLine pa) := by
  simp only [State.fireLine]
  split
  · exact Walked.refl s
  · exact Walked.trans (Walked.setMonsAt ..) (Walked.fireMons ..)

/-! ## Writes at homes -/

theorem Walked.writePhys (s : State) (key a : Nat) (bs : List Byte) : Walked s (s.writePhys key a bs) := by
  obtain ⟨m, k, j, e⟩ := s.writePhys_shape key a bs
  have hw := s.writePhys_wf key a bs
  rw [e] at hw ⊢
  exact ⟨rfl, fun _ => rfl, fun _ => rfl, fun _ => rfl, fun _ => rfl, fun _ => FuncKept.refl _, hw⟩

theorem Walked.unreplicate (s : State) (pa req : Nat) : Walked s (s.unreplicate pa req).1 := by
  simp only [State.unreplicate]
  split
  · exact Walked.refl s
  · split
    · exact Walked.refl s
    · rename_i e _ _
      exact Walked.trans (Walked.updDie s (homeDie pa) (fun x => { x with rep := x.rep.map fun y =>
        if y.granule == e.granule then y.memorySide else y }) fun x => rfl) (Walked.aside ⟨rfl, rfl, rfl, rfl, rfl⟩)

theorem Walked.fireWatch (s : State) (pa : Nat) : Walked s (s.fireWatch pa).1 := by
  simp only [State.fireWatch]
  split
  · exact Walked.refl s
  · split
    · exact Walked.refl s
    · exact Walked.trans (Walked.updDie s _ (fun x => { x with watch := x.watch.filter fun w => w.granule != pa / 65536 }) fun x => rfl)
        (Walked.aside ⟨rfl, rfl, rfl, rfl, rfl⟩)

theorem Walked.writeHome (s : State) (key pa : Nat) (bs : List Byte) (req : Nat) : Walked s (s.writeHome key pa bs req).1 :=
  Walked.trans (Walked.trans (Walked.trans (Walked.writePhys ..) (Walked.fireLine ..)) (Walked.unreplicate ..)) (Walked.fireWatch ..)

theorem Walked.refill (s : State) (d g : Nat) : Walked s (s.refill d g) := by
  simp only [State.refill]
  split
  · exact Walked.refl s
  · exact Walked.aside ⟨rfl, rfl, rfl, rfl, rfl⟩

theorem Walked.replicasGoneAt (g : Nat) (l : List Nat) : ∀ s : State, Walked s (s.replicasGoneAt g l) := by
  induction l with
  | nil => exact Walked.refl
  | cons d l ih => intro s; exact Walked.trans (Walked.trans (Walked.dropReplicas ..) (Walked.refill ..)) (ih _)

theorem tfind_mapKey {α : Type} (k : Nat) (g : Nat → α → α) (t : Tbl α) :
    tfind k (t.map fun (p : Nat × α) => (p.1, g p.1 p.2)) = (tfind k t).map (g k) := by
  induction t with
  | nil => rfl
  | cons p t ih =>
    obtain ⟨j, v⟩ := p
    simp only [List.map_cons, tfind]
    split
    · rename_i h; subst h; rfl
    · exact ih

theorem Walked.applyWatch (s : State) (m : WatchMsg) : Walked s (s.applyWatch m) := by
  simp only [State.applyWatch]
  refine Walked.trans (Walked.updDie s m.dst (fun d => { d with
    fw :=
      if m.invalidate then d.fw.filter fun e => !e.rdGranules.contains m.granule
      else d.fw.map fun (e : FwEntry) => if e.wrGranules.contains m.granule then { e with wclean := false } else e }) fun x => rfl) ?_
  generalize s.updDie m.dst _ = s
  split
  · let g (k : Nat) (x : Core) : Core :=
      if dieOf k = m.dst then { x with task := x.task.map (Task.taintBy m.granule) } else x
    have hg : ∀ k x, (g k x).seq = x.seq ∧ (g k x).task.map Task.name = x.task.map Task.name ∧ (g k x).freezes = x.freezes := by
      intro k x
      simp only [g]
      split
      · exact ⟨rfl, task_names _ _ fun _ => rfl, rfl⟩
      · exact ⟨rfl, rfl, rfl⟩
    have hd : ∀ k, g k (if k = 384 then Core.derailleur else Core.reset) = if k = 384 then Core.derailleur else Core.reset := by
      intro k
      simp only [g]
      split
      · split <;> rfl
      · rfl
    have e : ∀ k, tget (s.cores.map fun (p : Nat × Core) => (p.1, g p.1 p.2)) k (if k = 384 then Core.derailleur else Core.reset)
        = g k (s.core k) := by
      intro k
      rw [State.core, tget, tget, tfind_mapKey]
      cases tfind k s.cores with
      | none => exact (hd k).symm
      | some v => rfl
    refine ⟨rfl, fun k => ?_, fun k => ?_, fun k => ?_, fun _ => rfl, fun f => ?_, id⟩
    · exact (congrArg Core.seq (e k)).trans (hg k _).1
    · exact (congrArg (fun x : Core => x.task.map Task.name) (e k)).trans (hg k _).2.1
    · exact (congrArg Core.freezes (e k)).trans (hg k _).2.2
    · have hf := tget_map f (fun x : Func => { x with away := x.away.map (Saved.taintBy m) }) Func.reset rfl s.fns
      have h : FuncKept (s.fn f) { s.fn f with away := (s.fn f).away.map (Saved.taintBy m) } :=
        ⟨⟨rfl, rfl, rfl, rfl⟩, fun _ => ⟨rfl, rfl, rfl, rfl, rfl⟩, fun _ r h => ⟨r, h, rfl⟩, fun v hv =>
          ⟨Saved.taintBy m v, List.mem_map_of_mem hv, by rw [Saved.taintBy]; split <;> exact ⟨rfl, rfl, rfl⟩⟩⟩
      show FuncKept (s.fn f) (tget _ f Func.reset)
      rw [hf]
      exact h
  · exact Walked.refl _

theorem Walked.applyWatches (l : List WatchMsg) : ∀ s : State, Walked s (s.applyWatches l) := by
  induction l with
  | nil => exact Walked.refl
  | cons m l ih => intro s; exact Walked.trans (Walked.applyWatch ..) (ih _)

theorem Walked.watchNow (s : State) (w : Nat) : Walked s (s.watchNow w) :=
  Walked.trans (Walked.aside (t := { s with watchMsgs := s.watchMsgs.filter fun m => m.watch != w }) ⟨rfl, rfl, rfl, rfl, rfl⟩)
    (Walked.applyWatches ..)

theorem Walked.writeLines (key : Nat) (n : Nat) : ∀ (s : State) (pa : Nat) (bs : List Byte), Walked s (s.writeLines key pa n bs) := by
  induction n with
  | zero => intro s pa bs; exact Walked.refl s
  | succ n ih =>
    intro s pa bs
    cases bs with
    | nil => exact Walked.refl s
    | cons b bs =>
      simp only [State.writeLines]
      refine Walked.trans ?_ (ih ..)
      have h := Walked.trans (Walked.trans (Walked.trans (Walked.aside (s := s) (t := s.useId) ⟨rfl, rfl, rfl, rfl, rfl⟩)
        (Walked.writeHome s.useId key pa ((b :: bs).take (128 - pa % 128)) s.nextId))
        (Walked.aside (t := { (s.useId.writeHome key pa ((b :: bs).take (128 - pa % 128)) s.nextId).1 with
          invs := (s.useId.writeHome key pa ((b :: bs).take (128 - pa % 128)) s.nextId).1.invs.filter fun m => m.req != s.nextId })
          ⟨rfl, rfl, rfl, rfl, rfl⟩)) (Walked.replicasGoneAt (pa / 65536)
            (s.useId.writeHome key pa ((b :: bs).take (128 - pa % 128)) s.nextId).2.1 _)
      split
      · exact Walked.trans h (Walked.watchNow ..)
      · exact h

theorem Walked.writeQuiet (s : State) (key pa : Nat) (bs : List Byte) : Walked s (s.writeQuiet key pa bs) := Walked.writeLines ..

/-! ## Translations and accesses of a walker -/

theorem Walked.looked {s t : State} (h : LookedRead s t) : Walked s t := by
  obtain ⟨_, _, _, _, _, _, _, e⟩ := h.rest
  refine ⟨by rw [e], fun k => ?_, fun k => ?_, fun k => ?_, fun d => ?_, fun f => ?_, by rw [h.memory.1]; exact id⟩
  · obtain ⟨_, e⟩ := h.cores k; rw [e]
  · obtain ⟨_, e⟩ := h.cores k; rw [e]
  · obtain ⟨_, e⟩ := h.cores k; rw [e]
  · obtain ⟨_, _, _, e⟩ := h.dies d; rw [e]
  · obtain ⟨_, _, _, e⟩ := h.fns f; rw [e]; exact FuncKept.of_eq ⟨rfl, rfl, rfl, rfl, rfl, rfl⟩

theorem Walked.fillTlb (s : State) (u : TlbUser) (e : TlbEntry) : Walked s (s.fillTlb u e) := by
  have h : Walked s (s.updDie u.die fun d => { d with tlb := lastInsert e d.tlb }) := Walked.updDie _ _ _ fun x => rfl
  cases u with
  | seq c => exact Walked.trans h (Walked.updCore _ c (fun x => { x with tlb := tlbInsert 32 e x.tlb }) fun x => ⟨rfl, rfl, rfl⟩)
  | copy c => exact Walked.trans h (Walked.updCore _ c (fun x => { x with copy := { x.copy with tlb := tlbInsert 64 e x.copy.tlb } }) fun x => ⟨rfl, rfl, rfl⟩)
  | walker d => exact h

theorem Walked.translate (s : State) (u : TlbUser) (fn : Nat) (root : Dbl) (va : Nat) (n : Need) :
    Walked s (s.translate u fn root va n).1 := by
  simp only [State.translate]
  split
  · split
    · exact Walked.refl s
    · split <;> exact Walked.refl s
  · split
    · exact Walked.looked (LookedRead.quietLookups ..)
    · rename_i t l2 _
      have hq := Walked.looked (LookedRead.quietLookups fn 3 false (s.walkReads u.die fn root va) s)
      generalize s.quietLookups fn 3 false (s.walkReads u.die fn root va) = s' at hq
      split
      · have h := Walked.trans hq (Walked.trans (Walked.writePhys s' 1 l2.place (leBytes 8 (l2.entry + 32)))
          (Walked.fillTlb (s'.writePhys 1 l2.place (leBytes 8 (l2.entry + 32))) u { t with clean := false }))
        split
        · exact h
        · split <;> exact h
      · have h := Walked.trans hq (Walked.fillTlb s' u t)
        split
        · exact h
        · split <;> exact h

theorem Walked.walkerPieces (d fn : Nat) (root : Dbl) (n : Need) (fuel : Nat) : ∀ (s : State) (len va : Nat),
    Walked s (s.walkerPieces d fn root n len fuel va).1 := by
  induction fuel with
  | zero => intro s len va; exact Walked.refl s
  | succ k ih =>
    intro s len va
    simp only [State.walkerPieces]
    have ht := Walked.translate s (.walker d) fn root va n
    split
    · exact Walked.refl s
    · split
      · exact Walked.refl s
      · split
        · rename_i h; rw [h] at ht; exact ht
        · rename_i s1 e h; rw [h] at ht
          have hi := ih s1 (len - Nat.min len (e.va + e.size - va)) (va + Nat.min len (e.va + e.size - va))
          split
          · rename_i h2; rw [h2] at hi; exact Walked.trans ht hi
          · rename_i h2; rw [h2] at hi; exact Walked.trans ht hi

theorem Walked.walkerRead (s : State) (d fn : Nat) (root : Dbl) (n : Need) (va len : Nat) :
    Walked s (s.walkerRead d fn root n va len).1 := by
  simp only [State.walkerRead]
  have h := Walked.walkerPieces d fn root n (len / 65536 + 2) s len va
  split
  · rename_i e; rw [e] at h; exact h
  · rename_i e; rw [e] at h
    split
    · exact h
    · exact h

theorem Walked.writePieces (key : Nat) (l : List (Nat × Nat)) : ∀ (s : State) (bs : List Byte), Walked s (s.writePieces key l bs) := by
  induction l with
  | nil => intro s bs; exact Walked.refl s
  | cons p l ih =>
    intro s bs
    obtain ⟨pa, n⟩ := p
    exact Walked.trans (Walked.writeQuiet ..) (ih ..)

theorem Walked.walkerWrite (s : State) (d fn : Nat) (root : Dbl) (va : Nat) (bs : List Byte) :
    Walked s (s.walkerWrite d fn root va bs) := by
  simp only [State.walkerWrite]
  have h := Walked.walkerPieces d fn root Need.write (bs.length / 65536 + 2) s bs.length va
  split
  · rename_i e; rw [e] at h; exact h
  · rename_i e; rw [e] at h; exact Walked.trans h (Walked.writePieces ..)

theorem Walked.failDependants (s : State) (fn wq seq : Nat) : Walked s (s.failDependants fn wq seq) := by
  let g (w : WorkQueue) : WorkQueue := { w with
    records := w.records.map fun r =>
      if r.state == .waiting && r.deps.contains (seq, wq) then { r with depFailed := true } else r }
  refine Walked.updFn s fn (fun f => { f with queues := f.queues.map fun (p : Nat × WorkQueue) => (p.1, g p.2) }) fun x => ?_
  have h : ∀ q, tget (x.queues.map fun (p : Nat × WorkQueue) => (p.1, g p.2)) q WorkQueue.reset = g (x.queue q) :=
    fun q => tget_map q g WorkQueue.reset rfl x.queues
  refine ⟨⟨rfl, rfl, rfl, rfl⟩, fun q => ?_, fun q r hr => ?_, fun v h => ⟨v, h, rfl, rfl, rfl⟩⟩
  · simp only [Func.queue, h]; exact ⟨rfl, rfl, rfl, rfl, rfl⟩
  · simp only [Func.queue, h] at hr
    obtain ⟨o, ho, e⟩ := List.mem_map.mp hr
    refine ⟨o, ho, ?_⟩
    rw [← e]
    split <;> rfl

theorem Walked.completeRecord (s : State) (fn wq seq status : Nat) : Walked s (s.completeRecord fn wq seq status) := by
  simp only [State.completeRecord]
  split
  · exact Walked.refl s
  · have h : Walked s (if status = 0x01 then s.updRecord fn wq seq fun r => { r with state := .complete, status := status }
        else (s.updRecord fn wq seq fun r => { r with state := .complete, status := status }).failDependants fn wq seq) := by
      split
      · exact Walked.updRecord s fn wq seq (fun r => { r with state := .complete, status := status }) fun _ => rfl
      · exact Walked.trans (Walked.updRecord s fn wq seq (fun r => { r with state := .complete, status := status }) fun _ => rfl)
          (Walked.failDependants ..)
    split
    · exact h
    · exact Walked.trans h (Walked.walkerWrite ..)

theorem Walked.checkRecord (s : State) (fn wq seq : Nat) : Walked s (s.checkRecord fn wq seq) := by
  simp only [State.checkRecord]
  split
  · exact Walked.refl s
  · split
    · exact Walked.refl s
    · split
      · exact Walked.completeRecord ..
      · exact Walked.updRecord _ _ _ _ _ fun _ => rfl

/-! ## Meters -/

theorem Walked.meter (s : State) (fn i n : Nat) : Walked s (s.meter fn i n) := by
  simp only [State.meter]
  split
  · exact Walked.refl s
  · refine Walked.updFn _ _ _ fun x => FuncKept.of_eq ?_
    split <;> exact ⟨rfl, rfl, rfl, rfl, rfl, rfl⟩

theorem Walked.telemeter (s : State) (fn i n : Nat) : Walked s (s.telemeter fn i n) := by
  simp only [State.telemeter]
  split
  · exact Walked.updFn _ _ _ fun x => FuncKept.of_eq ⟨rfl, rfl, rfl, rfl, rfl, rfl⟩
  · exact Walked.refl s

/-! ## Settlement -/

theorem Walked.flushed {s t : State} (h : Flushed s t) : Walked s t := by
  obtain ⟨cs, l, i, e⟩ := h.rest
  refine ⟨by rw [e], fun k => ?_, fun k => ?_, fun k => ?_, fun d => by rw [e]; rfl, fun f => by rw [e]; exact FuncKept.refl _,
    by rw [e]; exact id⟩
  all_goals obtain ⟨cp, h⟩ := h.cores k; rw [h]

theorem Walked.writeArray (s : State) (c x : Nat) (bs : List Byte) : Walked s (s.writeArray c x bs) :=
  ⟨rfl, fun _ => rfl, fun _ => rfl, fun _ => rfl, fun _ => rfl, fun _ => FuncKept.refl _, memWrites_wf⟩

theorem Walked.setRowBytes (s : State) (q r : Nat) (bs : List Byte) : Walked s (s.setRowBytes q r bs) := by
  rw [State.setRowBytes]
  split
  · exact ⟨rfl, fun _ => rfl, fun _ => rfl, fun _ => rfl, fun _ => rfl, fun _ => FuncKept.refl _, memWrites_wf⟩
  · exact Walked.aside ⟨rfl, rfl, rfl, rfl, rfl⟩

theorem Walked.setRow (s : State) (q r : Nat) (o : Row) : Walked s (s.setRow q r o) := by
  rw [State.setRow]
  split
  · exact Walked.updCore _ _ _ fun x => ⟨rfl, rfl, rfl⟩
  · exact Walked.aside ⟨rfl, rfl, rfl, rfl, rfl⟩

theorem Walked.setRowTag (s : State) (q r : Nat) (t : Tag) : Walked s (s.setRowTag q r t) := by
  rw [State.setRowTag]
  split
  · exact Walked.aside ⟨rfl, rfl, rfl, rfl, rfl⟩
  · exact Walked.refl s

theorem Walked.setRowPoison (s : State) (q r : Nat) (b : Bool) : Walked s (s.setRowPoison q r b) := by
  rw [State.setRowPoison]
  split
  · exact Walked.aside ⟨rfl, rfl, rfl, rfl, rfl⟩
  · exact Walked.refl s

theorem Walked.zeroRow (s : State) (q r : Nat) : Walked s (s.zeroRow q r) :=
  Walked.trans (Walked.trans (Walked.setRowBytes ..) (Walked.setRowTag ..)) (Walked.setRowPoison ..)

theorem Walked.useFree (s : State) : Walked s s.useFree := Walked.aside ⟨rfl, rfl, rfl, rfl, rfl⟩

theorem Walked.freeBytes (s : State) (key a n : Nat) : Walked s (s.freeBytes key a n) :=
  Walked.trans (Walked.writeQuiet ..) (Walked.useFree _)

theorem Walked.evictRow (s : State) (q r : Nat) : Walked s (s.evictRow q r) := by
  rw [State.evictRow]
  refine Walked.trans ?_ (Walked.updFn _ _ _ ?_)
  · exact Walked.trans (Walked.writeQuiet s _ _ _) (Walked.freeBytes _ _ _ _)
  · exact fun x => FuncKept.of_eq ⟨rfl, rfl, rfl, rfl, rfl, rfl⟩

theorem Walked.returnRow (s : State) (q r : Nat) (o : Row) : Walked s (s.returnRow q r o) := by
  simp only [State.returnRow]
  split
  · exact Walked.refl s
  · exact Walked.trans (Walked.trans (Walked.trans (Walked.setRowBytes ..) (Walked.setRowTag ..)) (Walked.setRowPoison ..))
      (Walked.updFn _ _ _ fun x => FuncKept.of_eq ⟨rfl, rfl, rfl, rfl, rfl, rfl⟩)

theorem Walked.send (s : State) (r : Req) : Walked s (s.send r) := Walked.aside ⟨rfl, rfl, rfl, rfl, rfl⟩

theorem Walked.foldl {α : Type} (g : State → α → State) (h : ∀ s a, Walked s (g s a)) (l : List α) : ∀ s, Walked s (l.foldl g s) := by
  induction l with
  | nil => exact Walked.refl
  | cons a l ih => intro s; exact Walked.trans (h s a) (ih _)

theorem Walked.dropRowLines (s : State) (c r : Nat) : Walked s (s.dropRowLines c r) := by
  rw [State.dropRowLines]
  refine Walked.trans ?_ (Walked.updCore _ _ _ ?_)
  · exact Walked.flushed (Flushed.writeBackList ..)
  · exact fun x => ⟨rfl, rfl, rfl⟩

theorem Walked.deliverSaved (s : State) (c : Nat) (v : Saved) (b : Bool) (i : Nat) : Walked s (s.deliverSaved c v b i) := by
  simp only [State.deliverSaved]
  split
  · exact Walked.aside ⟨rfl, rfl, rfl, rfl, rfl⟩
  · exact Walked.refl s

theorem Walked.deliverRow (s : State) (c r : Nat) (v : Saved) : Walked s (s.deliverRow c r v) := by
  simp only [State.deliverRow]
  split
  · have h1 := Walked.foldl (fun s i => s.deliverSaved c v true i) (fun s i => Walked.deliverSaved ..) (List.range 64) s
    have h2 := fun (y : Core) => Walked.updFn ((List.range 64).foldl (fun s i => s.deliverSaved c v true i) s) v.task.fn
      (fun f => { f with away := f.away.map fun w => if w == v then { w with core := y } else w })
      fun x => ⟨⟨rfl, rfl, rfl, rfl⟩, fun _ => ⟨rfl, rfl, rfl, rfl, rfl⟩, fun _ r h => ⟨r, h, rfl⟩, fun w hw => ⟨_, List.mem_map_of_mem hw, by
        split <;> exact ⟨rfl, rfl, rfl⟩⟩⟩
    split
    · exact Walked.trans h1 (h2 _)
    · exact Walked.trans (Walked.trans h1 (h2 _)) (Walked.foldl _ (fun s i => Walked.writeQuiet ..) _ _)
  · exact Walked.refl s

theorem Walked.settleRow (s : State) (q r : Nat) (t : Task) : Walked s (s.settleRow q r t) := by
  simp only [State.settleRow]
  refine Walked.trans ?_ (Walked.setRow ..)
  split
  · exact Walked.refl s
  · split
    · refine Walked.trans ?_ (Walked.evictRow ..)
      split
      · split
        · exact Walked.trans (Walked.dropRowLines ..) (Walked.deliverRow ..)
        · exact Walked.dropRowLines ..
      · exact Walked.refl s
    · split
      · exact Walked.refl s
      · refine Walked.trans ?_ (Walked.zeroRow ..)
        split
        · exact Walked.dropRowLines ..
        · exact Walked.refl s
    · exact Walked.refl s
    · exact Walked.refl s

theorem Walked.settleRows (q : Nat) (t : Task) (l : List Nat) : ∀ s : State, Walked s (s.settleRows q t l) := by
  induction l with
  | nil => exact Walked.refl
  | cons r l ih => intro s; exact Walked.trans (Walked.settleRow ..) (ih _)

theorem Walked.settleLines (s : State) (c : Nat) (t : Task) (b : Bool) : Walked s (s.settleLines c t b) := by
  simp only [State.settleLines]
  refine Walked.trans ?_ (Walked.updCore _ _ _ ?_)
  · exact Walked.flushed (Flushed.writeBackList ..)
  · exact fun x => ⟨rfl, rfl, rfl⟩

theorem Walked.settleCore (s : State) (c : Nat) (t : Task) : Walked s (s.settleCore c t) := by
  rw [State.settleCore]
  have h := Walked.trans (Walked.settleRows (quadOf c) t (coreRows c) s) (Walked.settleLines _ c t t.resid)
  generalize (s.settleRows (quadOf c) t (coreRows c)).settleLines c t t.resid = u at h
  refine Walked.trans h (Walked.updCore _ _ _ ?_)
  exact fun x => ⟨rfl, task_names _ _ fun t => rfl, rfl⟩

theorem Walked.markRows (s : State) (q : Nat) (o : Row) (st : RowState) : Walked s (s.markRows q o st) := by
  rw [State.markRows]
  refine Walked.foldl _ (fun s r => ?_) _ s
  split
  · exact Walked.setRow ..
  · exact Walked.refl s

theorem Walked.dropClaim (s : State) (c : Nat) (side : MSide) (m : Word) : Walked s (s.dropClaim c side m) := by
  simp only [State.dropClaim]
  refine Walked.trans ?_ (Walked.updCore _ _ _ ?_)
  · exact Walked.foldl _ (fun s r => Walked.setRow ..) _ s
  · exact fun x => ⟨rfl, rfl, rfl⟩

theorem Walked.dropClaims (s : State) (c : Nat) : Walked s (s.dropClaims c) :=
  Walked.trans (Walked.trans (Walked.dropClaim ..) (Walked.dropClaim ..)) (Walked.dropClaim ..)

/-! ## Residuals -/

theorem Walked.deliverSlot (s : State) (c i : Nat) : Walked s (s.deliverSlot c i) := by
  simp only [State.deliverSlot]
  split
  · exact Walked.refl s
  · refine Walked.trans ?_ (Walked.updCore _ _ _ ?_)
    · exact Walked.send s _
    · exact fun x => ⟨rfl, rfl, rfl⟩

theorem Walked.deliverSlots (c : Nat) (l : List Nat) : ∀ s : State, Walked s (s.deliverSlots c l) := by
  induction l with
  | nil => exact Walked.refl
  | cons i l ih => intro s; exact Walked.trans (Walked.deliverSlot ..) (ih _)

theorem Walked.deliverAll (s : State) (c : Nat) : Walked s (s.deliverAll c) := Walked.deliverSlots ..

theorem Walked.writeBackAll (s : State) (c : Nat) : Walked s (s.writeBackAll c) := Walked.flushed (Flushed.writeBackList ..)

/-! ## Freewheel -/

theorem Walked.registerWatch (s : State) (d g : Nat) (w : Bool) : Walked s (s.registerWatch d g w) := by
  simp only [State.registerWatch]
  have h0 : Walked s s.useId := Walked.aside ⟨rfl, rfl, rfl, rfl, rfl⟩
  split
  · exact Walked.trans h0 (Walked.updDie _ _ _ fun x => rfl)
  · refine Walked.trans (Walked.trans h0 ?_) (Walked.updDie _ _ _ fun x => rfl)
    split
    · exact Walked.refl _
    · split
      · exact Walked.refl _
      · split
        · exact Walked.refl _
        · exact Walked.fireWatch ..

theorem Walked.registerWatches (d : Nat) (w : Bool) (l : List Nat) : ∀ s : State, Walked s (s.registerWatches d w l) := by
  induction l with
  | nil => exact Walked.refl
  | cons g l ih => intro s; exact Walked.trans (Walked.registerWatch ..) (ih _)

theorem Walked.granuleMaps (d fn : Nat) (root : Dbl) (l : List Nat) : ∀ s : State, Walked s (s.granuleMaps d fn root l).1 := by
  induction l with
  | nil => exact Walked.refl
  | cons g l ih =>
    intro s
    simp only [State.granuleMaps]
    have h := Walked.translate s (.walker d) fn root (g * 65536) ⟨0, 0⟩
    split
    · rename_i e; rw [e] at h; exact h
    · rename_i u e he; rw [he] at h
      have hi := ih u
      split
      · rename_i e; rw [e] at hi; exact Walked.trans h hi
      · rename_i e; rw [e] at hi; exact Walked.trans h hi

theorem Walked.fwView (d fn : Nat) (root : Dbl) (l : List Region) : ∀ s : State, Walked s (s.fwView d fn root l).1 := by
  induction l with
  | nil => exact Walked.refl
  | cons r l ih =>
    intro s
    simp only [State.fwView]
    have h := Walked.granuleMaps d fn root r.granules s
    split
    · rename_i e; rw [e] at h; exact h
    · rename_i u e he; rw [he] at h
      have hi := ih u
      split
      · rename_i e; rw [e] at hi; exact Walked.trans h hi
      · rename_i e; rw [e] at hi; exact Walked.trans h hi

theorem Walked.rowPieces (d fn : Nat) (root : Dbl) (n : Need) (l : List (Nat × Nat)) : ∀ s : State,
    Walked s (s.rowPieces d fn root n l).1 := by
  induction l with
  | nil => exact Walked.refl
  | cons p l ih =>
    intro s
    obtain ⟨va, len⟩ := p
    simp only [State.rowPieces]
    have h := Walked.walkerPieces d fn root n (len / 65536 + 2) s len va
    split
    · rename_i e; rw [e] at h; exact h
    · rename_i u e he; rw [he] at h
      have hi := ih u
      split
      · rename_i e; rw [e] at hi; exact Walked.trans h hi
      · rename_i e; rw [e] at hi; exact Walked.trans h hi

end Sys2Proof.Machine
end

