-- ==== Sys2Proof/Laws/Residual.lean ====
section
/-! SUPPORT. Residual slots and dirty lines of a core: what delivering a slot and writing lines back leave, and when a core
has settled. -/

namespace Sys2Proof.Machine

open Sys2Proof Sys2Proof.Safety

theorem performed_iff (s : State) (sc : Scope) (id : Nat) : s.performedAt sc id = true ↔ Performed s sc id := by
  rw [State.performedAt, Performed]
  cases s.reqs.find? (fun r => r.id == id) with
  | none => simp
  | some r => cases sc <;> simp

theorem settled_performed {s : State} {c : Nat} {sc : Scope} (h : Settled s c sc) : s.performedAll c sc = true := by
  have h1 := h.stores
  have h2 := h.writeBacks
  have h3 := h.atomic
  simp only [State.seq] at h1 h3
  have ha : s.accessesDone c sc = true := by
    simp only [State.accessesDone, Bool.and_eq_true, List.all_eq_true]
    refine ⟨⟨fun p hp i hi => (performed_iff ..).mpr (h1 p hp i hi), fun w hw => (performed_iff ..).mpr (h2 w hw)⟩, ?_⟩
    cases e : (s.core c).seq.atomicReq with
    | none => rfl
    | some i => exact (performed_iff ..).mpr (h3 i e)
  rw [State.performedAll, ha, Bool.true_and]
  by_cases e : sc = .core
  · subst e; rfl
  · obtain ⟨a, b⟩ := h.addends e
    simp [a, b]

theorem settled_lines {s : State} {c : Nat} {sc : Scope} (h : Settled s c sc) : s.fenceLines c sc = s := by
  rw [State.fenceLines]
  split
  · rfl
  · rename_i e
    have : (s.core c).dirtyLines = [] := by
      rw [Core.dirtyLines, List.filter_eq_nil_iff]
      intro l hl
      have := h.lines e l hl
      intro hc
      simp only [Bool.and_eq_true, beq_iff_eq, bne_iff_ne] at hc
      exact hc.2 (this hc.1)
    rw [State.writeBackAll, this]; rfl

theorem resTag_setTag (x : Core) (i j : Nat) (t : ResTag) : (x.setTag i t).resTag j = if j = i then t else x.resTag j := by
  simp only [Core.resTag, Core.setTag]
  split
  · rename_i h; subst h; rw [tget_tset_same]
  · rename_i h; rw [tget_tset_ne _ _ _ h]

theorem emptySlot_valid (x : Core) (i j : Nat) : ((x.emptySlot i).resTag j).valid = ((x.resTag j).valid && j != i) := by
  rw [Core.emptySlot, resTag_setTag]
  split
  · rename_i h; subst h; simp
  · rename_i h; simp [h]

/-- A delivery: the slot empties, and a request is sent. -/
theorem deliverSlot_shape (s : State) (c i : Nat) :
    (∃ cs l n, s.deliverSlot c i = { s with cores := cs, reqs := s.reqs ++ l, nextId := n })
    ∧ (∀ j, (((s.deliverSlot c i).core c).resTag j).valid = (((s.core c).resTag j).valid && j != i))
    ∧ (s.deliverSlot c i).seq c = s.seq c ∧ (∀ k, k ≠ c → (s.deliverSlot c i).core k = s.core k)
    ∧ ∀ j, (((s.deliverSlot c i).core c).resTag j).va = ((s.core c).resTag j).va := by
  simp only [State.deliverSlot]
  split
  · rename_i h
    refine ⟨⟨s.cores, [], s.nextId, by rw [List.append_nil]⟩, fun j => ?_, rfl, fun _ _ => rfl, fun _ => rfl⟩
    by_cases e : j = i
    · subst e; simpa using h
    · simp [e]
  · refine ⟨⟨_, _, _, rfl⟩, fun j => ?_, ?_, fun k hk => ?_, fun j => ?_⟩
    · rw [State.core_updCore]; exact emptySlot_valid _ i j
    · rw [State.seq, State.core_updCore]; rfl
    · rw [State.core_updCore_ne _ _ hk]; rfl
    · rw [State.core_updCore]
      show (((s.core c).emptySlot i).resTag j).va = _
      rw [Core.emptySlot, resTag_setTag]
      split
      · rename_i e; subst e; rfl
      · rfl

theorem deliverSlots_shape (c : Nat) (is : List Nat) : ∀ s : State,
    (∃ cs l n, s.deliverSlots c is = { s with cores := cs, reqs := s.reqs ++ l, nextId := n })
    ∧ (∀ j, (((s.deliverSlots c is).core c).resTag j).valid = (((s.core c).resTag j).valid && !is.contains j))
    ∧ (s.deliverSlots c is).seq c = s.seq c ∧ (∀ k, k ≠ c → (s.deliverSlots c is).core k = s.core k) := by
  induction is with
  | nil => intro s; exact ⟨⟨s.cores, [], s.nextId, by rw [List.append_nil]; rfl⟩, fun j => by simp [State.deliverSlots], rfl, fun _ _ => rfl⟩
  | cons i is ih =>
    intro s
    obtain ⟨⟨cs, l, n, h⟩, h2, h3, h4, _⟩ := deliverSlot_shape s c i
    obtain ⟨⟨cs', l', n', k⟩, k2, k3, k4⟩ := ih (s.deliverSlot c i)
    rw [State.deliverSlots]
    refine ⟨⟨cs', l ++ l', n', ?_⟩, fun j => ?_, k3.trans h3, fun m hm => (k4 m hm).trans (h4 m hm)⟩
    · rw [k, h, List.append_assoc]
    · rw [k2, h2, List.contains_cons, Bool.not_or, Bool.and_assoc]; rfl

/-- Lines after write-backs. -/
theorem sendRuns_lines (s : State) (c grp : Nat) (l : PLine) (rs) : ((s.sendRuns c grp l rs).core c).copy.lines = (s.core c).copy.lines := by
  induction rs generalizing s with
  | nil => rfl
  | cons p rs ih =>
    obtain ⟨o, n⟩ := p
    rw [State.sendRuns, ih, State.core_updCore]; rfl

theorem writeBackList_lines (s : State) (c grp : Nat) (ls : List PLine) : ((s.writeBackList c grp ls).core c).copy.lines =
    (s.core c).copy.lines.map fun m => if ls.any (·.slot == m.slot) then { m with dirty := 0 } else m := by
  induction ls generalizing s with
  | nil => simp [State.writeBackList]
  | cons l ls ih =>
    rw [State.writeBackList, ih, State.writeBack, State.core_updCore, Core.updLine]
    simp only [sendRuns_lines, List.map_map]
    apply List.map_congr_left
    intro m _
    simp only [Function.comp, List.any_cons]
    by_cases e : m.slot == l.slot
    · have e' : (l.slot == m.slot) = true := by simp only [beq_iff_eq] at e ⊢; exact e.symm
      simp only [e, if_true, e', Bool.true_or]
      split <;> rfl
    · have e' : (l.slot == m.slot) = false := by
        have : ¬ m.slot = l.slot := by simpa using e
        simpa using fun h : l.slot = m.slot => this h.symm
      have e2 : (m.slot == l.slot) = false := by simpa using e
      simp [e2, e']

theorem sendRuns_others (s : State) (c grp : Nat) (l : PLine) (rs) {n : Nat} (h : n ≠ c) : (s.sendRuns c grp l rs).core n = s.core n := by
  induction rs generalizing s with
  | nil => rfl
  | cons p rs ih => obtain ⟨o, k⟩ := p; rw [State.sendRuns, ih, State.core_updCore_ne _ _ h]; rfl
theorem writeBackList_others (s : State) (c grp : Nat) (ls : List PLine) {n : Nat} (h : n ≠ c) : (s.writeBackList c grp ls).core n = s.core n := by
  induction ls generalizing s with
  | nil => rfl
  | cons l ls ih => rw [State.writeBackList, ih, State.writeBack, State.core_updCore_ne _ _ h, sendRuns_others _ _ _ _ _ h]


/-! ## Requests that end, and watches -/

theorem park_side (s : State) (c cause unit : Nat) (double : Bool) (urec : List Dbl) (svc : Option Dest) :
    (s.park c cause unit double urec svc).reqs = s.reqs ∧ (s.park c cause unit double urec svc).rereads = s.rereads
    ∧ (s.park c cause unit double urec svc).watchMsgs = s.watchMsgs := by
  cases h : (s.core c).task with
  | none => simp [State.park, h]
  | some t =>
    obtain ⟨u, q, e⟩ := s.park_shape c cause unit double urec svc t h
    obtain ⟨fs, o, p⟩ := u.presentPark_rest t.fn t.wq ⟨c, parkWords (parkHeader cause unit double c) t.rseq t.tseq urec, svc⟩
    rw [e, p]
    exact ⟨q.rest.1, q.mem.2.2.2, q.rest.2.2.1⟩

theorem trapWhenLanded_side (s : State) (c : Nat) (p : PendTrap) :
    (s.trapWhenLanded c p).reqs = s.reqs ∧ (s.trapWhenLanded c p).rereads = s.rereads
    ∧ (s.trapWhenLanded c p).watchMsgs = s.watchMsgs := by
  rw [State.trapWhenLanded]
  split
  · simp only [State.takeTrap]
    split
    · exact ⟨rfl, rfl, rfl⟩
    · simp only [State.parkSeq]
      split
      · exact ⟨rfl, rfl, rfl⟩
      · exact park_side (s.updSeq c _) c _ _ _ _ _
  · exact ⟨rfl, rfl, rfl⟩

theorem parkAt_side (s : State) (c cause : Nat) (pc addr : Dbl) :
    (s.parkAt c cause pc addr).reqs = s.reqs ∧ (s.parkAt c cause pc addr).rereads = s.rereads
    ∧ (s.parkAt c cause pc addr).watchMsgs = s.watchMsgs := by
  have h : (s.useFree.unrelease c pc).reqs = s.reqs ∧ (s.useFree.unrelease c pc).rereads = s.rereads
      ∧ (s.useFree.unrelease c pc).watchMsgs = s.watchMsgs := by
    simp only [State.unrelease]
    split <;> exact ⟨rfl, rfl, rfl⟩
  simp only [State.parkAt]
  split
  · exact h
  · have k := trapWhenLanded_side (s.useFree.unrelease c pc) c
    exact ⟨(k _).1.trans h.1, (k _).2.1.trans h.2.1, (k _).2.2.trans h.2.2⟩

theorem ended_side (s : State) (p : Req) : (∀ q ∈ (s.ended_ p).reqs, q ∈ s.reqs ∨ q.watches = p.watches)
    ∧ (s.ended_ p).rereads = s.rereads ∧ (s.ended_ p).watchMsgs = s.watchMsgs := by
  have hd : ∀ q ∈ (s.dropReq p.id).reqs, q ∈ s.reqs ∨ q.watches = p.watches := fun q hq => .inl (List.mem_filter.mp hq).1
  have hr : (∀ q ∈ ((s.dropReq p.id).reply p).reqs, q ∈ s.reqs ∨ q.watches = p.watches)
      ∧ ((s.dropReq p.id).reply p).rereads = s.rereads ∧ ((s.dropReq p.id).reply p).watchMsgs = s.watchMsgs := by
    rw [State.reply]
    split <;> exact ⟨hd, rfl, rfl⟩
  simp only [State.ended_]
  split
  · exact ⟨hd, rfl, rfl⟩
  · exact ⟨hd, rfl, rfl⟩
  · rename_i c wid pc _
    have h1 := fun cause a => parkAt_side (((s.dropReq p.id).updCore c fun x => (x.atomicDone p.id).unwait p.id).updCore c
      fun x => x.cancelWord .seq wid) c cause pc a
    split
    · rw [(h1 _ _).1, (h1 _ _).2.1, (h1 _ _).2.2]; exact ⟨hd, rfl, rfl⟩
    · exact ⟨hd, rfl, rfl⟩
  · exact ⟨hd, rfl, rfl⟩
  · exact hr
  · exact hr
  · refine ⟨fun q hq => ?_, rfl, rfl⟩
    obtain ⟨o, ho, e⟩ := List.mem_map.mp hq
    split at e
    · right; rw [← e]
    · left; rw [← e]; exact ho

/-- Finishing a request leaves the other requests alone. -/
theorem finish_side (s : State) (r : Req) :
    (∀ q ∈ (s.finish r).reqs, q ∈ s.reqs ∨ q.watches = r.watches ∨ q.watches = [])
    ∧ (s.finish r).rereads = s.rereads ∧ (s.finish r).watchMsgs = s.watchMsgs := by
  have hw : (if s.answerLost r = true then { r with poison := true } else r).watches = r.watches := by split <;> rfl
  simp only [State.finish]
  generalize (if s.answerLost r = true then { r with poison := true } else r) = p at hw ⊢
  split
  · refine ⟨fun q hq => ?_, rfl, rfl⟩
    obtain ⟨o, ho, e⟩ := List.mem_map.mp hq
    split at e
    · right; right; rw [← e]
    · left; rw [← e]; exact ho
  · obtain ⟨h1, h2⟩ := ended_side s p
    exact ⟨fun q hq => (h1 q hq).imp_right fun h => .inl (h.trans hw), h2⟩

theorem watchDone_shape (w : Nat) (l : List Req) : ∀ s : State,
    (∀ q ∈ s.reqs, w ∈ q.watches → ∃ r ∈ l, r.id = q.id) →
    (∀ q ∈ (s.watchDone w l).reqs, w ∉ q.watches) ∧ Still s (s.watchDone w l)
    ∧ (s.watchDone w l).rereads = s.rereads ∧ (s.watchDone w l).watchMsgs = s.watchMsgs := by
  induction l with
  | nil => intro s h; exact ⟨fun q hq hw => by (obtain ⟨r, hr, _⟩ := h q hq hw; cases hr), Still.refl s, rfl, rfl⟩
  | cons r l ih =>
    intro s h
    simp only [State.watchDone]
    let r' : Req := { r with watches := r.watches.filter (· != w) }
    let u := s.updReq r.id fun _ => r'
    have hu : ∀ q ∈ u.reqs, w ∈ q.watches → ∃ r ∈ l, r.id = q.id := by
      intro q hq hw
      obtain ⟨o, ho, e⟩ := List.mem_map.mp hq
      split at e
      · subst e
        simp [r'] at hw
      · rename_i hne
        subst e
        obtain ⟨p, hp, hpe⟩ := h o ho hw
        rcases List.mem_cons.mp hp with rfl | hp
        · exact absurd (by simpa using hpe.symm) hne
        · exact ⟨p, hp, hpe⟩
    have hs : Still s u := ⟨⟨rfl, rfl, rfl⟩, fun _ => rfl⟩
    by_cases hc : (r'.phase == .acks && r'.acks == [] && r'.watches == []) = true
    · have hf := finish_side u r'
      have := ih (u.finish r') fun q hq hw => by
        rcases hf.1 q hq with h | h | h
        · exact hu q h hw
        · rw [h] at hw; simp [r'] at hw
        · rw [h] at hw; cases hw
      rw [if_pos hc]
      exact ⟨this.1, Still.trans (Still.trans hs (Still.finish u r')) this.2.1, this.2.2.1.trans hf.2.1, this.2.2.2.trans hf.2.2⟩
    · have := ih u hu
      rw [if_neg hc]
      exact ⟨this.1, Still.trans hs this.2.1, this.2.2.1, this.2.2.2⟩


/-! ## Tasks that are over -/

theorem taskOver_shape (s : State) (fn wq rseq tseq : Nat) :
    Walked (s.updFn fn fun f => { f with registry := f.registry.filter fun g => !(g.wq == wq && g.rseq == rseq && g.tseq == tseq) })
      (s.taskOver fn wq rseq tseq) := by
  rw [State.taskOver]
  exact Walked.trans (Walked.trans (Walked.dropDonations ..)
    (Walked.updRecord _ fn wq rseq (fun r => { r with open_ := r.open_.filter (· != tseq) }) fun _ => rfl)) (Walked.checkRecord ..)

theorem fn_countFw (s : State) (fn d : Nat) (g : FwCounters → FwCounters) :
    (s.countFw fn d g).fn fn = { s.fn fn with fwctr := tset d (g (tget (s.fn fn).fwctr d FwCounters.zero)) (s.fn fn).fwctr } :=
  State.fn_updFn ..

/-- Freewheel's entries stay where no completion is written. -/
theorem taskOver_fw (s : State) (fn wq rseq tseq d : Nat) (h : ∀ r ∈ (s.wq fn wq).records, r.cpl = 0) :
    ((s.taskOver fn wq rseq tseq).die d).fw = (s.die d).fw := by
  rw [State.taskOver]
  let s1 := s.updFn fn fun f => { f with registry := f.registry.filter fun g => !(g.wq == wq && g.rseq == rseq && g.tseq == tseq) }
  let s2 := s1.dropDonations fn fun d => d.wq == wq && d.rseq == rseq && (d.taker == tseq || d.giver == tseq)
  have e2 : s2.dies = s.dies := by
    show (s1.dropDonations fn _).dies = _
    rw [State.dropDonations]
    split <;> rfl
  have w2 : Walked s1 s2 := Walked.dropDonations ..
  let s3 := s2.updRecord fn wq rseq fun r => { r with open_ := r.open_.filter (· != tseq) }
  have w3 : Walked s1 s3 := Walked.trans w2
    (Walked.updRecord _ fn wq rseq (fun r => { r with open_ := r.open_.filter (· != tseq) }) fun _ => rfl)
  have e3 : s3.dies = s.dies := e2
  have hc : ∀ r ∈ (s3.wq fn wq).records, r.cpl = 0 := fun r hr => by
    obtain ⟨o, ho, e⟩ := (w3.fns fn).cpls wq r hr
    rw [← e]
    refine h o ?_
    have : (s1.fn fn).queue wq = (s.fn fn).queue wq := by simp only [s1, State.fn_updFn, Func.queue]
    replace ho : o ∈ ((s1.fn fn).queue wq).records := ho
    rw [this] at ho
    exact ho
  show ((s3.checkRecord fn wq rseq).die d).fw = _
  have hd : s3.die d = s.die d := by simp only [State.die, e3]
  simp only [State.checkRecord]
  split
  · rw [hd]
  · split
    · rw [hd]
    · split
      · simp only [State.completeRecord]
        split
        · rw [hd]
        · rename_i r hr
          rw [if_pos (.inl (hc r (List.mem_of_find?_eq_some hr)))]
          split <;> exact congrArg Die.fw hd
      · exact congrArg Die.fw hd

theorem retireHit_shape (s : State) (d : Nat) (l : FwLookup) (f : FwCounters → FwCounters) :
    ((s.retireHit d l f).die d).lookup = none
    ∧ ((∀ r ∈ (s.wq l.task.fn l.task.wq).records, r.cpl = 0) → ((s.retireHit d l f).die d).fw = (s.die d).fw)
    ∧ ((s.retireHit d l f).fn l.task.fn).registry = (s.fn l.task.fn).registry.filter
        (fun g => !(g.wq == l.task.wq && g.rseq == l.task.rseq && g.tseq == l.task.tseq))
    ∧ tget ((s.retireHit d l f).fn l.task.fn).fwctr d ⟨0, 0, 0, 0, 0⟩ = f (tget (s.fn l.task.fn).fwctr d ⟨0, 0, 0, 0, 0⟩) := by
  simp only [State.retireHit]
  have hm := Walked.meter s l.task.fn 10 (l.entry.matOps + l.entry.vecOps)
  have hq : (s.meter l.task.fn 10 (l.entry.matOps + l.entry.vecOps)).die d = s.die d := by
    simp only [State.meter]; split <;> rfl
  generalize s.meter l.task.fn 10 _ = u at hm hq
  have ht := taskOver_shape ((u.updDie d fun x => { x with lookup := none }).countFw l.task.fn d f) l.task.fn l.task.wq l.task.rseq l.task.tseq
  have h1 := ht.lookups d
  have h2 := (ht.fns l.task.fn).lists
  refine ⟨h1.trans ?_, fun hr => (taskOver_fw _ _ _ _ _ d fun r h => ?_).trans ?_, h2.1.trans ?_, ?_⟩
  · show ((u.updDie d fun x => { x with lookup := none }).die d).lookup = none
    rw [State.die_updDie]
  · rw [State.wq, fn_countFw] at h
    obtain ⟨o, ho, e⟩ := (hm.fns l.task.fn).cpls l.task.wq r h
    rw [← e]; exact hr o ho
  · show ((u.updDie d fun x => { x with lookup := none }).die d).fw = _
    rw [State.die_updDie, hq]
  · rw [State.fn_updFn, fn_countFw]
    show (u.fn _).registry.filter _ = _
    rw [(hm.fns _).lists.1]
  · rw [h2.2.1, State.fn_updFn, fn_countFw]
    show tget (tset _ _ _) _ _ = _
    rw [tget_tset_same]
    show f (tget (u.fn _).fwctr d _) = _
    rw [(hm.fns _).lists.2.1]; rfl

theorem markPure_shape (l : List Nat) : ∀ s : State, (∃ cs, s.markPure l = { s with cores := cs })
    ∧ (∀ m, (((s.core m).task.all fun v => v.pureInfo.all (·.counted)) = true ∨ m ∈ l) →
        (((s.markPure l).core m).task.all fun v => v.pureInfo.all (·.counted)) = true) := by
  induction l with
  | nil => intro s; exact ⟨⟨s.cores, rfl⟩, fun m h => by simpa [State.markPure] using h⟩
  | cons m l ih =>
    intro s
    rw [State.markPure]
    obtain ⟨⟨cs, h1⟩, h2⟩ := ih (s.updCore m fun x => { x with task := x.task.map fun (t : Task) =>
      { t with pureInfo := t.pureInfo.map fun (p : PureInfo) => { p with counted := true } } })
    refine ⟨⟨cs, h1⟩, fun k hk => h2 k ?_⟩
    by_cases e : k = m
    · subst e
      left
      rw [State.core_updCore]
      cases (s.core k).task with
      | none => rfl
      | some t => cases h : t.pureInfo <;> simp [h]
    · rw [State.core_updCore_ne _ _ e]
      rcases hk with hk | hk
      · exact .inl hk
      · exact .inr ((List.mem_cons.mp hk).resolve_left e)

theorem abandon_shape (s : State) (c : Nat) (k : Task) :
    (∀ m ∈ k.members, (((s.abandon c k).core m).task.all fun v => v.pureInfo.all (·.counted)) = true)
    ∧ (tget ((s.abandon c k).fn k.fn).fwctr (c / 24) ⟨0, 0, 0, 0, 0⟩).unc = (tget (s.fn k.fn).fwctr (c / 24) ⟨0, 0, 0, 0, 0⟩).unc + 1 := by
  obtain ⟨⟨cs, h1⟩, h2⟩ := markPure_shape k.members s
  refine ⟨fun m hm => h2 m (.inr hm), ?_⟩
  rw [State.abandon, fn_countFw]
  rw [h1, dieOf]
  show FwCounters.unc (tget (tset _ _ _) _ _) = _
  rw [tget_tset_same]
  rfl


end Sys2Proof.Machine
end

