-- ==== Sys2Proof/Laws/Tasks.lean ====
section
/-! SUPPORT. Tasks that are dispatched, leave their cores and are over: names, registries and sequencers. -/

namespace Sys2Proof.Machine

open Sys2Proof Sys2Proof.Safety

theorem undoHand_wqs (s : State) (b : Submission) : (∀ f q, (s.undoHand b).wq f q = s.wq f q) := by
  intro f q
  simp only [State.undoHand]
  split
  · rfl
  · split
    · rfl
    · split
      · rfl
      · split
        · rfl
        · simp only [State.setRegions, State.wq]
          rename_i t _ _ _
          by_cases e : f = t.fn
          · subst e; rw [State.fn_updFn]; rfl
          · rw [State.fn_updFn_ne _ _ e]; rfl

theorem keepHand_wqs (s : State) (b : Submission) : (∀ f q, (s.keepHand b).wq f q = s.wq f q) := by
  intro f q
  simp only [State.keepHand]
  split
  · rfl
  · split <;> rfl

theorem landAnswer_shape (s : State) (c i : Nat) (v : Dbl) : (∀ f q, (s.landAnswer c i v).wq f q = s.wq f q)
    ∧ ∀ e ∈ ((s.landAnswer c i v).seq c).landing, e.id = i → e.arrived = true ∧ e.data = v.setWidth 128 := by
  refine ⟨fun _ _ => rfl, fun e he hi => ?_⟩
  simp only [State.landAnswer, State.thaw, State.seq, State.updSeq, State.core_updCore] at he
  obtain ⟨o, _, h⟩ := List.mem_map.mp he
  split at h
  · subst h; exact ⟨rfl, rfl⟩
  · rename_i hne; subst h; exact absurd hi hne

/-- A task that is placed stands on its cores. -/
theorem placeTask_shape (t : Task) (cs : List Nat) : ∀ s : State,
    (∀ c, (c ∈ cs ∨ ((s.core c).task.map Task.name = some t.name ∧ (s.core c).seq = Seq.dispatched t)) →
      ((s.placeTask t cs).core c).task.map Task.name = some t.name ∧ ((s.placeTask t cs).core c).seq = Seq.dispatched t)
    ∧ (∀ f, FuncKept (s.fn f) ((s.placeTask t cs).fn f)) := by
  induction cs with
  | nil => intro s; exact ⟨fun c h => by simpa [State.placeTask] using h, fun f => FuncKept.refl _⟩
  | cons k cs ih =>
    intro s
    rw [State.placeTask]
    have hw := Walked.settleCore (s.updCore k fun x => x.dispatched t) k t
    obtain ⟨h1, h2⟩ := ih ((s.updCore k fun x => x.dispatched t).settleCore k t)
    refine ⟨fun c hc => h1 c ?_, fun f => FuncKept.trans (hw.fns f) (h2 f)⟩
    by_cases e : c = k
    · right
      rw [hw.seqs, hw.who, e, State.core_updCore]
      exact ⟨rfl, rfl⟩
    · rcases hc with hc | hc
      · exact .inl ((List.mem_cons.mp hc).resolve_left e)
      · right
        rw [hw.seqs, hw.who, State.core_updCore_ne _ _ e]
        exact hc

theorem name_any {o : Option Task} {t : Task} (h : o.map Task.name = some t.name) (p : Task → Bool)
    (hp : ∀ x : Task, x.name = t.name → p x = true) : o.any p = true := by
  cases o with
  | none => cases h
  | some x => exact hp x (Option.some.inj h)

/-- A dispatch of a task that is not pure, without a race. -/
theorem dispatch_shape (s : State) (d : Nat) (k : Candidate) (cs : List Nat) (rs : List Region)
    (h1 : ¬ (k.record.nextTask = 0 ∧ 38 < k.record.spreq)) (h2 : k.record.isPure = false)
    (h3 : k.record.nextRegions = .ok rs) (h4 : s.race k.fn k.wq k.record.seq rs = none) :
    (∀ c ∈ cs, ((s.dispatch d k cs).core c).task.map Task.name = some (k.record.task k.fn k.wq cs rs).name
      ∧ ((s.dispatch d k cs).core c).seq = Seq.dispatched (k.record.task k.fn k.wq cs rs))
    ∧ ((s.dispatch d k cs).fn k.fn).registry = (s.fn k.fn).registry ++ [⟨k.wq, k.record.seq, k.record.nextTask, rs⟩]
    ∧ ∀ f, ∀ v ∈ (s.fn f).away, ∃ u ∈ ((s.dispatch d k cs).fn f).away, u.place = v.place ∧ u.addr = v.addr ∧ u.task.name = v.task.name := by
  simp only [State.dispatch, h1, if_false, h3, h4]
  let u := s.updDie d fun x =>
    { x with
      lastQueue := k.queue
      reserved := if (tfind k.fn x.reserved).any (fun p => p.1 == k.queue) then terase k.fn x.reserved else x.reserved }
  simp only [State.startTask, show (k.record.task k.fn k.wq cs rs).isPure = false from h2, Bool.not_false, if_true]
  let v := u.updFn k.fn fun f => { f with registry := f.registry ++ [⟨k.wq, k.record.seq, k.record.nextTask, rs⟩] }
  have hw := Walked.updRecord v k.fn k.wq k.record.seq (fun r =>
          let r := { r.advance with open_ := r.open_ ++ [r.nextTask] }
          { r with state := if r.drained then .draining else r.state })
    fun r => by simp only [Record.advance]; split <;> rfl
  obtain ⟨p1, p2⟩ := placeTask_shape (k.record.task k.fn k.wq cs rs) (k.record.task k.fn k.wq cs rs).members
    (v.updRecord k.fn k.wq k.record.seq fun r =>
          let r := { r.advance with open_ := r.open_ ++ [r.nextTask] }
          { r with state := if r.drained then .draining else r.state })
  refine ⟨fun c hc => p1 c (.inl hc), ?_, fun f w hf => ?_⟩
  · refine ((p2 k.fn).lists.1.trans (hw.fns k.fn).lists.1).trans ?_
    show ((u.updFn k.fn _).fn k.fn).registry = _
    rw [State.fn_updFn]; rfl
  · refine ((FuncKept.trans (hw.fns f) (p2 f)).away w ?_)
    show w ∈ ((u.updFn k.fn _).fn f).away
    by_cases e : f = k.fn
    · subst e; rw [State.fn_updFn]; exact hf
    · rw [State.fn_updFn_ne _ _ e]; exact hf

theorem resTag_cycle (x : Core) (i : Nat) : (x.cycle.resTag i).valid = (x.resTag i).valid := by
  simp only [Core.cycle, Core.resTag]
  split
  · simp only [tget]
    rw [tfind_map i (fun p : ResTag => { p with born := p.born + 1 })]
    cases tfind i x.res.tags <;> rfl
  · rfl

theorem writeBackAll_clean (s : State) (c : Nat) : ((s.writeBackAll c).core c).dirtyLines = [] := by
  rw [State.writeBackAll, Core.dirtyLines, writeBackList_lines, List.filter_eq_nil_iff]
  intro l hl
  obtain ⟨m, hm, e⟩ := List.mem_map.mp hl
  by_cases h : (s.core c).dirtyLines.any (·.slot == m.slot) = true
  · rw [if_pos h] at e
    rw [← e]
    simp
  · rw [if_neg h] at e
    intro hc
    apply h
    rw [List.any_eq_true]
    rw [← e] at hc
    exact ⟨m, by rw [Core.dirtyLines]; exact List.mem_filter.mpr ⟨hm, hc⟩, by simp⟩

theorem clearCore_shape (s : State) (c : Nat) (t : Task) :
    ((s.clearCore c t).core c).task = none
    ∧ (∀ m, (s.core m).task = none → ((s.clearCore c t).core m).task = none)
    ∧ ∀ f, FuncKept (s.fn f) ((s.clearCore c t).fn f) := by
  rw [State.clearCore]
  have h : Walked s (((((s.logLost c).dropClaims c).unmonitor c).dropLease c).markRows (quadOf c) t.row .released) :=
    by
    have h0 : Walked s (s.logLost c) := Walked.aside ⟨rfl, rfl, rfl, rfl, rfl⟩
    generalize s.logLost c = v at h0 ⊢
    exact Walked.trans (Walked.trans (Walked.trans (Walked.trans h0 (Walked.dropClaims v c)) (Walked.unmonitor _ c)) (Walked.dropLease _ c)) (Walked.markRows ..)
  generalize (((((s.logLost c).dropClaims c).unmonitor c).dropLease c).markRows (quadOf c) t.row .released) = u at h
  refine ⟨by rw [State.core_updCore]; rfl, fun m hm => ?_, fun f => h.fns f⟩
  by_cases e : m = c
  · subst e; rw [State.core_updCore]; rfl
  · rw [State.core_updCore_ne _ _ e]
    have := h.who m
    rw [hm] at this
    cases h : (u.core m).task with
    | none => rfl
    | some x => rw [h] at this; cases this

theorem clearCores_cons (s : State) (t : Task) (c : Nat) (l : List Nat) : s.clearCores t (c :: l) = (s.clearCore c t).clearCores t l := by
  conv_lhs => unfold State.clearCores

theorem clearCores_shape (t : Task) (l : List Nat) : ∀ s : State,
    (∀ m, (m ∈ l ∨ (s.core m).task = none) → ((s.clearCores t l).core m).task = none)
    ∧ ∀ f, FuncKept (s.fn f) ((s.clearCores t l).fn f) := by
  induction l with
  | nil => intro s; exact ⟨fun m h => h.elim (fun h => by cases h) id, fun f => FuncKept.refl _⟩
  | cons c l ih =>
    intro s
    obtain ⟨h1, h2, h3⟩ := clearCore_shape s c t
    obtain ⟨k1, k2⟩ := ih (s.clearCore c t)
    rw [clearCores_cons]
    refine ⟨fun m hm => k1 m ?_, fun f => FuncKept.trans (h3 f) (k2 f)⟩
    by_cases e : m = c
    · subst e; exact .inr h1
    · rcases hm with hm | hm
      · exact .inl ((List.mem_cons.mp hm).resolve_left e)
      · exact .inr (h2 m hm)

theorem formed_shape (ms : List Nat) : ∀ s : State,
    (∀ k, ∃ b, (ms.foldl (fun (s : State) m => s.updCore m fun x => { x with mat := { x.mat with formed := false } }) s).core k
      = { s.core k with mat := { (s.core k).mat with formed := b } })
    ∧ ∃ cs, (ms.foldl (fun (s : State) m => s.updCore m fun x => { x with mat := { x.mat with formed := false } }) s) = { s with cores := cs } := by
  induction ms with
  | nil => intro s; exact ⟨fun k => ⟨_, rfl⟩, ⟨s.cores, rfl⟩⟩
  | cons m ms ih =>
    intro s
    obtain ⟨h1, cs, h2⟩ := ih (s.updCore m fun x => { x with mat := { x.mat with formed := false } })
    refine ⟨fun k => ?_, ⟨cs, h2⟩⟩
    obtain ⟨b, h⟩ := h1 k
    rw [List.foldl_cons, h]
    by_cases e : k = m
    · subst e; rw [State.core_updCore]; exact ⟨b, rfl⟩
    · rw [State.core_updCore_ne _ _ e]; exact ⟨b, rfl⟩

theorem dropLease_core (s : State) (c k : Nat) : (s.dropLease c).core k = s.core k := by
  rw [State.dropLease]; split <;> rfl

theorem Walked.orphan (s : State) (p : ReqSrc → Bool) : Walked s (s.orphan p) := Walked.aside ⟨rfl, rfl, rfl, rfl, rfl⟩


end Sys2Proof.Machine
end

