-- ==== Sys2Proof/Tests/Slice0.lean ====
section
/-! SUPPORT. The model's own tests: ill-formed terms refused, words written out from the manual's encodings, and, for each
statement with hypotheses, a state and operands that meet them. -/

namespace Sys2Proof.Tests

open Sys2Proof Sys2Proof.Machine Sys2Proof.Safety

set_option maxRecDepth 100000

/-! ## Ill-formed terms (each check of Sys2Proof/WellFormed.lean refuses one) -/

theorem test_wf_numbers : ∀ i ∈ [Instr.commandRetire 384 .load, .commandRetire 0 .seq, .landingDrop 385, .thermalStop 16,
    .leaseGrant 96, .hubLookup 256, .recordStart 0 0, .recordStart 49 0, .recordStart 1 8, .residualAgeExpiry 0 64,
    .powerLimitFreeze 0 24 true, .linkFlitCheckFail (.boundary 24), .linkFlitCheckFail (.port 18), .shareWindow (.fabric 18),
    .registerParityError 0 (.special 0x012) true, .bringupStageDone (.ok [48]), .barrierRelease 1 .die 0 16],
    i.wf = false := by decide

theorem test_wf_sequencer : ∀ i ∈ [Instr.sel (.named 1 true) (.belt 0) (.belt 1) .belt, .extb (.belt 0) .belt false 1 63,
    .insb (.belt 0) (.belt 1) .belt 63 1, .idx 0 .belt (.e2 0), .csrr 0x016 .belt, .csrw 0x012 (.belt 0),
    .ld (.belt 0) .belt .d64 0 (.e0 0), .b (.e2 0), .loop (.belt 0) 0 0 (.e2 0), .bar .core 1 (.belt 0),
    .aadd (.belt 0) (.belt 1) .belt .f64 false 1, .afadd (.belt 0) (.belt 1) .belt .s64 false 1,
    .acas128 (.belt 0) 0 3 true .belt false 1, .record (.belt 0) .belt 0 0], i.wf = false := by decide

theorem test_wf_engines : ∀ i ∈ [Instr.ldt 0 .raw .rne false (.e2 0), .ldo 0 false 0 (.e1 65537), .gth 0 9 1,
    .vadd 9 0 0 .f32 .rne 0 false, .vadd 0 11 0 .f32 .rne 0 false, .vadd 0 0 0 .f32 .rne 0 true,
    .vcmp 0 0 0 .un .s32 0, .mset 0 65, .vqnt 3 0 3 .f32 .rne .mx8 false, .vhad 0 0 .f32 .rne 0 false true true,
    .mclaim .acc 0x100, .maccld ⟨0, .f32, 1, 127, 0, 0⟩, .pset 0 .gsel (.e0 4), .pset 0 .lstr (.e0 4)], i.wf = false := by decide

theorem test_wf_host : ∀ m ∈ [HostMsg.doorbell 0 0 0, .doorbell 1 8 0, .registerWrite 49 0 8 0, .registerWrite 0 0 2 0,
    .getVersion 49, .challenge 0 8 [], .getMeasurements 0 0 [], .migrationPageArrival 1 0 []], m.wf = false := by decide

/-! ## Words written out from the encodings -/

theorem test_decode_integer : decodeTableWord 32 0x00620220 = some (.add (.named 1 false) (.belt 0) (.named 1) .s64) := by decide
theorem test_decode_loop : decodeTableWord 32 0x0B272283 = some (.loop (.named 3 true) 1 5 (.e0 3)) := by decide
theorem test_decode_lend : decodeTableWord 32 0x0B410000 = some (.lend 1) := by decide
theorem test_decode_vector : decodeTableWord 32 0x08894042 = some (.vbcastHi 2 (.e0 0x4042)) := by decide
theorem test_decode_walker : decodeTableWord 32 0x0EC60000 = some (.fwqry .hit .belt) := by decide
theorem test_decode_record : decodeTableWord 64 0x0FC000010EC10508 = some (.record (.named 0 false) (.named 4) 1 1) := by decide
theorem test_decode_system : decodeTableWord 32 0x0F171014 = some (.migout (.named 1 false) 0 false (.named 4)) := by decide
theorem test_decode_wait : decodeTableWord 32 0x0D03FFFC = some (.wait 0 15 63 63) := by decide
theorem test_decode_atomic : decodeTableWord 64 0x0FC002800E050000 = some (.aadd (.named 0 false) (.belt 0) .belt .s64 false 40) := by decide
theorem test_decode_control : decodeTableWord 32 0x0E810001 = some (.probe (.named 0 false) .belt (.e0 1)) := by decide
theorem test_decode_load : decodeTableWord 32 0x09640603 = some (.ld (.named 2 false) .belt .d64 3 (.e0 0)) := by decide
theorem test_decode_lockring : decodeTableWord 32 0x0F450011 = some (.lkqry (.named 0 false) (.named 1)) := by decide
theorem test_decode_copy : decodeWord .load 0x00800080 [] = .ok (.ldt 0 .raw .rne false (.e0 0x80))
    ∧ decodeWord .store 0x00C00080 [] = .ok (.acc 0 .s64 (.e0 0x80)) := by decide
/-- Formats MM, CL and OT (R243): majors 0x08, 0x04 and 0x0B, with their EXT words. -/
theorem test_decode_matrix : decodeWord .mat 0x0212801F [0x0FC00010, 0x0FC00020] = .ok (.mma ⟨2, 1, false, true, 31, 0x10, 0x20⟩)
    ∧ decodeWord .mat 0x01000003 [0x0FC00000] = .ok (.mclaim .a 3)
    ∧ decodeWord .mat 0x02CA0103 [0x0FC00040, 0x0FC00400] = .ok (.mout ⟨1, .f32, 2, 3, 0x40, 0x400⟩ .rne) := by decide
/-- SIDE 2 with a mask bit above 7, and KS in MMA, are illegal (R245). -/
theorem test_decode_illegal : (decodeWord .mat 0x01200100 [0x0FC00000]).isOk = false
    ∧ (decodeWord .mat 0x0212C01F [0x0FC00010, 0x0FC00020]).isOk = false := by decide

/-! ## States -/

/-- A region of 64 KiB at 1 MiB that the task reads and writes. -/
def aRegion : Region := ⟨0x100000, 0x10000, 1, 0, 1, 0, .rw, false, 0⟩

/-- A task of function 1, queue 0, on core 0, with 64 words of code at 0x1000. -/
def aTask : Task where
  fn := 1
  wq := 0
  rseq := 1
  tseq := 0
  idx := []
  arg := 0
  prio := 4
  effPrio := 4
  isPure := false
  strict := false
  reloc := false
  resid := true
  spreq := 16
  gang := 0
  members := [0]
  code := [(0x1000, 64), (0x2000, 64), (0x3000, 64), (0x4000, 64), (0x5000, 64)]
  regions := [aRegion]
  handed := []
  irrevocable := false
  eligible := false
  wd := 0
  stopping := none
  stopped := none
  stopBy := none
  stoppedAt := 0
  parked := false
  finished := false
  yielded := false
  settling := []
  pureInfo := none

/-- A translation of 2 MiB at 0 with every permission, to the same place. -/
def aPage : TlbEntry := ⟨1, 0, 0x200000, 0x200000, 0, 0, 0, 0b1111, 0b11, false, 0, false, false⟩

/-- Core 0 with the task and the translation; its sequencer stands at the first word of its code. -/
def aCore : Core := { Core.reset with task := some aTask, tlb := [aPage], spreq := 16, seq := Seq.reset 0x1000 }

/-- The package with function 1 bound and the task on core 0, whose word at 0x1000 is current. -/
def aState : State :=
  let s := (State.reset.updCore 0 fun _ => aCore).updFn 1 fun f => { f with bound := true }
  { s with cur := { s.cur with core := 0, addr := 0x1000 }, boot := { s.boot with ready := true } }

/-- The same with a change of core 0. -/
def withCore (f : Core → Core) : State := aState.updCore 0 f
/-- The same with a change of its sequencer. -/
def withSeq (f : Seq → Seq) : State := aState.updSeq 0 f

/-! ## Integer words, special registers, control -/

theorem test_fresh : Fresh aState [.named 1 false, .belt 0] := ⟨by decide, by decide, by decide⟩

theorem test_level : Fresh (withSeq fun q => { q with loops := [⟨0x1004, 0x1008, 0x1010, 0, 1, 1, 0, 0, 5, 0, false, false, false, false⟩] }) []
    ∧ (((withSeq fun q => { q with loops := [⟨0x1004, 0x1008, 0x1010, 0, 1, 1, 0, 0, 5, 0, false, false, false, false⟩] }).seq
        aState.cur.core).loops[(0 : BitVec 2).toNat]?).isSome = true := ⟨⟨by decide, by decide, by decide⟩, by decide⟩

theorem test_special : specialValue aState aState.cur.core 0x00A = some 0 := by decide
theorem test_special_last : specialValue aState aState.cur.core 0x02F = some 0 := by decide
theorem test_special_fn : specialValue aState aState.cur.core 0x001 = some 1 := by decide
theorem test_inCode : aState.inCode aState.cur.core 0x10FC = true ∧ aState.inCode aState.cur.core 0x1100 = false := by decide
theorem test_scalar_read : (aState.scalar 0x100000 8 Need.read [.rd, .rw]).2 = .ok 0x100000 := by decide
theorem test_scalar_rmw : (aState.scalar 0x100000 16 Need.atomicRmw [.rw, .atom]).2 = .ok 0x100000 := by decide
theorem test_scalar_record : (aState.scalar 0x10FF00 256 Need.read [.rd, .rw]).2 = .ok 0x10FF00 := by decide

/-- A pair whose second part passes a check. -/
theorem okOf {σ ε α : Type} {p : σ × Except ε α} (q : σ → α → Bool)
    (h : (match p with
      | (r, .ok m) => q r m
      | _ => false) = true) : ∃ r m, p = (r, .ok m) ∧ q r m = true := by
  obtain ⟨r, x⟩ := p
  cases x with
  | error e => cases h
  | ok m => exact ⟨r, m, rfl, h⟩

theorem test_fresh_none : Fresh aState [] := ⟨by decide, by decide, by decide⟩
theorem test_short : IntOp.add.short = true ∧ IntOp.div.short = false := by decide
theorem test_ordinary : Ordinary aState aState.cur.core := by unfold Ordinary; decide
theorem test_branch : aState.inCode aState.cur.core (aState.cur.addr + BitVec.ofInt 64 (4 * (Imm.e0 63#22 : Imm 22).int)) = true
    ∧ (aState.seq aState.cur.core).cd ≠ 255 := by decide
theorem test_compares : compares .eq (operand aState (.belt 0)) (operand aState (.belt 1))
    ∧ ¬ compares .lo (operand aState (.belt 0)) (operand aState (.belt 1)) := by unfold compares; decide

/-- LEND 1 stands at 0x1004. -/
def atLoop : State := (withSeq fun q => { q with named := q.named.set 1 5 }).writePhys 0 0x1004 [0, 0, 0x41, 0x0B]
theorem test_loop : ∃ r w, atLoop.fetchWord atLoop.cur.core (atLoop.nextPc + BitVec.ofNat 64 (4 * (0 : BitVec 6).toNat)) = (r, .ok w)
    ∧ (decide (major w = 0x2D#6) && decide ((operand atLoop (.named 1 false)).toNat = 5)) = true := okOf (fun _ _ => _) (by decide)

theorem test_lend : (withSeq fun q => { q with loops := [⟨0x1004, 0x1004, 0x1000, 1, 1, 0, 0, 0, 5, 0, false, false, false, false⟩] }).cur.addr
    = (⟨0x1004, 0x1004, 0x1000, 1, 1, 0, 0, 0, 5, 0, false, false, false, false⟩ : LoopLevel).last := by decide
theorem test_trap : ((withSeq fun q => { q with tvec := 0x1000 }).seq aState.cur.core).tvec ≠ 0
    ∧ ((withSeq fun q => { q with tvec := 0x1000 }).seq aState.cur.core).landing = [] := by decide
theorem test_trap_parks : aState.cur.core < 384 ∧ (aState.core aState.cur.core).task = some aTask
    ∧ (aState.seq aState.cur.core).tvec = 0 := by decide
theorem test_eret : aState.inCode aState.cur.core ((withSeq fun q => { q with th := true, xpc := 0x10FC }).seq 0).xpc = true
    ∧ aState.inCode aState.cur.core ((withSeq fun q => { q with th := true, xpc := 0x1100 }).seq 0).xpc = false := by decide

/-! ## Fences and barriers -/

theorem settledOf {s : State} {c : Nat} (sc : Scope) (h : (s.seq c).stores = [] ∧ (s.core c).copy.wbs = [] ∧ (s.seq c).atomicReq = none
    ∧ (s.core c).res.pend = 0 ∧ (s.core c).res.prio = 0 ∧ (s.core c).copy.lines = []) : Settled s c sc where
  stores p k := by rw [h.1] at k; cases k
  writeBacks p k := by rw [h.2.1] at k; cases k
  atomic p k := by rw [h.2.2.1] at k; cases k
  addends _ := ⟨h.2.2.2.1, h.2.2.2.2.1⟩
  lines _ p k := by rw [h.2.2.2.2.2] at k; cases k
theorem test_settled (sc : Scope) : Settled aState 0 sc := settledOf sc (by decide)
theorem test_sweep : ((withSeq fun q => { q with phase := 1, sweep := [15] }).seq 0).phase = 1
    ∧ 15 ∈ ((withSeq fun q => { q with phase := 1, sweep := [15] }).seq 0).sweep := by decide
theorem test_barrier : (∀ q ∈ (aState.core 0).queues, q = []) ∧ 2 ≤ scopeCores .quad ∧ (aState.fn aTask.fn).barriers = [] := by decide
theorem test_release : (⟨.die, 0, 3, 1, [0], 0⟩ : Barrier) ∈ ((aState.updFn 1 fun f => { f with barriers := [⟨.die, 0, 3, 1, [0], 0⟩] }).fn 1).barriers := by
  decide

/-- Core 0 has arrived at barrier 3, which is full. -/
def arrivedState : State := (withSeq fun q => { q with phase := 2, arrived := true, sweep := [Scope.die.code.toNat, 0, 3, 0] }).updFn 1 fun f =>
  { f with barriers := [⟨.die, 0, 3, 1, [0], 0⟩] }
theorem test_arrived : (arrivedState.seq 0).arrived = true ∧ (arrivedState.seq 0).sweep = [Scope.die.code.toNat, 0, 3, 0]
    ∧ (∀ b ∈ (aState.fn aTask.fn).barriers, b.cores.length < b.n → b.n = 4) := by decide

/-! ## Loads, stores, atomics, monitors -/

/-- k1 names the region, k2 the local window of the core's own array. -/
def atData : State := withSeq fun q => { q with named := (q.named.set 1 0x100000).set 2 0x8000000000000040 }

theorem test_load : ∃ r pa, atData.scalar (operand atData (.named 1 false) + BitVec.ofInt 64 (Imm.e0 0#0 : Imm 0).int) 8 Need.read [.rd, .rw] = (r, .ok pa)
    ∧ (!(r.regionWait 0 0x100000 8 [.wr, .rw, .acc, .atom]) && (r.scalarLine 0x100000).isNone && !isArray pa) = true :=
  okOf (fun _ _ => _) (by decide)
theorem test_load_array : ∃ r pa, atData.scalar (operand atData (.named 2 false)) 8 Need.read [.rd, .rw] = (r, .ok pa)
    ∧ (isArray pa && arrayCore pa == 0 && !(r.regionWait 0 0x8000000000000040 8 [.wr, .rw, .acc, .atom])) = true :=
  okOf (fun _ _ => _) (by decide)
theorem test_store : ∃ r pa, atData.scalar (operand atData (.named 1 false)) 8 Need.write [.wr, .rw] = (r, .ok pa)
    ∧ (!(r.regionWait 0 0x100000 8 [.rd, .wr, .rw, .acc, .atom]) && (r.scalarLine 0x100000).isNone) = true :=
  okOf (fun _ _ => _) (by decide)
theorem test_atomic : ∃ r pa, atData.scalar (operand atData (.named 1 false)) 8 Need.atomicRmw [.rw, .atom] = (r, .ok pa)
    ∧ (!isHost pa && (r.scalarLine 0x100000).isNone) = true := okOf (fun _ _ => _) (by decide)
theorem test_atomic_form : atomicForm atData (.aadd (.named 1 false) (.belt 0) .belt .s64 false 40)
    = some ⟨.add, .s64, false, .named 1 false, [.named 1 false, .belt 0], 0, 0, some (.atomic .s64, .belt, 40)⟩ := by decide
theorem test_monitor : ∃ r pa, atData.scalar (operand atData (.named 1 false)) 8 Need.atomicRead [.rw, .atom] = (r, .ok pa)
    ∧ (!isHost pa && (r.scalarLine 0x100000).isNone) = true := okOf (fun _ _ => _) (by decide)
theorem test_record : ∃ r pa, atData.scalar 0x10FF00 256 Need.read [.rd, .rw] = (r, .ok pa) ∧ (pa == 0x10FF00) = true :=
  okOf (fun _ _ => _) (by decide)

/-- An atomic is on its way to bytes of the own array. -/
def behindAtomic : State := { atData.updSeq 0 (fun q => { q with atomicReq := some 4 }) with
  reqs := [{ Req.blank (.atomic 0 none 3 0x1000) (.atomic .add .s64 1 0 false) (arrayAt 0 0x40) 8 with id := 4 }] }
theorem test_port : (∃ r pa, atData.scalar (operand atData (.named 2 false)) 8 Need.write [.wr, .rw] = (r, .ok pa)
      ∧ (isArray pa && arrayCore pa == 0 && !r.portFirst pa 8) = true)
    ∧ ∃ r pa, behindAtomic.scalar (operand behindAtomic (.named 2 false)) 8 Need.read [.rd, .rw] = (r, .ok pa)
      ∧ (isArray pa && arrayCore pa == 0 && r.portFirst pa 8) = true :=
  ⟨okOf (fun r pa => isArray pa && arrayCore pa == 0 && !State.portFirst r pa 8) (by decide),
    okOf (fun r pa => isArray pa && arrayCore pa == 0 && State.portFirst r pa 8) (by decide)⟩

/-- A load that has landed, and one that has not. -/
def aLanding (arrived : Bool) : Landing := ⟨5, 0x1000, .load .d64, 0x100000, 7, true, 0, arrived, false, .belt, 3, []⟩
/-- Its answered request. -/
def anAnswer : Req := { Req.blank (.land 0 5) .read 0x100000 8 with id := 9, phase := .answered, result := List.replicate 8 1 }
def landing (arrived : Bool) : State := { withSeq fun q => { q with landing := [aLanding arrived] } with reqs := [anAnswer] }

theorem test_landing : (landing false).landingReq 0 5 = some anAnswer ∧ aLanding false ∈ ((landing false).seq 0).landing := by decide
theorem test_due : ((landing true).seq 0).landing.find? (fun e => decide (e.due ≤ ((landing true).seq 0).cyc)) = some (aLanding true)
    ∧ ((landing false).seq 0).landing.find? (fun e => decide (e.due ≤ ((landing false).seq 0).cyc)) = some (aLanding false) := by decide

/-- An atomic at the arithmetic unit of its home. -/
def anAtomic : Req := { Req.blank (.atomic 0 (some 5) 3 0x1000) (.atomic .add .s64 1 0 false) 0x100000 8 with id := 4, phase := .alu }
def atHome : State :=
  let s := aState.writePhys 0 0x100000 (List.replicate 8 1)
  { s.updSlice (homeIdx 0x100000) (fun x => { x with ops := [4] }) with reqs := [anAtomic] }
theorem test_home : Memory.wf atHome.mem = true ∧ atHome.req 4 = some anAtomic
    ∧ (atHome.slice (homeIdx 0x100000)).ops.find? (fun k => ((atHome.req k).map fun r => r.pa / 128 == 0x100000 / 128).getD false) = some 4
    ∧ 0x100000 / 128 ∉ atHome.poison ∧ (tfind (0x100000 / 128) atHome.memKey).any (·.key == 0) = true := by decide

/-- The monitor's answer, and a monitor that has fired. -/
def arming : State := { withSeq fun q => { q with phase := 1, stall := 10 } with
  reqs := [{ Req.blank (.arm 0) (.arm 0) 0x100000 8 with id := 2, phase := .answered, result := List.replicate 8 0 }] }
theorem test_arm_answer : (arming.armAnswer 0).any (fun r => r.id == 2 && !r.poison) = true := by decide
def fired : State := withCore fun x =>
  { x with mon := some ⟨0x100000, 0, true, true, 1⟩, seq := { x.seq with phase := 2, stall := 10 } }
theorem test_fired : fired.armAnswer 0 = none ∧ (fired.core 0).mon = some ⟨0x100000, 0, true, true, 1⟩ ∧ (fired.seq 0).answer = none := by decide
theorem test_unheld : (withCore fun x => { x with mon := some ⟨0x100000, 0, true, false, 0⟩, seq := { x.seq with phase := 2, stall := 10 } }).unheldMonitor 0
    = true := by decide

/-! ## The probed cache region -/

/-- A valid line of the block at 1 MiB. -/
def aLine (st : PState) (dirty : BitVec 256) (reqs : List Nat) : PLine := ⟨0x20000, 1, 0, 0x1000, 0x100000, 0x100000, dirty, 0, st, reqs, []⟩
def probed (l : PLine) : State := atData.updCore 0 fun x => { x with copy := { x.copy with lines := [l] } }
theorem test_probe_hit : ((probed (aLine .valid 0 [])).core 0).lineOf 1 0 0x1000 = some (aLine .valid 0 []) := by decide
theorem test_probe_miss : (atData.core 0).lineOf 1 0 0x1000 = none
    ∧ ((atData.core 0).probeWay (0x1000 % (atData.core 0).probeSets)).isSome = true := by decide
theorem test_probe_address : ∃ r pa, atData.scalar (operand atData (.named 1 false)) 1 Need.read [.rd, .rw] = (r, .ok pa) ∧ (pa == 0x100000) = true :=
  okOf (fun _ _ => _) (by decide)
def filled : State := { probed (aLine .pending 0 [1, 2]) with
  reqs := [{ Req.blank (.probeFill 0 0x20000 0) .read 0x100000 128 with id := 1, phase := .answered, result := List.replicate 128 0 },
    { Req.blank (.probeFill 0 0x20000 1) .read 0x100080 128 with id := 2, phase := .answered, result := List.replicate 128 0 }] }
theorem test_probe_fill : (filled.core 0).lineAt 0x20000 = some (aLine .pending 0 [1, 2])
    ∧ (filled.req 1).any (·.phase == .answered) = true ∧ (filled.req 2).any (·.phase == .answered) = true := by decide
theorem test_named : (probed (aLine .valid 1 [])).namedLines aTask none = [aLine .valid 1 []]
    ∧ (probed (aLine .valid 0 [])).namedLines aTask none = [aLine .valid 0 []] := by decide
theorem test_watermark : ¬ 0 < ((aState.core 0).copy.xw.getD 7 0 - (operand aState (.belt 0)).setWidth 32).toInt
    ∧ 0 < ((aState.core 0).copy.xw.getD 7 0 - (operand (withSeq fun q => { q with belt := q.belt.set 0 0xFFFFFFFF }) (.belt 0)).setWidth 32).toInt := by
  decide

/-! ## Engine commands -/

/-- A command of one word, in slot 0 of its queue; `b` is its body. -/
def aCmd (b : Option (List Word)) : Cmd where
  uid := 7
  slot := 0
  cw0 := 0
  cw1 := 0
  cw2 := 0
  cw3 := 0
  nest := Nest.none
  regions := []
  desc := CopyDesc.none
  edges := []
  waits := []
  epoch := false
  bodyAddr := 0x2000
  body := b
  fetchFault := none
  started := true
  pos := 0
  idx := []
  iters := 0
  allIssued := false
  wids := []
  reloc := false
  ctx := none
  xlat := []
  takenBy := none
  faulted := false

/-- The command at the head of an engine's queue of core 0, whose word is current there. -/
def engined (e : Engine) (k : Cmd) : State :=
  let s := (aState.writePhys 0 0x2000 (List.replicate 4 0)).updCore 0 fun x =>
    { x with queues := x.queues.set (queueIdx e) [k], copy := { x.copy with tlb := [aPage] } }
  { s with cur := { s.cur with eng := e, cmd := 7 } }

/-- A region descriptor of 64 KiB that is read, at 0x100 of the scratchpad, and the command words in k0 to k3. -/
def pushing : State := (withSeq fun q => { q with named := ((q.named.set 0 0x10000000).set 2 0x100).set 3 0x40 }).writePhys 0
  (arrayAt 0 0x100) ([0, 0, 0x10, 0, 0, 0, 0, 0] ++ [0, 0, 1, 0] ++ [1, 0, 0, 0, 0, 0, 0, 0, 1, 0, 0, 0, 0, 0, 0, 0] ++ [3, 0, 0, 0])
theorem test_push : (∃ r held, pushing.useFree.xlatRegions 0 1 (pushing.rootOf 1 0) []
      ((pushing.launchBytes 0 .load 0x10000000 0 0x100 0x40).regionBytes.filterMap parseRegion) = (r, .ok held)
      ∧ decide (held = [aPage] ∧ r.metLines 0 aTask [aRegion] (fun g => g.kind.writes) = []) = true)
    ∧ launchReason aTask .load 0x10000000 0 0x100 0x40 (pushing.launchBytes 0 .load 0x10000000 0 0x100 0x40) = none
    ∧ (∀ slot, (pushing.core 0).unlinked 0 .load (cwChain 0x10000000) slot [aRegion] = none)
    ∧ handedByte 0 [] [aRegion] = none :=
  ⟨okOf (fun _ _ => _) (by decide), by decide, fun _ => rfl, by decide⟩
theorem test_body : ∃ r ws, (engined .load (aCmd none)).fetchBody 0 1 ((engined .load (aCmd none)).rootOf 1 0) 0x2000 1 0 = (r, .ok ws)
    ∧ ((match (r.fetchBody 0 1 0 0x2004 0 0).2 with
      | .ok l => l == []
      | _ => false) && ws == [0] && ((engined .load (aCmd none)).core 0).unfetched .load == some (aCmd none)) = true :=
  okOf (fun _ _ => _) (by decide)
theorem test_fetch_fault : ((engined .load { aCmd none with fetchFault := some ⟨0x15, 0, 0x2000, 0, 0⟩ }).fetchFaulted 0 .load).isSome = true := by
  decide
theorem test_over : ((engined .vec { aCmd (some [0]) with allIssued := true }).core 0).cmdOver .vec { aCmd (some [0]) with allIssued := true } = true
    ∧ ((engined .vec (aCmd (some [0]))).core 0).cmdOver .vec (aCmd (some [0])) = false := by decide

/-- A matrix command on core 0; the array is free, is asked for, is held. -/
def leasing (f : Quad → Quad) : State := (engined .mat (aCmd (some [0]))).updQuad 0 f
theorem test_lease : (leasing id).wantsLease 0 = true ∧ (leasing id).holdsLease 0 = false
    ∧ ((leasing fun q => { q with leaseReqs := [0] }).quad 0).nextHolder 0 = some 0
    ∧ ((leasing fun q => { q with leaseHolder := some 0, leaseReqs := [1] }).quad 0).leaseReqs = [1] := by decide
theorem test_stall_over : canSequencerStallRelease 0 ((withSeq fun q => { q with stall := 3 }).writePhys 0 0x1000 [0, 0, 0x40, 0x0C, 0, 0, 0, 0]) = true := by decide

/-- Core 0 asks for its array anew after its lease ended at a limit. -/
def regranted : State := (leasing fun q => { q with leaseReqs := [0] }).updCore 0 fun x => { x with mat := { x.mat with anew := true } }
theorem test_anew : (regranted.core 0).mat.anew = true ∧ ((leasing id).core 0).mat.anew = false ∧ (regranted.core 0).leaseGroup 0 = [0]
    ∧ (regranted.quad 0).nextHolder 0 = some 0 ∧ regranted.wantsLease 0 = true
    ∧ (match exec (.leaseGrant 0) regranted with
      | .next t => t.holdsLease 0
      | _ => false) = true := by decide

/-! ## Backpedal accumulation -/

theorem test_flush : (∀ a ∈ (some (Src.named 1 false)), formOk (operand atData a) = true)
    ∧ ((withSeq fun q => { q with phase := 1 }).core 0).queue .store = []
    ∧ (withSeq fun q => { q with phase := 2 }).addendsDone 0 = true := by decide
theorem test_residual : ((withCore fun x => { x with seq := { x.seq with cyc := 4096 }, res := ⟨[(63, ⟨true, 0x101F80, 0x101F80, .f32, 1, 0, 0, 0x101F80⟩)], 0, 0⟩ }).core 0).resTag 63 = ⟨true, 0x101F80, 0x101F80, .f32, 1, 0, 0, 0x101F80⟩ := by decide

/-! ## Records and Freewheel -/

/-- k1 names 256 bytes of the region. -/
def atRecord : State := withSeq fun q => { q with named := q.named.set 1 0x10FF00 }
theorem test_record_words : (∃ r pa, atRecord.scalar (operand atRecord (.named 1 false)) 256 Need.read [.rd, .rw] = (r, .ok pa)
      ∧ (!(r.core 0).writersIn && isVirtual (operand atRecord (.named 1 false))) = true)
    ∧ (atRecord.core atRecord.cur.core).task = some aTask := ⟨okOf (fun _ _ => _) (by decide), by decide⟩

theorem test_hand : ∀ m, m = 0 ∨ m ∈ aTask.members → (atRecord.core m).writersIn = false
    ∧ Settled (atRecord.scalar (operand atRecord (.named 1 false)) 256 Need.read [.rd, .rw]).1 m .pkg := by
  intro m h
  have e : m = 0 := by simpa [aTask] using h
  subst e
  exact ⟨by decide, settledOf .pkg (by decide)⟩

/-- A record of four core tasks at 0x1000, and a table entry of one of its regions. -/
def aRecord (st : RecState) : Record where
  seq := 3
  state := st
  status := if st = .complete then 1 else 0
  isPure := false
  strict := false
  reloc := false
  gang := 0
  prio := 4
  spreq := 16
  resid := false
  ndim := 1
  order := [0]
  bounds := [4]
  arg := 0
  code := [(0x1000, 64), (0x2000, 64), (0x3000, 64), (0x4000, 64), (0x5000, 64)]
  deps := []
  cpl := 0
  fps := [⟨aRegion, [0x10000, 0, 0, 0, 0, 0], [0, 0, 16, 0, 0, 0, 0, 0, 0, 0, 1, 0, 1, 0, 0, 0, 0, 0, 0, 0, 1, 0, 0, 0, 0, 0, 0, 0, 3, 0, 0, 0]⟩]
  cursor := [0]
  nextTask := 0
  drained := false
  open_ := []
  ended := false
  digest := none
  depFailed := false

/-- Queue 0 of function 1 is attached to die 0, where the function owns quad 0, and has the record. -/
def queued (r : Record) : State := (aState.updQuad 0 fun q => { q with owner := some 1 }).updWq 1 0 fun w =>
  { w with att := some 0, next := 4, records := [r] }
theorem test_rwait : ((queued (aRecord .dispatching)).wq 1 0).status 3 = 0 ∧ ((queued (aRecord .complete)).wq 1 0).status 3 = 1 := by decide
theorem test_fwinv : (aState.core aState.cur.core).task = some aTask ∧ (∀ a ∈ (none : Option Src), formOk (operand aState a) = true) := by decide

/-- An entry of Freewheel. -/
def anEntry : FwEntry where
  set := 3
  way := 1
  wclean := false
  fn := 1
  root := 0
  key := 3
  rank := 0
  chunks := [0]
  words := []
  wrBases := []
  rdGranules := []
  wrGranules := []
  vaGranules := []
  ipaGranules := []
  matOps := 0
  vecOps := 0
  block := []
  id := 2

/-- A hit of the task on die 0. -/
def aHit (clean : Bool) : State := aState.updDie 0 fun d => { d with lookup := some ⟨aTask, clean, [6], anEntry⟩ }
theorem test_hit : (((aHit true).die 0).lookup.any (·.clean)) = true ∧ (((aHit false).die 0).lookup.any (·.clean)) = false := by decide
theorem test_dirty_hit : ∃ r ∈ ({ aHit false with reqs := [{ Req.blank (.walker 0) .write 0x100000 8 with id := 6, phase := .answered }] } : State).reqs,
    r.id = 6 ∧ r.phase = .answered := ⟨_, List.mem_singleton_self _, rfl, rfl⟩

/-- A pure task that writes 512 bytes and has missed stands in TEND. -/
def aPure : PureInfo := { PureInfo.blank with key := 5, words := [5], entered := true }
def pureTask : Task := { aTask with isPure := true, pureInfo := some aPure, regions := [⟨0x100000, 512, 1, 0, 1, 0, .wr, false, 0⟩] }
def entering : State :=
  let s := aState.updCore 0 fun x => { x with task := some pureTask, seq := { x.seq with stall := 12, phase := 3 } }
  (s.updDie 0 fun d => { d with tlb := [aPage] }).updFn 1 fun f => { f with arena := 0x200000, arsz := 4, fwways := 3 }
theorem test_entry : canFreewheelEntryMade 0 entering = true ∧ 1024 + rowsLen (wrRows pureTask.regions) ≤ 2 ^ 24
    ∧ (entering.fwView 0 1 (entering.rootOf 1 0) pureTask.regions).2.isSome = true
    ∧ (match entering.rowPieces 0 1 (entering.rootOf 1 0) ⟨0, 0⟩ (wrRows pureTask.regions) with
        | (u, some l) => l == [(0x100000, 512)] && (u.makeRoom 0 1 1 2048).fwVictim 0 1 5 == some 0
            && decide (1 ≤ ((u.makeRoom 0 1 1 2048).freeChunks 1).length)
        | _ => false) = true := by decide
theorem test_watch : ({ aState with watchMsgs := [⟨1, 2, 16, 0, true, false⟩] } : State).watchMsgs.find? (fun k => k.id == 1 && !k.applied)
      = some ⟨1, 2, 16, 0, true, false⟩
    ∧ (∀ m ∈ ({ aState with watchMsgs := [⟨1, 2, 16, 0, true, true⟩] } : State).watchMsgs, m.watch = 2 → m.applied = true) := by decide

theorem test_unfailed : (∀ r ∈ ((aHit false).wq 1 0).records, r.cpl = 0)
    ∧ (aRecord .waiting).depFailed = false
    ∧ ((queued { aRecord .waiting with depFailed := true }).wq 1 0).startable ((queued { aRecord .waiting with depFailed := true }).fn 1)
      = some { aRecord .waiting with depFailed := true } ∧ ((engined .vec (aCmd (some [0]))).core 0).mat.formed = false := by decide

/-! ## Tasks -/

/-- A doorbell waits on die 0. -/
def submitted : State := (queued (aRecord .complete)).updDie 0 fun d => { d with subs := [⟨1, 0, 0x10FF00, none, false, [], none⟩], tlb := [aPage] }
def noRecord : State := aState.updDie 0 fun d => { d with subs := [⟨1, 0, 0x10FF00, none, false, [], none⟩] }
theorem test_submission : (submitted.die 0).subs.length = 1
    ∧ (match ((noRecord.updDie 0 fun v => { v with subs := [] }).decideSubmission 0 ⟨1, 0, 0x10FF00, none, false, [], none⟩).2 with
        | .error e => e == 0x0D
        | .ok _ => false) = true := by decide
theorem test_start : ((queued (aRecord .waiting)).wq 1 0).startable ((queued (aRecord .waiting)).fn 1) = some (aRecord .waiting)
    ∧ (aRecord .waiting).bounds.all (· != 0) = true
    ∧ ((queued (aRecord .waiting)).wq 1 0).records.find? (fun k => k.seq == 3) = some (aRecord .waiting) := by decide
theorem test_start_fails : ((queued { aRecord .waiting with deps := [(9, 1)] }).wq 1 1).status 9 = 0xFE := by decide
theorem test_dispatch : (queued (aRecord .dispatching)).choose 0 [⟨1, 0, aRecord .dispatching⟩] [] = (some (⟨1, 0, aRecord .dispatching⟩, [1]), [])
    ∧ (queued (aRecord .dispatching)).candidates 0 = [⟨1, 0, aRecord .dispatching⟩]
    ∧ (queued (aRecord .dispatching)).redoTask 0 = none ∧ (queued (aRecord .dispatching)).resumable 0 = none
    ∧ (match (aRecord .dispatching).nextRegions with
        | .ok l => l == [aRegion]
        | _ => false) = true
    ∧ (queued (aRecord .dispatching)).race 1 0 3 [aRegion] = none := by decide
theorem test_sorted : (queued (aRecord .dispatching)).sorted 0 = [⟨1, 0, aRecord .dispatching⟩] := by decide
theorem test_tend : (aState.core 0).tendReady = true ∧ aState.gangWaits 0 = false
    ∧ (withSeq fun q => { q with phase := 1 }).addendsDone 0 = true ∧ (aState.core 0).copy.wbs = []
    ∧ aState.pureOpen 0 = false ∧ entering.pureOpen 0 = true
    ∧ canTaskComplete 0 (withCore fun x => { x with task := some { aTask with finished := true } }) = true := by decide
def yielding : State := (queued (aRecord .dispatching)).updCore 0 fun x => { x with seq := { x.seq with stall := 11, phase := 2 } }
/-- Every core of quad 0 has a task. -/
def full : State := ((yielding.updCore 1 fun x => { x with task := some aTask }).updCore 2 fun x => { x with task := some aTask }).updCore 3
  fun x => { x with task := some aTask }
theorem test_yield : (aState.core 0).queuesEmpty = true ∧ (aState.core 0).noSignals = true
    ∧ (withSeq fun q => { q with phase := 1 }).yieldReady 0 = true ∧ canYieldOffer 0 yielding = true
    ∧ (yielding.ownedCores 1 0).any yielding.coreFree = true ∧ (full.ownedCores 1 0).any full.coreFree = false
    ∧ full.settleable 0 = true ∧ aTask.effPrio ≤ (aRecord .dispatching).prio := by decide
theorem test_yield_next : full.nextFor 0 1 = some ⟨1, 0, aRecord .dispatching⟩ := by decide

/-! ## System words: the Derailleur's sequencer, with operands in k0 and k1 -/

/-- The Derailleur stands at a system word whose operands are k0 and k1. -/
def onDerailleur (s : State) (x y : Dbl) : State :=
  let s := s.updSeq 384 fun q => { q with named := (q.named.set 0 x).set 1 y }
  { s with cur := { s.cur with core := 384, addr := 0xFF0000000 } }
/-- It waits in a step of the word. -/
def inStep (n : Nat) (s : State) : State := s.updSeq 384 fun q => { q with phase := n, sweep := [2] }
def k01 : List Src := [.named 0 false, .named 1 false]

theorem test_ready : SysReady (onDerailleur aState 1 0) k01 ∧ SysReady (onDerailleur aState 1 0) [.named 0 false] :=
  ⟨⟨⟨by decide, by decide, by decide⟩, by decide⟩, ⟨by decide, by decide, by decide⟩, by decide⟩

/-- Function 1 owns quad 0, with four frames, and its queue 0 is attached to die 0; no task is resident. -/
def mapped : State := ((queued (aRecord .complete)).updFn 1 fun f => { f with evq := 4 }).updCore 0 fun x => { x with task := none }
theorem test_map : number (onDerailleur mapped 0x000021001 0) (.named 0 false) = 1 + 1 * 2 ^ 12 + 2 * 2 ^ 16
    ∧ (mapped.mapQuads 1 (maskQuads 0 2)).isSome = true ∧ maskQuads 0 2 = [1] ∧ (mapped.quad 1).owner = none
    ∧ (mapped.wq 1 1).att = none ∧ mapped.ownsOn 1 0 ≠ 0 ∧ (mapped.wq 1 0).att = some 0 ∧ (mapped.wq 1 0).openCount = 0
    ∧ (mapped.updWq 1 0 fun w => { w with att := none }).unmapStatus 1 0 (maskQuads 0 1) = 0
    ∧ mapped.quadsQuiet (maskQuads 0 1) = true := by decide
theorem test_limit : BitVec.ofNat 16 0xFFFF &&& aState.otherWays 1 = 0 ∧ aState.sharesOver 1 (BitVec.ofNat 32 0xFFFFFFFF) = false
    ∧ (∀ q ∈ maskQuads 15 63, (aState.quad q).owner = none)
    ∧ number (onDerailleur aState 0xF300 63) (.named 0 false) = 3 * 2 ^ 8 + 15 * 2 ^ 12 := by decide

/-- The task of core 0 has stopped. -/
def stoppedTask : Task := { aTask with stopped := some 1 }
def stopped : State := (queued (aRecord .dispatching)).updCore 0 fun x => { x with task := some stoppedTask }
theorem test_stops : (stopped.quad 0).owner = some 1 ∧ stopped.allStopped 1 = true ∧ (queued (aRecord .dispatching)).allStopped 1 = false
    ∧ inHbm 0x200000 areaLen = true ∧ stopped.holdsStopped 0 1 = true
    ∧ number (onDerailleur stopped 0x101 0xFF01) (.named 0 false) = 1 + 2 ^ 8
    ∧ number (onDerailleur stopped 0x101 0xFF01) (.named 1 false) = 1 + 0xFF * 2 ^ 8 := by decide
theorem test_snapshot : inHbm 0x200000 (stopped.unitBlock 0 1).length = true := by decide
theorem test_restore : ((onDerailleur mapped 1 0x200000).core 0).settling = false ∧ (mapped.coreFree 0) = true := by decide
def parked : State := (queued (aRecord .dispatching)).updWq 1 0 fun w =>
  { w with park := true, parks := [⟨0, [0x06, 1, 0, 0, 0x1000, 0x1000, 0, 0], none⟩] }
theorem test_park : number (onDerailleur parked 0x1001 0) (.named 0 false) = 1 + 0 * 2 ^ 8 + 1 * 2 ^ 12
    ∧ (parked.wq 1 0).parks.length = 1 ∧ parked.queueCores 1 0 = [0] := by decide

/-- The task of core 0 is parked at SVC, whose destination is k4; the task is the one open task of its record. -/
def atService : State := (queued { aRecord .draining with seq := 1, drained := true, open_ := [0] }).updCore 0 (fun x =>
    { x with task := some { aTask with parked := true }, freezes := [.park], seq := { x.seq with occWid := some 9 } }) |>.updWq 1 0 fun w =>
  { w with park := true, parks := [⟨0, [0x10, 1, 0, 0, 0x1000, 0x1000, 0, 0], some (.named 4)⟩, ⟨0, [0x22, 0, 0, 0, 0, 0, 0, 0], none⟩] }
theorem test_resume : (atService.wq 1 0).parks.head? = some ⟨0, [0x10, 1, 0, 0, 0x1000, 0x1000, 0, 0], some (.named 4)⟩
    ∧ atService.coresOf 1 0 1 0 = [0] ∧ (atService.seq 0).landing = [] ∧ (atService.core 0).copy.xfers = [] ∧ (atService.core 0).copy.lines = []
    ∧ (∀ r ∈ (atService.wq 1 0).records, r.cpl = 0) ∧ (atService.seq 0).occWid = some 9 ∧ (atService.seq 0).occ = 0
    ∧ (atService.cores.map (·.1)).Nodup ∧ (atService.fn 1).migrating = false := by decide
theorem test_park_status : 2 ^ 11 ≤ number (onDerailleur aState 0x800 0) (.named 0 false) ∧ number (onDerailleur aState 0x131 0) (.named 0 false) % 2 ^ 8 = 49
    ∧ (aState.fn 2).bound = false ∧ (aState.wq 1 0).park = false
    ∧ ((atService.updFn 1 fun f => { f with migrating := true }).fn 1).migrating = true
    ∧ number (onDerailleur parked 0x3001 0) (.named 0 false) = 1 + 0 * 2 ^ 8 + 3 * 2 ^ 12 := by decide

def anInval (st : InvStage) (host : Bool) : Inval := ⟨false, 0, 0, [(0x100000, 0x10000)], false, st, none, host⟩
def invalidating (st : InvStage) : State := aState.updFn 1 fun f => { f with inval := [anInval st false] }
theorem test_inval : number (onDerailleur aState 1 0x100010) (.named 1 false) = 0x100000 + 16
    ∧ (∃ v ∈ ((invalidating .done).fn 1).inval, v.host = false ∧ v.stage = .done)
    ∧ ((invalidating .waiting).fn 1).invAt .drain = none ∧ ((invalidating .waiting).fn 1).invAt .waiting = some (anInval .waiting false)
    ∧ ((invalidating .drain).fn 1).invAt .drain = some (anInval .drain false) ∧ (invalidating .drain).epochDrained 1 (anInval .drain false) = true
    ∧ ((invalidating .flush).fn 1).invAt .flush = some (anInval .flush false) ∧ (invalidating .flush).flushOver 1 = true := by decide

theorem test_flush_stage : ((aState.updFn 1 fun f => { f with inval := [{ anInval .flush false with stage2 := true }] }).fn 1).invAt .flush
      = some { anInval .flush false with stage2 := true }
    ∧ (aState.updFn 1 fun f => { f with inval := [{ anInval .flush false with stage2 := true }] }).flushOver 1 = true
    ∧ (∀ m ∈ aState.invs, m.req ≠ 5)
    ∧ ((aState.updFn 1 fun f => { f with inval := [{ anInval .flush false with stage2 := true, ack := some 5 }] }).fn 1).invAt .flush
      = some { anInval .flush false with stage2 := true, ack := some 5 } := by decide

/-- A good descriptor at 0x200000: no arena, one frame, a slice period of one. -/
def described : State := ({ State.reset with boot := { State.reset.boot with ready := true } } : State).writePhys 1 0x200000 (List.replicate 0x17 0 ++ [1] ++ leBytes 8 0x300000 ++ List.replicate 0xC 0 ++ [1]
  ++ List.replicate 0x53 0)
theorem test_bind (h : Config.drbgFails described.freeCtr = false) : described.bindStatus 1 0x200000 = 0 := by
  have a : ¬ (0x200000 % 128 ≠ 0 ∨ (!inHbm 0x200000 128) = true ∨ (!descOk (described.sysRead 0x200000 128)) = true) := by decide
  have b : ¬ ((described.fn 1).bound = true ∨ described.boot.ready = false) := by decide
  have c : described.clash 1 (Func.reset.described (described.sysRead 0x200000 128)) = false := by decide
  have d : described.sharesOver 1 (Func.reset.described (described.sysRead 0x200000 128)).shares = false := by decide
  simp only [State.bindStatus, if_neg a, if_neg b, c, d]
  rw [h]
  rfl
theorem test_unbind : aState.inUse 1 = false ∧ (aState.fn 1).tdisp = .unlocked := by decide
/-- A migration descriptor at 0x200000. -/
def migrating (n : Nat) : State := (aState.writePhys 1 0x200000 ([3] ++ List.replicate 7 0 ++ [9] ++ List.replicate 7 0 ++ List.replicate 48 0)).updFn 1
  fun f => { f with migStep := n }
theorem test_migrate : ((migrating 0).migDesc 0x200000).isSome = true ∧ (migrating 2).fabricDown = false
    ∧ (invalidating .done).invDone 1 = true ∧ stopped.allStopped 1 = true ∧ (migrating 2).flushOver 1 = true := by decide
/-- Two tables of stage 2 at 0x400000, whose leaf maps 1 GiB at 0. -/
def tables : State := (((aState.updFn 1 fun f => { f with mig := true, migStep := 1, s2root := 0x400000 }).writePhys 1 0x400000
  (leBytes 8 0x410001)).writePhys 1 0x410000 (leBytes 8 0x40000003))
theorem test_page_arrival : (match tables.walk2 1 0x600000 with
      | .ok l => l.out == 0x40600000
      | .error _ => false) = true := by decide
/-- An export descriptor at 0x200000: page 0x600000 of the function, 0x800000 of the HBM, a record in host memory. -/
def exporting : State := aState.writePhys 1 0x200000 (leBytes 8 0x600000 ++ leBytes 8 0x800000 ++ leBytes 8 0x8000000000000 ++ List.replicate 8 0)
theorem test_export : (exporting.expDesc 0x200000).isSome = true := by decide

/-- The page is in a tree of stage 2; the table of exports is full, or holds the page's version 9. -/
def rooted (l : Nat) : State := ((exporting.updFn 1 fun f => { f with s2root := 0x400000 }).writePhys 1 0x400000 (leBytes 8 l)).writePhys 1 0x410000
  (leBytes 8 0x40000003)
def exported (l : List ExpEntry) : State := { exporting with exports := l }
theorem test_pages : (rooted 0).expDesc 0x200000 = some (0x600000, 0x800000, 0x8000000000000) ∧ exporting.expDesc 0x200001 = none
    ∧ (exporting.fn 1).bound = true ∧ (exporting.fn 1).migStep = 0 ∧ (match (rooted 0).stage2Leaf 1 0x600000 with
      | .ok _ => false
      | .error _ => true) = true ∧ exporting.exports = [] ∧ Memory.wf (rooted 0).mem = true := by decide
theorem test_mapped : (rooted 0x410001).expDesc 0x200000 = some (0x600000, 0x800000, 0x8000000000000) ∧ ((rooted 0x410001).fn 1).migStep = 0
    ∧ (match (rooted 0x410001).stage2Leaf 1 0x600000 with
      | .ok _ => true
      | .error _ => false) = true := by decide
theorem test_full : 65536 ≤ (exported (List.replicate 65536 ⟨1, 0, 1⟩)).exports.length := (List.length_replicate ..).ge

/-- A record of the page with a version stands in host memory; its tag is the one of its bytes, or differs from it. -/
def recorded (ver : Nat) : State := { exported [⟨1, 0x600000, 9⟩] with
  mem := memWrites 0x8000000000000 (([1, 1] ++ List.replicate 6 0) ++ leBytes 8 0x600000 ++ leBytes 8 ver ++ List.replicate 24 0) exporting.mem }
def headOf (s : State) : List Byte := (List.range 48).map fun i => memRead s.mem (0x8000000000000 + i)
def textOf (s : State) : List Byte := (List.range (2 ^ 21)).map fun i => memRead s.mem (0x8000000000000 + 64 + i)
def tagOf (key : Nat) (x : Byte) (i : Nat) : Byte := Config.gcmTag key (headOf (recorded 9)) (textOf (recorded 9)) i ^^^ x
def sealed (key : Nat) (x : Byte) : State := { recorded 9 with
  mem := memWrites (0x8000000000000 + 48) ((List.range 16).map (tagOf key x)) (recorded 9).mem }
theorem test_import : ((recorded 9).exports.find? fun e => e.fn == 1 && e.ipa == 0x600000) = some ⟨1, 0x600000, 9⟩
    ∧ (leNat (((headOf (recorded 9)).drop 1).take 1) = 1 ∧ leNat (((headOf (recorded 9)).drop 8).take 8) = 0x600000
      ∧ leNat (((headOf (recorded 9)).drop 0).take 1) = 1) ∧ leNat (((headOf (recorded 9)).drop 16).take 8) = 9
    ∧ leNat (((headOf (recorded 8)).drop 16).take 8) = 8 ∧ leNat (((headOf (exported [⟨1, 0x600000, 9⟩])).drop 1).take 1) = 0 := by decide
theorem sealed_reads (key : Nat) (x : Byte) : Memory.wf (sealed key x).mem = true ∧ headOf (sealed key x) = headOf (recorded 9)
    ∧ textOf (sealed key x) = textOf (recorded 9) ∧ ∀ i, i < 16 → memRead (sealed key x).mem (0x8000000000000 + 48 + i) = tagOf key x i := by
  have w : Memory.wf (recorded 9).mem = true := memWrites_wf (by decide)
  have r (a : Nat) (h : a < 0x8000000000000 + 48 ∨ 0x8000000000000 + 64 ≤ a) :
      memRead (sealed key x).mem a = memRead (recorded 9).mem a := by
    rw [sealed, memRead_memWrites w, if_neg (by simp only [List.length_map, List.length_range]; omega)]
  refine ⟨memWrites_wf w, List.map_congr_left fun i m => r _ (.inl (by have := List.mem_range.mp m; omega)),
    List.map_congr_left fun i _ => r _ (.inr (by omega)), fun i k => ?_⟩
  rw [sealed, memRead_memWrites w, if_pos (by simp only [List.length_map, List.length_range]; omega)]
  simp [k]
theorem test_tag (key : Nat) : ∀ i, i < 16 → memRead (sealed key 0).mem (0x8000000000000 + 48 + i)
    = Config.gcmTag key (headOf (sealed key 0)) (textOf (sealed key 0)) i := by
  obtain ⟨-, h, t, b⟩ := sealed_reads key 0
  intro i k
  rw [h, t, b i k]
  exact BitVec.xor_zero
theorem test_tag_fails (key : Nat) : ¬ ∀ i, i < 16 → memRead (sealed key 1).mem (0x8000000000000 + 48 + i)
    = Config.gcmTag key (headOf (sealed key 1)) (textOf (sealed key 1)) i := by
  obtain ⟨-, h, t, b⟩ := sealed_reads key 1
  intro k
  have e := k 0 (by decide)
  rw [h, t, b 0 (by decide)] at e
  have y := congrArg (fun v : Byte => v.getLsbD 0) e
  simp [tagOf] at y

/-! ## What befalls a task -/

/-- Core 0's task waits at a monitor for task 0 of its record, which yielded. -/
def awaiting : State :=
  let s := aState.updCore 0 fun x =>
    { x with task := some { aTask with tseq := 2 }, seq := { x.seq with stall := 10, phase := 2 }, mon := some ⟨0x100000, 0, true, false, 0⟩ }
  s.updFn 1 fun f => { f with period := 1, away := [⟨1, none, { aTask with yielded := true }, Core.reset⟩] }
theorem test_donation : awaiting.toDonate 0 { aTask with tseq := 2 } = [{ aTask with yielded := true }] := by decide
theorem test_donation_late : ({ awaiting.updFn 1 (fun f => { f with donations := [⟨0, 1, 2, 0, 4, 0, false⟩] }) with wall := 1024 } : State).lateDonations
    { aTask with tseq := 2 } = [⟨0, 1, 2, 0, 4, 0, false⟩] := by decide
theorem test_watchdog : canHangWatchdogExpiry 0 ((withCore fun x => { x with task := some { aTask with wd := 2 ^ 40 } }).updFn 1 fun f =>
    { f with dog := 1 }) = true := by decide
/-- A stop of a given depth is asked for; the sequencer stands halted. -/
def stopping (n : Nat) : State := withCore fun x =>
  { x with task := some { aTask with stopping := some n, stopBy := some 0 }, seq := { x.seq with halted := true } }
theorem test_stop_due : (stopping 0).stopDue 0 = true ∧ (stopping 1).stopDue 0 = true ∧ (stopping 2).stopDue 0 = true
    ∧ ((stopping 0).core 0).hasSlots = false := by decide
theorem test_busy : ({ aState with reqs := [{ Req.blank (.land 0 5) .read 0x100000 8 with fn := 1 }] } : State).busyFns = [1] := by decide

/-! ## A step -/

/-- ADD k1, b0 => k1 stands at the program counter of core 0, which acts. -/
def stepping : State := { aState.writePhys 0 0x1000 [0x20, 0x02, 0x62, 0, 0, 0, 0, 0] with actor := (0, .seq) }
theorem test_at_word : AtWord stepping.tick 0 :=
  ⟨⟨by decide, by decide⟩, ⟨by decide, by decide, by decide, by decide⟩, by decide, ⟨by decide, by decide⟩⟩
theorem test_fetch : ∃ r w, stepping.tick.fetchWord 0 0x1000 = (r, .ok w) ∧ (w == 0x00620220) = true := okOf (fun _ _ => _) (by decide)
theorem test_fetch_exts : ∃ r w, stepping.tick.fetchExts 0 (seqExts 0x00620220) (0x1000 + 4) = (r, .ok w) ∧ (w == []) = true :=
  okOf (fun _ w => w == []) (by decide)

theorem test_step_schedule : (Action.event (.lateLandingFreeze 0)).ok = true := by decide
theorem test_at_body : AtBody (engined .load (aCmd (some [0]))) 0 .load (aCmd (some [0])) [0]
    ∧ ((engined .load (aCmd (some [0]))).core 0).curCmd .load = some (aCmd (some [0])) :=
  ⟨⟨⟨by decide, by decide, by decide⟩, ⟨by decide, by decide, by decide, by decide, by decide⟩, by decide⟩, by decide⟩

/-! ## Copy engine -/

/-- A command that moves between the region at 1 MiB and the first 4 KiB of the scratchpad. -/
def copyCmd : Cmd := { aCmd (some [0]) with
  desc := ⟨0x100000, 0, 0x800, []⟩, regions := [aRegion, ⟨0, 0x1000, 1, 0, 1, 0, .rw, false, 1⟩], xlat := [aPage] }
def copying (e : Engine) : State := engined e copyCmd
theorem test_copy_word : (copying .load).cmd = some copyCmd ∧ (copying .load).task = some aTask
    ∧ (((copying .load).core 0).sideXfers .load).length = 0 := by decide
theorem test_row : ∃ r m, (copying .load).memSide 0 aTask copyCmd .load copyCmd.g0 128 Need.read (rowFormatOk true .raw) none = (r, .ok m)
    ∧ (copyCmd.memOk 0 readKinds copyCmd.g0 128 && copyCmd.spadOk 0 aTask writeKinds copyCmd.g1 128) = true := okOf (fun _ _ => _) (by decide)
theorem test_gather : ∃ r ps, (copying .load).elemSides 0 aTask copyCmd .load copyCmd.g0 true 4 0 [0, 1] = (r, .ok ps)
    ∧ (copyCmd.g2 % 4 == 0 && copyCmd.spadOk 0 aTask readKinds copyCmd.g2 8) = true := okOf (fun _ _ => _) (by decide)
theorem test_acc : ∃ r m, (copying .store).memSide 0 aTask copyCmd .store copyCmd.g0 128 Need.atomicRmw (accFormatOk .f32) (some 0x16) = (r, .ok m)
    ∧ (m.pieces.all (fun p => isLocalHbm p.2.1) && copyCmd.memOk 0 [.acc, .rw] copyCmd.g0 128) = true := okOf (fun _ _ => _) (by decide)
theorem test_elements : formOk copyCmd.g0 = true ∧ isVirtual copyCmd.desc.mbase = true ∧ copyCmd.g0.toNat % 4 = 0 ∧ copyCmd.g1 % 4 = 0
    ∧ ((copying .load).indices 0 copyCmd.g2 2).all (fun i => copyCmd.memOk 0 readKinds (elemAddr copyCmd.g0 4 i) 4) = true
    ∧ copyCmd.spadOk 0 aTask writeKinds copyCmd.g1 8 = true ∧ copyCmd.spadOk 0 aTask readKinds copyCmd.g2 8 = true
    ∧ ((copying .load).core 0).xferHeld .load (memSpan copyCmd.g0 4) (span 2 copyCmd.g1 4) = false := by decide

/-- A store whose write is answered. -/
def aXfer : Xfer := ⟨4, .store, 0, 4, .stt 0 .raw .rne false (.e0 128), 7, 0, 0, 0x100000, 0, 0, 0, [8], [], [], [], false, false, [], []⟩
def transferred : State := { (copying .store).updCore 0 fun x => { x with copy := { x.copy with xfers := [aXfer] } } with
  reqs := [{ Req.blank (.copyWrite 0 4) .write 0x100000 128 with id := 8, phase := .answered }] }
theorem test_transfer_over : transferred.xferOf 0 4 = some aXfer ∧ aXfer.unsent = []
    ∧ (transferred.req 8).any (fun r => r.phase == .answered && !r.isAddend && !r.poison) = true := by decide
theorem test_signal : (withCore fun x => x.updFlow .load fun f => { f with psn := true }).core 0 |>.deliverable .load true := by decide

/-! ## Vector engine -/

/-- A vector command is current on core 0. -/
def vectoring : State := engined .vec (aCmd (some [0]))
theorem test_vector (md : BitVec 2) : VecReady vectoring (aCmd (some [0])) [7, 0, 3, 1] [md] where
  cmd := by decide
  room := by decide
  registers := by decide
  free := by
    have h : (vectoring.core vectoring.cur.core).vec.own.infl = [] := by decide
    simp [VCtx.interlocked, h]
theorem test_vector_idle : (vectoring.core 0).vec.own.infl = [] ∧ (vectoring.core 0).vec.own.tabPending = false
    ∧ imageFaults (1 :: List.replicate 63 0) = false := by decide
def aVInfl : VInfl := ⟨5, 7, 0, [⟨2, List.replicate 64 1, keepAll⟩], none, 0, false, 0, 0, none, 0, 0, 0⟩
theorem test_vector_over : (((vectoring.updCore 0 fun x => { x with vec := { x.vec with own := { x.vec.own with infl := [aVInfl] } } }).core 0).vec.own.infl.find?
    (fun g => g.wid == 5)) = some aVInfl := by decide
theorem test_vector_table : imageFaults ((([1] ++ List.replicate 63 0 : List Dbl).take 8).flatMap fun v => leBytes 8 v.toNat) = false := by decide
/-- A relocatable command waits behind one that runs; core 1 is idle. -/
def relocating : State :=
  let s := aState.updCore 0 fun x =>
    { x with queues := x.queues.set (queueIdx .vec) [aCmd (some [0]), { aCmd (some [0]) with uid := 8, slot := 1, started := false, reloc := true }] }
  s.updCore 1 fun x => { x with task := some aTask }
theorem test_relocation : (relocating.relocTarget 0).any (fun p => p.1.uid == 8 && p.2 == 1) = true := by decide

/-! ## Matrix engine -/

/-- A matrix command on core 0, which holds its array and every claim. -/
def matCmd : Cmd := { aCmd (some [0]) with
  regions := [⟨0xFFFFFFFFFFFFFFFF, 0, 0, 0, 0, 0, .rw, false, 2⟩, ⟨0xFF, 0, 0, 0, 0, 0, .rw, false, 3⟩, ⟨0, 0x10000, 1, 0, 1, 0, .rw, false, 1⟩] }
def matrix (f : Mat → Mat) : State :=
  ((engined .mat matCmd).updQuad 0 fun q => { q with leaseHolder := some 0 }).updCore 0 fun x =>
    { x with mat := f { x.mat with claimA := BitVec.allOnes 32, claimB := BitVec.allOnes 32, claimP := 0xFF } }
theorem test_matrix : (matrix id).cmd = some matCmd ∧ (matrix id).task = some aTask ∧ (matrix id).claimBlocked 0 .a 1 = false
    ∧ ((matrix id).core 0).mat.holds 0 31 = true ∧ matCmd.slotOk readKinds 1 31 = true := by decide
theorem test_planes : (matrix id).planeCheck 0 matCmd 0xFF writeKinds false = none ∧ matCmd.spadFail 0 aTask writeKinds 0x40 64 = none
    ∧ ((matrix id).core 0).mat.holdsBack { MUse.none with wp := 0xFF } = false := by decide
def aMInfl : MInfl := ⟨5, 7, 0, .mzero 1, 0, false, AlgTab.real, Tag.reset, Tag.reset, 0, 0, 0, 0, 0, 0, 0, 0, 0, 0, false, 0, 0, [], 0, 0, 0, 0, 0, 0, 0, 1, []⟩
theorem test_matrix_over : (matrix fun m => { m with infl := [aMInfl] }).matOf 0 5 = some aMInfl ∧ isMul aMInfl.instr = false := by decide
theorem test_reclaim : ((matrix fun m => { m with reclaimA := 1 }).core 0).mat.reclaims ≠ [] := by decide

/-- Slots 0 of both sides carry BF16. -/
def tagged : State := (matrix id).updQuad 0 fun q => { q with tags := [(0, ⟨3, false, false, false, 0⟩), (32, ⟨3, false, false, false, 0⟩)] }
def aMul : MulWord := ⟨0, 0, false, false, 31, 0, 0⟩
def passes {ε α : Type} : Except ε α → Bool
  | .ok _ => true
  | .error _ => false
theorem test_multiply : passes (tagged.mulTry 0 (.mma aMul) aMul 8 false) = true ∧ passes (tagged.mulTry 0 (.mmas aMul true) aMul 4 false) = true
    ∧ passes (tagged.mulTry 0 (.mmat aMul) aMul 8 true) = true ∧ (tagged.core 0).mat.holdsBack (tagged.mulUse 0 aMul 8 false) = false := by decide
theorem test_plane_rows : passes ((matrix id).planeRows matCmd aTask ⟨7, .f32, 0, 0, 0, 0⟩ readKinds true writeKinds) = true
    ∧ passes ((matrix id).planeRows matCmd aTask ⟨7, .f32, 0, 0, 0, 0⟩ writeKinds false readKinds) = true := by decide
/-- A gang of one core stands at a word. -/
def ganged (w : Word) (formed : Bool) : State :=
  let s := (engined .mat { matCmd with body := some [w] }).updQuad 0 fun q => { q with leaseHolder := some 0 }
  let s := s.updCore 0 fun x => { x with task := some { aTask with gang := 1 }, mat := { x.mat with formed := formed } }
  { s with cur := { s.cur with word := w, len := 1 } }
theorem test_gang : (ganged 0x03400000 false).members = [0] ∧ (∀ p ∈ [((0x03400000 : Word), 0, false), (0x03800000, 2, true), (0x03C00000, 1, true)],
    let s := ganged p.1 p.2.2
    let u := s.updCore s.cur.core fun x => { x with mat := { x.mat with gangWait := some s.cur.words } }
    gangKind s.cur.word = p.2.1 ∧ (u.core 0).mat.gangWait.isSome = true ∧ (u.memberWord 0).any (fun r => r.2.cur.words == s.cur.words) = true) := by decide

/-- The image of the reals stands in slot 0 of side A. -/
def imaged : State := { matrix id with mem := memWrites (slotAt 0 0 0 0) [1] (matrix id).mem }
/-- Another core has claimed plane 0. -/
def blocked : State := (matrix id).updCore 1 fun x => { x with task := some aTask, mat := { x.mat with claimP := 1 } }
/-- MFILL.const.f16 of one element a row. -/
def aFill : FillWord := ⟨false, .const, .f16, 0, 0, false, 1, 0, 0⟩
theorem test_table : imageInvalid (imaged.readSide 0 0 0 64) = false ∧ ((matrix id).core 0).mat.infl = []
    ∧ blocked.claimBlocked 0 .acc 1 = true ∧ (matrix id).planeCheck 0 matCmd 1 writeKinds false = none
    ∧ ((matrix id).core 0).mat.holdsBack { MUse.none with rp := 1 } = false
    ∧ plusGen (aFill.addr.toNat * 32) (matCmd.gen64 matCmd.nest.s0) = 0 ∧ (fillRows aFill - 1) * matCmd.astr + fillRowLen aFill ≤ 2 ^ 21
    ∧ ((matrix id).core 0).mat.holdsBack { MUse.none with wa := slotMask (0, 2) } = false ∧ aFill.csel.toNat < fillComps aFill
    ∧ (slotsOf (0, fillRowLen aFill)).all (fun j => ((matrix id).core 0).mat.holds 0 j && matCmd.slotOk writeKinds 0 j) = true := by decide

theorem allSlots {l m : List Nat} {p : Nat → Prop} (h : ∀ j ∈ l, p j) (k : ∀ j ∈ m, p j) (j : Nat) (i : j ∈ l ∨ j ∈ m) : p j :=
  i.elim (h j) (k j)
theorem test_mul_ok (x : Nat × Bool) (h : x = (8, false) ∨ x = (4, false) ∨ x = (8, true)) :
    MulOk tagged matCmd aMul x.1 x.2 (tagged.mulGeom 0 0 matCmd matCmd aMul x.1 x.2) := by
  rcases h with rfl | rfl | rfl <;>
  exact {
    group := by decide
    tags := by decide
    pair := by decide
    comps := by decide
    klen := by decide
    turned := by decide
    ranges := by decide
    aligned := by decide
    slotsA := allSlots (p := fun j => (tagged.core 0).mat.claimA.getLsbD j = true ∧ matCmd.slotOk readKinds 0 j = true) (by decide) (by decide)
    slotsB := by decide
    planes := fun p _ h => by
      obtain rfl : p = 0 := Nat.lt_one_iff.mp h
      decide }
theorem test_mul_free : ∀ x ∈ [(8, false), (4, false), (8, true)],
    let g := tagged.mulGeom 0 0 matCmd matCmd aMul x.1 x.2
    let u : MUse := ⟨slotMask g.a ||| slotMask g.m, slotMask g.b, 0, 0, 0, groupMask aMul.pg.toNat g.tab.n, true⟩
    (tagged.core 0).mat.holdsBack u = false ∧ (tagged.core 0).mat.formed = false := by decide

/-- A gang of one core stands at MMA, with its slots tagged. -/
def gangAt : State :=
  let k : Cmd := { matCmd with body := some [0x0200001F, 0x0FC00000, 0x0FC00000] }
  let s := (ganged 0x0200001F true).updQuad 0 fun q => { q with tags := [(0, ⟨3, false, false, false, 0⟩), (32, ⟨3, false, false, false, 0⟩)] }
  let s := s.updCore 0 fun x => { x with queues := x.queues.set (queueIdx .mat) [k] }
  s.updCore 0 fun x => { x with mat := { x.mat with claimA := BitVec.allOnes 32, claimB := BitVec.allOnes 32, claimP := 0xFF } }
def gangAt' : State := { gangAt with cur := { gangAt.cur with ext1 := 0x0FC00000, ext2 := 0x0FC00000, len := 3 } }
theorem test_gang_word : gangAt'.members = [0] ∧ gangKind gangAt'.cur.word = 1 ∧
    (let u := gangAt'.updCore 0 fun x => { x with mat := { x.mat with gangWait := some gangAt'.cur.words } }
     (match u.memberWord 0 with
      | some (j, r) => j == .mma aMul && r.cur.words == gangAt'.cur.words && !(r.core 0).mat.holdsBack (r.mulUse 0 aMul 8 false)
        && passes (r.mulTry 0 (.mma aMul) aMul 8 false)
      | none => false) = true) := by decide
/-- MCLAIM of slots 0 and 1 waits; claims of a restored task have still to be taken back. -/
def claiming : State := (matrix fun m => { m with waiting := some (.a, 3) }).updCore 0 fun x =>
  { x with queues := x.queues.set (queueIdx .mat) [{ matCmd with body := some [0x01000003, 0x0FC00000] }] }
theorem test_claiming : (claiming.memberWord 0).any (fun r => r.1 == .mclaim .a 3) = true ∧ claiming.claimBlocked 0 .a 3 = false
    ∧ (claiming.core 0).mat.reclaims = [] ∧ ((matrix fun m => { m with reclaimA := 1 }).core 0).freezes = []
    ∧ ((matrix fun m => { m with reclaimA := 1 }).core 0).mat.reclaims.all (fun p => !(matrix fun m => { m with reclaimA := 1 }).claimBlocked 0 p.1 p.2)
      = true
    ∧ (matrix fun m => { m with infl := [{ aMInfl with gangWord := true, done := true }] }).matOf 0 5 = some { aMInfl with gangWord := true, done := true } := by
  decide

/-! ## Homes, replicas and addends -/

/-- A request in a phase, and what its home slice has of it. -/
def aRead (p : ReqPhase) : Req := { Req.blank (.land 0 5) .read 0x100000 8 with id := 4, phase := p, fn := 1 }
def homed (r : Req) (f : Slice → Slice) : State := { aState.updSlice (homeIdx r.pa) f with reqs := [r] }
theorem test_arrive : canHubRequestArrive 4 (homed (aRead .travel) id) = true ∧ (homed (aRead .travel) id).severed (aRead .travel) = false
    ∧ (aRead .travel).direct = false ∧ (aRead .travel).sliceIdx = homeIdx 0x100000 := by decide
theorem test_lookup : canHubLookup (homeIdx 0x100000) (homed (aRead .pipe) fun x => { x with pipes := [4] }) = true
    ∧ ((homed (aRead .pipe) fun x => { x with pipes := [4] }).slice (homeIdx 0x100000)).nextLookup = some 4
    ∧ ((homed (aRead .pipe) fun x => { x with pipes := [4], ways := [⟨0, 0, 0x2000, false, 0, false⟩] }).slice (homeIdx 0x100000)).lineIn 0x2000 ≠ none := by
  decide
def aWrite : Req := { Req.blank (.store 0 3) .write 0x100000 8 with id := 4, phase := .acks, fn := 1 }
theorem test_acks : canReplicaAckComplete 4 (homed aWrite id) = true := by decide
def anAddend (p : ReqPhase) (prio told : Bool) : Req :=
  { Req.blank (.addend 0 none) (.addend .f32 1 prio) 0x100000 128 with id := 4, phase := p, fn := 1, va := 0x100000, told := told }
theorem test_addend : canAddendVerdict 4 (homed (anAddend .travel false false) id) = true
    ∧ canVerdictReceived 4 (homed (anAddend (.verdict false) false false) id) = true
    ∧ canAddendApply 4 (homed (anAddend .accepted false false) fun x => { x with accq := [4], ops := [4] }) = true
    ∧ canApplyNotice 4 (homed (anAddend .answered false true) id) = true
    ∧ 0 < (aState.fn 1).acq.toNat ∧ (homed (anAddend .travel false false) id).severed (anAddend .travel false false) = false := by decide
theorem test_fill : ((homed (aRead .fill) fun x => { x with fills := [⟨0x2000, 1, 0, false, [4]⟩] }).slice (homeIdx 0x100000)).fills.find?
      (fun f => f.line == 0x2000) = some ⟨0x2000, 1, 0, false, [4]⟩
    ∧ canHbmUncorrectableRead 0x2000 (homed (aRead .fill) fun x => { x with fills := [⟨0x2000, 1, 0, false, [4]⟩] }) = true := by decide
theorem test_row_close : canHbmRowClose 0 6 (aState.updDie 0 fun d => { d with openRows := [(6, 0)] }) = true := by decide
theorem test_replica : (({ aState with invs := [⟨0, 1, 0x2000, 4⟩] } : State).invs.find? fun m => m.dst == 1 && m.line == 0x2000)
    = some ⟨0, 1, 0x2000, 4⟩ := by decide
theorem test_window : (⟨16, 64, 0, 0, false, false, 0⟩ : RepEntry) ∈ ((aState.updDie 0 fun d =>
      { d with rep := [⟨16, 64, 0, 0, false, false, 0⟩] }).die 0).rep ∧ aState.nrepGranule 16 = false := by decide

theorem test_stage_entry : (homed (anAddend (.verdict false) true false) id).mayStage 0 (anAddend (.verdict false) true false) = true
    ∧ (aRead .pipe).replicaOf = none := by decide

/-! ## Bring-up and errors -/

/-- Bring-up stands at a stage. -/
def atStage (n : BitVec 4) : State := { State.reset with boot := { State.reset.boot with stage := n } }
theorem test_stage : canBringupStageDone (.ok []) (atStage 0) = true ∧ canBringupStageDone (.ok []) (atStage 1) = true
    ∧ canBringupStageDone (.ok []) (atStage 3) = true ∧ canBringupStageDone (.ok []) (atStage 4) = false
    ∧ (atStage 0).boot.starting = true ∧ (atStage 3).boot.mainPower = true := by decide
theorem test_stage_fails : (List.range 256).any (fun n => canBringupStageDone (.failed (BitVec.ofNat 8 n) 0) (atStage 0)) = true := by decide
theorem test_reread : ({ aState with rereads := [5] } : State).rereads.contains 5 = true ∧ aState.rowFns 5 = [] := by decide
theorem test_link : aState.linkUp (.boundary 0) = true ∧ (aState.link (.boundary 0)).retrying = 0 := by decide
theorem test_parity : canRegisterParityError 0 (.named 1) true (stepping.updSeq 0 fun q => { q with released := 1 }) = true
    ∧ canRegisterParityError 0 (.belt 0) false (stepping.updSeq 0 fun q => { q with landing := [{ aLanding true with due := 9 }] }) = true
    ∧ (stepping.core 0).mat.formed = false
    ∧ ((withCore fun x => { x with freezes := [.parity] }).core 0).freezes.contains .parity = true := by decide

/-! ## The host -/

/-- A message has arrived; queue 0 of function 1 is attached and parked. -/
def hosted (m : HostMsg) : State := { parked with inbox := [m] }
theorem test_host : (hosted (.doorbell 1 0 0x100000)).barOpen 1 = true ∧ ((hosted (.doorbell 1 0 0x100000)).wq 1 0).att = some 0
    ∧ (hosted (.actRetry 1 0)).resumeStatus 1 0 = 0 ∧ (hosted (.create 1)).pf0.busy = false ∧ (hosted (.create 1)).pf0.pxBusy = false
    ∧ ((hosted (.invvaWrite 1 0 0x10010)).wq 1 0).invBusy = false ∧ sliceFn 1 = true := by decide
theorem test_read : (hosted (.registerRead 1 0x10020 8 7)).accessWaits 1 0x10020 true 8 = false := by decide

/-- A session of function 1's mailbox is finished, and its interface can be locked. -/
def sessioned (t : Tdisp) (m : HostMsg) : State := (hosted m).updFn 1 fun f =>
  { f with sessions := [⟨1, true, 0⟩], tdisp := t, prot := true, ideSecure := true, cfgMse := true, nonce := [7] }
theorem test_session : ((sessioned .unlocked (.lockInterfaceRequest 1 1)).fn 1).secured 1 = true
    ∧ (sessioned .unlocked (.lockInterfaceRequest 1 1)).lockOk 1 = true
    ∧ ((sessioned .locked (.startInterfaceRequest 1 1 [7])).fn 1).nonce = [7]
    ∧ ((sessioned .locked (.stopInterfaceRequest 1 1)).fn 1).session 1 ≠ none := by decide

/-! ## The machine as a whole -/

theorem test_whole : Memory.wf State.reset.mem = true ∧ Memory.wf stepping.mem = true ∧ Instr.mgang.wf = true ∧ Instr.mgang.inStream .mat = true
    ∧ (aState.seq 384).landing = [] ∧ (aState.seq 384).tvec = 0 := by decide

end Sys2Proof.Tests
end

section
/-! SUPPORT. Power, resets and bring-up (R9 to R15, R381): what clearing memory, a restart, a loss of power, a stage of
bring-up and a period record leave; and what stands right after reset. -/

namespace Sys2Proof.Machine

open Sys2Proof

/-! ## Right after reset -/

theorem State.reset_core (c : Nat) : State.reset.core c = if c = 384 then Core.derailleur else Core.reset := rfl

/-- The Derailleur's core differs from another one at reset in its sequencer alone (entry 3). -/
theorem State.reset_core_but_seq (c : Nat) : { State.reset.core c with seq := Core.reset.seq } = Core.reset := by
  rw [State.reset_core]
  split <;> rfl

/-- Settles O46: every agent's table is empty at reset, so each agent is at its own reset value. -/
theorem resetState : Obligations.ResetState := by
  have core (c : Nat) : (State.reset.core c).task = none ∧ (State.reset.core c).freezes = []
      ∧ (State.reset.core c).copy.lines = [] ∧ (State.reset.core c).tlb = [] :=
    have e := State.reset_core_but_seq c
    ⟨congrArg Core.task e, congrArg Core.freezes e, congrArg (·.copy.lines) e, congrArg Core.tlb e⟩
  exact ⟨rfl, rfl, rfl, rfl, rfl, fun _ => ⟨rfl, rfl, rfl⟩, fun _ => ⟨rfl, rfl⟩, core, fun _ => ⟨rfl, rfl, rfl, rfl⟩,
    rfl, fun _ => rfl⟩

/-! ## Memory is cleared (R9, R10) -/

/-- Of a table only the entries whose key is kept are found. -/
theorem tfind_filter_key {α : Type} (keep : Nat → Bool) (k : Nat) (t : Tbl α) :
    tfind k (t.filter fun p => keep p.1) = if keep k then tfind k t else none := by
  induction t with
  | nil => simp [tfind]
  | cons p r ih =>
    obtain ⟨j, v⟩ := p
    by_cases hj : j = k
    · subst hj
      by_cases hk : keep j <;> simp_all [tfind]
    · by_cases hk : keep j <;> simp [hk, hj, tfind, ih]

/-- HBM and SRAM read as 0 once they are cleared. -/
theorem State.memRead_clearMemory (s : State) {a : Nat} (h : ownByte a = true) : memRead s.clearMemory.mem a = 0 := by
  have e : tfind a s.clearMemory.mem = none := by
    simp only [State.clearMemory, tfind_filter_key (fun a => !ownByte a), h, Bool.not_true, Bool.false_eq_true, if_false]
  rw [memRead, tget, e]
  rfl

/-! ## Chains (R381) -/

theorem State.chainAppend_fn (s : State) (n kind : Nat) :
    (s.chainAppend n kind).fn n = (s.fn n).chain (s.chainRecord n kind) := State.fn_updFn ..

theorem State.chainAppend_fn_ne (s : State) {n f : Nat} (kind : Nat) (h : f ≠ n) : (s.chainAppend n kind).fn f = s.fn f :=
  State.fn_updFn_ne s _ h

theorem State.closeChains_mem (fs : List Nat) : ∀ s : State, (s.closeChains fs).mem = s.mem := by
  induction fs with
  | nil => exact fun _ => rfl
  | cons n fs ih => exact fun s => ih _

theorem State.periodRecords_kept (fs : List Nat) :
    ∀ s : State, (s.periodRecords fs).mem = s.mem ∧ (s.periodRecords fs).cores = s.cores := by
  induction fs with
  | nil => exact fun _ => ⟨rfl, rfl⟩
  | cons n fs ih => exact fun s => ih _

/-- A function without a record is as it was. -/
theorem State.periodRecords_fn_of_notMem {f : Nat} (fs : List Nat) (h : f ∉ fs) :
    ∀ s : State, (s.periodRecords fs).fn f = s.fn f := by
  induction fs with
  | nil => exact fun _ => rfl
  | cons n fs ih =>
    intro s
    obtain ⟨hn, hfs⟩ := not_or.mp (mt List.mem_cons.mpr h)
    rw [State.periodRecords, ih hfs, State.chainAppend_fn_ne _ _ hn, State.fn_updFn_ne _ _ hn]

/-- A function with one record: its index counts, and its meters stay. -/
theorem State.periodRecords_fn_of_mem {f : Nat} (fs : List Nat) (hd : fs.Nodup) (h : f ∈ fs) :
    ∀ s : State, ((s.periodRecords fs).fn f).chainIndex = (s.fn f).chainIndex + 1
      ∧ ((s.periodRecords fs).fn f).meters = (s.fn f).meters := by
  induction fs with
  | nil => simp at h
  | cons n fs ih =>
    intro s
    obtain ⟨hn, hfs⟩ := List.nodup_cons.mp hd
    rw [State.periodRecords]
    by_cases e : f = n
    · subst e
      rw [State.periodRecords_fn_of_notMem fs hn, State.chainAppend_fn, State.fn_updFn]
      exact ⟨rfl, rfl⟩
    · have k := ih hfs (List.mem_of_ne_of_mem e h)
        ((s.updFn n fun x => { x with chainIndex := x.chainIndex + 1 }).chainAppend n 1)
      rwa [State.chainAppend_fn_ne _ _ e, State.fn_updFn_ne _ _ e] at k

/-! ## Resets and losses of power (R10, R15) -/

/-- A restart leaves the volatile state of a reset, and the bytes of memory. -/
theorem State.restart_asReset (s : State) : s.restart.boot = State.reset.boot ∧ s.restart.pf0 = State.reset.pf0
    ∧ s.restart.cores = State.reset.cores ∧ s.restart.quads = State.reset.quads ∧ s.restart.slices = State.reset.slices
    ∧ s.restart.reqs = State.reset.reqs ∧ s.restart.mem = s.mem :=
  ⟨rfl, rfl, rfl, rfl, rfl, rfl, State.closeChains_mem _ s⟩

/-- Without main power bring-up and the cores are as at reset, and HBM and SRAM have lost their bytes. -/
theorem State.powerOff_lost (s : State) (fns : Tbl Func) :
    (s.powerOff fns).boot = { State.reset.boot with mainPower := false } ∧ (s.powerOff fns).cores = State.reset.cores
    ∧ ∀ a, ownByte a = true → memRead (s.powerOff fns).mem a = 0 :=
  ⟨rfl, rfl, fun _ h => s.memRead_clearMemory h⟩

/-- A function of a table that main power's loss has left. -/
theorem State.powerOff_fn (s : State) (g : Func → Func) (h : g Func.reset = Func.reset) (f : Nat) :
    (s.powerOff (s.fns.map fun (p : Nat × Func) => (p.1, g p.2))).fn f = g (s.fn f) := tget_map f g Func.reset h s.fns

/-- The two resets restart the package: power that comes back, and a reset under power. -/
theorem exec_reset {s : State} {i : Instr}
    (h : i = .powerUp ∧ s.boot.mainPower = false ∨ i = .fundamentalOrHotReset ∧ s.boot.mainPower = true) :
    exec i s = .next s.restart := by
  obtain ⟨rfl, hp⟩ | ⟨rfl, hp⟩ := h
  · simp [exec, execPowerUp, hp]
  · simp [exec, execFundamentalOrHotReset, hp]

/-- A function after main power is lost: what the always-on domain holds, and the binding, whose records go on. -/
def Func.withoutMainPower (f : Func) : Func :=
  { f.alwaysOn with
    bound := f.bound
    pending := f.pending
    quiesced := f.quiesced
    lastQuiesce := f.lastQuiesce
    chainOpen := f.chainOpen
    chainIndex := f.chainIndex
    nextSession := f.nextSession }

theorem exec_mainPowerLoss {s : State} (h : s.boot.mainPower = true) :
    exec .mainPowerLoss s = .next (s.powerOff (s.fns.map fun (p : Nat × Func) => (p.1, p.2.withoutMainPower))) :=
  congrArg _ (if_pos h)

/-! ## Stages of bring-up (R9, R11, R12) -/

theorem exec_bringupStageDone_ok {s : State} {rs : List Nat} (h : canBringupStageDone (.ok rs) s = true) :
    exec (.bringupStageDone (.ok rs)) s = .next (s.stageOver rs) := congrArg _ (if_pos h)

theorem exec_bringupStageDone_failed {s : State} {cause : Byte} {die : BitVec 4}
    (h : canBringupStageDone (.failed cause die) s = true) :
    exec (.bringupStageDone (.failed cause die)) s = .next { s with boot := s.boot.stop cause die } := congrArg _ (if_pos h)

theorem exec_stageBoundExceeded {s : State} (h : s.boot.starting = true) :
    exec .stageBoundExceeded s = .next { s with boot := s.boot.stop 7 0 } := congrArg _ (if_pos h)

theorem State.stageOver_calibrated {s : State} (rs : List Nat) (h : s.boot.stage = 1) :
    (s.stageOver rs).log = s.log ++ rs.map LogEntry.laneRemap := by
  simp [State.stageOver, h]

theorem State.stageOver_ready {s : State} (rs : List Nat) (h : s.boot.stage = 3) :
    (s.stageOver rs).boot.ready = true ∧ (s.stageOver rs).wall = 0 := by
  simp [State.stageOver, h]

theorem State.stageOver_memory {s : State} (rs : List Nat) (h : s.boot.stage = 2) :
    (s.stageOver rs).mem = s.clearMemory.mem := by
  simp [State.stageOver, h, State.initMemory]

theorem State.stageOver_mem {s : State} (rs : List Nat) (h : s.boot.stage ≠ 2) : (s.stageOver rs).mem = s.mem := by
  rw [State.stageOver]
  split
  case h_2 e => exact absurd (BitVec.eq_of_toNat_eq e) h
  all_goals rfl

theorem State.stageOver_stage (s : State) (rs : List Nat) : (s.stageOver rs).boot.stage = s.boot.stage + 1 := by
  rw [State.stageOver]
  split
  case h_3 e =>
    have e : s.boot.stage = 3 := BitVec.eq_of_toNat_eq e
    rw [e]
    rfl
  all_goals rfl

end Sys2Proof.Machine
end

section
/-! SUPPORT. Faults of the hardware (R16 to R18, R122, R264): a line read again, a link that sends a flit again, a register
that fails its parity check, an array that fails. -/

namespace Sys2Proof.Machine

open Sys2Proof

/-! ## Memory (R16) -/

@[simp] theorem State.poisonLine_log (s : State) (line : Nat) : (s.poisonLine line).log = s.log := by
  rw [State.poisonLine]; split <;> rfl
@[simp] theorem State.poisonLine_rereads (s : State) (line : Nat) : (s.poisonLine line).rereads = s.rereads := by
  rw [State.poisonLine]; split <;> rfl
@[simp] theorem State.poisonLine_mem (s : State) (line : Nat) : (s.poisonLine line).mem = s.mem := by
  rw [State.poisonLine]; split <;> rfl
@[simp] theorem State.poisonLine_cores (s : State) (line : Nat) : (s.poisonLine line).cores = s.cores := by
  rw [State.poisonLine]; split <;> rfl
@[simp] theorem State.poisonLine_fns (s : State) (line : Nat) : (s.poisonLine line).fns = s.fns := by
  rw [State.poisonLine]; split <;> rfl

theorem State.mem_poisonLine (s : State) (line : Nat) : line ∈ (s.poisonLine line).poison := by
  rw [State.poisonLine]
  split
  · rename_i h
    simpa using h
  · simp

theorem exec_hbmUncorrectableRead {s : State} {line : Nat} (h : canHbmUncorrectableRead line s = true) :
    exec (.hbmUncorrectableRead line) s = .next { s with rereads := s.rereads ++ [line] } := congrArg _ (if_pos h)

theorem exec_hbmRereadResult_ok {s : State} {line : Nat} (h : s.rereads.contains line = true) :
    exec (.hbmRereadResult line true) s =
      .next { s with rereads := s.rereads.filter (· != line), log := s.log ++ [.transientMemory line] } :=
  congrArg _ (if_pos h)

/-- The second read fails, and no function has a row in the line: the line is poisoned, and no interface enters ERROR. -/
theorem exec_hbmRereadResult_failed {s : State} {line : Nat} (h : s.rereads.contains line = true) (hr : s.rowFns line = []) :
    exec (.hbmRereadResult line false) s = .next
      (State.poisonLine { s with rereads := s.rereads.filter (· != line), log := s.log ++ [.lastingMemory line] } line) := by
  have rows (t : State) (e : t.fns = s.fns) : t.rowErrors (t.rowFns line) = t := by
    have : t.rowFns line = [] := by rw [State.rowFns, e]; exact hr
    rw [this]; rfl
  refine (congrArg _ (if_pos h)).trans (congrArg _ ?_)
  exact rows _ (State.poisonLine_fns ..)

/-! ## Links (R17) -/

theorem canLinkRetransmitResult_iff (s : State) (l : LinkId) :
    canLinkRetransmitResult l s = true ↔ s.linkUp l = true ∧ (s.link l).retrying ≠ 0 := by
  simp [canLinkRetransmitResult]

theorem exec_linkFlitCheckFail {s : State} {l : LinkId} (h : s.linkUp l = true) (hk : (s.link l).retrying = 0) :
    exec (.linkFlitCheckFail l) s = .next (s.setLink { s.link l with retrying := 1 }) :=
  congrArg _ (if_pos (by simp [canLinkFlitCheckFail, h, hk]))

/-- The first flit sent again is good: the error was transient. -/
theorem exec_linkRetransmitResult_first_ok {s : State} {l : LinkId} (h : s.linkUp l = true) (hk : (s.link l).retrying = 1) :
    exec (.linkRetransmitResult l true) s =
      .next { s.setLink { s.link l with retrying := 0 } with log := s.log ++ [.transientLink l] } := by
  have can : canLinkRetransmitResult l s = true := (canLinkRetransmitResult_iff s l).mpr ⟨h, by omega⟩
  simp [exec, execLinkRetransmitResult, can, hk]

/-- The first flit sent again fails, too: a lane is retired, and the link goes on if it has another. -/
theorem exec_linkRetransmitResult_first_failed {s : State} {l : LinkId} (h : s.linkUp l = true) (hk : (s.link l).retrying = 1)
    (hl : (s.link l).lanesLost + 1 < Config.linkLanes l) :
    exec (.linkRetransmitResult l false) s =
      .next { s.setLink { s.link l with retrying := 2, lanesLost := (s.link l).lanesLost + 1 } with
        log := s.log ++ [.lastingLink l] } := by
  have can : canLinkRetransmitResult l s = true := (canLinkRetransmitResult_iff s l).mpr ⟨h, by omega⟩
  simp [exec, execLinkRetransmitResult, can, hk, hl, State.setLink]

/-- A flit sent again after a lane was retired is good: nothing more is logged. -/
theorem exec_linkRetransmitResult_later_ok {s : State} {l : LinkId} (h : s.linkUp l = true) (hk : 1 < (s.link l).retrying) :
    exec (.linkRetransmitResult l true) s = .next (s.setLink { s.link l with retrying := 0 }) := by
  have can : canLinkRetransmitResult l s = true := (canLinkRetransmitResult_iff s l).mpr ⟨h, by omega⟩
  have first : ¬ (s.link l).retrying = 1 := by omega
  simp [exec, execLinkRetransmitResult, can, first]

/-! ## Registers (R18, R122) -/

theorem State.freeze_freezes {s : State} {c : Nat} (f : Freeze) (h : (s.core c).freezes = []) :
    ((s.freeze c f).core c).freezes = [f] := by
  simp [State.freeze, h]

@[simp] theorem State.freeze_seq (s : State) (c : Nat) (f : Freeze) : (s.freeze c f).seq c = s.seq c := by
  rw [State.freeze, State.seq_updCore]
  split <;> rfl

@[simp] theorem State.thaw_seq (s : State) (c : Nat) (f : Freeze) : (s.thaw c f).seq c = s.seq c := State.seq_updCore ..

@[simp] theorem State.thaw_freezes (s : State) (c : Nat) (f : Freeze) :
    ((s.thaw c f).core c).freezes = (s.core c).freezes.filter (· != f) := congrArg Core.freezes (State.core_updCore ..)

theorem canRegisterParityError_running {s : State} {c : Nat} {r : ParityReg} {dup : Bool}
    (h : canRegisterParityError c r dup s = true) : (s.core c).freezes = [] := by
  simp only [canRegisterParityError, Bool.and_eq_true] at h
  simpa using h.1

/-- A duplicate restores the register: the domain freezes meanwhile, and the error is counted and logged. -/
def State.restored (s : State) (c : Nat) : State :=
  { (s.freeze c .parity).updSeq c fun q => { q with errc := q.errc + 1 } with log := s.log ++ [.correctedRegister c] }

theorem State.restored_core (s : State) (c : Nat) : (s.restored c).core c =
    { (s.freeze c .parity).core c with seq := { s.seq c with errc := (s.seq c).errc + 1 } } := by
  have e := (s.freeze c .parity).core_updSeq c fun q => { q with errc := q.errc + 1 }
  rw [State.freeze_seq] at e
  exact e

theorem exec_registerParityError_restored {s : State} {c : Nat} {r : ParityReg} (h : canRegisterParityError c r true s = true) :
    exec (.registerParityError c r true) s = .next (s.restored c) := congrArg _ (if_pos h)

/-- A trap taken while loads are on their way waits for them (R128). -/
theorem State.trapWhenLanded_waits {s : State} {c : Nat} (p : PendTrap) (h : (s.seq c).landing ≠ []) :
    s.trapWhenLanded c p = s.updSeq c fun q => { q with pendTrap := some p } := if_neg h

/-- The Machine check of a sequencer's word that read a failed register. -/
def State.parityTrap (s : State) (c : Nat) : PendTrap :=
  let pc := (s.seq c).pc
  let w := s.xwordAt c pc
  ⟨0x20, pc, s.freeDbl, pc, pc, w.setWidth 32, (w >>> 32).setWidth 32⟩

/-- Outside a formed gang the check of a sequencer's register is a trap of its word. -/
theorem State.parityCheck_seq {s : State} {c : Nat} {r : ParityReg} (hr : r.inEngine = false)
    (hf : (s.core c).mat.formed = false) : s.parityCheck c r = s.useFree.trapWhenLanded c (s.parityTrap c) := by
  have gang : ((s.core c).task.filter fun _ => (s.core c).mat.formed) = none := by
    rw [hf]
    cases (s.core c).task <;> rfl
  unfold State.parityCheck
  rw [gang]
  cases r with
  | engine e => cases hr
  | belt i | named k | shadow i | special n => rfl

theorem exec_registerParityError_lost {s : State} {c : Nat} {r : ParityReg} (h : canRegisterParityError c r false s = true) :
    exec (.registerParityError c r false) s = .next (s.parityCheck c r) := congrArg _ (if_pos h)

theorem exec_parityRepairDone {s : State} {c : Nat} (h : (s.core c).freezes.contains .parity = true) :
    exec (.parityRepairDone c) s = .next (s.thaw c .parity) := congrArg _ (if_pos h)

/-! ## Arrays (R264, R265) -/

@[simp] theorem State.fence_quad (s : State) (q : Nat) :
    (s.fence q).quad q = { s.quad q with fenced := true, leaseReqs := [] } := State.quad_updQuad ..

/-- An error aborts no task where no core of the quad holds a claim. -/
theorem State.abortClaims_of_unclaimed (s : State) (q : Nat) (info : Dbl) (cs : List Nat)
    (h : ∀ c ∈ cs, (s.core c).claims = false) : s.abortClaims q info cs = s := by
  induction cs with
  | nil => rfl
  | cons c cs ih =>
    obtain ⟨hc, hcs⟩ := List.forall_mem_cons.mp h
    rw [State.abortClaims, hc]
    cases (s.core c).task <;> exact ih hcs

/-- An error of an array, whatever it aborts, ends with its quad fenced. -/
theorem exec_arrayUncorrectableError_fences (s : State) (q : Nat) (u : ArrayUnit) :
    ∃ t : State, exec (.arrayUncorrectableError q u) s = .next (t.fence q)
      ∧ (((s.quad q).leaseHolder.bind fun c => (s.core c).task) = none →
        (∀ c ∈ quadCores q, (s.core c).claims = false) → t = s) := by
  simp only [exec, execArrayUncorrectableError]
  split
  · rename_i k e
    exact ⟨_, rfl, fun h => by rw [h] at e; cases e⟩
  · exact ⟨_, rfl, fun _ h => s.abortClaims_of_unclaimed q _ _ h⟩

/-! ## Power, bring-up, resets and errors -/

/-- Settles O59: each event is the state that the lemmas above name, and what they say of that state is what is asked. -/
theorem bootAndErrors : Obligations.BootAndErrors := by
  refine ⟨fun s rs cause die => ⟨?stageDone, ?stageFailed, ?boundExceeded, ?reset, ?allPowerLost, ?mainPowerLost,
      ?linkTrained, ?periodRecord⟩,
    fun s line => ⟨?uncorrectable, fun h => ⟨?rereadOk, ?rereadFailed⟩⟩,
    fun s l up => ⟨?flitFails, ?firstRetryOk, ?firstRetryFails, ?laterRetryOk⟩,
    fun s c r => ⟨?parityRestored, ?parityLost, ?parityRepaired⟩, fun s q u => ?arrayFails⟩
  case stageDone =>
    exact fun h => ⟨_, exec_bringupStageDone_ok h, s.stageOver_stage rs, State.stageOver_ready rs, State.stageOver_mem rs,
      fun h2 a ha => by rw [State.stageOver_memory rs h2]; exact s.memRead_clearMemory ha, State.stageOver_calibrated rs⟩
  case stageFailed => exact fun h => ⟨_, exec_bringupStageDone_failed h, rfl, rfl, rfl, rfl⟩
  case boundExceeded => exact fun h => ⟨_, exec_stageBoundExceeded h, rfl⟩
  case reset => exact fun i h => ⟨_, exec_reset h, s.restart_asReset⟩
  case allPowerLost =>
    obtain ⟨hb, hc, hm⟩ := s.powerOff_lost []
    exact ⟨_, rfl, hb, rfl, rfl, hc, hm⟩
  case mainPowerLost =>
    intro h
    obtain ⟨hb, hc, hm⟩ := s.powerOff_lost (s.fns.map fun (p : Nat × Func) => (p.1, p.2.withoutMainPower))
    refine ⟨_, exec_mainPowerLoss h, hb, hc, hm, fun f => ?_⟩
    rw [s.powerOff_fn Func.withoutMainPower rfl]
    exact ⟨rfl, rfl, rfl⟩
  case linkTrained => exact ⟨_, rfl, rfl, rfl, rfl⟩
  case periodRecord =>
    intro hd
    obtain ⟨hm, hc⟩ := s.periodRecords_kept s.boundFns
    exact ⟨_, rfl, rfl, hm, hc, fun f hf => State.periodRecords_fn_of_mem _ hd hf s,
      fun f hf => State.periodRecords_fn_of_notMem _ hf s⟩
  case uncorrectable => exact fun h => ⟨_, exec_hbmUncorrectableRead h, rfl⟩
  case rereadOk => exact ⟨_, exec_hbmRereadResult_ok h, rfl⟩
  case rereadFailed =>
    exact fun hr => ⟨_, exec_hbmRereadResult_failed h hr, State.mem_poisonLine .., State.poisonLine_log ..,
      State.poisonLine_rereads .., State.poisonLine_mem .., State.poisonLine_cores ..⟩
  case flitFails => exact fun hk => ⟨_, exec_linkFlitCheckFail up hk, rfl⟩
  case firstRetryOk => exact fun hk => ⟨_, exec_linkRetransmitResult_first_ok up hk, rfl⟩
  case firstRetryFails => exact fun hk hl => ⟨_, exec_linkRetransmitResult_first_failed up hk hl, rfl⟩
  case laterRetryOk => exact fun hk => ⟨_, exec_linkRetransmitResult_later_ok up hk, rfl⟩
  case parityRestored =>
    intro h
    have running := State.freeze_freezes .parity (canRegisterParityError_running h)
    refine ⟨_, exec_registerParityError_restored h, ?_⟩
    rw [State.seq, State.restored_core]
    exact ⟨rfl, running, rfl, rfl, rfl, rfl, rfl⟩
  case parityLost =>
    intro h hr hf hl
    have waits := State.trapWhenLanded_waits (s := s.useFree) (s.parityTrap c) hl
    refine ⟨_, s.parityTrap c, exec_registerParityError_lost h, ?_⟩
    rw [State.parityCheck_seq hr hf, waits, State.seq_updSeq]
    exact ⟨rfl, rfl, rfl, rfl, rfl⟩
  case parityRepaired => exact fun h => ⟨_, exec_parityRepairDone h, s.thaw_freezes c .parity, s.thaw_seq c .parity, rfl⟩
  case arrayFails =>
    obtain ⟨t, e, same⟩ := exec_arrayUncorrectableError_fences s q u
    refine ⟨_, e, ?_, ?_, fun h hc => ?_⟩
    · rw [State.fence_quad]
    · rw [State.fence_quad]
    · rw [same h hc]
      exact ⟨rfl, rfl⟩

end Sys2Proof.Machine
end

section
/-! SUPPORT. Steps (R51, entry 1): which attempt a step makes, and which word it finds: the word at a sequencer's program
counter, or at the place of an engine's command in its body. -/

namespace Sys2Proof.Machine

open Sys2Proof Sys2Proof.Safety

/-- With no scheduled action the engine that acted last attempts its next word (entry 1). -/
theorem step_of_unscheduled {s : State} (h : s.schedule = []) :
    step s = runAttempt (s.tick.attempt s.actor.1 s.actor.2) := by
  have ht : s.tick.schedule = [] := h
  simp only [step, ht]
  rfl

/-- A scheduled event is executed. -/
theorem step_of_event {s : State} {i : Instr} {rest : List Action} (h : s.schedule = .event i :: rest)
    (ok : (Action.event i).ok = true) : step s = exec i { s.tick with schedule := rest } := by
  have ht : s.tick.schedule = .event i :: rest := h
  simp only [step, ht, ok, if_true]

theorem State.attempt_seq (s : State) (c : Nat) (h : s.boot.mainPower = true) : s.attempt c .seq = s.attemptSeq c := by
  simp [State.attempt, h]

theorem State.attempt_engine (s : State) (c : Nat) {e : Engine} (h : s.boot.mainPower = true) (he : e ≠ .seq) :
    s.attempt c e = s.attemptEngine c e := by
  cases e
  case seq => exact absurd rfl he
  all_goals simp [State.attempt, h]

/-- A sequencer that comes to a word, with the epilogues over that end there, fetches it. -/
theorem State.attemptSeq_atWord {s : State} {c : Nat} (h : AtWord s c) (hh : ((s.ended c).seq c).halted = false) :
    s.attemptSeq c = (s.ended c).fetchSeq c := by
  obtain ⟨⟨hf, hs⟩, ⟨hd, hp, ho, hl⟩, hb, hr, hst⟩ := h
  have hb : ((s.core c).seq.phase != 0 && (((s.core c).flow .seq).psp || ((s.core c).flow .seq).psn)) = false := by
    obtain hb | ⟨h1, h2⟩ := hb
    · simp only [State.seq] at hb; simp [hb]
    · simp [h1, h2]
  simp only [State.seq] at hd hp ho hl hh
  simp [State.attemptSeq, State.seq, hf, hs, hd, hp, ho, hl, hb, hr, hst, hh]

/-- What a sequencer executes for a word and its EXT words: the instruction they decode to, or Illegal Instruction where they
decode to none or to one that the core does not have (R51). -/
def seqInstr (c : Nat) (w : Word) (xs : List Word) : Instr :=
  match decodeWord .seq w xs with
  | .ok i => if allowedOn c i then i else .illegalInstruction w
  | .error _ => .illegalInstruction w

theorem seqInstr_allowed {c : Nat} {w : Word} {xs : List Word} {i : Instr} (h : decodeWord .seq w xs = .ok i)
    (ha : allowedOn c i = true) : seqInstr c w xs = i := by
  simp [seqInstr, h, ha]

theorem seqInstr_not_allowed {c : Nat} {w : Word} {xs : List Word} {i : Instr} (h : decodeWord .seq w xs = .ok i)
    (ha : allowedOn c i = false) : seqInstr c w xs = .illegalInstruction w := by
  simp [seqInstr, h, ha]

theorem seqInstr_undecoded {c : Nat} {w : Word} {xs : List Word} {e : Reject} (h : decodeWord .seq w xs = .error e) :
    seqInstr c w xs = .illegalInstruction w := by
  simp [seqInstr, h]

/-- A word that is fetched with its EXT words is executed. -/
theorem State.fetchSeq_word {s r u : State} {c : Nat} {w : Word} {xs : List Word} (hc : s.inCode c (s.seq c).pc = true)
    (hw : s.fetchWord c (s.seq c).pc = (r, .ok w)) (hx : r.fetchExts c (seqExts w) ((s.seq c).pc + 4) = (u, .ok xs)) :
    s.fetchSeq c = .word (seqInstr c w xs) (u.setCur c .seq (s.seq c).pc w xs) := by
  simp only [State.fetchSeq, hc, Bool.not_true, Bool.false_eq_true, if_false, hw, hx]
  cases hd : decodeWord .seq w xs with
  | ok i => cases ha : allowedOn c i <;> simp [seqInstr, hd, ha]
  | error e => rw [seqInstr_undecoded hd]

/-- A command whose next word can issue issues it, and has started. -/
theorem State.attemptCmd_atBody {s : State} {c : Nat} {e : Engine} {k : Cmd} {ws : List Word} (h : AtBody s c e k ws) :
    s.attemptCmd c e k = (s.updCore c fun x => x.startCmd e k).cmdWord c e k := by
  obtain ⟨⟨hf, hm, hl⟩, ⟨he, hw, hn, hb, ht⟩, hc⟩ := h
  simp only [State.attemptCmd, hf, hm, hl, he, hw, hn, hb, ht, Option.getD_some, hc]
  rfl

/-- An engine that has taken no sibling's command works on its own. -/
theorem State.attemptEngine_own {s : State} {c : Nat} {e : Engine} {k : Cmd} (ht : e = .vec → s.takenCmd c = none)
    (hk : (s.core c).curCmd e = some k) : s.attemptEngine c e = s.attemptCmd c e k := by
  have ht : (if e == .vec then s.takenCmd c else none) = none := by
    split
    · rename_i h; exact ht (beq_iff_eq.mp h)
    · rfl
  simp only [State.attemptEngine, ht, hk]

/-- The word at a command's place in its body. -/
theorem State.cmdWord_eq {s : State} {c : Nat} {e : Engine} {k : Cmd} {ws : List Word} {i : Instr} (hb : k.body = some ws)
    (hi : decodeWord e (ws.getD k.pos 0) (takenExts e (ws.getD k.pos 0) (ws.drop (k.pos + 1))) = .ok i) :
    s.cmdWord c e k =
      let u := s.setCur c e (k.bodyAddr + dbl (4 * k.pos)) (ws.getD k.pos 0)
        (takenExts e (ws.getD k.pos 0) (ws.drop (k.pos + 1)))
      .word i { u with cur := { u.cur with cmd := k.uid } } := by
  simp only [State.cmdWord, hb, Option.getD_some, hi]

/-- Settles O42: each kind of step is one attempt, and the attempt finds the word that the bytes decode to. -/
theorem stepRunsDecodedWord : Obligations.StepRunsDecodedWord := by
  refine ⟨?sequencer, ?engine, fun s i rest => step_of_event⟩
  case sequencer =>
    intro s r u c w xs hs ha hp hat q v hh hc hw hx t
    have hv : s.tick.ended c = v := rfl
    have hq : v.seq c = q := State.seq_updSeq ..
    have run : step s = exec (seqInstr c w xs) t := by
      rw [← hq] at hc hw hx
      rw [step_of_unscheduled hs, ha, s.tick.attempt_seq c hp, State.attemptSeq_atWord hat (by rw [hv, hq]; exact hh), hv,
        State.fetchSeq_word hc hw hx, hq]
      rfl
    exact ⟨fun i hi => ⟨fun ha => by rw [run, seqInstr_allowed hi ha], fun ha => by rw [run, seqInstr_not_allowed hi ha]⟩,
      fun e he => by rw [run, seqInstr_undecoded he]⟩
  case engine =>
    intro s c e k ws i hs ha he hp ht hk hat w xs hi u
    obtain ⟨-, -, -, hb, -⟩ := hat.ready
    rw [step_of_unscheduled hs, ha, s.tick.attempt_engine c hp he, State.attemptEngine_own ht hk,
      State.attemptCmd_atBody hat, State.cmdWord_eq hb hi]
    rfl

end Sys2Proof.Machine
end

section
/-! SUPPORT. Leases of the arrays (R42, R263): what a request, a grant and a limit of cycles change. -/

namespace Sys2Proof.Machine

open Sys2Proof Sys2Proof.Safety

theorem exec_leaseRequest {s : State} {c : Nat} (h : canLeaseRequest c s = true) :
    exec (.leaseRequest c) s = .next (s.updQuad (quadOf c) fun q => { q with leaseReqs := q.leaseReqs ++ [c] }) :=
  congrArg _ (if_pos h)

/-- Marks of leases granted anew are in the cores alone. -/
theorem State.setAnews_shape (b : Bool) (ms : List Nat) : ∀ s : State,
    ∃ cs, ms.foldl (fun s m => s.setAnew m b) s = { s with cores := cs } := by
  induction ms with
  | nil => exact fun s => ⟨_, rfl⟩
  | cons m ms ih =>
    intro s
    obtain ⟨cs, h⟩ := ih (s.setAnew m b)
    exact ⟨cs, h⟩

theorem State.setAnew_anew (s : State) (m n : Nat) (b : Bool) :
    ((s.setAnew m b).core n).mat.anew = if n = m then b else (s.core n).mat.anew := by
  by_cases h : n = m
  · subst h
    simp [State.setAnew]
  · simp [State.setAnew, State.core_updCore_ne, h]

theorem State.setAnews_anew (b : Bool) (n : Nat) (ms : List Nat) : ∀ s : State,
    ((ms.foldl (fun s m => s.setAnew m b) s).core n).mat.anew = if n ∈ ms then b else (s.core n).mat.anew := by
  induction ms with
  | nil => simp
  | cons m ms ih =>
    intro s
    rw [List.foldl_cons, ih, State.setAnew_anew]
    by_cases h : n ∈ ms <;> simp [h]

/-- A lease that is granted changes the cores only where it is the last that a gang waits for (R263). -/
theorem State.heldAnew_shape (s : State) (c : Nat) : ∃ cs, s.heldAnew c = { s with cores := cs } := by
  simp only [State.heldAnew]
  split
  · exact State.setAnews_shape false _ s
  · exact ⟨_, rfl⟩

theorem State.heldAnew_of_not_anew {s : State} {c : Nat} (h : (s.core c).mat.anew = false) : s.heldAnew c = s := by
  simp [State.heldAnew, h]

/-- With the last lease of the group no member waits any longer. -/
theorem State.heldAnew_anew {s : State} {c m : Nat} (h : (s.core c).mat.anew = true)
    (hl : ∀ n ∈ (s.core c).leaseGroup c, s.holdsLease n = true) (hm : m ∈ (s.core c).leaseGroup c) :
    ((s.heldAnew c).core m).mat.anew = false := by
  have all : ((s.core c).leaseGroup c).all s.holdsLease = true := List.all_eq_true.mpr hl
  simp only [State.heldAnew, h, all, Bool.and_self, if_true, State.setAnews_anew, if_pos hm]

theorem exec_leaseGrant {s : State} {q c : Nat} (hf : (s.quad q).fenced = false) (hh : (s.quad q).leaseHolder = none)
    (hn : (s.quad q).nextHolder q = some c) (hw : s.wantsLease c = true) :
    exec (.leaseGrant q) s = .next ((s.updQuad q fun v => v.grant c s.wall).heldAnew c) := by
  simp [exec, execLeaseGrant, canLeaseGrant, hf, hh, hn, hw]

/-- Where another core requests the array, a lease at its limit is given up. -/
theorem State.endLease_requested {s : State} {c d : Nat} (hh : s.holdsLease c = true)
    (hd : d ∈ (s.quad (quadOf c)).leaseReqs) (hne : d ≠ c) : s.endLease c = s.dropLease c := by
  have other : (s.quad (quadOf c)).leaseReqs.any (· != c) = true := List.any_eq_true.mpr ⟨d, hd, bne_iff_ne.mpr hne⟩
  simp [State.endLease, hh, other]

/-- The end of a lease is its quad's alone. -/
theorem State.endLease_core (s : State) (c k : Nat) : (s.endLease c).core k = s.core k := by
  rw [State.endLease]
  split
  · rfl
  · split
    · exact dropLease_core s c k
    · split
      · rfl
      · exact dropLease_core s c k

/-- Outside a gang a lease at a limit ends where every word is complete, and else at the next tile boundary. -/
theorem State.limitLease_alone {s : State} {c : Nat} (hf : (s.core c).mat.formed = false) :
    s.limitLease c = if (s.core c).mat.infl = [] then s.endLease c else s.leaseOver c := by
  by_cases hi : (s.core c).mat.infl = [] <;> simp [State.limitLease, Core.leaseGroup, hf, hi, State.endLease_core]

theorem State.dropLease_held {s : State} {c : Nat} (hc : c < 384) (hh : (s.quad (quadOf c)).leaseHolder = some c) :
    s.dropLease c =
      s.updQuad (quadOf c) fun v => { v with leaseHolder := none, leaseLast := memberOf c, leaseOver := false } :=
  if_pos ⟨hc, hh⟩

/-- A holder outside a gang is at its limit 65,536 cycles after the grant (R42). -/
theorem exec_leaseCycleLimit {s : State} {q c : Nat} (hh : (s.quad q).leaseHolder = some c) (hf : (s.core c).freezes = [])
    (hw : (s.quad q).leaseFrom + 65536 ≤ s.wall) (hg : (s.core c).mat.formed = false) :
    exec (.leaseCycleLimit q) s = .next (s.limitLease c) := by
  simp [exec, execLeaseCycleLimit, canLeaseCycleLimit, State.limited, hh, hf, hw, hg]

theorem exec_sequencerStallRelease {s : State} {c : Nat} (h : canSequencerStallRelease c s = true) :
    exec (.sequencerStallRelease c) s = .next (s.updSeq c fun q => { q with stall := 0 }) := congrArg _ (if_pos h)

/-- Settles O29: each event is the state that the lemmas above name. -/
theorem leaseEvents : Obligations.LeaseEvents := by
  refine ⟨?requested, ?granted, ?limit, fun s c h => ⟨_, exec_sequencerStallRelease h, rfl⟩⟩
  case requested =>
    intro s c hc hf hw hh hr
    refine ⟨_, exec_leaseRequest ?_, rfl⟩
    have hd : c ≠ derailleur := Nat.ne_of_lt hc
    have hr : c ∉ (s.quad (quadOf c)).leaseReqs := hr
    simp [canLeaseRequest, hd, hf, hw, hh, hr]
  case granted =>
    intro s q c hf hh hn hw
    let u := s.updQuad q fun v => v.grant c s.wall
    obtain ⟨cs, e⟩ := u.heldAnew_shape c
    refine ⟨u.heldAnew c, exec_leaseGrant hf hh hn hw, by rw [e]; rfl, fun ha => ?_, fun ha hl m hm => ?_⟩
    · have same : u.heldAnew c = u := State.heldAnew_of_not_anew ha
      rw [same]
      rfl
    · rw [e] at hl
      exact State.heldAnew_anew (s := u) ha hl hm
  case limit =>
    intro s q c d hq hc hh hf hw hg hi hne hd
    subst hq
    have held : s.holdsLease c = true := beq_iff_eq.mpr hh
    exact ⟨_, exec_leaseCycleLimit hh hf hw hg,
      by rw [State.limitLease_alone hg, if_pos hi, State.endLease_requested held hd hne, State.dropLease_held hc hh]; rfl⟩

end Sys2Proof.Machine
end

section
/-! SUPPORT. Commands that end (R31, R39, R385): the park of a work queue, a command's fault, and a retirement with the
count of its lease. -/

namespace Sys2Proof.Safety

open Sys2Proof Sys2Proof.Machine

/-- A park is told from the queue's record alone. -/
theorem Parks.of_wq {s r t : State} {c cause unit : Nat} {v : Task} {urec : List Dbl} (h : Parks r t c v cause unit urec)
    (wq : r.wq v.fn v.wq = s.wq v.fn v.wq) : Parks s t c v cause unit urec :=
  ⟨h.task, by rw [← wq]; exact h.record, by rw [← wq]; exact h.waits⟩

end Sys2Proof.Safety

namespace Sys2Proof.Machine

open Sys2Proof Sys2Proof.Safety

/-! ## A park's record -/

/-- The task of a core parks its queue with the record that R358 gives. -/
theorem State.park_parks {s : State} {c : Nat} (cause unit : Nat) (urec : List Dbl) (svc : Option Dest) {v : Task}
    (hc : c < 384) (h : (s.core c).task = some v) : Parks s (s.park c cause unit false urec svc) c v cause unit urec := by
  obtain ⟨u, q, e⟩ := s.park_shape c cause unit false urec svc v h
  have wq : u.wq v.fn v.wq = s.wq v.fn v.wq := q.wqs v.fn v.wq
  obtain ⟨presented, waits, queued⟩ :=
    u.presentPark_wq v.fn v.wq ⟨c, parkWords (parkHeader cause unit false c) v.rseq v.tseq urec, svc⟩
  obtain ⟨fs, o, rest⟩ :=
    u.presentPark_rest v.fn v.wq ⟨c, parkWords (parkHeader cause unit false c) v.rseq v.tseq urec, svc⟩
  rw [wq] at presented waits queued
  rw [e]
  refine ⟨?_, fun hp => ⟨(presented hp).1, ?_⟩, fun hp => ⟨waits hp, by rw [queued, List.length_append]; rfl⟩⟩
  · rw [rest]
    exact (q.parked c).trans (by rw [State.core_updCore]; rfl)
  · rw [(presented hp).2]
    simp [parkWords, parkHeader, hc, dieOf, dbl]

/-- What a park leaves of a core: its queues, engines and freezes. -/
theorem State.park_core (s : State) (c cause unit : Nat) (double : Bool) (urec : List Dbl) (svc : Option Dest) (k : Nat) :
    ((s.park c cause unit double urec svc).core k).queues = (s.core k).queues
      ∧ ((s.park c cause unit double urec svc).core k).freezes = (s.core k).freezes
      ∧ ((s.park c cause unit double urec svc).core k).copy = (s.core k).copy
      ∧ ((s.park c cause unit double urec svc).core k).vec = (s.core k).vec
      ∧ ((s.park c cause unit double urec svc).core k).mat = (s.core k).mat := by
  cases h : (s.core c).task with
  | none => simp [State.park, h]
  | some v =>
    obtain ⟨u, q, e⟩ := s.park_shape c cause unit double urec svc v h
    obtain ⟨fs, o, rest⟩ :=
      u.presentPark_rest v.fn v.wq ⟨c, parkWords (parkHeader cause unit double c) v.rseq v.tseq urec, svc⟩
    have marked (k : Nat) : ∃ t, (s.updCore c fun x => { x with task := some { v with parked := true } }).core k =
        { s.core k with task := t } := by
      by_cases hk : k = c
      · subst hk; exact ⟨_, State.core_updCore ..⟩
      · exact ⟨_, State.core_updCore_ne _ _ hk⟩
    obtain ⟨t, m⟩ := marked k
    obtain ⟨freezes, queues⟩ := q.frozen k
    obtain ⟨copy, vec, mat, -⟩ := q.units k
    rw [m] at freezes queues copy vec mat
    rw [e, rest]
    exact ⟨queues, freezes, copy, vec, mat⟩

/-! ## A fault of a command (R185, R227, R266) -/

/-- The fault record of an engine. -/
def Core.faultOf (x : Core) : Engine → Option FaultRec
  | .load => x.copy.faultL
  | .store => x.copy.faultS
  | .vec => x.vec.fault
  | .mat => x.mat.fault
  | .seq => none

theorem Core.setFault_faultOf (x : Core) {e : Engine} (r : Option FaultRec) (he : e ≠ .seq) :
    (x.setFault e r).faultOf e = r := by
  cases e
  case seq => exact absurd rfl he
  all_goals rfl

theorem Core.setFault_kept (x : Core) (e : Engine) (r : Option FaultRec) :
    (x.setFault e r).freezes = x.freezes ∧ (x.setFault e r).task = x.task := by
  cases e <;> exact ⟨rfl, rfl⟩

theorem State.freeze_mem (s : State) (c : Nat) (f : Freeze) : f ∈ ((s.freeze c f).core c).freezes := by
  rw [State.freeze, State.core_updCore]
  split
  · rename_i h; simpa using h
  · exact List.mem_cons_self ..

theorem State.freeze_task (s : State) (c : Nat) (f : Freeze) : ((s.freeze c f).core c).task = (s.core c).task := by
  rw [State.freeze, State.core_updCore]
  split <;> rfl

/-- A command's fault freezes its domain, is written to its engine's record, and parks the queue with it. -/
theorem State.bodyFault_spec {s : State} {c : Nat} {v : Task} (e : Engine) (k : Cmd) (cause index : Nat) (addr info : Dbl)
    (hc : c < 384) (hv : (s.core c).task = some v) :
    let r : FaultRec := ⟨(s.core c).faultHead c e k cause index, addr, info, dbl k.iters⟩
    let t := s.bodyFault c e k cause index addr info
    .bodyFault e ∈ (t.core c).freezes ∧ (e ≠ .seq → (t.core c).faultOf e = some r)
      ∧ Parks s t c v cause (engUnit e) r.words := by
  intro r t
  let u := (s.freeze c (.bodyFault e)).updCore c fun x => x.setFault e (some r)
  have hu : u.core c = ((s.freeze c (.bodyFault e)).core c).setFault e (some r) := State.core_updCore ..
  obtain ⟨freezes, task⟩ := ((s.freeze c (.bodyFault e)).core c).setFault_kept e (some r)
  rw [← hu] at freezes task
  obtain ⟨-, pf, copy, vec, mat⟩ := u.park_core c cause (engUnit e) false r.words none c
  have p : Parks u t c v cause (engUnit e) r.words := State.park_parks _ _ _ _ hc (by rw [task, State.freeze_task, hv])
  refine ⟨?_, fun he => ?_, p.of_wq rfl⟩
  · show _ ∈ ((u.park c cause (engUnit e) false r.words none).core c).freezes
    rw [pf, freezes]
    exact State.freeze_mem ..
  · have same : (t.core c).faultOf e = (u.core c).faultOf e := by
      show ((u.park c cause (engUnit e) false r.words none).core c).faultOf e = _
      cases e <;> simp only [Core.faultOf, copy, vec, mat]
    rw [same, hu, Core.setFault_faultOf _ _ he]

theorem exec_bodyFetchFaultTaken {s : State} {c : Nat} {e : Engine} {k : Cmd} {f : FetchFault}
    (h : s.fetchFaulted c e = some (k, f)) : ∃ info, exec (.bodyFetchFaultTaken c e) s =
      .next (s.useFree.bodyFault c e { k with iters := 0 } f.cause f.index f.addr info) := by
  simp only [exec, execBodyFetchFaultTaken, h]
  exact ⟨_, rfl⟩

/-! ## Retirement (R31, R39) -/

/-- Leases have passed or ended: quads have changed, and of the cores no more than the mark that a gang waits for leases. -/
structure LeaseOnly (s t : State) : Prop where
  rest : ∃ cs qs, t = { s with cores := cs, quads := qs }
  cores : ∀ k, ∃ b, t.core k = { s.core k with mat := { (s.core k).mat with anew := b } }

theorem LeaseOnly.quads (s : State) (qs : Tbl Quad) : LeaseOnly s { s with quads := qs } :=
  ⟨⟨_, _, rfl⟩, fun _ => ⟨_, rfl⟩⟩

theorem LeaseOnly.trans {s t u : State} (h : LeaseOnly s t) (k : LeaseOnly t u) : LeaseOnly s u := by
  obtain ⟨_, _, e⟩ := h.rest
  obtain ⟨_, _, f⟩ := k.rest
  refine ⟨⟨_, _, by rw [f, e]⟩, fun n => ?_⟩
  obtain ⟨_, a⟩ := h.cores n
  obtain ⟨_, b⟩ := k.cores n
  exact ⟨_, by rw [b, a]⟩

theorem State.dropLease_quads (s : State) (c : Nat) : ∃ qs, s.dropLease c = { s with quads := qs } := by
  rw [State.dropLease]
  split <;> exact ⟨_, rfl⟩

theorem State.endLease_quads (s : State) (c : Nat) : ∃ qs, s.endLease c = { s with quads := qs } := by
  rw [State.endLease]
  split
  · exact ⟨_, rfl⟩
  · split
    · exact s.dropLease_quads c
    · split
      · exact ⟨_, rfl⟩
      · exact s.dropLease_quads c

theorem State.leaseOver_quads (s : State) (c : Nat) : ∃ qs, s.leaseOver c = { s with quads := qs } := by
  rw [State.leaseOver]
  split <;> exact ⟨_, rfl⟩

theorem LeaseOnly.of_quads {s t : State} (h : ∃ qs, t = { s with quads := qs }) : LeaseOnly s t := by
  obtain ⟨qs, rfl⟩ := h
  exact LeaseOnly.quads s qs

theorem LeaseOnly.setAnew (s : State) (c : Nat) (b : Bool) : LeaseOnly s (s.setAnew c b) := by
  refine ⟨⟨_, _, rfl⟩, fun k => ?_⟩
  by_cases h : k = c
  · subst h; exact ⟨b, State.core_updCore ..⟩
  · exact ⟨_, State.core_updCore_ne _ _ h⟩

theorem LeaseOnly.foldl {g : State → Nat → State} (h : ∀ s c, LeaseOnly s (g s c)) (l : List Nat) :
    ∀ s, LeaseOnly s (l.foldl g s) := by
  induction l with
  | nil => exact fun s => LeaseOnly.quads s s.quads
  | cons c l ih => exact fun s => (h s c).trans (ih _)

theorem LeaseOnly.limitLease (s : State) (c : Nat) : LeaseOnly s (s.limitLease c) := by
  have ends := LeaseOnly.foldl (fun s m => LeaseOnly.of_quads (s.endLease_quads m)) ((s.core c).leaseGroup c) s
  simp only [State.limitLease]
  split
  · split
    · exact ends.trans (LeaseOnly.foldl (fun s m => LeaseOnly.setAnew s m true) _ _)
    · exact ends
  · exact LeaseOnly.foldl (fun s m => LeaseOnly.of_quads (s.leaseOver_quads m)) _ _

/-- Outside a gang a limit changes the quad alone. -/
theorem State.limitLease_quads {s : State} {c : Nat} (h : (s.core c).mat.formed = false) :
    ∃ qs, s.limitLease c = { s with quads := qs } := by
  rw [State.limitLease_alone h]
  split
  · exact s.endLease_quads c
  · exact s.leaseOver_quads c

/-- One more command has retired under the lease of a core's array. -/
def State.leaseCounted (s : State) (c : Nat) : State :=
  s.updQuad (quadOf c) fun q => { q with leaseCount := q.leaseCount + 1 }

/-- What the count of a lease comes to: no lease is held, or it goes on, is given up, or is at its limit. -/
theorem State.countLease_cases (s : State) (c : Nat) : s.countLease c = s ∨ s.countLease c = s.leaseCounted c
    ∨ s.countLease c = (s.leaseCounted c).dropLease c ∨ s.countLease c = (s.leaseCounted c).limitLease c := by
  simp only [State.countLease]
  split
  · exact .inl rfl
  · split
    · exact .inr (.inr (.inl rfl))
    · split
      · exact .inr (.inr (.inr rfl))
      · exact .inr (.inl rfl)

theorem LeaseOnly.countLease (s : State) (c : Nat) : LeaseOnly s (s.countLease c) := by
  have counted : LeaseOnly s (s.leaseCounted c) := LeaseOnly.quads s _
  obtain h | h | h | h := s.countLease_cases c <;> rw [h]
  · exact LeaseOnly.quads s s.quads
  · exact counted
  · exact counted.trans (LeaseOnly.of_quads (State.dropLease_quads ..))
  · exact counted.trans (LeaseOnly.limitLease ..)

/-- Outside a gang the count of a lease changes the quad alone. -/
theorem State.countLease_quads {s : State} {c : Nat} (hf : (s.core c).mat.formed = false) :
    ∃ qs, s.countLease c = { s with quads := qs } := by
  obtain h | h | h | h := s.countLease_cases c <;> rw [h]
  · exact ⟨_, rfl⟩
  · exact ⟨_, rfl⟩
  · obtain ⟨_, e⟩ := (s.leaseCounted c).dropLease_quads c
    exact ⟨_, e⟩
  · obtain ⟨_, e⟩ := State.limitLease_quads (s := s.leaseCounted c) hf
    exact ⟨_, e⟩

/-- The sequencer's counts of a command's queue fall (R129, R146). -/
theorem Core.retire_seq (x : Core) (e : Engine) (k : Cmd) : (x.retire e k).seq =
    { x.seq with
      cp := if isCopy e then x.seq.cp - 1 else x.seq.cp
      mt := if e = .mat then x.seq.mt - 1 else x.seq.mt } := by
  cases e <;> rfl

theorem exec_commandRetire {s : State} {c : Nat} {e : Engine} {k : Cmd} {l : List Cmd} (he : e ≠ .seq)
    (hf : (s.core c).freezes = []) (hq : (s.core c).queue e = k :: l) (ho : (s.core c).cmdOver e k = true) :
    exec (.commandRetire c e) s = .next (if e = .mat then (s.updCore c fun x => x.retire e k).countLease c
      else s.updCore c fun x => x.retire e k) := by
  simp [exec, execCommandRetire, canCommandRetire, he, hf, hq, ho]

/-- A command that retires, and the lease's count with it. -/
theorem State.retireCmd_spec (s : State) (c : Nat) (e : Engine) (k : Cmd) :
    let u := s.updCore c fun x => x.retire e k
    let t := if e = .mat then u.countLease c else u
    LeaseOnly u t ∧ ((s.core c).mat.formed = false → ∃ qs, t = { u with quads := qs }) := by
  intro u t
  have hm : (u.core c).mat = (s.core c).mat := (congrArg Core.mat (s.core_updCore c fun x => x.retire e k)).trans rfl
  by_cases h : e = .mat
  · have ht : t = u.countLease c := if_pos h
    rw [ht]
    exact ⟨LeaseOnly.countLease u c, fun hf => State.countLease_quads (by rw [hm]; exact hf)⟩
  · have ht : t = u := if_neg h
    rw [ht]
    exact ⟨LeaseOnly.quads u u.quads, fun _ => ⟨_, rfl⟩⟩

/-- Settles O28: the fault is `bodyFault`'s; a retirement is `Core.retire`'s, and the lease's count leaves the rest. -/
theorem commandEnds : Obligations.CommandEnds := by
  refine ⟨?fault, ?retires⟩
  case fault =>
    intro s c e k f v hc hk hv
    obtain ⟨info, run⟩ := exec_bodyFetchFaultTaken hk
    obtain ⟨frozen, record, p⟩ :=
      State.bodyFault_spec (s := s.useFree) e { k with iters := 0 } f.cause f.index f.addr info hc hv
    refine ⟨_, info, _, run, frozen, ?_, ?_, ?_, ?_, p.of_wq rfl⟩
    all_goals
      intro h
      subst h
      exact record (by decide)
  case retires =>
    intro s c e k l he hf hq ho
    obtain ⟨lease, alone⟩ := s.retireCmd_spec c e k
    refine ⟨_, exec_commandRetire he hf hq ho, ?_⟩
    generalize (if e = .mat then (s.updCore c fun x => x.retire e k).countLease c else s.updCore c fun x => x.retire e k) = t
      at lease alone
    obtain ⟨b, here⟩ := lease.cores c
    rw [State.core_updCore] at here
    obtain ⟨cs, qs, rest⟩ := lease.rest
    have seq := (s.core c).retire_seq e k
    rw [State.seq, here]
    simp only [seq]
    refine ⟨rfl, rfl, rfl, rfl, rfl, rfl, fun hg j hj => ?_, by rw [rest]; exact ⟨fun _ => rfl, rfl, rfl, rfl⟩⟩
    obtain ⟨qs, same⟩ := alone hg
    rw [same]
    exact s.core_updCore_ne (fun x => x.retire e k) hj

end Sys2Proof.Machine
end

section
/-! SUPPORT. Fetching a body (R34, R385): what the reads of its words can change, and what the fetch comes to. -/

namespace Sys2Proof.Machine

open Sys2Proof Sys2Proof.Safety

/-! ## Reads of code by an engine -/

/-- Code was read for an engine: TLBs alone have changed of the cores, and no work queue. -/
structure CodeRead (s t : State) : Prop where
  cores : ∀ k, ∃ l m, t.core k = { s.core k with tlb := l, copy := { (s.core k).copy with tlb := m } }
  wqs : ∀ f q, t.wq f q = s.wq f q

theorem CodeRead.of_lookedRead {s t : State} (h : LookedRead s t) : CodeRead s t := by
  refine ⟨fun k => ?_, fun f q => ?_⟩
  · obtain ⟨l, e⟩ := h.cores k
    exact ⟨l, (s.core k).copy.tlb, e⟩
  · obtain ⟨_, _, _, e⟩ := h.fns f
    rw [State.wq, e]
    rfl

theorem CodeRead.refl (s : State) : CodeRead s s := CodeRead.of_lookedRead (LookedRead.refl s)

theorem CodeRead.trans {s t u : State} (h : CodeRead s t) (k : CodeRead t u) : CodeRead s u := by
  refine ⟨fun n => ?_, fun f q => (k.wqs f q).trans (h.wqs f q)⟩
  obtain ⟨_, _, e⟩ := h.cores n
  obtain ⟨_, _, g⟩ := k.cores n
  exact ⟨_, _, by rw [g, e]⟩

/-- A copy engine's translation enters its TLBs. -/
theorem CodeRead.fillTlb (s : State) (c : Nat) (e : TlbEntry) : CodeRead s (s.fillTlb (.copy c) e) := by
  refine ⟨fun k => ?_, fun _ _ => rfl⟩
  simp only [State.fillTlb]
  by_cases h : k = c
  · subst h
    exact ⟨_, _, State.core_updCore ..⟩
  · exact ⟨_, _, State.core_updCore_ne _ _ h⟩

/-- A translation for an access that does not write changes no more. -/
theorem CodeRead.translate (s : State) (c fn : Nat) (root : Dbl) (va : Nat) {n : Need} (hn : n.s2.getLsbD 1 = false) :
    CodeRead s (s.translate (.copy c) fn root va n).1 := by
  simp only [State.translate, hn, Bool.false_and, Bool.false_eq_true, if_false]
  split
  · split
    · exact CodeRead.refl s
    · split <;> exact CodeRead.refl s
  · have q := CodeRead.of_lookedRead (LookedRead.quietLookups fn 3 false (s.walkReads (TlbUser.copy c).die fn root va) s)
    split
    · exact q
    · rename_i t _ _
      have h := q.trans (CodeRead.fillTlb _ c t)
      split
      · exact h
      · split <;> exact h

/-- A body's fetch reads one word after the other. -/
theorem CodeRead.fetchBody (c fn : Nat) (root a : Dbl) (n : Nat) : ∀ (s : State) (i : Nat),
    CodeRead s (s.fetchBody c fn root a n i).1 := by
  induction n with
  | zero => exact fun s _ => CodeRead.refl s
  | succ n ih =>
    intro s i
    simp only [State.fetchBody]
    split
    · exact CodeRead.refl s
    · have h := CodeRead.translate s c fn root (a + dbl (4 * i)).toNat (n := Need.fetch) (by decide)
      split
      · rename_i e
        rw [e] at h
        exact h
      · rename_i _ t g e
        rw [e] at h
        split
        · exact h
        · have q := LookedRead.quietLookup t fn 0 false (g.phys (a + dbl (4 * i)).toNat)
          have k := (h.trans (CodeRead.of_lookedRead q)).trans (ih _ (i + 1))
          split
          · rename_i e
            rw [e] at k
            exact k
          · rename_i e
            rw [e] at k
            exact k

/-! ## What the fetch comes to -/

theorem canBodyFetch_iff (s : State) (c : Nat) (e : Engine) : canBodyFetch c e s = true ↔
    e ≠ .seq ∧ (s.core c).freezes = [] ∧ (s.core c).task.isSome = true ∧ ((s.core c).unfetched e).isSome = true := by
  simp [canBodyFetch, and_assoc]

/-- The change of one command of a core. -/
theorem State.updCmd_queues (s : State) (c : Nat) (e : Engine) (uid : Nat) (f : Cmd → Cmd) :
    ((s.updCore c fun x => x.updCmd e uid f).core c).queues = onCmd e uid f (s.core c).queues := by
  rw [State.core_updCore]
  rfl

/-- The words behind a body, as many as its last word may carry; none where they cannot be read (entry 14). -/
def State.wordsBehind (s : State) (c fn : Nat) (root a : Dbl) (n : Nat) : List Word :=
  match s.fetchBody c fn root a n 0 with
  | (_, .ok l) => l
  | _ => []

theorem State.wordsBehind_cases (s : State) (c fn : Nat) (root a : Dbl) (n : Nat) :
    (s.fetchBody c fn root a n 0).2 = .ok (s.wordsBehind c fn root a n) ∨ s.wordsBehind c fn root a n = [] := by
  rw [State.wordsBehind]
  split
  · rename_i h
    exact .inl (by rw [h])
  · exact .inr rfl

/-- The state after a body with an illegal word was fetched (R34): the command is at fault, and the queue parks with the
word's place. -/
def State.bodyIllegal (s : State) (c : Nat) (e : Engine) (k : Cmd) (ws : List Word) (i sub : Nat) : State :=
  (s.updCore c fun x => x.updCmd e k.uid fun k => { k with faulted := true }).park c 0x01 (engUnit e) false
    [dbl (0x01 + engCode e * 2 ^ 8 + k.slot * 2 ^ 11 + i * 2 ^ 16 + sub * 2 ^ 22), (ws.getD i 0).setWidth 64,
      k.bodyAddr + dbl (4 * i), 0] none

theorem State.bodyIllegal_spec {s : State} {c : Nat} {v : Task} (e : Engine) (k : Cmd) (ws : List Word) (i sub : Nat)
    (hc : c < 384) (hv : (s.core c).task = some v) :
    ((s.bodyIllegal c e k ws i sub).core c).queues = onCmd e k.uid (fun j => { j with faulted := true }) (s.core c).queues
      ∧ Parks s (s.bodyIllegal c e k ws i sub) c v 0x01 (engUnit e)
        [dbl (0x01 + engCode e * 2 ^ 8 + k.slot * 2 ^ 11 + i * 2 ^ 16 + sub * 2 ^ 22), (ws.getD i 0).setWidth 64,
          k.bodyAddr + dbl (4 * i), 0] := by
  refine ⟨?_, ?_⟩
  · rw [State.bodyIllegal, (State.park_core ..).1, State.updCmd_queues]
  · exact (State.park_parks _ _ _ _ hc (by rw [State.core_updCore]; exact hv)).of_wq rfl

section
variable {s r : State} {c : Nat} {e : Engine} {k : Cmd} {v : Task}

/-- The fault of a word that cannot be fetched is kept with the command (R385). -/
theorem exec_bodyFetch_fault {i : Nat} {f : XFault} (can : canBodyFetch c e s = true) (hv : (s.core c).task = some v)
    (hk : (s.core c).unfetched e = some k)
    (hx : s.fetchBody c v.fn (s.rootOf v.fn v.wq) k.bodyAddr (cwLen k.cw0) 0 = (r, .error (i, f))) :
    ∃ g : FetchFault, exec (.bodyFetch c e) s =
        .next (r.updCore c fun x => x.updCmd e k.uid fun j => { j with fetchFault := some g })
      ∧ g.cause = f.cause ∧ g.index = i ∧ g.addr = k.bodyAddr + dbl (4 * i) := by
  simp only [exec, execBodyFetch, can, if_true, hk, hv, hx]
  exact ⟨_, rfl, rfl, rfl, rfl⟩

/-- A body that is fetched is checked whole (R34). -/
theorem exec_bodyFetch_words {ws after : List Word} (can : canBodyFetch c e s = true) (hv : (s.core c).task = some v)
    (hk : (s.core c).unfetched e = some k)
    (hx : s.fetchBody c v.fn (s.rootOf v.fn v.wq) k.bodyAddr (cwLen k.cw0) 0 = (r, .ok ws))
    (ha : r.wordsBehind c v.fn (s.rootOf v.fn v.wq) (k.bodyAddr + dbl (4 * cwLen k.cw0))
      (Nat.min ((v.codeArea e).2 - (cwBody k.cw0 + cwLen k.cw0)) 3) = after) :
    (bodyFails e (cwChain k.cw0) after (cwLen k.cw0 + 1) 0 ws = none → exec (.bodyFetch c e) s =
        .next (r.updCore c fun x => x.updCmd e k.uid fun k => { k with body := some ws }))
      ∧ ∀ i sub, bodyFails e (cwChain k.cw0) after (cwLen k.cw0 + 1) 0 ws = some (i, sub) →
        exec (.bodyFetch c e) s = .next (r.bodyIllegal c e k ws i sub) := by
  have run : exec (.bodyFetch c e) s = .next (match bodyFails e (cwChain k.cw0) after (cwLen k.cw0 + 1) 0 ws with
      | none => r.updCore c fun x => x.updCmd e k.uid fun k => { k with body := some ws }
      | some (i, sub) => r.bodyIllegal c e k ws i sub) := by
    subst ha
    simp only [exec, execBodyFetch, can, if_true, hk, hv, hx]
    rfl
  exact ⟨fun h => by rw [run, h], fun i sub h => by rw [run, h]⟩

end

/-- Settles O27: the fetch leaves the queues and the task, so that its outcome is the command's alone. -/
theorem bodyFetch : Obligations.BodyFetch := by
  intro s r c e k v x he hc hf hv hk hx
  have can : canBodyFetch c e s = true := (canBodyFetch_iff s c e).mpr ⟨he, hf, by rw [hv]; rfl, by rw [hk]; rfl⟩
  have read : CodeRead s r := by
    have h := CodeRead.fetchBody c v.fn (s.rootOf v.fn v.wq) k.bodyAddr (cwLen k.cw0) s 0
    rwa [hx] at h
  obtain ⟨_, _, core⟩ := read.cores c
  have queues : (r.core c).queues = (s.core c).queues := by rw [core]
  have task : (r.core c).task = some v := by rw [core]; exact hv
  refine ⟨fun i f hx' => ?fault, fun ws hx' => ?words⟩
  case fault =>
    subst hx'
    obtain ⟨g, run, fields⟩ := exec_bodyFetch_fault can hv hk hx
    exact ⟨_, g, run, by rw [State.updCmd_queues, queues], fields⟩
  case words =>
    subst hx'
    obtain ⟨legal, illegal⟩ := exec_bodyFetch_words can hv hk hx rfl
    have behind := r.wordsBehind_cases c v.fn (s.rootOf v.fn v.wq) (k.bodyAddr + dbl (4 * cwLen k.cw0))
      (Nat.min ((v.codeArea e).2 - (cwBody k.cw0 + cwLen k.cw0)) 3)
    generalize r.wordsBehind c v.fn (s.rootOf v.fn v.wq) (k.bodyAddr + dbl (4 * cwLen k.cw0))
      (Nat.min ((v.codeArea e).2 - (cwBody k.cw0 + cwLen k.cw0)) 3) = after at legal illegal behind
    cases hb : bodyFails e (cwChain k.cw0) after (cwLen k.cw0 + 1) 0 ws with
    | none =>
      refine ⟨_, after, legal hb, behind, fun _ => by rw [State.updCmd_queues, queues], fun i sub h => ?_⟩
      rw [hb] at h
      cases h
    | some p =>
      obtain ⟨i, sub⟩ := p
      obtain ⟨faulted, parks⟩ := r.bodyIllegal_spec e k ws i sub hc task
      refine ⟨_, after, illegal i sub hb, behind, fun h => ?_, fun i' sub' h => ?_⟩
      · rw [hb] at h
        cases h
      · rw [hb] at h
        cases h
        exact ⟨by rw [faulted, queues], parks.of_wq (read.wqs v.fn v.wq)⟩

end Sys2Proof.Machine
end

section
/-! SUPPORT. PUSH (R32 to R40, R146): the translations of a command's regions, the write-backs of the lines they meet, a free
slot, and the command in its queue. -/

namespace Sys2Proof.Machine

open Sys2Proof Sys2Proof.Safety

/-! ## Translation of a command's regions (R78) -/

theorem State.xlatRow_looked (c fn : Nat) (root : Dbl) (n : Need) (stop fuel : Nat) :
    ∀ (s : State) (a : Nat) (held : List TlbEntry) (attr : Option (BitVec 9)),
      Looked s (s.xlatRow c fn root n stop fuel a held attr).1 := by
  induction fuel with
  | zero => exact fun s _ _ _ => (LookedRead.refl s).toLooked
  | succ fuel ih =>
    intro s a held attr
    simp only [State.xlatRow]
    split
    · exact (LookedRead.refl s).toLooked
    · have h := s.translate_looked c fn root a n
      split
      · rename_i e
        rw [e] at h
        exact h
      · rename_i e
        rw [e] at h
        split
        · exact h
        · exact h.trans (ih ..)

theorem State.xlatRows_looked (c fn : Nat) (root : Dbl) (n : Need) (rows : List (Nat × Nat)) :
    ∀ (s : State) (attr : Option (BitVec 9)) (held : List TlbEntry), Looked s (s.xlatRows c fn root n attr held rows).1 := by
  induction rows with
  | nil => exact fun s _ _ => (LookedRead.refl s).toLooked
  | cons row rows ih =>
    intro s attr held
    obtain ⟨p, len⟩ := row
    have h := State.xlatRow_looked c fn root n (p + len) (64 * 512 + 1) s p held attr
    simp only [State.xlatRows]
    split
    · rename_i e
      rw [e] at h
      exact h
    · rename_i e
      rw [e] at h
      exact h.trans (ih ..)

/-- The translations of a command's regions change no more than lookups do. -/
theorem State.xlatRegions_looked (c fn : Nat) (root : Dbl) (regs : List Region) :
    ∀ (s : State) (held : List TlbEntry), Looked s (s.xlatRegions c fn root held regs).1 := by
  induction regs with
  | nil => exact fun s _ => (LookedRead.refl s).toLooked
  | cons reg regs ih =>
    intro s held
    simp only [State.xlatRegions]
    split
    · have h := State.xlatRows_looked c fn root (regionNeed reg.kind) (ascending (reg.rows c)) s none held
      split
      · rename_i e
        rw [e] at h
        exact h
      · rename_i e
        rw [e] at h
        exact h.trans (ih ..)
    · exact ih ..

/-! ## A free slot -/

/-- Fewer than 32 commands leave a slot free. -/
theorem exists_free_slot {l : List Cmd} (h : l.length < 32) : ∃ i, i < 32 ∧ ∀ k ∈ l, k.slot ≠ i := by
  by_contra hn
  push Not at hn
  have sub : List.range 32 ⊆ l.map (·.slot) := fun i hi => by
    obtain ⟨k, hk, e⟩ := hn i (List.mem_range.mp hi)
    exact List.mem_map.mpr ⟨k, hk, e⟩
  have len := (List.nodup_range.subperm sub).length_le
  simp only [List.length_range, List.length_map] at len
  omega

/-- The slot that a new command takes is one of those that are free. -/
theorem State.freeSlot_free (s : State) {l : List Cmd} (h : l.length < 32) :
    s.freeSlot l < 32 ∧ ∀ k ∈ l, k.slot ≠ s.freeSlot l := by
  obtain ⟨i, hi, hf⟩ := exists_free_slot h
  have mem : ∀ j, j ∈ (List.range 32).filter (fun i => !l.any fun k => k.slot == i) ↔ j < 32 ∧ ∀ k ∈ l, k.slot ≠ j := by
    intro j
    simp
  rw [← mem]
  have pos : 0 < ((List.range 32).filter fun i => !l.any fun k => k.slot == i).length :=
    List.length_pos_of_mem ((mem i).mpr ⟨hi, hf⟩)
  simp only [State.freeSlot]
  rw [List.getD_eq_getElem _ _ (Nat.mod_lt _ pos)]
  exact List.getElem_mem _

/-! ## The lines that the regions meet (R194) -/

theorem State.pushLines_flushed (s : State) (c : Nat) (v : Task) (regs : List Region) : Flushed s (s.pushLines c v regs).1 :=
  Flushed.trans (Flushed.writeBackList ..) (Flushed.copy _ c _ fun _ => ⟨_, rfl⟩)

theorem State.pushLines_others (s : State) (c : Nat) (v : Task) (regs : List Region) {j : Nat} (h : j ≠ c) :
    (s.pushLines c v regs).1.core j = s.core j :=
  (State.core_updCore_ne _ _ h).trans (writeBackList_others _ _ _ _ h)

theorem Flushed.kept {s t : State} (h : Flushed s t) : MemoryKept s t ∧ t.cur = s.cur := by
  obtain ⟨_, _, _, e⟩ := h.rest
  rw [e]
  exact ⟨⟨fun _ => rfl, rfl, rfl, rfl⟩, rfl⟩

/-! ## The command in its queue -/

/-- The sequencer's count of a command's queue rises (R146). -/
def pushCount (e : Engine) (q : Machine.Seq) : Machine.Seq :=
  if isCopy e then { q with cp := q.cp + 1 } else if e = .mat then { q with mt := q.mt + 1 } else q

theorem pushCount_cyc (e : Engine) (q : Machine.Seq) : (pushCount e q).cyc = q.cyc := by
  rw [pushCount]
  split
  · rfl
  · split <;> rfl

theorem State.enqueue_core (s : State) (c : Nat) (e : Engine) (k : Cmd) :
    ((s.enqueue c e k).core c).queues = (s.core c).queues.modify (queueIdx e) (fun l => l ++ [k])
      ∧ (s.enqueue c e k).seq c = pushCount e (s.seq c) := by
  rw [State.seq, State.enqueue, State.core_updCore]
  cases e <;> exact ⟨rfl, rfl⟩

/-- PUSH's last step: the command `k`, which waits for the write-backs of the lines its regions meet as well, enters its
queue, and the word issues. -/
def State.pushed (s : State) (e : Engine) (v : Task) (k : Cmd) (regs : List Region) (nq : BitVec 2) : State :=
  let (u, wbs) := s.useId.pushLines s.cur.core v regs
  (u.enqueue s.cur.core e { k with waits := k.waits ++ wbs }).issue (quadRegs nq) 1 none

theorem Stepped.of_changed {p q r : Machine.Seq} {clk : Nat} {marks : List Src} {res : Option (Dbl × Dest)} {pc : Dbl}
    {f : Machine.Seq → Machine.Seq} (h : Stepped q r clk marks res pc id) (e : q = f p) (hc : q.cyc = p.cyc) :
    Stepped p r clk marks res pc f := by
  subst e
  exact ⟨h.pc, h.ready, by rw [h.clock, hc], h.wrote, h.specials⟩

theorem State.pushed_spec (s : State) (e : Engine) (v : Task) (k : Cmd) (regs : List Region) (nq : BitVec 2) :
    let c := s.cur.core
    let t := s.pushed e v k regs nq
    (∃ w, (t.core c).queues = (s.core c).queues.modify (queueIdx e) (fun l => l ++ [{ k with waits := w }]))
      ∧ MemoryKept s t ∧ Stepped (s.seq c) (t.seq c) 1 (quadRegs nq) none s.nextPc (pushCount e)
      ∧ ∀ j, j ≠ c → t.core j = s.core j := by
  intro c t
  let u := (s.useId.pushLines c v regs).1
  let w := k.waits ++ (s.useId.pushLines c v regs).2
  let q := u.enqueue c e { k with waits := w }
  have flushed : Flushed s.useId u := State.pushLines_flushed ..
  obtain ⟨kept, cur⟩ := flushed.kept
  obtain ⟨cp, core⟩ := flushed.cores c
  obtain ⟨queues, seq⟩ := u.enqueue_core c e { k with waits := w }
  have curq : q.cur = s.cur := cur
  have useq : u.seq c = s.seq c := by rw [State.seq, core]; rfl
  have issued := q.retired_issue (quadRegs nq) none
  have stepped := issued.stepped (g := id) rfl
  have here := issued.engines.queues
  have others := issued.others
  have next : q.nextPc = s.nextPc := by rw [State.nextPc, State.nextPc, curq]
  rw [curq, next] at stepped
  rw [curq] at here others
  have keptq : MemoryKept s q := ⟨kept.bytes, kept.keys, kept.poison⟩
  refine ⟨⟨w, ?_⟩, MemoryKept.trans keptq issued.memory, Stepped.of_changed stepped ?_ ?_, fun j hj => ?_⟩
  · exact here.trans (queues.trans (by rw [core]; rfl))
  · rw [seq, useq]
  · rw [seq, pushCount_cyc, useq]
  · exact (others j hj).trans <| (State.core_updCore_ne _ _ hj).trans (State.pushLines_others _ _ _ _ hj)

/-- A PUSH that passes its checks enters the command as it is found (R146). -/
theorem exec_push {s r : State} {q : Queue} {nq : BitVec 2} {v : Task} {held : List TlbEntry} (fresh : Fresh s (quadRegs nq)) :
    let c := s.cur.core
    let x := s.core c
    let e := queueEngine q
    let w (i : Nat) : Dbl := x.seq.named.getD (4 * nq.toNat + i) 0
    let l := s.launchBytes c e (w 0) (w 1) (w 2) (w 3)
    let regs := l.regionBytes.filterMap parseRegion
    let slot := s.freeSlot (x.queue e)
    x.task = some v → (x.queue e).length < 32 → (isCopy e = true → x.seq.cp ≠ 63) →
    launchReason v e (w 0) (w 1) (w 2) (w 3) l = none → x.unlinked c e (cwChain (w 0)) slot regs = none →
    handedByte c v.handed regs = none →
    s.useFree.xlatRegions c v.fn (s.rootOf v.fn v.wq) [] regs = (r, .ok held) →
    (∀ m ∈ r.metLines c v regs fun g => g.kind.writes, m.state ≠ .pending) → r.cur = s.cur →
    exec (.push q nq) s =
      .next (r.pushed e v (r.newCmd c slot v e (w 0) (w 1) (w 2) (w 3) l regs held) regs nq) := by
  intro c x e w l regs slot hv room counts launch unlinked handed xlat met cur
  have full : (decide (32 ≤ (x.queue e).length) || (isCopy e && x.seq.cp == 63)) = false := by
    cases h : isCopy e
    · simpa using room
    · simpa [counts h] using room
  have pending : (r.metLines c v regs fun g => g.kind.writes).any (fun l => l.state == PState.pending) = false := by
    simpa using met
  have root : s.useFree.rootOf v.fn v.wq = s.rootOf v.fn v.wq := rfl
  simp only [exec, execPush, State.withOperands_fresh fresh, State.task]
  simp only [c, x, e, w, l, regs, slot] at hv full launch unlinked handed xlat pending ⊢
  simp only [hv, full, launch, unlinked, handed, root, xlat, pending, Bool.false_eq_true, if_false, State.pushed, cur]

/-- Settles O26: PUSH's last step enters what `State.newCmd` finds; the translations before it look up alone. -/
theorem pushWord : Obligations.PushWord := by
  intro s r q nq v held fresh c x e w l regs hv room counts launch unlinked handed xlat met
  have looked : Looked s.useFree r := by
    have h := State.xlatRegions_looked c v.fn (s.rootOf v.fn v.wq) regs s.useFree []
    rwa [xlat] at h
  have cur : r.cur = s.cur := Looked.cur (s := s.useFree) looked
  obtain ⟨tlb, core⟩ := looked.cores c
  have run := exec_push fresh hv room counts launch (unlinked _) handed xlat met cur
  obtain ⟨slot, free⟩ := s.freeSlot_free room
  let k := r.newCmd c (s.freeSlot (x.queue e)) v e (w 0) (w 1) (w 2) (w 3) l regs held
  obtain ⟨⟨waits, queues⟩, kept, stepped, others⟩ := r.pushed_spec e v k regs nq
  have next : r.nextPc = s.nextPc := by rw [State.nextPc, State.nextPc, cur]
  have edges : (r.core c).newEdges c e regs = x.newEdges c e regs := by rw [core]; rfl
  have seq : r.seq c = x.seq := Looked.seq (s := s.useFree) looked c
  rw [cur] at queues stepped others
  rw [seq, next] at stepped
  refine ⟨_, { k with waits := waits }, run, ?_, slot, free, rfl, rfl, rfl, rfl, rfl, rfl, rfl, edges, rfl, rfl, kept, stepped,
    others⟩
  rw [queues, core]
  rfl

end Sys2Proof.Machine
end

section
/-! SUPPORT. FENCE (R93, R148): what a fence comes to whose accesses are performed, before its sweep and after, and the
answer of a die. -/

namespace Sys2Proof.Machine

open Sys2Proof Sys2Proof.Safety

/-- A fence sends its sweep at the scopes that reach beyond a die, and only with `.sc`. -/
theorem sweeps_iff {scope : Scope} {sc : Bool} : sweeps scope sc = true ↔ sc = true ∧ (scope = .pkg ∨ scope = .pod) := by
  simp only [sweeps, Bool.and_eq_true, Bool.or_eq_true, beq_iff_eq]

theorem State.seq_stallSeq (s : State) (code : Nat) :
    (s.stallSeq code).seq s.cur.core =
      { s.seq s.cur.core with stall := code, cyc := (s.seq s.cur.core).cyc + 1 } := State.seq_updCore ..

/-- The fence has sent its sweep to the sixteen dies, and waits for their answers. -/
def State.sweepSent (s : State) : State :=
  (s.updSeq s.cur.core fun q => { q with phase := 1, sweep := List.range 16 }).stallSeq 4

theorem State.seq_sweepSent (s : State) :
    s.sweepSent.seq s.cur.core =
      { s.seq s.cur.core with phase := 1, sweep := List.range 16, stall := 4, cyc := (s.seq s.cur.core).cyc + 1 } :=
  (State.seq_stallSeq _ 4).trans (by rw [State.updSeq_cur, State.seq_updSeq])

/-- A fence that begins with its accesses performed sends its sweep or issues. -/
theorem exec_fence_settled {s : State} {scope : Scope} (sc : Bool) (fresh : Fresh s []) (settled : Settled s s.cur.core scope) :
    exec (.fence scope sc) s = .next (if sweeps scope sc then s.sweepSent else s.issue [] 1 none) := by
  simp only [exec, execFence, State.withOperands_fresh fresh, settled_lines settled, settled_performed settled, fresh.1,
    if_true, Bool.not_true, Bool.false_eq_true, if_false, State.sweepSent]

/-- A fence to which every die has answered issues. -/
theorem exec_fence_answered {s : State} {scope : Scope} (sc : Bool) (phase : (s.seq s.cur.core).phase = 1)
    (answered : (s.seq s.cur.core).sweep = []) (settled : Settled s s.cur.core scope) :
    exec (.fence scope sc) s = .next (s.issue [] 1 none) := by
  have later : (s.seq s.cur.core).phase ≠ 0 := by rw [phase]; decide
  simp only [exec, execFence, State.withOperands_later later, settled_lines settled, if_neg later, answered, if_true]

/-- An asked die that has no invalidation on its way to the fencing die may answer. -/
theorem canFenceSweepAnswer_of {s : State} {c d : Nat} (phase : (s.seq c).phase = 1) (asked : d ∈ (s.seq c).sweep)
    (behind : ∀ m ∈ s.invs, ¬ (m.src = d ∧ m.dst = if c = 384 then 0 else c / 24)) :
    canFenceSweepAnswer c d s = true := by
  have clear : (s.invs.any fun m => m.src == d && m.dst == (if c = derailleur then 0 else dieOf c)) = false := by
    rw [List.any_eq_false]
    intro m hm h
    rw [Bool.and_eq_true, beq_iff_eq, beq_iff_eq] at h
    exact behind m hm h
  rw [canFenceSweepAnswer, clear, phase, List.contains_iff_mem.mpr asked]
  rfl

/-- A change of a core's sequencer changes nothing else. -/
theorem OnlySeq.updSeq (s : State) (c : Nat) (f : Machine.Seq → Machine.Seq) : OnlySeq s (s.updSeq c f) c :=
  ⟨⟨_, State.core_updSeq ..⟩, fun _ hk => State.core_updSeq_ne s f hk, ⟨fun _ => rfl, rfl, rfl, rfl⟩,
    ⟨rfl, rfl, rfl, rfl, ⟨rfl, rfl, rfl⟩, ⟨rfl, rfl⟩, ⟨rfl, rfl, rfl⟩, ⟨rfl, rfl⟩, ⟨rfl, rfl⟩, rfl⟩⟩

/-- Settles O14: a settled fence's word is one of the two that `exec_fence_settled` names; an answer filters the list of
dies. -/
theorem fenceWords : Obligations.FenceWords := by
  refine ⟨fun s scope sc fresh settled => ⟨fun still => ?issues, fun hsc wide => ?sweeps⟩,
    fun s scope sc phase answered settled => ?answered, fun s c d phase asked behind => ?answer⟩
  case issues =>
    refine ⟨_, exec_fence_settled sc fresh settled, ?_⟩
    rw [if_neg (mt sweeps_iff.mp still)]
    exact s.retired_issue [] none
  case sweeps =>
    refine ⟨_, exec_fence_settled sc fresh settled, ?_⟩
    rw [if_pos (sweeps_iff.mpr ⟨hsc, wide⟩), State.seq_sweepSent]
    exact ⟨rfl, rfl, rfl, rfl⟩
  case answered => exact ⟨_, exec_fence_answered sc phase answered settled, s.retired_issue [] none⟩
  case answer =>
    have run : exec (.fenceSweepAnswer c d) s =
        .next (s.updSeq c fun q => { q with sweep := q.sweep.filter (· != d) }) := by
      simp only [exec, execFenceSweepAnswer, canFenceSweepAnswer_of phase asked behind, if_true]
    refine ⟨_, run, OnlySeq.updSeq .., ?_⟩
    rw [State.seq_updSeq]
    exact ⟨rfl, by simp⟩

end Sys2Proof.Machine
end

section
/-! SUPPORT. The sequencer's integer words (R133, R134): each is `State.alu1` or `State.alu2` with the function that the
model computes, and that function is R133's. -/

namespace Sys2Proof.Machine

open Sys2Proof Sys2Proof.Safety

/-! ## Integer words -/

/-- A word of one cycle with two operands retires with its result. -/
theorem State.alu2_retired {s : State} {a b : Src} (fresh : Fresh s [a, b]) (d : Dest) (f : Dbl → Dbl → Dbl) :
    Retired s (s.alu2 a b d 1 f) 1 [a, b] (some (f (operand s a) (operand s b), d)) s.nextPc id := by
  rw [State.alu2, State.withOperands_fresh fresh, State.opd_eq_operand, State.opd_eq_operand]
  exact s.retired_issue ..

/-- A word with one operand retires with its result. -/
theorem State.alu1_retired {s : State} {a : Src} (fresh : Fresh s [a]) (d : Dest) (f : Dbl → Dbl) :
    Retired s (s.alu1 a d f) 1 [a] (some (f (operand s a), d)) s.nextPc id := by
  rw [State.alu1, State.withOperands_fresh fresh, State.opd_eq_operand]
  exact s.retired_issue ..

/-- The function that the model computes for an operation. -/
def aluOf (o : IntOp) (t : IntTy) (x y : Dbl) : Dbl :=
  match o with
  | .add => aluAdd t x y
  | .sub => aluSub t x y
  | .and => aluAnd t x y
  | .or => aluOr t x y
  | .xor => aluXor t x y
  | .andn => aluAndn t x y
  | .shl => aluShl t x y.toNat
  | .shr => aluShr t x y.toNat
  | .sar => aluSar t x y.toNat
  | .rol => aluRol t x y.toNat
  | .min => aluMin t x y
  | .max => aluMax t x y
  | .mul => aluMul t x y
  | .mulh => aluMulh t x y
  | .div => aluDiv t x y
  | .rem => aluRem t x y

/-- The cycles that an operation occupies its sequencer (R125). -/
def aluClk (o : IntOp) (t : IntTy) : Nat :=
  match o with
  | .mul | .mulh => 3
  | .div | .rem => divClk t
  | _ => 1

theorem aluOf_eq (o : IntOp) (t : IntTy) (x y : Dbl) : aluOf o t x y = intValue t o.result x y := by
  cases o with
  | add => exact aluAdd_eq t x y
  | sub => exact aluSub_eq t x y
  | and => exact aluAnd_eq t x y
  | or => exact aluOr_eq t x y
  | xor => exact aluXor_eq t x y
  | andn => exact aluAndn_eq t x y
  | shl => exact aluShl_eq t x y
  | shr => exact aluShr_eq t x y
  | sar => exact aluSar_eq t x y
  | rol => exact aluRol_eq t x y
  | min => exact aluMin_eq t x y
  | max => exact aluMax_eq t x y
  | mul => exact aluMul_eq t x y
  | mulh => exact aluMulh_eq t x y
  | div => exact aluDiv_eq t x y
  | rem => exact aluRem_eq t x y

/-- Every integer word with two operands is `State.alu2` with its operation and its cycles. -/
theorem exec_intOp (s : State) (o : IntOp) (a b : Src) (d : Dest) (t : IntTy) :
    exec (o.word a b d t) s = .next (s.alu2 a b d (aluClk o t) (aluOf o t)) := by
  cases o <;> rfl

/-- Settles O1. -/
theorem shortIntegerWords : Obligations.ShortIntegerWords := by
  intro s o a b d ty short fresh
  have clk : aluClk o ty = 1 := by
    cases o with
    | mul | mulh | div | rem => cases short
    | _ => rfl
  refine ⟨_, exec_intOp .., ?_⟩
  rw [clk, ← aluOf_eq]
  exact State.alu2_retired fresh ..

/-- A word of several cycles has written nothing as it issues. -/
theorem State.issueAt_occupies (s : State) (marks : List Src) (n : Nat) (res : Option (Dbl × Dest)) (pc : Dbl) :
    ((s.issueAt marks (n + 2) res pc).seq s.cur.core).occ = n + 1
      ∧ ((s.issueAt marks (n + 2) res pc).seq s.cur.core).belt = (s.seq s.cur.core).belt
      ∧ ((s.issueAt marks (n + 2) res pc).seq s.cur.core).named = (s.seq s.cur.core).named := by
  obtain ⟨tk, fl, m, shape, -⟩ :=
    (s.core s.cur.core).issue_shape s.nextId s.cur.chain marks (n + 2) res true pc s.nextPc
  simp only [State.issueAt, State.useId_seq, State.seq_updCore, shape]
  exact ⟨rfl, rfl, rfl⟩

/-- Settles O2: the cycles are those of R125, and the rest follows from `State.retired_issueAt`. -/
theorem longIntegerWords : Obligations.LongIntegerWords := by
  intro s o a b d ty long fresh
  have several : 2 ≤ aluClk o ty := by
    cases o with
    | mul | mulh => exact Nat.le_succ 2
    | div | rem => cases ty <;> decide
    | _ => cases long
  obtain ⟨n, clk⟩ := Nat.exists_eq_add_of_le' several
  have run : s.alu2 a b d (n + 2) (aluOf o ty) =
      s.issueAt [a, b] (n + 2) (some (intValue ty o.result (operand s a) (operand s b), d)) s.nextPc := by
    rw [State.alu2, State.withOperands_fresh fresh, State.opd_eq_operand, State.opd_eq_operand, aluOf_eq]
    rfl
  obtain ⟨occ, belt, named⟩ := s.issueAt_occupies [a, b] n
    (some (intValue ty o.result (operand s a) (operand s b), d)) s.nextPc
  refine ⟨_, n + 1, by rw [exec_intOp, clk, run], clk.symm.trans ?_, occ, belt, named, s.retired_issueAt ..⟩
  cases o with
  | mul | mulh => rfl
  | div | rem => cases ty <;> rfl
  | _ => cases long

/-! ## Words with one operand -/

/-- The function that the model computes for a word with one operand. -/
def unaryOf (o : UnOp) (t : IntTy) (x : Dbl) : Dbl :=
  match o with
  | .neg => aluNeg t x
  | .clz => aluClz t x
  | .ctz => aluCtz t x
  | .popc => aluPopc t x
  | .mov => tyOut t x

theorem unaryOf_eq (o : UnOp) (t : IntTy) (x : Dbl) : unaryOf o t x = unValue t o.result x := by
  cases o with
  | neg => exact aluNeg_eq t x
  | clz => exact aluClz_eq t x
  | ctz => exact aluCtz_eq t x
  | popc => exact aluPopc_eq t x
  | mov => exact aluMov_eq t x

/-- Every integer word with one operand is `State.alu1` with its function. -/
theorem exec_unOp (s : State) (o : UnOp) (a : Src) (d : Dest) (t : IntTy) :
    exec (o.word a d t) s = .next (s.alu1 a d (unaryOf o t)) := by
  cases o <;> rfl

/-- Settles O3. -/
theorem oneOperandWords : Obligations.OneOperandWords := by
  intro s o a d ty fresh
  refine ⟨_, exec_unOp .., ?_⟩
  rw [← unaryOf_eq]
  exact State.alu1_retired fresh ..

/-! ## Immediates, comparisons and fields -/

/-- Settles O4: an immediate is a number of 64 bits, and an amount of 6 bits shifts like an operand that holds it. -/
theorem immediateWords : Obligations.ImmediateWords := by
  intro s a d i j ty n fresh done x
  have one {i : Instr} {f : Dbl → Dbl} {v : Dbl} (run : exec i s = .next (s.alu1 a d f)) (value : f x = v) : done i v :=
    ⟨_, run, value ▸ State.alu1_retired fresh d f⟩
  have amount : (n.setWidth 64).toNat = n.toNat := by
    rw [BitVec.toNat_setWidth]
    exact Nat.mod_eq_of_lt (by omega)
  refine ⟨one rfl (imm_add x i), one rfl rfl, one rfl rfl, one rfl rfl, one rfl ?shl, one rfl ?shr, one rfl ?sar, ?li⟩
  case shl => rw [← aluShl_eq, amount]
  case shr => rw [← aluShr_eq, amount]
  case sar => rw [← aluSar_eq, amount]
  case li =>
    have li : Fresh s [] := ⟨fresh.1, fresh.2.1, rfl⟩
    exact ⟨_, rfl, by rw [State.withOperands_fresh li]; exact s.retired_issue ..⟩

/-- Settles O5. -/
theorem compareSelectFields : Obligations.CompareSelectFields := by
  refine ⟨fun s a b d c fresh => ?cmp, fun s c a b d fresh => ?sel, fun s a d sgn pos len fresh => ?extb,
    fun s a b d pos len fresh => ?insb⟩
  case cmp =>
    refine ⟨_, _, rfl, State.alu2_retired fresh .., fun holds => ?_, fun fails => ?_⟩
    · exact if_pos ((condHolds_iff ..).mpr holds)
    · exact if_neg (mt (condHolds_iff ..).mp fails)
  case sel =>
    refine ⟨_, if operand s c != 0 then operand s a else operand s b, rfl, ?_, fun h => ?_, fun h => ?_⟩
    · rw [State.withOperands_fresh fresh, State.opd_eq_operand, State.opd_eq_operand, State.opd_eq_operand]
      exact s.retired_issue ..
    · exact if_pos (bne_iff_ne.mpr h)
    · exact if_neg (by simp [h])
  case extb =>
    refine ⟨_, rfl, ?_⟩
    rw [← extractBits_eq _ _ _ _ len.isLt]
    exact State.alu1_retired fresh ..
  case insb =>
    exact ⟨_, _, rfl, State.alu2_retired fresh .., fun i hi => insertBits_bit _ _ _ _ i hi len.isLt⟩

end Sys2Proof.Machine
end

section
/-! SUPPORT. IDX, CSRR and CSRW (R123, R124, R135, R136): the value of every special register that has one, and what a
write of one changes. -/

namespace Sys2Proof.Machine

open Sys2Proof Sys2Proof.Safety

/-! ## IDX (R135) -/

/-- An element number and an immediate are added as numbers. -/
theorem dbl_add_imm (n : Nat) {w : Nat} (i : Imm w) : dbl n + immDbl i = BitVec.ofInt 64 ((n : Int) + i.int) := by
  rw [BitVec.ofInt_add, BitVec.ofInt_natCast]
  rfl

/-- IDX of an active level issues with its element number. -/
theorem exec_idx {s : State} {lv : BitVec 2} {l : LoopLevel} (fresh : Fresh s [])
    (level : (s.seq s.cur.core).loops[lv.toNat]? = some l) (d : Dest) (i : Imm 15) :
    exec (.idx lv d i) s = .next (s.issue [] 1 (some (BitVec.ofInt 64 ((l.base : Int) + l.iter + i.int), d))) := by
  simp only [exec, execIdx, State.withOperands_fresh fresh, level, dbl_add_imm, Nat.cast_add]

/-! ## CSRR (R123, R124) -/

theorem csrVarying_iff (n : Nat) : csrVarying n = true ↔ varying n := by
  simp [csrVarying, varying, or_assoc]

theorem State.leaseReg_eq (s : State) {c : Nat} (h : c < 384) : dbl (s.leaseReg c) = leaseValue s c := by
  rw [State.leaseReg, leaseValue]
  by_cases held : (s.quad (quadOf c)).leaseHolder = some c
  · rw [if_pos ⟨h, held⟩, if_pos (show (s.quad (c / 4)).leaseHolder = some c from held)]
    cases (s.core c).mat.formed <;> rfl
  · rw [if_neg fun p => held p.2, if_neg (show (s.quad (c / 4)).leaseHolder ≠ some c from held)]
    rfl

/-- The model's value of a special register is the one that R123 gives, where it gives one. -/
theorem State.csr_eq {s : State} {c n : Nat} {v : Dbl} (h : specialValue s c n = some v) : s.csr c n = v := by
  have own {f : Task → Nat} {x : Nat} {free : Dbl}
      (e : (if c < 384 then (s.core c).task.map fun t => BitVec.ofNat 64 (f t) else none) = some v)
      (k : ∀ t, (s.core c).task = some t → x = f t) : (if c = derailleur then free else dbl x) = v := by
    split at e
    · rename_i core
      cases task : (s.core c).task with
      | none => rw [task] at e; cases e
      | some t =>
        rw [task] at e
        rw [if_neg (show c ≠ derailleur from Nat.ne_of_lt core), k t task]
        exact Option.some.inj e
    · cases e
  have value {x : Dbl} (e : some x = some v) : x = v := Option.some.inj e
  simp only [specialValue] at h
  split at h
  case h_2 => exact own h fun t e => by rw [e]; rfl
  case h_3 | h_4 | h_5 => exact own h fun t e => rfl
  case h_7 => exact own h fun t e => by rw [e]; rfl
  case h_8 =>
    split at h
    · rename_i core
      exact (s.leaseReg_eq core).trans (value h)
    · cases h
  case h_11 =>
    rw [← value h]
    simp only [State.csr, Seq.xstat]
    cases (s.seq c).th <;> rfl
  case h_19 =>
    split at h
    · simp only [State.csr]
      exact value h
    · cases h
  all_goals exact value h

/-- CSRR issues with the register's value; a free value may have been used for it. -/
theorem exec_csrr {s : State} {n : BitVec 10} {v : Dbl} (fresh : Fresh s [])
    (ordinary : varying n.toNat → Ordinary s s.cur.core) (h : specialValue s s.cur.core n.toNat = some v) (d : Dest) :
    exec (.csrr n d) s = .next (s.useFree.issue [] 1 (some (v, d))) := by
  simp only [exec, execCsrr, State.withOperands_fresh fresh, State.csr_eq h]
  split
  · rename_i varies
    rw [State.impure_ordinary (ordinary ((csrVarying_iff _).mp varies)), State.csr_eq h]
  · rfl

/-! ## CSRW (R136) -/

/-- A read-write register is written as R123 says. -/
theorem Seq.setCsr_eq (q : Machine.Seq) {n : Nat} (v : Dbl) (h : n = 0x010 ∨ n = 0x011 ∨ (0x020 ≤ n ∧ n ≤ 0x02F)) :
    q.setCsr n v = specialSet q n v := by
  rcases h with rfl | rfl | ⟨low, high⟩
  · rfl
  · rfl
  · have tvec : n ≠ 0x010 := by omega
    have xpc : n ≠ 0x011 := by omega
    simp only [Seq.setCsr, specialSet, tvec, xpc, low, high, and_self, if_true, if_false]

/-- A write of a special register touches nothing that the word's issue writes. -/
theorem Tame.specialSet (n : Nat) (v : Dbl) : Tame fun x => { x with seq := Safety.specialSet x.seq n v } := by
  refine ⟨fun x => ?_, fun x y h k => ⟨?_, ⟨k.queues, k.copy, k.vec, k.mat, k.monitors, k.freezes, k.tlb, k.rows, k.epochs,
    k.resid, k.task⟩⟩⟩
  · simp only [Safety.specialSet]
    repeat' split
    all_goals exact ⟨rfl, rfl, rfl, rfl, rfl, rfl, rfl, rfl⟩
  · simp only [Safety.specialSet]
    split
    · exact ⟨h.shadow, ⟨h.handler.1, rfl, h.handler.2.2⟩, h.saved, h.loops, h.counts, h.flight⟩
    · split
      · exact ⟨h.shadow, h.handler, ⟨rfl, h.saved.2⟩, h.loops, h.counts, h.flight⟩
      · split
        · exact ⟨congrArg (List.set · _ _) h.shadow, h.handler, h.saved, h.loops, h.counts, h.flight⟩
        · exact h

/-- CSRW of a read-write register issues and writes it. -/
theorem exec_csrw {s : State} {n : BitVec 10} {a : Src} (fresh : Fresh s [a])
    (code : n.toNat = 0x010 → operand s a = 0 ∨ s.inCode s.cur.core (operand s a) = true)
    (writable : n.toNat = 0x010 ∨ n.toNat = 0x011 ∨ (0x020 ≤ n.toNat ∧ n.toNat ≤ 0x02F)) :
    exec (.csrw n a) s =
      .next ((s.issue [a] 1 none).updSeq s.cur.core fun q => specialSet q n.toNat (operand s a)) := by
  have valid : ¬ (n.toNat = 0x010 ∧ operand s a ≠ 0 ∧ (!s.inCode s.cur.core (operand s a)) = true) := by
    rintro ⟨tvec, nonzero, outside⟩
    rcases code tvec with h | h
    · exact nonzero h
    · rw [h] at outside; cases outside
  simp only [exec, execCsrw, State.withOperands_fresh fresh, State.opd_eq_operand, if_neg valid,
    Seq.setCsr_eq _ _ writable]

/-- Settles O6. -/
theorem specialRegisterWords : Obligations.SpecialRegisterWords := by
  refine ⟨fun s lv d i l fresh level => ⟨_, exec_idx fresh level d i, s.retired_issue ..⟩,
    fun s n d v fresh ordinary value => ⟨_, exec_csrr fresh ordinary value d, ?_⟩,
    fun s n a fresh code writable => ⟨_, exec_csrw fresh code writable, ?_⟩⟩
  · exact (s.useFree.retired_issue [] (some (v, d))).of_counters ⟨_, _, rfl⟩
  · exact (s.retired_issue [a] none).change (Tame.specialSet n.toNat (operand s a))

end Sys2Proof.Machine
end

section
/-! SUPPORT. Words that change the course of a program: branches, calls and returns (R140, R141, R144), counted loops (R142,
R143, R145), NOP and WAIT (R52, R147). -/

namespace Sys2Proof.Machine

open Sys2Proof Sys2Proof.Safety

/-! ## NOP and WAIT -/

/-- Settles O13. -/
theorem nopAndWait : Obligations.NopAndWait := by
  refine fun s fresh => ⟨⟨_, rfl, ?nop⟩, fun ldb stb cpb mtb => ⟨fun met => ?goes, fun short => ?stalls⟩⟩
  case nop => rw [State.withOperands_fresh fresh]; exact s.retired_issue ..
  case goes =>
    refine ⟨_, rfl, ?_⟩
    rw [State.withOperands_fresh fresh, if_pos met]
    exact s.retired_issue ..
  case stalls =>
    refine ⟨_, rfl, ?_⟩
    rw [State.withOperands_fresh fresh, if_neg short]
    have stalled := Stalled.stallSeq s 3
    exact ⟨stalled.code, stalled.pc, stalled.tokens⟩

/-! ## Branches -/

/-- A branch to a target inside the code area leaves the levels that R144 says. -/
theorem State.retired_branch (s : State) (marks : List Src) {dst : Dbl} (inside : s.inCode s.cur.core dst = true) :
    Retired s (after s.cur.core 1 (s.transfer marks none dst fun q => q.branchOut dst q.loops)) 2 marks none dst
      (withLoops (left dst) id) :=
  s.retired_transfer marks none dst _ (left dst) id inside fun q => q.branchOut_eq dst q.loops rfl

/-- Settles O7. -/
theorem branchWords : Obligations.BranchWords := by
  refine ⟨fun s off fresh inside => ⟨_, rfl, ?b⟩,
    fun s a b c off fresh => ⟨fun holds inside => ⟨_, rfl, ?taken⟩, fun fails => ⟨_, rfl, ?falls⟩⟩,
    fun s a off fresh inside => ⟨_, rfl, ?jmp⟩, fun s d off fresh depth inside => ⟨_, rfl, ?call⟩,
    fun s a fresh inside => ⟨_, rfl, ?ret⟩⟩
  case b =>
    rw [State.withOperands_fresh fresh, imm_times4]
    exact s.retired_branch [] inside
  case taken =>
    simp only [State.withOperands_fresh fresh, State.opd_eq_operand, imm_times4, (condHolds_iff ..).mpr holds, if_true]
    exact s.retired_branch [a, b] inside
  case falls =>
    simp only [State.withOperands_fresh fresh, State.opd_eq_operand, if_neg (mt (condHolds_iff ..).mp fails)]
    exact s.retired_issue ..
  case jmp =>
    simp only [State.withOperands_fresh fresh, State.opd_eq_operand, imm_times4]
    exact s.retired_branch [a] inside
  case call =>
    simp only [State.withOperands_fresh fresh, if_neg depth, imm_times4]
    exact s.retired_transfer [] _ _ _ (fun l _ _ => l) (· + 1) inside fun q => rfl
  case ret =>
    simp only [State.withOperands_fresh fresh, State.opd_eq_operand]
    exact s.retired_transfer [a] _ _ _ (fun l _ _ => l) (· - 1) inside fun q => rfl

/-! ## LOOP -/

section
variable {s r : State} {n : Src} {stg : BitVec 3} {plen : BitVec 6} {blen : Imm 7} {w : Word}

/-- A LOOP that finds its LEND skips the loop, pushes a level, or traps, by its count and the levels there are. -/
theorem exec_loop (fresh : Fresh s [n]) :
    let body := s.nextPc + BitVec.ofNat 64 (4 * plen.toNat)
    let last := body + BitVec.ofNat 64 (4 * blen.nat)
    let epl := (fld w 16 6).toNat
    let count := (operand s n).toNat
    s.inCode s.cur.core last = true → s.fetchWord s.cur.core last = (r, .ok w) → major w = 0x2D#6 → count < 2 ^ 32 →
    exec (.loop n stg plen blen) s = .next (
      if count = 0 then
        (r.issueAt [n] 2 none (last + BitVec.ofNat 64 (4 + 4 * epl))).updSeq s.cur.core fun q => { q with fell := true }
      else if count < stg.toNat + 1 then r.trap 0x05 r.cur.addr 4
      else if (r.seq s.cur.core).loops.length = 4 then r.trap 0x05 r.cur.addr 2
      else (r.issueAt [n] 1 none s.nextPc).updSeq s.cur.core fun q =>
        { q with loops := ⟨s.nextPc, body, last, epl, stg.toNat + 1, plen.toNat, 0, 0, count - (stg.toNat + 1) + 1, q.cd, q.th,
            false, false, false⟩ :: q.loops }) := by
  intro body last epl count inside fetch lend small
  have fits : ¬ 0xFFFFFFFF < (operand s n).toNat := by omega
  simp only [body, last] at inside fetch
  simp only [exec, execLoop, State.withOperands_fresh fresh, State.opd_eq_operand, if_neg fits, dbl, inside, fetch, lend,
    Bool.not_true, Bool.false_eq_true, if_false, ne_eq, not_true_eq_false, body, last, epl, count]

/-- Settles O8. -/
theorem loopWord : Obligations.LoopWord := by
  intro s r n stg plen blen w fresh body last epl inside fetch lend
  have looked : LookedRead s r := by
    have h := s.fetchWord_looked s.cur.core last
    rwa [fetch] at h
  have cur : r.cur = s.cur := Looked.cur looked.toLooked
  have run := exec_loop (stg := stg) fresh inside fetch lend
  refine ⟨looked, fun none => ?skips, fun enough small room => ?pushes⟩
  case skips =>
    have count : (operand s n).toNat = 0 := by rw [none]; rfl
    refine ⟨_, (run (by omega)).trans (by rw [if_pos count]), ?_⟩
    have loops := r.retired_loops [n] 1 Option.none (last + BitVec.ofNat 64 (4 + 4 * epl)) (fun l _ _ => l) id fun _ => true
    rw [cur] at loops
    exact loops
  case pushes =>
    have depth : (r.seq s.cur.core).loops.length ≠ 4 := by
      rw [Looked.seq looked.toLooked]
      exact Nat.ne_of_lt room
    have limit : (operand s n).toNat - (stg.toNat + 1) + 1 = (operand s n).toNat - stg.toNat := by omega
    refine ⟨_, (run small).trans (by rw [if_neg (by omega), if_neg (by omega), if_neg depth, limit]), ?_⟩
    have loops := r.retired_loops [n] 0 Option.none s.nextPc (fun l cd th =>
      ⟨s.nextPc, body, last, epl, stg.toNat + 1, plen.toNat, 0, 0, (operand s n).toNat - stg.toNat, cd, th,
        false, false, false⟩ :: l) id id
    rw [cur] at loops
    exact loops

end

/-! ## LEND -/

/-- LEND at the end of the innermost level, with its epilogue's length: the body runs again, or the word falls through,
into the epilogue or past the level. -/
theorem exec_lend {s : State} {epl : BitVec 6} {l : LoopLevel} {rest : List LoopLevel} (fresh : Fresh s [])
    (loops : (s.seq s.cur.core).loops = l :: rest) (addr : s.cur.addr = l.last) (len : epl.toNat = l.epl) :
    exec (.lend epl) s = .next (
      if l.iterate.2 then
        (s.issueAt [] 1 none l.body).updSeq s.cur.core fun q => { q with loops := l.iterate.1 :: rest, fell := false }
      else (s.issue [] 1 none).updSeq s.cur.core fun q =>
        let q := { q with loops := l.iterate.1 :: rest }
        if l.epl = 0 then q.endEpilogue l.iterate.1 rest else q) := by
  have there : ¬ (s.cur.addr ≠ l.last ∨ epl.toNat ≠ l.epl) := by simp [addr, len]
  simp only [exec, execLend, State.withOperands_fresh fresh, loops, if_neg there]

/-- While elements remain the body runs again, unless a clamped level can be left. -/
theorem LoopLevel.iterate_again {l : LoopLevel} (more : l.iter + 1 < l.limit)
    (out : ¬ (l.clamp = true ∧ l.stages ≤ l.limit - (l.iter + 1))) :
    l.iterate = ({ l with iter := l.iter + 1 }, true) := by
  have leave : (l.clamp && decide (l.stages ≤ l.limit - (l.iter + 1))) = false := by simpa using out
  simp only [LoopLevel.iterate, more, decide_true, Bool.true_and, leave, Bool.not_false, Bool.not_true, Bool.or_false]

/-- When no elements remain the level goes on to its epilogue. -/
theorem LoopLevel.iterate_over {l : LoopLevel} (more : ¬ l.iter + 1 < l.limit) :
    l.iterate = ({ l with iter := l.iter + 1, epi := true }, false) := by
  simp only [LoopLevel.iterate, more, decide_false, Bool.false_and, Bool.not_false, Bool.or_true, Bool.or_false]

/-- A clamped level with S elements left goes on to its epilogue to drain. -/
theorem LoopLevel.iterate_leaves {l : LoopLevel} (more : l.iter + 1 < l.limit) (clamp : l.clamp = true)
    (enough : l.stages ≤ l.limit - (l.iter + 1)) :
    l.iterate = ({ l with iter := l.iter + 1, epi := true, dexit := true }, false) := by
  simp only [LoopLevel.iterate, more, clamp, enough, decide_true, Bool.and_self, Bool.not_true, Bool.and_false, Bool.not_false,
    Bool.or_true]

/-- The level as LEND rewrites it when it ends by a drain stop (R145). -/
theorem LoopLevel.drained_iterate {l : LoopLevel} (more : l.iter + 1 < l.limit) (enough : l.stages ≤ l.limit - (l.iter + 1)) :
    ({ l with iter := l.iter + 1, epi := true, dexit := true } : LoopLevel).drained =
      { l with base := l.base + (l.iter + 1) + l.stages - 1, limit := l.limit - (l.iter + 1) - l.stages + 1, iter := 0,
               clamp := false, epi := false, dexit := false } := by
  have base : l.base + (l.iter + 1 + l.stages - 1) = l.base + (l.iter + 1) + l.stages - 1 := by omega
  have limit : l.limit + 1 - (l.iter + 1) - l.stages = l.limit - (l.iter + 1) - l.stages + 1 := by omega
  simp only [LoopLevel.drained, base, limit]

/-- A word that goes on at `pc` and leaves the loop stack as said. -/
theorem State.retired_setLoops (s : State) (pc : Dbl) (l : List LoopLevel) (b : Bool → Bool) :
    Retired s ((s.issueAt [] 1 none pc).updSeq s.cur.core fun q => { q with loops := l, fell := b q.fell }) 1 [] none pc
      (withLoops (fun _ _ _ => l) id) :=
  s.retired_loops [] 0 none pc (fun _ _ _ => l) id b

/-- Settles O9. -/
theorem lendWord : Obligations.LendWord := by
  intro s epl l rest fresh loops addr len epi dexit more out
  have run := exec_lend fresh loops addr len
  refine ⟨fun m o => ?again, fun m e => ?epilogue, fun m e => ?ends, fun m ⟨clamp, enough⟩ e => ?clamped,
    fun m ⟨clamp, enough⟩ e => ?drained⟩
  case again =>
    rw [LoopLevel.iterate_again m o, if_pos rfl] at run
    exact ⟨_, run, s.retired_setLoops _ _ fun _ => false⟩
  case epilogue =>
    rw [LoopLevel.iterate_over m, if_neg Bool.false_ne_true, funext fun q => if_neg e] at run
    exact ⟨_, run, s.retired_setLoops _ _ id⟩
  case ends =>
    rw [LoopLevel.iterate_over m, if_neg Bool.false_ne_true] at run
    simp only [if_pos e, Seq.endEpilogue, dexit, Bool.false_eq_true, if_false] at run
    exact ⟨_, run, s.retired_setLoops _ _ id⟩
  case clamped =>
    rw [LoopLevel.iterate_leaves m clamp enough, if_neg Bool.false_ne_true] at run
    simp only [if_neg e] at run
    exact ⟨_, run, s.retired_setLoops _ _ id⟩
  case drained =>
    rw [LoopLevel.iterate_leaves m clamp enough, if_neg Bool.false_ne_true] at run
    simp only [if_pos e, Seq.endEpilogue, if_true, LoopLevel.drained_iterate m enough] at run
    have left := Retired.redirect (s.retired_setLoops s.nextPc ({ l with
      base := l.base + (l.iter + 1) + l.stages - 1, limit := l.limit - (l.iter + 1) - l.stages + 1, iter := 0,
      clamp := false, epi := false, dexit := false } :: rest) id) l.start false true
    rw [State.updSeq_updSeq] at left
    refine ⟨_, run, ?_, left⟩
    rw [State.seq_updSeq]

end Sys2Proof.Machine
end

section
/-! SUPPORT. Traps (R152 to R155): a trap that enters its handler, one that parks the work queue of the core's task or halts
the Derailleur, and the return from a handler. -/

namespace Sys2Proof.Machine

open Sys2Proof Sys2Proof.Safety

/-! ## The handler is entered (R153) -/

theorem EnginesKept.refl (x : Core) : EnginesKept x x :=
  ⟨rfl, rfl, rfl, rfl, ⟨rfl, rfl⟩, rfl, rfl, ⟨rfl, rfl, rfl⟩, ⟨rfl, rfl, rfl⟩, fun _ => rfl, rfl⟩

/-- The trap that the current word takes with a cause other than Machine check. -/
def State.ownTrap (s : State) (cause : Nat) (addr info : Dbl) : PendTrap :=
  ⟨cause, addr, info, s.cur.addr, s.nextPc, s.cur.word, s.cur.ext1⟩

/-- A trap is taken at once where no load is in the landing buffer, the word perhaps issued. -/
theorem State.trap_taken {s u : State} (cur : u.cur = s.cur) (landing : (u.seq s.cur.core).landing = []) (cause : Nat)
    (addr info : Dbl) (other : cause ≠ 0x20) :
    u.trap cause addr info = u.takeTrap s.cur.core (s.ownTrap cause addr info) := by
  rw [← cur] at landing
  rw [State.trap_now u cause addr info landing other, cur]
  rfl

/-- A word that traps before it issues enters the handler with xpc at itself. -/
theorem Entered.of_unissued (s : State) {cause : Nat} (addr info : Dbl) (before : cause ≠ 0x06) :
    Entered s (s.updSeq s.cur.core fun q => q.enter (s.ownTrap cause addr info)) cause addr info s.cur.addr := by
  have core : (s.updSeq s.cur.core fun q => q.enter (s.ownTrap cause addr info)).core s.cur.core =
      { s.core s.cur.core with seq := (s.seq s.cur.core).enter (s.ownTrap cause addr info) } := State.core_updSeq ..
  have kept := EnginesKept.refl (s.core s.cur.core)
  have only := OnlySeq.updSeq s s.cur.core fun q => q.enter (s.ownTrap cause addr info)
  constructor
  case xpc => rw [State.seq_updSeq]; exact if_neg before
  case engines =>
    rw [core]
    exact ⟨kept.1, kept.2, kept.3, kept.4, kept.5, kept.6, kept.7, kept.8, kept.9, kept.10, kept.11⟩
  case others => exact only.others
  case memory => exact only.memory
  case outside => exact only.outside
  all_goals
    rw [State.seq_updSeq]
    trivial

/-- Settles O10: TRAP traps once it is complete, an illegal instruction in place of issuing. -/
theorem trapEntry : Obligations.TrapEntry := by
  intro s tvec th landing
  refine ⟨fun code fresh => ?trap, fun w => ⟨_, rfl, ?illegal⟩⟩
  case trap =>
    have issued := s.retired_issue [] none
    have specials := issued.specials
    refine ⟨(s.issue [] 1 none).trap 0x06 s.cur.addr (code.setWidth 64), ?_, ?_⟩
    · simp only [exec, execTrap, State.withOperands_fresh fresh]
    · rw [State.trap_taken (s := s) (u := s.issue [] 1 none) rfl (specials.flight.1.trans landing) _ _ _ (by decide),
        State.takeTrap_handler _ _ _ rfl
        (fun h => tvec (specials.handler.2.1.symm.trans h)) (specials.handler.1.trans th)]
      exact Entered.of_retired issued (s.ownTrap 0x06 s.cur.addr (code.setWidth 64)) rfl rfl rfl rfl
  case illegal =>
    rw [State.trap_taken rfl landing _ _ _ (by decide), State.takeTrap_handler _ _ _ rfl tvec th]
    exact Entered.of_unissued s s.cur.addr 0 (by decide)

/-! ## The work queue parks (R155, R356, R358) -/

/-- What a park and its record take from a state: the current word, its sequencer's registers, the task by name, the work
queues and memory are as they were. -/
structure ParksAlike (s u : State) : Prop where
  cur : u.cur = s.cur
  registers : (u.seq s.cur.core).belt = (s.seq s.cur.core).belt ∧ (u.seq s.cur.core).named = (s.seq s.cur.core).named
  specials : SpecialsKept (s.seq s.cur.core) (u.seq s.cur.core)
  task : ((u.core s.cur.core).task.map fun t => { t with wd := 0 }) = (s.core s.cur.core).task.map fun t => { t with wd := 0 }
  fns : u.fns = s.fns
  memory : MemoryKept s u

theorem ParksAlike.refl (s : State) : ParksAlike s s :=
  ⟨rfl, ⟨rfl, rfl⟩, ⟨rfl, ⟨rfl, rfl, rfl⟩, ⟨rfl, rfl, rfl, rfl, rfl⟩, ⟨rfl, rfl⟩, ⟨rfl, rfl, rfl, rfl⟩, ⟨rfl, rfl, rfl⟩⟩,
    rfl, rfl, ⟨fun _ => rfl, rfl, rfl, rfl⟩⟩

/-- A word that issued without a result parks as one that did not. -/
theorem ParksAlike.of_retired {s u : State} {clk : Nat} {pc : Dbl} (h : Retired s u clk [] none pc id) : ParksAlike s u :=
  ⟨h.outside.cur, ⟨h.wrote.belt, h.wrote.named⟩, h.specials, h.engines.task, h.outside.fns, h.memory⟩

/-- The task of a core that differs in its watchdog's count at most. -/
theorem ParksAlike.task_eq {s u : State} (h : ParksAlike s u) {k : Task} (task : (s.core s.cur.core).task = some k) :
    ∃ v, (u.core s.cur.core).task = some v ∧ v.fn = k.fn ∧ v.wq = k.wq ∧ v.rseq = k.rseq ∧ v.tseq = k.tseq := by
  have e := h.task
  rw [task] at e
  cases v : (u.core s.cur.core).task with
  | none => rw [v] at e; cases e
  | some w =>
    rw [v] at e
    have same : { w with wd := 0 } = { k with wd := 0 } := Option.some.inj e
    have field {α : Type} (f : Task → α) : f { w with wd := 0 } = f { k with wd := 0 } := congrArg f same
    exact ⟨w, rfl, field Task.fn, field Task.wq, field Task.rseq, field Task.tseq⟩

/-- A park leaves sequencers and memory as they were. -/
theorem State.park_kept (s : State) (c cause unit : Nat) (double : Bool) (urec : List Dbl) (svc : Option Dest) :
    (∀ k, (s.park c cause unit double urec svc).seq k = s.seq k) ∧ MemoryKept s (s.park c cause unit double urec svc) := by
  cases h : (s.core c).task with
  | none =>
    have e : s.park c cause unit double urec svc = s := by simp only [State.park, h]
    rw [e]
    exact ⟨fun _ => rfl, (ParksAlike.refl s).memory⟩
  | some v =>
    obtain ⟨u, q, e⟩ := s.park_shape c cause unit double urec svc v h
    obtain ⟨fs, o, rest⟩ :=
      u.presentPark_rest v.fn v.wq ⟨c, parkWords (parkHeader cause unit double c) v.rseq v.tseq urec, svc⟩
    obtain ⟨mem, keys, poison, rereads⟩ := q.mem
    rw [e, rest]
    refine ⟨fun k => (q.seqs k).trans ?_, ⟨fun a => congrArg (memRead · a) mem, keys, poison, rereads⟩⟩
    by_cases hk : k = c
    · subst hk; rw [State.core_updCore]; rfl
    · rw [State.core_updCore_ne _ _ hk]; rfl

/-- The record that R358 gives of a park, for a single or a double trap. -/
theorem State.park_record {s : State} {c : Nat} (cause unit : Nat) (double : Bool) (urec : List Dbl) (svc : Option Dest)
    {v : Task} (h : (s.core c).task = some v) :
    let t := s.park c cause unit double urec svc
    (t.core c).task.any (·.parked) = true
      ∧ ((s.wq v.fn v.wq).park = false → (t.wq v.fn v.wq).park = true
        ∧ (t.wq v.fn v.wq).pkrec = parkWords (parkHeader cause unit double c) v.rseq v.tseq urec)
      ∧ ((s.wq v.fn v.wq).park = true → (t.wq v.fn v.wq).pkrec = (s.wq v.fn v.wq).pkrec)
      ∧ (t.wq v.fn v.wq).parks.length = (s.wq v.fn v.wq).parks.length + 1 := by
  intro t
  obtain ⟨u, q, e⟩ := s.park_shape c cause unit double urec svc v h
  have wq : u.wq v.fn v.wq = s.wq v.fn v.wq := q.wqs v.fn v.wq
  obtain ⟨presented, waits, queued⟩ :=
    u.presentPark_wq v.fn v.wq ⟨c, parkWords (parkHeader cause unit double c) v.rseq v.tseq urec, svc⟩
  obtain ⟨fs, o, rest⟩ :=
    u.presentPark_rest v.fn v.wq ⟨c, parkWords (parkHeader cause unit double c) v.rseq v.tseq urec, svc⟩
  rw [wq] at presented waits queued
  have parked : (t.core c).task.any (·.parked) = true := by
    rw [show t = _ from e, rest]
    exact (q.parked c).trans (by rw [State.core_updCore]; rfl)
  rw [show t = _ from e] at parked ⊢
  exact ⟨parked, presented, waits, by rw [queued, List.length_append]; rfl⟩

/-- The sequencer's registers when its work queue has parked (R155). -/
def parkedSeq (p : PendTrap) (q : Machine.Seq) : Machine.Seq :=
  { q with pc := if issuedCause p.cause then p.after else p.pc, pendTrap := none, fell := issuedCause p.cause, stall := 0 }

theorem State.parkSeq_core (u : State) {c : Nat} (core : c < 384) (p : PendTrap) (double : Bool) (svc : Option Dest) :
    u.parkSeq c p double svc = (u.updSeq c (parkedSeq p)).park c p.cause 0 double
      [p.pc, p.addr, p.word.setWidth 64 ||| (p.ext.setWidth 64 <<< 32), p.info] svc :=
  if_neg (Nat.ne_of_lt core)

/-- On the Derailleur a park halts it, with the cause in DRCAUSE (R334). -/
theorem State.parkSeq_derailleur (u : State) (p : PendTrap) (double : Bool) (svc : Option Dest) :
    u.parkSeq 384 p double svc =
      { u.updSeq 384 (parkedSeq p) with pf0 := { u.pf0 with drcause := BitVec.ofNat 8 p.cause, halt := true } } := rfl

/-- The sequencer of a core whose work queue has parked. -/
theorem State.parkSeq_seq (u : State) {c : Nat} (core : c < 384) (p : PendTrap) (double : Bool) (svc : Option Dest) :
    (u.parkSeq c p double svc).seq c = parkedSeq p (u.seq c) := by
  rw [State.parkSeq_core u core, (State.park_kept ..).1 c, State.seq_updSeq]

/-- The current word's park, from any state that differs from the word's own in nothing that the record names. -/
theorem State.parkSeq_parkedHere {s u : State} {k : Task} (alike : ParksAlike s u) (core : s.cur.core < 384)
    (task : (s.core s.cur.core).task = some k) (cause : Nat) (addr info : Dbl) (double : Bool) (svc : Option Dest) :
    ParkedHere s (u.parkSeq s.cur.core (s.ownTrap cause addr info) double svc) k cause double addr info
      (if issuedCause cause then s.nextPc else s.cur.addr) := by
  obtain ⟨v, vtask, fn, wq, rseq, tseq⟩ := alike.task_eq task
  have seq := u.parkSeq_seq core (s.ownTrap cause addr info) double svc
  have resident : ((u.updSeq s.cur.core (parkedSeq (s.ownTrap cause addr info))).core s.cur.core).task = some v := by
    rw [State.core_updSeq]; exact vtask
  obtain ⟨parked, presented, waits, queued⟩ := State.park_record cause 0 double
    [s.cur.addr, addr, xwordOf s, info] svc resident
  have memory := (State.park_kept (u.updSeq s.cur.core (parkedSeq (s.ownTrap cause addr info))) s.cur.core cause 0 double
    [s.cur.addr, addr, xwordOf s, info] svc).2
  have same : (u.updSeq s.cur.core (parkedSeq (s.ownTrap cause addr info))).wq v.fn v.wq = s.wq k.fn k.wq := by
    rw [fn, wq]
    exact congrArg (fun fs => (tget fs k.fn Func.reset).queue k.wq) alike.fns
  rw [same, fn, wq] at presented waits queued
  have run := u.parkSeq_core core (s.ownTrap cause addr info) double svc
  obtain ⟨shadow, ⟨th, -⟩, ⟨xpc, xcause, xaddr, xword, xinfo⟩, -⟩ := alike.specials
  constructor
  case pc => rw [seq]; rfl
  case task => rw [run]; exact parked
  case record =>
    intro free
    rw [run]
    refine ⟨(presented free).1, (presented free).2.trans ?_⟩
    simp [parkWords, parkHeader, core, rseq, tseq, dieOf, dbl, Nat.add_assoc]
  case waits =>
    intro full
    rw [run]
    exact ⟨waits full, queued⟩
  case belt => rw [seq]; exact ⟨alike.registers.1, alike.registers.2, shadow⟩
  case first => rw [seq]; exact ⟨xcause, xpc, xaddr, xword, xinfo, th⟩
  case memory =>
    rw [run]
    exact MemoryKept.trans alike.memory (MemoryKept.trans (OnlySeq.updSeq ..).memory memory)

section
variable {s u : State} (alike : ParksAlike s u) (landing : (s.seq s.cur.core).landing = []) {cause : Nat} (addr info : Dbl)
  (other : cause ≠ 0x20)
  (parks : handlerClass cause = false ∨ (s.seq s.cur.core).tvec = 0 ∨ (s.seq s.cur.core).th = true)
include alike landing other parks

/-- A trap that no handler takes parks, as a double trap while a handler runs. -/
theorem State.trap_parkSeq : ∃ svc, u.trap cause addr info =
    u.parkSeq s.cur.core (s.ownTrap cause addr info) (handlerClass cause && (s.seq s.cur.core).th) svc := by
  obtain ⟨th, tvec, -⟩ := alike.specials.handler
  rw [State.trap_taken alike.cur (alike.specials.flight.1.trans landing) cause addr info other,
    State.takeTrap_park _ _ _ (by rw [th, tvec]; exact parks), th]
  exact ⟨_, rfl⟩

/-- On a core the trap parks the work queue of its task. -/
theorem State.trap_parkedHere {k : Task} (core : s.cur.core < 384) (task : (s.core s.cur.core).task = some k) :
    ParkedHere s (u.trap cause addr info) k cause (handlerClass cause && (s.seq s.cur.core).th) addr info
      (if issuedCause cause then s.nextPc else s.cur.addr) := by
  obtain ⟨svc, run⟩ := State.trap_parkSeq alike landing addr info other parks
  rw [run]
  exact State.parkSeq_parkedHere alike core task cause addr info _ svc

/-- On the Derailleur the trap halts it (R334). -/
theorem State.trap_halts (core : s.cur.core = 384) :
    (u.trap cause addr info).pf0.halt = true ∧ (u.trap cause addr info).pf0.drcause = BitVec.ofNat 8 cause
      ∧ ((u.trap cause addr info).seq 384).pc = if issuedCause cause then s.nextPc else s.cur.addr := by
  obtain ⟨svc, run⟩ := State.trap_parkSeq alike landing addr info other parks
  rw [core, State.parkSeq_derailleur] at run
  rw [run]
  exact ⟨rfl, rfl, congrArg Seq.pc (State.seq_updSeq u 384 (parkedSeq (s.ownTrap cause addr info)))⟩

end

/-- An SVC stands issued, as the word that occupies its sequencer. -/
def State.svcIssued (s : State) : State :=
  (s.issueOpen []).updSeq s.cur.core fun q => { q with occWid := some s.nextId }

theorem ParksAlike.svcIssued (s : State) : ParksAlike s s.svcIssued := by
  have issued := ParksAlike.of_retired (s.retired_issueOpen [])
  have core : s.svcIssued.core s.cur.core = { (s.issueOpen []).core s.cur.core with
      seq := { (s.issueOpen []).seq s.cur.core with occWid := some s.nextId } } := State.core_updSeq ..
  refine ⟨issued.cur, ?_, ?_, ?_, issued.fns, ⟨issued.memory.1, issued.memory.2, issued.memory.3⟩⟩
  · rw [State.seq, core]; exact issued.registers
  · obtain ⟨a, b, c, d, e, f⟩ := issued.specials
    rw [State.seq, State.seq, core]; exact ⟨a, b, c, d, e, f⟩
  · rw [core]; exact issued.task

theorem exec_svc {s : State} (v : Option Dest) (code : BitVec 16) (fresh : Fresh s []) :
    exec (.svc v code) s = .next (s.svcIssued.trap 0x10 s.cur.addr (code.setWidth 64)) := by
  simp only [exec, execSvc, State.withOperands_fresh fresh, State.svcIssued]

theorem exec_trap {s : State} (code : BitVec 16) (fresh : Fresh s []) :
    exec (.trap code) s = .next ((s.issue [] 1 none).trap 0x06 s.cur.addr (code.setWidth 64)) := by
  simp only [exec, execTrap, State.withOperands_fresh fresh]

/-- Settles O11. -/
theorem trapParks : Obligations.TrapParks := by
  refine ⟨fun s k core task landing => ⟨fun parks => ⟨fun code fresh => ⟨_, exec_trap code fresh, ?trap⟩,
      fun w => ⟨_, rfl, ?illegal⟩⟩, fun v code fresh => ⟨_, exec_svc v code fresh, ?svc, ?stands⟩⟩,
    fun s core landing => ⟨fun parks w => ⟨_, rfl, ?halts⟩, fun v code fresh => ⟨_, exec_svc v code fresh, ?svcHalts⟩⟩⟩
  case trap =>
    exact State.trap_parkedHere (ParksAlike.of_retired (s.retired_issue [] none)) landing _ _ (by decide) (.inr parks) core task
  case illegal => exact State.trap_parkedHere (ParksAlike.refl s) landing _ _ (by decide) (.inr parks) core task
  case svc => exact State.trap_parkedHere (ParksAlike.svcIssued s) landing _ _ (by decide) (.inl rfl) core task
  case stands =>
    obtain ⟨svc, run⟩ := State.trap_parkSeq (ParksAlike.svcIssued s) landing s.cur.addr (code.setWidth 64)
      (cause := 0x10) (by decide) (.inl rfl)
    rw [run, State.parkSeq_seq _ core, State.svcIssued, State.seq_updSeq]
    rfl
  case halts =>
    rw [← core] at landing parks
    exact State.trap_halts (ParksAlike.refl s) landing _ _ (by decide) (.inr parks) core
  case svcHalts =>
    rw [← core] at landing
    exact State.trap_halts (ParksAlike.svcIssued s) landing _ _ (by decide) (.inl rfl) core

/-! ## The return from a handler (R154) -/

/-- The further cycles of a word: the core after its issue, and whatever the word changed beside, retires as it stands. -/
theorem Core.retired_occ {x y : Core} {f : Core → Core} (n : Nat) {wid : Nat} (occ : y.seq.occ = n + 1)
    (stands : y.seq.occWid = some wid) (ready : y.seq.stall = 0 ∧ y.seq.phase = 0) (clock : y.seq.cyc = x.seq.cyc + 1)
    (registers : y.seq.belt = (f x).seq.belt ∧ y.seq.named = (f x).seq.named)
    (released : ∀ k : BitVec 4, y.seq.released.getLsbD k.toNat = (f x).seq.released.getLsbD k.toNat)
    (specials : SpecialsKept (f x).seq y.seq) (engines : EnginesKept (f x) y) :
    CoreRetired x (Core.occCycle^[n + 1] y) (n + 2) y.seq.marks y.seq.pres y.seq.pc f := by
  obtain ⟨tk, fl, tt, rr, m, shape, task, res, bits⟩ := Core.occ_shape n y wid occ stands
  have parked : y.task.any (·.parked) = (f x).task.any (·.parked) := by
    rw [← task_wd_parked y.task, engines.task, task_wd_parked]
  obtain ⟨queues, copy, vec, mat, monitors, freezes, tlb, rows, epochs, resid, tasks⟩ := engines
  rw [shape]
  refine ⟨rfl, ⟨ready.1, ready.2, rfl⟩, ?_, ⟨?_, ?_, fun k => ?_⟩,
    ⟨specials.shadow, specials.handler, specials.saved, specials.loops, specials.counts, specials.flight⟩,
    ⟨queues, copy, vec, mat, monitors, freezes, tlb, rows, epochs, fun h => (res (parked.trans h)).trans (resid h),
      task.trans tasks⟩⟩
  · show y.seq.cyc + (n + 1) = x.seq.cyc + (n + 2)
    omega
  · exact congrArg (beltAfter · _) registers.1
  · exact congrArg (namedAfter · _) registers.2
  · exact (bits k).trans (by simp only [releasedAfter, released])

/-- ERET in a handler issues, with the shadow belt as its belt, and stands at xpc. -/
theorem exec_eret {s : State} (fresh : Fresh s []) (th : (s.seq s.cur.core).th = true)
    (inside : s.inCode s.cur.core (s.seq s.cur.core).xpc = true) :
    exec .eret s = .next ((s.issueAt [] 2 none (s.seq s.cur.core).xpc).updSeq s.cur.core Seq.eret) := by
  simp only [exec, execEret, State.withOperands_fresh fresh, th, inside, Bool.not_true, Bool.false_eq_true, if_false]

theorem exec_eret_outside {s : State} (fresh : Fresh s []) (th : (s.seq s.cur.core).th = true)
    (outside : s.inCode s.cur.core (s.seq s.cur.core).xpc = false) :
    exec .eret s = .next (s.trap 0x02 (s.seq s.cur.core).xpc 0) := by
  simp only [exec, execEret, State.withOperands_fresh fresh, th, outside, Bool.not_true, Bool.not_false, Bool.false_eq_true,
    if_false, if_true]

theorem exec_eret_illegal {s : State} (fresh : Fresh s []) (th : (s.seq s.cur.core).th = false) :
    exec .eret s = .next (s.trap 0x01 s.cur.addr 0) := by
  simp only [exec, execEret, State.withOperands_fresh fresh, th, Bool.not_false, if_true]

/-- After its second cycle ERET has retired at xpc. -/
theorem State.retired_eret (s : State) :
    Retired s (after s.cur.core 1 ((s.issueAt [] 2 none (s.seq s.cur.core).xpc).updSeq s.cur.core Seq.eret)) 2 [] none
      (s.seq s.cur.core).xpc (fun x => { x with seq := { x.seq with belt := x.seq.shadow, th := false } }) := by
  obtain ⟨cs, shape, core, others⟩ :=
    after_shape s.cur.core 1 ((s.issueAt [] 2 none (s.seq s.cur.core).xpc).updSeq s.cur.core Seq.eret)
  refine Retired.of_core ?_ ⟨cs, _, _, shape⟩ fun k hk => ?_
  · obtain ⟨tk, fl, m, issued, bits⟩ := Core.issue_shape (s.core s.cur.core) s.nextId s.cur.chain [] 2 none true
      (s.seq s.cur.core).xpc s.nextPc
    rw [core]
    simp only [State.updSeq, State.issueAt, State.core_updCore, State.useId_core, issued]
    refine Core.retired_occ 0 rfl rfl ⟨rfl, rfl⟩ rfl ⟨rfl, rfl⟩ (fun k => ?_) ?_ ?_
    · exact (bits k).trans (by simp [releasedAfter])
    · exact ⟨rfl, ⟨rfl, rfl, rfl⟩, ⟨rfl, rfl, rfl, rfl, rfl⟩, ⟨rfl, rfl⟩, ⟨rfl, rfl, rfl, rfl⟩, ⟨rfl, rfl, rfl⟩⟩
    · exact ⟨rfl, rfl, rfl, rfl, ⟨rfl, rfl⟩, rfl, rfl, ⟨rfl, rfl, rfl⟩, ⟨rfl, rfl, rfl⟩,
        fun h => if_neg (ne_true_of_eq_false h), (Option.map_map ..).trans (task_tick_wd _)⟩
  · rw [others k hk]
    simp only [State.updSeq, State.issueAt, State.useId_core, State.core_updCore_ne _ _ hk]

/-- Settles O12: an xpc outside the code area is a double trap, since a handler runs. -/
theorem returnFromTrap : Obligations.ReturnFromTrap := by
  refine fun s fresh => ⟨fun th inside => ⟨_, exec_eret fresh th inside, s.retired_eret⟩,
    fun th outside => ⟨_, exec_eret_outside fresh th outside, rfl, fun k core task landing => ?_⟩,
    fun th => exec_eret_illegal fresh th⟩
  have parks := State.trap_parkedHere (ParksAlike.refl s) landing (cause := 0x02) (s.seq s.cur.core).xpc 0 (by decide)
    (.inr (.inr th)) core task
  rw [th] at parks
  exact parks

end Sys2Proof.Machine
end

section
/-! SUPPORT. BAR (R149): a core that arrives at a barrier, or completes at once, and the release of those that arrived. -/

namespace Sys2Proof.Machine

open Sys2Proof Sys2Proof.Safety

/-! ## Arrival -/

theorem barrierKey_iff {sc : Scope} {inst id : Nat} {b : Barrier} :
    barrierKey sc inst id b = true ↔ b.scope = sc ∧ b.inst = inst ∧ b.id = id := by
  simp only [barrierKey, Bool.and_eq_true, beq_iff_eq, and_assoc]

/-- The generation that takes the next arrival stands among the barriers, under its name, and is not full. -/
theorem Func.openBarrier_spec {f : Func} {sc : Scope} {inst id : Nat} {b : Barrier} (h : f.openBarrier sc inst id = some b) :
    b ∈ f.barriers ∧ (b.scope = sc ∧ b.inst = inst ∧ b.id = id) ∧ b.cores.length < b.n := by
  have key := List.find?_some h
  simp only [Bool.and_eq_true, barrierKey_iff, Barrier.full, Bool.not_eq_true', decide_eq_false_iff_not, not_le] at key
  exact ⟨List.mem_of_find?_eq_some h, key⟩

/-- A core that has arrived stands in a generation under the barrier's name with its n. -/
theorem State.arrive_barrier {s : State} {fn : Nat} {sc : Scope} {inst id n : Nat} (c : Nat)
    (agrees : ∀ b, (s.fn fn).openBarrier sc inst id = some b → b.n = n) :
    ∃ b ∈ ((s.arrive fn sc inst id n c).fn fn).barriers, (b.scope = sc ∧ b.inst = inst ∧ b.id = id) ∧ b.n = n ∧ c ∈ b.cores := by
  rw [State.arrive]
  split
  · rename_i b found
    obtain ⟨mem, key, -⟩ := Func.openBarrier_spec found
    rw [State.fn_updFn]
    refine ⟨{ b with cores := b.cores ++ [c] }, List.mem_map.mpr ⟨b, mem, if_pos BEq.rfl⟩, key, agrees b found, ?_⟩
    exact List.mem_append_right _ List.mem_cons_self
  · rw [State.fn_updFn]
    exact ⟨_, List.mem_append_right _ List.mem_cons_self, ⟨rfl, rfl, rfl⟩, rfl, List.mem_cons_self⟩

theorem State.arrive_shape (s : State) (fn : Nat) (sc : Scope) (inst id n c : Nat) :
    ∃ fs i, s.arrive fn sc inst id n c = { s with fns := fs, nextId := i } := by
  rw [State.arrive]
  split <;> exact ⟨_, _, rfl⟩

theorem State.tellPod_shape (s : State) (fn : Nat) (sc : Scope) (id n c : Nat) :
    ∃ o, s.tellPod fn sc id n c = { s with out := o } := by
  rw [State.tellPod]
  split <;> exact ⟨_, rfl⟩

/-! ## BAR -/

/-- The engine queues are empty and the accesses performed, so that nothing keeps a BAR. -/
structure BarReady (s : State) (scope : Scope) : Prop where
  queues : ∀ q ∈ (s.core s.cur.core).queues, q = []
  settled : Settled s s.cur.core scope

theorem BarReady.goes {s : State} {scope : Scope} (h : BarReady s scope) :
    (!(s.core s.cur.core).queuesEmpty || !s.performedAll s.cur.core scope) = false := by
  have empty : (s.core s.cur.core).queuesEmpty = true :=
    List.all_eq_true.mpr fun q hq => List.isEmpty_iff.mpr (h.queues q hq)
  rw [empty, settled_performed h.settled]
  rfl

/-- BAR.core, ready, issues. -/
theorem exec_bar_core {s : State} (ready : BarReady s .core) (fresh : Fresh s []) (id : BitVec 4) (n : Src) :
    exec (.bar .core id n) s = .next (s.issue [] 1 none) := by
  simp only [exec, execBar, if_true, State.withOperands_fresh fresh, fresh.1, Nat.reduceEqDiff, if_false,
    settled_lines ready.settled, ready.goes, Bool.false_eq_true]

/-- The core has arrived at a barrier of n cores, and waits. -/
def State.arrived (s : State) (fn : Nat) (scope : Scope) (id n : Nat) : State :=
  let c := s.cur.core
  let inst := scopeInst scope c
  let gen := (((s.fn fn).openBarrier scope inst id).map (·.gen)).getD s.nextId
  ((((s.arrive fn scope inst id n c).tellPod fn scope id n c).updSeq c fun q =>
    { q with phase := 2, arrived := true, sweep := [scope.code.toNat, inst, id, gen] }).stallSeq 6)

/-- A wider BAR, ready, issues at a barrier of one core, and else arrives. -/
theorem exec_bar_wide {s : State} {scope : Scope} {id : BitVec 4} {n : Src} {k : Task} (ready : BarReady s scope)
    (wide : scope ≠ .core) (fresh : Fresh s [n]) (task : (s.core s.cur.core).task = some k)
    (agrees : ∀ b, (s.fn k.fn).openBarrier scope (scopeInst scope s.cur.core) id.toNat = some b → b.n = (operand s n).toNat)
    (low : 1 ≤ (operand s n).toNat) (high : (operand s n).toNat ≤ scopeCores scope) :
    exec (.bar scope id n) s = .next (if (operand s n).toNat = 1 then s.issue [n] 1 none
      else s.arrived k.fn scope id.toNat (operand s n).toNat) := by
  have clash : ((s.fn k.fn).openBarrier scope (scopeInst scope s.cur.core) id.toNat).any
      (fun b => b.n != (operand s n).toNat) = false := by
    cases h : (s.fn k.fn).openBarrier scope (scopeInst scope s.cur.core) id.toNat with
    | none => rfl
    | some b => simp [agrees b h]
  have valid : ¬ ((operand s n).toNat = 0 ∨ scopeCores scope < (operand s n).toNat) := by omega
  obtain ⟨empty, tests⟩ := not_or.mp valid
  simp only [exec, execBar, if_neg wide, State.withOperands_fresh fresh, fresh.1, Nat.reduceEqDiff, if_false,
    settled_lines ready.settled, ready.goes, Bool.false_eq_true, State.opd_eq_operand, task, Option.map_some,
    Option.getD_some, clash, empty, tests, or_self, State.arrived]

/-- A word that changes its sequencer and waits: the sequencer after the cycle. -/
theorem State.seq_waits {s : State} {c : Nat} (cur : s.cur.core = c) (f : Machine.Seq → Machine.Seq) (code : Nat) :
    ((s.updSeq c f).stallSeq code).seq c = { f (s.seq c) with stall := code, cyc := (f (s.seq c)).cyc + 1 } := by
  subst cur
  exact (State.seq_stallSeq (s.updSeq s.cur.core f) code).trans (by rw [State.updSeq_cur, State.seq_updSeq])

/-- What an arrival shows. -/
theorem State.arrived_spec {s : State} {fn : Nat} {scope : Scope} {id n : Nat}
    (agrees : ∀ b, (s.fn fn).openBarrier scope (scopeInst scope s.cur.core) id = some b → b.n = n) :
    let t := s.arrived fn scope id n
    ((t.seq s.cur.core).phase = 2 ∧ (t.seq s.cur.core).arrived = true ∧ (t.seq s.cur.core).stall = 6
      ∧ (t.seq s.cur.core).pc = (s.seq s.cur.core).pc)
    ∧ ∃ b ∈ (t.fn fn).barriers, (b.scope = scope ∧ b.inst = scopeInst scope s.cur.core ∧ b.id = id) ∧ b.n = n
      ∧ s.cur.core ∈ b.cores := by
  obtain ⟨fs, i, shape⟩ := s.arrive_shape fn scope (scopeInst scope s.cur.core) id n s.cur.core
  have there := s.arrive_barrier s.cur.core agrees
  rw [shape] at there
  obtain ⟨o, told⟩ := ({ s with fns := fs, nextId := i } : State).tellPod_shape fn scope id n s.cur.core
  constructor
  · rw [State.arrived, shape, told, State.seq_waits rfl]
    exact ⟨rfl, rfl, rfl, rfl⟩
  · rw [State.arrived, shape, told]
    exact there

/-- Settles O15. -/
theorem barrierArrival : Obligations.BarrierArrival := by
  intro s scope id n queues settled
  refine ⟨fun core fresh => ?core, ?wide⟩
  case core =>
    subst core
    exact ⟨_, exec_bar_core ⟨queues, settled⟩ fresh id n, s.retired_issue ..⟩
  case wide =>
    intro wide fresh k task v here agrees low high
    have same : ∀ b, (s.fn k.fn).openBarrier scope (scopeInst scope s.cur.core) id.toNat = some b → b.n = v := fun b found =>
      have ⟨mem, key, room⟩ := Func.openBarrier_spec found
      agrees b mem key room
    have run := exec_bar_wide ⟨queues, settled⟩ wide fresh task same low high
    refine ⟨fun one => ⟨_, run.trans (by rw [if_pos one]), s.retired_issue ..⟩,
      fun more => ⟨_, run.trans (by rw [if_neg more]), ?_⟩⟩
    obtain ⟨⟨phase, arrived, stall, pc⟩, there⟩ := State.arrived_spec same
    exact ⟨phase, arrived, stall, pc, there⟩

/-! ## Release -/

/-- A full barrier's release is one of every full generation under its name. -/
theorem exec_barrierRelease {s : State} {fn inst id : Nat} {scope : Scope} {b : Barrier} (mem : b ∈ (s.fn fn).barriers)
    (key : b.scope = scope ∧ b.inst = inst ∧ b.id = id) (full : b.n ≤ b.cores.length) :
    b ∈ (s.fn fn).fullBarriers scope inst id
      ∧ exec (.barrierRelease fn scope inst id) s =
        .next (((s.fn fn).fullBarriers scope inst id).foldl (fun s b => s.releaseGen fn b) s) := by
  have there : b ∈ (s.fn fn).fullBarriers scope inst id :=
    List.mem_filter.mpr ⟨mem, Bool.and_eq_true_iff.mpr ⟨barrierKey_iff.mpr key, decide_eq_true full⟩⟩
  refine ⟨there, ?_⟩
  simp only [exec, execBarrierRelease]
  split
  · rename_i none
    rw [none] at there
    cases there
  · rfl

/-- A sequencer is as it was, or released. -/
def SeqFreed (q r : Machine.Seq) : Prop := r = q ∨ r = { q with phase := 3 }

theorem SeqFreed.trans {q r u : Machine.Seq} (h : SeqFreed q r) (k : SeqFreed r u) : SeqFreed q u := by
  rcases h with rfl | rfl
  · exact k
  · rcases k with rfl | rfl <;> exact .inr rfl

theorem SeqFreed.released {q r : Machine.Seq} (h : SeqFreed q r) (free : q.phase = 3) : r.phase = 3 := by
  rcases h with rfl | rfl
  · exact free
  · rfl

theorem SeqFreed.mark {q r : Machine.Seq} (h : SeqFreed q r) : r.arrived = q.arrived ∧ r.sweep = q.sweep := by
  rcases h with rfl | rfl <;> exact ⟨rfl, rfl⟩

theorem Seq.releaseBar_freed (mark : List Nat) (q : Machine.Seq) : SeqFreed q (q.releaseBar mark) := by
  rw [Seq.releaseBar]
  split
  · exact .inr rfl
  · exact .inl rfl

theorem Seq.releaseBar_phase {mark : List Nat} {q : Machine.Seq} (arrived : q.arrived = true) (sweep : q.sweep = mark) :
    (q.releaseBar mark).phase = 3 := by
  rw [Seq.releaseBar, if_pos (by simp [arrived, sweep])]

/-- What the release of generations changes: the sequencers that wait at one of them, and those generations. -/
structure Releases (fn : Nat) (l : List Barrier) (s t : State) : Prop where
  seqs : ∀ c, SeqFreed (s.seq c) (t.seq c)
  free : ∀ b ∈ l, ∀ c ∈ b.cores, (s.seq c).arrived = true → (s.seq c).sweep = b.mark → (t.seq c).phase = 3
  gone : ∀ e ∈ (t.fn fn).barriers, e ∈ (s.fn fn).barriers ∧ e ∉ l
  memory : MemoryKept s t

theorem State.releaseCores_shape (mark : List Nat) (cs : List Nat) : ∀ s : State,
    (∃ xs, State.releaseCores mark s cs = { s with cores := xs })
      ∧ (∀ c, SeqFreed (s.seq c) ((State.releaseCores mark s cs).seq c))
      ∧ ∀ c ∈ cs, (s.seq c).arrived = true → (s.seq c).sweep = mark → ((State.releaseCores mark s cs).seq c).phase = 3 := by
  induction cs with
  | nil => exact fun s => ⟨⟨_, rfl⟩, fun _ => .inl rfl, fun c hc => nomatch hc⟩
  | cons d cs ih =>
    intro s
    obtain ⟨⟨xs, rest⟩, freed, free⟩ := ih (s.updSeq d (Seq.releaseBar mark))
    have first (c : Nat) : SeqFreed (s.seq c) ((s.updSeq d (Seq.releaseBar mark)).seq c) := by
      by_cases h : c = d
      · subst h; rw [State.seq_updSeq]; exact Seq.releaseBar_freed ..
      · exact .inl (congrArg Core.seq (State.core_updSeq_ne _ _ h))
    refine ⟨⟨xs, rest⟩, fun c => (first c).trans (freed c), fun c hc arrived sweep => ?_⟩
    by_cases h : c = d
    · subst h
      exact (freed c).released (by rw [State.seq_updSeq]; exact Seq.releaseBar_phase arrived sweep)
    · obtain ⟨a, w⟩ := (first c).mark
      exact free c (List.mem_of_ne_of_mem h hc) (a.trans arrived) (w.trans sweep)

/-- One generation is released. -/
theorem State.releaseGen_releases (s : State) (fn : Nat) (b : Barrier) : Releases fn [b] s (s.releaseGen fn b) := by
  obtain ⟨⟨xs, shape⟩, freed, free⟩ := State.releaseCores_shape b.mark b.cores s
  have seq (c : Nat) : (s.releaseGen fn b).seq c = (State.releaseCores b.mark s b.cores).seq c := rfl
  refine ⟨fun c => seq c ▸ freed c, fun k hk c hc => ?_, fun e he => ?_, ?_⟩
  · obtain rfl := List.mem_singleton.mp hk
    rw [seq]
    exact free c hc
  · rw [State.releaseGen, shape, State.fn_updFn] at he
    obtain ⟨mem, other⟩ := List.mem_filter.mp he
    exact ⟨mem, fun h => bne_iff_ne.mp other (List.mem_singleton.mp h)⟩
  · rw [State.releaseGen, shape]
    exact ⟨fun _ => rfl, rfl, rfl, rfl⟩

/-- Every generation of a list is released. -/
theorem State.releaseGens_releases (fn : Nat) (l : List Barrier) : ∀ s : State,
    Releases fn l s (l.foldl (fun s b => s.releaseGen fn b) s) := by
  induction l with
  | nil => exact fun s => ⟨fun _ => .inl rfl, fun b hb => (nomatch hb), fun e he => ⟨he, List.not_mem_nil⟩, (ParksAlike.refl s).memory⟩
  | cons b l ih =>
    intro s
    have one := s.releaseGen_releases fn b
    have rest := ih (s.releaseGen fn b)
    refine ⟨fun c => (one.seqs c).trans (rest.seqs c), fun k hk c hc arrived sweep => ?_, fun e he => ?_,
      MemoryKept.trans one.memory rest.memory⟩
    · rcases List.mem_cons.mp hk with rfl | hk
      · exact (rest.seqs c).released (one.free k List.mem_cons_self c hc arrived sweep)
      · obtain ⟨a, w⟩ := (one.seqs c).mark
        exact rest.free k hk c hc (a.trans arrived) (w.trans sweep)
    · obtain ⟨mem, out⟩ := rest.gone e he
      obtain ⟨mem, other⟩ := one.gone e mem
      exact ⟨mem, fun h => (List.mem_cons.mp h).elim (fun h => other (List.mem_singleton.mpr h)) out⟩

/-- A BAR that has been released issues. -/
theorem exec_bar_released {s : State} (phase : (s.seq s.cur.core).phase = 3) (scope : Scope) (id : BitVec 4) (n : Src) :
    exec (.bar scope id n) s = .next (s.issue [n] 1 none) := by
  have later : (s.seq s.cur.core).phase ≠ 0 := by rw [phase]; decide
  simp only [exec, execBar, State.withOperands_later later, phase, Nat.reduceEqDiff, if_false, if_true]

/-- Settles O16. -/
theorem barrierRelease : Obligations.BarrierRelease := by
  refine ⟨fun s fn inst id scope b mem hs hi hid full => ?release,
    fun s scope id n phase => ⟨_, exec_bar_released phase scope id n, s.retired_issue ..⟩⟩
  case release =>
    obtain ⟨there, run⟩ := exec_barrierRelease mem ⟨hs, hi, hid⟩ full
    obtain ⟨seqs, free, gone, memory⟩ := State.releaseGens_releases fn ((s.fn fn).fullBarriers scope inst id) s
    refine ⟨_, run, fun c hc arrived sweep => ⟨free b there c hc arrived ?_, ?_⟩, fun e he => ?_, memory⟩
    · rw [sweep, Barrier.mark, hs, hi, hid]
    · rcases seqs c with h | h <;> rw [h] <;> exact ⟨rfl, rfl⟩
    · obtain ⟨old, out⟩ := gone e he
      refine ⟨old, fun ⟨es, ei, eid, efull⟩ => out (List.mem_filter.mpr ⟨old, ?_⟩)⟩
      exact Bool.and_eq_true_iff.mpr ⟨barrierKey_iff.mpr ⟨es, ei, eid⟩, decide_eq_true efull⟩

end Sys2Proof.Machine
end

section
/-! SUPPORT. LD (R127, R137, R192): the landing entry that a load takes, filled at once from the core's own array or a valid
probe line, or waiting for a line or for a read that it sends. -/

namespace Sys2Proof.Machine

open Sys2Proof Sys2Proof.Safety

/-- A state that a load on `s` reaches before it issues, its address looked up in `r`: its own core's lines and task may
have changed, and nothing that its issue reads. -/
structure LoadView (s r u : State) : Prop where
  cur : u.cur = s.cur
  seq : u.seq s.cur.core = s.seq s.cur.core
  others : ∀ k, k ≠ s.cur.core → u.core k = r.core k
  memory : MemoryKept s u
  mem : u.mem = s.mem
  reqs : u.reqs = s.reqs

theorem LoadView.looked {s r : State} (h : LookedRead s r) : LoadView s r r :=
  ⟨Looked.cur h.toLooked, Looked.seq h.toLooked _, fun _ _ => rfl, LookedRead.kept h, h.memory.1, Looked.reqs h.toLooked⟩

theorem LoadView.taintRead {s r u : State} (h : LoadView s r u) (pa : Nat) : LoadView s r (u.taintRead pa) := by
  obtain ⟨cs, shape⟩ := u.taintRead_shape pa
  refine ⟨by rw [shape]; exact h.cur, (u.taintRead_seq pa _).trans h.seq, fun k hk => ?_, ?_, by rw [shape]; exact h.mem,
    by rw [shape]; exact h.reqs⟩
  · rw [← h.cur] at hk
    rw [u.taintRead_core pa hk]
    exact h.others k (h.cur ▸ hk)
  · rw [shape]
    exact ⟨h.memory.1, h.memory.2, h.memory.3⟩

theorem LoadView.dropRetained {s r u : State} (h : LoadView s r u) (l : Option PLine) : LoadView s r (u.dropRetained l) := by
  obtain ⟨cs, shape⟩ := u.dropRetained_shape l
  refine ⟨by rw [shape]; exact h.cur, (u.dropRetained_seq l _).trans h.seq, fun k hk => ?_, ?_, by rw [shape]; exact h.mem,
    by rw [shape]; exact h.reqs⟩
  · rw [← h.cur] at hk
    rw [u.dropRetained_core l hk]
    exact h.others k (h.cur ▸ hk)
  · rw [shape]
    exact ⟨h.memory.1, h.memory.2, h.memory.3⟩

/-- The load has issued with the landing entry `e`. -/
structure LoadIssued (s r t : State) (base : Src) (kind : LandKind) (a : Dbl) (d : Dest) (slot : Nat) (e : Landing) : Prop where
  stepped : Stepped (s.seq s.cur.core) (t.seq s.cur.core) 1 [base] none s.nextPc
    (fun q => { q with landing := q.landing ++ [e] })
  entry : e.kind = kind ∧ e.addr = a ∧ e.due = (s.seq s.cur.core).cyc + slot ∧ e.dest = d
  others : ∀ k, k ≠ s.cur.core → t.core k = r.core k
  memory : MemoryKept s t

/-- A load takes its entry, with the data that is there. -/
theorem LoadView.land {s r u : State} (h : LoadView s r u) (base : Src) (kind : LandKind) (a : Dbl) (d : Dest) (slot : Nat)
    (data : Option (List Byte)) (fwd : List (Nat × Byte)) :
    ∃ e, LoadIssued s r (u.land [base] kind a d slot data fwd) base kind a d slot e
      ∧ e.id = u.nextId ∧ e.arrived = data.isSome ∧ e.data = BitVec.ofNat 128 (leNat (data.getD []))
      ∧ (u.land [base] kind a d slot data fwd).reqs = s.reqs := by
  obtain ⟨e, issued, id, -, hkind, addr, due, dest, arrived, bytes, -⟩ := u.retired_land [base] kind a d slot data fwd
  obtain ⟨cs, shape⟩ := u.land_shape [base] kind a d slot data fwd
  have next : u.nextPc = s.nextPc := by rw [State.nextPc, State.nextPc, h.cur]
  have stepped := issued.stepped (g := fun q => { q with landing := q.landing ++ [e] }) rfl
  have others := issued.others
  rw [h.cur] at due others stepped
  rw [h.seq] at due stepped
  rw [next] at stepped
  refine ⟨e, ⟨stepped, ⟨hkind, addr, due, dest⟩, fun k hk => (others k hk).trans (h.others k hk),
    MemoryKept.trans h.memory issued.memory⟩, id, arrived, bytes, ?_⟩
  rw [shape]
  exact h.reqs

/-- A load takes its entry and sends a read for it. -/
def State.landSend (u : State) (base : Src) (d : Dest) (sz : LdSz) (slot : Nat) (a : Dbl) (pa : Nat) (fwd : List (Nat × Byte)) :
    State :=
  let t := u.land [base] (.load sz) a d slot none fwd
  t.sendRead (t.scalarReq (.land u.cur.core u.nextId) .read pa (ldBytes sz) 0 a)

theorem LoadView.landSend {s r u : State} (h : LoadView s r u) (base : Src) (d : Dest) (sz : LdSz) (slot : Nat) (a : Dbl)
    (pa : Nat) (fwd : List (Nat × Byte)) :
    ∃ e, LoadIssued s r (u.landSend base d sz slot a pa fwd) base (.load sz) a d slot e ∧ e.arrived = false
      ∧ ∃ q, (u.landSend base d sz slot a pa fwd).reqs = s.reqs ++ [q] ∧ q.src = .land s.cur.core e.id ∧ q.kind = .read
        ∧ q.pa = pa ∧ q.len = ldBytes sz ∧ q.phase = .travel := by
  obtain ⟨e, ⟨stepped, entry, others, memory⟩, id, arrived, -, reqs⟩ := h.land base (.load sz) a d slot none fwd
  refine ⟨e, ⟨stepped, entry, others, ⟨memory.1, memory.2, memory.3⟩⟩, arrived, _, congrArg (· ++ _) reqs, ?_, rfl, rfl, rfl, rfl⟩
  rw [id, ← h.cur]
  rfl

/-! ## Where a load finds its data -/

section
variable {r : State} {pa : Nat} {a : Dbl} (base : Src) (d : Dest) (sz : LdSz) (slot : Nat)

/-- Bytes of the core's own array land at once. -/
theorem State.loadFrom_own (own : isArray pa = true ∧ arrayCore pa = r.cur.core) :
    r.loadFrom base d sz slot a pa = (r.taintRead pa).land [base] (.load sz) a d slot
      (some ((r.taintRead pa).readArray r.cur.core ((pa - 2 ^ 52) % 2 ^ 19) (ldBytes sz))) [] := by
  have here : (isArray pa && arrayCore pa == r.cur.core) = true := by simp [own.1, own.2]
  simp only [State.loadFrom, here, if_true]

section
variable (away : ¬ (isArray pa = true ∧ arrayCore pa = r.cur.core))
include away

theorem not_own : (isArray pa && arrayCore pa == r.cur.core) = false := by simpa using away

/-- Bytes of a valid probe line land at once. -/
theorem State.loadFrom_valid {l : PLine} (line : r.scalarLine a = some l) (valid : l.state = .valid) :
    r.loadFrom base d sz slot a pa = (r.taintRead pa).land [base] (.load sz) a d slot
      (some ((r.taintRead pa).readArray r.cur.core (l.slot + a.toNat % 256) (ldBytes sz))) [] := by
  simp only [State.loadFrom, not_own away, Bool.false_eq_true, if_false, State.taintRead_scalarLine, line, valid]

/-- A load from a line that is being filled waits for it. -/
theorem State.loadFrom_pending {l : PLine} (line : r.scalarLine a = some l) (pending : l.state = .pending) :
    ∃ fwd, r.loadFrom base d sz slot a pa = (r.taintRead pa).land [base] (.load sz) a d slot none fwd := by
  simp only [State.loadFrom, not_own away, Bool.false_eq_true, if_false, State.taintRead_scalarLine, line, pending]
  exact ⟨_, rfl⟩

/-- Any other load sends a read, and a retained line of its block is dropped. -/
theorem State.loadFrom_send (line : ∀ l, r.scalarLine a = some l → l.state ≠ .valid ∧ l.state ≠ .pending) :
    ∃ fwd, r.loadFrom base d sz slot a pa =
      ((r.taintRead pa).dropRetained (r.scalarLine a)).landSend base d sz slot a pa fwd := by
  have cur (l : Option PLine) : ((r.taintRead pa).dropRetained l).cur = r.cur := by
    obtain ⟨cs, dropped⟩ := (r.taintRead pa).dropRetained_shape l
    obtain ⟨xs, tainted⟩ := r.taintRead_shape pa
    rw [dropped, tainted]
  simp only [State.loadFrom, not_own away, Bool.false_eq_true, if_false, State.taintRead_scalarLine, State.landSend, cur]
  cases found : r.scalarLine a with
  | none => exact ⟨_, rfl⟩
  | some l =>
    obtain ⟨valid, pending⟩ := line l found
    cases state : l.state with
    | valid => exact absurd state valid
    | pending => exact absurd state pending
    | invalid | retained =>
      simp only [state]
      exact ⟨_, rfl⟩

end

end

/-! ## LD -/

/-- A load that passes its checks waits for an atomic on its way to the same bytes, or is performed. -/
theorem exec_ld {s r : State} {base : Src} {sz : LdSz} {off : Imm 0} {pa : Nat} (fresh : Fresh s [base])
    (looked : LookedRead s r)
    (there : s.scalar (operand s base + BitVec.ofInt 64 off.int) (ldBytes sz) Need.read [.rd, .rw] = (r, .ok pa))
    (regions : r.regionWait s.cur.core (operand s base + BitVec.ofInt 64 off.int) (ldBytes sz) [.wr, .rw, .acc, .atom] = false)
    (room : (s.seq s.cur.core).landing.length < 16) (d : Dest) (slot : BitVec 8) :
    exec (.ld base d sz slot off) s = .next (if r.portFirst pa (ldBytes sz) then r.stallSeq 15
      else r.loadFrom base d sz slot.toNat (operand s base + BitVec.ofInt 64 off.int) pa) := by
  have free : ¬ 16 ≤ (r.seq s.cur.core).landing.length := by
    rw [Looked.seq looked.toLooked]
    omega
  simp only [exec, execLd, State.withOperands_fresh fresh, State.opd_eq_operand, immDbl, there, regions, if_neg free,
    Bool.false_eq_true, if_false]

/-- Settles O17: the cases of `State.loadFrom`, each by `LoadView.land` or `LoadView.landSend`. -/
theorem loadWord : Obligations.LoadWord := by
  intro s r base d sz slot off pa fresh c a n there regions room
  have looked : LookedRead s r := by
    have h := s.scalar_lookedRead a n Need.read [.rd, .rw] (by decide)
    rwa [there] at h
  have cur : r.cur = s.cur := Looked.cur looked.toLooked
  have run := exec_ld fresh looked there regions room d slot
  refine ⟨looked, fun first => ⟨_, run.trans (by rw [if_pos first]), Stalled.stallSeq r 15⟩, fun later => ?_⟩
  have view := (LoadView.looked looked).taintRead pa
  rw [if_neg (ne_true_of_eq_false later)] at run
  have mem (x : Nat) : (r.taintRead pa).readArray r.cur.core x n = memReads s.mem (arrayAt c x) n := by
    rw [State.readArray, view.mem, cur]
  by_cases own : isArray pa = true ∧ arrayCore pa = c
  · obtain ⟨e, ⟨stepped, ⟨kind, addr, due, dest⟩, others, memory⟩, id, arrived, data, reqs⟩ :=
      view.land base (.load sz) a d slot.toNat (some ((r.taintRead pa).readArray r.cur.core ((pa - 2 ^ 52) % 2 ^ 19) n)) []
    rw [State.loadFrom_own base d sz slot.toNat (by rwa [cur])] at run
    refine ⟨_, e, run, stepped, kind, addr, due, dest, others, memory, fun array core => ⟨arrived, ?_, reqs⟩,
      fun away => absurd own away⟩
    rw [data, mem, ← core, arrayAt_arrayCore array]
    rfl
  · have away : ¬ (isArray pa = true ∧ arrayCore pa = r.cur.core) := by rwa [cur]
    have only {l m : PLine} (line : r.scalarLine a = some l) (h : r.scalarLine a = some m) : m = l :=
      Option.some.inj (h.symm.trans line)
    by_cases valid : ∃ l, r.scalarLine a = some l ∧ l.state = .valid
    · obtain ⟨l, line, valid⟩ := valid
      obtain ⟨e, ⟨stepped, ⟨kind, addr, due, dest⟩, others, memory⟩, id, arrived, data, reqs⟩ := view.land base (.load sz) a d
        slot.toNat (some ((r.taintRead pa).readArray r.cur.core (l.slot + a.toNat % 256) n)) []
      rw [State.loadFrom_valid base d sz slot.toNat away line valid] at run
      refine ⟨_, e, run, stepped, kind, addr, due, dest, others, memory, fun array core => absurd ⟨array, core⟩ own,
        fun _ => ⟨fun m h _ => ⟨arrived, ?_, reqs⟩, fun m h pending => ?_, fun retained => ?_⟩⟩
      · rw [only line h, data, mem]
        rfl
      · rw [only line h, valid] at pending
        cases pending
      · cases valid.symm.trans (retained l line)
    by_cases pending : ∃ l, r.scalarLine a = some l ∧ l.state = .pending
    · obtain ⟨l, line, pending⟩ := pending
      obtain ⟨fwd, shape⟩ := State.loadFrom_pending base d sz slot.toNat away line pending
      obtain ⟨e, ⟨stepped, ⟨kind, addr, due, dest⟩, others, memory⟩, id, arrived, data, reqs⟩ :=
        view.land base (.load sz) a d slot.toNat none fwd
      rw [shape] at run
      refine ⟨_, e, run, stepped, kind, addr, due, dest, others, memory, fun array core => absurd ⟨array, core⟩ own,
        fun _ => ⟨fun m h v => absurd ⟨m, h, v⟩ valid, fun m h _ => ⟨arrived, reqs⟩, fun retained => ?_⟩⟩
      cases pending.symm.trans (retained l line)
    · obtain ⟨fwd, shape⟩ := State.loadFrom_send base d sz slot.toNat away fun l line =>
        ⟨fun h => valid ⟨l, line, h⟩, fun h => pending ⟨l, line, h⟩⟩
      obtain ⟨e, ⟨stepped, ⟨kind, addr, due, dest⟩, others, memory⟩, arrived, sent⟩ :=
        (view.dropRetained (r.scalarLine a)).landSend base d sz slot.toNat a pa fwd
      rw [shape] at run
      exact ⟨_, e, run, stepped, kind, addr, due, dest, others, memory, fun array core => absurd ⟨array, core⟩ own,
        fun _ => ⟨fun m h v => absurd ⟨m, h, v⟩ valid, fun m h p => absurd ⟨m, h, p⟩ pending, fun _ => ⟨arrived, sent⟩⟩⟩

end Sys2Proof.Machine
end

section
/-! SUPPORT. Timed landing (R127, R128): the arrival of a landing entry's data, its drop in its slot, and the freeze of a
core whose data is late. -/

namespace Sys2Proof.Machine

open Sys2Proof Sys2Proof.Safety

/-! ## Arrival -/

theorem Core.atomicDone_shape (x : Core) (id : Nat) :
    ∃ a, x.atomicDone id = { x with seq := { x.seq with atomicReq := a } } := by
  unfold Core.atomicDone
  split <;> exact ⟨_, rfl⟩

/-- The state after the data of entry `id` of core `c` arrived by `r`, before the core thaws. -/
def State.landed (s : State) (c id : Nat) (r : Req) : State :=
  (s.dropReq r.id).updCore c fun x =>
    let x := ((x.atomicDone r.id).unwait r.id).unwait id
    { x with seq := { x.seq with landing := x.seq.landing.map fun l => if l.id == id then l.arrive r else l } }

theorem State.landed_seq (s : State) (c id : Nat) (r : Req) :
    ∃ a, (s.landed c id r).seq c = { s.seq c with
      atomicReq := a, landing := (s.seq c).landing.map fun l => if l.id == id then l.arrive r else l } := by
  obtain ⟨a, shape⟩ := (s.core c).atomicDone_shape r.id
  exact ⟨a, by simp only [State.landed, State.seq_updCore, State.dropReq_core, shape]; rfl⟩

theorem exec_landingDataArrived {s : State} {c id : Nat} {r : Req} (arrives : canLandingDataArrived c id s = true)
    (found : s.landingReq c id = some r) (load : r.src = .land c id) :
    exec (.landingDataArrived c id) s = .next ((s.landed c id r).thaw c .lateLanding) := by
  simp only [exec, execLandingDataArrived, arrives, found, load, if_true]
  rfl

theorem canLandingDataArrived_of {s : State} {c : Nat} {l : Landing} {r : Req} (waits : l ∈ (s.seq c).landing)
    (found : s.landingReq c l.id = some r) : canLandingDataArrived c l.id s = true := by
  simp only [canLandingDataArrived, found, Option.isSome_some, Bool.true_and, List.any_eq_true]
  exact ⟨l, waits, beq_self_eq_true _⟩

theorem State.thaw_landed_kept (s : State) (c id : Nat) (r : Req) :
    MemoryKept s ((s.landed c id r).thaw c .lateLanding) := ⟨fun _ => rfl, rfl, rfl, rfl⟩

theorem State.thaw_landed_core (s : State) {c k : Nat} (id : Nat) (r : Req) (other : k ≠ c) :
    ((s.landed c id r).thaw c .lateLanding).core k = s.core k := by
  rw [State.thaw, State.core_updCore_ne _ _ other, State.landed, State.core_updCore_ne _ _ other, State.dropReq_core]

theorem State.thaw_freezes_not_mem (s : State) (c : Nat) (f : Freeze) : f ∉ ((s.thaw c f).core c).freezes := by
  simp [State.thaw_freezes]

/-! ## Drop -/

/-- A landing that is not a 128-bit compare and swap only writes its value to its destination. -/
theorem Seq.drop_of_not_cas128 (q : Seq) {l : Landing} (single : ∀ n, l.kind ≠ .cas128 n) :
    q.drop l = ({ q with landing := q.landing.filter fun x => x.id != l.id } : Seq).write l.dest l.value := by
  unfold Seq.drop
  split
  next n kind => exact absurd kind (single n)
  next => rfl

theorem Seq.write_belt (q : Seq) (d : Dest) (v : Dbl) : (q.write d v).belt = beltAfter q.belt (some (v, d)) := by
  cases d <;> rfl

theorem Seq.write_named (q : Seq) (d : Dest) (v : Dbl) : (q.write d v).named = namedAfter q.named (some (v, d)) := by
  cases d <;> rfl

theorem Seq.write_landing (q : Seq) (d : Dest) (v : Dbl) : (q.write d v).landing = q.landing := by
  cases d <;> rfl

theorem State.dropLanding_seq (s : State) (c : Nat) (l : Landing) : (s.dropLanding c l).seq c = (s.seq c).drop l := by
  rw [State.dropLanding, State.seq_updCore, Core.completeWord_seq, State.seq]

theorem bitVec_ofNat_mod_two_pow (w n : Nat) : BitVec.ofNat w (n % 2 ^ w) = BitVec.ofNat w n :=
  BitVec.eq_of_toNat_eq (by simp)

/-- R137: the value of a load is the field of its width, sign extended for s8, s16 and s32. -/
theorem ldExtend_mod (sz : LdSz) (n : Nat) :
    ldExtend sz (n % 2 ^ (8 * ldBytes sz)) = (let x := BitVec.ofNat (8 * ldBytes sz) n
      match sz with
      | .s8 | .s16 | .s32 => x.signExtend 64
      | _ => x.setWidth 64) := by
  cases sz
  case d64 => exact (bitVec_ofNat_mod_two_pow 64 n).trans (BitVec.setWidth_eq _).symm
  all_goals simp only [ldExtend, ldBytes]; rw [bitVec_ofNat_mod_two_pow]

theorem setWidth_eq_ofNat_mod {v : Nat} (w : Nat) (x : BitVec v) :
    BitVec.ofNat w (x.toNat % 2 ^ w) = x.setWidth w :=
  (bitVec_ofNat_mod_two_pow w _).trans (BitVec.ofNat_toNat ..)

/-- R283: the old value of a 32-bit type is extended by its signedness, the others are 64 bits or extended by zeros. -/
theorem atExtend_mod (ty : AtTy) (x : BitVec 128) :
    atExtend ty (x.toNat % 2 ^ (8 * atBytes ty)) = match ty with
      | .s32 => (x.setWidth 32).signExtend 64
      | .z32 | .f32 | .f16x2 | .bf16x2 => (x.setWidth 32).setWidth 64
      | _ => x.setWidth 64 := by
  cases ty <;> simp only [atExtend, atBytes] <;> rw [setWidth_eq_ofNat_mod]

theorem Landing.value_load {l : Landing} {sz : LdSz} (kind : l.kind = .load sz) :
    l.value = ldExtend sz (l.data.toNat % 2 ^ (8 * ldBytes sz)) := by rw [Landing.value, kind]

theorem Landing.value_atomic {l : Landing} {ty : AtTy} (kind : l.kind = .atomic ty) :
    l.value = atExtend ty (l.data.toNat % 2 ^ (8 * atBytes ty)) := by rw [Landing.value, kind]

theorem Landing.value_record {l : Landing} (kind : l.kind = .record) : l.value = l.data.setWidth 64 := by
  rw [Landing.value, kind]
  exact setWidth_eq_ofNat_mod 64 l.data

theorem exec_landingDrop {s : State} {c : Nat} {l : Landing} (running : (s.core c).freezes = [])
    (due : (s.seq c).due = some l) (there : l.arrived = true) (sound : l.poison = false) :
    exec (.landingDrop c) s = .next (s.dropLanding c l) := by
  simp [exec, execLandingDrop, canLandingDrop, running, due, there, sound]

theorem exec_lateLandingFreeze {s : State} {c : Nat} {l : Landing} (running : (s.core c).freezes = [])
    (due : (s.seq c).due = some l) (late : l.arrived = false) :
    exec (.lateLandingFreeze c) s = .next (s.freeze c .lateLanding) := by
  simp [exec, execLateLandingFreeze, canLateLandingFreeze, running, due, late]

theorem State.updCore_memory (s : State) (c : Nat) (f : Core → Core) : MemoryKept s (s.updCore c f) :=
  ⟨fun _ => rfl, rfl, rfl, rfl⟩

theorem State.updCore_outside (s : State) (c : Nat) (f : Core → Core) : OutsideKept s (s.updCore c f) :=
  ⟨rfl, rfl, rfl, rfl, ⟨rfl, rfl, rfl⟩, ⟨rfl, rfl⟩, ⟨rfl, rfl, rfl⟩, ⟨rfl, rfl⟩, ⟨rfl, rfl⟩, rfl⟩

/-- Settles O18: the arrival, the drop and the freeze each in the one step that the model takes for it. -/
theorem landingEvents : Obligations.LandingEvents := by
  unfold Obligations.LandingEvents
  refine ⟨fun s c r l waits found load => ?_, fun s c l running due there sound single => ?_,
    fun s c l running due late => ?_⟩
  · obtain ⟨a, seq⟩ := s.landed_seq c l.id r
    refine ⟨_, exec_landingDataArrived (canLandingDataArrived_of waits found) found load, ?_,
      State.thaw_freezes_not_mem _ _ _, rfl, ?_, ?_, ?_, fun k other => s.thaw_landed_core l.id r other,
      s.thaw_landed_kept c l.id r⟩
    all_goals rw [State.thaw_seq, seq]
    refine List.mem_map.mpr ⟨l, waits, ?_⟩
    rw [if_pos (beq_self_eq_true _)]
    rfl
  · refine ⟨_, l.value, exec_landingDrop running due there sound, ?_, ?_, ?_, fun sz kind => ?_, fun ty kind => ?_,
      Landing.value_record, fun k other => State.core_updCore_ne s _ other, s.updCore_memory c _, s.updCore_outside c _⟩
    · rw [State.dropLanding_seq, Seq.drop_of_not_cas128 _ single, Seq.write_belt]
    · rw [State.dropLanding_seq, Seq.drop_of_not_cas128 _ single, Seq.write_named]
    · rw [State.dropLanding_seq, Seq.drop_of_not_cas128 _ single, Seq.write_landing]
    · exact (Landing.value_load kind).trans (ldExtend_mod sz _)
    · exact (Landing.value_atomic kind).trans (atExtend_mod ty _)
  · exact ⟨_, exec_lateLandingFreeze running due late, State.freeze_freezes .lateLanding running, s.freeze_seq c _,
      fun k other => State.core_updCore_ne s _ other, s.updCore_memory c _, s.updCore_outside c _⟩

end Sys2Proof.Machine
end

section
/-! SUPPORT. ST (R129, R138, R192): the bytes of a store in the core's own array or in a valid probe line, or the write that
it sends. -/

namespace Sys2Proof.Machine

open Sys2Proof Sys2Proof.Safety

/-- A state that a store on `s` reaches before it writes, its address looked up in `r`: its task may be irrevocable and a
line of its own core dropped. -/
structure StoreView (s r u : State) : Prop where
  cur : u.cur = s.cur
  seq : u.seq s.cur.core = s.seq s.cur.core
  mem : u.mem = r.mem
  reqs : u.reqs = s.reqs

theorem StoreView.looked {s r : State} (h : Looked s r) : StoreView s r r :=
  ⟨Looked.cur h, Looked.seq h _, rfl, Looked.reqs h⟩

theorem StoreView.nextPc {s r u : State} (h : StoreView s r u) : u.nextPc = s.nextPc := by
  rw [State.nextPc, State.nextPc, h.cur]

/-- The state with its task irrevocable where the store binds a region (R138). -/
def State.bound (s : State) (a : Dbl) (n : Nat) : State := if s.storeBinds a n then s.irrevocable else s

theorem State.bound_scalarLine (s : State) (a b : Dbl) (n : Nat) : (s.bound a n).scalarLine b = s.scalarLine b := by
  unfold State.bound
  split
  · exact s.irrevocable_scalarLine b
  · rfl

theorem StoreView.bound {s r u : State} (h : StoreView s r u) (a : Dbl) (n : Nat) : StoreView s r (u.bound a n) := by
  unfold State.bound
  split
  · exact ⟨h.cur, (u.irrevocable_seq _).trans h.seq, h.mem, h.reqs⟩
  · exact h

theorem StoreView.dropRetained {s r u : State} (h : StoreView s r u) (l : Option PLine) : StoreView s r (u.dropRetained l) := by
  obtain ⟨cs, shape⟩ := u.dropRetained_shape l
  have seq := (u.dropRetained_seq l s.cur.core).trans h.seq
  rw [shape] at seq ⊢
  exact ⟨h.cur, seq, h.mem, h.reqs⟩

/-- Bytes `bs` stand at place `p` after the write `t`, and every other byte is as it was. -/
def Holds (before after : List Host.Cell) (p : Nat) (bs : List Byte) : Prop :=
  ∀ x, memRead after x = if p ≤ x ∧ x < p + bs.length then bs.getD (x - p) 0 else memRead before x

/-! ## A store into the core's own array -/

/-- The write of a store into its own array, before its issue. -/
def State.storeOwn (u : State) (pa : Nat) (bs : List Byte) : State :=
  (u.writeArray u.cur.core ((pa - 2 ^ 52) % 2 ^ 19) bs).fireLine pa

theorem StoreView.storeOwn {s r u : State} (h : StoreView s r u) (wf : Memory.wf r.mem = true) (marks : List Src) {pa : Nat}
    (bs : List Byte) (own : isArray pa = true ∧ arrayCore pa = u.cur.core) :
    Stepped (s.seq s.cur.core) (((u.storeOwn pa bs).issue marks 1 none).seq s.cur.core) 1 marks none s.nextPc (fun q => q)
      ∧ Holds r.mem ((u.storeOwn pa bs).issue marks 1 none).mem pa bs := by
  have quiet := Quiet.fireLine (u.writeArray u.cur.core ((pa - 2 ^ 52) % 2 ^ 19) bs) pa
  have cur : (u.storeOwn pa bs).cur = s.cur := quiet.cur.trans h.cur
  have seq : (u.storeOwn pa bs).seq s.cur.core = s.seq s.cur.core := (quiet.seqs _).trans h.seq
  have next : (u.storeOwn pa bs).nextPc = s.nextPc := by rw [State.nextPc, State.nextPc, cur]
  have issued := (u.storeOwn pa bs).retired_issue marks none
  have stepped := issued.stepped (g := fun q => q) rfl
  rw [cur, seq, next] at stepped
  have mem : (u.storeOwn pa bs).mem = memWrites pa bs r.mem := by
    rw [State.storeOwn, quiet.mem.1, State.writeArray, ← own.2, arrayAt_arrayCore own.1, h.mem]
  exact ⟨stepped, fun x => (issued.memory.bytes x).trans (by rw [mem, memRead_memWrites wf])⟩

/-! ## A store into a valid probe line -/

theorem lineMask_getLsbD {n o i : Nat} (small : i < n) (fits : o + n ≤ 256) :
    ((BitVec.ofNat 256 (2 ^ n - 1)) <<< o).getLsbD (o + i) = true := by
  rw [BitVec.getLsbD_shiftLeft, Nat.add_sub_cancel_left, BitVec.getLsbD_ofNat, Nat.testBit_two_pow_sub_one]
  simp only [decide_eq_true (show o + i < 256 by omega), decide_eq_false (show ¬ o + i < o by omega),
    decide_eq_true (show i < 256 by omega), decide_eq_true small, Bool.not_false, Bool.and_self]

/-- The bytes that a store writes into a line are dirty there (R192). -/
theorem State.writeLine_dirty (u : State) (l : PLine) (a : Nat) (bs : List Byte) :
    ∀ m ∈ ((u.writeLine l a bs).core u.cur.core).copy.lines, m.slot = l.slot → ∀ i, i < bs.length → a % 256 + bs.length ≤ 256 →
      m.dirty.getLsbD (a % 256 + i) = true := by
  intro m line slot i small fits
  simp only [State.writeLine, State.core_updCore, Core.updLine] at line
  obtain ⟨k, -, rfl⟩ := List.mem_map.mp line
  by_cases same : (k.slot == l.slot) = true
  · rw [if_pos same, BitVec.getLsbD_or, lineMask_getLsbD small fits, Bool.or_true]
  · rw [if_neg same] at slot
    exact absurd (beq_iff_eq.mpr slot) same

/-- A write into a line changes no more of the sequencer than the bytes of the stores it has sent. -/
theorem State.writeLine_seq (u : State) (l : PLine) (a : Nat) (bs : List Byte) :
    ∃ ps, (u.writeLine l a bs).seq u.cur.core = { u.seq u.cur.core with stores := ps } :=
  ⟨_, State.seq_updCore ..⟩

/-- What a store into the valid line `l` leaves. -/
structure LineStored (s r t : State) (l : PLine) (a : Nat) (bs : List Byte) : Prop where
  pc : (t.seq s.cur.core).pc = s.nextPc
  st : (t.seq s.cur.core).st = (s.seq s.cur.core).st
  belt : (t.seq s.cur.core).belt = (s.seq s.cur.core).belt
  named : (t.seq s.cur.core).named = (s.seq s.cur.core).named
  reqs : t.reqs = s.reqs
  bytes : Holds r.mem t.mem (arrayAt s.cur.core (l.slot + a % 256)) bs
  dirty : ∀ m ∈ (t.core s.cur.core).copy.lines, m.slot = l.slot → ∀ i, i < bs.length → a % 256 + bs.length ≤ 256 →
    m.dirty.getLsbD (a % 256 + i) = true

theorem StoreView.writeLine {s r u : State} (h : StoreView s r u) (wf : Memory.wf r.mem = true) (marks : List Src) (l : PLine)
    (a : Nat) (bs : List Byte) : LineStored s r ((u.writeLine l a bs).issue marks 1 none) l a bs := by
  obtain ⟨ps, seq⟩ := u.writeLine_seq l a bs
  have cur : (u.writeLine l a bs).cur = u.cur := rfl
  have next : (u.writeLine l a bs).nextPc = s.nextPc := h.nextPc
  have issued := (u.writeLine l a bs).retired_issue marks none
  obtain ⟨pc, -, -, ⟨belt, named, -⟩, ⟨-, -, -, -, ⟨-, st, -⟩, -⟩, engines, -, memory, outside⟩ := issued
  rw [cur, h.cur] at pc belt named st engines
  rw [h.cur, h.seq] at seq
  have dirty := u.writeLine_dirty l a bs
  rw [h.cur] at dirty
  refine ⟨pc.trans next, st.trans (congrArg Seq.st seq :), belt.trans (congrArg Seq.belt seq :),
    named.trans (congrArg Seq.named seq :), outside.reqs.1.trans h.reqs, fun x => (memory.bytes x).trans ?_, ?_⟩
  · rw [show (u.writeLine l a bs).mem = memWrites (arrayAt s.cur.core (l.slot + a % 256)) bs r.mem by rw [← h.mem, ← h.cur]; rfl,
      memRead_memWrites wf]
  · rw [engines.copy]
    exact dirty

/-! ## A store that leaves the core -/

theorem StoreView.storeOut {s r u : State} (h : StoreView s r u) (marks : List Src) (a : Dbl) (pa : Nat) (bs : List Byte) :
    ∃ p q, Stepped (s.seq s.cur.core) ((u.storeOut marks a pa bs).seq s.cur.core) 1 marks none s.nextPc
        (fun q => { q with st := q.st + 1, stores := q.stores ++ [p] })
      ∧ (∀ x, memRead (u.storeOut marks a pa bs).mem x = memRead r.mem x) ∧ (u.storeOut marks a pa bs).reqs = s.reqs ++ [q]
      ∧ p.reqs = [q.id] ∧ p.bytes = bs ∧ q.src = .store s.cur.core p.wid ∧ q.kind = .write ∧ q.pa = pa ∧ q.data = bs
      ∧ q.phase = .travel := by
  obtain ⟨p, q, issued, mem, reqs, sent⟩ := u.storeOut_shape marks a pa bs
  have stepped := CoreRetired.stepped issued (g := fun q => { q with st := q.st + 1, stores := q.stores ++ [p] }) rfl
  rw [h.nextPc, h.cur] at stepped
  rw [h.cur] at sent
  rw [h.reqs] at reqs
  exact ⟨p, q, h.seq ▸ stepped, fun x => by rw [mem, h.mem], reqs, sent⟩

/-! ## Where a store writes -/

section
variable {r : State} {pa : Nat} {a : Dbl} (marks : List Src) (bs : List Byte)

theorem State.storeTo_own (own : isArray pa = true ∧ arrayCore pa = r.cur.core) :
    r.storeTo marks a pa bs = ((r.bound a bs.length).storeOwn pa bs).issue marks 1 none := by
  have here : (isArray pa && arrayCore pa == r.cur.core) = true := by simp [own.1, own.2]
  have cur : (r.bound a bs.length).cur = r.cur := by unfold State.bound; split <;> rfl
  simp only [State.storeTo, here, if_true, State.storeOwn, cur]
  rfl

section
variable (away : ¬ (isArray pa = true ∧ arrayCore pa = r.cur.core))
include away

theorem State.portFirst_away (n : Nat) : ¬ r.portFirst pa n = true := by
  simp only [State.portFirst, not_own away, Bool.false_and, Bool.false_eq_true, not_false_eq_true]

theorem State.storeTo_valid {l : PLine} (line : r.scalarLine a = some l) (valid : l.state = .valid) :
    r.storeTo marks a pa bs = ((r.bound a bs.length).writeLine l a.toNat bs).issue marks 1 none := by
  have found := (r.bound_scalarLine a a bs.length).trans line
  unfold State.bound at found ⊢
  simp only [State.storeTo, not_own away, Bool.false_eq_true, if_false, found, valid]

/-- Without a line, or with a retained one, which is dropped, the store leaves the core. -/
theorem State.storeTo_out (line : ∀ l, r.scalarLine a = some l → l.state = .retained) :
    r.storeTo marks a pa bs = ((r.bound a bs.length).dropRetained (r.scalarLine a)).storeOut marks a pa bs := by
  have same := r.bound_scalarLine a a bs.length
  unfold State.bound at same ⊢
  simp only [State.storeTo, not_own away, Bool.false_eq_true, if_false, same]
  cases found : r.scalarLine a with
  | none => rfl
  | some l => simp only [line l found]

end

end

/-! ## ST -/

theorem exec_st {s r : State} {base data : Src} {sz : StSz} {off : Imm 0} {pa : Nat} (fresh : Fresh s [base, data])
    (looked : Looked s r)
    (there : s.scalar (operand s base + BitVec.ofInt 64 off.int) (stBytes sz) Need.write [.wr, .rw] = (r, .ok pa))
    (regions : r.regionWait s.cur.core (operand s base + BitVec.ofInt 64 off.int) (stBytes sz) [.rd, .wr, .rw, .acc, .atom]
      = false) (room : (s.seq s.cur.core).st ≠ 15) :
    exec (.st base data sz off) s = .next (if r.portFirst pa (stBytes sz) then r.stallSeq 15
      else r.storeTo [base, data] (operand s base + BitVec.ofInt 64 off.int) pa
        (leBytes (stBytes sz) (operand s data).toNat)) := by
  have opd : operand r data = operand s data := by
    rw [← State.opd_eq_operand, ← State.opd_eq_operand, State.opd, State.opd, Looked.cur looked, Looked.seq looked]
  have free : ¬ (r.seq s.cur.core).st = 15 := by rwa [Looked.seq looked]
  simp only [exec, execSt, State.withOperands_fresh fresh, State.opd_eq_operand, immDbl, there, regions, if_neg free, opd,
    Bool.false_eq_true, if_false]

/-- Settles O19: the cases of `State.storeTo`, by `StoreView.storeOwn`, `StoreView.writeLine` and `StoreView.storeOut`. -/
theorem storeWord : Obligations.StoreWord := by
  intro s r base data sz off pa fresh wf c a n bs there regions room
  have looked : Looked s r := by
    have h := s.scalar_looked a n Need.write [.wr, .rw]
    rwa [there] at h
  have sound : Memory.wf r.mem = true := by
    have h := s.scalar_wf a n Need.write [.wr, .rw] wf
    rwa [there] at h
  have cur : r.cur = s.cur := Looked.cur looked
  have here : r.cur.core = c := congrArg _ cur
  have length : bs.length = n := leBytes_length ..
  have run := exec_st fresh looked there regions room
  have view := (StoreView.looked looked).bound a bs.length
  refine ⟨looked, fun first => ⟨_, run.trans (by rw [if_pos first]), ?_⟩, fun array core later => ?_,
    fun away l line valid => ?_, fun away line => ?_⟩
  · exact Stalled.stallSeq r 15
  · have own : isArray pa = true ∧ arrayCore pa = r.cur.core := ⟨array, core.trans here.symm⟩
    obtain ⟨stepped, bytes⟩ := view.storeOwn sound [base, data] bs (by rwa [view.cur, ← cur])
    refine ⟨_, run.trans (by rw [if_neg (ne_true_of_eq_false later), State.storeTo_own _ _ own]), stepped, fun x => ?_⟩
    rw [← length]
    exact bytes x
  · rw [← here] at away
    obtain ⟨pc, st, belt, named, reqs, bytes, dirty⟩ := view.writeLine sound [base, data] l a.toNat bs
    refine ⟨_, run.trans (by rw [if_neg (State.portFirst_away away _), State.storeTo_valid _ _ away line valid]), pc, st, belt,
      named, reqs, fun x => ?_, ?_⟩
    · rw [← length]
      exact bytes x
    · rw [← length]
      exact dirty
  · rw [← here] at away
    obtain ⟨p, q, stored⟩ := (view.dropRetained (r.scalarLine a)).storeOut [base, data] a pa bs
    exact ⟨_, p, q, run.trans (by rw [if_neg (State.portFirst_away away _), State.storeTo_out _ _ away line]), stored⟩

end Sys2Proof.Machine
end

section
/-! SUPPORT. The end of a task (R151, R309): TEND's steps, what its last step releases, and the task leaving its cores. -/

namespace Sys2Proof.Machine

open Sys2Proof Sys2Proof.Safety

/-! ## Residuals delivered and lines written back -/

theorem State.deliverAll_cur (s : State) (c : Nat) : (s.deliverAll c).cur = s.cur := (Walked.deliverAll s c).cur

/-- No residual slot of the core is left VALID. -/
theorem State.deliverAll_empty (s : State) (c : Nat) {i : Nat} (slot : i < 64) :
    (((s.deliverAll c).core c).resTag i).valid = false := by
  rw [State.deliverAll, (deliverSlots_shape c (List.range 64) s).2.1 i]
  simp [slot]

theorem State.stallSeq_resTag (s : State) (code i : Nat) :
    (((s.stallSeq code).core s.cur.core).resTag i).valid = ((s.core s.cur.core).resTag i).valid := by
  rw [State.stallSeq, State.core_updCore, resTag_cycle]
  rfl

theorem State.stallSeq_dirtyLines (s : State) (code : Nat) :
    ((s.stallSeq code).core s.cur.core).dirtyLines = (s.core s.cur.core).dirtyLines := by
  rw [State.stallSeq, State.core_updCore]
  rfl

/-- A word that moves its sequencer to its next step and waits keeps the residual slots and the lines of its core. -/
theorem State.waits_resTag {s : State} {c : Nat} (cur : s.cur.core = c) (f : Machine.Seq → Machine.Seq) (code i : Nat) :
    ((((s.updSeq c f).stallSeq code).core c).resTag i).valid = ((s.core c).resTag i).valid := by
  subst cur
  exact ((s.updSeq s.cur.core f).stallSeq_resTag code i).trans (by rw [State.updSeq_cur, State.core_updSeq]; rfl)

theorem State.waits_dirtyLines {s : State} {c : Nat} (cur : s.cur.core = c) (f : Machine.Seq → Machine.Seq) (code : Nat) :
    (((s.updSeq c f).stallSeq code).core c).dirtyLines = (s.core c).dirtyLines := by
  subst cur
  exact ((s.updSeq s.cur.core f).stallSeq_dirtyLines code).trans (by rw [State.updSeq_cur, State.core_updSeq]; rfl)

theorem State.waits_pc {s : State} {c : Nat} (cur : s.cur.core = c) (p code : Nat) :
    (((s.updSeq c fun q => { q with phase := p }).stallSeq code).seq c).pc = (s.seq c).pc := by
  rw [State.seq_waits cur]

theorem State.waits_memory (s : State) (c : Nat) (f : Machine.Seq → Machine.Seq) (code : Nat) :
    MemoryKept s ((s.updSeq c f).stallSeq code) := ⟨fun _ => rfl, rfl, rfl, rfl⟩

/-! ## TEND, step by step -/

section
variable {s : State}

theorem exec_tend_deliver (fresh : Fresh s []) (ready : (s.core s.cur.core).tendReady = true)
    (alone : s.gangWaits s.cur.core = false) :
    exec .tend s = .next (((s.deliverAll s.cur.core).updSeq s.cur.core fun q => { q with phase := 1 }).stallSeq 12) := by
  simp only [exec, execTend, State.withOperands_fresh fresh, fresh.1, ready, alone, if_true, Bool.not_true,
    Bool.false_eq_true, if_false]

theorem exec_tend_writeBack (phase : (s.seq s.cur.core).phase = 1) (applied : s.addendsDone s.cur.core = true) :
    exec .tend s = .next (((s.writeBackAll s.cur.core).updSeq s.cur.core fun q => { q with phase := 2 }).stallSeq 12) := by
  simp only [exec, execTend, State.withOperands_later (show (s.seq s.cur.core).phase ≠ 0 by omega), phase, applied,
    Nat.one_ne_zero, if_true, if_false, Bool.not_true, Bool.false_eq_true]

theorem exec_tend_last (phase : 2 ≤ (s.seq s.cur.core).phase) (written : (s.core s.cur.core).copy.wbs = []) :
    exec .tend s = .next (if s.pureOpen s.cur.core then (s.updSeq s.cur.core fun q => { q with phase := 3 }).stallSeq 12
      else s.endTask) := by
  simp only [exec, execTend, State.withOperands_later (show (s.seq s.cur.core).phase ≠ 0 by omega),
    if_neg (show ¬ (s.seq s.cur.core).phase = 0 by omega), if_neg (show ¬ (s.seq s.cur.core).phase = 1 by omega), written,
    bne_self_eq_false, Bool.false_eq_true, if_false]

end

/-! ## What TEND releases -/

/-- Claims were released: no KEEP and no lease changed. -/
structure Unclaimed (s t : State) : Prop where
  keep : ∀ k, (t.core k).mat.keep = (s.core k).mat.keep
  lease : ∀ q, (t.quad q).leaseHolder = (s.quad q).leaseHolder

theorem Unclaimed.refl (s : State) : Unclaimed s s := ⟨fun _ => rfl, fun _ => rfl⟩

theorem Unclaimed.trans {s t u : State} (h : Unclaimed s t) (k : Unclaimed t u) : Unclaimed s u :=
  ⟨fun c => (k.keep c).trans (h.keep c), fun q => (k.lease q).trans (h.lease q)⟩

theorem Unclaimed.updCore (s : State) (c : Nat) (f : Core → Core) (same : ∀ x, (f x).mat.keep = x.mat.keep) :
    Unclaimed s (s.updCore c f) := by
  refine ⟨fun k => ?_, fun _ => rfl⟩
  by_cases own : k = c
  · rw [own, State.core_updCore, same]
  · rw [State.core_updCore_ne _ _ own]

theorem Unclaimed.updQuad (s : State) (q : Nat) (f : Quad → Quad) (same : ∀ x, (f x).leaseHolder = x.leaseHolder) :
    Unclaimed s (s.updQuad q f) := by
  refine ⟨fun _ => rfl, fun k => ?_⟩
  by_cases own : k = q
  · rw [own, State.quad_updQuad, same]
  · rw [State.quad_updQuad_ne _ _ own]

theorem Unclaimed.setRow (s : State) (q r : Nat) (o : Row) : Unclaimed s (s.setRow q r o) := by
  unfold State.setRow
  split
  · exact Unclaimed.updCore _ _ _ fun _ => rfl
  · exact Unclaimed.updQuad _ _ _ fun _ => rfl

theorem Unclaimed.foldl {α : Type} (g : State → α → State) (step : ∀ s a, Unclaimed s (g s a)) (l : List α) :
    ∀ s, Unclaimed s (l.foldl g s) := by
  induction l with
  | nil => exact Unclaimed.refl
  | cons a l ih => exact fun s => (step s a).trans (ih _)

theorem Mat.setClaim_keep (m : Mat) (side : MSide) (w : Word) : (m.setClaim side w).keep = m.keep := by
  cases side <;> rfl

theorem Unclaimed.dropClaim (s : State) (c : Nat) (side : MSide) (mask : Word) : Unclaimed s (s.dropClaim c side mask) := by
  simp only [State.dropClaim]
  refine Unclaimed.trans ?_ (Unclaimed.updCore _ _ _ fun x => x.mat.setClaim_keep side _)
  exact Unclaimed.foldl _ (fun _ _ => Unclaimed.setRow ..) _ s

theorem Unclaimed.dropClaims (s : State) (c : Nat) : Unclaimed s (s.dropClaims c) :=
  ((Unclaimed.dropClaim ..).trans (Unclaimed.dropClaim ..)).trans (Unclaimed.dropClaim ..)

/-- The core no longer holds its quad's lease. -/
theorem State.dropLease_holder (s : State) {c : Nat} (core : c < 384) :
    ((s.dropLease c).quad (quadOf c)).leaseHolder ≠ some c := by
  by_cases held : (s.quad (quadOf c)).leaseHolder = some c
  · rw [State.dropLease_held core held, State.quad_updQuad]
    exact fun h => nomatch h
  · rw [State.dropLease, if_neg fun h => held h.2]
    exact held

/-- The gang that the core belongs to is dissolved, if one is formed. -/
def State.dissolved (s : State) (c : Nat) : State :=
  (if (s.core c).mat.formed then s.taskMembers c else []).foldl
    (fun s m => s.updCore m fun x => { x with mat := { x.mat with formed := false } }) s

/-- The core's task has finished, and KEEP is clear. -/
def Core.finish (x : Core) : Core :=
  { x with task := x.task.map fun (t : Task) => { t with finished := true }, mat := { x.mat with keep := false } }

theorem State.endTask_eq (s : State) :
    s.endTask = (((((s.dissolved s.cur.core).issue [] 1 none).updCore s.cur.core Core.finish).dropLease s.cur.core).dropClaims
      s.cur.core) := rfl

theorem State.dissolved_kept (s : State) (c : Nat) :
    (s.dissolved c).cur = s.cur ∧ ∀ k, (s.dissolved c).seq k = s.seq k := by
  obtain ⟨cores, cs, shape⟩ := formed_shape (if (s.core c).mat.formed then s.taskMembers c else []) s
  refine ⟨(congrArg State.cur shape :), fun k => ?_⟩
  obtain ⟨b, core⟩ := cores k
  exact (congrArg Core.seq core :)

/-- Being finished is part of a task's name. -/
theorem finished_of_name {o p : Option Task} (name : o.map Task.name = p.map Task.name) (h : p.all (·.finished) = true) :
    o.all (·.finished) = true := by
  cases o with
  | none => rfl
  | some x =>
    cases p with
    | none => cases name
    | some y =>
      have finished : x.finished = y.finished := congrArg (·.2.2.1.1) (Option.some.inj name)
      exact finished.trans h

/-- TEND's last step: the word issues, the task has finished, and KEEP and the lease are gone. -/
theorem State.endTask_spec (s : State) :
    Stepped (s.seq s.cur.core) (s.endTask.seq s.cur.core) 1 [] none s.nextPc (fun q => q)
      ∧ (s.endTask.core s.cur.core).task.all (·.finished) = true ∧ (s.endTask.core s.cur.core).mat.keep = false
      ∧ (s.cur.core < 384 → (s.endTask.quad (s.cur.core / 4)).leaseHolder ≠ some s.cur.core) := by
  obtain ⟨cur, seq⟩ := s.dissolved_kept s.cur.core
  have stepped := ((s.dissolved s.cur.core).retired_issue [] none).stepped (g := fun q => q) rfl
  rw [cur, seq, show (s.dissolved s.cur.core).nextPc = s.nextPc by rw [State.nextPc, State.nextPc, cur]] at stepped
  rw [State.endTask_eq]
  generalize (s.dissolved s.cur.core).issue [] 1 none = u at stepped
  have core : ((u.updCore s.cur.core Core.finish).dropLease s.cur.core).core s.cur.core = (u.core s.cur.core).finish := by
    rw [dropLease_core, State.core_updCore]
  have lease := fun h : s.cur.core < 384 => (u.updCore s.cur.core Core.finish).dropLease_holder h
  generalize (u.updCore s.cur.core Core.finish).dropLease s.cur.core = v at core lease
  have walked := Walked.dropClaims v s.cur.core
  have unclaimed := Unclaimed.dropClaims v s.cur.core
  refine ⟨?_, finished_of_name (walked.who s.cur.core) ?_, ?_, fun h => ?_⟩
  · rw [show (v.dropClaims s.cur.core).seq s.cur.core = u.seq s.cur.core from (walked.seqs _).trans (congrArg Core.seq core :)]
    exact stepped
  · rw [core, Core.finish]
    cases (u.core s.cur.core).task <;> rfl
  · rw [unclaimed.keep, core]
    rfl
  · rw [unclaimed.lease]
    exact lease h

/-! ## The task leaves its cores (R309) -/

/-- What TASK_COMPLETE counts for a pure task leaves every core and every registry. -/
theorem exec_taskComplete {s : State} {c : Nat} {k : Task} (finished : canTaskComplete c s = true) (task : (s.core c).task = some k) :
    ∃ u : State, exec (.taskComplete c) s = .next ((u.clearCores k k.members).taskOver k.fn k.wq k.rseq k.tseq)
      ∧ (u.fn k.fn).registry = (s.fn k.fn).registry := by
  have counted (f : FwCounters → FwCounters) : ((s.countFw k.fn (dieOf c) f).fn k.fn).registry = (s.fn k.fn).registry := by
    rw [fn_countFw]
  simp only [exec, execTaskComplete, finished, task, if_true]
  refine ⟨_, rfl, ?_⟩
  split
  · rfl
  · split
    · exact counted _
    · exact counted _

theorem task_eq_none_of_name {o p : Option Task} (name : o.map Task.name = p.map Task.name) (h : p = none) : o = none := by
  rw [h, Option.map_none, Option.map_eq_none_iff] at name
  exact name

/-- A task that is over has left the registry, and no core takes one. -/
theorem State.taskOver_spec (s : State) (fn wq rseq tseq : Nat) :
    ((s.taskOver fn wq rseq tseq).fn fn).registry
        = (s.fn fn).registry.filter (fun g => !(g.wq == wq && g.rseq == rseq && g.tseq == tseq))
      ∧ ∀ m, (s.core m).task = none → ((s.taskOver fn wq rseq tseq).core m).task = none := by
  have walked := taskOver_shape s fn wq rseq tseq
  refine ⟨(walked.fns fn).lists.1.trans ?_, fun m free => task_eq_none_of_name (walked.who m) free⟩
  rw [State.fn_updFn]

/-- Settles O38: one part for each of TEND's steps, and the task's end. -/
theorem taskEnd : Obligations.TaskEnd := by
  unfold Obligations.TaskEnd
  refine ⟨fun s fresh ready alone => ?deliver, fun s phase applied => ?writeBack, fun s phase written => ⟨fun isOpen => ?entry,
    fun closed => ?last⟩, fun s c k finished task => ?complete⟩
  case deliver =>
    have cur := congrArg (·.core) (s.deliverAll_cur s.cur.core)
    refine ⟨_, exec_tend_deliver fresh ready alone, ?_, ?_, ?_, fun i slot => ?_⟩
    · rw [State.seq_waits cur]
    · rw [State.seq_waits cur]
    · rw [State.waits_pc cur, State.seq, (Walked.deliverAll s s.cur.core).seqs, State.seq]
    · rw [State.waits_resTag cur, State.deliverAll_empty _ _ slot]
  case writeBack =>
    have flushed : Flushed s (s.writeBackAll s.cur.core) := Flushed.writeBackList ..
    have cur := congrArg (·.core) flushed.kept.2
    refine ⟨_, exec_tend_writeBack phase applied, ?_, ?_, ?_, ?_, MemoryKept.trans flushed.kept.1 (State.waits_memory ..)⟩
    · rw [State.seq_waits cur]
    · rw [State.seq_waits cur]
    · rw [State.waits_pc cur, State.seq, (Walked.writeBackAll s s.cur.core).seqs, State.seq]
    · rw [State.waits_dirtyLines cur, writeBackAll_clean]
  case entry =>
    refine ⟨_, (exec_tend_last phase written).trans (by rw [if_pos isOpen]), ?_, ?_⟩
    · rw [State.seq_waits rfl]
    · rw [State.seq_waits rfl]
  case last =>
    exact ⟨_, (exec_tend_last phase written).trans (by rw [if_neg (ne_true_of_eq_false closed)]), s.endTask_spec⟩
  case complete =>
    obtain ⟨u, run, registry⟩ := exec_taskComplete finished task
    obtain ⟨free, kept⟩ := clearCores_shape k k.members u
    obtain ⟨left, stays⟩ := (u.clearCores k k.members).taskOver_spec k.fn k.wq k.rseq k.tseq
    refine ⟨_, run, fun m member => stays m (free m (.inl member)), ?_⟩
    rw [left, (kept k.fn).lists.1, registry]

end Sys2Proof.Machine
end

section
/-! SUPPORT. YIELD (R150, R316): the steps of the word, and the offer of its core. -/

namespace Sys2Proof.Machine

open Sys2Proof Sys2Proof.Safety

/-! ## YIELD, step by step -/

section
variable {s : State}

theorem exec_yield_first (fresh : Fresh s []) (queues : (s.core s.cur.core).queuesEmpty = true)
    (signals : (s.core s.cur.core).noSignals = true) (stores : (s.seq s.cur.core).st = 0) :
    exec .yield s = .next ((((s.deliverAll s.cur.core).writeBackAll s.cur.core).updSeq s.cur.core fun q =>
      { q with phase := 1 }).stallSeq 11) := by
  have phase := fresh.1
  simp only [State.seq] at phase stores
  simp [exec, execYield, State.withOperands_fresh fresh, phase, queues, signals, stores]

theorem exec_yield_ready (phase : (s.seq s.cur.core).phase = 1) (ready : s.yieldReady s.cur.core = true) :
    exec .yield s = .next ((s.updSeq s.cur.core fun q => { q with phase := 2 }).stallSeq 11) := by
  have later := State.withOperands_later (reads := []) (show (s.seq s.cur.core).phase ≠ 0 by omega)
  simp only [State.seq] at phase
  simp [exec, execYield, later, phase, ready]

theorem exec_yield_resumed (phase : (s.seq s.cur.core).phase = 3) : exec .yield s = .next (s.issue [] 1 none) := by
  have later := State.withOperands_later (reads := []) (show (s.seq s.cur.core).phase ≠ 0 by omega)
  simp only [State.seq] at phase
  simp [exec, execYield, later, phase]

end

theorem Flushed.resTag {s t : State} (h : Flushed s t) (c i : Nat) : (t.core c).resTag i = (s.core c).resTag i := by
  obtain ⟨cp, core⟩ := h.cores c
  rw [core]
  rfl

/-! ## A task that leaves its core -/

theorem Walked.updQuad (s : State) (q : Nat) (f : Quad → Quad) : Walked s (s.updQuad q f) :=
  Walked.aside ⟨rfl, rfl, rfl, rfl, rfl⟩

/-- A task set aside joins those that are not resident, and no task leaves a registry. -/
theorem Walked.setAside {s u : State} (walked : Walked s u) (v : Saved) (c : Nat) (g : Core → Core) :
    let t := (u.updFn v.task.fn fun f => { f with away := f.away ++ [v] }).updCore c g
    (∀ f, (t.fn f).registry = (s.fn f).registry) ∧ v ∈ (t.fn v.task.fn).away := by
  intro t
  have fn (f : Nat) : t.fn f = (u.updFn v.task.fn fun f => { f with away := f.away ++ [v] }).fn f := rfl
  refine ⟨fun f => ?_, ?_⟩
  · rw [fn, ← (walked.fns f).lists.1]
    by_cases own : f = v.task.fn
    · rw [own, State.fn_updFn]
    · rw [State.fn_updFn_ne _ _ own]
  · rw [fn, State.fn_updFn]
    exact List.mem_append_right _ List.mem_cons_self

theorem State.vacate_spec {s : State} {c : Nat} {t : Task} (task : (s.core c).task = some t) (addr : Option Nat) :
    (∀ f, ((s.vacate c addr).fn f).registry = (s.fn f).registry)
      ∧ ∃ v ∈ ((s.vacate c addr).fn t.fn).away, v.place = c ∧ v.task = t := by
  have held : Walked s ((((s.forgetLoads c).unmonitor c).dropLease c).markRows (quadOf c) t.row .held) :=
    Walked.trans (Walked.trans (Walked.trans (Walked.orphan ..) (Walked.unmonitor ..)) (Walked.dropLease ..)) (Walked.markRows ..)
  simp only [State.vacate, task]
  split
  · have emptied := Walked.trans held (Walked.updQuad _ (quadOf c) fun x => { x with partials := [] })
    obtain ⟨registries, away⟩ := emptied.setAside ⟨c, addr, t, ((((s.forgetLoads c).unmonitor c).dropLease c).core c)⟩ c _
    exact ⟨registries, _, away, rfl, rfl⟩
  · obtain ⟨registries, away⟩ := held.setAside ⟨c, addr, t, ((((s.forgetLoads c).unmonitor c).dropLease c).core c)⟩ c _
    exact ⟨registries, _, away, rfl, rfl⟩

/-- The state in which the yielding task `w` has left its core (R316). -/
def State.yielded (s : State) (c : Nat) : State :=
  ((s.updCore c fun x => { x with task := x.task.map fun (t : Task) => { t with yielded := true } }).updSeq c fun q =>
    { q with phase := 3 }).vacate c none

theorem State.yielded_spec {s : State} {c : Nat} {w : Task} (task : (s.core c).task = some w) :
    (∀ f, ((s.yielded c).fn f).registry = (s.fn f).registry)
      ∧ ∃ v ∈ ((s.yielded c).fn w.fn).away, v.place = c ∧ v.task = { w with yielded := true } := by
  refine State.vacate_spec (t := { w with yielded := true }) ?_ none
  rw [State.core_updSeq, State.core_updCore, task]
  rfl

/-- A race is a matter of the registry alone (R312). -/
theorem State.race_congr {s t : State} {fn : Nat} (registry : (t.fn fn).registry = (s.fn fn).registry) (wq rseq : Nat)
    (rs : List Region) : t.race fn wq rseq rs = s.race fn wq rseq rs := by
  rw [State.race, State.race, registry]

/-! ## The offer (R316) -/

/-- No task that an earlier YIELD of the core descheduled waits for it. -/
theorem State.nextHere_none {s : State} {fn : Nat} (here : ∀ v ∈ (s.fn fn).away, v.task.yielded = false) (c : Nat) :
    s.nextHere c fn = none := by
  rw [State.nextHere, List.filter_eq_nil_iff.mpr fun v away => by simp [here v away]]
  rfl

section
variable {s : State} {c : Nat} {w : Task} (offered : canYieldOffer c s = true) (task : (s.core c).task = some w)
include offered task

theorem exec_yieldOffer_back
    (keeps : w.gang ≠ 0 ∨ (s.ownedCores w.fn (c / 24)).any s.coreFree = true ∨ (s.fn w.fn).suspended = true) :
    exec (.yieldOffer c) s = .next (s.updSeq c fun q => { q with phase := 3 }) := by
  simp only [exec, execYieldOffer, offered, task, if_true]
  rw [if_pos]
  exact keeps

theorem exec_yieldOffer_leaves {k : Candidate} (single : w.gang = 0)
    (full : (s.ownedCores w.fn (c / 24)).any s.coreFree = false) (runs : (s.fn w.fn).suspended = false)
    (here : s.nextHere c w.fn = none) (next : s.nextFor (c / 24) w.fn = some k) (prio : w.effPrio ≤ k.record.prio) :
    exec (.yieldOffer c) s = .next ((s.yielded c).dispatch (c / 24) k [c]) := by
  have leaves : ¬ (w.gang ≠ 0 ∨ (s.ownedCores w.fn (c / 24)).any s.coreFree = true ∨ (s.fn w.fn).suspended = true) := by
    simp [single, full, runs]
  simp only [exec, execYieldOffer, offered, task, if_true, dieOf, if_neg leaves, here, next, if_pos prio]
  rfl

end

/-- Settles O39: the steps of the word, the offer declined, and the offer taken by the task `k` that R307 chooses. -/
theorem yielding : Obligations.Yielding := by
  unfold Obligations.Yielding
  refine ⟨fun s fresh queues signals stores => ?first, fun s phase ready => ?second, fun s phase => ?resumed,
    fun s c w offered task => ⟨fun keeps => ⟨_, exec_yieldOffer_back offered task keeps, rfl⟩, ?leaves⟩⟩
  case first =>
    have flushed : Flushed (s.deliverAll s.cur.core) ((s.deliverAll s.cur.core).writeBackAll s.cur.core) :=
      Flushed.writeBackList ..
    have cur := congrArg (·.core) (flushed.kept.2.trans (s.deliverAll_cur s.cur.core))
    refine ⟨_, exec_yield_first fresh queues signals stores, ?_, ?_, fun i slot => ?_, ?_⟩
    · rw [State.seq_waits cur]
    · rw [State.seq_waits cur]
    · rw [State.waits_resTag cur, flushed.resTag, State.deliverAll_empty _ _ slot]
    · rw [State.waits_dirtyLines cur, writeBackAll_clean]
  case second =>
    refine ⟨_, exec_yield_ready phase ready, ?_, ?_⟩
    · rw [State.seq_waits rfl]
    · rw [State.seq_waits rfl]
  case resumed => exact ⟨_, exec_yield_resumed phase, s.retired_issue [] none⟩
  case leaves =>
    intro k rs single full runs _ here next prio launch notPure regions race
    obtain ⟨registries, v, away, place, saved⟩ := State.yielded_spec task
    obtain ⟨placed, -, kept⟩ := dispatch_shape (s.yielded c) (c / 24) k [c] rs launch notPure regions
      ((State.race_congr (registries k.fn) ..).trans race)
    obtain ⟨u, stays, stands, -, name⟩ := kept w.fn v away
    rw [saved] at name
    refine ⟨_, exec_yieldOffer_leaves offered task single full runs (State.nextHere_none here c) next prio,
      ⟨u, stays, stands.trans place, congrArg (·.2.2.1.2.1) name, congrArg (·.1.2.2.2) name, congrArg (·.1.2.2.1) name⟩,
      name_any (placed c List.mem_cons_self).1 _ fun x same => ?_⟩
    have rseq : x.rseq = k.record.seq := congrArg (·.1.2.2.1) same
    have tseq : x.tseq = k.record.nextTask := congrArg (·.1.2.2.2) same
    rw [rseq, tseq, BEq.rfl, BEq.rfl, Bool.and_self]

end Sys2Proof.Machine
end

section
/-! SUPPORT. WAITX and XWR (R163, R164): the wait for a transfer of a channel, and what the channel's registers read as. -/

namespace Sys2Proof.Machine

open Sys2Proof Sys2Proof.Safety

/-- A word above a word is their number in base 2^32. -/
theorem append_eq_ofNat (hi lo : Word) : (hi ++ lo : Dbl) = BitVec.ofNat 64 (hi.toNat * 2 ^ 32 + lo.toNat) := by
  apply BitVec.eq_of_toNat_eq
  have := hi.isLt
  have := lo.isLt
  rw [BitVec.toNat_append, BitVec.toNat_ofNat, ← Nat.shiftLeft_add_eq_or_of_lt lo.isLt, Nat.shiftLeft_eq,
    Nat.mod_eq_of_lt (by omega)]

theorem exec_waitx (s : State) (ch : BitVec 3) (a : Src) (d : Dest) (fresh : Fresh s [a]) :
    let xw := (s.core s.cur.core).copy.xw.getD ch.toNat 0
    exec (.waitx ch a d) s = .next (if 0 < (xw - (operand s a).setWidth 32).toInt then
      s.issue [a] 1 (some (xw.setWidth 64, d)) else s.stallSeq 13) :=
  congrArg Host.Outcome.next (State.withOperands_fresh fresh _)

theorem exec_xwr (s : State) (ch : BitVec 3) (d : Dest) (fresh : Fresh s []) :
    let x := (s.core s.cur.core).copy
    exec (.xwr ch d) s = .next (s.issue [] 1 (some (BitVec.ofNat 64
      ((x.nxt.getD ch.toNat 0).toNat * 2 ^ 32 + (x.xw.getD ch.toNat 0).toNat), d))) := by
  intro x
  rw [← append_eq_ofNat]
  exact congrArg Host.Outcome.next (State.withOperands_fresh fresh _)

/-- Settles O24: the comparison of WAITX decides between an issue and a stall; XWR issues. -/
theorem watermarkWords : Obligations.WatermarkWords := by
  intro s ch a d x xw
  refine ⟨fun fresh => ?_, fun fresh => ⟨_, exec_xwr s ch d fresh, s.retired_issue ..⟩⟩
  rw [exec_waitx s ch a d fresh]
  exact ⟨fun complete => ⟨_, congrArg _ (if_pos complete), s.retired_issue ..⟩,
    fun running => ⟨_, congrArg _ (if_neg running), .stallSeq ..⟩⟩

end Sys2Proof.Machine
end

section
/-! SUPPORT. PROBE (R191): the lines of a core under its changes, a hit, the fill of a line that a miss starts, and its
completion. -/

namespace Sys2Proof.Machine

open Sys2Proof Sys2Proof.Safety

/-! ## Lines of a core -/

/-- A change of lines that keeps their slots. -/
theorem find?_slot_map {f : PLine → PLine} (keeps : ∀ l, (f l).slot = l.slot) (slot : Nat) (ls : List PLine) :
    (ls.map f).find? (fun l => l.slot == slot) = (ls.find? fun l => l.slot == slot).map f := by
  rw [List.find?_map]
  congr 2
  funext l
  exact congrArg (· == slot) (keeps l)

theorem Core.lineAt_slot {x : Core} {slot : Nat} {l : PLine} (line : x.lineAt slot = some l) : l.slot = slot :=
  beq_iff_eq.mp (List.find?_some line :)

theorem Core.lineAt_updLine {x : Core} {slot : Nat} {l : PLine} {f : PLine → PLine} (keeps : ∀ l, (f l).slot = l.slot)
    (line : x.lineAt slot = some l) : (x.updLine slot f).lineAt slot = some (f l) := by
  have found := find?_slot_map (f := fun l => if l.slot == slot then f l else l)
    (fun l => by split <;> simp [keeps]) slot x.copy.lines
  rw [Core.lineAt] at line
  rw [line, Option.map_some, if_pos (by simp [Core.lineAt_slot line])] at found
  exact found

theorem Core.lineAt_mru {x : Core} {slot : Nat} {l : PLine} (line : x.lineAt slot = some l) :
    (x.mru slot).lineAt slot = some { l with rank := 0 } := by
  have found := find?_slot_map (f := fun l => if l.slot == slot then { l with rank := 0 }
      else if (x.slotSet l.slot == x.slotSet slot && decide (l.rank < ((x.lineAt slot).map (·.rank)).getD 0)) then
        { l with rank := l.rank + 1 } else l)
    (fun l => by split <;> [rfl; split <;> rfl]) slot x.copy.lines
  rw [Core.lineAt] at line
  rw [line, Option.map_some, if_pos (by simp [Core.lineAt_slot line])] at found
  exact found

/-! ## What a lookup leaves of a core -/

theorem Looked.inCode {s r : State} (h : Looked s r) (c : Nat) (a : Dbl) : r.inCode c a = s.inCode c a := by
  obtain ⟨_, e⟩ := h.cores c
  simp only [State.inCode, e]

theorem Looked.rootOf {s r : State} (h : Looked s r) (fn wq : Nat) : r.rootOf fn wq = s.rootOf fn wq := by
  obtain ⟨_, _, _, e⟩ := h.fns fn
  simp only [State.rootOf, State.wq, e]
  rfl

/-! ## A hit and a miss -/

section
variable {s r : State} {a : Src} {pa : Nat} {k : Task} {l : PLine} (d : Dest) (off : Imm 6) (fresh : Fresh s [a])
  (virt : isVirtual (operand s a) = true) (form : formOk (operand s a) = true)
  (there : s.scalar (operand s a) 1 Need.read [.rd, .rw] = (r, .ok pa)) (task : (r.core s.cur.core).task = some k)
include fresh virt form there task

theorem exec_probe_hit (line : (r.core s.cur.core).lineOf k.fn (r.rootOf k.fn k.wq) ((operand s a).toNat / 256) = some l)
    (held : l.state = .valid ∨ l.state = .pending) :
    exec (.probe a d off) s = .next ((r.updCore s.cur.core fun x => x.mru l.slot).issue [a] 1 (some (dbl l.slot, d))) := by
  simp only [exec, execProbe, State.withOperands_fresh fresh, State.opd_eq_operand, virt, form, there, task, line,
    if_pos held, Bool.not_true, Bool.or_self, Bool.false_eq_true, if_false]

theorem exec_probe_miss {w : Nat}
    (line : (r.core s.cur.core).lineOf k.fn (r.rootOf k.fn k.wq) ((operand s a).toNat / 256) = none)
    (way : (r.core s.cur.core).probeWay ((operand s a).toNat / 256 % (r.core s.cur.core).probeSets) = some w)
    (room : (r.core s.cur.core).seq.ld ≠ 15)
    (code : r.inCode s.cur.core (s.cur.addr + BitVec.ofInt 64 (4 * off.int)) = true) :
    let x := r.core s.cur.core
    let slot := x.probeSlot ((operand s a).toNat / 256 % x.probeSets) w
    exec (.probe a d off) s = .next (r.probeMiss a d (s.cur.addr + BitVec.ofInt 64 (4 * off.int)) k (r.rootOf k.fn k.wq)
      (operand s a).toNat (pa - (operand s a).toNat % 256) slot (x.lineAt slot)) := by
  simp only [exec, execProbe, State.withOperands_fresh fresh, State.opd_eq_operand, virt, form, there, task, line, way,
    imm_times4, code, if_neg room, Bool.not_true, Bool.or_self, Bool.false_eq_true, if_false]

end

/-! ## The fill that a miss starts -/

/-- The victim of a miss is written back where it is dirty. -/
def State.victimOut (s : State) (c : Nat) : Option PLine → State
  | some l => if l.state == PState.valid && l.dirty != 0 then s.writeBack c 0 l else s
  | none => s

theorem Flushed.victimOut (s : State) (c : Nat) (old : Option PLine) : Flushed s (s.victimOut c old) := by
  cases old with
  | none => exact Flushed.refl s
  | some l =>
    rw [State.victimOut]
    split
    · exact Flushed.writeBack ..
    · exact Flushed.refl s

/-- The line of a slot gives way to another one, as the most recently used of its set. -/
def Core.replaceLine (x : Core) (l : PLine) : Core :=
  let y := x.dropLine l.slot
  ({ y with copy := { y.copy with lines := l :: y.copy.lines } } : Core).mru l.slot

theorem Core.lineAt_replaceLine (x : Core) (l : PLine) : (x.replaceLine l).lineAt l.slot = some { l with rank := 0 } :=
  Core.lineAt_mru (List.find?_cons_of_pos (beq_self_eq_true _))

theorem State.queueFill_core (s : State) (c slot fn phys va : Nat) : (s.queueFill c slot fn phys va [0, 1]).core c =
    (s.core c).updLine slot fun l => { l with reqs := l.reqs ++ [s.nextId, s.nextId + 1], unsent := [] } :=
  State.core_updCore ..

/-- Both halves of a block are requested, and the line keeps the numbers of the requests. -/
theorem State.queueFill_line (s : State) {c slot : Nat} {l : PLine} (line : (s.core c).lineAt slot = some l)
    (new : l.reqs = []) (fn phys va : Nat) :
    ∃ ids, ((s.queueFill c slot fn phys va [0, 1]).core c).lineAt slot = some { l with reqs := ids, unsent := [] }
      ∧ ∀ i, i < 2 → ∃ q ∈ (s.queueFill c slot fn phys va [0, 1]).reqs, q.id = ids.getD i 0 ∧ q.kind = .read
        ∧ q.pa = phys + 128 * i ∧ q.len = 128 ∧ q.src = .probeFill c slot i := by
  refine ⟨[s.nextId, s.nextId + 1], ?_, fun i small => ?_⟩
  · rw [State.queueFill_core]
    have filled := Core.lineAt_updLine (f := fun l => { l with reqs := l.reqs ++ [s.nextId, s.nextId + 1], unsent := [] })
      (fun _ => rfl) line
    rwa [new] at filled
  · obtain rfl | rfl : i = 0 ∨ i = 1 := by omega
    · exact ⟨_, List.mem_append_left _ (List.mem_append_right _ (List.mem_singleton.mpr rfl)), rfl, rfl, rfl, rfl, rfl⟩
    · exact ⟨_, List.mem_append_right _ (List.mem_singleton.mpr rfl), rfl, rfl, rfl, rfl, rfl⟩

/-- In a state `u` the line `l` of a slot waits for the fill of a block, the most recently used of its set, and the fill's
two requests are there. -/
def FillUnderWay (u : State) (c slot : Nat) (t : Task) (root : Dbl) (block phys : Nat) (l : PLine) : Prop :=
  (u.core c).lineAt slot = some l ∧ l.state = .pending ∧ l.fn = t.fn ∧ l.root = root ∧ l.block = block ∧ l.dirty = 0
    ∧ l.rank = 0 ∧ l.phys = phys
    ∧ ∀ i, i < 2 → ∃ q ∈ u.reqs, q.id = l.reqs.getD i 0 ∧ q.kind = .read ∧ q.pa = l.phys + 128 * i ∧ q.len = 128
      ∧ q.src = .probeFill c slot i

section
variable (s : State) (t : Task) (root : Dbl) (va phys slot : Nat) (old : Option PLine)

/-- The line that a miss starts to fill. -/
def State.missLine : PLine :=
  let x := (s.victimOut s.cur.core old).core s.cur.core
  ⟨slot, t.fn, root, va / 256, phys, s.ipaOf s.cur.core t.fn root (va / 256 * 256), 0,
    ((x.lineAt slot).map PLine.rank).getD (x.freshRank (x.slotSet slot)), .pending, [], []⟩

/-- The slot of a miss is the new line's. -/
def State.lineStarted : State :=
  (s.victimOut s.cur.core old).updCore s.cur.core fun x => x.replaceLine (s.missLine t root va phys slot old)

/-- The state of a miss before the word issues. -/
def State.fillStarted : State :=
  ((s.lineStarted t root va phys slot old).queueFill s.cur.core slot t.fn phys (va / 256 * 256) [0, 1]).updSeq s.cur.core
    fun q => { q with ld := q.ld + 1 }

theorem State.probeMiss_eq (a : Src) (d : Dest) (target : Dbl) :
    s.probeMiss a d target t root va phys slot old =
      ((s.fillStarted t root va phys slot old).issueAt [a] 2 (some (dbl slot, d)) target).updSeq s.cur.core fun q =>
        { q with fell := false } := by
  cases old <;> rfl

theorem State.victimOut_cur : (s.victimOut s.cur.core old).cur = s.cur := by
  obtain ⟨_, _, _, e⟩ := (Flushed.victimOut s s.cur.core old).rest
  rw [e]

theorem State.fillStarted_cur : (s.fillStarted t root va phys slot old).cur = s.cur := s.victimOut_cur old

theorem State.fillStarted_seq : (s.fillStarted t root va phys slot old).seq s.cur.core =
    { s.seq s.cur.core with ld := (s.seq s.cur.core).ld + 1 } := by
  obtain ⟨_, e⟩ := (Flushed.victimOut s s.cur.core old).cores s.cur.core
  rw [State.fillStarted, State.seq_updSeq, State.seq, State.queueFill_core, State.lineStarted, State.core_updCore, e]
  rfl

theorem State.fillStarted_line :
    ∃ l, FillUnderWay (s.fillStarted t root va phys slot old) s.cur.core slot t root (va / 256) phys l := by
  have line : ((s.lineStarted t root va phys slot old).core s.cur.core).lineAt slot =
      some { s.missLine t root va phys slot old with rank := 0 } := by
    rw [State.lineStarted, State.core_updCore]
    exact Core.lineAt_replaceLine _ (s.missLine t root va phys slot old)
  obtain ⟨ids, filled, sent⟩ := State.queueFill_line _ line rfl t.fn phys (va / 256 * 256)
  have started : ((s.fillStarted t root va phys slot old).core s.cur.core).lineAt slot = some _ :=
    (congrArg (Core.lineAt · slot) (State.core_updSeq ..)).trans filled
  exact ⟨_, started, rfl, rfl, rfl, rfl, rfl, rfl, rfl, sent⟩

theorem State.issueAt_copy (marks : List Src) (clk : Nat) (res : Option (Dbl × Dest)) (pc : Dbl) :
    ((s.issueAt marks clk res pc).core s.cur.core).copy = (s.core s.cur.core).copy := by
  obtain ⟨_, _, _, e, -⟩ := (s.core s.cur.core).issue_shape s.nextId s.cur.chain marks clk res true pc s.nextPc
  simp only [State.issueAt, State.useId_core, State.core_updCore, e]

/-- A word that misses issues with one load more in flight, and branches. -/
theorem State.probeMiss_stepped (a : Src) (d : Dest) (target : Dbl) :
    Stepped (s.seq s.cur.core) ((after s.cur.core 1 (s.probeMiss a d target t root va phys slot old)).seq s.cur.core) 2 [a]
      (some (dbl slot, d)) target (fun q => { q with ld := q.ld + 1 }) := by
  have issued := ((s.fillStarted t root va phys slot old).retired_loops [a] 1 (some (dbl slot, d)) target (fun l _ _ => l) id
    fun _ => false).stepped (g := id) rfl
  rw [State.fillStarted_cur, State.fillStarted_seq] at issued
  rw [State.probeMiss_eq]
  exact ⟨issued.pc, issued.ready, issued.clock, issued.wrote, issued.specials⟩

/-- The word leaves the lines and the requests as they were before it issued. -/
theorem State.probeMiss_line (a : Src) (d : Dest) (target : Dbl) :
    ∃ l, FillUnderWay (s.probeMiss a d target t root va phys slot old) s.cur.core slot t root (va / 256) phys l := by
  have copy := (s.fillStarted t root va phys slot old).issueAt_copy [a] 2 (some (dbl slot, d)) target
  rw [State.fillStarted_cur] at copy
  obtain ⟨l, line, rest⟩ := s.fillStarted_line t root va phys slot old
  refine ⟨l, ?_, ?_⟩
  · rw [Core.lineAt, ← copy] at line
    rw [State.probeMiss_eq, State.core_updSeq]
    exact line
  · rw [State.probeMiss_eq]
    exact rest

end

/-! ## The fill is complete -/

theorem State.fillBytes_mem (s : State) (c slot : Nat) (rs : List Req) :
    ∃ m, s.fillBytes c slot rs = { s with mem := m } := by
  induction rs generalizing s with
  | nil => exact ⟨_, rfl⟩
  | cons r rs ih => exact ih (s.writeArray ..)

theorem State.overlay_mem (s : State) (c slot : Nat) (l : List (Nat × Byte)) :
    ∃ m, s.overlay c slot l = { s with mem := m } := by
  induction l generalizing s with
  | nil => exact ⟨_, rfl⟩
  | cons p l ih => exact ih (s.writeArray ..)

theorem Core.unwaits_queues (ids : List Nat) (x : Core) : ∃ qs, ids.foldl Core.unwait x = { x with queues := qs } := by
  induction ids generalizing x with
  | nil => exact ⟨_, rfl⟩
  | cons i ids ih => exact ih (x.unwait i)

/-- The bytes of a fill in the array, those of stores in flight in front of them. -/
def State.filled (s : State) (c slot phys : Nat) (rs : List Req) : State :=
  (s.fillBytes c slot rs).overlay c slot (((s.fillBytes c slot rs).seq c).forward phys 256)

theorem State.filled_mem (s : State) (c slot phys : Nat) (rs : List Req) :
    ∃ m, s.filled c slot phys rs = { s with mem := m } := by
  obtain ⟨m, e⟩ := s.fillBytes_mem c slot rs
  obtain ⟨n, f⟩ := (s.fillBytes c slot rs).overlay_mem c slot (((s.fillBytes c slot rs).seq c).forward phys 256)
  exact ⟨n, by rw [State.filled, f, e]⟩

/-- The line of a slot is filled: it is valid, ld falls, and the landing entries that wait on its block take their bytes. -/
def Core.fillIn (x : Core) (slot block : Nat) (opens : List Nat) (bytes : Landing → List Byte) : Core :=
  let y := x.updLine slot fun l => { l with state := .valid, reqs := [] }
  let z := ((y.seq.landing.filter fun e => !opens.contains e.id && e.waitsOn block).map (·.id)).foldl Core.unwait y
  { z with seq := { z.seq with
      ld := z.seq.ld - 1, landing := z.seq.landing.map fun e => e.fromLine block (opens.contains e.id) (bytes e) false } }

theorem Core.fillIn_shape (x : Core) (slot block : Nat) (opens : List Nat) (bytes : Landing → List Byte) :
    ∃ qs ls, x.fillIn slot block opens bytes = { x.updLine slot fun l => { l with state := .valid, reqs := [] } with
      queues := qs, seq := { x.seq with ld := x.seq.ld - 1, landing := ls } } := by
  obtain ⟨qs, e⟩ := Core.unwaits_queues ((x.seq.landing.filter fun e => !opens.contains e.id && e.waitsOn block).map (·.id))
    (x.updLine slot fun l => { l with state := .valid, reqs := [] })
  exact ⟨qs, x.seq.landing.map fun e => e.fromLine block (opens.contains e.id) (bytes e) false, by
    rw [Core.fillIn]
    dsimp only [Core.updLine] at e ⊢
    rw [e]⟩

/-- The state after the fill of line `l` by the requests `rs`. -/
def State.fillDone (s : State) (c slot : Nat) (l : PLine) (rs : List Req) (opens : List Nat) (bytes : Landing → List Byte) :
    State :=
  (({ s.filled c slot l.phys rs with reqs := s.reqs.filter fun r => !l.reqs.contains r.id } : State).updCore c fun x =>
    x.fillIn slot l.block opens bytes).thaw c .lateLanding

section
variable (s : State) (c slot : Nat) (l : PLine) (rs : List Req) (opens : List Nat) (bytes : Landing → List Byte)

theorem State.fillDone_core : ∃ qs ls fs, (s.fillDone c slot l rs opens bytes).core c =
    { (s.core c).updLine slot fun l => { l with state := .valid, reqs := [] } with
      queues := qs, freezes := fs, seq := { s.seq c with ld := (s.seq c).ld - 1, landing := ls } } := by
  obtain ⟨qs, ls, shape⟩ := (s.core c).fillIn_shape slot l.block opens bytes
  obtain ⟨m, mem⟩ := s.filled_mem c slot l.phys rs
  refine ⟨qs, ls, (s.core c).freezes.filter (· != Freeze.lateLanding), ?_⟩
  rw [State.fillDone, State.thaw, State.core_updCore, State.core_updCore, mem]
  exact congrArg (fun x : Core => { x with freezes := x.freezes.filter (· != Freeze.lateLanding) }) shape

theorem State.fillDone_others {n : Nat} (other : n ≠ c) : (s.fillDone c slot l rs opens bytes).core n = s.core n := by
  obtain ⟨m, mem⟩ := s.filled_mem c slot l.phys rs
  rw [State.fillDone, State.thaw, State.core_updCore_ne _ _ other, State.core_updCore_ne _ _ other, mem]
  rfl

end

section
variable {s : State} {c slot : Nat} {l : PLine} {p q : Req}

theorem State.fillReqs_both (reqs : l.reqs = [p.id, q.id]) (hp : s.req p.id = some p) (hq : s.req q.id = some q)
    (pdone : p.phase = .answered) (qdone : q.phase = .answered) : s.fillReqs l = [p, q] := by
  simp [State.fillReqs, reqs, hp, hq, pdone, qdone]

theorem canProbeFillComplete_of (line : (s.core c).lineAt slot = some l) (pending : l.state = .pending)
    (sent : l.unsent = []) (reqs : l.reqs = [p.id, q.id]) (come : s.fillReqs l = [p, q]) :
    canProbeFillComplete c slot s = true := by
  simp [canProbeFillComplete, line, pending, sent, reqs, come]

theorem exec_probeFillComplete (can : canProbeFillComplete c slot s = true) (line : (s.core c).lineAt slot = some l)
    (come : s.fillReqs l = [p, q]) (clean : p.poison = false ∧ q.poison = false) :
    ∃ opens bytes, exec (.probeFillComplete c slot) s = .next (s.fillDone c slot l [p, q] opens bytes) := by
  obtain ⟨m, e⟩ := s.filled_mem c slot l.phys [p, q]
  have bytes : (s.fillBytes c slot [p, q]).overlay c slot (((s.fillBytes c slot [p, q]).seq c).forward l.phys 256) =
    { s with mem := m } := e
  simp only [exec, execProbeFillComplete, can, line, come, clean.1, clean.2, List.any_cons, List.any_nil, Bool.or_self,
    Bool.false_eq_true, if_true, if_false, bytes, State.fillDone, e]
  exact ⟨_, _, rfl⟩

/-- With no store in flight the line's bytes are those that the two requests brought. -/
theorem State.filled_bytes (wf : Memory.wf s.mem = true) (stores : (s.seq c).stores = [])
    (first : p.src = .probeFill c slot 0) (second : q.src = .probeFill c slot 1)
    (plen : p.result.length = 128) (qlen : q.result.length = 128) (phys a : Nat) :
    memRead (s.filled c slot phys [p, q]).mem a =
      if arrayAt c slot ≤ a ∧ a < arrayAt c slot + 256 then (p.result ++ q.result).getD (a - arrayAt c slot) 0
      else memRead s.mem a := by
  have none : ((s.fillBytes c slot [p, q]).seq c).forward phys 256 = [] := by
    have stores : ((s.fillBytes c slot [p, q]).seq c).stores = [] := stores
    simp [Seq.forward, stores]
  have upper : arrayAt c (slot + 128 * 1) = arrayAt c slot + 128 := rfl
  have lower : arrayAt c (slot + 128 * 0) = arrayAt c slot := rfl
  rw [State.filled, none]
  simp only [State.overlay, State.fillBytes, first, second, State.writeArray, upper, lower,
    memRead_memWrites (memWrites_wf wf), memRead_memWrites wf, plen, qlen]
  by_cases high : arrayAt c slot + 128 ≤ a
  · by_cases inside : a < arrayAt c slot + 256
    · rw [if_pos (by omega), if_pos (by omega), List.getD_append_right _ _ _ _ (by omega), plen, Nat.sub_add_eq]
    · rw [if_neg (by omega), if_neg (by omega), if_neg (by omega)]
  · rw [if_neg (by omega)]
    by_cases inside : arrayAt c slot ≤ a
    · rw [if_pos (by omega), if_pos (by omega), List.getD_append _ _ _ _ (by omega)]
    · rw [if_neg (by omega), if_neg (by omega)]

end

/-- Settles O22: a hit, a miss, and the completion of a fill. -/
theorem probeWord : Obligations.ProbeWord := by
  refine ⟨fun s r a d off pa k fresh virt form there task => ?_,
    fun s c slot l p q line pending sent reqs hp hq pdone qdone pclean qclean => ?_⟩
  · intro root block x
    have looked : LookedRead s r := by
      have h := s.scalar_lookedRead (operand s a) 1 Need.read [.rd, .rw] (by decide)
      rwa [there] at h
    have cur : r.cur = s.cur := Looked.cur looked.toLooked
    have root_eq := Looked.rootOf looked.toLooked k.fn k.wq
    obtain ⟨tlb, core⟩ := looked.cores s.cur.core
    have seq := Looked.seq looked.toLooked s.cur.core
    have task' : (r.core s.cur.core).task = some k := by rw [core]; exact task
    refine ⟨looked, fun l line held => ?hit, fun w line way room => ?miss⟩
    case hit =>
      have run := exec_probe_hit d off fresh virt form there task' (by rw [core, root_eq]; exact line) held
      have issued := (r.updCore r.cur.core fun x => x.mru l.slot).retired_issue [a] (some (dbl l.slot, d))
      have next : (r.updCore r.cur.core fun x => x.mru l.slot).nextPc = s.nextPc := by
        rw [State.nextPc, State.nextPc, State.updCore_cur, cur]
      rw [next] at issued
      rw [← cur] at run
      exact ⟨_, run, issued.before rfl⟩
    case miss =>
      intro dst slot code
      have run := exec_probe_miss d off fresh virt form there task' (w := w) (by rw [core, root_eq]; exact line)
        (by rw [core]; exact way) (by rw [core]; exact room) (by rw [Looked.inCode looked.toLooked]; exact code)
      rw [core, root_eq] at run
      have stepped := r.probeMiss_stepped k root (operand s a).toNat (pa - (operand s a).toNat % 256) slot (x.lineAt slot)
        a d dst
      obtain ⟨l, filling⟩ := r.probeMiss_line k root (operand s a).toNat (pa - (operand s a).toNat % 256) slot
        (x.lineAt slot) a d dst
      rw [cur, seq] at stepped
      rw [cur] at filling
      exact ⟨_, l, run, stepped, filling⟩
  · have come := State.fillReqs_both reqs hp hq pdone qdone
    obtain ⟨opens, bytes, run⟩ := exec_probeFillComplete (canProbeFillComplete_of line pending sent reqs come) line come
      ⟨pclean, qclean⟩
    obtain ⟨qs, ls, fs, core⟩ := s.fillDone_core c slot l [p, q] opens bytes
    have valid := Core.lineAt_updLine (f := fun l => { l with state := .valid, reqs := [] }) (fun _ => rfl) line
    have filled : ((s.fillDone c slot l [p, q] opens bytes).core c).lineAt slot =
        some { l with state := .valid, reqs := [] } := (congrArg (Core.lineAt · slot) core).trans valid
    refine ⟨_, _, run, filled, rfl, rfl, rfl, congrArg (·.seq.ld) core, congrArg (·.seq.pc) core,
      congrArg (·.seq.belt) core, fun n other => s.fillDone_others c slot l [p, q] opens bytes other, fun r mem => ?_,
      fun wf stores first second plen qlen a => State.filled_bytes wf stores first second plen qlen l.phys a⟩
    obtain ⟨old, kept⟩ := List.mem_filter.mp mem
    rw [reqs] at kept
    exact ⟨old, by simpa using kept⟩

end Sys2Proof.Machine
end

section
/-! SUPPORT. Transfer words of the copy engine (R158 to R183, R288 to R290): what their checks (R170), and the sending of
their requests, leave of their core as it was. -/

namespace Sys2Proof.Machine

open Sys2Proof Sys2Proof.Safety

/-! ## What the checks of a transfer word leave as it was -/

/-- A command without the translations that it holds. -/
def Cmd.bare (k : Cmd) : Cmd := { k with xlat := [] }

/-- The sequencer and the transfers of core `c` are as they were, and so are its commands but for the translations that they
hold. -/
structure CopyKept (c : Nat) (s u : State) : Prop where
  cur : u.cur = s.cur
  seq : u.seq c = s.seq c
  queues : (u.core c).queues.map (List.map Cmd.bare) = (s.core c).queues.map (List.map Cmd.bare)
  xfers : (u.core c).copy.xfers = (s.core c).copy.xfers
  nxt : (u.core c).copy.nxt = (s.core c).copy.nxt

theorem CopyKept.of_core {c : Nat} {s u : State} (cur : u.cur = s.cur) (core : u.core c = s.core c) : CopyKept c s u := by
  refine ⟨cur, ?_, ?_, ?_, ?_⟩
  · rw [State.seq, core, State.seq]
  all_goals rw [core]

theorem CopyKept.refl (c : Nat) (s : State) : CopyKept c s s := .of_core rfl rfl

theorem CopyKept.trans {c : Nat} {s t u : State} (h : CopyKept c s t) (k : CopyKept c t u) : CopyKept c s u :=
  ⟨k.cur.trans h.cur, k.seq.trans h.seq, k.queues.trans h.queues, k.xfers.trans h.xfers, k.nxt.trans h.nxt⟩

/-- A change of a core outside its sequencer, its commands and its transfers. -/
theorem CopyKept.updCore (c : Nat) (s : State) (d : Nat) (g : Core → Core) (seq : ∀ x, (g x).seq = x.seq)
    (queues : ∀ x, (g x).queues.map (List.map Cmd.bare) = x.queues.map (List.map Cmd.bare))
    (copy : ∀ x, (g x).copy.xfers = x.copy.xfers ∧ (g x).copy.nxt = x.copy.nxt) : CopyKept c s (s.updCore d g) := by
  by_cases e : c = d
  · subst e
    refine ⟨rfl, ?_, ?_, ?_, ?_⟩
    · rw [State.seq_updCore, seq, State.seq]
    · rw [State.core_updCore, queues]
    · rw [State.core_updCore, (copy _).1]
    · rw [State.core_updCore, (copy _).2]
  · exact .of_core rfl (State.core_updCore_ne _ _ e)

theorem CopyKept.of_looked {s t : State} (c : Nat) (h : Looked s t) : CopyKept c s t := by
  obtain ⟨_, e⟩ := h.cores c
  refine ⟨Looked.cur h, Looked.seq h c, ?_, ?_, ?_⟩
  all_goals rw [e]

theorem CopyKept.of_quiet {s t : State} (c : Nat) (h : Quiet s t) : CopyKept c s t :=
  ⟨h.cur, h.seqs c, by rw [(h.frozen c).2], by rw [(h.units c).1], by rw [(h.units c).1]⟩

theorem CopyKept.fillTlb (c : Nat) (s : State) (e : TlbEntry) : CopyKept c s (s.fillTlb (.copy c) e) := by
  refine CopyKept.trans (t := s.updDie (TlbUser.copy c).die fun d => { d with tlb := lastInsert e d.tlb })
    (.of_core rfl rfl) ?_
  exact .updCore c _ c (fun x => { x with copy := { x.copy with tlb := tlbInsert 64 e x.copy.tlb } }) (fun _ => rfl)
    (fun _ => rfl) fun _ => ⟨rfl, rfl⟩

theorem CopyKept.translate (c : Nat) (s : State) (fn : Nat) (root : Dbl) (va : Nat) (n : Need) :
    CopyKept c s (s.translate (.copy c) fn root va n).1 := by
  simp only [State.translate]
  split
  · split
    · exact .refl c s
    · split <;> exact .refl c s
  · have q : CopyKept c s _ :=
      .of_looked c (LookedRead.quietLookups fn 3 false (s.walkReads (TlbUser.copy c).die fn root va) s).toLooked
    split
    · exact q
    · rename_i t l2 _
      split
      · have h := q.trans ((CopyKept.of_looked c (Looked.writePhys _ 1 l2.place (leBytes 8 (l2.entry + 32)))).trans
          (.fillTlb c _ { t with clean := false }))
        split
        · exact h
        · split <;> exact h
      · have h := q.trans (.fillTlb c _ t)
        split
        · exact h
        · split <;> exact h

/-- A change of one entry that a map does not see. -/
theorem map_modify_of_eq {α β : Type} {f : α → α} {g : α → β} (same : ∀ a, g (f a) = g a) (l : List α) (i : Nat) :
    (l.modify i f).map g = l.map g := by
  apply List.ext_getElem?
  intro j
  rw [List.getElem?_map, List.getElem?_map, List.getElem?_modify]
  split
  · rw [Option.map_eq_map, Option.map_map]
    exact congrArg (Option.map · l[j]?) (funext same)
  · simp

/-- A command comes to hold other translations. -/
theorem CopyKept.updXlat (c : Nat) (s : State) (e : Engine) (uid : Nat) (f : Cmd → List TlbEntry) :
    CopyKept c s (s.updCore c fun x => x.updCmd e uid fun k => { k with xlat := f k }) := by
  refine .updCore c s c _ (fun _ => rfl) (fun x => map_modify_of_eq (fun q => ?_) _ _) fun _ => ⟨rfl, rfl⟩
  rw [List.map_map]
  refine List.map_congr_left fun k _ => ?_
  dsimp only [Function.comp]
  split <;> rfl

theorem CopyKept.copyPage (c : Nat) (s : State) (t : Task) (uid : Nat) (e : Engine) (va : Nat) (n : Need) :
    CopyKept c s (s.copyPage c t uid e va n).1 := by
  simp only [State.copyPage]
  split
  · exact .refl c s
  · split
    · exact .refl c s
    · have h := CopyKept.translate c s t.fn (s.rootOf t.fn t.wq) va n
      split
      · rename_i e
        rw [e] at h
        exact h
      · rename_i e
        rw [e] at h
        split
        · exact h
        · exact h.trans (.updXlat ..)

theorem CopyKept.copyRange (c : Nat) (t : Task) (uid : Nat) (e : Engine) (n : Need) (fuel : Nat) :
    ∀ (s : State) (place va len : Nat) (attr : Option (BitVec 9)),
      CopyKept c s (s.copyRange c t uid e n place va len attr fuel).1 := by
  induction fuel with
  | zero => exact fun s _ _ _ _ => .refl c s
  | succ fuel ih =>
    intro s place va len attr
    simp only [State.copyRange]
    split
    · exact .refl c s
    · have h := CopyKept.copyPage c s t uid e va n
      split
      · rename_i page
        rw [page] at h
        exact h
      · rename_i u x page
        rw [page] at h
        split
        · exact h
        · have rest := h.trans (ih u (place + Nat.min len (x.va + x.size - va)) (va + Nat.min len (x.va + x.size - va))
            (len - Nat.min len (x.va + x.size - va)) (some x.attr))
          split
          · rename_i range
            rw [range] at rest
            exact rest
          · rename_i range
            rw [range] at rest
            exact rest

theorem CopyKept.memSide (c : Nat) (s : State) (t : Task) (k : Cmd) (e : Engine) (a : Dbl) (len : Nat) (n : Need)
    (format : BitVec 9 → Bool) (localFault : Option Nat) : CopyKept c s (s.memSide c t k e a len n format localFault).1 := by
  simp only [State.memSide]
  split
  · exact .refl c s
  · split
    · have h := CopyKept.copyRange c t k.uid e n (len / 2 ^ 16 + 2) s 0 a.toNat len none
      split
      · rename_i range
        rw [range] at h
        exact h
      · rename_i range
        rw [range] at h
        split <;> exact h
    · split
      · exact .refl c s
      · split <;> exact .refl c s

theorem CopyKept.elemSides (c : Nat) (t : Task) (k : Cmd) (e : Engine) (g0 : Dbl) (load : Bool) (size : Nat)
    (is : List Int) : ∀ (s : State) (j : Nat), CopyKept c s (s.elemSides c t k e g0 load size j is).1 := by
  induction is with
  | nil => exact fun s _ => .refl c s
  | cons i is ih =>
    intro s j
    have h := CopyKept.memSide c s t k e (elemAddr g0 size i) size (if load then Need.read else Need.write)
      (fun x => !(attrFormat x).isMx) none
    simp only [State.elemSides]
    split
    · rename_i side
      rw [side] at h
      exact h
    · rename_i u m side
      rw [side] at h
      have rest := h.trans (ih u (j + 1))
      split
      · rename_i sides
        rw [sides] at rest
        exact rest
      · rename_i sides
        rw [sides] at rest
        exact rest

theorem CopyKept.taintPieces (c : Nat) (s : State) (d : Nat) (ps : Pieces) : CopyKept c s (s.taintPieces d ps) := by
  rw [State.taintPieces]
  split
  · exact .updCore c s d _ (fun _ => rfl) (fun _ => rfl) fun _ => ⟨rfl, rfl⟩
  · exact .refl c s

theorem CopyKept.irrevocable (c : Nat) (s : State) : CopyKept c s s.irrevocable :=
  .updCore c s s.cur.core _ (fun _ => rfl) (fun _ => rfl) fun _ => ⟨rfl, rfl⟩

theorem CopyKept.irrevocableIf (c : Nat) (s : State) (b : Prop) [Decidable b] :
    CopyKept c s (if b then s.irrevocable else s) := by
  split
  · exact .irrevocable c s
  · exact .refl c s

theorem CopyKept.useFree (c : Nat) (s : State) : CopyKept c s s.useFree := .of_core rfl rfl

/-! ## What sending the requests of a transfer leaves as it was -/

theorem CopyKept.send (c : Nat) (s : State) (r : Req) : CopyKept c s (s.send r) := .of_core rfl rfl

theorem CopyKept.sendReads (c d : Nat) (t : Task) (k : Cmd) (wid : Nat) (va : Nat → Nat) (ps : Pieces) :
    ∀ s : State, CopyKept c s (s.sendReads d t k wid va ps) := by
  induction ps with
  | nil => exact CopyKept.refl c
  | cons p ps ih =>
    intro s
    exact (CopyKept.send c s _).trans (ih _)

theorem CopyKept.sendWrites (c d : Nat) (t : Task) (k : Cmd) (wid : Nat) (va : Nat → Nat) (data : List Byte) (ps : Pieces) :
    ∀ s : State, CopyKept c s (s.sendWrites d t k wid va data ps) := by
  induction ps with
  | nil => exact CopyKept.refl c
  | cons p ps ih =>
    intro s
    exact (CopyKept.send c s _).trans (ih _)

theorem CopyKept.foldAddend (c : Nat) (s : State) (d : Nat) (ty : AccTy) (va : Nat) (bs : List Byte) (mask : Word) :
    CopyKept c s (s.foldAddend d ty va bs mask).1 := by
  simp only [State.foldAddend]
  split
  · exact .updCore c s d (fun x => x.emptySlot (resSlot va)) (fun _ => rfl) (fun _ => rfl) fun _ => ⟨rfl, rfl⟩
  · exact .refl c s

theorem CopyKept.sendAddends (c d : Nat) (t : Task) (k : Cmd) (wid va : Nat) (ty : AccTy) (row : List Byte) (ps : Pieces) :
    ∀ s : State, CopyKept c s (s.sendAddends d t k wid va ty row ps) := by
  induction ps with
  | nil => exact CopyKept.refl c
  | cons p ps ih =>
    intro s
    obtain ⟨o, pa, n⟩ := p
    have folded := CopyKept.foldAddend c s d ty (va + o) ((row.drop o).take n ++ List.replicate (128 - n) 0) (accMask ty n)
    exact (folded.trans (.send c _ _)).trans (ih _)

end Sys2Proof.Machine
end

section
/-! SUPPORT. The issue of a transfer word (R160 to R172): a word that passed its checks takes its identifier and stands among
the transfers, one of size zero is complete at once, and XID (R165). -/

namespace Sys2Proof.Machine

open Sys2Proof Sys2Proof.Safety

/-! ## An engine word issues -/

/-- Where a command stands is no matter of its translations. -/
theorem Cmd.bare_advance (k : Cmd) (n : Nat) : (k.advance n).bare = k.bare.advance n := by
  have bare : k.bare.advance n = if k.pos + n < (k.body.getD []).length then ({ k with pos := k.pos + n } : Cmd).bare
      else match nextIdx k.nest.bounds k.nest.order k.idx with
        | some i => ({ k with pos := 0, idx := i, iters := k.iters + 1 } : Cmd).bare
        | none => ({ k with pos := 0, iters := k.iters + 1, allIssued := true } : Cmd).bare := rfl
  rw [bare, Cmd.advance, apply_ite Cmd.bare]
  cases nextIdx k.nest.bounds k.nest.order k.idx <;> rfl

theorem Core.map_bare_queue {x y : Core} (queues : y.queues.map (List.map Cmd.bare) = x.queues.map (List.map Cmd.bare))
    (e : Engine) : (y.queue e).map Cmd.bare = (x.queue e).map Cmd.bare := by
  have listed (l : List (List Cmd)) :
      (l.getD (queueIdx e) []).map Cmd.bare = (l.map (List.map Cmd.bare)).getD (queueIdx e) [] :=
    (List.getD_map l [] (List.map Cmd.bare)).symm
  rw [Core.queue, Core.queue, listed, listed, queues]

theorem CopyKept.cmd {s u : State} (kept : CopyKept s.cur.core s u) : u.cmd.map Cmd.bare = s.cmd.map Cmd.bare := by
  have found (v : State) : v.cmd.map Cmd.bare =
      (((v.core v.cur.core).queue v.cur.eng).map Cmd.bare).find? fun k => k.uid == v.cur.cmd := by
    rw [List.find?_map]
    rfl
  rw [found, found, kept.cur, Core.map_bare_queue kept.queues]

theorem CopyKept.cmd_some {s u : State} {k : Cmd} (kept : CopyKept s.cur.core s u) (cmd : s.cmd = some k) :
    ∃ j, u.cmd = some j ∧ j.bare = k.bare := by
  have same := kept.cmd
  rwa [cmd, Option.map_some, Option.map_eq_some_iff] at same

/-- The word of a state issued where it issued in one that differs in what its checks may change. -/
theorem CopyKept.issued {s u t : State} (kept : CopyKept s.cur.core s u) (h : EngineIssued u t) : EngineIssued s t := by
  have goes := h.goes
  have seq := h.seq
  rw [kept.cur] at goes seq
  refine ⟨fun k cmd => ?_, seq.trans kept.seq⟩
  obtain ⟨j, cmd, bare⟩ := kept.cmd_some cmd
  obtain ⟨i, queue, uid, pos, idx, all⟩ := goes j cmd
  have advanced : (j.advance s.cur.len).bare = (k.advance s.cur.len).bare := by
    rw [Cmd.bare_advance, bare, Cmd.bare_advance]
  exact ⟨i, queue, uid.trans (congrArg (·.uid) bare :), pos.trans (congrArg (·.pos) advanced :),
    idx.trans (congrArg (·.idx) advanced :), all.trans (congrArg (·.allIssued) advanced :)⟩

/-- What comes after the issue leaves the sequencer and the commands as they are. -/
theorem EngineIssued.kept_after {s t u : State} (h : EngineIssued s t) (seq : u.seq s.cur.core = t.seq s.cur.core)
    (queues : (u.core s.cur.core).queues.map (List.map Cmd.bare) = (t.core s.cur.core).queues.map (List.map Cmd.bare)) :
    EngineIssued s u := by
  refine ⟨fun k cmd => ?_, seq.trans h.seq⟩
  obtain ⟨j, queue, uid, pos, idx, all⟩ := h.goes k cmd
  have there : j.bare ∈ ((u.core s.cur.core).queue s.cur.eng).map Cmd.bare := by
    rw [Core.map_bare_queue queues]
    exact List.mem_map_of_mem queue
  obtain ⟨i, queue, bare⟩ := List.mem_map.mp there
  exact ⟨i, queue, (congrArg (·.uid) bare :).trans uid, (congrArg (·.pos) bare :).trans pos,
    (congrArg (·.idx) bare :).trans idx, (congrArg (·.allIssued) bare :).trans all⟩

/-- An engine word that issues changes its core's tokens, flows, commands and watchdog alone. -/
theorem State.engineIssue_spec {s : State} {k : Cmd} (done : Bool) (cmd : s.cmd = some k) :
    EngineIssued s (s.engineIssue done)
      ∧ (∃ tk fl qs tt, (s.engineIssue done).core s.cur.core =
        { s.core s.cur.core with tokens := tk, flows := fl, queues := qs, task := tt })
      ∧ (∀ n, n ≠ s.cur.core → (s.engineIssue done).core n = s.core n)
      ∧ MemoryKept s (s.engineIssue done) ∧ OutsideKept s (s.engineIssue done) := by
  obtain ⟨tk, fl, qs, shape, j, queue, place⟩ := State.engineIssue_shape done cmd
  have core : (s.engineIssue done).core s.cur.core = { s.core s.cur.core with
      tokens := tk, flows := fl, queues := qs, task := (s.core s.cur.core).task.map fun t => { t with wd := 0 } } := by
    rw [shape, State.useId_core, State.core_setCore]
  refine ⟨⟨fun i hi => ?_, (congrArg Core.seq core :)⟩, ⟨tk, fl, qs, _, core⟩, fun n other => ?_, ?_, ?_⟩
  · cases cmd.symm.trans hi
    exact ⟨j, (congrArg (j ∈ ·.queue s.cur.eng) core).mpr queue, place⟩
  · rw [shape, State.useId_core, State.core_setCore_ne _ _ other]
  all_goals rw [shape]
  · exact ⟨fun _ => rfl, rfl, rfl, rfl⟩
  · exact ⟨rfl, rfl, rfl, rfl, ⟨rfl, rfl, rfl⟩, ⟨rfl, rfl⟩, ⟨rfl, rfl, rfl⟩, ⟨rfl, rfl⟩, ⟨rfl, rfl⟩, rfl⟩

/-! ## A transfer starts (R160 to R162) -/

/-- `x` is the state after a transfer word that passed its checks issued on a channel, with a way to send its requests. -/
def StartsXfer (s x : State) (k : Cmd) (ch : Nat) (i : Instr) : Prop :=
  ∃ u attr got reads writes send, CopyKept s.cur.core s u ∧ (∀ w v, CopyKept s.cur.core v (send w v))
    ∧ x = u.startXfer k ch i attr got reads writes send

/-- The word issues, and its transfer takes its identifier and its place. -/
def State.entered (s : State) (f : Xfer) : State :=
  (s.engineIssue false).updCore s.cur.core fun x =>
    { x with copy := ({ x.copy.takeIdent f.ch with xfers := x.copy.xfers ++ [f] } : Copy).watermark f.ch }

/-- The transfer `wid` has requests. -/
def Core.withReqs (x : Core) (wid : Nat) (ids : List Nat) : Core :=
  { x with copy := { x.copy with xfers := x.copy.xfers.map fun f => if f.wid == wid then { f with reqs := ids } else f } }

/-- The transfer that the current word starts, its requests not sent yet. -/
def State.newXfer (s : State) (k : Cmd) (ch : Nat) (i : Instr) (attr : BitVec 9) (got : List Byte)
    (reads writes : List (Nat × Nat × Nat)) : Xfer :=
  { wid := s.nextId, eng := s.cur.eng, ident := (s.core s.cur.core).copy.nxt.getD ch 0, ch := ch, instr := i, cmd := k.uid
    index := k.pos, iters := k.iters, g0 := k.g0, g1 := k.g1, g2 := k.g2, attr := attr, reqs := [], unsent := []
    arrived := [], got := got, poison := false, landed := false, reads := reads, writes := writes }

theorem State.startXfer_eq (s : State) (k : Cmd) (ch : Nat) (i : Instr) (attr : BitVec 9) (got : List Byte)
    (reads writes : List (Nat × Nat × Nat)) (send : Nat → State → State) :
    ∃ ids, s.startXfer k ch i attr got reads writes send =
      (send s.nextId (s.entered (s.newXfer k ch i attr got reads writes))).updCore s.cur.core (·.withReqs s.nextId ids) :=
  ⟨_, rfl⟩

/-- What `State.entered` leaves of its core. -/
theorem State.entered_core {s : State} {j : Cmd} (cmd : s.cmd = some j) (f : Xfer) :
    ((s.entered f).core s.cur.core).seq = ((s.engineIssue false).core s.cur.core).seq
      ∧ ((s.entered f).core s.cur.core).queues = ((s.engineIssue false).core s.cur.core).queues
      ∧ ((s.entered f).core s.cur.core).copy.xfers = (s.core s.cur.core).copy.xfers ++ [f]
      ∧ ((s.entered f).core s.cur.core).copy.nxt =
        (s.core s.cur.core).copy.nxt.set f.ch ((s.core s.cur.core).copy.nxt.getD f.ch 0 + 1) := by
  obtain ⟨-, ⟨tk, fl, qs, tt, core⟩, -⟩ := State.engineIssue_spec false cmd
  rw [State.entered, State.core_updCore, core]
  exact ⟨rfl, rfl, rfl, rfl⟩

/-- A transfer that issues takes its identifier, and stands among the transfers whatever its requests are. -/
theorem State.startXfer_spec {s : State} {j : Cmd} (cmd : s.cmd = some j) (k : Cmd) (ch : Nat) (i : Instr) (attr : BitVec 9)
    (got : List Byte) (reads writes : List (Nat × Nat × Nat)) {send : Nat → State → State}
    (sends : ∀ w v, CopyKept s.cur.core v (send w v)) :
    let x := s.startXfer k ch i attr got reads writes send
    let old := (s.core s.cur.core).copy
    let new := (x.core s.cur.core).copy
    EngineIssued s x ∧ new.nxt = old.nxt.set ch (old.nxt.getD ch 0 + 1)
      ∧ ∃ f ∈ new.xfers, f.ident = old.nxt.getD ch 0 ∧ f.ch = ch ∧ f.instr = i ∧ f.cmd = k.uid ∧ f.eng = s.cur.eng
        ∧ f.poison = false := by
  intro x old new
  obtain ⟨ids, eq⟩ := s.startXfer_eq k ch i attr got reads writes send
  let f := s.newXfer k ch i attr got reads writes
  have sent : CopyKept s.cur.core (s.entered f) (send s.nextId (s.entered f)) := sends _ _
  have core : x.core s.cur.core = ((send s.nextId (s.entered f)).core s.cur.core).withReqs s.nextId ids :=
    (congrArg (State.core · s.cur.core) eq).trans (State.core_updCore ..)
  obtain ⟨seq, queues, xfers, nxt⟩ := State.entered_core cmd f
  refine ⟨EngineIssued.kept_after (State.engineIssue_spec false cmd).1 ?_ ?_, ?_,
    if f.wid == s.nextId then { f with reqs := ids } else f, ?_, ?_⟩
  · exact (congrArg Core.seq core).trans (sent.seq.trans seq)
  · rw [core, ← queues]
    exact sent.queues
  · exact (congrArg (·.copy.nxt) core).trans (sent.nxt.trans nxt)
  · have stands : f ∈ ((send s.nextId (s.entered f)).core s.cur.core).copy.xfers := by
      rw [sent.xfers, xfers]
      exact List.mem_append_right _ (List.mem_singleton.mpr rfl)
    have new_eq : new.xfers = _ := congrArg (·.copy.xfers) core
    rw [new_eq]
    exact List.mem_map_of_mem stands
  · split <;> exact ⟨rfl, rfl, rfl, rfl, rfl, rfl⟩

theorem StartsXfer.transferred {s x : State} {k : Cmd} {ch : Nat} {i : Instr} (h : StartsXfer s x k ch i)
    (cmd : s.cmd = some k) (run : exec i s = .next x) : Transferred i s k ch := by
  obtain ⟨u, attr, got, reads, writes, send, kept, sends, rfl⟩ := h
  obtain ⟨j, held, -⟩ := kept.cmd_some cmd
  rw [← kept.cur] at sends
  obtain ⟨issued, taken, stands⟩ := State.startXfer_spec held k ch i attr got reads writes sends
  rw [kept.cur, kept.nxt] at taken stands
  exact ⟨_, run, kept.issued issued, taken, stands⟩

/-! ## The words that pass their checks -/

section
variable {s : State} {t : Task} {k : Cmd} (task : s.task = some t) (cmd : s.cmd = some k)
  (room : ((s.core s.cur.core).sideXfers s.cur.eng).length < 16)
include task cmd room

theorem State.transfer16_go (ch : Nat) {size : Nat} (sized : size ≠ 0) (go : Task → Cmd → State) :
    s.transfer16 ch size go = go t k := by
  simp only [State.transfer16, task, cmd, if_neg (Nat.not_le.mpr room), if_neg sized]

theorem State.transfer16_zero (ch : Nat) (go : Task → Cmd → State) : s.transfer16 ch 0 go = s.zeroXfer ch := by
  simp only [State.transfer16, task, cmd, if_neg (Nat.not_le.mpr room), if_true]

theorem State.rowCopy_starts {load : Bool} (i : Instr) (ch : BitVec 2) {xf : Fmt} {rm : Rm} {sat : Bool} {n : Nat}
    {r : State} {m : MemSide} (sized : n ≠ 0)
    (side : s.memSide s.cur.core t k s.cur.eng k.g0 n (if load then Need.read else Need.write) (rowFormatOk load xf) none =
      (r, .ok m)) :
    let conv := rowConv load m.attr m.isLocal xf rm sat
    let page := if load then conv.src else conv.dst
    let mem := memSpan k.g0 n
    let pad := span 2 k.g1 (conv.spadLen load n)
    (r.core s.cur.core).xferHeld s.cur.eng (if load then mem else pad) (if load then pad else mem) = false →
    (page.isMx = true ∨ k.g0.toNat % fmtBytes page conv.blk = 0) → k.g1 % fmtBytes xf conv.blk = 0 →
    n % fmtBytes page conv.blk = 0 → k.memOk s.cur.core (if load then readKinds else writeKinds) k.g0 n = true →
    k.spadOk s.cur.core t (if load then writeKinds else readKinds) k.g1 (conv.spadLen load n) = true →
    StartsXfer s (s.rowCopy load i ch xf rm sat n) k (chanOf s.cur.eng ch) i := by
  dsimp only
  intro free aligned0 aligned1 whole memory scratch
  have looked := CopyKept.memSide s.cur.core s t k s.cur.eng k.g0 n (if load then Need.read else Need.write)
    (rowFormatOk load xf) none
  rw [side] at looked
  rw [State.rowCopy, State.transfer16_go task cmd room _ sized]
  simp only [side, free, aligned1, whole, memory, scratch, ne_eq, not_true, Bool.not_true, Bool.false_eq_true, if_false]
  rw [if_neg (by obtain h | h := aligned0 <;> simp [h])]
  split
  · refine ⟨_, _, _, _, _, _, looked.trans ?_, fun _ _ => ?_, rfl⟩
    · exact .taintPieces ..
    · exact CopyKept.sendReads ..
  · refine ⟨_, _, _, _, _, _, looked.trans ?_, fun _ _ => ?_, rfl⟩
    · exact (CopyKept.irrevocableIf ..).trans (.useFree ..)
    · exact CopyKept.sendWrites ..

theorem execLdo_starts (ch : BitVec 2) {b : Bool} {sl : BitVec 5} {len : Imm 13} {r : State} {m : MemSide}
    (sized : len.nat ≠ 0)
    (side : s.memSide s.cur.core t k s.cur.eng k.g0 len.nat Need.read (fun _ => true) (some 0x14) = (r, .ok m))
    (free : (r.core s.cur.core).xferHeld s.cur.eng (memSpan k.g0 len.nat)
      (span 3 (sideNum b * 2 ^ 21 + sl.toNat * 2 ^ 16 + k.g1) len.nat) = false)
    (aligned : (attrFormat m.attr).isMx = true ∨ k.g0.toNat % fmtBytes (attrFormat m.attr) (attrBlk m.attr) = 0)
    (whole : len.nat % fmtBytes (attrFormat m.attr) (attrBlk m.attr) = 0)
    (memory : k.memOk s.cur.core readKinds k.g0 len.nat = true) (slot : k.slotOk writeKinds (sideNum b) sl.toNat = true)
    (claimed : (r.core s.cur.core).mat.holds (sideNum b) sl.toNat = true) (fits : k.g1 + len.nat ≤ 65536) :
    ∃ x, exec (.ldo ch b sl len) s = .next x ∧ StartsXfer s x k (chanOf s.cur.eng ch) (.ldo ch b sl len) := by
  have looked := CopyKept.memSide s.cur.core s t k s.cur.eng k.g0 len.nat Need.read (fun _ => true) (some 0x14)
  rw [side] at looked
  simp only [exec, execLdo]
  rw [State.transfer16_go task cmd room _ sized]
  simp only [side, free, whole, memory, slot, claimed, Nat.not_lt.mpr fits, ne_eq, not_true, Bool.not_true,
    Bool.false_eq_true, if_false]
  rw [if_neg (by obtain h | h := aligned <;> simp [h])]
  refine ⟨_, rfl, _, _, _, _, _, _, looked.trans ?_, fun _ _ => ?_, rfl⟩
  · exact .taintPieces ..
  · exact CopyKept.sendReads ..

theorem State.elemCopy_starts {load : Bool} (i : Instr) (ch esz : BitVec 4) {n : Nat} {r : State} {ps : Pieces}
    (sized : n ≠ 0) (form : formOk k.g0 = true) (based : isVirtual k.desc.mbase = true ∨ isVirtual k.g0 = false) :
    let size := 2 ^ esz.toNat
    let idx := s.indices s.cur.core k.g2 n
    let mem := idx.flatMap fun i => memSpan (elemAddr k.g0 size i) size
    let pad := span 2 k.g1 (n * size)
    (s.core s.cur.core).xferHeld s.cur.eng (span 2 k.g2 (4 * n) ++ if load then mem else pad) (if load then pad else mem) =
      false →
    s.elemSides s.cur.core t k s.cur.eng k.g0 load size 0 idx = (r, .ok ps) →
    k.g0.toNat % size = 0 → k.g1 % size = 0 → k.g2 % 4 = 0 →
    (∀ i ∈ idx, k.memOk s.cur.core (if load then readKinds else writeKinds) (elemAddr k.g0 size i) size = true) →
    k.spadOk s.cur.core t (if load then writeKinds else readKinds) k.g1 (n * size) = true →
    k.spadOk s.cur.core t readKinds k.g2 (4 * n) = true →
    StartsXfer s (s.elemCopy load i ch esz n) k (chanOf s.cur.eng (ch.setWidth 2)) i := by
  dsimp only
  rw [State.elemCopy, State.transfer16_go task cmd room _ sized]
  generalize s.indices s.cur.core k.g2 n = idx
  intro free sides aligned0 aligned1 aligned2 memory scratch index
  have looked := CopyKept.elemSides s.cur.core t k s.cur.eng k.g0 load (2 ^ esz.toNat) idx s 0
  rw [sides] at looked
  have inside : (idx.find? fun i => !k.memOk s.cur.core (if load then readKinds else writeKinds)
      (elemAddr k.g0 (2 ^ esz.toNat) i) (2 ^ esz.toNat)) = none :=
    List.find?_eq_none.mpr fun i there => by simp [memory i there]
  have passed : k.elemFault s.cur.core t load (2 ^ esz.toNat) n idx = none := by
    simp only [Cmd.elemFault, aligned0, aligned1, aligned2, inside, scratch, index, ne_eq, not_true, Bool.not_true,
      Bool.false_eq_true, if_false]
  have formed : (!formOk k.g0 || (!isVirtual k.desc.mbase && isVirtual k.g0)) = false := by
    obtain h | h := based <;> simp [form, h]
  simp only [free, formed, sides, passed, Bool.false_eq_true, if_false]
  split
  · refine ⟨_, _, _, _, _, _, looked.trans ?_, fun _ _ => ?_, rfl⟩
    · exact .taintPieces ..
    · exact CopyKept.sendReads ..
  · refine ⟨_, _, _, _, _, _, looked.trans ?_, fun _ _ => ?_, rfl⟩
    · exact .irrevocableIf ..
    · exact CopyKept.sendWrites ..

theorem State.convert_starts (i : Instr) (w : CvWord) (sized : w.len.toNat ≠ 0)
    (free : (s.core s.cur.core).xferHeld s.cur.eng (span 2 k.g1 w.len.toNat) (span 2 k.g2 (cvLen w)) = false)
    (aligned1 : k.g1 % fmtBytes w.sf w.blk = 0) (aligned2 : k.g2 % fmtBytes w.df w.blk = 0)
    (whole : w.len.toNat % fmtBytes w.sf w.blk = 0) (source : k.spadOk s.cur.core t readKinds k.g1 w.len.toNat = true)
    (target : k.spadOk s.cur.core t writeKinds k.g2 (cvLen w) = true)
    (apart : ¬ (k.g1 < k.g2 + cvLen w ∧ k.g2 < k.g1 + w.len.toNat)) :
    StartsXfer s (s.convert i w) k (chanOf s.cur.eng w.ch) i := by
  rw [State.convert, State.transfer16_go task cmd room _ sized]
  simp only [free, aligned1, aligned2, whole, source, target, if_neg apart, ne_eq, not_true, Bool.not_true,
    Bool.false_eq_true, if_false]
  exact ⟨_, _, _, _, _, _, .refl .., fun _ => .refl _, rfl⟩

theorem execAcc_starts (ch : BitVec 2) {ty : AccTy} {len : Imm 13} {r : State} {m : MemSide} (sized : len.nat ≠ 0)
    (side : s.memSide s.cur.core t k s.cur.eng k.g0 len.nat Need.atomicRmw (accFormatOk ty) (some 0x16) = (r, .ok m))
    (free : (r.core s.cur.core).xferHeld s.cur.eng (span 2 k.g1 len.nat) (memSpan k.g0 len.nat) = false)
    (home : ∀ p ∈ m.pieces, isLocalHbm p.2.1 = true) (aligned0 : k.g0.toNat % 128 = 0) (aligned1 : k.g1 % 32 = 0)
    (whole : len.nat % accBytes ty = 0) (memory : k.memOk s.cur.core [.acc, .rw] k.g0 len.nat = true)
    (scratch : k.spadOk s.cur.core t readKinds k.g1 len.nat = true) :
    ∃ x, exec (.acc ch ty len) s = .next x ∧ StartsXfer s x k (chanOf s.cur.eng ch) (.acc ch ty len) := by
  have looked := CopyKept.memSide s.cur.core s t k s.cur.eng k.g0 len.nat Need.atomicRmw (accFormatOk ty) (some 0x16)
  rw [side] at looked
  have homes : (m.pieces.any fun p => !isLocalHbm p.2.1) = false :=
    List.any_eq_false.mpr fun p there => by simp [home p there]
  simp only [exec, execAcc]
  rw [State.transfer16_go task cmd room _ sized]
  simp only [side, free, homes, aligned0, aligned1, whole, memory, scratch, ne_eq, not_true, Bool.not_true,
    Bool.false_eq_true, if_false]
  refine ⟨_, rfl, _, _, _, _, _, _, looked.trans ?_, fun _ _ => ?_, rfl⟩
  · exact .irrevocable ..
  · exact CopyKept.sendAddends ..

/-- A transfer word of a channel whose size is zero. -/
def ZeroSized (ch : BitVec 2) (i : Instr) : Prop :=
  (∃ xf rm sat len, len.nat = 0 ∧ (i = .ldt ch xf rm sat len ∨ i = .stt ch xf rm sat len))
    ∨ (∃ b sl len, len.nat = 0 ∧ i = .ldo ch b sl len) ∨ (∃ ty len, len.nat = 0 ∧ i = .acc ch ty len)
    ∨ (∃ esz, i = .gth ch esz 0 ∨ i = .sct ch esz 0) ∨ (∃ w, w.ch = ch ∧ w.len.toNat = 0 ∧ (i = .cvd w ∨ i = .cvq w))

theorem State.rowCopy_zero (load : Bool) (i : Instr) (ch : BitVec 2) (xf : Fmt) (rm : Rm) (sat : Bool) :
    s.rowCopy load i ch xf rm sat 0 = s.zeroXfer (chanOf s.cur.eng ch) := State.transfer16_zero task cmd room ..

theorem State.elemCopy_zero (load : Bool) (i : Instr) (ch : BitVec 2) (esz : BitVec 4) :
    s.elemCopy load i (ch.setWidth 4) esz 0 = s.zeroXfer (chanOf s.cur.eng ch) := by
  rw [State.elemCopy, State.transfer16_zero task cmd room, BitVec.setWidth_setWidth_of_le ch (by decide), BitVec.setWidth_eq]

theorem State.convert_zero (i : Instr) {w : CvWord} (none : w.len.toNat = 0) :
    s.convert i w = s.zeroXfer (chanOf s.cur.eng w.ch) := by
  rw [State.convert, none, State.transfer16_zero task cmd room]

theorem exec_zeroSized {ch : BitVec 2} {i : Instr} (zero : ZeroSized ch i) :
    exec i s = .next (s.zeroXfer (chanOf s.cur.eng ch)) := by
  obtain ⟨xf, rm, sat, len, none, rfl | rfl⟩ | ⟨b, sl, len, none, rfl⟩ | ⟨ty, len, none, rfl⟩ | ⟨esz, rfl | rfl⟩
    | ⟨w, rfl, none, rfl | rfl⟩ := zero
  · rw [exec, execLdt, none, State.rowCopy_zero task cmd room]
  · rw [exec, execStt, none, State.rowCopy_zero task cmd room]
  · rw [exec, execLdo, none, State.transfer16_zero task cmd room]
  · rw [exec, execAcc, none, State.transfer16_zero task cmd room]
  · exact congrArg _ (State.elemCopy_zero task cmd room true _ ch esz)
  · exact congrArg _ (State.elemCopy_zero task cmd room false _ ch esz)
  · exact congrArg _ (State.convert_zero task cmd room _ none)
  · exact congrArg _ (State.convert_zero task cmd room _ none)

end

/-- A transfer of size zero takes its identifier and stands among no transfers. -/
theorem State.zeroXfer_spec {s : State} {k : Cmd} (cmd : s.cmd = some k) (ch : Nat) :
    let old := (s.core s.cur.core).copy
    let new := ((s.zeroXfer ch).core s.cur.core).copy
    EngineIssued s (s.zeroXfer ch) ∧ new.xfers = old.xfers ∧ MemoryKept s (s.zeroXfer ch)
      ∧ new.nxt = old.nxt.set ch (old.nxt.getD ch 0 + 1) := by
  obtain ⟨issued, ⟨tk, fl, qs, tt, core⟩, -, memory, -⟩ := State.engineIssue_spec true cmd
  have last : (s.zeroXfer ch).core s.cur.core =
      { (s.engineIssue true).core s.cur.core with
        copy := (((s.engineIssue true).core s.cur.core).copy.takeIdent ch).watermark ch } := State.core_updCore ..
  have copy := (congrArg (·.copy) last :).trans (congrArg (fun x : Core => (x.copy.takeIdent ch).watermark ch) core)
  exact ⟨EngineIssued.kept_after issued (congrArg Core.seq last :) (congrArg (fun x : Core => x.queues.map _) last :),
    (congrArg (·.xfers) copy :), ⟨memory.bytes, memory.keys, memory.poison⟩, (congrArg (·.nxt) copy :)⟩

/-! ## XID (R165) -/

section
variable {s : State} {t : Task} {k : Cmd} (task : s.task = some t) (cmd : s.cmd = some k)
include task cmd

theorem exec_xid {ch : BitVec 2} (ended : ∀ f ∈ (s.core s.cur.core).copy.xfers, f.ch ≠ chanOf s.cur.eng ch)
    (aligned : k.g1 % 4 = 0) (inside : k.spadOk s.cur.core t writeKinds k.g1 4 = true) :
    exec (.xid ch) s = .next (((s.writeArray s.cur.core k.g1
      (leBytes 4 ((s.core s.cur.core).copy.xw.getD (chanOf s.cur.eng ch) 0).toNat)).fireLine
        (arrayAt s.cur.core k.g1)).engineIssue true) := by
  have none : ((s.core s.cur.core).copy.xfers.any fun f => f.ch == chanOf s.cur.eng ch) = false :=
    List.any_eq_false.mpr fun f there => by simp [ended f there]
  simp only [exec, execXid, task, cmd, none, aligned, inside, ne_eq, not_true, Bool.not_true, Bool.false_eq_true, if_false]

/-- XID writes the channel's xw, and no other byte. -/
theorem xid_spec {ch : BitVec 2} (wf : Memory.wf s.mem = true)
    (ended : ∀ f ∈ (s.core s.cur.core).copy.xfers, f.ch ≠ chanOf s.cur.eng ch) (aligned : k.g1 % 4 = 0)
    (inside : k.spadOk s.cur.core t writeKinds k.g1 4 = true) :
    ∃ u, exec (.xid ch) s = .next u ∧ EngineIssued s u
      ∧ ∀ a, memRead u.mem a = if arrayAt s.cur.core k.g1 ≤ a ∧ a < arrayAt s.cur.core k.g1 + 4
          then (leBytes 4 ((s.core s.cur.core).copy.xw.getD (chanOf s.cur.eng ch) 0).toNat).getD
            (a - arrayAt s.cur.core k.g1) 0
          else memRead s.mem a := by
  let xw := leBytes 4 ((s.core s.cur.core).copy.xw.getD (chanOf s.cur.eng ch) 0).toNat
  have fired : Quiet (s.writeArray s.cur.core k.g1 xw) _ := Quiet.fireLine _ (arrayAt s.cur.core k.g1)
  have kept : CopyKept s.cur.core s _ := CopyKept.trans (t := s.writeArray s.cur.core k.g1 xw) (.of_core rfl rfl)
    (.of_quiet _ fired)
  obtain ⟨j, held, -⟩ := kept.cmd_some cmd
  obtain ⟨issued, -, -, memory, -⟩ := State.engineIssue_spec true held
  refine ⟨_, exec_xid task cmd ended aligned inside, kept.issued issued, fun a => ?_⟩
  rw [memory.bytes, fired.mem.1, State.writeArray, memRead_memWrites wf, leBytes_length]

end

end Sys2Proof.Machine
end

section
/-! SUPPORT. Transfers that complete (R27, R162, R176), and the signals of engine words that waited for room (R27). -/

namespace Sys2Proof.Machine

open Sys2Proof Sys2Proof.Safety

/-! ## What a completed transfer writes -/

theorem State.writeCells_mem (s : State) (c base : Nat) (l : List (Nat × Byte)) :
    ∃ m, s.writeCells c base l = { s with mem := m } := by
  induction l generalizing s with
  | nil => exact ⟨_, rfl⟩
  | cons p l ih => exact ih (s.writeArray ..)

theorem Quiet.fireBlocks (s : State) (c lo n : Nat) : Quiet s (s.fireBlocks c lo n) := by
  rw [State.fireBlocks]
  generalize List.range ((lo + n - 1) / 128 + 1 - lo / 128) = l
  induction l generalizing s with
  | nil => exact Quiet.refl s
  | cons i l ih => exact Quiet.trans (Quiet.fireLine ..) (ih _)

/-- A map of a table that sees the number of an entry. -/
theorem tfind_map_key {α : Type} (k : Nat) (g : Nat → α → α) (t : Tbl α) :
    tfind k (t.map fun (p : Nat × α) => (p.1, g p.1 p.2)) = (tfind k t).map (g k) := by
  induction t with
  | nil => rfl
  | cons p t ih =>
    obtain ⟨j, v⟩ := p
    simp only [List.map_cons, tfind]
    split
    · rename_i same
      rw [same]
      rfl
    · exact ih

/-- The bytes that words in flight may still get are kept with those words. -/
theorem State.keepOld_core (s : State) (q a n c : Nat) :
    ∃ l, (s.keepOld q a n).core c = { s.core c with mat := { (s.core c).mat with infl := l } } := by
  simp only [State.keepOld, State.core, tget, tfind_map_key c fun d (x : Core) => { x with mat := { x.mat with
    infl := x.mat.infl.map fun m => if (quadOf d == q || quadOf m.leader == q) then m.keepOld s.mem a n else m } }]
  cases tfind c s.cores with
  | none => exact ⟨_, rfl⟩
  | some x => exact ⟨_, rfl⟩

theorem CopyKept.keepOld (c : Nat) (s : State) (q a n : Nat) : CopyKept c s (s.keepOld q a n) := by
  obtain ⟨l, core⟩ := s.keepOld_core q a n c
  refine ⟨rfl, (congrArg Core.seq core :), ?_, ?_, ?_⟩
  all_goals rw [core]

/-- The bytes of a range are written and its monitors fire. -/
theorem CopyKept.writeCells {c : Nat} {s u : State} (before : CopyKept c s u ∧ u.reqs = s.reqs) (base : Nat)
    (l : List (Nat × Byte)) (lo n : Nat) : CopyKept c s ((u.writeCells c base l).fireBlocks c lo n)
      ∧ ((u.writeCells c base l).fireBlocks c lo n).reqs = s.reqs := by
  obtain ⟨m, written⟩ := u.writeCells_mem c base l
  have fired := Quiet.fireBlocks (u.writeCells c base l) c lo n
  rw [written] at fired ⊢
  have cells : CopyKept c u { u with mem := m } := .of_core rfl rfl
  exact ⟨(before.1.trans cells).trans (.of_quiet c fired), fired.rest.1.trans before.2⟩

/-- What a completed transfer writes reaches neither its core's sequencer nor the transfers and requests. -/
theorem State.xferWrite_kept (s : State) (c : Nat) (f : Xfer) (row : List (Nat × Byte)) :
    CopyKept c s (s.xferWrite c f row) ∧ (s.xferWrite c f row).reqs = s.reqs := by
  rw [State.xferWrite]
  split
  · exact CopyKept.writeCells ⟨.useFree c s, rfl⟩ ..
  · exact CopyKept.writeCells ⟨.refl c s, rfl⟩ ..
  · exact CopyKept.writeCells ⟨.useFree c s, rfl⟩ ..
  · exact CopyKept.writeCells ⟨.useFree c s, rfl⟩ ..
  · exact ⟨(CopyKept.keepOld c s ..).trans (.of_core rfl rfl), rfl⟩
  · exact ⟨.refl c s, rfl⟩

/-! ## Completion -/

/-- The state after a transfer whose data are written, before its word is complete. -/
def State.xferWritten (s : State) (c : Nat) (f : Xfer) : State :=
  if f.landed then s
  else s.xferWrite c f ((Machine.rowBytes (f.reqs.filterMap s.req)).foldl (fun l (i, b) => tset i b l) f.arrived)

/-- A transfer leaves the transfers of its core, and its word is complete. -/
def Core.xferDone (x : Core) (f : Xfer) (wid : Nat) : Core :=
  ({ x with copy := ({ x.copy with xfers := x.copy.xfers.filter fun g => g.wid != wid } : Copy).watermark f.ch }
    : Core).completeWord f.eng wid

theorem Core.xferDone_xfers (x : Core) (f : Xfer) (wid : Nat) :
    (x.xferDone f wid).copy.xfers = x.copy.xfers.filter (·.wid != wid) := by
  obtain ⟨_, _, shape⟩ := Core.completeWord_shape _ f.eng wid
  rw [Core.xferDone, shape]
  rfl

theorem State.xferWritten_kept (s : State) (c : Nat) (f : Xfer) :
    CopyKept c s (s.xferWritten c f) ∧ (s.xferWritten c f).reqs = s.reqs := by
  rw [State.xferWritten]
  split
  · exact ⟨.refl c s, rfl⟩
  · exact s.xferWrite_kept c f _

theorem State.xferWritten_stt {f : Xfer} (store : ∃ ch xf rm sat len, f.instr = .stt ch xf rm sat len) (s : State)
    (c : Nat) : s.xferWritten c f = s := by
  obtain ⟨ch, xf, rm, sat, len, instr⟩ := store
  rw [State.xferWritten, State.xferWrite, instr, ite_self]

section
variable {s : State} {c wid : Nat} {f : Xfer} (found : s.xferOf c wid = some f)
  (answered : ∀ id ∈ f.reqs, ∃ r, s.req id = some r ∧ r.phase = .answered ∧ r.isAddend = false ∧ r.poison = false)
include found answered

theorem canCopyComplete_of (free : (s.core c).freezes = []) (clean : f.poison = false) (sent : f.unsent = []) :
    canCopyComplete c f.eng wid s = true := by
  have done : f.reqs.all s.xferReqDone = true := List.all_eq_true.mpr fun id there => by
    obtain ⟨r, req, phase, plain, -⟩ := answered id there
    simp [State.xferReqDone, req, phase, plain]
  simp [canCopyComplete, free, found, clean, sent, done]

theorem State.copyComplete_eq : s.copyComplete c wid =
    ({ s.xferWritten c f with reqs := (s.xferWritten c f).reqs.filter fun r => !f.reqs.contains r.id } : State).updCore c
      (·.xferDone f wid) := by
  have clean : (f.reqs.filterMap s.req).find? (·.poison) = none := List.find?_eq_none.mpr fun r there => by
    obtain ⟨id, mem, req⟩ := List.mem_filterMap.mp there
    obtain ⟨q, req', -, -, poison⟩ := answered id mem
    cases req.symm.trans req'
    simp [poison]
  rw [State.copyComplete, found]
  dsimp only
  rw [clean]
  rfl

/-- A transfer that completes leaves the transfers, and its requests leave with it. -/
theorem State.copyComplete_spec :
    ((s.copyComplete c wid).core c).copy.xfers = (s.core c).copy.xfers.filter (·.wid != wid)
      ∧ (s.copyComplete c wid).reqs = s.reqs.filter (fun r => !f.reqs.contains r.id)
      ∧ (s.copyComplete c wid).seq c = s.seq c
      ∧ ((∃ ch xf rm sat len, f.instr = .stt ch xf rm sat len) → MemoryKept s (s.copyComplete c wid)) := by
  obtain ⟨kept, reqs⟩ := s.xferWritten_kept c f
  rw [State.copyComplete_eq found answered]
  refine ⟨?_, congrArg (List.filter _) reqs, ?_, fun store => ?_⟩
  · rw [State.core_updCore, Core.xferDone_xfers, ← kept.xfers]
    rfl
  · rw [State.seq_updCore, Core.xferDone, Core.completeWord_seq]
    exact kept.seq
  · rw [State.xferWritten_stt store]
    exact ⟨fun _ => rfl, rfl, rfl, rfl⟩

end

theorem exec_engineWordComplete_copy {s : State} {c wid : Nat} {e : Engine} (copies : e = .load ∨ e = .store)
    (can : canCopyComplete c e wid s = true) (free : (s.core c).freezes = []) :
    exec (.engineWordComplete c e wid) s = .next (s.copyComplete c wid) := by
  have lands : canCopyLand c e wid s = false := by simp [canCopyLand, free]
  obtain rfl | rfl := copies
  all_goals simp only [exec, execEngineWordComplete, canEngineWordComplete, can, lands, Bool.true_or, Bool.false_eq_true,
    if_true, if_false]

/-! ## Signals that waited for room -/

theorem Core.signal_tokens (x : Core) (e : Engine) (n : Bool) : (x.signal e n).tokens.length = x.tokens.length := by
  simp only [Core.signal]
  split
  · exact List.length_modify ..
  · rfl

theorem Core.drain_tokens (e : Engine) (n : Nat) : ∀ x : Core, (x.drain e n).tokens.length = x.tokens.length := by
  induction n with
  | zero => exact fun _ => rfl
  | succ n ih =>
    intro x
    simp only [Core.drain]
    split
    · rfl
    · rename_i w ws _
      split
      · rfl
      · have previous : (if w.sp then x.signal e false else x).tokens.length = x.tokens.length := by
          split
          · exact x.signal_tokens e false
          · rfl
        generalize (if w.sp then x.signal e false else x) = y at previous ⊢
        have next : (if w.sn then y.signal e true else y).tokens.length = x.tokens.length := by
          split
          · exact (y.signal_tokens e true).trans previous
          · exact previous
        generalize (if w.sn then y.signal e true else y) = z at next ⊢
        split
        · exact next
        · exact (ih _).trans next

theorem Core.settle_tokens (x : Core) (e : Engine) : (x.settle e).tokens.length = x.tokens.length := by
  rw [Core.settle]
  split
  · exact Core.drain_tokens ..
  · rfl

theorem Core.deliverPending_shape (x : Core) (e : Engine) (n : Bool) :
    ∃ tk fl, x.deliverPending e n = { x with tokens := tk, flows := fl } ∧ tk.length = x.tokens.length := by
  rw [Core.deliverPending]
  split
  · exact ⟨_, _, rfl, List.length_modify ..⟩
  · exact ⟨_, _, rfl, rfl⟩

/-- Signals that follow change tokens and flows alone, and no queue of tokens comes or goes. -/
theorem Core.delivered_shape (x : Core) (e : Engine) :
    ∃ tk fl, ((x.deliverPending e false).deliverPending e true).settle e = { x with tokens := tk, flows := fl }
      ∧ tk.length = x.tokens.length := by
  obtain ⟨_, _, first, len⟩ := x.deliverPending_shape e false
  obtain ⟨_, _, second, len'⟩ := (x.deliverPending e false).deliverPending_shape e true
  obtain ⟨tk, fl, settled⟩ := ((x.deliverPending e false).deliverPending e true).settle_shape e
  have tokens := Core.settle_tokens ((x.deliverPending e false).deliverPending e true) e
  rw [settled, second, first] at tokens
  rw [first] at len'
  exact ⟨tk, fl, by rw [settled, second, first], tokens.trans (len'.trans len)⟩

theorem exec_pendingSignalDelivered {s : State} {c : Nat} {e : Engine} (free : (s.core c).freezes = [])
    (room : (s.core c).deliverable e false = true ∨ (s.core c).deliverable e true = true) :
    exec (.pendingSignalDelivered c e) s =
      .next (s.updCore c fun x => ((x.deliverPending e false).deliverPending e true).settle e) := by
  have can : canPendingSignalDelivered c e s = true := by
    obtain h | h := room <;> simp [canPendingSignalDelivered, free, h]
  simp only [exec, execPendingSignalDelivered, can, if_true]

/-- Settles O53: each transfer word that passes its checks is a `StartsXfer`; XID, NOP, completions and signals are the
states that the lemmas above name. -/
theorem copyWords : Obligations.CopyWords := by
  refine ⟨fun s t k task cmd => ?words, fun s c e wid f copies free found eng clean sent answered => ?completes,
    fun s c e free room => ?signals⟩
  case words =>
    intro c e x
    refine ⟨fun ch room => ⟨fun i zero => ?zero, fun load xf rm sat len r m sized side => ?row,
      fun b sl len r m sized side => ?ldo, fun load esz n r ps sized form based => ?elem,
      fun w q chan sized free a1 a2 whole source target apart => ?cv,
      fun ty len r m sized side free home a0 a1 whole memory scratch => ?acc⟩,
      fun ch wf ended aligned inside => xid_spec task cmd wf ended aligned inside, ?nop⟩
    case zero =>
      obtain ⟨issued, xfers, memory, nxt⟩ := State.zeroXfer_spec cmd (chanOf e ch)
      exact ⟨_, exec_zeroSized task cmd room zero, issued, xfers, memory, nxt⟩
    case row =>
      intro conv page mem pad free aligned0 aligned1 whole memory scratch
      have starts (i : Instr) := State.rowCopy_starts task cmd room i ch sized side free aligned0 aligned1 whole memory
        scratch
      cases load with
      | true => exact (starts (.ldt ch xf rm sat len)).transferred cmd rfl
      | false => exact (starts (.stt ch xf rm sat len)).transferred cmd rfl
    case ldo =>
      intro page free aligned whole memory slot claimed fits
      obtain ⟨u, run, starts⟩ := execLdo_starts task cmd room ch sized side free aligned whole memory slot claimed fits
      exact starts.transferred cmd run
    case elem =>
      intro size idx mem pad free sides a0 a1 a2 memory scratch index
      have starts (i : Instr) := State.elemCopy_starts task cmd room i (ch.setWidth 4) esz (n := n.toNat)
        (fun none => sized (BitVec.eq_of_toNat_eq none)) form based free sides a0 a1 a2 memory scratch index
      rw [BitVec.setWidth_setWidth_of_le ch (by decide), BitVec.setWidth_eq] at starts
      cases load with
      | true => exact (starts (.gth ch esz n)).transferred cmd rfl
      | false => exact (starts (.sct ch esz n)).transferred cmd rfl
    case cv =>
      subst chan
      have starts (i : Instr) := State.convert_starts task cmd room i w sized free a1 a2 whole source target apart
      cases q with
      | true => exact (starts (.cvq w)).transferred cmd rfl
      | false => exact (starts (.cvd w)).transferred cmd rfl
    case acc =>
      obtain ⟨u, run, starts⟩ := execAcc_starts task cmd room ch sized side free home a0 a1 whole memory scratch
      exact starts.transferred cmd run
    case nop =>
      obtain ⟨issued, ⟨tk, fl, qs, tt, core⟩, others, memory, outside⟩ := State.engineIssue_spec true cmd
      exact ⟨_, rfl, issued, (congrArg Core.copy core :), (congrArg Core.vec core :), (congrArg Core.mat core :), others,
        memory, outside⟩
  case completes =>
    subst eng
    have can := canCopyComplete_of found answered free clean sent
    obtain ⟨xfers, reqs, seq, memory⟩ := State.copyComplete_spec found answered
    exact ⟨_, exec_engineWordComplete_copy copies can free, xfers, reqs, seq, memory⟩
  case signals =>
    obtain ⟨tk, fl, shape, length⟩ := (s.core c).delivered_shape e
    have core := (State.core_updCore s c fun x => ((x.deliverPending e false).deliverPending e true).settle e).trans shape
    refine ⟨_, exec_pendingSignalDelivered free room, (congrArg Core.seq core :), (congrArg Core.queues core :),
      (congrArg Core.copy core :), fun n other => State.core_updCore_ne _ _ other, State.updCore_memory ..,
      State.updCore_outside .., ?_⟩
    rw [core]
    exact length

end Sys2Proof.Machine
end

section
/-! SUPPORT. The state of the vector engine (R200 to R208, R225, R226): the words of the ports, the completion of a word in
flight, and a command that goes to a sibling. -/

namespace Sys2Proof.Machine

open Sys2Proof Sys2Proof.Safety

/-! ## Words of the ports (R200, R201, R203) -/

/-- The context of a command that is not relocatable is its core's own. -/
theorem State.updVctx_own {s : State} {k : Cmd} (cmd : s.cmd = some k) (eng : s.cur.eng = .vec) (reloc : k.reloc = false)
    (f : VCtx → VCtx) :
    s.updVctx f = s.updCore s.cur.core fun x => { x with vec := { x.vec with own := f x.vec.own } } := by
  have found : ((s.core s.cur.core).queue .vec).find? (fun j => j.uid == s.cur.cmd) = some k := by rw [← eng]; exact cmd
  simp only [State.updVctx, State.updCore, found, reloc, Bool.false_eq_true, if_false]

/-- A word that changes its context as it issues changes nothing else. -/
theorem State.updVctx_issued {s : State} {k : Cmd} (cmd : s.cmd = some k) (eng : s.cur.eng = .vec) (reloc : k.reloc = false)
    (f : VCtx → VCtx) :
    let t := (s.updVctx f).engineIssue true
    EngineIssued s t ∧ (t.core s.cur.core).vec.own = f (s.core s.cur.core).vec.own
      ∧ (∀ n, n ≠ s.cur.core → t.core n = s.core n) ∧ MemoryKept s t ∧ OutsideKept s t := by
  let u := s.updCore s.cur.core fun x => { x with vec := { x.vec with own := f x.vec.own } }
  have kept : CopyKept s.cur.core s u := .updCore _ s _ _ (fun _ => rfl) (fun _ => rfl) fun _ => ⟨rfl, rfl⟩
  obtain ⟨j, held, -⟩ := kept.cmd_some cmd
  obtain ⟨issued, ⟨tk, fl, qs, tt, core⟩, others, memory, outside⟩ := State.engineIssue_spec true held
  have own : ((u.engineIssue true).core s.cur.core).vec = (u.core s.cur.core).vec := (congrArg Core.vec core :)
  rw [State.updVctx_own cmd eng reloc]
  refine ⟨kept.issued issued, ?_, fun n other => ?_, ⟨memory.bytes, memory.keys, memory.poison⟩, ?_⟩
  · rw [own, State.core_updCore]
  · rw [others n other, State.core_updCore_ne _ _ other]
  · exact ⟨outside.quads, outside.dies, outside.slices, outside.fns, outside.reqs, outside.boot, outside.exports,
      outside.links, outside.host, outside.cur⟩

/-! ## Completion (R208, R210) -/

/-- Operations that are counted change the counts of the function and of its core's task alone. -/
theorem State.countOps_shape (s : State) (c : Nat) (vec : Bool) (m n : Nat) :
    (∃ tt, (s.countOps c vec m n).core c = { s.core c with task := tt }) ∧ MemoryKept s (s.countOps c vec m n) := by
  rw [State.countOps]
  split
  · exact ⟨⟨_, rfl⟩, fun _ => rfl, rfl, rfl, rfl⟩
  · rename_i t _
    have core : (s.meter t.fn m n).core c = s.core c := by rw [State.meter]; split <;> rfl
    refine ⟨?_, MemoryKept.trans (LookedRead.kept (LookedRead.meter ..)) (State.updCore_memory ..)⟩
    rw [State.core_updCore, core]
    exact ⟨_, rfl⟩

section
variable {s : State} {c wid : Nat} {f : VInfl}
  (found : (s.core c).vec.own.infl.find? (fun g => g.wid == wid) = some f)
include found

theorem State.vecOf_own : s.vecOf c wid = some f := by
  rw [State.vecOf, Core.vecInfl, List.find?_append, found, Option.some_or]

/-- No earlier word of an equal or longer latency keeps the word back. -/
theorem canVecComplete_of (free : (s.core c).freezes = [])
    (own : ∀ g ∈ (s.core c).vec.own.infl, f.wid ≤ g.wid ∨ f.latency < g.latency)
    (engine : ∀ k ∈ (s.core c).queue .vec, ∀ g ∈ (s.core c).engineInfl k, f.wid ≤ g.wid ∨ f.latency < g.latency) :
    canVecComplete c wid s = true := by
  have first (l : List VInfl) (h : ∀ g ∈ l, f.wid ≤ g.wid ∨ f.latency < g.latency) : f.behind l = false :=
    List.any_eq_false.mpr fun g there => by
      have := h g there
      simp only [Bool.and_eq_true, decide_eq_true_eq]
      omega
  simp only [canVecComplete, free, BEq.rfl, State.vecOf_own found, Bool.true_and]
  split
  · rename_i k held
    rw [first _ (engine k (List.mem_of_find?_eq_some held)), Bool.not_false]
  · rw [first _ own, Bool.not_false]

/-- A word on registers writes no byte of the array, so that its completion changes its context and the counts. -/
theorem State.vecComplete_own (registers : ∀ w ∈ f.writes, w.code.toNat < 8) :
    s.vecComplete c wid = (s.countOps c true f.meter f.ops).updCore c fun x =>
      ({ x with vec := { x.vec with own := x.vec.own.finish f } } : Core).completeWord .vec wid := by
  have cells : f.cells = [] := by
    have none : f.writes.filter (fun w => w.code == 11) = [] := List.filter_eq_nil_iff.mpr fun w there port => by
      have := registers w there
      rw [beq_iff_eq.mp port] at this
      exact absurd this (by decide)
    rw [VInfl.cells, none, List.flatMap_nil]
  obtain ⟨⟨tt, core⟩, -⟩ := s.countOps_shape c true f.meter f.ops
  have flight : ((s.countOps c true f.meter f.ops).core c).vec.own.infl.any (fun g => g.wid == wid) = true := by
    rw [core]
    exact List.any_eq_true.mpr ⟨f, List.mem_of_find?_eq_some found, (List.find?_some found :)⟩
  rw [State.vecComplete, State.vecOf_own found]
  simp only [cells, State.writeCells, cellBlocks, List.map_nil, List.eraseDups_nil, List.foldl_nil]
  rw [State.updCore, State.updCore]
  simp only [flight, if_true]

theorem State.vecComplete_spec (registers : ∀ w ∈ f.writes, w.code.toNat < 8) :
    ((s.vecComplete c wid).core c).vec.own = (s.core c).vec.own.finish f ∧ (s.vecComplete c wid).seq c = s.seq c
      ∧ MemoryKept s (s.vecComplete c wid) := by
  obtain ⟨⟨tt, counted⟩, memory⟩ := s.countOps_shape c true f.meter f.ops
  rw [State.vecComplete_own found registers]
  refine ⟨?_, ?_, MemoryKept.trans memory (State.updCore_memory ..)⟩
  · obtain ⟨tk, fl, shape⟩ := Core.completeWord_shape { (s.countOps c true f.meter f.ops).core c with
      vec := { ((s.countOps c true f.meter f.ops).core c).vec with
        own := ((s.countOps c true f.meter f.ops).core c).vec.own.finish f } } .vec wid
    rw [State.core_updCore, shape, counted]
  · rw [State.seq_updCore, Core.completeWord_seq, State.seq]
    exact (congrArg Core.seq counted :)

end

/-- A write of a word on registers goes to the register that it names. -/
theorem VCtx.finish_regs {v : VCtx} {f : VInfl} {w : VWrite} (one : f.writes = [w]) (register : w.code.toNat < 8) (r : Nat) :
    (v.finish f).regs.getD r [] = if r = w.code.toNat then mergeLanes (v.regs.getD r []) w else v.regs.getD r [] := by
  have regs : (v.finish f).regs = v.regs.modify w.code.toNat fun o => mergeLanes o w := by
    simp only [VCtx.finish, one, List.foldl_cons, List.foldl_nil, if_pos register]
  rw [regs, List.getD_eq_getElem?_getD, List.getD_eq_getElem?_getD, List.getElem?_modify]
  by_cases same : r = w.code.toNat
  · subst same
    cases v.regs[w.code.toNat]? <;> simp [mergeLanes]
  · simp [same, Ne.symm same]

/-! ## Relocation (R225, R226) -/

theorem Core.queue_updCmd (x : Core) (e : Engine) (uid : Nat) (f : Cmd → Cmd) :
    (x.updCmd e uid f).queue e = (x.queue e).map fun j => if j.uid = uid then f j else j := by
  simp only [Core.queue, Core.updCmd, Core.updQueue, lmod, List.getD_eq_getElem?_getD, List.getElem?_modify_eq]
  cases x.queues[queueIdx e]? <;> rfl

theorem Core.uids_updCmd (x : Core) (e : Engine) (uid : Nat) {f : Cmd → Cmd} (same : ∀ j, (f j).uid = j.uid) :
    ((x.updCmd e uid f).queue e).map (·.uid) = (x.queue e).map (·.uid) := by
  rw [Core.queue_updCmd, List.map_map]
  refine List.map_congr_left fun j _ => ?_
  dsimp only [Function.comp]
  split
  · exact same j
  · rfl

/-- A vector command that starts leaves the sequencer and which commands there are. -/
theorem Core.startCmd_vec (x : Core) (k : Cmd) :
    (x.startCmd .vec k).seq = x.seq ∧ ((x.startCmd .vec k).queue .vec).map (·.uid) = (x.queue .vec).map (·.uid) := by
  have context : (x.startVec k).seq = x.seq ∧ ((x.startVec k).queue .vec).map (·.uid) = (x.queue .vec).map (·.uid) := by
    rw [Core.startVec]
    split
    · exact ⟨rfl, Core.uids_updCmd _ _ _ fun _ => rfl⟩
    · exact ⟨rfl, rfl⟩
  rw [Core.startCmd]
  split
  · exact ⟨rfl, rfl⟩
  · have started := Core.uids_updCmd (x.startVec k) .vec k.uid (f := fun j => { j with started := true }) fun _ => rfl
    exact ⟨context.1, started.trans context.2⟩

theorem State.relocTarget_mem {s : State} {c o : Nat} {k : Cmd} (target : s.relocTarget c = some (k, o)) :
    k ∈ (s.core c).queue .vec := by
  have relocatable : (s.core c).relocatable c = some k := by
    revert target
    rw [State.relocTarget]
    split
    · rename_i held
      rw [held]
      simp only [Option.map_eq_some_iff, Prod.mk.injEq]
      rintro ⟨_, -, rfl, -⟩
      rfl
    · exact nofun
  revert relocatable
  rw [Core.relocatable]
  split
  · rename_i j oldest
    dsimp only
    split
    · rintro ⟨⟩
      exact List.mem_of_find?_eq_some oldest
    · exact nofun
  · exact nofun

theorem exec_vectorRelocation {s : State} {c o : Nat} {k : Cmd} (free : (s.core c).freezes = [])
    (target : s.relocTarget c = some (k, o)) :
    exec (.vectorRelocation c) s = .next (s.updCore c fun x =>
      (x.startCmd .vec k).updCmd .vec k.uid fun k => { k with takenBy := some o }) := by
  have can : canVectorRelocation c s = true := by simp [canVectorRelocation, free, target]
  simp only [exec, execVectorRelocation, can, target, if_true]

/-- Settles O54: the words of the ports by `State.updVctx_issued`, the completion by `State.vecComplete_spec`, and the
relocation by the command's place in its queue. -/
theorem vectorState : Obligations.VectorState := by
  refine ⟨fun s k cmd eng reloc => ?ports, fun s c wid f free found registers own engine => ?completes,
    fun s c o k free target => ?relocates⟩
  case ports =>
    have ends (f : VCtx → VCtx) := State.updVctx_issued cmd eng reloc f
    refine ⟨fun ps imm => ⟨⟨_, rfl, ends _⟩, ⟨_, rfl, ends _⟩, ⟨_, rfl, ends _⟩, ⟨_, rfl, ends _⟩⟩,
      fun port ps => ⟨_, rfl, ends _⟩, fun port n => ⟨_, rfl, ?_⟩⟩
    rw [← BitVec.ofNat_toNat]
    exact ends _
  case completes =>
    have wid_eq : f.wid = wid := by simpa using List.find?_some found
    have run : exec (.engineWordComplete c .vec wid) s = .next (s.vecComplete c wid) := by
      simp only [exec, execEngineWordComplete, canEngineWordComplete, canVecComplete_of found free own engine, if_true]
    obtain ⟨finished, seq, memory⟩ := State.vecComplete_spec found registers
    refine ⟨_, run, ?_⟩
    rw [finished]
    refine ⟨?_, rfl, fun none => ?_, fun w one r _ => ?_, fun m v mask => ?_, fun none => ?_, seq, memory⟩
    · rw [← wid_eq]
      rfl
    · simp only [VCtx.finish, none, List.foldl_nil]
    · exact VCtx.finish_regs one (registers w (by rw [one]; exact List.mem_singleton_self w)) r
    · simp only [VCtx.finish, mask]
    · simp only [VCtx.finish, none]
  case relocates =>
    obtain ⟨seq, uids⟩ := (s.core c).startCmd_vec k
    have there : k.uid ∈ (((s.core c).startCmd .vec k).queue .vec).map (·.uid) := by
      rw [uids]
      exact List.mem_map_of_mem (State.relocTarget_mem target)
    obtain ⟨i, queue, uid⟩ := List.mem_map.mp there
    refine ⟨_, exec_vectorRelocation free target, fun n other => State.core_updCore_ne _ _ other,
      State.updCore_memory .., ?_, ?_, ?_⟩
    all_goals rw [State.core_updCore]
    · intro j mem same
      rw [Core.queue_updCmd] at mem
      obtain ⟨i, -, rfl⟩ := List.mem_map.mp mem
      split at same
      · rename_i chosen
        rw [if_pos chosen]
      · rename_i other
        exact absurd same other
    · refine ⟨{ i with takenBy := some o }, ?_, uid⟩
      rw [Core.queue_updCmd]
      exact List.mem_map.mpr ⟨i, queue, if_pos uid⟩
    · exact seq

end Sys2Proof.Machine
end

section
/-! SUPPORT. Vector words on registers (R198, R204, R208): what stands in flight, by what the word writes; and the element-wise
words (R211, R212). -/

namespace Sys2Proof.Machine

open Sys2Proof Sys2Proof.Safety

/-! ## What an element-wise word computes -/

theorem VCtx.elementwise_writes (v : VCtx) (d : BitVec 4) (mk : BitVec 2) (t : VTy) (rs : List (Nat × Exc)) :
    (v.elementwise d mk t rs).writes = [⟨d, vpack t (rs.map (·.1)), v.keep mk⟩] := rfl

theorem VOut.twice_writes (o : VOut) : o.twice.writes = o.writes := rfl

/-! ## A word on registers that can issue -/

/-- What a word in flight is to write, by what the word computed. -/
structure Carries (out : VOut) (f : VInfl) : Prop where
  writes : f.writes = out.writes
  mask : f.mask = out.mask
  flags : f.flags = out.flags
  clear : f.clear = out.clear
  tab : f.tab = out.tab

/-- Operands whose values are those of registers. -/
def ReadsRegisters (v : VCtx) (srcs : List (BitVec 4)) (o : BitVec 4 → List Dbl) : Prop :=
  ∀ c ∈ srcs, o c = v.regs.getD c.toNat []

theorem ReadsRegisters.one {v : VCtx} {a : BitVec 4} {o : BitVec 4 → List Dbl} (h : ReadsRegisters v [a] o) :
    o a = v.regs.getD a.toNat [] := h a (by simp)

theorem ReadsRegisters.two {v : VCtx} {a b : BitVec 4} {o : BitVec 4 → List Dbl} (h : ReadsRegisters v [a, b] o) :
    o a = v.regs.getD a.toNat [] ∧ o b = v.regs.getD b.toNat [] := ⟨h a (by simp), h b (by simp)⟩

theorem ReadsRegisters.three {v : VCtx} {a b c : BitVec 4} {o : BitVec 4 → List Dbl} (h : ReadsRegisters v [a, b, c] o) :
    o a = v.regs.getD a.toNat [] ∧ o b = v.regs.getD b.toNat [] ∧ o c = v.regs.getD c.toNat [] :=
  ⟨h a (by simp), h b (by simp), h c (by simp)⟩

section
variable {i : Instr} {s : State} {k : Cmd} {lat : Nat} {srcs dests : List (BitVec 4)} {masks : List (BitVec 2)}
  {ready : VCtx → Bool} {go : VCtx → (BitVec 4 → List Dbl) → Option VOut}

/-- A vector word that names just what can be used stands in flight with what it computes from its registers. -/
theorem State.vecWord_registers {p : VInfl → Prop} (run : exec i s = .next (s.vecWord lat srcs masks dests ready go))
    (h : VecReady s k (srcs ++ dests) masks) (waits : ready (s.core s.cur.core).vec.own = true)
    (result : ∀ o, ReadsRegisters (s.core s.cur.core).vec.own srcs o → ∃ out, go (s.core s.cur.core).vec.own o = some out
      ∧ (∀ w ∈ out.writes, w.code ∈ dests) ∧ ∀ f, Carries out f → p f) : VecIssued i s k p := by
  have reads : ReadsRegisters (s.core s.cur.core).vec.own srcs ((s.core s.cur.core).vec.own.opd []) := fun c mem =>
    VCtx.opd_register (h.registers c (List.mem_append_left _ mem))
  obtain ⟨out, computed, named, carried⟩ := result _ reads
  exact State.vecWord_issued run h (fun _ => id) (fun _ => id) waits computed
    (fun w mem => List.mem_append_right _ (named w mem)) fun f hw hm hf hc ht => carried f ⟨hw, hm, hf, hc, ht⟩

/-- A word with one destination register. -/
theorem State.vecWord_writesLanes {d : BitVec 4} {lanes keep : List Dbl}
    (run : exec i s = .next (s.vecWord lat srcs masks [d] ready go)) (h : VecReady s k (srcs ++ [d]) masks)
    (waits : ready (s.core s.cur.core).vec.own = true)
    (result : ∀ o, ReadsRegisters (s.core s.cur.core).vec.own srcs o → ∃ out, go (s.core s.cur.core).vec.own o = some out
      ∧ out.writes = [⟨d, lanes, keep⟩] ∧ out.mask = none ∧ out.clear = false ∧ out.tab = none) :
    VecIssued i s k (WritesLanes d lanes keep) := by
  refine State.vecWord_registers run h waits fun o reads => ?_
  obtain ⟨out, computed, writes, mask, clear, tab⟩ := result o reads
  refine ⟨out, computed, fun w mem => ?_, fun f c => ⟨c.writes.trans writes, c.mask.trans mask, c.clear.trans clear,
    c.tab.trans tab⟩⟩
  rw [writes, List.mem_singleton] at mem
  exact mem ▸ List.mem_singleton_self d

/-- A word with two destination registers. -/
theorem State.vecWord_writesTwo {d x : BitVec 4} {lanes second : List Dbl}
    (run : exec i s = .next (s.vecWord lat srcs masks [d, x] ready go)) (h : VecReady s k (srcs ++ [d, x]) masks)
    (waits : ready (s.core s.cur.core).vec.own = true)
    (result : ∀ o, ReadsRegisters (s.core s.cur.core).vec.own srcs o → ∃ out, go (s.core s.cur.core).vec.own o = some out
      ∧ out.writes = [⟨d, lanes, keepAll⟩, ⟨x, second, keepAll⟩] ∧ out.mask = none ∧ out.clear = false ∧ out.tab = none) :
    VecIssued i s k (WritesTwo d lanes x second) := by
  refine State.vecWord_registers run h waits fun o reads => ?_
  obtain ⟨out, computed, writes, mask, clear, tab⟩ := result o reads
  refine ⟨out, computed, fun w mem => ?_, fun f c => ⟨c.writes.trans writes, c.mask.trans mask, c.clear.trans clear,
    c.tab.trans tab⟩⟩
  rw [writes] at mem
  exact List.mem_map_of_mem (f := VWrite.code) mem

/-- A word whose destination is a mask. -/
theorem State.vecWord_writesMask {md : BitVec 2} {p : Nat → Bool}
    (run : exec i s = .next (s.vecWord lat srcs masks [] ready go)) (h : VecReady s k (srcs ++ []) masks)
    (waits : ready (s.core s.cur.core).vec.own = true)
    (result : ∀ o, ReadsRegisters (s.core s.cur.core).vec.own srcs o → ∃ out m, go (s.core s.cur.core).vec.own o = some out
      ∧ (out.writes = [] ∧ out.mask = some (md, m) ∧ out.clear = false ∧ out.tab = none) ∧ ∀ l < 64, m.getLsbD l = p l) :
    VecIssued i s k (WritesMask md p) := by
  refine State.vecWord_registers run h waits fun o reads => ?_
  obtain ⟨out, m, computed, ⟨writes, mask, clear, tab⟩, lanes⟩ := result o reads
  refine ⟨out, computed, fun w mem => ?_, fun f c => ⟨m, c.writes.trans writes, c.mask.trans mask, c.clear.trans clear,
    c.tab.trans tab, lanes⟩⟩
  rw [writes] at mem
  exact absurd mem List.not_mem_nil

/-! ## Element-wise words -/

variable {d a b c : BitVec 4} {t : VTy} {mk : BitVec 2}

theorem State.vec1_issued (f : Nat → Nat × Exc) (run : exec i s = .next (s.vec1 lat d a t mk f))
    (h : VecReady s k [a, d] (mkReads mk)) :
    let own := (s.core s.cur.core).vec.own
    VecIssued i s k (WritesLanes d (vpack t ((velems t (own.regs.getD a.toNat [])).map fun x => (f x).1)) (own.keep mk)) := by
  refine State.vecWord_writesLanes run h rfl fun o reads => ⟨_, rfl, ?_, rfl, rfl, rfl⟩
  rw [reads.one, VCtx.elementwise_writes, List.map_map]
  rfl

theorem State.vec2_issued (f : Nat → Nat → Nat × Exc) (run : exec i s = .next (s.vec2 lat d a b t mk f))
    (h : VecReady s k [a, b, d] (mkReads mk)) :
    let own := (s.core s.cur.core).vec.own
    VecIssued i s k (WritesLanes d (vpack t (((velems t (own.regs.getD a.toNat [])).zip
      (velems t (own.regs.getD b.toNat []))).map fun p => (f p.1 p.2).1)) (own.keep mk)) := by
  refine State.vecWord_writesLanes run h rfl fun o reads => ⟨_, rfl, ?_, rfl, rfl, rfl⟩
  rw [reads.two.1, reads.two.2, VCtx.elementwise_writes, zip2, List.map_map]
  rfl

theorem State.vec3_issued (f : Nat → Nat → Nat → Nat × Exc) (run : exec i s = .next (s.vec3 lat d a b c t mk f))
    (h : VecReady s k [a, b, c, d] (mkReads mk)) :
    let own := (s.core s.cur.core).vec.own
    VecIssued i s k (WritesLanes d (vpack t (((velems t (own.regs.getD a.toNat [])).zip
      ((velems t (own.regs.getD b.toNat [])).zip (velems t (own.regs.getD c.toNat [])))).map
        fun p => (f p.1 p.2.1 p.2.2).1)) (own.keep mk)) := by
  refine State.vecWord_writesLanes run h rfl fun o reads => ⟨_, rfl, ?_, rfl, rfl, rfl⟩
  obtain ⟨first, second, third⟩ := reads.three
  rw [first, second, third, VOut.twice_writes, VCtx.elementwise_writes, List.map_map]
  rfl

end

/-- Settles O55: each word is `State.vec1`, `State.vec2` or `State.vec3` with the function of its elements. -/
theorem vectorArithmetic : Obligations.VectorArithmetic := by
  intro s k d a b c ty tf ti rm mk sat own reg one two three w
  let F := ftyForm tf
  exact ⟨State.vec2_issued (vadd2 ty rm sat) rfl, State.vec2_issued (vsub2 ty rm sat) rfl,
    State.vec2_issued (vmul2 ty rm sat) rfl, State.vec2_issued (F.div rm) rfl,
    State.vec2_issued (vminmax ty true) rfl, State.vec2_issued (vminmax ty false) rfl,
    State.vec2_issued (fun x y => (x &&& y, 0)) rfl, State.vec2_issued (fun x y => (x ||| y, 0)) rfl,
    State.vec2_issued (fun x y => (x ^^^ y, 0)) rfl,
    State.vec2_issued (fun x y => (x * 2 ^ (y % w) % 2 ^ w, 0)) rfl,
    State.vec2_issued (fun x y => (x / 2 ^ (y % w), 0)) rfl,
    State.vec2_issued (fun x y => (intBits w (readInt true w x / 2 ^ (y % w)), 0)) rfl,
    State.vec3_issued (F.fma rm false false) rfl, State.vec3_issued (F.fma rm false true) rfl,
    State.vec3_issued (F.fma rm true false) rfl,
    State.vec1_issued (F.sqrt rm) rfl, State.vec1_issued (F.rcp rm) rfl, State.vec1_issued (F.rsqrt rm) rfl,
    State.vec1_issued (F.rint rm) rfl, State.vec1_issued (F.exp2 rm) rfl, State.vec1_issued (F.log2 rm) rfl,
    State.vec1_issued (vabsneg ty false sat) rfl, State.vec1_issued (vabsneg ty true sat) rfl⟩

end Sys2Proof.Machine
end

section
/-! SUPPORT. The other vector words on registers (R204, R205, R213 to R224): comparisons, moves and masks, reductions and scans,
conversions, algebra and block words stand in flight with what their tables give. -/

namespace Sys2Proof.Machine

open Sys2Proof Sys2Proof.Safety

/-! ## Masks -/

theorem map_mapIdx {α β γ : Type} (l : List α) (f : Nat → α → β) (g : β → γ) :
    (l.mapIdx f).map g = l.mapIdx fun i x => g (f i x) := by
  simp only [List.mapIdx_eq_zipIdx_map, List.map_map]
  rfl

/-- MK 0 names every lane. -/
theorem VCtx.keep_zero (v : VCtx) : v.keep 0 = keepAll := by
  simp [VCtx.keep, VCtx.active, keepAll, List.map_const']

theorem VCtx.maskOpd_getLsbD (v : VCtx) (m : BitVec 2) (inv : Bool) {l : Nat} (lane : l < 64) :
    (v.maskOpd m inv).getLsbD l = (inv ^^ (v.masks.getD m.toNat 0).getLsbD l) := by
  cases inv <;> simp [VCtx.maskOpd, lane]

/-- The first lanes of a mask, as MSET counts them (R218). -/
theorem dbl_ones_getLsbD (n : Nat) {l : Nat} (lane : l < 64) : (dbl (2 ^ n - 1)).getLsbD l = decide (l < n) := by
  rw [dbl, BitVec.getLsbD_ofNat, Nat.testBit_two_pow_sub_one, decide_eq_true lane, Bool.true_and]

/-! ## Conversions (R214) -/

/-- Source element of destination element `j`, for `es` and `ed` elements in a lane. -/
theorem vcvt_source (es ed h j : Nat) :
    (if es ≤ ed then (if h * 64 * es ≤ j ∧ j < (h + 1) * 64 * es then some (j - 64 * es * h) else none)
      else some (j + 64 * ed * h)) =
    if ed < es then some (j + 64 * ed * h)
    else if h * 64 * es ≤ j ∧ j < (h + 1) * 64 * es then some (j - 64 * es * h) else none := by
  simp only [← Nat.not_le, ite_not]

/-- Settles O56: each word is `State.vecWord` with one destination, two, a mask, or none; what it computes is what its table
gives once its operands are registers' values. -/
theorem vectorMoves : Obligations.VectorMoves := by
  intro s k d a b x md ma mb mk ty dt tf rm sat own reg lanes bit
  refine ⟨fun cond h => ?vcmp, fun h => ?vsel, fun h => ?vperm, fun amt h => ?vrot, fun n h => ?vbcast,
    fun imm h => ?vbcastImm, fun h => ?vmov, fun h idle => ?vmovFlg, fun h => ?vmovClr,
    fun h tabbed => ?vmovTab, fun n h => ?mset, fun h => ?msetV, fun ia ib h => ?mandMor, fun op h => ?vred,
    fun op h => ?vscan, fun hf h => ?vcvt, fun inv lead blk h => ?vhad, fun mf blk h => ?vqnt, fun mf blk h => ?vdq,
    fun tabbed => ?algebra⟩
  case vcmp =>
    refine State.vecWord_writesMask rfl h rfl fun o reads => ⟨_, _, rfl, ⟨rfl, rfl, rfl, rfl⟩, fun l lane => ?_⟩
    rw [maskOf_getLsbD _ lane, reads.two.1, reads.two.2]
    simp only [← List.map_drop, ← List.map_take, List.all_map]
    rfl
  case vsel | vperm =>
    refine State.vecWord_writesLanes rfl h rfl fun o reads => ⟨_, rfl, ?_, rfl, rfl, rfl⟩
    rw [reads.two.1, reads.two.2]
    rfl
  case vrot | vbcast | vmov =>
    refine State.vecWord_writesLanes rfl h rfl fun o reads => ⟨_, rfl, ?_, rfl, rfl, rfl⟩
    rw [reads.one]
    rfl
  case vbcastImm =>
    exact ⟨State.vecWord_writesLanes rfl h rfl fun o reads => ⟨_, rfl, rfl, rfl, rfl, rfl⟩,
      State.vecWord_writesLanes rfl h rfl fun o reads => ⟨_, rfl, rfl, rfl, rfl, rfl⟩⟩
  case vmovFlg =>
    exact State.vecWord_writesLanes rfl h (List.isEmpty_iff.mpr idle) fun o reads => ⟨_, rfl, rfl, rfl, rfl, rfl⟩
  case vmovClr =>
    exact State.vecWord_registers rfl h rfl fun o reads => ⟨_, rfl, fun w mem => absurd mem List.not_mem_nil,
      fun f c => ⟨c.writes, c.mask, c.clear, c.tab⟩⟩
  case vmovTab =>
    intro img good
    refine State.vecWord_registers rfl h (congrArg not tabbed) fun o reads =>
      ⟨{ VOut.none with tab := some (algOfImage img) }, ?_, fun w mem => absurd mem List.not_mem_nil,
        fun f c => ⟨c.writes, c.mask, c.clear, c.tab⟩⟩
    rw [reads.one]
    exact if_neg (Bool.eq_false_iff.mp good)
  case mset =>
    exact State.vecWord_writesMask rfl h rfl fun o reads => ⟨_, _, rfl, ⟨rfl, rfl, rfl, rfl⟩, fun l => dbl_ones_getLsbD _⟩
  case msetV =>
    refine State.vecWord_writesMask rfl h rfl fun o reads => ⟨_, _, rfl, ⟨rfl, rfl, rfl, rfl⟩, fun l lane => ?_⟩
    rw [maskOf_getLsbD _ lane, reads.one]
  case mandMor =>
    refine ⟨State.vecWord_writesMask rfl h rfl fun o reads => ⟨_, _, rfl, ⟨rfl, rfl, rfl, rfl⟩, fun l lane => ?_⟩,
      State.vecWord_writesMask rfl h rfl fun o reads => ⟨_, _, rfl, ⟨rfl, rfl, rfl, rfl⟩, fun l lane => ?_⟩⟩
    · rw [BitVec.getLsbD_and, VCtx.maskOpd_getLsbD _ _ _ lane, VCtx.maskOpd_getLsbD _ _ _ lane]
    · rw [BitVec.getLsbD_or, VCtx.maskOpd_getLsbD _ _ _ lane, VCtx.maskOpd_getLsbD _ _ _ lane]
  case vred =>
    intro l r
    refine State.vecWord_registers rfl h rfl fun o reads => ⟨_, rfl, fun w mem => ?_,
      fun f c => ⟨c.flags.trans ?_, c.writes.trans ?_, c.mask, c.clear, c.tab⟩⟩
    · exact List.mem_map_of_mem (f := VWrite.code) mem
    all_goals rw [reads.one]; rfl
  case vscan =>
    intro rs place
    refine State.vecWord_writesLanes rfl h rfl fun o reads => ⟨_, rfl, ?_, rfl, rfl, rfl⟩
    rw [reads.one]
    rfl
  case vcvt =>
    intro es ed src val put
    refine State.vecWord_writesLanes rfl h rfl fun o reads => ⟨_, rfl, ?_, rfl, rfl, rfl⟩
    rw [reads.one]
    simp only [vcvt_source, VOut.counted, VOut.of, List.map_map, Function.comp_def, Option.map_map, Option.isSome_map]
    rfl
  case vhad =>
    intro e
    refine State.vecWord_writesLanes rfl h rfl fun o reads => ⟨_, rfl, ?_, rfl, rfl, rfl⟩
    rw [reads.one, VCtx.elementwise_writes]
    simp only [List.map_flatMap, List.map_map]
    rfl
  case vqnt =>
    intro bs
    refine State.vecWord_writesTwo rfl h rfl fun o reads => ⟨_, rfl, ?_, rfl, rfl, rfl⟩
    rw [reads.one]
    rfl
  case vdq =>
    refine State.vecWord_writesLanes rfl h rfl fun o reads => ⟨_, rfl, ?_, rfl, rfl, rfl⟩
    rw [reads.two.1, reads.two.2, VCtx.elementwise_writes, map_mapIdx, VCtx.keep_zero]
    rfl
  case algebra =>
    have waits : readsTab own = true := congrArg not tabbed
    intro n t F la comps comp
    refine ⟨fun h => ⟨?vconj, ?vnorm⟩, fun h => ?vamul, fun k4 => ⟨fun h => ?vcomp, fun h => ?vdcmp⟩⟩
    case vconj =>
      refine State.vecWord_writesLanes rfl h waits fun o reads => ⟨_, rfl, ?_, rfl, rfl, rfl⟩
      rw [reads.one, VCtx.elementwise_writes, map_mapIdx]
      rfl
    case vnorm =>
      refine State.vecWord_writesLanes rfl h waits fun o reads => ⟨_, rfl, ?_, rfl, rfl, rfl⟩
      rw [reads.one, VOut.twice_writes, VCtx.elementwise_writes, map_mapIdx]
      simp only [apply_ite Prod.fst]
      rfl
    case vamul =>
      refine State.vecWord_writesLanes rfl h waits fun o reads => ⟨_, rfl, ?_, rfl, rfl, rfl⟩
      rw [reads.two.1, reads.two.2, VOut.twice_writes, VCtx.elementwise_writes, map_mapIdx]
      rfl
    case vcomp =>
      refine State.vecWord_writesTwo rfl h waits fun o reads => ⟨_, rfl, ?_, rfl, rfl, rfl⟩
      rw [reads.one]
      rfl
    case vdcmp =>
      refine State.vecWord_writesLanes rfl h waits fun o reads => ⟨_, rfl, ?_, rfl, rfl, rfl⟩
      rw [reads.two.1, reads.two.2]
      rfl

end Sys2Proof.Machine
end

section
/-! SUPPORT. Matrix words that issue (R235, R239, R242, R246 to R256): what a word that is complete as it issues, and a word
that stands in flight, leave of their core; and the checks of the words that fill, transfer and multiply. -/

namespace Sys2Proof.Machine

open Sys2Proof Sys2Proof.Safety

/-! ## A word issues -/

/-- A change of the matrix engine of the current core. -/
def State.updMat (s : State) (f : Mat → Mat) : State := s.updCore s.cur.core fun x => { x with mat := f x.mat }

theorem State.updMat_updMat (s : State) (f g : Mat → Mat) : (s.updMat f).updMat g = s.updMat fun m => g (f m) :=
  State.updCore_updCore ..

theorem State.updMat_core (s : State) (f : Mat → Mat) :
    (s.updMat f).core s.cur.core = { s.core s.cur.core with mat := f (s.core s.cur.core).mat } := State.core_updCore ..

theorem State.updMat_cmd (s : State) (f : Mat → Mat) : (s.updMat f).cmd = s.cmd :=
  (congrArg (fun x : Core => (x.queue s.cur.eng).find? fun k : Cmd => k.uid == s.cur.cmd) (s.updMat_core f) :)

/-- A word that is complete as it issues. -/
theorem State.matDone_eq (s : State) (f : Mat → Mat) : (s.updMat f).matDone =
    (s.updMat fun m => { f m with gangWait := none, waiting := none }).engineIssue true :=
  congrArg (State.engineIssue · true) (s.updMat_updMat f fun m => { m with gangWait := none, waiting := none })

/-- The engine changes as the word issues; nothing else does but the flow of commands. -/
theorem State.updMat_engineIssue {s : State} {k : Cmd} (cmd : s.cmd = some k) (f : Mat → Mat) (done : Bool) :
    let t := (s.updMat f).engineIssue done
    EngineIssued s t ∧ (t.core s.cur.core).mat = f (s.core s.cur.core).mat ∧ (∀ n, n ≠ s.cur.core → t.core n = s.core n)
      ∧ MemoryKept s t ∧ t.quads = s.quads := by
  intro t
  obtain ⟨issued, ⟨tk, fl, qs, tt, core⟩, others, memory, outside⟩ :=
    State.engineIssue_spec done ((s.updMat_cmd f).trans cmd)
  have seq : (s.updMat f).seq s.cur.core = s.seq s.cur.core := (congrArg Core.seq (s.updMat_core f) :)
  refine ⟨⟨fun j held => issued.goes j ((s.updMat_cmd f).trans held), issued.seq.trans seq⟩, ?_, fun n other => ?_,
    MemoryKept.trans (State.updCore_memory ..) memory, outside.quads⟩
  · exact (congrArg Core.mat core).trans (congrArg Core.mat (s.updMat_core f))
  · exact (others n other).trans (State.core_updCore_ne _ _ other)

section
variable {i : Instr} {s : State} {k : Cmd} (cmd : s.cmd = some k)
include cmd

/-- A word that changes its engine, and perhaps rows of the array, and is complete as it issues. -/
theorem matEnds_of {f : Mat → Mat} (qs : Tbl Quad)
    (run : exec i s = .next ((({ s with quads := qs } : State).updMat f).matDone)) : MatEnds i s f := by
  rw [State.matDone_eq] at run
  obtain ⟨issued, mat, others, -⟩ := State.updMat_engineIssue (s := { s with quads := qs }) cmd
    (fun m => { f m with gangWait := none, waiting := none }) true
  exact ⟨_, run, ⟨issued.goes, issued.seq⟩, mat, others⟩

/-- A word that leaves its engine as it is. -/
theorem matEnds_id (run : exec i s = .next s.matDone) : MatEnds i s id := by
  refine matEnds_of cmd s.quads (run.trans ?_)
  rw [State.matDone_eq]
  rfl

theorem matStands_of {f : MInfl} {p : MInfl → Prop} (run : exec i s = .next (s.matIssue f)) (instr : f.instr = i)
    (holds : p { f with wid := s.nextId }) : MatStands i s p := by
  obtain ⟨issued, mat, others, memory, quads⟩ := State.updMat_engineIssue cmd
    (fun m => { m with infl := m.infl ++ [{ f with wid := s.nextId }], gangWait := none }) false
  exact ⟨_, { f with wid := s.nextId }, run, issued, instr, holds, mat, others, memory, quads⟩

end

/-! ## Leases, tables and releases -/

theorem quad_of_quads {s t : State} (h : t.quads = s.quads) (q : Nat) : t.quad q = s.quad q :=
  congrArg (tget · q Quad.reset) h

/-- No slot of a range fails a test that all of them pass. -/
theorem slotFail_eq_none {r : SideRange} {bad : Nat → Bool} (good : ∀ j ∈ slotsOf r, bad j = false) :
    slotFail r bad = none := by
  rw [slotFail, List.find?_eq_none.mpr fun j mem => Bool.eq_false_iff.mp (good j mem), Option.map_none]

theorem claimRows_ge (side : MSide) (mask : Word) : ∀ r ∈ claimRows side mask, 160 ≤ r := by
  intro r mem
  cases side <;> obtain ⟨j, -, rfl⟩ := List.mem_map.mp mem
  all_goals simp only [slotRow, planeRow]; omega

theorem State.setRow_quad (s : State) (q : Nat) {r : Nat} (row : 160 ≤ r) (o : Row) :
    s.setRow q r o = s.updQuad q fun x => { x with rows := tset (r - 160) o x.rows } := if_neg (Nat.not_lt.mpr row)

theorem State.foldl_setRow_quads (q : Nat) (o : State → Nat → Row) (l : List Nat) (rows : ∀ r ∈ l, 160 ≤ r) :
    ∀ s : State, ∃ qs, l.foldl (fun s r => s.setRow q r (o s r)) s = { s with quads := qs } := by
  induction l with
  | nil => exact fun s => ⟨s.quads, rfl⟩
  | cons r l ih =>
    intro s
    obtain ⟨qs, rest⟩ := ih (fun j mem => rows j (List.mem_cons_of_mem _ mem)) (s.setRow q r (o s r))
    refine ⟨qs, rest.trans ?_⟩
    rw [State.setRow_quad _ _ (rows r List.mem_cons_self)]
    rfl

section
variable {s : State} {k : Cmd} (cmd : s.cmd = some k)
include cmd

theorem munlease_spec (idle : (s.core s.cur.core).mat.infl = []) :
    ∃ u, exec .munlease s = .next u ∧ EngineIssued s u
      ∧ (u.core s.cur.core).mat = { (s.core s.cur.core).mat with keep := false, gangWait := none, waiting := none }
      ∧ (s.cur.core < 384 → (s.quad (quadOf s.cur.core)).leaseHolder = some s.cur.core →
        (u.quad (quadOf s.cur.core)).leaseHolder = none)
      ∧ ∀ n, n ≠ s.cur.core → u.core n = s.core n := by
  obtain ⟨issued, mat, others, -, quads⟩ := State.updMat_engineIssue cmd
    (fun m => { m with keep := false, gangWait := none, waiting := none }) true
  have run : exec .munlease s = .next (((s.updMat fun m => { m with keep := false, gangWait := none, waiting := none
      }).engineIssue true).dropLease s.cur.core) := by
    simp only [exec, execMunlease, idle, ne_eq, not_true_eq_false, if_false]
    rw [← State.matDone_eq s fun m => { m with keep := false }]
    rfl
  have quiet := Quiet.dropLease ((s.updMat fun m => { m with keep := false, gangWait := none, waiting := none
      }).engineIssue true) s.cur.core
  refine ⟨_, run, EngineIssued.kept_after issued (quiet.seqs _) (congrArg _ (quiet.frozen _).2), ?_,
    fun own held => ?_, fun n other => ?_⟩
  · rw [dropLease_core, mat]
  · rw [State.dropLease_held own ((congrArg Quad.leaseHolder (quad_of_quads quads _)).trans held), State.quad_updQuad]
  · rw [dropLease_core, others n other]

theorem mtabSlot_ends {st : BitVec 2} {b : Bool} {slot : BitVec 5} {off : BitVec 10}
    (room : (s.core s.cur.core).mat.infl.length < 16) (claimed : (s.core s.cur.core).mat.holds (sideNum b) slot.toNat = true)
    (region : k.slotOk readKinds (sideNum b) slot.toNat = true)
    (image : imageInvalid (s.readSide (quadOf s.cur.core) (sideNum b) (slot.toNat * 65536 + off.toNat * 64) 64) = false) :
    MatEnds (.mtabSlot st b slot off) s fun m => { m with tabs := m.tabs.set st.toNat (algOfImage
      (s.readSide (quadOf s.cur.core) (sideNum b) (slot.toNat * 65536 + off.toNat * 64) 64)) } := by
  refine matEnds_of cmd s.quads ?_
  simp only [exec, execMtabSlot, cmd, Nat.not_le.mpr room, claimed, region, image, Bool.not_true, Bool.false_eq_true, if_false]
  rfl

theorem mrel_ends {side : MSide} {mask : Word} (unused : ∀ f ∈ (s.core s.cur.core).mat.infl, f.uses side mask = false) :
    MatEnds (.mrel side mask) s fun m => m.setClaim side (m.claimOf side &&& ~~~mask) := by
  have none : (s.core s.cur.core).mat.infl.any (fun f => f.uses side mask) = false :=
    List.any_eq_false.mpr fun f mem => Bool.eq_false_iff.mp (unused f mem)
  obtain ⟨qs, rows⟩ := State.foldl_setRow_quads (quadOf s.cur.core)
    (fun u r => { u.rowOf (quadOf s.cur.core) r with state := .released })
    (claimRows side ((s.core s.cur.core).mat.claimOf side &&& mask)) (claimRows_ge side _) s
  refine matEnds_of cmd qs ?_
  simp only [exec, execMrel, none, Bool.false_eq_true, if_false, State.dropClaim]
  rw [rows]
  rfl

/-! ## Fills, transfers and queries -/

theorem mzero_stands {mask : Byte} (some : mask ≠ 0)
    (free : (s.core s.cur.core).mat.holdsBack { MUse.none with wp := mask } = false)
    (checked : s.planeCheck s.cur.core k mask writeKinds false = none) : MatStands (.mzero mask) s fun f =>
      f.cmd = k.uid ∧ f.done = false ∧ f.gangWord = false ∧ f.writesP = mask := by
  refine matStands_of cmd (f := s.minfl k (.mzero mask) { MUse.none with wp := mask }) ?_ rfl ⟨rfl, rfl, rfl, rfl⟩
  simp only [exec, execMzero, cmd, some, free, checked, Bool.false_eq_true, if_false]

theorem mfillAcc_stands {pl : BitVec 3} {v : BitVec 16}
    (free : (s.core s.cur.core).mat.holdsBack { MUse.none with wp := BitVec.twoPow 8 pl.toNat } = false)
    (checked : s.planeCheck s.cur.core k (BitVec.twoPow 8 pl.toNat) writeKinds false = none) :
    MatStands (.mfillAcc pl v) s fun f =>
      f.cmd = k.uid ∧ f.done = false ∧ f.gangWord = false ∧ f.writesP = BitVec.twoPow 8 pl.toNat := by
  refine matStands_of cmd (f := s.minfl k (.mfillAcc pl v) { MUse.none with wp := BitVec.twoPow 8 pl.toNat }) ?_ rfl
    ⟨rfl, rfl, rfl, rfl⟩
  simp only [exec, execMfillAcc, cmd, free, checked, Bool.false_eq_true, if_false]

theorem mfill_stands (w : FillWord) {base stride past : Nat} (range : k.fillRange w = ((base, past), stride))
    (free : (s.core s.cur.core).mat.holdsBack (fillUse w (base, past)) = false) (inside : past ≤ 2 ^ 21)
    (aligned : base % fillEs w = 0) (comp : w.csel.toNat < fillComps w)
    (slots : ∀ j ∈ slotsOf (base, past), (s.core s.cur.core).mat.holds (sideNum w.sideB) j = true
      ∧ k.slotOk writeKinds (sideNum w.sideB) j = true) : MatStands (.mfill w) s fun f =>
      f.cmd = k.uid ∧ f.done = false ∧ f.gangWord = false ∧ f.abase = base ∧ f.astr = stride
        ∧ (if w.sideB then f.writesB else f.writesA) = slotMask (base, past)
        ∧ (if w.sideB then f.writesA else f.writesB) = 0 := by
  refine matStands_of cmd (f := { s.minfl k (.mfill w) (fillUse w (base, past)) with abase := base, astr := stride }) ?_ rfl
    ⟨rfl, rfl, rfl, rfl, rfl, ?_⟩
  · have claimed := slotFail_eq_none (bad := fun j => !(s.core s.cur.core).mat.holds (sideNum w.sideB) j)
      fun j mem => by rw [(slots j mem).1]; rfl
    have region := slotFail_eq_none (bad := fun j => !k.slotOk writeKinds (sideNum w.sideB) j)
      fun j mem => by rw [(slots j mem).2]; rfl
    simp only [exec, execMfill, cmd, range, free, Nat.not_lt.mpr inside, aligned, claimed, region, Nat.not_le.mpr comp,
      Bool.false_eq_true, ne_eq, not_true_eq_false, if_false]
  · simp only [State.minfl, fillUse]
    cases w.sideB <;> exact ⟨rfl, rfl⟩

variable {t : Task} (task : s.task = some t)
include task

theorem mout_stands {w : OutWord} {rm : Rm} {off : Nat}
    (free : (s.core s.cur.core).mat.holdsBack { MUse.none with rp := BitVec.twoPow 8 w.pl.toNat } = false)
    (checked : s.planeRows k t w readKinds true writeKinds = .ok off) : MatStands (.mout w rm) s fun f =>
      f.cmd = k.uid ∧ f.done = false ∧ f.gangWord = false ∧ f.soff = off := by
  refine matStands_of cmd (f := { s.minfl k (.mout w rm) { MUse.none with rp := BitVec.twoPow 8 w.pl.toNat } with soff := off })
    ?_ rfl ⟨rfl, rfl, rfl, rfl⟩
  simp only [exec, execMout, cmd, task, free, checked, Bool.false_eq_true, if_false]

theorem maccld_stands {w : OutWord} {off : Nat}
    (free : (s.core s.cur.core).mat.holdsBack { MUse.none with wp := BitVec.twoPow 8 w.pl.toNat } = false)
    (checked : s.planeRows k t w writeKinds false readKinds = .ok off) : MatStands (.maccld w) s fun f =>
      f.cmd = k.uid ∧ f.done = false ∧ f.gangWord = false ∧ f.soff = off := by
  refine matStands_of cmd (f := { s.minfl k (.maccld w) { MUse.none with wp := BitVec.twoPow 8 w.pl.toNat } with soff := off })
    ?_ rfl ⟨rfl, rfl, rfl, rfl⟩
  simp only [exec, execMaccld, cmd, task, free, checked, Bool.false_eq_true, if_false]

theorem mqry_stands {soff : BitVec 19} {off : Nat} (place : plusGen soff.toNat (k.gen64 k.nest.s2) = off)
    (idle : (s.core s.cur.core).mat.infl = []) (aligned : off % 64 = 0)
    (checked : k.spadFail s.cur.core t writeKinds off 64 = none) : MatStands (.mqry soff) s fun f =>
      f.cmd = k.uid ∧ f.done = false ∧ f.gangWord = false ∧ f.soff = off ∧ f.out = s.queryRecord s.cur.core := by
  refine matStands_of cmd (f := { s.minfl k (.mqry soff) MUse.none with soff := off, out := s.queryRecord s.cur.core })
    ?_ rfl ⟨rfl, rfl, rfl, rfl, rfl⟩
  simp only [exec, execMqry, cmd, task, place, idle, aligned, checked, ne_eq, not_true_eq_false, if_false]

end

end Sys2Proof.Machine
end

section
/-! SUPPORT. Multiply words outside a gang (R246 to R251): the checks of R247 pass under `MulOk`, and the word stands in
flight with what it checked. -/

namespace Sys2Proof.Machine

open Sys2Proof Sys2Proof.Safety

/-! ## Planes -/

theorem groupMask_getLsbD (pg n : Nat) {p : Nat} (plane : p < 8) :
    (groupMask pg n).getLsbD p = decide (pg ≤ p ∧ p < pg + n) := by
  induction n with
  | zero => simp [groupMask]
  | succ n ih =>
    rw [groupMask] at ih ⊢
    rw [List.range_succ, List.foldl_append, List.foldl_cons, List.foldl_nil, BitVec.getLsbD_or, ih,
      BitVec.getLsbD_twoPow, ← Bool.decide_and, ← Bool.decide_or, decide_eq_decide]
    omega

theorem mem_planesOf_groupMask {pg n p : Nat} (mem : p ∈ planesOf (groupMask pg n)) : pg ≤ p ∧ p < pg + n := by
  obtain ⟨plane, bit⟩ := List.mem_filter.mp mem
  rw [groupMask_getLsbD pg n (List.mem_range.mp plane)] at bit
  exact of_decide_eq_true bit

section
variable {s : State} {c : Nat} {k : Cmd} {m : Byte}
  (claimed : ∀ p ∈ planesOf m, (s.core c).mat.claimP.getLsbD p = true)
include claimed

/-- With every plane claimed, the check of planes finds no claim missing. -/
theorem State.planeCheck_claimed (kinds : List RegKind) (poison : Bool) (a : Option Dbl) (d : Nat) :
    s.planeCheck c k m kinds poison ≠ some (0x16, a, d) := by
  have all : (planesOf m).find? (fun p => !(s.core c).mat.claimP.getLsbD p) = none :=
    List.find?_eq_none.mpr fun p mem => by rw [claimed p mem]; decide
  simp only [State.planeCheck, all]
  split
  · simp
  · split <;> simp

theorem State.planeCheck_eq_none {kinds : List RegKind} {poison : Bool} (region : ∀ p ∈ planesOf m, k.planeOk kinds p = true)
    (sound : ∀ p ∈ planesOf m, (s.quad (quadOf c)).poison.getLsbD p = false) : s.planeCheck c k m kinds poison = none := by
  have all : (planesOf m).find? (fun p => !(s.core c).mat.claimP.getLsbD p) = none :=
    List.find?_eq_none.mpr fun p mem => by rw [claimed p mem]; decide
  have named : (planesOf m).find? (fun p => !k.planeOk kinds p) = none :=
    List.find?_eq_none.mpr fun p mem => by rw [region p mem]; decide
  have clean : (planesOf m).find? (fun p => (s.quad (quadOf c)).poison.getLsbD p) = none :=
    List.find?_eq_none.mpr fun p mem => by rw [sound p mem]; decide
  simp only [State.planeCheck, all, named, clean, ite_self]

end

/-! ## The checks in their order -/

section
variable {s : State} {k : Cmd} {w : MulWord} {ks : Nat} {km : Bool} {g : MulGeom}
  (geom : g = s.mulGeom s.cur.core s.cur.core k k w ks km) (ok : MulOk s k w ks km g)
include geom ok

/-- What a multiply word that passed its checks stands in flight with. -/
theorem State.mulCheck_ok (i : Instr) : ∃ f, s.mulCheck s.cur.core s.cur.core k k i w ks km = .ok f ∧ f.instr = i
    ∧ f.cmd = k.uid ∧ f.tab = g.tab ∧ f.atag = g.atag ∧ f.btag = g.btag ∧ f.abase = g.abase
    ∧ f.bbase = g.bbase ∧ f.mbase = g.mbase ∧ f.astr = k.astr ∧ f.bstr = k.bstr ∧ f.mstr = k.mstr ∧ f.elapsed = 0
    ∧ f.done = false ∧ f.gangWord = (s.core s.cur.core).mat.formed ∧ f.leader = s.cur.core ∧ f.delay = 0
    ∧ f.readsA = slotMask g.a ||| slotMask g.m ∧ f.readsB = slotMask g.b
    ∧ f.writesP = groupMask w.pg.toNat g.tab.n := by
  obtain ⟨aIn, bIn, aEnd, bEnd, mEnd⟩ := ok.ranges
  obtain ⟨p, pair⟩ := Option.isSome_iff_exists.mp ok.pair.1
  have tagA : slotFail g.a (fun j => (s.quad (quadOf s.cur.core)).tag 0 j != g.atag) = none :=
    slotFail_eq_none fun j mem => by rw [ok.tags.1 j mem, bne_self_eq_false]
  have tagB : slotFail g.b (fun j => (s.quad (quadOf s.cur.core)).tag 1 j != g.btag) = none :=
    slotFail_eq_none fun j mem => by rw [ok.tags.2 j mem, bne_self_eq_false]
  have claimA : slotFail g.a (fun j => !(s.core s.cur.core).mat.holds 0 j) = none :=
    slotFail_eq_none fun j mem => by rw [Mat.holds, if_pos rfl, (ok.slotsA j (.inl mem)).1]; rfl
  have claimM : slotFail g.m (fun j => !(s.core s.cur.core).mat.holds 0 j) = none :=
    slotFail_eq_none fun j mem => by rw [Mat.holds, if_pos rfl, (ok.slotsA j (.inr mem)).1]; rfl
  have claimB : slotFail g.b (fun j => !(s.core s.cur.core).mat.holds 1 j) = none :=
    slotFail_eq_none fun j mem => by rw [Mat.holds, if_neg Nat.one_ne_zero, (ok.slotsB j mem).1]; rfl
  have regionA : slotFail g.a (fun j => !k.slotOk readKinds 0 j) = none :=
    slotFail_eq_none fun j mem => by rw [(ok.slotsA j (.inl mem)).2]; rfl
  have regionM : slotFail g.m (fun j => !k.slotOk readKinds 0 j) = none :=
    slotFail_eq_none fun j mem => by rw [(ok.slotsA j (.inr mem)).2]; rfl
  have regionB : slotFail g.b (fun j => !k.slotOk readKinds 1 j) = none :=
    slotFail_eq_none fun j mem => by rw [(ok.slotsB j mem).2]; rfl
  have plane : ∀ p ∈ planesOf (groupMask w.pg.toNat g.tab.n), _ := fun p mem =>
    ok.planes p (mem_planesOf_groupMask mem).1 (mem_planesOf_groupMask mem).2
  have planeClaims := State.planeCheck_claimed (k := { k with regions := [] }) (fun p mem => (plane p mem).1) readKinds false
  have planes : s.planeCheck s.cur.core k (groupMask w.pg.toNat g.tab.n) [.rw] true = none :=
    State.planeCheck_eq_none (fun p mem => (plane p mem).1) (fun p mem => (plane p mem).2.1) fun p mem => (plane p mem).2.2
  have group : ¬ (w.pg.toNat % g.tab.n ≠ 0 ∨ 8 < w.pg.toNat + g.tab.n) := by
    have := ok.group
    omega
  have mxFits : ((tagFmt g.atag).isMx && (g.atag.blk != g.btag.blk || ks != 8 || km)) = false := by
    cases mx : (tagFmt g.atag).isMx with
    | false => rfl
    | true =>
      obtain ⟨blk, dense, rows⟩ := ok.pair.2 mx
      simp [blk, dense, rows]
  have comps : ¬ (tagComps g.atag ≠ g.tab.n ∨ tagComps g.btag ≠ g.tab.n) := by
    simp [ok.comps.1, ok.comps.2]
  have klen : ((((tagFmt g.atag).isMx || decide (1 < g.tab.n))
      && (mulKlen w % tagBlock g.atag != 0 || mulKlen w % tagBlock g.btag != 0)) || (ks != 8 && mulKlen w % 8 != 0)) = false := by
    obtain ⟨blocks, groups⟩ := ok.klen
    rw [Bool.or_eq_false_iff, Bool.and_eq_false_imp, Bool.and_eq_false_imp]
    refine ⟨fun whole => ?_, fun sparse => ?_⟩
    · obtain ⟨a, b⟩ := blocks (by simpa using whole)
      simp [mulKlen, a, b]
    · simp [mulKlen, groups (by simpa using sparse)]
  have turned : (g.atag.had != g.btag.had
      || (g.atag.had && tagBlock g.atag == 32 && g.atag.lead == g.btag.lead)) = false := by
    obtain ⟨same, leads⟩ := ok.turned
    rw [same, bne_self_eq_false, Bool.false_or, ← same, Bool.and_eq_false_imp, Bool.and_eq_true, beq_iff_eq]
    exact fun ⟨had, whole⟩ => beq_eq_false_iff_ne.mpr (leads had whole)
  have sparseEnd : ¬ (ks ≠ 8 ∧ 2 ^ 21 < g.m.2) := fun ⟨sparse, past⟩ => absurd past (Nat.not_lt.mpr (mEnd sparse))
  have alignedA : ¬ ((!(tagFmt g.atag).isMx) = true ∧ g.abase % fmtBytes (tagFmt g.atag) g.atag.blk ≠ 0) := fun ⟨mx, off⟩ =>
    off (ok.aligned (by simpa using mx)).1
  have alignedB : ¬ ((!(tagFmt g.atag).isMx) = true ∧ g.bbase % fmtBytes (tagFmt g.btag) g.btag.blk ≠ 0) := fun ⟨mx, off⟩ =>
    off (ok.aligned (by simpa using mx)).2
  simp only [State.mulCheck, ← geom, group, aIn, bIn, decide_true, if_true, if_false, tagA, tagB, pair, mxFits, comps, klen,
    turned, Bool.not_true, Bool.false_eq_true, false_or, Nat.not_lt.mpr aEnd, Nat.not_lt.mpr bEnd, and_false, sparseEnd,
    alignedA, alignedB, claimA, claimB, claimM, regionA, regionB, regionM, planes]
  exact ⟨_, rfl, rfl, rfl, rfl, rfl, rfl, rfl, rfl, rfl, rfl, rfl, rfl, rfl, rfl, rfl, rfl, by simp [strips], rfl, rfl, rfl⟩

theorem mul_stands {i : Instr} (cmd : s.cmd = some k) (run : exec i s = .next (s.mulWord i w ks km))
    (alone : (s.core s.cur.core).mat.formed = false)
    (free : (s.core s.cur.core).mat.holdsBack { MUse.none with
      ra := slotMask g.a ||| slotMask g.m, rb := slotMask g.b, wp := groupMask w.pg.toNat g.tab.n, mul := true } = false) :
    MulStands i s k w g := by
  have leads : (s.core s.cur.core).leader s.cur.core = s.cur.core := by rw [Core.leader, alone]; rfl
  obtain ⟨f, checked, instr, uid, tab, atag, btag, abase, bbase, mbase, astr, bstr, mstr, elapsed, done, gang, leader, delay,
    readsA, readsB, writesP⟩ := State.mulCheck_ok geom ok i
  have use : s.mulUse s.cur.core w ks km = { MUse.none with
      ra := slotMask g.a ||| slotMask g.m, rb := slotMask g.b, wp := groupMask w.pg.toNat g.tab.n, mul := true } := by
    simp only [State.mulUse, leads, if_true, cmd, ← geom]
  have tried : s.mulTry s.cur.core i w ks km = .ok f := by
    simp only [State.mulTry, leads, if_true, cmd, checked]
  refine matStands_of cmd (f := f) (run.trans ?_) instr ⟨uid, tab, atag, btag, abase, bbase, mbase, astr, bstr, mstr, elapsed,
    done, gang.trans alone, leader, delay, readsA, readsB, writesP⟩
  simp only [State.mulWord, alone, use, free, tried, Bool.false_eq_true, if_false]

end

end Sys2Proof.Machine
end

section
/-! SUPPORT. Claims (R235, R351): the settlement of the rows that a claim names leaves engines and sequencers as they are, and
the claim is made as the word issues, or later, when the items are free. -/

namespace Sys2Proof.Machine

open Sys2Proof Sys2Proof.Safety

/-! ## What writes at homes and changes of rows leave -/

/-- Sequencers, matrix engines, queues and freezes of every core are as they were. -/
structure EnginesStand (s t : State) : Prop where
  cur : t.cur = s.cur
  seqs : ∀ k, (t.core k).seq = (s.core k).seq
  mats : ∀ k, (t.core k).mat = (s.core k).mat
  queues : ∀ k, (t.core k).queues = (s.core k).queues
  freezes : ∀ k, (t.core k).freezes = (s.core k).freezes

theorem EnginesStand.refl (s : State) : EnginesStand s s := ⟨rfl, fun _ => rfl, fun _ => rfl, fun _ => rfl, fun _ => rfl⟩

theorem EnginesStand.trans {s t u : State} (h : EnginesStand s t) (k : EnginesStand t u) : EnginesStand s u :=
  ⟨k.cur.trans h.cur, fun n => (k.seqs n).trans (h.seqs n), fun n => (k.mats n).trans (h.mats n),
    fun n => (k.queues n).trans (h.queues n), fun n => (k.freezes n).trans (h.freezes n)⟩

theorem EnginesStand.of_quiet {s t : State} (h : Quiet s t) : EnginesStand s t := by
  refine ⟨h.cur, h.seqs, fun k => ?_, fun k => (h.frozen k).2, fun k => (h.frozen k).1⟩
  obtain ⟨-, -, mat, -⟩ := h.units k
  exact mat

theorem EnginesStand.of_cores {s t : State} (cur : t.cur = s.cur) (cores : t.cores = s.cores) : EnginesStand s t := by
  have core (k : Nat) : t.core k = s.core k := by rw [State.core, cores]; rfl
  exact ⟨cur, fun k => by rw [core], fun k => by rw [core], fun k => by rw [core], fun k => by rw [core]⟩

theorem EnginesStand.updCore (s : State) (c : Nat) (g : Core → Core)
    (h : ∀ x, (g x).seq = x.seq ∧ (g x).mat = x.mat ∧ (g x).queues = x.queues ∧ (g x).freezes = x.freezes) :
    EnginesStand s (s.updCore c g) := by
  have fields (k : Nat) : ((s.updCore c g).core k).seq = (s.core k).seq ∧ ((s.updCore c g).core k).mat = (s.core k).mat
      ∧ ((s.updCore c g).core k).queues = (s.core k).queues ∧ ((s.updCore c g).core k).freezes = (s.core k).freezes := by
    by_cases same : k = c
    · rw [same, State.core_updCore]
      exact h _
    · rw [State.core_updCore_ne _ _ same]
      exact ⟨rfl, rfl, rfl, rfl⟩
  exact ⟨rfl, fun k => (fields k).1, fun k => (fields k).2.1, fun k => (fields k).2.2.1, fun k => (fields k).2.2.2⟩

theorem EnginesStand.cmd {s t : State} (h : EnginesStand s t) : t.cmd = s.cmd := by
  rw [State.cmd, h.cur, Core.queue, h.queues]
  rfl

theorem EnginesStand.issued {s t u : State} (h : EnginesStand s t) (issued : EngineIssued t u) : EngineIssued s u := by
  obtain ⟨goes, seq⟩ := issued
  rw [h.cmd, h.cur] at goes
  rw [h.cur] at seq
  exact ⟨goes, seq.trans (h.seqs _)⟩

/-- Engines stand, and so do the owners of the rows of slots and planes. -/
structure RowsStand (s t : State) : Prop extends EnginesStand s t where
  rows : ∀ q, (t.quad q).rows = (s.quad q).rows

theorem RowsStand.refl (s : State) : RowsStand s s := ⟨EnginesStand.refl s, fun _ => rfl⟩

theorem RowsStand.trans {s t u : State} (h : RowsStand s t) (k : RowsStand t u) : RowsStand s u :=
  ⟨h.toEnginesStand.trans k.toEnginesStand, fun q => (k.rows q).trans (h.rows q)⟩

theorem RowsStand.of_quads {s t : State} (h : EnginesStand s t) (quads : t.quads = s.quads) : RowsStand s t :=
  ⟨h, fun q => by rw [quad_of_quads quads]⟩

theorem RowsStand.aside {s t : State} (same : t.cur = s.cur ∧ t.cores = s.cores ∧ t.quads = s.quads) : RowsStand s t :=
  RowsStand.of_quads (EnginesStand.of_cores same.1 same.2.1) same.2.2

theorem RowsStand.useId (s : State) : RowsStand s s.useId := .aside ⟨rfl, rfl, rfl⟩

theorem RowsStand.updFn (s : State) (f : Nat) (g : Func → Func) : RowsStand s (s.updFn f g) := .aside ⟨rfl, rfl, rfl⟩

theorem RowsStand.updDie (s : State) (d : Nat) (g : Die → Die) : RowsStand s (s.updDie d g) := .aside ⟨rfl, rfl, rfl⟩

theorem RowsStand.updQuad (s : State) (q : Nat) (g : Quad → Quad) (h : ∀ x, (g x).rows = x.rows) :
    RowsStand s (s.updQuad q g) := by
  refine ⟨EnginesStand.of_cores rfl rfl, fun k => ?_⟩
  by_cases same : k = q
  · rw [same, State.quad_updQuad]
    exact h _
  · rw [State.quad_updQuad_ne _ _ same]

/-! ## Monitors, replicas and watches of a written line -/

theorem State.giveNoMore_quads (s : State) (c : Nat) : (s.giveNoMore c).quads = s.quads := by
  rw [State.giveNoMore]
  split
  · rfl
  · rw [State.dropDonations]
    split <;> rfl

theorem State.fireMon_quads (s : State) (m : HomeMon) : (s.fireMon m).quads = s.quads := by
  rw [State.fireMon, State.updCore_quads, State.freshFor]
  split <;> exact State.giveNoMore_quads ..

theorem State.fireMons_quads (l : List HomeMon) : ∀ s : State, (s.fireMons l).quads = s.quads := by
  induction l with
  | nil => exact fun _ => rfl
  | cons m l ih => exact fun s => (ih _).trans (s.fireMon_quads m)

theorem State.fireLine_quads (s : State) (pa : Nat) : (s.fireLine pa).quads = s.quads := by
  simp only [State.fireLine]
  split
  · rfl
  · rw [State.fireMons_quads, State.setMonsAt]
    split <;> rfl

theorem State.fireBlocks_quads (s : State) (c lo n : Nat) : (s.fireBlocks c lo n).quads = s.quads := by
  rw [State.fireBlocks]
  generalize List.range ((lo + n - 1) / 128 + 1 - lo / 128) = l
  induction l generalizing s with
  | nil => rfl
  | cons i l ih => rw [List.foldl_cons, ih, State.fireLine_quads]

theorem RowsStand.fireLine (s : State) (pa : Nat) : RowsStand s (s.fireLine pa) :=
  RowsStand.of_quads (.of_quiet (.fireLine s pa)) (s.fireLine_quads pa)

theorem RowsStand.fireBlocks (s : State) (c lo n : Nat) : RowsStand s (s.fireBlocks c lo n) :=
  RowsStand.of_quads (.of_quiet (.fireBlocks s c lo n)) (s.fireBlocks_quads c lo n)

theorem RowsStand.writeHome (s : State) (key pa : Nat) (bs : List Byte) (req : Nat) :
    RowsStand s (s.writeHome key pa bs req).1 := by
  obtain ⟨_, _, _, written⟩ := s.writePhys_shape key pa bs
  have first : RowsStand s (s.writePhys key pa bs) := by rw [written]; exact .aside ⟨rfl, rfl, rfl⟩
  refine first.trans ((RowsStand.fireLine _ pa).trans ?_)
  simp only [State.writeHome]
  generalize (s.writePhys key pa bs).fireLine pa = u
  have replicas : RowsStand u (u.unreplicate pa req).1 := by
    simp only [State.unreplicate]
    split
    · exact .refl u
    · split <;> exact .aside ⟨rfl, rfl, rfl⟩
  refine replicas.trans ?_
  simp only [State.fireWatch]
  split
  · exact .refl _
  · split <;> exact .aside ⟨rfl, rfl, rfl⟩

theorem RowsStand.dropReplica (s : State) (d line : Nat) : RowsStand s (s.dropReplica d line) :=
  RowsStand.of_quads (.of_quiet (.dropReplica s d line)) rfl

theorem RowsStand.dropReplicas (d : Nat) (l : List Nat) : ∀ s : State, RowsStand s (s.dropReplicas d l) := by
  induction l with
  | nil => exact RowsStand.refl
  | cons x l ih => exact fun s => (RowsStand.dropReplica s d x).trans (ih _)

theorem RowsStand.refill (s : State) (d g : Nat) : RowsStand s (s.refill d g) := by
  simp only [State.refill]
  split
  · exact .refl s
  · exact .aside ⟨rfl, rfl, rfl⟩

theorem RowsStand.replicasGoneAt (g : Nat) (l : List Nat) : ∀ s : State, RowsStand s (s.replicasGoneAt g l) := by
  induction l with
  | nil => exact RowsStand.refl
  | cons d l ih =>
    intro s
    refine RowsStand.trans ?_ (ih _)
    rw [State.replicasGone]
    exact (RowsStand.dropReplicas d _ s).trans (.refill _ d g)

/-- The change of a core by a written granule that pure tasks have read. -/
def Core.taintBy (m : WatchMsg) (k : Nat) (x : Core) : Core :=
  if dieOf k = m.dst then { x with task := x.task.map (Task.taintBy m.granule) } else x

theorem State.applyWatch_shape (s : State) (m : WatchMsg) : ∃ ds fs, s.applyWatch m = { s with
    cores := if m.invalidate then s.cores.map fun (p : Nat × Core) => (p.1, Core.taintBy m p.1 p.2) else s.cores
    dies := ds, fns := fs } := by
  rw [State.applyWatch]
  cases m.invalidate <;> exact ⟨_, _, rfl⟩

theorem RowsStand.applyWatch (s : State) (m : WatchMsg) : RowsStand s (s.applyWatch m) := by
  obtain ⟨ds, fs, shape⟩ := s.applyWatch_shape m
  rw [shape]
  cases m.invalidate with
  | false => exact .aside ⟨rfl, rfl, rfl⟩
  | true =>
    have core (k : Nat) : tget (s.cores.map fun (p : Nat × Core) => (p.1, Core.taintBy m p.1 p.2)) k
        (if k = 384 then Core.derailleur else Core.reset) = Core.taintBy m k (s.core k) := by
      rw [State.core, tget, tget, tfind_mapKey]
      cases tfind k s.cores with
      | none =>
        simp only [Option.map_none, Option.getD_none, Core.taintBy]
        split <;> split <;> rfl
      | some v => rfl
    have fields (k : Nat) (x : Core) : (x.taintBy m k).seq = x.seq ∧ (x.taintBy m k).mat = x.mat
        ∧ (x.taintBy m k).queues = x.queues ∧ (x.taintBy m k).freezes = x.freezes := by
      rw [Core.taintBy]
      split <;> exact ⟨rfl, rfl, rfl, rfl⟩
    refine ⟨⟨rfl, fun k => ?_, fun k => ?_, fun k => ?_, fun k => ?_⟩, fun q => rfl⟩
    · exact (congrArg Core.seq (core k)).trans (fields k _).1
    · exact (congrArg Core.mat (core k)).trans (fields k _).2.1
    · exact (congrArg Core.queues (core k)).trans (fields k _).2.2.1
    · exact (congrArg Core.freezes (core k)).trans (fields k _).2.2.2

theorem RowsStand.applyWatches (l : List WatchMsg) : ∀ s : State, RowsStand s (s.applyWatches l) := by
  induction l with
  | nil => exact RowsStand.refl
  | cons m l ih => exact fun s => (RowsStand.applyWatch s m).trans (ih _)

theorem RowsStand.watchNow (s : State) (w : Nat) : RowsStand s (s.watchNow w) :=
  RowsStand.trans (t := { s with watchMsgs := s.watchMsgs.filter fun m => m.watch != w }) (.aside ⟨rfl, rfl, rfl⟩)
    (.applyWatches ..)

theorem RowsStand.writeLines (key n : Nat) : ∀ (s : State) (pa : Nat) (bs : List Byte),
    RowsStand s (s.writeLines key pa n bs) := by
  induction n with
  | zero => exact fun s _ _ => .refl s
  | succ n ih =>
    intro s pa bs
    cases bs with
    | nil => exact .refl s
    | cons b bs =>
      simp only [State.writeLines]
      refine RowsStand.trans ?_ (ih ..)
      have home := RowsStand.trans (.useId s)
        (RowsStand.writeHome s.useId key pa ((b :: bs).take (128 - pa % 128)) s.nextId)
      generalize s.useId.writeHome key pa ((b :: bs).take (128 - pa % 128)) s.nextId = r at home
      have gone := home.trans (RowsStand.trans (s := r.1)
        (t := { r.1 with invs := r.1.invs.filter fun m => m.req != s.nextId })
        (.aside ⟨rfl, rfl, rfl⟩) (.replicasGoneAt (pa / 65536) r.2.1 _))
      split
      · exact gone.trans (.watchNow ..)
      · exact gone

theorem RowsStand.writeQuiet (s : State) (key pa : Nat) (bs : List Byte) : RowsStand s (s.writeQuiet key pa bs) :=
  .writeLines ..

/-! ## Rows that a claim names -/

theorem Quad.setPlane_rows (x : Quad) (p : Nat) (vs : List Dbl) : (x.setPlane p vs).rows = x.rows := by
  rw [Quad.setPlane]
  generalize vs.zipIdx = l
  induction l generalizing x with
  | nil => rfl
  | cons v l ih => exact ih (x.setAcc (32768 * p + v.2) v.1)

theorem RowsStand.setPlane (s : State) (q p : Nat) (vs : List Dbl) : RowsStand s (s.updQuad q (·.setPlane p vs)) :=
  .updQuad s q (·.setPlane p vs) fun x => x.setPlane_rows p vs

theorem RowsStand.setRowBytes (s : State) (q r : Nat) (bs : List Byte) : RowsStand s (s.setRowBytes q r bs) := by
  rw [State.setRowBytes]
  split
  · exact .aside ⟨rfl, rfl, rfl⟩
  · exact .setPlane s q _ _

theorem RowsStand.setRowTag (s : State) (q r : Nat) (t : Tag) : RowsStand s (s.setRowTag q r t) := by
  rw [State.setRowTag]
  split
  · exact .updQuad s q _ fun _ => rfl
  · exact .refl s

theorem RowsStand.setRowPoison (s : State) (q r : Nat) (b : Bool) : RowsStand s (s.setRowPoison q r b) := by
  rw [State.setRowPoison]
  split
  · exact .updQuad s q _ fun _ => rfl
  · exact .refl s

theorem RowsStand.freeBytes (s : State) (key a n : Nat) : RowsStand s (s.freeBytes key a n) := by
  rw [State.freeBytes]
  exact (RowsStand.writeQuiet s key a _).trans (.aside ⟨rfl, rfl, rfl⟩)

theorem RowsStand.evictRow (s : State) (q r : Nat) : RowsStand s (s.evictRow q r) := by
  rw [State.evictRow]
  refine RowsStand.trans ?_ (.updFn _ _ _)
  exact (RowsStand.writeQuiet s _ _ _).trans (.freeBytes _ _ _ _)

theorem RowsStand.returnRow (s : State) (q r : Nat) (o : Row) : RowsStand s (s.returnRow q r o) := by
  simp only [State.returnRow]
  split
  · exact .refl s
  · exact (((RowsStand.setRowBytes ..).trans (.setRowTag ..)).trans (.setRowPoison ..)).trans (.updFn _ _ _)

theorem State.rowOf_quad (s : State) (q : Nat) {r : Nat} (row : 160 ≤ r) :
    s.rowOf q r = tget (s.quad q).rows (r - 160) Row.reset := if_neg (Nat.not_lt.mpr row)

theorem RowsStand.rowOf {s t : State} (h : RowsStand s t) (q : Nat) {r : Nat} (row : 160 ≤ r) : t.rowOf q r = s.rowOf q r := by
  rw [State.rowOf_quad _ _ row, State.rowOf_quad _ _ row, h.rows]

/-- A row that is settled belongs to the task; no other row changes its owner. -/
theorem State.settleRow_spec (s : State) (q : Nat) {r : Nat} (t : Task) (row : 160 ≤ r) :
    EnginesStand s (s.settleRow q r t)
      ∧ ∀ j, 160 ≤ j → (s.settleRow q r t).rowOf q j = if j = r then t.row else s.rowOf q j := by
  have high : ¬ r < 160 := Nat.not_lt.mpr row
  have settled : ∃ u, RowsStand s u ∧ s.settleRow q r t = u.setRow q r t.row := by
    refine ⟨_, ?_, rfl⟩
    simp only [high, if_false]
    split
    · exact .refl s
    · split
      · exact .evictRow ..
      · split
        · exact .refl s
        · exact ((RowsStand.setRowBytes ..).trans (.setRowTag ..)).trans (.setRowPoison ..)
      · exact .refl s
      · exact .refl s
  obtain ⟨u, stands, settled⟩ := settled
  rw [settled, State.setRow_quad _ _ row]
  refine ⟨stands.toEnginesStand.trans (.of_cores rfl rfl), fun j high => ?_⟩
  rw [State.rowOf_quad _ _ high, State.quad_updQuad]
  split
  · rename_i same
    rw [same, tget_tset_same]
  · rename_i other
    rw [tget_tset_ne _ _ _ (by omega), ← State.rowOf_quad _ _ high, stands.rowOf q high]

theorem State.settleRows_spec (q : Nat) (t : Task) (l : List Nat) (rows : ∀ r ∈ l, 160 ≤ r) : ∀ s : State,
    EnginesStand s (s.settleRows q t l)
      ∧ ∀ j, 160 ≤ j → j ∈ l ∨ s.rowOf q j = t.row → (s.settleRows q t l).rowOf q j = t.row := by
  induction l with
  | nil => exact fun s => ⟨.refl s, fun j _ owned => owned.resolve_left List.not_mem_nil⟩
  | cons r l ih =>
    intro s
    obtain ⟨first, owner⟩ := s.settleRow_spec q t (rows r List.mem_cons_self)
    obtain ⟨rest, owned⟩ := ih (fun j mem => rows j (List.mem_cons_of_mem _ mem)) (s.settleRow q r t)
    refine ⟨first.trans rest, fun j high named => owned j high ?_⟩
    rw [owner j high]
    by_cases same : j = r
    · exact .inr (if_pos same)
    · rw [if_neg same]
      exact named.imp_left fun mem => (List.mem_cons.mp mem).resolve_left same

theorem RowsStand.foldl {α : Type} {g : State → α → State} (h : ∀ s a, RowsStand s (g s a)) (l : List α) :
    ∀ s, RowsStand s (l.foldl g s) := by
  induction l with
  | nil => exact RowsStand.refl
  | cons a l ih => exact fun s => (h s a).trans (ih _)

/-- A claim is made: the rows named belong to the core's task, and the engine has the items. -/
theorem State.takeClaim_spec {s : State} {c : Nat} {t : Task} (task : (s.core c).task = some t) (side : MSide) (mask : Word) :
    ∃ u, EnginesStand s u ∧ (∀ r ∈ claimRows side mask, u.rowOf (quadOf c) r = t.row)
      ∧ s.takeClaim c side mask =
        u.updCore c fun x => { x with mat := x.mat.setClaim side (x.mat.claimOf side ||| mask) } := by
  simp only [State.takeClaim, task]
  refine ⟨_, ?_, fun r mem => ?_, rfl⟩
  all_goals
    obtain ⟨settled, owned⟩ := State.settleRows_spec (quadOf c) t (claimRows side mask) (claimRows_ge side mask) s
    have returned := RowsStand.foldl (g := fun s r => s.returnRow (quadOf c) r t.row) (fun s r => .returnRow ..)
      (claimRows side mask) (s.settleRows (quadOf c) t (claimRows side mask))
  · exact settled.trans returned.toEnginesStand
  · rw [returned.rowOf _ (claimRows_ge _ _ _ mem), owned r (claimRows_ge _ _ _ mem) (.inl mem)]

theorem Walked.takeClaim (s : State) (c : Nat) (side : MSide) (mask : Word) : Walked s (s.takeClaim c side mask) := by
  rw [State.takeClaim]
  split
  · exact Walked.refl s
  · exact Walked.trans (Walked.trans (Walked.settleRows ..) (Walked.foldl _ (fun s r => Walked.returnRow ..) _ _))
      (Walked.updCore _ _ _ fun x => ⟨rfl, rfl, rfl⟩)

theorem Walked.task_isSome {s t : State} (h : Walked s t) (k : Nat) : (t.core k).task.isSome = (s.core k).task.isSome := by
  have named := congrArg Option.isSome (h.who k)
  rwa [Option.isSome_map, Option.isSome_map] at named

/-! ## MCLAIM -/

theorem mclaim_spec {s : State} {k : Cmd} {t : Task} (cmd : s.cmd = some k) (task : s.task = some t) {side : MSide}
    {mask : Word} (free : s.claimBlocked s.cur.core side mask = false) :
    ∃ u, exec (.mclaim side mask) s = .next u ∧ EngineIssued s u
      ∧ (u.core s.cur.core).mat = { (s.core s.cur.core).mat.setClaim side ((s.core s.cur.core).mat.claimOf side ||| mask) with
          gangWait := none, waiting := none }
      ∧ (∀ r ∈ claimRows side mask, u.rowOf (quadOf s.cur.core) r = t.row)
      ∧ ∀ n, n ≠ s.cur.core → (u.core n).mat = (s.core n).mat ∧ u.seq n = s.seq n := by
  obtain ⟨v, stands, owned, claimed⟩ := State.takeClaim_spec task side mask
  have run : exec (.mclaim side mask) s =
      .next ((v.updMat fun m => m.setClaim side (m.claimOf side ||| mask)).matDone) := by
    simp only [exec, execMclaim, free, Bool.false_eq_true, if_false, claimed, State.updMat, stands.cur]
  rw [State.matDone_eq] at run
  obtain ⟨issued, mat, others, -, quads⟩ := State.updMat_engineIssue (stands.cmd.trans cmd)
    (fun m => { m.setClaim side (m.claimOf side ||| mask) with gangWait := none, waiting := none }) true
  rw [stands.cur] at mat others
  refine ⟨_, run, stands.issued issued, ?_, fun r mem => ?_, fun n other => ?_⟩
  · rw [mat, stands.mats]
  · rw [← owned r mem, State.rowOf_quad _ _ (claimRows_ge _ _ r mem), State.rowOf_quad _ _ (claimRows_ge _ _ r mem),
      quad_of_quads quads]
  · rw [State.seq, others n other]
    exact ⟨stands.mats n, stands.seqs n⟩

theorem mclaim_waits {s : State} {side : MSide} {mask : Word} (blocked : s.claimBlocked s.cur.core side mask = true) :
    exec (.mclaim side mask) s =
      .next (s.updCore s.cur.core fun x => { x with mat := { x.mat with waiting := some (side, mask) } }) := by
  simp only [exec, execMclaim, blocked, if_true]

end Sys2Proof.Machine
end

section
/-! SUPPORT. Gangs and waiting claims (R235, R260 to R263): the word at which a member stands depends on its core and on the
leases alone, so that the members of a gang that issue in one step do not hinder each other. -/

namespace Sys2Proof.Machine

open Sys2Proof Sys2Proof.Safety

/-! ## The word at which a member stands -/

theorem State.leased_congr {s s' : State} {m : Nat} (core : s'.core m = s.core m) (quads : s'.quads = s.quads) :
    s'.leased m .mat = s.leased m .mat := by
  have held : s'.holdsLease = s.holdsLease := funext fun n => by rw [State.holdsLease, quad_of_quads quads]; rfl
  simp only [State.leased, held, core, quad_of_quads quads]

theorem State.cmdWord_shape {s t : State} {m : Nat} {e : Engine} {k : Cmd} {i : Instr} (h : s.cmdWord m e k = .word i t) :
    ∃ u : Cur, u.core = m ∧ t = { s with cur := u } ∧ ∀ s' : State, s'.cmdWord m e k = .word i { s' with cur := u } := by
  simp only [State.cmdWord] at h ⊢
  split at h
  · exact absurd h (by simp)
  · rename_i decoded
    obtain ⟨rfl, rfl⟩ := Attempt.word.inj h
    exact ⟨_, rfl, rfl, fun _ => rfl⟩

/-- A member's next word is found with its command begun; it is the same in every state with this core and these leases. -/
theorem State.memberWord_shape {s t : State} {m : Nat} {i : Instr} (h : s.memberWord m = some (i, t)) :
    ∃ (k : Cmd) (u : Cur), u.core = m ∧ t = { s.updCore m (·.startCmd .mat k) with cur := u }
      ∧ ∀ s' : State, s'.core m = s.core m → s'.quads = s.quads →
        s'.memberWord m = some (i, { s'.updCore m (·.startCmd .mat k) with cur := u }) := by
  have attempt (s' : State) : s'.attemptEngine m .mat =
      match (s'.core m).curCmd .mat with
      | some k => s'.attemptCmd m .mat k
      | none => .done s' := rfl
  have word : s.attemptEngine m .mat = .word i t := by
    rw [State.memberWord] at h
    split at h
    · rename_i found
      cases h
      exact found
    · exact absurd h (by simp)
  rw [attempt] at word
  cases cur : (s.core m).curCmd .mat with
  | none =>
    rw [cur] at word
    exact absurd word (by simp)
  | some k =>
    rw [cur] at word
    have ready : ∃ u : Cur, u.core = m ∧ t = { s.updCore m (·.startCmd .mat k) with cur := u }
        ∧ ∀ s' : State, s'.core m = s.core m → s'.quads = s.quads →
          s'.attemptCmd m .mat k = .word i { s'.updCore m (·.startCmd .mat k) with cur := u } := by
      simp only [State.attemptCmd] at word
      split_ifs at word with waits empty leased tokens
      obtain ⟨u, at_m, rfl, same⟩ := State.cmdWord_shape word
      refine ⟨u, at_m, rfl, fun s' core quads => ?_⟩
      simp only [State.attemptCmd, core, State.leased_congr core quads, waits, empty, leased, tokens, Bool.false_eq_true,
        if_false, same]
    obtain ⟨u, at_m, rfl, same⟩ := ready
    refine ⟨k, u, at_m, rfl, fun s' core quads => ?_⟩
    simp only [State.memberWord, attempt s', core, cur, same s' core quads]

theorem Core.startCmd_mat (x : Core) (k : Cmd) :
    (x.startCmd .mat k).mat = x.mat ∧ (x.startCmd .mat k).task = x.task := by
  rw [Core.startCmd]
  split <;> exact ⟨rfl, rfl⟩

/-- At a member's word, engines and tasks are as they were. -/
theorem State.memberWord_kept {s t : State} {m : Nat} {i : Instr} (h : s.memberWord m = some (i, t)) :
    t.cur.core = m ∧ (∀ n, (t.core n).mat = (s.core n).mat ∧ (t.core n).task = (s.core n).task)
      ∧ (∀ n, n ≠ m → t.core n = s.core n) ∧ t.quads = s.quads := by
  obtain ⟨k, u, at_m, rfl, -⟩ := State.memberWord_shape h
  have own : ({ s.updCore m (·.startCmd .mat k) with cur := u } : State).core m = (s.core m).startCmd .mat k :=
    (State.core_updCore s m (·.startCmd .mat k) :)
  have others (n : Nat) (other : n ≠ m) : ({ s.updCore m (·.startCmd .mat k) with cur := u } : State).core n = s.core n :=
    (State.core_updCore_ne s (·.startCmd .mat k) other :)
  refine ⟨at_m, fun n => ?_, others, rfl⟩
  by_cases same : n = m
  · rw [same, own]
    exact Core.startCmd_mat _ k
  · rw [others n same]
    exact ⟨rfl, rfl⟩

theorem State.memberWord_isSome_congr {s s' : State} {m : Nat} (core : s'.core m = s.core m) (quads : s'.quads = s.quads)
    (h : (s.memberWord m).isSome = true) : (s'.memberWord m).isSome = true := by
  obtain ⟨⟨i, t⟩, found⟩ := Option.isSome_iff_exists.mp h
  obtain ⟨k, u, -, -, same⟩ := State.memberWord_shape found
  rw [same s' core quads]
  rfl

/-! ## A member issues -/

theorem State.engineIssue_kept (s : State) (done : Bool) : (∀ n, ((s.engineIssue done).core n).mat = (s.core n).mat)
    ∧ (∀ n, n ≠ s.cur.core → (s.engineIssue done).core n = s.core n) ∧ (s.engineIssue done).quads = s.quads := by
  have others (n : Nat) (other : n ≠ s.cur.core) : (s.engineIssue done).core n = s.core n := by
    rw [State.engineIssue, State.useId_core, State.core_updCore_ne _ _ other]
  refine ⟨fun n => ?_, others, rfl⟩
  by_cases same : n = s.cur.core
  · rw [same, State.engineIssue, State.useId_core, State.core_updCore]
    obtain ⟨tk, fl, begun⟩ := (s.core s.cur.core).beginWord_shape s.cur.eng s.nextId done s.cur.chain
    rw [begun]
    cases (s.cmd.map (·.reloc)).getD false <;> rfl
  · rw [others n same]

/-- A member's word issues with a change of its engine: no other core changes. -/
theorem State.memberIssue_spec {s t : State} {m : Nat} {i : Instr} (h : s.memberWord m = some (i, t)) (f : Mat → Mat)
    (done : Bool) : (((t.updMat f).engineIssue done).core m).mat = f (s.core m).mat
      ∧ (∀ n, n ≠ m → ((t.updMat f).engineIssue done).core n = s.core n)
      ∧ ((t.updMat f).engineIssue done).quads = s.quads := by
  obtain ⟨rfl, mats, others, quads⟩ := State.memberWord_kept h
  obtain ⟨mat, rest, same⟩ := (t.updMat f).engineIssue_kept done
  refine ⟨?_, fun n other => ?_, same.trans quads⟩
  · rw [mat, State.updMat_core, (mats _).1]
  · rw [rest n other, State.updMat, State.core_updCore_ne _ _ other, others n other]

/-- What a word that is complete as it issues leaves of its engine. -/
def Mat.ended (f : Mat → Mat) (m : Mat) : Mat := { f m with gangWait := none, waiting := none }

theorem State.gangDone_cons {s t : State} {m : Nat} {i : Instr} (f : Mat → Mat) (ms : List Nat)
    (h : s.memberWord m = some (i, t)) :
    s.gangDone f (m :: ms) = ((t.updMat (Mat.ended f)).engineIssue true).gangDone f ms := by
  obtain ⟨at_m, -⟩ := State.memberWord_kept h
  have issue : (t.updCore m fun x => { x with mat := f x.mat }).matDone = (t.updMat (Mat.ended f)).engineIssue true := by
    rw [← at_m]
    exact t.matDone_eq f
  simp only [State.gangDone, h, issue]

/-- Every member issues once, and no other core changes. -/
theorem State.gangDone_mat (f : Mat → Mat) (ms : List Nat) : ∀ s : State, ms.Nodup →
    (∀ n ∈ ms, (s.memberWord n).isSome = true) →
    ∀ n, ((s.gangDone f ms).core n).mat = if n ∈ ms then Mat.ended f (s.core n).mat else (s.core n).mat := by
  induction ms with
  | nil => exact fun s _ _ n => (if_neg List.not_mem_nil).symm
  | cons m ms ih =>
    intro s distinct stand n
    obtain ⟨apart, distinct⟩ := List.nodup_cons.mp distinct
    obtain ⟨⟨i, t⟩, found⟩ := Option.isSome_iff_exists.mp (stand m List.mem_cons_self)
    obtain ⟨mat, others, quads⟩ := State.memberIssue_spec found (Mat.ended f) true
    rw [State.gangDone_cons f ms found, ih _ distinct fun j mem => State.memberWord_isSome_congr
      (others j fun same => apart (same ▸ mem)) quads (stand j (List.mem_cons_of_mem _ mem))]
    by_cases same : n = m
    · rw [if_neg (same ▸ apart), if_pos (List.mem_cons.mpr (.inl same)), same, mat]
    · simp only [List.mem_cons, same, false_or, others n same]

/-- What the issue of a member brings about holds of every member in the end, whether or not one is named twice. -/
theorem State.gangDone_holds {f : Mat → Mat} {P : Mat → Prop} (brings : ∀ x, P (Mat.ended f x)) (ms : List Nat) :
    ∀ s : State, (∀ n ∈ ms, (s.memberWord n).isSome = true ∨ P (s.core n).mat) →
      ∀ n, n ∈ ms ∨ P (s.core n).mat → P ((s.gangDone f ms).core n).mat := by
  induction ms with
  | nil => exact fun s _ n holds => holds.resolve_left List.not_mem_nil
  | cons m ms ih =>
    intro s stand n holds
    cases found : s.memberWord m with
    | none =>
      have already : P (s.core m).mat := (stand m List.mem_cons_self).resolve_left (by simp [found])
      simp only [State.gangDone, found]
      refine ih s (fun j mem => stand j (List.mem_cons_of_mem _ mem)) n ?_
      rw [List.mem_cons] at holds
      rcases holds with (same | mem) | holds
      · exact .inr (same ▸ already)
      · exact .inl mem
      · exact .inr holds
    | some r =>
      obtain ⟨i, t⟩ := r
      obtain ⟨mat, others, quads⟩ := State.memberIssue_spec found (Mat.ended f) true
      have issued : P (((t.updMat (Mat.ended f)).engineIssue true).core m).mat := mat ▸ brings _
      rw [State.gangDone_cons f ms found]
      refine ih _ (fun j mem => ?_) n ?_
      · by_cases same : j = m
        · exact .inr (same ▸ issued)
        · rw [others j same]
          exact (stand j (List.mem_cons_of_mem _ mem)).imp_left (State.memberWord_isSome_congr (others j same) quads)
      · by_cases same : n = m
        · exact .inr (same ▸ issued)
        · rw [others n same]
          exact holds.imp_left fun mem => (List.mem_cons.mp mem).resolve_left same

/-- A member's engine once it has issued a multiply word of a gang step. -/
def Mat.mulIssued (f : MInfl) (m : Mat) : Mat :=
  { m with steps := m.steps + 1, infl := m.infl ++ [f], gangWait := none }

/-- Each member issues its own entry of the step, numbered as it issues. -/
theorem State.gangMul_mat (step gap : Nat) (fs : List (Nat × MInfl)) : ∀ s : State, (fs.map Prod.fst).Nodup →
    (∀ p ∈ fs, (s.memberWord p.1).isSome = true) →
    (∀ n, n ∉ fs.map Prod.fst → (s.gangMul step gap fs).core n = s.core n)
      ∧ ∀ p ∈ fs, ∃ wid, ((s.gangMul step gap fs).core p.1).mat =
        (s.core p.1).mat.mulIssued { p.2 with step := step, gap := gap, wid := wid } := by
  induction fs with
  | nil => exact fun s _ _ => ⟨fun _ _ => rfl, fun p mem => absurd mem List.not_mem_nil⟩
  | cons p fs ih =>
    intro s distinct stand
    obtain ⟨apart, distinct⟩ := List.nodup_cons.mp distinct
    obtain ⟨⟨i, t⟩, found⟩ := Option.isSome_iff_exists.mp (stand p List.mem_cons_self)
    obtain ⟨at_m, -⟩ := State.memberWord_kept found
    have issue : s.gangMul step gap (p :: fs) = ((t.updMat (Mat.mulIssued { p.2 with
        step := step, gap := gap, wid := t.nextId })).engineIssue false).gangMul step gap fs := by
      have own : (t.updCore p.1 fun x => { x with mat := { x.mat with steps := x.mat.steps + 1 } }).matIssue
          { p.2 with step := step, gap := gap } =
          (t.updMat (Mat.mulIssued { p.2 with step := step, gap := gap, wid := t.nextId })).engineIssue false := by
        rw [← at_m]
        exact congrArg (State.engineIssue · false) (t.updMat_updMat (fun m => { m with steps := m.steps + 1 })
          fun m => { m with infl := m.infl ++ [{ p.2 with step := step, gap := gap, wid := t.nextId }], gangWait := none })
      simp only [State.gangMul, found, own]
    obtain ⟨mat, others, quads⟩ := State.memberIssue_spec found
      (Mat.mulIssued { p.2 with step := step, gap := gap, wid := t.nextId }) false
    obtain ⟨kept, rest⟩ := ih ((t.updMat (Mat.mulIssued { p.2 with
        step := step, gap := gap, wid := t.nextId })).engineIssue false) distinct fun r mem =>
      State.memberWord_isSome_congr (others r.1 fun same => apart (same ▸ List.mem_map_of_mem mem)) quads
        (stand r (List.mem_cons_of_mem _ mem))
    rw [issue]
    refine ⟨fun n out => ?_, fun r mem => ?_⟩
    · rw [List.map_cons, List.mem_cons, not_or] at out
      rw [kept n out.2, others n out.1]
    · rcases List.mem_cons.mp mem with rfl | mem
      · exact ⟨_, (congrArg Core.mat (kept r.1 apart)).trans mat⟩
      · obtain ⟨wid, issued⟩ := rest r mem
        exact ⟨wid, issued.trans (by rw [others r.1 fun same => apart (same ▸ List.mem_map_of_mem mem)])⟩

theorem State.countStep_core (s : State) (n : Nat) : s.countStep.core n = s.core n := by
  have marks (l : List Nat) : ∀ u : State, (l.foldl (fun s m => if s.holdsLease m then
      s.updQuad (quadOf m) fun x => { x with leaseOver := true } else s) u).core n = u.core n := by
    induction l with
    | nil => exact fun _ => rfl
    | cons m l ih =>
      intro u
      rw [List.foldl_cons, ih]
      split <;> rfl
  rw [State.countStep]
  split
  · rfl
  · dsimp only
    split
    · rfl
    · exact marks _ _

/-! ## A step of a gang -/

/-- The current core waits for the others of its gang. -/
def State.atGangWord (s : State) : State :=
  s.updCore s.cur.core fun x => { x with mat := { x.mat with gangWait := some s.cur.words } }

theorem State.atGangWord_mat (s : State) (n : Nat) :
    ∃ w, (s.atGangWord.core n).mat = { (s.core n).mat with gangWait := w } := by
  by_cases same : n = s.cur.core
  · rw [same, State.atGangWord, State.core_updCore]
    exact ⟨_, rfl⟩
  · rw [State.atGangWord, State.core_updCore_ne _ _ same]
    exact ⟨_, rfl⟩

/-- The members with the states in which each stands at its word. -/
def State.standing (s : State) : List (Nat × State) :=
  s.members.filterMap fun m => (s.atGangWord.memberWord m).map fun r => (m, r.2)

theorem length_filterMap_of_isSome {α β : Type} {f : α → Option β} {l : List α} (h : ∀ a ∈ l, (f a).isSome = true) :
    (l.filterMap f).length = l.length := by
  induction l with
  | nil => rfl
  | cons a l ih =>
    obtain ⟨b, found⟩ := Option.isSome_iff_exists.mp (h a List.mem_cons_self)
    rw [List.filterMap_cons_some found, List.length_cons, List.length_cons, ih fun x mem => h x (List.mem_cons_of_mem _ mem)]

theorem mem_standing {s : State} {p : Nat × State} (mem : p ∈ s.standing) :
    p.1 ∈ s.members ∧ ∃ i, s.atGangWord.memberWord p.1 = some (i, p.2) := by
  obtain ⟨m, member, found⟩ := List.mem_filterMap.mp mem
  obtain ⟨⟨i, t⟩, word, rfl⟩ := Option.map_eq_some_iff.mp found
  exact ⟨member, i, word⟩

section
variable {s : State} {kind : Nat} (stands : GangStands s kind)
include stands

theorem GangStands.isSome {m : Nat} (member : m ∈ s.members) : (s.atGangWord.memberWord m).isSome = true := by
  obtain ⟨-, r, word, -⟩ := stands.members m member
  rw [State.atGangWord, word]
  rfl

/-- When every member stands at the word and can issue it, the step is made. -/
theorem GangStands.step {ready : Nat → State → Bool} (go : List (Nat × State) → State → State)
    (can : ∀ m ∈ s.members, ∀ i t, s.atGangWord.memberWord m = some (i, t) → ready m t = true) :
    s.gangStep ready go = go s.standing s.atGangWord := by
  have apart : (s.members.filter (· != s.cur.core)).any (fun m =>
      (kind == 2 && ((s.core m).mat.gangWait.bind List.head?).map gangKind == some 1)
        || (kind == 1 && ((s.core m).mat.gangWait.bind List.head?).map gangKind == some 2)) = false := by
    refine List.any_eq_false.mpr fun m mem => ?_
    obtain ⟨member, other⟩ := List.mem_filter.mp mem
    have alike := stands.others m member (bne_iff_ne.mp other)
    cases waits : (s.core m).mat.gangWait.bind List.head? with
    | none => simp
    | some w =>
      have same := alike w waits
      simp only [Option.map_some, Bool.or_eq_true, Bool.and_eq_true, beq_iff_eq, Option.some.injEq]
      omega
  have here : s.members.filterMap (fun m => if (s.atGangWord.core m).mat.gangWait.isSome then
      (s.atGangWord.memberWord m).map fun r => (m, r.2) else none) = s.standing := by
    refine List.filterMap_congr fun m member => ?_
    exact if_pos (stands.members m member).1
  have all : ¬ s.standing.length < s.members.length := by
    rw [State.standing, length_filterMap_of_isSome fun m member => ?_]
    · exact Nat.lt_irrefl _
    · rw [Option.isSome_map]
      exact GangStands.isSome stands member
  have alike : ¬ (kind = 1 ∧ s.standing.any (fun p => p.2.cur.words != s.cur.words) = true) := by
    rintro ⟨gang, differ⟩
    obtain ⟨p, mem, differ⟩ := List.any_eq_true.mp differ
    obtain ⟨member, i, word⟩ := mem_standing mem
    obtain ⟨-, r, same, words⟩ := stands.members p.1 member
    cases same.symm.trans word
    exact bne_iff_ne.mp differ (words gang)
  have ready_all : s.standing.all (fun p => ready p.1 p.2) = true := List.all_eq_true.mpr fun p mem => by
    obtain ⟨member, i, word⟩ := mem_standing mem
    exact can p.1 member i p.2 word
  rw [State.atGangWord] at here
  simp only [State.gangStep, stands.here, apart, here, all, alike, ready_all, Bool.false_eq_true, if_false, if_true]
  rfl

end

end Sys2Proof.Machine
end

section
/-! SUPPORT. What the members of a gang do in one step (R260 to R262): they form the gang, go on together, or dissolve it; and
the claims that waited, or that a restored task takes back (R235, R351). -/

namespace Sys2Proof.Machine

open Sys2Proof Sys2Proof.Safety

/-- A member at its word has the words in flight that it has in the state. -/
theorem State.atGangWord_infl {s : State} {n : Nat} {j : Instr} {r : State} (word : s.atGangWord.memberWord n = some (j, r)) :
    (r.core n).mat.infl = (s.core n).mat.infl := by
  obtain ⟨_, waits⟩ := s.atGangWord_mat n
  rw [((State.memberWord_kept word).2.1 n).1, waits]

/-! ## Multiply words of a gang -/

/-- Whatever a check lets pass has a property. -/
def Passes {ε α : Type} (P : α → Prop) (x : Except ε α) : Prop := ∀ a, x = .ok a → P a

theorem Passes.error {ε α : Type} {P : α → Prop} (e : ε) : Passes P (.error e : Except ε α) := fun _ h => nomatch h

theorem Passes.ite {ε α : Type} {P : α → Prop} {p : Prop} [Decidable p] {e : ε} {x : Except ε α} (h : Passes P x) :
    Passes P (if p then .error e else x) := by
  split
  · exact .error e
  · exact h

/-- Whatever a multiply word's checks let pass stands in flight as that word, in a gang where one is formed. -/
theorem State.mulCheck_entry (s : State) (c lead : Nat) (k kl : Cmd) (i : Instr) (w : MulWord) (ks : Nat) (km : Bool) :
    Passes (fun f => f.instr = i ∧ f.gangWord = (s.core c).mat.formed ∧ f.done = false)
      (s.mulCheck c lead k kl i w ks km) := by
  unfold State.mulCheck
  extract_lets g n pg qa qb keff hasA hasB ta tb esa esb mx ps onLead ma mb members formed u
  refine .ite ?_
  cases onLead (slotFail g.a fun j => qa.tag 0 j != ta) with
  | some a => exact .error _
  | none =>
  cases slotFail g.b (fun j => qb.tag 1 j != tb) with
  | some b => exact .error _
  | none =>
  cases pairP (tagFmt ta) (tagFmt tb) with
  | none => exact .error _
  | some p =>
  refine .ite (.ite (.ite (.ite (.ite (.ite (.ite (.ite (.ite ?_))))))))
  cases onLead (slotFail g.a fun j => !ma.holds 0 j) with
  | some a => exact .error _
  | none =>
  cases slotFail g.b (fun j => !mb.holds 1 j) with
  | some b => exact .error _
  | none =>
  cases onLead (slotFail g.m fun j => !ma.holds 0 j) with
  | some m => exact .error _
  | none =>
  dsimp only
  split
  · exact .error _
  cases onLead (slotFail g.a fun j => !kl.slotOk readKinds 0 j) with
  | some a => exact .error _
  | none =>
  cases slotFail g.b (fun j => !k.slotOk readKinds 1 j) with
  | some b => exact .error _
  | none =>
  cases onLead (slotFail g.m fun j => !kl.slotOk readKinds 0 j) with
  | some m => exact .error _
  | none =>
  cases s.planeCheck c k ps [.rw] true with
  | some f => exact .error _
  | none =>
  rintro f ⟨⟩
  exact ⟨rfl, rfl, rfl⟩

theorem State.mulTry_entry {s : State} {c : Nat} {i : Instr} {w : MulWord} {ks : Nat} {km : Bool} {f : MInfl}
    (h : s.mulTry c i w ks km = .ok f) : f.instr = i ∧ f.gangWord = (s.core c).mat.formed ∧ f.done = false := by
  simp only [State.mulTry] at h
  split at h
  · exact State.mulCheck_entry _ _ _ _ _ _ _ _ _ _ h
  · cases h

/-- The entries that the members of a step would have. -/
def State.entries (s : State) (i : Instr) (w : MulWord) (ks : Nat) (km : Bool) : List (Nat × MInfl) :=
  s.standing.filterMap fun p => (p.2.mulTry p.1 i w ks km).toOption.map fun f => (p.1, f)

section
variable {s : State} {t : Task} (task : s.task = some t)
include task

theorem State.members_task : s.members = t.members := by
  rw [State.members, task]
  rfl

section
variable {kind : Nat} (stands : GangStands s kind)
include stands

variable {i : Instr} {w : MulWord} {ks : Nat} {km : Bool} (gang : (s.core s.cur.core).mat.formed = true)
  (ready : ∀ n ∈ t.members, (s.core n).mat.formed = true ∧ ∀ j r, s.atGangWord.memberWord n = some (j, r) →
    (r.core n).mat.holdsBack (r.mulUse n w ks km) = false ∧ ∃ f, r.mulTry n i w ks km = .ok f)

include ready in
/-- Each member has its entry. -/
theorem State.entries_spec : (s.entries i w ks km).map Prod.fst = t.members
    ∧ ∀ p ∈ s.entries i w ks km, p.2.instr = i ∧ p.2.gangWord = true ∧ p.2.done = false := by
  refine ⟨?_, fun p mem => ?_⟩
  · rw [State.entries, State.standing, List.filterMap_filterMap, List.map_filterMap, State.members_task task]
    refine (List.filterMap_congr fun n member => ?_).trans List.filterMap_some
    obtain ⟨⟨j, r⟩, word⟩ := Option.isSome_iff_exists.mp
      (GangStands.isSome stands (State.members_task task ▸ member))
    obtain ⟨-, f, tried⟩ := (ready n member).2 j r word
    simp [word, tried, Except.toOption]
  · obtain ⟨q, mem, tried⟩ := List.mem_filterMap.mp mem
    obtain ⟨member, j, word⟩ := mem_standing mem
    rw [State.members_task task] at member
    obtain ⟨formed, at_word⟩ := ready q.1 member
    obtain ⟨-, f, passed⟩ := at_word j q.2 word
    rw [passed] at tried
    obtain ⟨rfl⟩ : (q.1, f) = p := Option.some.inj tried
    obtain ⟨instr, formed', fresh⟩ := State.mulTry_entry passed
    obtain ⟨_, waits⟩ := s.atGangWord_mat q.1
    refine ⟨instr, formed'.trans ?_, fresh⟩
    rw [((State.memberWord_kept word).2.1 q.1).1, waits]
    exact formed

include gang ready in
theorem gangMul_spec (distinct : t.members.Nodup) (run : exec i s = .next (s.mulWord i w ks km)) :
    ∃ u, exec i s = .next u ∧ ∀ n ∈ t.members, (u.core n).mat.steps = (s.core n).mat.steps + 1
      ∧ ∃ f, (u.core n).mat.infl = (s.core n).mat.infl ++ [f] ∧ f.instr = i ∧ f.gangWord = true ∧ f.done = false := by
  obtain ⟨each, fields⟩ := State.entries_spec task stands ready
  have can : ∀ n ∈ s.members, ∀ j r, s.atGangWord.memberWord n = some (j, r) →
      (!(r.core n).mat.holdsBack (r.mulUse n w ks km)) = true := fun n member j r word => by
    rw [((ready n (State.members_task task ▸ member)).2 j r word).1]
    rfl
  have issued : ∃ step gap, s.mulWord i w ks km = (s.atGangWord.gangMul step gap (s.entries i w ks km)).countStep := by
    simp only [State.mulWord, gang, if_true]
    rw [GangStands.step stands _ can, List.findSome?_eq_none_iff.mpr fun p mem => ?_]
    · exact ⟨_, _, rfl⟩
    · obtain ⟨member, j, word⟩ := mem_standing mem
      obtain ⟨-, f, passed⟩ := (ready p.1 (State.members_task task ▸ member)).2 j p.2 word
      rw [passed]
  obtain ⟨step, gap, issued⟩ := issued
  obtain ⟨-, own⟩ := State.gangMul_mat step gap (s.entries i w ks km) s.atGangWord (each ▸ distinct) fun p mem =>
    GangStands.isSome stands (State.members_task task ▸ each ▸ List.mem_map_of_mem mem)
  refine ⟨_, run.trans (congrArg _ issued), fun n member => ?_⟩
  obtain ⟨p, mem, rfl⟩ := List.mem_map.mp (each ▸ member)
  obtain ⟨wid, mat⟩ := own p mem
  obtain ⟨_, waits⟩ := s.atGangWord_mat p.1
  obtain ⟨instr, gangWord, fresh⟩ := fields p mem
  rw [State.countStep_core, mat, waits]
  exact ⟨rfl, _, rfl, instr, gangWord, fresh⟩

end

/-! ## MGANG, MUNGANG and MSYNC -/

theorem State.atGangWord_members : s.atGangWord.members = t.members := by
  have own : s.atGangWord.task = s.task := (congrArg Core.task (State.core_updCore s s.cur.core _) :)
  rw [State.members, own, task]
  rfl

variable {kind : Nat} (stands : GangStands s kind)
include stands

theorem GangStands.each {m : Nat} (member : m ∈ t.members) : (s.atGangWord.memberWord m).isSome = true :=
  GangStands.isSome stands (State.members_task task ▸ member)

theorem mgang_forms (many : t.gang ≠ 0) (alone : (s.core s.cur.core).mat.formed = false) :
    ∃ u, exec .mgang s = .next u ∧ ∀ n ∈ t.members, (u.core n).mat.formed = true ∧ (u.core n).mat.steps = 0 := by
  have run : exec .mgang s =
      .next (s.atGangWord.gangDone (fun m => { m with formed := true, steps := 0, anew := false }) t.members) := by
    simp only [exec, execMgang, task, Option.map_some, Option.getD_some, many, alone, Bool.false_eq_true, if_false]
    rw [GangStands.step stands _ fun _ _ _ _ _ => rfl, State.atGangWord_members task]
  exact ⟨_, run, fun n member => State.gangDone_holds (P := fun x => x.formed = true ∧ x.steps = 0) (fun _ => ⟨rfl, rfl⟩) _ _
    (fun m mem => .inl (GangStands.each task stands mem)) n (.inl member)⟩

theorem mungang_dissolves (gang : (s.core s.cur.core).mat.formed = true)
    (ended : ∀ n ∈ t.members, ∀ f ∈ (s.core n).mat.infl, f.gangWord = false) :
    ∃ u, exec .mungang s = .next u ∧ ∀ n ∈ t.members, (u.core n).mat.formed = false := by
  have can : ∀ n ∈ s.members, ∀ j r, s.atGangWord.memberWord n = some (j, r) →
      (!(r.core n).mat.infl.any (·.gangWord)) = true := fun n member j r word => by
    rw [State.atGangWord_infl word, Bool.not_eq_true', List.any_eq_false]
    exact fun f mem => Bool.eq_false_iff.mp (ended n (State.members_task task ▸ member) f mem)
  have run : exec .mungang s = .next (s.atGangWord.gangDone (fun m => { m with formed := false }) t.members) := by
    simp only [exec, execMungang, gang, Bool.not_true, Bool.false_eq_true, if_false]
    rw [GangStands.step stands _ can, State.atGangWord_members task]
  exact ⟨_, run, fun n member => State.gangDone_holds (P := fun x => x.formed = false) (fun _ => rfl) _ _
    (fun m mem => .inl (GangStands.each task stands mem)) n (.inl member)⟩

theorem msync_steps (gang : (s.core s.cur.core).mat.formed = true) (distinct : t.members.Nodup)
    (idle : ∀ n ∈ t.members, (s.core n).mat.infl = []) :
    ∃ u, exec .msync s = .next u ∧ ∀ n ∈ t.members, (u.core n).mat.steps = (s.core n).mat.steps + 1 := by
  have can : ∀ n ∈ s.members, ∀ j r, s.atGangWord.memberWord n = some (j, r) →
      ((r.core n).mat.infl == []) = true := fun n member j r word => by
    rw [State.atGangWord_infl word, idle n (State.members_task task ▸ member), BEq.rfl]
  have run : exec .msync s =
      .next (s.atGangWord.gangDone (fun m => { m with steps := m.steps + 1 }) t.members).countStep := by
    simp only [exec, execMsync, gang, if_true]
    rw [GangStands.step stands _ can, State.atGangWord_members task]
  refine ⟨_, run, fun n member => ?_⟩
  obtain ⟨_, waits⟩ := s.atGangWord_mat n
  rw [State.countStep_core, State.gangDone_mat _ _ _ distinct fun m mem => GangStands.each task stands mem, if_pos member,
    waits]
  rfl

end

section
variable {s : State} {k : Cmd} (cmd : s.cmd = some k)
include cmd

/-- In a gang that is formed, MGANG has nothing to do; nor have MUNGANG and MSYNC outside one. -/
theorem mgang_formed {t : Task} (task : s.task = some t) (many : t.gang ≠ 0)
    (gang : (s.core s.cur.core).mat.formed = true) : MatEnds .mgang s id := by
  refine matEnds_id cmd ?_
  simp only [exec, execMgang, task, Option.map_some, Option.getD_some, many, gang, if_false, if_true]

theorem mungang_alone (alone : (s.core s.cur.core).mat.formed = false) : MatEnds .mungang s id := by
  refine matEnds_id cmd ?_
  simp only [exec, execMungang, alone, Bool.not_false, if_true]

theorem msync_alone (alone : (s.core s.cur.core).mat.formed = false) (idle : (s.core s.cur.core).mat.infl = []) :
    MatEnds .msync s id := by
  refine matEnds_id cmd ?_
  simp only [exec, execMsync, alone, idle, ne_eq, not_true_eq_false, Bool.false_eq_true, if_false]

end

/-! ## Claims that waited, and claims taken back -/

theorem Mat.claimOf_setClaim (m : Mat) (side : MSide) (w : Word) :
    (m.setClaim side w).claimOf side = w &&& (if side = .acc then 0xFF else BitVec.allOnes 32) := by
  cases side with
  | a | b => exact (BitVec.and_allOnes).symm
  | acc =>
    refine BitVec.eq_of_toNat_eq ?_
    have low : w.toNat &&& (0xFF : Word).toNat = w.toNat % 2 ^ 8 := Nat.and_two_pow_sub_one_eq_mod w.toNat 8
    simp only [Mat.setClaim, Mat.claimOf, if_true, BitVec.toNat_and, BitVec.toNat_setWidth, low]
    omega

theorem Mat.claimOf_named (m : Mat) (side : MSide) :
    m.claimOf side &&& (if side = .acc then 0xFF else BitVec.allOnes 32) = m.claimOf side := by
  cases side with
  | a | b => exact BitVec.and_allOnes
  | acc =>
    refine BitVec.eq_of_toNat_eq ?_
    have low : m.claimP.toNat % 2 ^ 32 &&& (0xFF : Word).toNat = m.claimP.toNat % 2 ^ 32 % 2 ^ 8 :=
      Nat.and_two_pow_sub_one_eq_mod _ 8
    have := m.claimP.isLt
    simp only [Mat.claimOf, if_true, BitVec.toNat_and, BitVec.toNat_setWidth, low]
    omega

/-- A claim that waited is made when its items are free. -/
theorem claimGranted_waiting {s u : State} {c : Nat} {side : MSide} {mask : Word} (here : (s.core c).task ≠ none)
    (settled : (s.core c).mat.reclaims = []) (waits : (s.core c).mat.waiting = some (side, mask))
    (word : s.memberWord c = some (.mclaim side mask, u)) (free : s.claimBlocked c side mask = false) :
    ∃ t, exec (.claimGranted c) s = .next t
      ∧ (t.core c).mat.claimOf side =
        (s.core c).mat.claimOf side ||| mask &&& (if side = .acc then 0xFF else BitVec.allOnes 32)
      ∧ (t.core c).mat.waiting = none := by
  obtain ⟨at_c, kept, -, -⟩ := State.memberWord_kept word
  obtain ⟨t, task⟩ := Option.ne_none_iff_exists'.mp ((kept c).2 ▸ here)
  obtain ⟨v, stands, -, claimed⟩ := State.takeClaim_spec task side mask
  have can : canClaimGranted c s = true := by
    simp [canClaimGranted, settled, waits, word, free]
  have at_v : v.cur.core = c := (congrArg Cur.core stands.cur).trans at_c
  let claim : Mat → Mat := Mat.ended fun m => m.setClaim side (m.claimOf side ||| mask)
  have run : exec (.claimGranted c) s = .next ((v.updMat claim).engineIssue true) := by
    simp only [exec, execClaimGranted, can, settled, word, claimed, if_true, bne_self_eq_false, Bool.false_eq_true, if_false]
    rw [← at_v]
    exact congrArg Host.Outcome.next (v.matDone_eq fun m => m.setClaim side (m.claimOf side ||| mask))
  have own : (((v.updMat claim).engineIssue true).core c).mat = claim (s.core c).mat := by
    rw [((v.updMat claim).engineIssue_kept true).1, ← at_v, State.updMat_core, stands.mats, (kept _).1]
  refine ⟨_, run, ?_, congrArg Mat.waiting own⟩
  rw [own]
  refine ((s.core c).mat.claimOf_setClaim side _).trans ?_
  rw [BitVec.and_or_distrib_right, Mat.claimOf_named]

/-- The claims of a list are added to an engine's. -/
def Mat.addClaims (m : Mat) (l : List (MSide × Word)) : Mat := l.foldl (fun m p => m.setClaim p.1 (m.claimOf p.1 ||| p.2)) m

theorem State.takeClaims_mat (c : Nat) (l : List (MSide × Word)) : ∀ s : State, (s.core c).task ≠ none →
    ((l.foldl (fun s p => s.takeClaim c p.1 p.2) s).core c).mat = (s.core c).mat.addClaims l := by
  induction l with
  | nil => exact fun _ _ => rfl
  | cons p l ih =>
    intro s here
    obtain ⟨t, task⟩ := Option.ne_none_iff_exists'.mp here
    obtain ⟨v, stands, -, claimed⟩ := State.takeClaim_spec task p.1 p.2
    have stays : ((s.takeClaim c p.1 p.2).core c).task ≠ none := by
      rw [← Option.isSome_iff_ne_none, (Walked.takeClaim s c p.1 p.2).task_isSome, task]
      rfl
    rw [List.foldl_cons, ih _ stays, claimed, State.core_updCore]
    simp only [stands.mats, Mat.addClaims, List.foldl_cons]

theorem Mat.setClaim_zero (m : Mat) (side : MSide) : m.setClaim side (m.claimOf side ||| 0) = m := by
  cases side <;> simp [Mat.setClaim, Mat.claimOf]

/-- A restored task's claims, of which those of no item change nothing. -/
theorem Mat.addClaims_reclaims (m : Mat) : m.addClaims m.reclaims =
    { m with claimA := m.claimA ||| m.reclaimA, claimB := m.claimB ||| m.reclaimB, claimP := m.claimP ||| m.reclaimP } := by
  have skip (x : Mat) (p : MSide × Word) : (if p.2 != 0 then x.setClaim p.1 (x.claimOf p.1 ||| p.2) else x)
      = x.setClaim p.1 (x.claimOf p.1 ||| p.2) := by
    split
    · rfl
    · rename_i none
      rw [show p.2 = 0 by simpa using none, Mat.setClaim_zero]
  rw [Mat.addClaims, Mat.reclaims, List.foldl_filter]
  refine (congrArg (fun g => List.foldl g m _) (funext₂ skip)).trans ?_
  simp [Mat.setClaim, Mat.claimOf, BitVec.setWidth_or]

theorem claimGranted_reclaims {s : State} {c : Nat} (here : (s.core c).task ≠ none)
    (some : (s.core c).mat.reclaims ≠ []) (running : (s.core c).freezes = [])
    (free : ∀ p ∈ (s.core c).mat.reclaims, s.claimBlocked c p.1 p.2 = false) :
    ∃ t, exec (.claimGranted c) s = .next t
      ∧ (t.core c).mat.claimA = (s.core c).mat.claimA ||| (s.core c).mat.reclaimA
      ∧ (t.core c).mat.claimB = (s.core c).mat.claimB ||| (s.core c).mat.reclaimB
      ∧ (t.core c).mat.claimP = (s.core c).mat.claimP ||| (s.core c).mat.reclaimP ∧ (t.core c).mat.reclaims = [] := by
  have none : (s.core c).mat.reclaims.any (fun p => s.claimBlocked c p.1 p.2) = false :=
    List.any_eq_false.mpr fun p mem => Bool.eq_false_iff.mp (free p mem)
  have can : canClaimGranted c s = true := by
    simp only [canClaimGranted, bne_iff_ne.mpr some, if_true, running, none, Option.isSome_iff_ne_none.mpr here, BEq.rfl,
      Bool.not_false, Bool.and_self]
  have run : exec (.claimGranted c) s = .next (((s.core c).mat.reclaims.foldl (fun s p => s.takeClaim c p.1 p.2) s).updCore c
      fun x => { x with mat := { x.mat with reclaimA := 0, reclaimB := 0, reclaimP := 0 } }) := by
    simp only [exec, execClaimGranted, can, if_true, bne_iff_ne.mpr some]
  refine ⟨_, run, ?_⟩
  rw [State.core_updCore, State.takeClaims_mat c _ s here, Mat.addClaims_reclaims]
  exact ⟨rfl, rfl, rfl, rfl⟩

end Sys2Proof.Machine
end

section
/-! SUPPORT. What a completed matrix word writes (R252 to R256): rows of bytes at a stride, and elements of planes. -/

namespace Sys2Proof.Machine

open Sys2Proof Sys2Proof.Safety

/-! ## Folds -/

/-- What one element of a list brings about holds in the end, when every step keeps it. -/
theorem foldl_brings {σ α : Type} {g : σ → α → σ} {I P : σ → Prop} {a : α} (stays : ∀ s b, I s → I (g s b))
    (keeps : ∀ s b, I s → P s → P (g s b)) (brings : ∀ s, I s → P (g s a)) (l : List α) (mem : a ∈ l) :
    ∀ s, I s → P (l.foldl g s) := by
  have kept (l : List α) : ∀ s, I s → P s → P (l.foldl g s) := by
    induction l with
    | nil => exact fun _ _ => id
    | cons b l ih => exact fun s inv holds => ih _ (stays s b inv) (keeps s b inv holds)
  induction l with
  | nil => exact absurd mem List.not_mem_nil
  | cons b l ih =>
    intro s inv
    rcases List.mem_cons.mp mem with rfl | mem
    · exact kept l _ (stays s a inv) (brings s inv)
    · exact ih mem _ (stays s b inv)

/-- Where only one element of a list changes what is read, the result is that element's, made of what was read before. -/
theorem foldl_at {σ α β : Type} {h : σ → α → σ} {I : σ → Prop} {get : σ → β} {a : α} {l : List α} (distinct : l.Nodup)
    (mem : a ∈ l) (stays : ∀ x, ∀ b ∈ l, I x → I (h x b)) (apart : ∀ b ∈ l, b ≠ a → ∀ x, I x → get (h x b) = get x) :
    ∀ x, I x → ∃ y, I y ∧ get y = get x ∧ get (l.foldl h x) = get (h y a) := by
  have kept (l : List α) : (∀ x, ∀ b ∈ l, I x → I (h x b)) → (∀ b ∈ l, ∀ x, I x → get (h x b) = get x) →
      ∀ x, I x → get (l.foldl h x) = get x := by
    induction l with
    | nil => exact fun _ _ _ _ => rfl
    | cons b l ih =>
      intro stays apart x inv
      exact (ih (fun y d mem => stays y d (List.mem_cons_of_mem _ mem)) (fun d mem => apart d (List.mem_cons_of_mem _ mem)) _
        (stays x b List.mem_cons_self inv)).trans (apart b List.mem_cons_self x inv)
  induction l with
  | nil => exact absurd mem List.not_mem_nil
  | cons b l ih =>
    intro x inv
    obtain ⟨alone, distinct⟩ := List.nodup_cons.mp distinct
    rcases List.mem_cons.mp mem with rfl | mem
    · exact ⟨x, inv, rfl, kept l (fun y d mem => stays y d (List.mem_cons_of_mem _ mem))
        (fun d mem => apart d (List.mem_cons_of_mem _ mem) fun same => alone (same ▸ mem)) _ (stays x a List.mem_cons_self inv)⟩
    · have other : b ≠ a := fun same => alone (same ▸ mem)
      obtain ⟨y, inv', before, after⟩ := ih distinct mem (fun y d mem => stays y d (List.mem_cons_of_mem _ mem))
        (fun d mem => apart d (List.mem_cons_of_mem _ mem)) (h x b) (stays x b List.mem_cons_self inv)
      exact ⟨y, inv', before.trans (apart b List.mem_cons_self other x inv), after⟩

/-! ## Rows of bytes -/

/-- Strings written at a stride. -/
def writeRows (base stride : Nat) (bytes : Nat → List Byte) (n : Nat) (m : List Host.Cell) : List Host.Cell :=
  (List.range n).foldl (fun m row => memWrites (base + row * stride) (bytes row) m) m

theorem writeRows_succ (base stride : Nat) (bytes : Nat → List Byte) (n : Nat) (m : List Host.Cell) :
    writeRows base stride bytes (n + 1) m = memWrites (base + n * stride) (bytes n) (writeRows base stride bytes n m) := by
  rw [writeRows, List.range_succ, List.foldl_append, List.foldl_cons, List.foldl_nil, writeRows]

section
variable {base stride n : Nat} {bytes : Nat → List Byte} {m : List Host.Cell} (wf : Memory.wf m = true)
include wf

theorem writeRows_wf : Memory.wf (writeRows base stride bytes n m) = true := by
  induction n with
  | zero => exact wf
  | succ n ih =>
    rw [writeRows_succ]
    exact memWrites_wf ih

/-- A byte of no row reads as before. -/
theorem memRead_writeRows_outside {a : Nat}
    (out : ∀ row, row < n → ∀ i, i < (bytes row).length → a ≠ base + row * stride + i) :
    memRead (writeRows base stride bytes n m) a = memRead m a := by
  induction n with
  | zero => rfl
  | succ n ih =>
    have last : a < base + n * stride ∨ base + n * stride + (bytes n).length ≤ a := by
      by_contra inside
      exact out n (Nat.lt_succ_self n) (a - (base + n * stride)) (by omega) (by omega)
    rw [writeRows_succ, memRead_memWrites_outside (writeRows_wf wf) last,
      ih fun row lt => out row (Nat.lt_succ_of_lt lt)]

/-- A byte of a row that no other row reaches reads as it was written. -/
theorem memRead_writeRows {len row i : Nat} (length : ∀ row, (bytes row).length = len) (apart : len ≤ stride)
    (there : row < n) (inside : i < len) :
    memRead (writeRows base stride bytes n m) (base + row * stride + i) = (bytes row).getD i 0 := by
  induction n with
  | zero => exact absurd there (Nat.not_lt_zero _)
  | succ n ih =>
    rw [writeRows_succ]
    rcases Nat.lt_succ_iff_lt_or_eq.mp there with before | rfl
    · have far := Nat.mul_le_mul_right stride before
      rw [Nat.succ_mul] at far
      rw [memRead_memWrites_outside (writeRows_wf wf) (.inl (by omega)), ih before]
    · exact memRead_memWrites_inside (writeRows_wf wf) ((length row).symm ▸ inside)

end

theorem memReads_slice (m : List Host.Cell) (a n k j : Nat) (inside : k + j ≤ n) :
    ((memReads m a n).drop k).take j = memReads m (a + k) j := by
  refine List.ext_getElem ?_ fun i _ _ => ?_
  · simp only [memReads, List.length_take, List.length_drop, List.length_map, List.length_range]
    omega
  · simp only [memReads, List.getElem_take, List.getElem_drop, List.getElem_map, List.getElem_range, Nat.add_assoc]

theorem fillRowBytes_length (w : FillWord) (row : Nat) : (fillRowBytes w row).length = fillRowLen w := by
  simp only [fillRowBytes, List.length_flatMap, leBytes_length, List.map_const', List.length_range, List.sum_replicate,
    smul_eq_mul, fillRowLen]

/-- The bytes of one element of a string of elements of one length. -/
theorem flatMap_getD {len : Nat} (g : Nat → List Byte) (length : ∀ i, (g i).length = len) (n : Nat) {i b : Nat} (there : i < n)
    (inside : b < len) : ((List.range n).flatMap g).getD (i * len + b) 0 = (g i).getD b 0 := by
  induction n with
  | zero => exact absurd there (Nat.not_lt_zero _)
  | succ n ih =>
    have before : ((List.range n).flatMap g).length = n * len := by
      simp only [List.length_flatMap, length, List.map_const', List.length_range, List.sum_replicate, smul_eq_mul]
    rw [List.range_succ, List.flatMap_append, List.flatMap_singleton]
    rcases Nat.lt_succ_iff_lt_or_eq.mp there with lt | rfl
    · have far := Nat.mul_le_mul_right len lt
      rw [Nat.succ_mul] at far
      rw [List.getD_append _ _ _ _ (by omega), ih lt]
    · rw [List.getD_append_right _ _ _ _ (by omega), before, Nat.add_sub_cancel_left]

/-! ## Elements of planes -/

theorem Quad.planes_setAcc (x : Quad) (i j : Nat) (v : Dbl) :
    tget (x.setAcc i v).planes j 0 = if j = i then v else tget x.planes j 0 := by
  rw [Quad.setAcc]
  by_cases zero : v = 0
  · rw [if_pos zero, terase, tget, tfind_filter_key (fun k => k != i)]
    by_cases same : j = i
    · simp [same, zero]
    · simp [same, tget]
  · rw [if_neg zero]
    split
    · rename_i same
      rw [same, tget_tset_same]
    · rename_i other
      exact tget_tset_ne _ _ _ other

theorem planeIndex_inj {p r c p' r' c' : Nat} (row : r < 128) (col : c < 256) (row' : r' < 128) (col' : c' < 256) :
    planeIndex p r c = planeIndex p' r' c' ↔ p = p' ∧ r = r' ∧ c = c' := by
  simp only [planeIndex]
  omega

/-- The elements of one cell in successive planes. -/
def Quad.putGroup (x : Quad) (pg r c : Nat) (out : List Dbl) : Quad :=
  out.zipIdx.foldl (fun x p => x.setAcc (planeIndex (pg + p.2) r c) p.1) x

theorem Quad.putGroup_planes (x : Quad) (pg r c : Nat) (out : List Dbl) (j : Nat) :
    tget (x.putGroup pg r c out).planes j 0 =
      if ∃ k, k < out.length ∧ j = planeIndex (pg + k) r c then out.getD ((j - planeIndex pg r c) / 32768) 0
      else tget x.planes j 0 := by
  induction out using List.reverseRecOn with
  | nil => simp [Quad.putGroup]
  | append_singleton l v ih =>
    have last : (x.putGroup pg r c (l ++ [v])) = (x.putGroup pg r c l).setAcc (planeIndex (pg + l.length) r c) v := by
      simp [Quad.putGroup, List.zipIdx_append, List.foldl_append]
    rw [last, Quad.planes_setAcc, ih]
    by_cases same : j = planeIndex (pg + l.length) r c
    · have place : (j - planeIndex pg r c) / 32768 = l.length := by rw [same]; simp only [planeIndex]; omega
      rw [if_pos same, if_pos ⟨l.length, by simp, same⟩, place]
      simp
    · rw [if_neg same]
      by_cases there : ∃ k, k < l.length ∧ j = planeIndex (pg + k) r c
      · obtain ⟨k, lt, rfl⟩ := there
        have place : (planeIndex (pg + k) r c - planeIndex pg r c) / 32768 = k := by simp only [planeIndex]; omega
        rw [if_pos ⟨k, lt, rfl⟩, if_pos ⟨k, by simp; omega, rfl⟩, place, List.getD_append _ _ _ _ lt]
      · rw [if_neg there, if_neg]
        rintro ⟨k, lt, rfl⟩
        rw [List.length_append, List.length_singleton] at lt
        rcases Nat.lt_succ_iff_lt_or_eq.mp lt with lt | rfl
        · exact there ⟨k, lt, rfl⟩
        · exact same rfl

theorem Quad.acc_putGroup (x : Quad) (pg r c : Nat) (out : List Dbl) {k : Nat} (there : k < out.length) :
    (x.putGroup pg r c out).acc (pg + k) r c = out.getD k 0 := by
  have place : (planeIndex (pg + k) r c - planeIndex pg r c) / 32768 = k := by simp only [planeIndex]; omega
  rw [Quad.acc, Quad.putGroup_planes, if_pos ⟨k, there, rfl⟩, place]

theorem Quad.acc_putGroup_ne (x : Quad) (pg r c : Nat) (out : List Dbl) {p r' c' : Nat}
    (apart : ∀ k, k < out.length → planeIndex p r' c' ≠ planeIndex (pg + k) r c) :
    (x.putGroup pg r c out).acc p r' c' = x.acc p r' c' := by
  rw [Quad.acc, Quad.putGroup_planes, if_neg (fun ⟨k, lt, same⟩ => apart k lt same)]
  rfl

/-! ## Changes of one array alone -/

/-- Only the array of a quad has changed. -/
structure ArrayOnly (q : Nat) (s t : State) : Prop where
  rest : ∃ qs, t = { s with quads := qs }
  others : ∀ n, n ≠ q → t.quad n = s.quad n

theorem ArrayOnly.refl (q : Nat) (s : State) : ArrayOnly q s s := ⟨⟨s.quads, rfl⟩, fun _ _ => rfl⟩

theorem ArrayOnly.trans {q : Nat} {s t u : State} (h : ArrayOnly q s t) (k : ArrayOnly q t u) : ArrayOnly q s u := by
  obtain ⟨⟨qs, rfl⟩, others⟩ := h
  obtain ⟨⟨qs', rfl⟩, others'⟩ := k
  exact ⟨⟨qs', rfl⟩, fun n other => (others' n other).trans (others n other)⟩

theorem ArrayOnly.updQuad (s : State) (q : Nat) (g : Quad → Quad) : ArrayOnly q s (s.updQuad q g) :=
  ⟨⟨_, rfl⟩, fun _ other => State.quad_updQuad_ne _ _ other⟩

theorem ArrayOnly.foldl {α : Type} {q : Nat} {g : State → α → State} (h : ∀ s a, ArrayOnly q s (g s a)) (l : List α) :
    ∀ s, ArrayOnly q s (l.foldl g s) := by
  induction l with
  | nil => exact ArrayOnly.refl q
  | cons a l ih => exact fun s => (h s a).trans (ih _)

theorem ArrayOnly.kept {q : Nat} {s t : State} (h : ArrayOnly q s t) : EnginesStand s t ∧ MemoryKept s t := by
  obtain ⟨⟨qs, rfl⟩, -⟩ := h
  exact ⟨.of_cores rfl rfl, fun _ => rfl, rfl, rfl, rfl⟩

end Sys2Proof.Machine
end

section
/-! SUPPORT. The sums of a multiply word (R115 to R117, R248 to R251): a word that no stop has cut short leaves in each cell of
its planes what its steps make of the cell's accumulators, and no other element changes. -/

namespace Sys2Proof.Machine

open Sys2Proof Sys2Proof.Safety

/-! ## What a cell reads -/

section
variable (s : State) (qs : Tbl Quad)

theorem State.readLive_quads : ({ s with quads := qs } : State).readLive = s.readLive := rfl

theorem State.mulSequence_quads : ({ s with quads := qs } : State).mulSequence = s.mulSequence := by
  funext qa qb f w ks km r c
  simp only [State.mulSequence, State.floatElem, State.readLive_quads]

theorem State.mxStep_quads : ({ s with quads := qs } : State).mxStep = s.mxStep := by
  funext qa qb f w ma mb r c b lo part accs
  simp only [State.mxStep, State.mxDot, State.mxBlocks, State.mxBlockOf, State.readLive_quads]

theorem State.mxSteps_quads (qa qb : Nat) (f : MInfl) (w : MulWord) (ma mb : MxTy) (r c k : Nat) : ∀ (b lo : Nat) (part : Int)
    (accs : List Dbl), ({ s with quads := qs } : State).mxSteps qa qb f w ma mb r c k b lo part accs
      = s.mxSteps qa qb f w ma mb r c k b lo part accs := by
  induction k with
  | zero => exact fun _ _ _ _ => rfl
  | succ k ih =>
    intro b lo part accs
    rw [State.mxSteps, State.mxSteps, ih, State.mxStep_quads]

end

theorem chunkSteps_length (p : Nat) (seq : List Prod3) (n : Nat) : ∀ (u : Nat) (accs : List Dbl),
    (chunkSteps p seq n u accs).length = accs.length := by
  induction n with
  | zero => exact fun _ _ => rfl
  | succ n ih => exact fun u accs => (ih _ _).trans List.length_mapIdx

theorem State.mxSteps_length (s : State) (qa qb : Nat) (f : MInfl) (w : MulWord) (ma mb : MxTy) (r c k : Nat) :
    ∀ (b lo : Nat) (part : Int) (accs : List Dbl), (s.mxSteps qa qb f w ma mb r c k b lo part accs).length = accs.length := by
  induction k with
  | zero => exact fun _ _ _ _ => rfl
  | succ k ih =>
    intro b lo part accs
    rw [State.mxSteps, ih]
    simp only [State.mxStep]
    split
    · rfl
    · exact List.length_modify ..

/-- What all the steps of a multiply word make of the accumulators of cell (r, c). -/
def State.mulSums (s : State) (q : Nat) (f : MInfl) (w : MulWord) (ks : Nat) (km : Bool) (r c : Nat) (old : List Dbl) :
    List Dbl :=
  let p := (pairP (tagFmt f.atag) (tagFmt f.btag)).getD 1
  match fmtMx (tagFmt f.atag), fmtMx (tagFmt f.btag) with
  | some ma, some mb =>
    s.mxSteps (quadOf f.leader) q f w ma mb r c (f.cycles w ks / ((tagBlock f.atag + p - 1) / p)) 0 0 0 old
  | _, _ => chunkSteps p (s.mulSequence (quadOf f.leader) q f w ks km r c) (f.cycles w ks) 0 old

section
variable (s : State) (q : Nat) (f : MInfl) (w : MulWord) (ks : Nat) (km : Bool) (r c : Nat) (old : List Dbl)

theorem State.mulSums_quads (qs : Tbl Quad) :
    ({ s with quads := qs } : State).mulSums q f w ks km r c old = s.mulSums q f w ks km r c old := by
  simp only [State.mulSums]
  cases fmtMx (tagFmt f.atag) <;> cases fmtMx (tagFmt f.btag)
  case some.some => exact s.mxSteps_quads qs ..
  all_goals simp only [State.mulSequence_quads]

theorem State.mulSums_length : (s.mulSums q f w ks km r c old).length = old.length := by
  simp only [State.mulSums]
  cases fmtMx (tagFmt f.atag) <;> cases fmtMx (tagFmt f.btag)
  case some.some => exact s.mxSteps_length ..
  all_goals exact chunkSteps_length ..

theorem State.mulSums_zero (none : f.cycles w ks = 0) : s.mulSums q f w ks km r c old = old := by
  simp only [State.mulSums, none, Nat.zero_div]
  cases fmtMx (tagFmt f.atag) <;> cases fmtMx (tagFmt f.btag) <;> rfl

end

/-! ## One cell -/

/-- The accumulators of cell (r, c) in a group of planes. -/
def Quad.group (x : Quad) (pg n r c : Nat) : List Dbl := (List.range n).map fun k => x.acc (pg + k) r c

section
variable (s : State) (core : Nat) (f : MInfl) (w : MulWord) (ks : Nat) (km : Bool) (e r c : Nat)

/-- A cell goes on: it writes its accumulators, and then no more than its partial sum. -/
theorem State.cellRun_shape : s.cellRun core f w ks km e r c = s ∨ ∃ out, out.length = f.tab.n
    ∧ (s.cellRun core f w ks km e r c = s.updQuad (quadOf core) (·.putGroup w.pg.toNat r c out)
      ∨ ∃ g : Quad → Quad, (∀ x, (g x).planes = x.planes) ∧ s.cellRun core f w ks km e r c
        = (s.updQuad (quadOf core) (·.putGroup w.pg.toNat r c out)).updQuad (quadOf core) g) := by
  simp only [State.cellRun]
  split
  · exact .inl rfl
  · right
    cases fmtMx (tagFmt f.atag) <;> cases fmtMx (tagFmt f.btag)
    case some.some =>
      refine ⟨_, ?_, .inr ⟨_, ?_, rfl⟩⟩
      · rw [State.mxSteps_length, List.length_map, List.length_range]
      · exact fun x => rfl
    all_goals
      refine ⟨chunkSteps _ (s.mulSequence _ _ f w ks km r c) _ _ ((s.quad (quadOf core)).group w.pg.toNat f.tab.n r c), ?_,
        .inl rfl⟩
      rw [chunkSteps_length, Quad.group, List.length_map, List.length_range]

theorem State.cellRun_array : ArrayOnly (quadOf core) s (s.cellRun core f w ks km e r c) := by
  rcases s.cellRun_shape core f w ks km e r c with same | ⟨out, -, same | ⟨g, -, same⟩⟩
  · rw [same]
    exact .refl _ s
  · rw [same]
    exact .updQuad ..
  · rw [same]
    exact (ArrayOnly.updQuad ..).trans (.updQuad ..)

theorem Quad.acc_of_planes {x y : Quad} (planes : x.planes = y.planes) : x.acc = y.acc := by
  funext p r c
  rw [Quad.acc, Quad.acc, planes]

/-- An element that is no accumulator of the cell is as it was. -/
theorem State.acc_cellRun_ne {p r' c' : Nat}
    (apart : ∀ k, k < f.tab.n → planeIndex p r' c' ≠ planeIndex (w.pg.toNat + k) r c) :
    ((s.cellRun core f w ks km e r c).quad (quadOf core)).acc p r' c' = (s.quad (quadOf core)).acc p r' c' := by
  rcases s.cellRun_shape core f w ks km e r c with same | ⟨out, length, same | ⟨g, planes, same⟩⟩
  · rw [same]
  · rw [same, State.quad_updQuad]
    exact Quad.acc_putGroup_ne _ _ _ _ _ (length ▸ apart)
  · rw [same, State.quad_updQuad, State.quad_updQuad, Quad.acc_of_planes (planes _)]
    exact Quad.acc_putGroup_ne _ _ _ _ _ (length ▸ apart)

/-- A cell that no stop has cut short performs all its steps. -/
theorem State.acc_cellRun (fresh : f.elapsed = 0) (row : r < 128) (col : c < 256) {j : Nat} (there : j < f.tab.n) :
    ((s.cellRun core f w ks km (f.cycles w ks + f.delay + 383) r c).quad (quadOf core)).acc (w.pg.toNat + j) r c =
      (s.mulSums (quadOf core) f w ks km r c ((s.quad (quadOf core)).group w.pg.toNat f.tab.n r c)).getD j 0 := by
  have start : f.doneBy (f.cycles w ks) f.elapsed r c = 0 := by
    simp only [MInfl.doneBy, fresh, Nat.zero_sub]
    exact Nat.min_zero _
  have finish : f.doneBy (f.cycles w ks) (f.cycles w ks + f.delay + 383) r c = f.cycles w ks := by
    rw [MInfl.doneBy]
    exact Nat.min_eq_left (by omega)
  have group : j < ((s.quad (quadOf core)).group w.pg.toNat f.tab.n r c).length := by
    rwa [Quad.group, List.length_map, List.length_range]
  by_cases idle : f.cycles w ks ≤ 0
  · rw [State.mulSums_zero _ _ _ _ _ _ _ _ _ (Nat.le_zero.mp idle)]
    simp only [State.cellRun, start, finish, if_pos idle, Quad.group]
    rw [List.getD_eq_getElem _ _ (by simpa using there)]
    simp
  · have written : ((s.cellRun core f w ks km (f.cycles w ks + f.delay + 383) r c).quad (quadOf core)).planes =
        ((s.quad (quadOf core)).putGroup w.pg.toNat r c (s.mulSums (quadOf core) f w ks km r c
          ((s.quad (quadOf core)).group w.pg.toNat f.tab.n r c))).planes := by
      simp only [State.cellRun, State.mulSums, start, finish, if_neg idle]
      cases fmtMx (tagFmt f.atag) <;> cases fmtMx (tagFmt f.btag)
      case some.some =>
        simp only [Nat.zero_mod, Nat.zero_div, Nat.zero_mul, Nat.sub_zero, if_true, State.quad_updQuad]
        rfl
      all_goals
        simp only [Nat.sub_zero, State.quad_updQuad]
        rfl
    rw [Quad.acc_of_planes written]
    exact Quad.acc_putGroup _ _ _ _ _ (by rwa [State.mulSums_length])

end

/-! ## The array -/

theorem foldl_product {σ α β : Type} (g : σ → α → β → σ) (l : List α) (l' : List β) : ∀ s : σ,
    (l ×ˢ l').foldl (fun s x => g s x.1 x.2) s = l.foldl (fun s a => l'.foldl (fun s b => g s a b) s) s := by
  induction l with
  | nil => exact fun _ => rfl
  | cons a l ih =>
    intro s
    rw [List.product_cons, List.foldl_append, List.foldl_map, ih, List.foldl_cons]

section
variable (s : State) (core : Nat) (f : MInfl) (e : Nat) {w : MulWord} {ks : Nat} {km : Bool}

theorem State.arrayRun_cells (mul : mulOf f.instr = some (w, ks, km)) : s.arrayRun core f e =
    (List.range 128 ×ˢ List.range 256).foldl (fun s x => s.cellRun core f w ks km e x.1 x.2) s := by
  rw [foldl_product (fun (s : State) r c => s.cellRun core f w ks km e r c), State.arrayRun, mul]

theorem State.arrayRun_array : ArrayOnly (quadOf core) s (s.arrayRun core f e) := by
  cases mul : mulOf f.instr with
  | none =>
    rw [State.arrayRun, mul]
    exact .refl _ s
  | some m =>
    obtain ⟨w, ks, km⟩ := m
    rw [State.arrayRun_cells s core f e mul]
    exact ArrayOnly.foldl (g := fun (s : State) (x : Nat × Nat) => s.cellRun core f w ks km e x.1 x.2)
      (fun s x => s.cellRun_array core f w ks km e x.1 x.2) _ s

/-- The accumulators of a cell come from that cell's steps alone. -/
theorem State.arrayRun_cell (mul : mulOf f.instr = some (w, ks, km)) {r c : Nat} (row : r < 128) (col : c < 256) :
    ∃ t, ArrayOnly (quadOf core) s t ∧ (∀ p, (t.quad (quadOf core)).acc p r c = (s.quad (quadOf core)).acc p r c)
      ∧ ∀ p, ((s.arrayRun core f e).quad (quadOf core)).acc p r c =
        ((t.cellRun core f w ks km e r c).quad (quadOf core)).acc p r c := by
  obtain ⟨t, only, before, after⟩ := foldl_at (h := fun (s : State) (x : Nat × Nat) => s.cellRun core f w ks km e x.1 x.2)
    (I := ArrayOnly (quadOf core) s) (get := fun t p => (t.quad (quadOf core)).acc p r c) (a := (r, c))
    (l := List.range 128 ×ˢ List.range 256) (List.Nodup.product List.nodup_range List.nodup_range)
    (List.mem_product.mpr ⟨List.mem_range.mpr row, List.mem_range.mpr col⟩)
    (fun t x _ only => only.trans (t.cellRun_array core f w ks km e x.1 x.2))
    (fun x mem other t _ => funext fun p => t.acc_cellRun_ne core f w ks km e x.1 x.2 fun k _ same => by
      obtain ⟨row', col'⟩ := List.mem_product.mp mem
      obtain ⟨-, same_row, same_col⟩ :=
        (planeIndex_inj row col (List.mem_range.mp row') (List.mem_range.mp col')).mp same
      exact other (Prod.ext same_row.symm same_col.symm))
    s (.refl _ s)
  rw [State.arrayRun_cells s core f e mul]
  exact ⟨t, only, congrFun before, congrFun after⟩

/-- The sums of a multiply word that no stop has cut short. -/
theorem State.acc_arrayRun (mul : mulOf f.instr = some (w, ks, km)) (fresh : f.elapsed = 0) {r c j : Nat} (row : r < 128)
    (col : c < 256) (there : j < f.tab.n) :
    ((s.arrayRun core f f.lastCycle).quad (quadOf core)).acc (w.pg.toNat + j) r c =
      (s.mulSums (quadOf core) f w ks km r c ((s.quad (quadOf core)).group w.pg.toNat f.tab.n r c)).getD j 0 := by
  have last : f.lastCycle = f.cycles w ks + f.delay + 383 := by rw [MInfl.lastCycle, mul]
  obtain ⟨t, ⟨⟨qs, rfl⟩, -⟩, before, after⟩ := s.arrayRun_cell core f f.lastCycle mul row col
  refine (after _).trans ?_
  rw [last, State.acc_cellRun _ core f w ks km r c fresh row col there, State.mulSums_quads, Quad.group, Quad.group]
  simp only [before]

/-- A plane outside of the word's group is as it was. -/
theorem State.acc_arrayRun_ne (mul : mulOf f.instr = some (w, ks, km)) {r c p : Nat} (row : r < 128) (col : c < 256)
    (outside : p < w.pg.toNat ∨ w.pg.toNat + f.tab.n ≤ p) :
    ((s.arrayRun core f e).quad (quadOf core)).acc p r c = (s.quad (quadOf core)).acc p r c := by
  obtain ⟨t, -, before, after⟩ := s.arrayRun_cell core f e mul row col
  rw [after, ← before]
  refine State.acc_cellRun_ne _ _ _ _ _ _ _ _ _ fun k lt same => ?_
  obtain ⟨plane, -⟩ := (planeIndex_inj row col row col).mp same
  omega

end

end Sys2Proof.Machine
end

section
/-! SUPPORT. What the completion of a matrix word changes (R252 to R256): the planes, the tags and the bytes of its own array,
and neither engines nor sequencers. -/

namespace Sys2Proof.Machine

open Sys2Proof Sys2Proof.Safety

section
variable (s : State) (c : Nat)

/-! ## Fills and transfers -/

theorem slotAt_add (q side slot x y : Nat) : slotAt q side slot (x + y) = slotAt q side slot x + y :=
  (Nat.add_assoc _ x y).symm

theorem arrayAt_add (c x y : Nat) : arrayAt c (x + y) = arrayAt c x + y := (Nat.add_assoc _ x y).symm

/-- Rows that a fill writes. -/
theorem State.foldl_mem (addr : Nat → Nat) (base stride : Nat) (bytes : Nat → List Byte)
    (at_row : ∀ row, addr row = base + row * stride) (n : Nat) :
    (List.range n).foldl (fun (s : State) row => { s with mem := memWrites (addr row) (bytes row) s.mem }) s =
      { s with mem := writeRows base stride bytes n s.mem } := by
  induction n with
  | zero => rfl
  | succ n ih => rw [List.range_succ, List.foldl_append, ih, List.foldl_cons, List.foldl_nil, at_row, writeRows_succ]

theorem EnginesStand.writeArray (x : Nat) (bs : List Byte) : EnginesStand s (s.writeArray c x bs) := .of_cores rfl rfl

/-- Rows that are sent to an array, each made of the planes. -/
theorem State.sendRows_spec (soff stride : Nat) (g : Quad → Nat → List Byte) (n : Nat) :
    let t := (List.range n).foldl (fun (s : State) i =>
      (s.writeArray c (soff + i * stride) (g (s.quad (quadOf c)) i)).fireBlocks c (soff + i * stride)
        (g (s.quad (quadOf c)) i).length) s
    EnginesStand s t ∧ t.quads = s.quads ∧ t.mem = writeRows (arrayAt c soff) stride (g (s.quad (quadOf c))) n s.mem := by
  induction n with
  | zero => exact ⟨.refl s, rfl, rfl⟩
  | succ n ih =>
    rw [List.range_succ, List.foldl_append, List.foldl_cons, List.foldl_nil]
    generalize (List.range n).foldl _ s = u at ih ⊢
    obtain ⟨stands, quads, mem⟩ := ih
    refine ⟨stands.trans ((EnginesStand.writeArray ..).trans (RowsStand.fireBlocks ..).toEnginesStand),
      (State.fireBlocks_quads ..).trans quads, ?_⟩
    rw [(Quiet.fireBlocks ..).mem.1, State.writeArray, quad_of_quads quads, arrayAt_add, mem, writeRows_succ]

theorem tget_foldl_tset {α β : Type} (key : α → Nat) (v d : β) {a : α} (l : List α) (mem : a ∈ l) (t : Tbl β) :
    tget (l.foldl (fun t j => tset (key j) v t) t) (key a) d = v := by
  refine foldl_brings (g := fun t j => tset (key j) v t) (I := fun _ => True) (P := fun t => tget t (key a) d = v) (a := a)
    (fun _ _ _ => trivial) (fun t b _ holds => ?_) (fun t _ => tget_tset_same ..) l mem t trivial
  by_cases same : key a = key b
  · rw [same, tget_tset_same]
  · rw [tget_tset_ne _ _ _ same, holds]

/-! ## Rows of a plane -/

/-- The first elements of a row of a plane. -/
def Quad.putRow (x : Quad) (pl row : Nat) (g : Nat → Dbl) (n : Nat) : Quad :=
  (List.range n).foldl (fun x col => x.setAcc (planeIndex pl row col) (g col)) x

theorem Quad.acc_putRow (x : Quad) (pl row : Nat) (g : Nat → Dbl) {n r col : Nat} (width : n ≤ 256) (inside : col < 256) :
    (x.putRow pl row g n).acc pl r col = if r = row ∧ col < n then g col else x.acc pl r col := by
  induction n with
  | zero => simp [Quad.putRow]
  | succ n ih =>
    have last : x.putRow pl row g (n + 1) = (x.putRow pl row g n).setAcc (planeIndex pl row n) (g n) := by
      rw [Quad.putRow, List.range_succ, List.foldl_append, List.foldl_cons, List.foldl_nil, Quad.putRow]
    rw [last, Quad.acc, Quad.planes_setAcc, ← Quad.acc, ih (by omega)]
    have place : planeIndex pl r col = planeIndex pl row n ↔ r = row ∧ col = n := by
      simp only [planeIndex]
      omega
    by_cases here : r = row ∧ col = n
    · rw [if_pos (place.mpr here), if_pos ⟨here.1, by omega⟩, here.2]
    · rw [if_neg (place.not.mpr here)]
      exact if_congr (by omega) rfl rfl

/-- The rows that a transfer brings into a plane. -/
theorem State.bringRows_spec (pl row0 soff stride : Nat) (g : List Byte → Nat → Dbl) (len n : Nat) :
    let t := (List.range n).foldl (fun (s : State) i => s.updQuad (quadOf c) (·.putRow pl (row0 + i)
      (g (s.readArray c (soff + i * stride) len)) 256)) s
    ArrayOnly (quadOf c) s t ∧ ∀ i, i < n → ∀ col, col < 256 →
      (t.quad (quadOf c)).acc pl (row0 + i) col = g (s.readArray c (soff + i * stride) len) col := by
  refine ⟨ArrayOnly.foldl (g := fun (s : State) i => s.updQuad (quadOf c) (·.putRow pl (row0 + i)
    (g (s.readArray c (soff + i * stride) len)) 256)) (fun s i => .updQuad ..) _ s, fun i there col inside => ?_⟩
  obtain ⟨y, ⟨⟨qs, rfl⟩, -⟩, -, after⟩ := foldl_at (h := fun (s : State) i => s.updQuad (quadOf c) (·.putRow pl (row0 + i)
      (g (s.readArray c (soff + i * stride) len)) 256)) (I := ArrayOnly (quadOf c) s)
    (get := fun t => (t.quad (quadOf c)).acc pl (row0 + i) col) (a := i) (l := List.range n) List.nodup_range
    (List.mem_range.mpr there) (fun x b _ only => only.trans (.updQuad ..))
    (fun b _ other x _ => by
      rw [State.quad_updQuad, Quad.acc_putRow _ _ _ _ (Nat.le_refl _) inside, if_neg (by omega)])
    s (.refl _ s)
  refine after.trans ?_
  rw [State.quad_updQuad, Quad.acc_putRow _ _ _ _ (Nat.le_refl _) inside, if_pos ⟨rfl, inside⟩]
  rfl

/-! ## The word's effect -/

variable (f : MInfl)

theorem State.matEffect_mzero {mask : Byte} (word : f.instr = .mzero mask) :
    s.matEffect c f = s.updQuad (quadOf c) (·.fillPlanes mask 0) := by
  rw [State.matEffect, word]

theorem State.matEffect_mfillAcc {pl : BitVec 3} {v : BitVec 16} (word : f.instr = .mfillAcc pl v) : s.matEffect c f =
    s.updQuad (quadOf c) (·.fillPlanes (BitVec.twoPow 8 pl.toNat) (widen formBf16 v.toNat)) := by
  rw [State.matEffect, word]

theorem State.matEffect_mqry {soff : BitVec 19} (word : f.instr = .mqry soff) :
    s.matEffect c f = (s.writeArray c f.soff f.out).fireBlocks c f.soff 64 := by
  rw [State.matEffect, word]

/-- Slots that a fill writes have its tag. -/
def MInfl.tagSlots (f : MInfl) (w : FillWord) (x : Quad) : Quad :=
  let slots := (List.range 32).filter fun j => (f.writesA ||| f.writesB).getLsbD j
  { x with tags := slots.foldl (fun t j => tset (32 * sideNum w.sideB + j) (fillTag w) t) x.tags }

theorem State.matEffect_mfill {w : FillWord} (word : f.instr = .mfill w) : s.matEffect c f =
    ({ s with mem := writeRows (slotAt (quadOf c) (sideNum w.sideB) 0 f.abase) f.astr (fillRowBytes w) (fillRows w) s.mem }
      : State).updQuad (quadOf c) (f.tagSlots w) := by
  rw [State.matEffect, word]
  exact congrArg (State.updQuad · (quadOf c) (f.tagSlots w))
    (s.foldl_mem (fun row => slotAt (quadOf c) (sideNum w.sideB) 0 (f.abase + row * f.astr)) _ _ (fillRowBytes w)
      (fun row => slotAt_add ..) (fillRows w))

/-- The bytes of one row that a transfer sends. -/
def outRowBytes (w : OutWord) (rm : Rm) (x : Quad) (i : Nat) : List Byte :=
  (List.range 256).flatMap fun col => moutElem w rm (x.acc w.pl.toNat (w.row0.toNat + i) col)

theorem State.matEffect_mout {w : OutWord} {rm : Rm} (word : f.instr = .mout w rm) :
    EnginesStand s (s.matEffect c f) ∧ (s.matEffect c f).quads = s.quads ∧ (s.matEffect c f).mem =
      writeRows (arrayAt c f.soff) w.sstr.toNat (outRowBytes w rm (s.quad (quadOf c))) (outRows w) s.mem := by
  rw [State.matEffect, word]
  exact s.sendRows_spec c f.soff w.sstr.toNat (outRowBytes w rm) (outRows w)

/-- The element of a column in one row that a transfer brings. -/
def outElem (w : OutWord) (bs : List Byte) (col : Nat) : Dbl :=
  widen (ftyForm w.df) (leNat ((bs.drop (col * outEs w)).take (outEs w)))

theorem State.matEffect_maccld {w : OutWord} (word : f.instr = .maccld w) :
    ArrayOnly (quadOf c) s (s.matEffect c f) ∧ ∀ i, i < outRows w → ∀ col, col < 256 →
      ((s.matEffect c f).quad (quadOf c)).acc w.pl.toNat (w.row0.toNat + i) col =
        outElem w (s.readArray c (f.soff + i * w.sstr.toNat) (256 * outEs w)) col := by
  rw [State.matEffect, word]
  exact s.bringRows_spec c w.pl.toNat w.row0.toNat f.soff w.sstr.toNat (outElem w) (256 * outEs w) (outRows w)

theorem State.matEffect_mul {w : MulWord} {ks : Nat} {km : Bool} (word : mulOf f.instr = some (w, ks, km)) :
    s.matEffect c f = (s.arrayRun c f f.lastCycle).countOps c false f.meter f.ops := by
  rw [State.matEffect]
  cases i : f.instr with
  | mzero _ | mfillAcc _ _ | mfill _ | mout _ _ | maccld _ | mqry _ => simp [i, mulOf] at word
  | _ => rfl

/-! ## What every word leaves -/

theorem State.countOps_stands (vec : Bool) (meter n : Nat) :
    EnginesStand s (s.countOps c vec meter n) ∧ (s.countOps c vec meter n).quads = s.quads := by
  rw [State.countOps]
  split
  · exact ⟨.refl s, rfl⟩
  · rename_i t _
    have metered : EnginesStand s (s.meter t.fn meter n) ∧ (s.meter t.fn meter n).quads = s.quads := by
      rw [State.meter]
      split
      · exact ⟨.refl s, rfl⟩
      · exact ⟨.of_cores rfl rfl, rfl⟩
    exact ⟨metered.1.trans (.updCore _ c _ fun x => ⟨rfl, rfl, rfl, rfl⟩), metered.2⟩

/-- A word's effect leaves every engine and every other array. -/
theorem State.matEffect_stands : EnginesStand s (s.matEffect c f) ∧ ∀ n, n ≠ quadOf c → (s.matEffect c f).quad n = s.quad n := by
  have alone (t : State) (h : ArrayOnly (quadOf c) s t) : EnginesStand s t ∧ ∀ n, n ≠ quadOf c → t.quad n = s.quad n :=
    ⟨h.kept.1, h.others⟩
  cases word : f.instr with
  | mzero mask =>
    rw [s.matEffect_mzero c f word]
    exact alone _ (.updQuad ..)
  | mfillAcc pl v =>
    rw [s.matEffect_mfillAcc c f word]
    exact alone _ (.updQuad ..)
  | mfill w =>
    rw [s.matEffect_mfill c f word]
    exact ⟨.of_cores rfl rfl, fun n other => State.quad_updQuad_ne _ _ other⟩
  | mout w rm =>
    obtain ⟨stands, quads, -⟩ := s.matEffect_mout c f word
    exact ⟨stands, fun n _ => quad_of_quads quads n⟩
  | maccld w => exact alone _ (s.matEffect_maccld c f word).1
  | mqry soff =>
    rw [s.matEffect_mqry c f word]
    exact ⟨(EnginesStand.writeArray ..).trans (RowsStand.fireBlocks ..).toEnginesStand,
      fun n _ => quad_of_quads (State.fireBlocks_quads ..) n⟩
  | _ =>
    rw [State.matEffect, word]
    obtain ⟨ran, others⟩ := alone _ (s.arrayRun_array c f f.lastCycle)
    obtain ⟨counted, quads⟩ := (s.arrayRun c f f.lastCycle).countOps_stands c false f.meter f.ops
    exact ⟨ran.trans counted, fun n other => (quad_of_quads quads n).trans (others n other)⟩

end

end Sys2Proof.Machine
end

section
/-! SUPPORT. Completion of a matrix word (R27, R126, R261): every entry of its step runs, and the entries of the domains that are
not frozen leave. -/

namespace Sys2Proof.Machine

open Sys2Proof Sys2Proof.Safety

/-! ## A run and an end -/

/-- The entries of a word are done. -/
def Mat.markDone (wid : Nat) (m : Mat) : Mat :=
  { m with infl := m.infl.map fun g => if g.wid == wid then { g with done := true } else g }

/-- The entries of a word leave. -/
def Mat.drop (wid : Nat) (m : Mat) : Mat := { m with infl := m.infl.filter fun g => g.wid != wid }

theorem Mat.drop_markDone (wid : Nat) (m : Mat) : (m.markDone wid).drop wid = m.drop wid := by
  have entries (l : List MInfl) : (l.map fun g => if g.wid == wid then { g with done := true } else g).filter
      (fun g => g.wid != wid) = l.filter fun g => g.wid != wid := by
    induction l with
    | nil => rfl
    | cons g l ih =>
      rw [List.map_cons, List.filter_cons, List.filter_cons, ih]
      by_cases named : g.wid = wid <;> simp [named]
  exact congrArg (fun l => { m with infl := l }) (entries m.infl)

/-- Sequencers and freezes of every core are as they were. -/
structure SeqsStand (s t : State) : Prop where
  seqs : ∀ n, (t.core n).seq = (s.core n).seq
  freezes : ∀ n, (t.core n).freezes = (s.core n).freezes

theorem SeqsStand.refl (s : State) : SeqsStand s s := ⟨fun _ => rfl, fun _ => rfl⟩

theorem SeqsStand.trans {s t u : State} (h : SeqsStand s t) (k : SeqsStand t u) : SeqsStand s u :=
  ⟨fun n => (k.seqs n).trans (h.seqs n), fun n => (k.freezes n).trans (h.freezes n)⟩

theorem SeqsStand.foldl {α : Type} {g : State → α → State} (h : ∀ s a, SeqsStand s (g s a)) (l : List α) (s : State) :
    SeqsStand s (l.foldl g s) :=
  List.foldlRecOn l g (.refl s) fun _ before a _ => before.trans (h _ a)

section
variable {s : State} {m w : Nat} {f : MInfl}

theorem State.matOf_mem (found : s.matOf m w = some f) : f ∈ (s.core m).mat.infl ∧ f.wid = w :=
  ⟨List.mem_of_find?_eq_some found, by simpa using List.find?_some found⟩

theorem State.matRun_done (found : s.matOf m w = some f) (done : f.done = true) : s.matRun m w = s := by
  simp only [State.matRun, found, done, if_true]

theorem State.matRun_of (found : s.matOf m w = some f) (open_ : f.done = false) :
    s.matRun m w = (s.matEffect m f).updCore m fun x => { x with mat := x.mat.markDone w } := by
  simp only [State.matRun, found, open_, Bool.false_eq_true, if_false]
  rfl

end

section
variable (s : State) (m w : Nat)

theorem State.matRun_seqs : SeqsStand s (s.matRun m w) := by
  cases found : s.matOf m w with
  | none =>
    rw [State.matRun, found]
    exact .refl s
  | some f =>
    cases done : f.done with
    | true =>
      rw [State.matRun_done found done]
      exact .refl s
    | false =>
      rw [State.matRun_of found done]
      obtain ⟨stands, -⟩ := s.matEffect_stands m f
      refine SeqsStand.trans ⟨stands.seqs, stands.freezes⟩ ⟨fun n => ?_, fun n => ?_⟩
      all_goals
        by_cases here : n = m
        · rw [here, State.core_updCore]
        · rw [State.core_updCore_ne _ _ here]

/-- A run changes no engine but its own, where its entries are then done. -/
theorem State.matRun_mat (n : Nat) : ((s.matRun m w).core n).mat = (s.core n).mat
    ∨ ((s.matRun m w).core n).mat = (s.core n).mat.markDone w := by
  cases found : s.matOf m w with
  | none =>
    rw [State.matRun, found]
    exact .inl rfl
  | some f =>
    cases done : f.done with
    | true =>
      rw [State.matRun_done found done]
      exact .inl rfl
    | false =>
      rw [State.matRun_of found done]
      obtain ⟨stands, -⟩ := s.matEffect_stands m f
      by_cases here : n = m
      · rw [here, State.core_updCore]
        exact .inr (congrArg (Mat.markDone w) (stands.mats m))
      · rw [State.core_updCore_ne _ _ here]
        exact .inl (stands.mats n)

/-- An engine has an entry of a word. -/
def Mat.names (wid : Nat) (m : Mat) : Prop := ∃ h ∈ m.infl, h.wid = wid

/-- An engine has an entry of a word, and the entry is done. -/
def Mat.hasDone (wid : Nat) (m : Mat) : Prop := ∃ h ∈ m.infl, h.wid = wid ∧ h.done = true

variable {x : Mat} {v : Nat}

theorem Mat.mem_markDone {h : MInfl} (mem : h ∈ x.infl) : ∃ g ∈ (x.markDone w).infl, g.wid = h.wid
    ∧ (h.done = true ∨ h.wid = w → g.done = true) := by
  refine ⟨_, List.mem_map_of_mem mem, ?_⟩
  by_cases named : h.wid = w <;> simp [named]

theorem Mat.names_markDone (named : x.names v) : (x.markDone w).names v := by
  obtain ⟨h, mem, rfl⟩ := named
  obtain ⟨g, there, same, -⟩ := Mat.mem_markDone w mem
  exact ⟨g, there, same⟩

theorem Mat.hasDone_markDone (named : x.hasDone v) : (x.markDone w).hasDone v := by
  obtain ⟨h, mem, rfl, done⟩ := named
  obtain ⟨g, there, same, marked⟩ := Mat.mem_markDone w mem
  exact ⟨g, there, same, marked (.inl done)⟩

theorem Mat.markDone_hasDone (named : x.names w) : (x.markDone w).hasDone w := by
  obtain ⟨h, mem, rfl⟩ := named
  obtain ⟨g, there, same, marked⟩ := Mat.mem_markDone h.wid mem
  exact ⟨g, there, same, marked (.inr rfl)⟩

/-- An entry that has run is done. -/
theorem State.matRun_hasDone (named : (s.core m).mat.names w) : ((s.matRun m w).core m).mat.hasDone w := by
  obtain ⟨h, mem, named⟩ := named
  cases found : s.matOf m w with
  | none => exact absurd (beq_iff_eq.mpr named) (List.find?_eq_none.mp found h mem)
  | some f =>
    obtain ⟨there, same⟩ := State.matOf_mem found
    cases done : f.done with
    | true =>
      rw [State.matRun_done found done]
      exact ⟨f, there, same, done⟩
    | false =>
      rw [State.matRun_of found done, State.core_updCore]
      obtain ⟨stands, -⟩ := s.matEffect_stands m f
      rw [stands.mats]
      exact Mat.markDone_hasDone w ⟨h, mem, named⟩

theorem State.matOver_core (n : Nat) : ((s.matOver m w).core n).seq = (s.core n).seq
    ∧ ((s.matOver m w).core n).freezes = (s.core n).freezes
    ∧ ((s.matOver m w).core n).mat = if n = m then (s.core n).mat.drop w else (s.core n).mat := by
  by_cases here : n = m
  · rw [here, if_pos rfl, State.matOver, State.core_updCore]
    obtain ⟨tk, fl, shape⟩ := ({ s.core m with mat := (s.core m).mat.drop w } : Core).completeWord_shape .mat w
    exact ⟨(congrArg Core.seq shape :), (congrArg Core.freezes shape :), (congrArg Core.mat shape :)⟩
  · rw [if_neg here, State.matOver, State.core_updCore_ne _ _ here]
    exact ⟨rfl, rfl, rfl⟩

theorem State.matOver_seqs : SeqsStand s (s.matOver m w) :=
  ⟨fun n => (s.matOver_core m w n).1, fun n => (s.matOver_core m w n).2.1⟩

end

/-! ## A step is over -/

/-- The entry of a member is over, unless the domain is frozen or the entry is that of the core whose word completes. -/
def State.overAt (c : Nat) (s : State) (x : Nat × Nat) : State :=
  if (s.core x.1).freezes = [] ∧ x.1 ≠ c then s.matOver x.1 x.2 else s

section
variable (s : State) (c : Nat) (x : Nat × Nat)

theorem State.overAt_seqs : SeqsStand s (s.overAt c x) := by
  rw [State.overAt]
  split
  · exact s.matOver_seqs ..
  · exact .refl s

theorem State.overAt_kept {n : Nat} (kept : n = c ∨ (s.core n).freezes ≠ []) :
    ((s.overAt c x).core n).mat = (s.core n).mat := by
  rw [State.overAt]
  split
  · rename_i over_
    rw [(s.matOver_core ..).2.2, if_neg]
    rintro rfl
    exact kept.elim over_.2 (· over_.1)
  · rfl

theorem State.overAt_infl (n : Nat) : ∀ h ∈ ((s.overAt c x).core n).mat.infl, h ∈ (s.core n).mat.infl := by
  intro h mem
  rw [State.overAt] at mem
  split at mem
  · rw [(s.matOver_core ..).2.2] at mem
    split at mem
    · exact List.mem_of_mem_filter mem
    · exact mem
  · exact mem

theorem State.overAt_gone (awake : (s.core x.1).freezes = []) (other : x.1 ≠ c) :
    ∀ h ∈ ((s.overAt c x).core x.1).mat.infl, h.wid ≠ x.2 := by
  intro h mem
  rw [State.overAt, if_pos ⟨awake, other⟩, (s.matOver_core ..).2.2, if_pos rfl] at mem
  exact bne_iff_ne.mp (List.mem_filter.mp mem).2

end

section
variable {s : State} {c wid : Nat} {f : MInfl} (found : s.matOf c wid = some f)
include found

/-- The entries of the word's step have run. -/
theorem State.matRuns_eq : s.matRuns c wid = (s.stepOf c f).foldl (fun s x => s.matRun x.1 x.2) s := by
  rw [State.matRuns, found]

theorem State.matComplete_eq :
    s.matComplete c wid = (s.stepOf c f).foldl (State.overAt c) ((s.matRuns c wid).matOver c wid) := by
  rw [State.matComplete, found]
  rfl

theorem State.matRuns_seqs : SeqsStand s (s.matRuns c wid) := by
  rw [State.matRuns_eq found]
  exact SeqsStand.foldl (fun s (x : Nat × Nat) => s.matRun_seqs x.1 x.2) _ s

theorem State.matComplete_seqs : SeqsStand s (s.matComplete c wid) := by
  rw [State.matComplete_eq found]
  exact (State.matRuns_seqs found).trans
    ((State.matOver_seqs ..).trans (SeqsStand.foldl (fun s x => s.overAt_seqs c x) _ _))

/-- The word has left its engine. -/
theorem State.matComplete_gone : ∀ g ∈ ((s.matComplete c wid).core c).mat.infl, g.wid ≠ wid := by
  rw [State.matComplete_eq found]
  refine List.foldlRecOn (motive := fun t : State => ∀ g ∈ (t.core c).mat.infl, g.wid ≠ wid) _ _ ?_ fun t gone x _ => ?_
  · rw [(State.matOver_core ..).2.2, if_pos rfl]
    exact fun g mem => bne_iff_ne.mp (List.mem_filter.mp mem).2
  · rw [t.overAt_kept c x (.inl rfl)]
    exact gone

/-- A word of no gang completes alone. -/
theorem State.matComplete_alone (alone : f.gangWord = false) : s.matComplete c wid = (s.matRun c wid).matOver c wid := by
  obtain ⟨-, rfl⟩ := State.matOf_mem found
  have step : s.stepOf c f = [(c, f.wid)] := by rw [State.stepOf, alone]; rfl
  rw [State.matComplete_eq found, State.matRuns_eq found, step, List.foldl_cons, List.foldl_nil, List.foldl_cons,
    List.foldl_nil, State.overAt, if_neg (fun over_ => over_.2 rfl)]

section
variable {n : Nat} {g : MInfl} (gang : f.gangWord = true) (member : n ∈ ((s.core c).task.map (·.members)).getD [c])
  (other : n ≠ c) (entry : ((s.core n).mat.infl.find? fun g => g.gangWord && g.step == f.step) = some g)
include gang member entry

omit found in
theorem State.mem_stepOf : (n, g.wid) ∈ s.stepOf c f := by
  rw [State.stepOf, gang, if_pos rfl]
  exact List.mem_filterMap.mpr ⟨n, member, by rw [entry]; rfl⟩

include other

/-- A member's entry leaves with the word, when its domain is not frozen. -/
theorem State.matComplete_member_gone (awake : (s.core n).freezes = []) :
    ∀ h ∈ ((s.matComplete c wid).core n).mat.infl, h.wid ≠ g.wid := by
  have before : ((s.matRuns c wid).matOver c wid |>.core n).freezes = [] := by
    rw [(State.matOver_seqs ..).freezes, (State.matRuns_seqs found).freezes, awake]
  rw [State.matComplete_eq found]
  exact foldl_brings (I := fun t : State => (t.core n).freezes = [])
    (P := fun t : State => ∀ h ∈ (t.core n).mat.infl, h.wid ≠ g.wid)
    (fun t x awake => ((t.overAt_seqs c x).freezes n).trans awake)
    (fun t x _ gone h mem => gone h (t.overAt_infl c x n h mem))
    (fun t awake => t.overAt_gone c (n, g.wid) awake other) _ (State.mem_stepOf gang member entry) _ before

/-- A member's entry is done, when its domain is frozen. -/
theorem State.matComplete_member_done (frozen : (s.core n).freezes ≠ []) :
    ∃ h ∈ ((s.matComplete c wid).core n).mat.infl, h.wid = g.wid ∧ h.done = true := by
  have ran : ((s.matRuns c wid).core n).freezes ≠ [] ∧ ((s.matRuns c wid).core n).mat.hasDone g.wid := by
    refine ⟨by rwa [(State.matRuns_seqs found).freezes], ?_⟩
    rw [State.matRuns_eq found]
    refine foldl_brings (g := fun (s : State) (x : Nat × Nat) => s.matRun x.1 x.2) (a := (n, g.wid))
      (I := fun t : State => (t.core n).mat.names g.wid) (P := fun t : State => (t.core n).mat.hasDone g.wid)
      (fun t x named => ?_) (fun t x _ done => ?_) (fun t named => t.matRun_hasDone n g.wid named) _
      (State.mem_stepOf gang member entry) s ⟨g, List.mem_of_find?_eq_some entry, rfl⟩
    · rcases t.matRun_mat x.1 x.2 n with same | marked
      · rwa [same]
      · rw [marked]
        exact Mat.names_markDone _ named
    · rcases t.matRun_mat x.1 x.2 n with same | marked
      · rwa [same]
      · rw [marked]
        exact Mat.hasDone_markDone _ done
  rw [State.matComplete_eq found]
  have kept : ((s.stepOf c f).foldl (State.overAt c) ((s.matRuns c wid).matOver c wid) |>.core n).freezes ≠ []
      ∧ ((s.stepOf c f).foldl (State.overAt c) ((s.matRuns c wid).matOver c wid) |>.core n).mat.hasDone g.wid := by
    refine List.foldlRecOn (motive := fun t : State => (t.core n).freezes ≠ [] ∧ (t.core n).mat.hasDone g.wid) _ _ ?_
      fun t done x _ => ?_
    · rw [(State.matOver_seqs ..).freezes, (State.matOver_core ..).2.2, if_neg other]
      exact ran
    · rw [(t.overAt_seqs c x).freezes, t.overAt_kept c x (.inr done.1)]
      exact done
  exact kept.2

end

end

end Sys2Proof.Machine
end

section
/-! SUPPORT. The state in which a word of no gang has completed (R252 to R256): what each instruction has written. -/

namespace Sys2Proof.Machine

open Sys2Proof Sys2Proof.Safety

/-- Memory and arrays are as they were. -/
structure StoreStands (s t : State) : Prop where
  kept : MemoryKept s t
  mem : t.mem = s.mem
  quads : t.quads = s.quads

theorem StoreStands.updCore (s : State) (c : Nat) (g : Core → Core) : StoreStands s (s.updCore c g) :=
  ⟨s.updCore_memory c g, rfl, rfl⟩

theorem StoreStands.trans {s t u : State} (h : StoreStands s t) (k : StoreStands t u) : StoreStands s u :=
  ⟨MemoryKept.trans h.kept k.kept, k.mem.trans h.mem, k.quads.trans h.quads⟩

section
variable {s : State} {c wid : Nat} {f : MInfl} (found : s.matOf c wid = some f) (alone : f.gangWord = false)
include found alone

theorem State.matComplete_of_done (done : f.done = true) :
    StoreStands s (s.matComplete c wid) ∧ ((s.matComplete c wid).core c).mat = (s.core c).mat.drop wid := by
  rw [State.matComplete_alone found alone, State.matRun_done found done]
  exact ⟨.updCore .., by rw [(State.matOver_core ..).2.2, if_pos rfl]⟩

theorem State.matComplete_of_open (open_ : f.done = false) : StoreStands (s.matEffect c f) (s.matComplete c wid)
    ∧ ((s.matComplete c wid).core c).mat = (s.core c).mat.drop wid := by
  rw [State.matComplete_alone found alone, State.matRun_of found open_]
  refine ⟨(StoreStands.updCore ..).trans (.updCore ..), ?_⟩
  rw [(State.matOver_core ..).2.2, if_pos rfl, State.core_updCore]
  exact (Mat.drop_markDone wid _).trans (congrArg (Mat.drop wid) ((s.matEffect_stands c f).1.mats c))

end

theorem outRowBytes_length (w : OutWord) (rm : Rm) (x : Quad) (i : Nat) : (outRowBytes w rm x i).length = 256 * outEs w := by
  simp only [outRowBytes, moutElem, List.length_flatMap, leBytes_length, List.map_const', List.length_range,
    List.sum_replicate, smul_eq_mul]

section
variable {s t : State} {c : Nat} {f : MInfl} (stored : StoreStands (s.matEffect c f) t)
include stored

theorem mzero_written {mask : Byte} (word : f.instr = .mzero mask) :
    MemoryKept s t ∧ t.quad (quadOf c) = (s.quad (quadOf c)).fillPlanes mask 0 := by
  obtain ⟨kept, -, quads⟩ := stored
  rw [s.matEffect_mzero c f word] at kept quads
  exact ⟨MemoryKept.trans (ArrayOnly.updQuad ..).kept.2 kept, by rw [quad_of_quads quads, State.quad_updQuad]⟩

theorem mfillAcc_written {pl : BitVec 3} {v : BitVec 16} (word : f.instr = .mfillAcc pl v) : MemoryKept s t
    ∧ t.quad (quadOf c) = (s.quad (quadOf c)).fillPlanes (BitVec.twoPow 8 pl.toNat) (widen formBf16 v.toNat) := by
  obtain ⟨kept, -, quads⟩ := stored
  rw [s.matEffect_mfillAcc c f word] at kept quads
  exact ⟨MemoryKept.trans (ArrayOnly.updQuad ..).kept.2 kept, by rw [quad_of_quads quads, State.quad_updQuad]⟩

theorem mqry_written {soff : BitVec 19} (word : f.instr = .mqry soff) (wf : Memory.wf s.mem = true) : t.quads = s.quads
    ∧ (∀ i, i < f.out.length → memRead t.mem (arrayAt c (f.soff + i)) = f.out.getD i 0)
    ∧ ∀ a, a < arrayAt c f.soff ∨ arrayAt c (f.soff + f.out.length) ≤ a → memRead t.mem a = memRead s.mem a := by
  obtain ⟨-, mem, quads⟩ := stored
  rw [s.matEffect_mqry c f word] at mem quads
  rw [(Quiet.fireBlocks ..).mem.1] at mem
  refine ⟨quads.trans (State.fireBlocks_quads ..), fun i inside => ?_, fun a outside => ?_⟩
  · rw [mem, arrayAt_add]
    exact memRead_memWrites_inside wf inside
  · rw [arrayAt_add] at outside
    rw [mem]
    exact memRead_memWrites_outside wf outside

theorem mfill_written {w : FillWord} (word : f.instr = .mfill w) (wf : Memory.wf s.mem = true) :
    (fillRowLen w ≤ f.astr → ∀ row, row < fillRows w → ∀ i, i < fillRowLen w →
      memRead t.mem (slotAt (quadOf c) (sideNum w.sideB) 0 (f.abase + row * f.astr + i)) = (fillRowBytes w row).getD i 0)
    ∧ (∀ a, (∀ row, row < fillRows w → ∀ i, i < fillRowLen w →
        a ≠ slotAt (quadOf c) (sideNum w.sideB) 0 (f.abase + row * f.astr + i)) → memRead t.mem a = memRead s.mem a)
    ∧ (∀ j, j < 32 → (f.writesA ||| f.writesB).getLsbD j = true →
      (t.quad (quadOf c)).tag (sideNum w.sideB) j = ⟨fillCode w.fmt, w.blk, false, false, w.nc⟩)
    ∧ (t.quad (quadOf c)).planes = (s.quad (quadOf c)).planes := by
  obtain ⟨-, mem, quads⟩ := stored
  rw [s.matEffect_mfill c f word] at mem quads
  have array : t.quad (quadOf c) = f.tagSlots w (s.quad (quadOf c)) := (quad_of_quads quads _).trans (State.quad_updQuad ..)
  rw [mem, array]
  refine ⟨fun apart row there i inside => ?_, fun a outside => ?_, fun j slot named => ?_, rfl⟩
  · rw [slotAt_add, slotAt_add]
    exact memRead_writeRows wf (fillRowBytes_length w) apart there inside
  · refine memRead_writeRows_outside wf fun row there i inside => ?_
    rw [← slotAt_add, ← slotAt_add]
    exact outside row there i (fillRowBytes_length w row ▸ inside)
  · exact tget_foldl_tset (fun j => 32 * sideNum w.sideB + j) (fillTag w) Tag.reset _
      (List.mem_filter.mpr ⟨List.mem_range.mpr slot, named⟩) _

theorem mout_written {w : OutWord} {rm : Rm} (word : f.instr = .mout w rm) (wf : Memory.wf s.mem = true) :
    t.quads = s.quads
    ∧ (256 * outEs w ≤ w.sstr.toNat → ∀ i, i < outRows w → ∀ col, col < 256 → ∀ b, b < outEs w →
      memRead t.mem (arrayAt c (f.soff + i * w.sstr.toNat + (col * outEs w + b))) = (moutElem w rm
        ((s.quad (quadOf c)).acc w.pl.toNat (w.row0.toNat + i) col)).getD b 0)
    ∧ ∀ a, (∀ i, i < outRows w → ∀ j, j < 256 * outEs w → a ≠ arrayAt c (f.soff + i * w.sstr.toNat + j)) →
      memRead t.mem a = memRead s.mem a := by
  obtain ⟨-, mem, quads⟩ := stored
  obtain ⟨-, same, written⟩ := s.matEffect_mout c f word
  rw [mem, written]
  refine ⟨quads.trans same, fun apart i there col inside b byte => ?_, fun a outside => ?_⟩
  · have last : col * outEs w + b < 256 * outEs w := by
      have far := Nat.mul_le_mul_right (outEs w) (Nat.succ_le_of_lt inside)
      rw [Nat.succ_mul] at far
      omega
    rw [arrayAt_add, arrayAt_add, memRead_writeRows wf (outRowBytes_length w rm _) apart there last]
    exact flatMap_getD _ (fun _ => leBytes_length ..) 256 inside byte
  · refine memRead_writeRows_outside wf fun i there j inside => ?_
    rw [← arrayAt_add, ← arrayAt_add]
    exact outside i there j (outRowBytes_length w rm _ i ▸ inside)

theorem maccld_written {w : OutWord} (word : f.instr = .maccld w) : MemoryKept s t
    ∧ ∀ i, i < outRows w → ∀ col, col < 256 → (t.quad (quadOf c)).acc w.pl.toNat (w.row0.toNat + i) col
      = widen (ftyForm w.df) (leNat (memReads s.mem (arrayAt c (f.soff + i * w.sstr.toNat + col * outEs w)) (outEs w))) := by
  obtain ⟨only, written⟩ := s.matEffect_maccld c f word
  refine ⟨MemoryKept.trans only.kept.2 stored.kept, fun i there col inside => ?_⟩
  have far := Nat.mul_le_mul_right (outEs w) (Nat.succ_le_of_lt inside)
  rw [Nat.succ_mul] at far
  rw [quad_of_quads stored.quads, written i there col inside, outElem, State.readArray, memReads_slice _ _ _ _ _ far,
    ← arrayAt_add]

theorem mul_written {w : MulWord} {ks : Nat} {km : Bool} (word : mulOf f.instr = some (w, ks, km)) : MemoryKept s t
    ∧ ∀ r, r < 128 → ∀ col, col < 256 →
      (f.elapsed = 0 → ∀ j, j < f.tab.n → (t.quad (quadOf c)).acc (w.pg.toNat + j) r col =
        (s.mulSums (quadOf c) f w ks km r col ((s.quad (quadOf c)).group w.pg.toNat f.tab.n r col)).getD j 0)
      ∧ ∀ n, n < w.pg.toNat ∨ w.pg.toNat + f.tab.n ≤ n → (t.quad (quadOf c)).acc n r col = (s.quad (quadOf c)).acc n r col := by
  obtain ⟨kept, -, quads⟩ := stored
  rw [s.matEffect_mul c f word] at kept quads
  have counted := (State.countOps_shape (s.arrayRun c f f.lastCycle) c false f.meter f.ops).2
  have array : t.quad (quadOf c) = (s.arrayRun c f f.lastCycle).quad (quadOf c) :=
    (quad_of_quads quads _).trans (quad_of_quads (State.countOps_stands ..).2 _)
  rw [array]
  exact ⟨MemoryKept.trans (MemoryKept.trans (s.arrayRun_array c f _).kept.2 counted) kept, fun r row col inside =>
    ⟨fun fresh j there => s.acc_arrayRun c f word fresh row inside there,
      fun n outside => s.acc_arrayRun_ne c f _ word row inside outside⟩⟩

end

end Sys2Proof.Machine
end

section
/-! SUPPORT. The statement about the matrix words, from the words' own rules. -/

namespace Sys2Proof.Machine

open Sys2Proof Sys2Proof.Safety

/-- A word that stands in flight completes when its turn has come. -/
theorem matComplete_runs {s : State} {c wid : Nat} {f : MInfl} (awake : (s.core c).freezes = [])
    (found : s.matOf c wid = some f) (back : (s.core c).mat.reclaims = [])
    (turn : f.done = true ∨ isMul f.instr = false
      ∨ ∀ g ∈ (s.core c).mat.infl.takeWhile (fun g => g.wid != wid), isMul g.instr = false)
    (together : f.done = true ∨ f.gangWord = false
      ∨ ∀ k, (s.core c).task = some k → ∀ n ∈ k.members, (s.core n).mat.reclaims = []) :
    exec (.engineWordComplete c .mat wid) s = .next (s.matComplete c wid) := by
  have ordered : (f.done || !isMul f.instr
      || !((s.core c).mat.infl.takeWhile fun g => g.wid != wid).any fun g => isMul g.instr) = true := by
    rcases turn with done | other | first
    · rw [done]; rfl
    · rw [other, Bool.not_false, Bool.or_true, Bool.true_or]
    · rw [List.any_eq_false.mpr fun g mem => Bool.eq_false_iff.mp (first g mem), Bool.not_false, Bool.or_true]
  have members : (f.done || !f.gangWord || (s.core c).task.all fun t => t.members.all fun m =>
      (s.core m).mat.reclaims == []) = true := by
    rcases together with done | alone | all
    · rw [done]; rfl
    · rw [alone, Bool.not_false, Bool.or_true, Bool.true_or]
    · cases task : (s.core c).task with
      | none => rw [Option.all_none, Bool.or_true]
      | some k =>
        rw [Option.all_some, List.all_eq_true.mpr fun n mem => beq_iff_eq.mpr (all k task n mem), Bool.or_true]
  have can : canMatComplete c wid s = true := by
    simp only [canMatComplete, found, awake, back, ordered, members, beq_self_eq_true, Bool.and_self]
  simp only [exec, execEngineWordComplete, canEngineWordComplete, can, awake, Bool.true_or, if_true]

/-- Settles O57: the words as they issue, by their own rules; the claims as they are granted; the completion of a word, by the
runs of the entries of its step and the effect of its own entry. -/
theorem matrixWords : Obligations.MatrixWords := by
  refine ⟨fun s k t cmd task _ => ?_, fun s c here => ⟨?_, ?_⟩, fun s c wid f awake found => ?_⟩
  · refine ⟨matEnds_of cmd s.quads rfl, munlease_spec cmd, fun _ _ => matEnds_of cmd s.quads rfl,
      fun _ _ _ _ => mtabSlot_ends cmd, fun _ _ => mrel_ends cmd, fun _ _ => mclaim_spec cmd task,
      fun _ _ => mclaim_waits, matEnds_id cmd ?_, fun _ => mzero_stands cmd, fun _ _ => mfillAcc_stands cmd,
      fun w free inside aligned comp slots => ?_, fun _ _ _ => mout_stands cmd task, fun _ _ => maccld_stands cmd task,
      fun _ => mqry_stands cmd task rfl, fun w => ⟨fun alone => ⟨?_, ?_, ?_⟩, fun i ks km word gang stands distinct ready => ?_⟩,
      mgang_formed cmd task, mungang_alone cmd, msync_alone cmd,
      fun many alone stands => mgang_forms task stands many alone,
      fun gang stands => mungang_dissolves task stands gang,
      fun gang stands => msync_steps task stands gang⟩
    · simp only [exec, execMzero, cmd, if_true]
    · exact mfill_stands cmd w rfl free inside aligned comp slots
    · exact fun g ⟨geom, ok, free⟩ => mul_stands geom ok cmd rfl alone free
    · exact fun k4 g ⟨geom, ok, free⟩ => mul_stands geom ok cmd rfl alone free
    · exact fun g ⟨geom, ok, free⟩ => mul_stands geom ok cmd rfl alone free
    · refine gangMul_spec task stands gang ready distinct ?_
      rcases word with ⟨rfl, rfl, rfl⟩ | ⟨k4, rfl, rfl, rfl⟩ | ⟨rfl, rfl, rfl⟩ <;> rfl
  · exact fun side mask u settled waits word free => claimGranted_waiting here settled waits word free
  · exact fun some_ running free => claimGranted_reclaims here some_ running free
  · intro m q members back turn together
    refine ⟨s.matComplete c wid, matComplete_runs awake found back turn together, (State.matComplete_seqs found).seqs c,
      State.matComplete_gone found, fun gang n member other g entry => ⟨?_, ?_⟩, fun alone => ?_⟩
    · exact State.matComplete_member_gone found gang member other entry
    · exact State.matComplete_member_done found gang member other entry
    cases done : f.done with
    | true =>
      obtain ⟨stored, mat⟩ := State.matComplete_of_done found alone done
      exact ⟨mat, fun _ => ⟨stored.kept, stored.quads⟩, fun open_ => absurd open_ Bool.noConfusion⟩
    | false =>
      obtain ⟨stored, mat⟩ := State.matComplete_of_open found alone done
      refine ⟨mat, fun done => absurd done Bool.noConfusion, fun _ => ⟨fun n other => ?_, fun _ => mzero_written stored,
        fun _ _ => mfillAcc_written stored, fun _ => mqry_written stored, fun _ => mfill_written stored,
        fun _ _ => mout_written stored, fun _ => maccld_written stored, fun w ks km word => ?_⟩⟩
      · exact (quad_of_quads stored.quads n).trans ((s.matEffect_stands c f).2 n other)
      · obtain ⟨kept, sums⟩ := mul_written stored word
        refine ⟨kept, fun fresh r row col inside => ⟨fun j there => ((sums r row col inside).1 fresh j there).trans ?_,
          fun n _ => (sums r row col inside).2 n⟩⟩
        rw [State.mulSums]
        cases fmtMx (tagFmt f.atag) <;> cases fmtMx (tagFmt f.btag) <;> rfl

end Sys2Proof.Machine
end

section
/-! SUPPORT. The atomics of the sequencer (R92, R127, R281, R283): the operation that a word sends to the home of its bytes,
and the landing entry that takes its old value. -/

namespace Sys2Proof.Machine

open Sys2Proof Sys2Proof.Safety

/-- A state in which an atomic on `s` issues, its address looked up in `r`: the probe line of its block is written back and
the task is irrevocable. -/
structure AtomicView (s r u : State) : Prop where
  cur : u.cur = s.cur
  seq : u.seq s.cur.core = s.seq s.cur.core
  memory : MemoryKept r u
  irrevocable : (u.core s.cur.core).task.all (·.irrevocable) = true

theorem State.irrevocable_task (s : State) : (s.irrevocable.core s.cur.core).task.all (·.irrevocable) = true := by
  rw [State.irrevocable, State.core_updCore]
  cases (s.core s.cur.core).task <;> rfl

theorem Flushed.seq {s t : State} (h : Flushed s t) (k : Nat) : t.seq k = s.seq k := by
  obtain ⟨_, shape⟩ := h.cores k
  rw [State.seq, State.seq, shape]

theorem AtomicView.flushed {s r : State} (looked : Looked s r) (a : Dbl) : AtomicView s r (r.flushBlock a).irrevocable := by
  have flushed := Flushed.flushBlock r a
  obtain ⟨kept, cur⟩ := flushed.kept
  have here : (r.flushBlock a).cur = s.cur := cur.trans (Looked.cur looked)
  have irrevocable := (r.flushBlock a).irrevocable_task
  rw [here] at irrevocable
  exact ⟨here, ((r.flushBlock a).irrevocable_seq _).trans ((flushed.seq _).trans (Looked.seq looked _)),
    MemoryKept.trans kept ⟨fun _ => rfl, rfl, rfl, rfl⟩, irrevocable⟩

/-! ## The word issues and sends -/

/-- The word issues; one that lands takes its entry. -/
def State.atomicIssued (u : State) (f : AtomicForm) (a : Dbl) : State :=
  match f.lands with
  | some (kind, d, slot) => u.land f.reads kind a d slot none []
  | none => u.issueOpen f.reads

/-- The request of an atomic that issues as word `wid`. -/
def State.atomicRequest (w : State) (f : AtomicForm) (a : Dbl) (pa wid : Nat) : Req :=
  w.scalarReq (.atomic w.cur.core (if f.lands.isSome then some wid else none) wid w.cur.addr)
    (.atomic f.op f.ty f.value f.other f.sc) pa (atSize f.op f.ty) 2 a

/-- The operation leaves for its home, and is the core's last atomic. -/
def State.atomicSent (w : State) (f : AtomicForm) (q : Req) : State :=
  (if f.op = .ld && !f.sc then w.sendRead q else w.send q).updSeq w.cur.core fun x => { x with atomicReq := some w.nextId }

/-- What is sent is the request under the next number; a read may go through a replica. -/
theorem State.atomicSent_shape (w : State) (f : AtomicForm) (q : Req) :
    ∃ d, w.atomicSent f q =
      ({ w with reqs := w.reqs ++ [{ q with id := w.nextId, replicaOf := d }], nextId := w.nextId + 1 } : State).updSeq w.cur.core
        fun x => { x with atomicReq := some w.nextId } := by
  unfold State.atomicSent
  split
  · exact ⟨_, rfl⟩
  · exact ⟨_, rfl⟩

theorem State.atomicSent_core (w : State) (f : AtomicForm) (q : Req) : (w.atomicSent f q).core w.cur.core =
    { w.core w.cur.core with seq := { w.seq w.cur.core with atomicReq := some w.nextId } } := by
  obtain ⟨d, shape⟩ := w.atomicSent_shape f q
  rw [shape, State.core_updSeq]
  rfl

theorem Task.all_irrevocable_of_wd {o p : Option Task} (same : (p.map fun t => { t with wd := 0 }) = o.map fun t => { t with wd := 0 })
    (h : o.all (·.irrevocable) = true) : p.all (·.irrevocable) = true := by
  have all (t : Option Task) : (t.map fun t => { t with wd := 0 }).all (·.irrevocable) = t.all (·.irrevocable) := by cases t <;> rfl
  rw [← all, same, all, h]

/-- What the issue of an atomic leaves, whether or not it takes an entry. -/
theorem AtomicView.issued {s r u : State} (h : AtomicView s r u) (f : AtomicForm) (a : Dbl) :
    let w := u.atomicIssued f a
    w.cur = s.cur ∧ (w.seq s.cur.core).pc = s.nextPc ∧ (w.seq s.cur.core).belt = (s.seq s.cur.core).belt
      ∧ (w.seq s.cur.core).named = (s.seq s.cur.core).named ∧ (w.core s.cur.core).task.all (·.irrevocable) = true
      ∧ MemoryKept r w
      ∧ (f.lands = none → (w.seq s.cur.core).landing = (s.seq s.cur.core).landing)
      ∧ ∀ k d slot, f.lands = some (k, d, slot) → ∃ e : Landing, (w.seq s.cur.core).landing = (s.seq s.cur.core).landing ++ [e]
          ∧ e.id = u.nextId ∧ e.wid = u.nextId ∧ e.kind = k ∧ e.dest = d ∧ e.due = (s.seq s.cur.core).cyc + slot
          ∧ e.arrived = false := by
  intro w
  have next : u.nextPc = s.nextPc := by rw [State.nextPc, State.nextPc, h.cur]
  cases lands : f.lands with
  | none =>
    have issued := u.retired_issueOpen f.reads
    rw [show u.issueOpen f.reads = w by simp only [w, State.atomicIssued, lands]] at issued
    obtain ⟨pc, -, -, wrote, special, engines, -, memory, outside⟩ := issued
    rw [h.cur] at pc wrote special engines
    simp only [id, ← State.seq.eq_1, h.seq] at wrote special
    exact ⟨outside.cur.trans h.cur, pc.trans next, wrote.belt, wrote.named, Task.all_irrevocable_of_wd engines.task h.irrevocable,
      MemoryKept.trans h.memory memory, fun _ => special.flight.1, fun _ _ _ lands => nomatch lands⟩
  | some p =>
    obtain ⟨k, d, slot⟩ := p
    obtain ⟨e, issued, id, wid, kind, -, due, dest, arrived, -⟩ := u.retired_land f.reads k a d slot none []
    rw [show u.land f.reads k a d slot none [] = w by simp only [w, State.atomicIssued, lands]] at issued
    obtain ⟨pc, -, -, wrote, special, engines, -, memory, outside⟩ := issued
    rw [h.cur] at pc wrote special engines due
    simp only [← State.seq.eq_1, h.seq] at wrote special due
    refine ⟨outside.cur.trans h.cur, pc.trans next, wrote.belt, wrote.named, Task.all_irrevocable_of_wd engines.task h.irrevocable,
      MemoryKept.trans h.memory memory, (nomatch ·), fun k' d' slot' same => ?_⟩
    cases same
    exact ⟨e, special.flight.1, id, wid, kind, dest, due, arrived⟩

/-! ## The words of the table -/

theorem hostAtomic_iff (op : AtOp) :
    hostAtomic op = true ↔ op = .ld ∨ op = .st ∨ op = .add ∨ op = .swp ∨ op = .cas ∨ op = .cas128 := by
  cases op <;> decide

theorem atNeed_eq (op : AtOp) : atNeed op = if op = .ld then Need.atomicRead else Need.atomicRmw := by cases op <;> rfl

theorem atKinds_eq (op : AtOp) : atKinds op = if op = .ld then [.rd, .rw, .atom] else [.rw, .atom] := by cases op <;> rfl

/-- An atomic that passes its checks writes back its block's line, issues, and sends its operation. -/
theorem State.atomic_passes {s r : State} {f : AtomicForm} {pa : Nat} {v x : State → BitVec 128} (fresh : Fresh s f.reads)
    (ordinary : Ordinary s s.cur.core) (looked : Looked s r)
    (there : s.scalar (operand s f.addr) (atSize f.op f.ty) (atNeed f.op) (atKinds f.op) = (r, .ok pa))
    (takes : isHost pa = true → hostAtomic f.op = true) (free : (s.seq s.cur.core).atomicReq = none)
    (room : f.lands ≠ none → (s.seq s.cur.core).landing.length < 16) (settled : r.linePending (operand s f.addr) = false)
    (value : v r = f.value) (other : x r = f.other) :
    ∃ u, AtomicView s r u ∧ s.atomic f.addr f.reads f.op f.ty f.sc v x f.lands = (u.atomicIssued f (operand s f.addr)).atomicSent f
      ((u.atomicIssued f (operand s f.addr)).atomicRequest f (operand s f.addr) pa u.nextId) := by
  have host : (isHost pa && !hostAtomic f.op) = false := by
    cases h : isHost pa with
    | false => rfl
    | true => rw [takes h]; rfl
  have full : (f.lands.isSome && decide (16 ≤ (r.seq s.cur.core).landing.length)) = false := by
    cases lands : f.lands with
    | none => rfl
    | some p =>
      have := room (by rw [lands]; exact Option.some_ne_none p)
      simpa [Looked.seq looked] using this
  have last : (r.seq s.cur.core).atomicReq.isSome = false := by rw [Looked.seq looked, free]; rfl
  have view := AtomicView.flushed looked (operand s f.addr)
  refine ⟨_, view, ?_⟩
  simp only [State.atomic, State.withOperands_fresh fresh, State.impure_ordinary ordinary, State.opd_eq_operand, there, host, last,
    full, settled, Bool.false_eq_true, if_false, value, other, State.atomicSent, State.atomicRequest, (view.issued f _).1]
  rw [← (view.issued f (operand s f.addr)).1, State.atomicIssued] <;> cases f.lands <;> rfl

theorem wide_eq {s r : State} (same : ∀ a, operand r a = operand s a) (a : Src) : r.wide a = (operand s a).setWidth 128 := by
  rw [State.wide, State.opd_eq_operand, same]

/-- The names of a quad's halves are its registers' numbers. -/
theorem pair_eq {s r : State} (same : ∀ a, operand r a = operand s a) {k : Nat} (small : k < 15) :
    r.pair k = quadOperand s k := by
  have low : (BitVec.ofNat 4 k).toNat = k := by rw [BitVec.toNat_ofNat, Nat.mod_eq_of_lt (by omega)]
  have high : (BitVec.ofNat 4 (k + 1)).toNat = k + 1 := by rw [BitVec.toNat_ofNat, Nat.mod_eq_of_lt (by omega)]
  rw [State.pair, State.opd_eq_operand, State.opd_eq_operand, same, same, operand, operand, low, high, quadOperand]

/-- Each word of the table is the one operation `State.atomic` with its form. -/
theorem exec_atomicForm {s : State} {i : Instr} {f : AtomicForm} (form : atomicForm s i = some f) :
    ∃ v x : State → BitVec 128, exec i s = .next (s.atomic f.addr f.reads f.op f.ty f.sc v x f.lands)
      ∧ ∀ r : State, (∀ a, operand r a = operand s a) → v r = f.value ∧ x r = f.other := by
  unfold atomicForm at form
  split at form
  case h_1 => cases form; exact ⟨_, _, rfl, fun r same => ⟨rfl, rfl⟩⟩
  case h_13 => cases form; exact ⟨_, _, rfl, fun r same => ⟨wide_eq same _, wide_eq same _⟩⟩
  case h_14 k _ _ d sc n =>
    have := k.isLt
    cases form
    exact ⟨_, _, rfl, fun r same => ⟨pair_eq same (by omega), pair_eq same (by omega)⟩⟩
  case h_15 => cases form
  all_goals
    cases form
    exact ⟨_, _, rfl, fun r same => ⟨wide_eq same _, rfl⟩⟩

/-- Settles O20: the word's form gives its operation, and `State.atomic_passes` the state it leaves. -/
theorem atomicWords : Obligations.AtomicWords := by
  intro s r i f pa form fresh ordinary c a n there host free room settled
  have size : n = atSize f.op f.ty := rfl
  have looked : Looked s r := by
    have h := s.scalar_looked a n (if f.op = .ld then Need.atomicRead else Need.atomicRmw)
      (if f.op = .ld then [.rd, .rw, .atom] else [.rw, .atom])
    rwa [there] at h
  have pending : r.linePending a = false := by
    rw [State.linePending]
    cases line : r.scalarLine a with
    | none => rfl
    | some l => simpa using settled l line
  have same (b : Src) : operand r b = operand s b := by
    rw [← State.opd_eq_operand, ← State.opd_eq_operand, State.opd, State.opd, Looked.cur looked, Looked.seq looked]
  rw [size, ← atNeed_eq, ← atKinds_eq] at there
  obtain ⟨v, x, run, values⟩ := exec_atomicForm form
  obtain ⟨value, other⟩ := values r same
  obtain ⟨u, view, passes⟩ := State.atomic_passes fresh ordinary looked there (fun h => (hostAtomic_iff _).mpr (host h)) free room
    pending value other
  obtain ⟨cur, pc, belt, named, irrevocable, memory, alone, lands⟩ := view.issued f a
  rw [show operand s f.addr = a from rfl] at passes
  generalize u.atomicIssued f a = w at passes cur pc belt named irrevocable memory alone lands
  obtain ⟨d, shape⟩ := w.atomicSent_shape f (w.atomicRequest f a pa u.nextId)
  have core := w.atomicSent_core f (w.atomicRequest f a pa u.nextId)
  rw [cur] at core
  have seq := congrArg Core.seq core
  refine ⟨looked, _, { w.atomicRequest f a pa u.nextId with id := w.nextId, replicaOf := d }, run.trans (congrArg _ passes), ?_, rfl,
    rfl, rfl, rfl, ?_, ?_, ?_, ?_, ?_, ?_, fun silent => ⟨?_, u.nextId, ?_⟩, fun k d' slot result => ?_⟩
  · rw [shape]
    exact List.mem_append_right _ (List.mem_singleton_self _)
  · exact congrArg Seq.atomicReq seq
  · exact (congrArg Seq.pc seq).trans pc
  · exact (congrArg Seq.belt seq).trans belt
  · exact (congrArg Seq.named seq).trans named
  · exact (congrArg (fun x : Core => x.task.all (·.irrevocable)) core).trans irrevocable
  · rw [shape]
    exact ⟨memory.1, memory.2, memory.3⟩
  · exact (congrArg Seq.landing seq).trans (alone silent)
  · simp only [State.atomicRequest, State.scalarReq, Req.blank, silent, cur]
    rfl
  · obtain ⟨e, landing, id, wid, kind, dest, due, arrived⟩ := lands k d' slot result
    refine ⟨e, (congrArg Seq.landing seq).trans landing, kind, dest, due, arrived, ?_⟩
    simp only [State.atomicRequest, State.scalarReq, Req.blank, result, cur, id, wid]
    rfl

end Sys2Proof.Machine
end

section
/-! SUPPORT. What a home slice does beside memory, requests and its queues (R82, R83, R272 to R278): counts of accesses, meters,
ways, replicas and rows. -/

namespace Sys2Proof.Machine

open Sys2Proof Sys2Proof.Safety

/-- Accesses were counted, lines entered or left ways, and replicas came or went: the queues of the slices, the cores, the
requests and memory stand. -/
structure Tallied (s t : State) : Prop where
  rest : ∃ ds ss fs is j, t = { s with dies := ds, slices := ss, fns := fs, invs := is, nextId := j }
  slices : ∀ i, ∃ ws, t.slice i = { s.slice i with ways := ws }

theorem Tallied.refl (s : State) : Tallied s s := ⟨⟨_, _, _, _, _, rfl⟩, fun _ => ⟨_, rfl⟩⟩

theorem Tallied.trans {s t u : State} (h : Tallied s t) (k : Tallied t u) : Tallied s u := by
  obtain ⟨ds, ss, fs, is, j, e⟩ := h.rest
  obtain ⟨ds', ss', fs', is', j', e'⟩ := k.rest
  refine ⟨⟨ds', ss', fs', is', j', by rw [e', e]⟩, fun i => ?_⟩
  obtain ⟨ws, e⟩ := h.slices i
  obtain ⟨ws', e'⟩ := k.slices i
  exact ⟨ws', by rw [e', e]⟩

section
variable {s t : State} (h : Tallied s t)
include h

theorem Tallied.mem : t.mem = s.mem := by obtain ⟨_, _, _, _, _, e⟩ := h.rest; rw [e]
theorem Tallied.poison : t.poison = s.poison := by obtain ⟨_, _, _, _, _, e⟩ := h.rest; rw [e]
theorem Tallied.cores : t.cores = s.cores := by obtain ⟨_, _, _, _, _, e⟩ := h.rest; rw [e]
theorem Tallied.reqs : t.reqs = s.reqs := by obtain ⟨_, _, _, _, _, e⟩ := h.rest; rw [e]

theorem Tallied.still : Still s t := by
  refine ⟨?_, fun i => ?_⟩
  · obtain ⟨_, _, _, _, _, e⟩ := h.rest
    rw [e]
    exact ⟨rfl, rfl, rfl⟩
  · obtain ⟨_, e⟩ := h.slices i
    rw [e]

end

theorem Tallied.updDie (s : State) (d : Nat) (f : Die → Die) : Tallied s (s.updDie d f) :=
  ⟨⟨_, _, _, _, _, rfl⟩, fun _ => ⟨_, rfl⟩⟩

theorem Tallied.updFn (s : State) (n : Nat) (f : Func → Func) : Tallied s (s.updFn n f) :=
  ⟨⟨_, _, _, _, _, rfl⟩, fun _ => ⟨_, rfl⟩⟩

theorem Tallied.ways (s : State) (i : Nat) (f : Slice → Slice) (h : ∀ x, ∃ ws, f x = { x with ways := ws }) :
    Tallied s (s.updSlice i f) := by
  refine ⟨⟨_, _, _, _, _, rfl⟩, fun k => ?_⟩
  by_cases e : k = i
  · subst e
    rw [State.slice_updSlice]
    exact h _
  · rw [State.slice_updSlice_ne _ _ e]
    exact ⟨_, rfl⟩

/-! ## Counts -/

theorem Tallied.meter (s : State) (fn i n : Nat) : Tallied s (s.meter fn i n) := by
  unfold State.meter
  split
  · exact Tallied.refl s
  · exact Tallied.updFn ..

theorem Tallied.telemeter (s : State) (fn i n : Nat) : Tallied s (s.telemeter fn i n) := by
  unfold State.telemeter
  split
  · exact Tallied.updFn ..
  · exact Tallied.refl s

theorem Tallied.hbmRead (s : State) (fn : Nat) : Tallied s (s.hbmRead fn) := (Tallied.meter ..).trans (Tallied.telemeter ..)

theorem Tallied.hbmWritten (s : State) (fn : Nat) : Tallied s (s.hbmWritten fn) :=
  (Tallied.meter ..).trans (Tallied.telemeter ..)

theorem Tallied.reclaim (s : State) (d : Nat) : Tallied s (s.reclaim d) := by
  unfold State.reclaim
  split
  · exact Tallied.refl s
  · simp only
    split
    · exact ⟨⟨_, _, _, _, _, rfl⟩, fun _ => ⟨_, rfl⟩⟩
    · exact Tallied.updDie ..

theorem Tallied.countRemote (s : State) (r : Req) (write : Bool) : Tallied s (s.countRemote r write) := by
  simp only [State.countRemote]
  split
  · exact Tallied.refl s
  · split
    · exact Tallied.updDie ..
    · refine Tallied.trans ?_ (Tallied.updDie ..)
      split
      · exact Tallied.refl s
      · exact Tallied.reclaim ..

/-! ## Ways and replicas -/

theorem Slice.hit_ways (x : Slice) (l : L2Line) (mask : BitVec 16) (write : Bool) : ∃ ws, x.hit l mask write = { x with ways := ws } := by
  unfold Slice.hit
  cases write <;> cases mask.getLsbD l.way <;> exact ⟨_, rfl⟩

theorem Slice.install_ways (x : Slice) (line set : Nat) (mask : BitVec 16) (stream dirty replica : Bool) :
    ∃ ws, x.install line set mask stream dirty replica = { x with ways := ws } := by
  unfold Slice.install
  split <;> exact ⟨_, rfl⟩

theorem Tallied.hit (s : State) (i : Nat) (l : L2Line) (mask : BitVec 16) (write : Bool) :
    Tallied s (s.updSlice i fun x => x.hit l mask write) := Tallied.ways s i _ fun x => x.hit_ways l mask write

theorem Tallied.dropReplica (s : State) (d line : Nat) : Tallied s (s.dropReplica d line) :=
  (Tallied.updDie s d _).trans (Tallied.ways _ _ _ fun _ => ⟨_, rfl⟩)

theorem Tallied.freshFor (s : State) (d pa : Nat) : Tallied s (s.freshFor d pa) := by
  unfold State.freshFor
  split
  · exact Tallied.dropReplica ..
  · exact Tallied.refl s

theorem Tallied.install (s : State) (i fn line : Nat) (mask : BitVec 16) (stream dirty replica : Bool) :
    Tallied s (s.install i fn line mask stream dirty replica) := by
  simp only [State.install]
  refine Tallied.trans ?_ (Tallied.ways _ i _ fun x => x.install_ways ..)
  split
  · exact Tallied.refl s
  · split
    · exact Tallied.refl s
    · split
      · exact Tallied.dropReplica ..
      · split
        · exact Tallied.hbmWritten ..
        · exact Tallied.refl s

theorem Tallied.makeReplica (s : State) (r : Req) : Tallied s (s.makeReplica r) := by
  unfold State.makeReplica
  split
  · simp only
    split
    · exact Tallied.refl s
    · exact (((Tallied.dropReplica ..).trans (Tallied.install ..)).trans (Tallied.updDie ..)).trans (Tallied.updDie ..)
  · exact Tallied.refl s
  · split
    · exact Tallied.freshFor ..
    · exact Tallied.refl s

end Sys2Proof.Machine
end

section
/-! SUPPORT. The integer atomics, exchanges and comparisons at the arithmetic unit of their home (R274, R281, R283): the new value
of the bytes, and the old value as the answer. -/

namespace Sys2Proof.Machine

open Sys2Proof Sys2Proof.Safety

/-! ## The new value -/

theorem readInt_signed {w : Nat} (n : Nat) : readInt true w n = (BitVec.ofNat w n).toInt := by
  rw [readInt, BitVec.toInt_eq_msb_cond, BitVec.msb_eq_getLsbD_last, BitVec.getLsbD, BitVec.toNat_ofNat, Bool.true_and]
  rfl

theorem readInt_unsigned (w n : Nat) : readInt false w n = (BitVec.ofNat w n).toNat := by
  rw [readInt, BitVec.toNat_ofNat, Bool.false_and]
  rfl

/-- The order of an atomic's type is that of its patterns. -/
theorem readInt_lt (signed : Bool) {w : Nat} (p q : BitVec w) :
    (readInt signed w p.toNat < readInt signed w q.toNat) ↔ (if signed then p.slt q else p.ult q) = true := by
  cases signed with
  | true =>
    simp only [readInt_signed, BitVec.ofNat_toNat, BitVec.setWidth_eq, if_true, BitVec.slt, decide_eq_true_eq]
  | false =>
    simp only [readInt_unsigned, BitVec.ofNat_toNat, BitVec.setWidth_eq, Bool.false_eq_true, if_false, BitVec.ult,
      decide_eq_true_eq, Int.ofNat_lt]

/-- R283: what an atomic leaves is what the table gives, on patterns of its own width. -/
theorem atNew_eq_atomicMemory {op : AtOp} {ty : AtTy} (whole : op ≠ .fadd ∧ op ≠ .fmin ∧ op ≠ .fmax)
    (old v x : BitVec (8 * atSize op ty)) :
    (atNew op ty old.toNat v.toNat x.toNat).getD old.toNat = (atomicMemory op (atSigned ty) old v x).toNat := by
  obtain ⟨noAdd, noMin, noMax⟩ := whole
  have order (p q : BitVec (8 * atBytes ty)) := readInt_lt (atSigned ty) p q
  cases op
  case fadd => exact absurd rfl noAdd
  case fmin => exact absurd rfl noMin
  case fmax => exact absurd rfl noMax
  case ld => rfl
  case st => rfl
  case swp => rfl
  case add => exact (BitVec.toNat_add old v).symm
  case and => exact (BitVec.toNat_and old v).symm
  case or => exact (BitVec.toNat_or old v).symm
  case xor => exact (BitVec.toNat_xor old v).symm
  case min =>
    simp only [atNew, Option.getD_some, atomicMemory, decide_eq_true_eq]
    rw [apply_ite BitVec.toNat]
    exact if_congr (order v old) rfl rfl
  case max =>
    simp only [atNew, Option.getD_some, atomicMemory, decide_eq_true_eq]
    rw [apply_ite BitVec.toNat]
    exact if_congr (order old v) rfl rfl
  case cas =>
    simp only [atNew, atomicMemory, BitVec.toNat_inj]
    split <;> rfl
  case cas128 =>
    simp only [atNew, atomicMemory, BitVec.toNat_inj]
    split <;> rfl

theorem atSigned_eq (ty : AtTy) : atSigned ty = decide (ty = .s64 ∨ ty = .s32) := by cases ty <;> rfl

/-! ## The answer -/

theorem State.mem_updReq {s : State} {p q : Req} (there : p ∈ s.reqs) (id : p.id = q.id) : q ∈ (s.updReq q.id fun _ => q).reqs :=
  List.mem_map.mpr ⟨p, there, if_pos (beq_iff_eq.mpr id)⟩

section
variable (s : State) {r p : Req} {c l w : Nat} {pc : Dbl} (lands : r.src = .atomic c (some l) w pc)
include lands

/-- What ends with an atomic that lands is an answer, poisoned where its way back has failed. -/
theorem State.finish_landing : ∃ b, s.finish r = s.updReq r.id fun _ => { r with phase := .answered, poison := b } := by
  cases lost : s.answerLost r with
  | false =>
    refine ⟨r.poison, ?_⟩
    simp only [State.finish, lost, State.holdsBack, Req.ends, State.ended_, lands, Option.any_none, Bool.false_eq_true, if_false]
  | true =>
    refine ⟨true, ?_⟩
    simp only [State.finish, lost, State.holdsBack, Req.ends, State.ended_, lands, Option.any_none, Bool.false_eq_true, if_false,
      if_true]

/-- Its old value stands in the request, answered or waiting for acknowledgements. -/
theorem State.finish_answer (there : p ∈ s.reqs) (id : p.id = r.id) :
    ∃ q ∈ (s.finish r).reqs, q.id = r.id ∧ q.result = r.result ∧ (q.phase = .answered ∨ q.phase = .acks) := by
  obtain ⟨b, answered⟩ := s.finish_landing lands
  rw [answered]
  exact ⟨_, State.mem_updReq (q := { r with phase := .answered, poison := b }) there id, rfl, rfl, .inl rfl⟩

theorem State.settleReq_answer (there : p ∈ s.reqs) (id : p.id = r.id) (dies : List Nat) (watch : Option Nat) :
    ∃ q ∈ (s.settleReq r dies watch).reqs, q.id = r.id ∧ q.result = r.result ∧ (q.phase = .answered ∨ q.phase = .acks) := by
  simp only [State.settleReq]
  split
  · exact State.finish_answer s (r := { r with acks := dies, watches := watch.toList }) lands there id
  · exact ⟨_, State.mem_updReq (q := { r with acks := dies, watches := watch.toList, phase := .acks }) there id, rfl, rfl, .inr rfl⟩

end

/-! ## The operation -/

section
variable {s : State} {r : Req} {op : AtOp} {ty : AtTy} {v x : BitVec 128} {sc : Bool} (kind : r.kind = .atomic op ty v x sc)
  (sound : s.poisoned r.pa = false)
include kind sound

/-- An atomic that writes nothing is answered. -/
theorem State.performAtomic_unwritten
    (none : atNew op ty (leNat (s.readPhys r.key r.pa (atSize op ty))) (v.toNat % 2 ^ (8 * atSize op ty))
      (x.toNat % 2 ^ (8 * atSize op ty)) = none) :
    ∃ u, Tallied s u ∧ ∃ ok, s.performAtomic r =
      u.finish { r with result := leBytes (atSize op ty) (leNat (s.readPhys r.key r.pa (atSize op ty))), ok := ok } := by
  refine ⟨_, ((Tallied.countRemote s r false).trans (Tallied.makeReplica _ r)).trans (Tallied.meter _ r.fn 15 1), decide (op = .ld), ?_⟩
  simp only [State.performAtomic, kind, sound, none, Bool.false_eq_true, if_false]

/-- One that writes does so at its home, and is settled. -/
theorem State.performAtomic_written {new : Nat}
    (writes : atNew op ty (leNat (s.readPhys r.key r.pa (atSize op ty))) (v.toNat % 2 ^ (8 * atSize op ty))
      (x.toNat % 2 ^ (8 * atSize op ty)) = some new) :
    ∃ u, Tallied s u ∧
      let h := u.writeHome r.key r.pa (leBytes (atSize op ty) new) r.id
      s.performAtomic r = h.1.settleReq
        { r with result := leBytes (atSize op ty) (leNat (s.readPhys r.key r.pa (atSize op ty))), ok := true } h.2.1 h.2.2 := by
  refine ⟨_, ((Tallied.countRemote s r true).trans (Tallied.makeReplica _ r)).trans (Tallied.meter _ r.fn 15 1), ?_⟩
  simp only [State.performAtomic, kind, sound, writes, Bool.false_eq_true, if_false]

end

/-- What an operation on the bytes of a request leaves in `t`: the bytes `bs`, no other byte under its key changed, the queues
of operations as in `s`, and the old value as the answer of one that lands. -/
structure Operated (s t : State) (r : Req) (bs old : List Byte) : Prop where
  bytes : ∀ a, t.readByte r.key a = if r.pa ≤ a ∧ a < r.pa + bs.length then bs.getD (a - r.pa) 0 else s.readByte r.key a
  ops : ∀ i, (t.slice i).ops = (s.slice i).ops
  answer : ∀ c l w pc, r.src = .atomic c (some l) w pc → ∃ q ∈ t.reqs, q.id = r.id ∧ q.result = old
    ∧ (q.phase = .answered ∨ q.phase = .acks)

theorem State.readPhys_length (s : State) (key a n : Nat) : (s.readPhys key a n).length = n := by
  rw [State.readPhys, List.length_map, List.length_range]

theorem State.readPhys_getD (s : State) {key a n i : Nat} (h : i < n) : (s.readPhys key a n).getD i 0 = s.readByte key (a + i) := by
  rw [State.readPhys, List.getD_eq_getElem?_getD, List.getElem?_map, List.getElem?_range h]
  rfl

/-- Bytes that stand as they were read. -/
theorem readByte_as_read (s : State) (key pa n a : Nat) : s.readByte key a =
    if pa ≤ a ∧ a < pa + n then (s.readPhys key pa n).getD (a - pa) 0 else s.readByte key a := by
  split
  · rw [State.readPhys_getD s (by omega), Nat.add_sub_cancel' (by omega)]
  · rfl

theorem Operated.readPhys {s t : State} {r : Req} {bs old : List Byte} (h : Operated s t r bs old) :
    t.readPhys r.key r.pa bs.length = bs := by
  refine List.ext_getElem (t.readPhys_length ..) fun i _ small => ?_
  simp only [State.readPhys, List.getElem_map, List.getElem_range]
  rw [h.bytes, if_pos (by omega), Nat.add_sub_cancel_left, List.getD_eq_getElem _ _ small]

/-- R274, R283: the atomic is one operation on its bytes. -/
theorem State.performAtomic_operated {s : State} {r p : Req} {op : AtOp} {ty : AtTy} {v x : BitVec 128} {sc : Bool} {lk : LineKey}
    (wf : Memory.wf s.mem = true) (kind : r.kind = .atomic op ty v x sc) (sound : s.poisoned r.pa = false)
    (hbm : isHbm r.pa = true) (key : tfind (r.pa / 128) s.memKey = some lk) (own : lk.key = r.key)
    (line : r.pa % 128 + atSize op ty ≤ 128) (there : p ∈ s.reqs) (id : p.id = r.id) :
    let n := atSize op ty
    let old := leNat (s.readPhys r.key r.pa n)
    Operated s (s.performAtomic r) r (leBytes n ((atNew op ty old (v.toNat % 2 ^ (8 * n)) (x.toNat % 2 ^ (8 * n))).getD old))
      (leBytes n old) := by
  intro n old
  have length := s.readPhys_length r.key r.pa n
  have same : leBytes n old = s.readPhys r.key r.pa n := by
    have h := leBytes_leNat (s.readPhys r.key r.pa n)
    rwa [length] at h
  cases new : atNew op ty old (v.toNat % 2 ^ (8 * n)) (x.toNat % 2 ^ (8 * n)) with
  | none =>
    obtain ⟨u, tallied, ok, run⟩ := State.performAtomic_unwritten kind sound new
    have still := tallied.still.trans (Still.finish u { r with result := leBytes n old, ok := ok })
    rw [run]
    refine ⟨fun a => ?_, still.ops, fun c l w pc lands => ?_⟩
    · rw [still.readByte, Option.getD_none, same, length]
      exact readByte_as_read ..
    · exact u.finish_answer (r := { r with result := leBytes n old, ok := ok }) lands (by rw [tallied.reqs]; exact there) id
  | some value =>
    obtain ⟨u, tallied, run⟩ := State.performAtomic_written kind sound new
    obtain ⟨written, reqs⟩ := u.writeHome_still r.key r.pa (leBytes n value) r.id
    generalize u.writeHome r.key r.pa (leBytes n value) r.id = h at run written reqs
    have settled := written.trans (Still.settleReq h.1 { r with result := leBytes n old, ok := true } h.2.1 h.2.2)
    rw [run]
    refine ⟨fun a => ?_, fun i => ?_, fun c l w pc lands => ?_⟩
    · have mem := tallied.still.mem
      rw [settled.readByte, State.readByte_writePhys (by rw [mem.1]; exact wf) _ hbm (by rw [mem.2.1]; exact key) own
        (by rw [leBytes_length]; exact line), tallied.still.readByte, Option.getD_some]
    · obtain ⟨_, _, _, shape⟩ := u.writePhys_shape r.key r.pa (leBytes n value)
      rw [settled.ops, shape]
      exact tallied.still.ops i
    · refine State.settleReq_answer h.1 (r := { r with result := leBytes n old, ok := true }) lands ?_ id _ _
      obtain ⟨_, _, _, shape⟩ := u.writePhys_shape r.key r.pa (leBytes n value)
      rw [reqs, shape]
      exact tallied.reqs ▸ there

theorem atSize_line {op : AtOp} {ty : AtTy} {pa : Nat} (aligned : pa % atSize op ty = 0) : pa % 128 + atSize op ty ≤ 128 := by
  have size : atSize op ty = 4 ∨ atSize op ty = 8 ∨ atSize op ty = 16 := by
    unfold atSize
    split
    · exact .inr (.inr rfl)
    · cases ty <;> decide
  generalize atSize op ty = n at aligned size ⊢
  rcases size with rfl | rfl | rfl <;> omega

/-- The operation leaves the queue of its home's unit. -/
def State.takeOp (s : State) (q : Req) : State :=
  s.updSlice (homeIdx q.pa) fun x => { x with ops := x.ops.filter (· != q.id) }

/-- An operation that stands first on its line leaves its unit's queue and is performed. -/
theorem exec_atomicOperation {s : State} {q : Req} (found : s.req q.id = some q) (phase : q.phase = .alu)
    (first : (s.slice (homeIdx q.pa)).ops.find? (fun k => ((s.req k).map fun r => r.pa / 128 == q.pa / 128).getD false)
      = some q.id) :
    exec (.atomicOperation q.id) s = .next ((s.takeOp q).performAtomic q) := by
  simp only [exec, execAtomicOperation, canAtomicOperation, found, phase, first, beq_self_eq_true, Bool.and_self, if_true,
    State.takeOp]

/-- Settles O21: the operation is `State.performAtomic`, and its new value the table's. -/
theorem atomicAtHome : Obligations.AtomicAtHome := by
  intro s q op ty v x sc wf found kind phase home first sound keyed whole _ n aligned old new
  obtain ⟨lk, key, own⟩ := keyed
  have here : q ∈ s.reqs := List.mem_of_find?_eq_some found
  have operated := State.performAtomic_operated (s := s.takeOp q) wf kind (by simpa [State.takeOp, State.poisoned] using sound)
    (isHbm_of_local home) key own (atSize_line aligned) here rfl
  have width : (BitVec.ofNat (8 * atSize op ty) old).toNat = old := by
    have bound := leNat_lt (s.readPhys q.key q.pa (atSize op ty))
    rw [State.readPhys_length] at bound
    rw [BitVec.toNat_ofNat]
    exact Nat.mod_eq_of_lt bound
  have value := atNew_eq_atomicMemory whole (BitVec.ofNat (8 * atSize op ty) old) (v.setWidth _) (x.setWidth _)
  rw [width, BitVec.toNat_setWidth, BitVec.toNat_setWidth, atSigned_eq] at value
  refine ⟨_, exec_atomicOperation found phase first, ?_, fun a outside => ?_, fun still => ?_, operated.answer⟩
  · have bytes := operated.readPhys
    rw [leBytes_length] at bytes
    exact bytes.trans (congrArg (leBytes _) value)
  · have kept := operated.bytes a
    rw [leBytes_length] at kept
    exact kept.trans (if_neg outside)
  · rw [operated.ops, State.takeOp, State.slice_updSlice] at still
    simp at still

end Sys2Proof.Machine
end

section
/-! SUPPORT. MONW and MONC (R286, R287): the compare-and-arm that a word sends, what its answer or a firing gives, and a monitor
that is armed anew. -/

namespace Sys2Proof.Machine

open Sys2Proof Sys2Proof.Safety

/-! ## The compare-and-arm -/

/-- What a word leaves that has sent a compare-and-arm for a value at `pa`, and stalls. -/
structure ArmSent (s t : State) (value : Dbl) (pa : Nat) : Prop where
  sent : ∃ q ∈ t.reqs, q.src = .arm s.cur.core ∧ q.kind = .arm value ∧ q.pa = pa ∧ q.len = 8 ∧ q.phase = .travel
  waits : (t.seq s.cur.core).phase = 1 ∧ (t.seq s.cur.core).stall = 10 ∧ (t.core s.cur.core).mon = none
  kept : (t.seq s.cur.core).pc = (s.seq s.cur.core).pc ∧ (t.seq s.cur.core).belt = (s.seq s.cur.core).belt

theorem State.sendArm_sent (s : State) (a v : Dbl) (pa : Nat) : ArmSent s (s.sendArm a v pa) v pa := by
  have flushed := Flushed.flushBlock s a
  have quiet := Quiet.unmonitor (s.flushBlock a) s.cur.core
  have cur : ((s.flushBlock a).unmonitor s.cur.core).cur = s.cur := quiet.cur.trans flushed.kept.2
  have seq : ((s.flushBlock a).unmonitor s.cur.core).seq s.cur.core = s.seq s.cur.core := (quiet.seqs _).trans (flushed.seq _)
  simp only [State.sendArm]
  generalize (s.flushBlock a).unmonitor s.cur.core = u at cur seq
  have here : (u.send (u.scalarReq (.arm s.cur.core) (.arm v) pa 8 2 a)).cur = s.cur := cur
  simp only [State.stallSeq, State.updCore_cur, here, State.updCore_updCore]
  refine ⟨⟨_, List.mem_append_right _ (List.mem_singleton_self _), rfl, rfl, rfl, rfl, rfl⟩, ?_, ?_⟩
  · rw [State.seq_updCore, State.core_updCore]
    exact ⟨rfl, rfl, rfl⟩
  · rw [State.seq_updCore, ← seq]
    exact ⟨rfl, rfl⟩

/-- The first step of either word, its address looked up in `r`. -/
theorem State.monitor_arms {s r : State} {wait : Bool} {a v : Src} {pa : Nat} (fresh : Fresh s [a, v])
    (ordinary : Ordinary s s.cur.core) (looked : Looked s r)
    (there : s.scalar (operand s a) 8 Need.atomicRead [.rw, .atom] = (r, .ok pa)) (inside : isHost pa = false)
    (idle : wait = true → ∀ m, (s.core s.cur.core).mon = some m → m.armed = false ∧ m.fired = false)
    (free : (s.seq s.cur.core).atomicReq = none) (settled : r.linePending (operand s a) = false) (d : Dest) :
    s.monitor wait a v d = r.sendArm (operand s a) (operand s v) pa := by
  have opd : r.opd v = operand s v := by
    rw [State.opd, Looked.cur looked, Looked.seq looked]
    exact s.opd_eq_operand v
  have held : (wait && r.monHolds (operand s a)) = false := by
    obtain ⟨_, core⟩ := looked.cores s.cur.core
    rw [State.monHolds, Looked.cur looked, core]
    cases wait with
    | false => rfl
    | true =>
      cases mon : (s.core s.cur.core).mon with
      | none => rfl
      | some m =>
        obtain ⟨unarmed, unfired⟩ := idle rfl m mon
        simp [unarmed, unfired]
  simp only [State.monitor, State.withOperands_fresh fresh, fresh.1, if_true, State.impure_ordinary ordinary,
    State.opd_eq_operand s, there, inside, held, free, settled, opd, Option.isSome_none, Bool.false_eq_true, if_false]

/-! ## The answer -/

section
variable {s : State} (later : (s.seq s.cur.core).phase ≠ 0) (wait : Bool) (a v : Src) (d : Dest)
include later

theorem State.monitor_waits (answer : (s.seq s.cur.core).answer = none) : s.monitor wait a v d = s.stallSeq 10 := by
  simp only [State.monitor, State.withOperands_later later, if_neg later, answer]

variable {w : Dbl} (answer : (s.seq s.cur.core).answer = some w)
include answer

theorem State.monitor_monc : s.monitor false a v d = s.issue [a, v] 1 (some (w, d)) := by
  simp only [State.monitor, State.withOperands_later later, if_neg later, answer, Bool.not_false, if_true]

/-- A MONW whose monitor never armed, or has fired, returns a value and leaves no monitor. -/
theorem State.monitor_monw_ended (ended : ((s.core s.cur.core).mon.map (·.fired)).getD true = true) :
    s.monitor true a v d = (s.updCore s.cur.core fun x => { x with mon := none }).issue [a, v] 1
      (some (((s.core s.cur.core).mon.map (·.seen)).getD w, d)) := by
  simp only [State.monitor, State.withOperands_later later, if_neg later, answer, ended, Bool.not_true, Bool.false_eq_true,
    if_false, if_true]

theorem State.monitor_monw_armed (armed : ((s.core s.cur.core).mon.map (·.fired)).getD true = false) :
    s.monitor true a v d = (s.updSeq s.cur.core fun q => { q with phase := 2, answer := none }).stallSeq 10 := by
  simp only [State.monitor, State.withOperands_later later, if_neg later, answer, armed, Bool.not_true, Bool.false_eq_true,
    if_false]

end

theorem State.retired_unmonitored (s : State) (marks : List Src) (res : Option (Dbl × Dest)) :
    Retired s ((s.updCore s.cur.core fun x => { x with mon := none }).issue marks 1 res) 1 marks res s.nextPc
      (fun x => { x with mon := none }) :=
  ((s.updCore s.cur.core fun x => { x with mon := none }).retired_issue marks res).before rfl

/-- A step of a word that waits goes on at the same place. -/
theorem State.waits_stalled (s : State) (f : Machine.Seq → Machine.Seq) (code : Nat)
    (keeps : ∀ q, (f q).pc = q.pc ∧ (f q).belt = q.belt ∧ (f q).named = q.named ∧ (f q).released = q.released) :
    Stalled s ((s.updSeq s.cur.core f).stallSeq code) code := by
  have h := Stalled.stallSeq (s.updSeq s.cur.core f) code
  obtain ⟨pc, belt, named, released⟩ := keeps (s.seq s.cur.core)
  have seq := s.seq_updSeq s.cur.core f
  have cur : (s.updSeq s.cur.core f).cur.core = s.cur.core := rfl
  refine ⟨h.code, ?_, ?_, ?_, s.waits_memory _ f code⟩
  · have := h.pc
    rw [cur, seq] at this
    exact this.trans pc
  · have := h.registers
    rw [cur, seq] at this
    exact ⟨this.1.trans belt, this.2.1.trans named, this.2.2.trans released⟩
  · have := h.tokens
    rw [cur, State.core_updSeq] at this
    exact this

/-! ## What reaches the core -/

/-- The home's answer, whole, of the compare-and-arm that a word waits for. -/
theorem exec_monitorWake_answer {s : State} {c : Nat} {r : Req} (answered : s.armAnswer c = some r) (sound : r.poison = false)
    (waits : (s.seq c).phase = 1) :
    exec (.monitorWake c) s = .next ((s.dropReq r.id).updSeq c fun q => { q with answer := some (dbl (leNat r.result)) }) := by
  simp only [exec, execMonitorWake, canMonitorWake, answered, sound, Option.isSome_some, Bool.true_or, if_true, Bool.false_eq_true,
    if_false, State.dropReq_seq, waits]

/-- The firing of the monitor that a MONW waits for. -/
theorem exec_monitorWake_fired {s : State} {c : Nat} {m : Monitor} (unanswered : s.armAnswer c = none)
    (mon : (s.core c).mon = some m) (fired : m.fired = true) (phase : (s.seq c).phase = 2) (stall : (s.seq c).stall = 10)
    (answer : (s.seq c).answer = none) :
    exec (.monitorWake c) s = .next (s.updSeq c fun q => { q with answer := some m.seen }) := by
  simp only [exec, execMonitorWake, canMonitorWake, unanswered, mon, fired, phase, stall, answer, Option.isSome_none,
    Option.isNone_none, Option.map_some, Option.getD_some, beq_self_eq_true, Bool.and_self, Bool.or_true, if_true]

/-- The compare-and-arm of a monitor that is armed anew. -/
def State.rearm (s : State) (c : Nat) (m : Monitor) (k : Task) (pa : Nat) : State :=
  s.send { Req.blank (.arm c) (.arm m.value) pa 8 with
    key := s.keyAt c pa, fn := k.fn, wq := k.wq, tc := 2, va := m.addr.toNat }

theorem exec_monitorRearmTimer {s : State} {c : Nat} {m : Monitor} {k : Task} (mon : (s.core c).mon = some m)
    (task : (s.core c).task = some k) (unheld : s.unheldMonitor c = true)
    (mapped : isVirtual m.addr = true →
      ∃ r e, s.translate (.seq c) k.fn (s.rootOf k.fn k.wq) m.addr.toNat Need.atomicRead = (r, .ok e)) :
    ∃ r pa, LookedRead s r ∧ exec (.monitorRearmTimer c) s = .next (r.rearm c m k pa) := by
  by_cases virtual : isVirtual m.addr = true
  · obtain ⟨r, e, there⟩ := mapped virtual
    have looked := s.translate_lookedRead c k.fn (s.rootOf k.fn k.wq) m.addr.toNat Need.atomicRead (by decide)
    rw [there] at looked
    refine ⟨r, e.phys m.addr.toNat, looked, ?_⟩
    simp only [exec, execMonitorRearmTimer, unheld, mon, task, virtual, there, if_true]
    rfl
  · refine ⟨s, arrayAt (windowCore (dieOf c) (windowOff m.addr)) (windowX (windowOff m.addr)), LookedRead.refl s, ?_⟩
    simp only [exec, execMonitorRearmTimer, unheld, mon, task, virtual, Bool.false_eq_true, if_false, if_true]
    rfl

/-- Settles O25: the first step sends, the later ones answer or wait, and the events are the state that the lemmas above name. -/
theorem monitorWords : Obligations.MonitorWords := by
  refine ⟨fun s r wait a v d pa fresh ordinary there inside idle free settled => ?_, fun s a v d later => ⟨?_, fun w answer => ?_⟩,
    fun s c r answered sound waits => ?_, fun s c m unanswered mon fired phase stall answer => ?_,
    fun s c m k mon task unheld mapped => ?_⟩
  · have looked : Looked s r := by
      have h := s.scalar_looked (operand s a) 8 Need.atomicRead [.rw, .atom]
      rwa [there] at h
    have pending : r.linePending (operand s a) = false := by
      rw [State.linePending]
      cases line : r.scalarLine (operand s a) with
      | none => rfl
      | some l => simpa using settled l line
    have run : exec (if wait then .monw a v d else .monc a v d) s = .next (r.sendArm (operand s a) (operand s v) pa) := by
      rw [← State.monitor_arms fresh ordinary looked there inside idle free pending d]
      cases wait <;> rfl
    obtain ⟨⟨q, mem, sent⟩, ⟨phase, stall, mon⟩, pc, belt⟩ := r.sendArm_sent (operand s a) (operand s v) pa
    rw [Looked.cur looked] at sent phase stall mon pc belt
    rw [Looked.seq looked] at pc belt
    obtain ⟨src, kind, place, len, travels⟩ := sent
    exact ⟨looked, _, q, run, mem, src, kind, place, len, travels, phase, stall, mon, pc, belt⟩
  · rintro answer i (rfl | rfl)
    · exact ⟨_, congrArg Host.Outcome.next (State.monitor_waits later true a v d answer), Stalled.stallSeq ..⟩
    · exact ⟨_, congrArg Host.Outcome.next (State.monitor_waits later false a v d answer), Stalled.stallSeq ..⟩
  · have ended := State.monitor_monw_ended later a v d answer
    have armed := State.monitor_monw_armed later a v d answer
    refine ⟨⟨_, congrArg Host.Outcome.next (State.monitor_monc later a v d answer), s.retired_issue ..⟩,
      fun bare => ?_, fun m held =>
      ⟨fun fired => ?_, fun unfired => ?_⟩⟩
    · rw [bare] at ended
      exact ⟨_, congrArg Host.Outcome.next (ended rfl), s.retired_unmonitored ..⟩
    · rw [held] at ended
      exact ⟨_, congrArg Host.Outcome.next (ended fired), s.retired_unmonitored ..⟩
    · rw [held] at armed
      refine ⟨_, congrArg Host.Outcome.next (armed unfired), s.waits_stalled _ _ fun q => ⟨rfl, rfl, rfl, rfl⟩, ?_⟩
      rw [State.seq_waits rfl]
  · refine ⟨_, exec_monitorWake_answer answered sound waits, ?_, rfl, ?_, fun n other => ?_⟩
    · rw [State.seq_updSeq]
      rfl
    · rw [State.seq_updSeq]
      rfl
    · rw [State.core_updSeq_ne _ _ other]
      rfl
  · refine ⟨_, exec_monitorWake_fired unanswered mon fired phase stall answer, ?_, rfl, fun n other => ?_⟩
    · rw [State.seq_updSeq]
    · exact State.core_updSeq_ne _ _ other
  · obtain ⟨r, pa, looked, run⟩ := exec_monitorRearmTimer mon task unheld mapped
    have reqs := Looked.reqs looked.toLooked
    exact ⟨_, _, run, congrArg (· ++ _) reqs, rfl, rfl, rfl, fun n => Looked.seq looked.toLooked n,
      MemoryKept.trans (LookedRead.kept looked) ⟨fun _ => rfl, rfl, rfl, rfl⟩⟩

end Sys2Proof.Machine
end

section
/-! SUPPORT. FLUSHRES (R296) in its three steps: the tokens, the deliveries, and the wait for the notices. -/

namespace Sys2Proof.Machine

open Sys2Proof Sys2Proof.Safety

/-! ## The deliveries -/

/-- What FLUSHRES sends in its second step: every slot, or the slot of the line at `a`. -/
def State.flushed (s : State) (o : Option Dbl) : State :=
  match o with
  | none => s.deliverAll s.cur.core
  | some a =>
    if ((s.core s.cur.core).resTag (resSlot a.toNat)).va = a.toNat / 128 * 128 then s.deliverSlot s.cur.core (resSlot a.toNat)
    else s

theorem State.flushed_shape (s : State) (o : Option Dbl) :
    (s.flushed o).cur = s.cur ∧ (s.flushed o).seq s.cur.core = s.seq s.cur.core ∧ MemoryKept s (s.flushed o) := by
  cases o with
  | none =>
    obtain ⟨⟨cs, l, n, shape⟩, -, seq, -⟩ := deliverSlots_shape s.cur.core (List.range 64) s
    exact ⟨s.deliverAll_cur _, seq, by simp only [State.flushed, State.deliverAll, shape]; exact ⟨fun _ => rfl, rfl, rfl, rfl⟩⟩
  | some a =>
    obtain ⟨⟨cs, l, n, shape⟩, -, seq, -⟩ := deliverSlot_shape s s.cur.core (resSlot a.toNat)
    simp only [State.flushed]
    split
    · exact ⟨by rw [shape], seq, by rw [shape]; exact ⟨fun _ => rfl, rfl, rfl, rfl⟩⟩
    · exact ⟨rfl, rfl, fun _ => rfl, rfl, rfl, rfl⟩

/-- Of one line only its own slot empties, and only where it holds that line. -/
theorem State.flushed_line (s : State) (a : Dbl) (i : Nat) :
    (((s.flushed (some a)).core s.cur.core).resTag i).valid = (((s.core s.cur.core).resTag i).valid
      && !(i == resSlot a.toNat && ((s.core s.cur.core).resTag (resSlot a.toNat)).va == a.toNat / 128 * 128)) := by
  simp only [State.flushed]
  split
  · rename_i line
    rw [(deliverSlot_shape s s.cur.core (resSlot a.toNat)).2.1 i, line, beq_self_eq_true, Bool.and_true]
    rfl
  · rename_i line
    rw [beq_false_of_ne line, Bool.and_false, Bool.not_false, Bool.and_true]

/-! ## The steps of the word -/

theorem exec_flushres_first {s : State} {o : Option Src} (fresh : Fresh s o.toList)
    (formed : ∀ a ∈ o, formOk (operand s a) = true) :
    exec (.flushres o) s = .next ((s.updCore s.cur.core fun x =>
      { x.takeTokens .seq s.cur.chain with seq := { x.seq with phase := 1 } }).stallSeq 14) := by
  have ok : (o.isSome && !formOk ((o.map s.opd).getD 0)) = false := by
    cases o with
    | none => rfl
    | some a => rw [Option.map_some, Option.getD_some, s.opd_eq_operand, formed a rfl]; rfl
  simp only [exec, execFlushres, State.withOperands_fresh fresh, fresh.1, if_true, ok, Bool.false_eq_true, if_false]
  rfl

theorem exec_flushres_delivers {s : State} {o : Option Src} (phase : (s.seq s.cur.core).phase = 1)
    (stores : (s.core s.cur.core).queue .store = []) :
    exec (.flushres o) s =
      .next (((s.flushed (o.map (operand s))).updSeq s.cur.core fun q => { q with phase := 2 }).stallSeq 14) := by
  have later : (s.seq s.cur.core).phase ≠ 0 := by rw [phase]; decide
  have ne : ([] != ([] : List Cmd)) = false := rfl
  simp only [exec, execFlushres, State.withOperands_later later, phase, Nat.one_ne_zero, if_false, if_true, stores, ne,
    Bool.false_eq_true]
  cases o with
  | none => rfl
  | some a => rw [Option.map_some, Option.map_some, Option.getD_some, s.opd_eq_operand]; rfl

theorem exec_flushres_done {s : State} {o : Option Src} (phase : (s.seq s.cur.core).phase = 2)
    (told : s.addendsDone s.cur.core = true) : exec (.flushres o) s = .next (s.tokensTaken.issue o.toList 1 none) := by
  have later : (s.seq s.cur.core).phase ≠ 0 := by rw [phase]; decide
  simp only [exec, execFlushres, State.withOperands_later later, phase, told, if_true, OfNat.ofNat_ne_zero, if_false,
    OfNat.ofNat_ne_one]

/-- Settles O30, step by step of the word. -/
theorem flushResiduals : Obligations.FlushResiduals := by
  refine ⟨fun s o fresh formed => ?_, fun s o phase stores => ?_, fun s o phase told => ?_⟩
  · refine ⟨_, exec_flushres_first fresh formed, ?_⟩
    rw [State.stallSeq, State.updCore_cur, State.updCore_updCore, State.seq_updCore, State.core_updCore]
    exact ⟨rfl, rfl, rfl, rfl, rfl, fun _ => rfl, rfl, rfl, rfl⟩
  · obtain ⟨cur, seq, memory⟩ := s.flushed_shape (o.map (operand s))
    have here : (s.flushed (o.map (operand s))).cur.core = s.cur.core := congrArg _ cur
    refine ⟨_, exec_flushres_delivers phase stores, ?_, ?_, fun all i slot => ?_, fun a line i => ?_, ?_,
      MemoryKept.trans memory (State.waits_memory ..)⟩
    · rw [State.seq_waits here]
    · rw [State.seq_waits here]
    · rw [State.waits_resTag here, all]
      exact s.deliverAll_empty _ slot
    · rw [State.waits_resTag here, line]
      exact s.flushed_line _ i
    · rw [State.waits_pc here, seq]
  · have retired := s.tokensTaken.retired_issue o.toList none
    have kept : MemoryKept s s.tokensTaken := ⟨fun _ => rfl, rfl, rfl, rfl⟩
    exact ⟨_, exec_flushres_done phase told, retired.stepped rfl, retired.others, MemoryKept.trans kept retired.memory⟩

end Sys2Proof.Machine
end

section
/-! SUPPORT. BPQRY (R297): the mask, the tag of a slot and the counts; and the slot that its age sends (R294). -/

namespace Sys2Proof.Machine

open Sys2Proof Sys2Proof.Safety

/-! ## The words -/

/-- The mask that BPQRY gives: nothing where the task has no residual slots. -/
def State.residualMask (s : State) : Dbl := if s.hasResid s.cur.core then (s.core s.cur.core).slotMask else 0

theorem State.residualMask_getLsbD (s : State) {i : Nat} (slot : i < 64) :
    s.residualMask.getLsbD i
      = (((s.core s.cur.core).task.map (·.resid)).getD false && ((s.core s.cur.core).resTag i).valid) := by
  rw [State.residualMask, State.hasResid]
  cases ((s.core s.cur.core).task.map (·.resid)).getD false with
  | false => simp
  | true => exact maskOf_getLsbD (fun j => ((s.core s.cur.core).resTag j).valid) slot

theorem exec_bpqry_mask {s : State} (fresh : Fresh s []) (d : Dest) :
    exec (.bpqry .mask d) s = .next (s.issue [] 1 (some (s.residualMask, d))) := by
  simp only [exec, execBpqry, State.withOperands_fresh fresh, State.residualMask]

theorem exec_bpqry_slot {s : State} {a : Src} (fresh : Fresh s [a]) (d : Dest) :
    exec (.bpqry (.slot a) d) s =
      .next (s.issue [a] 1 (some ((s.core s.cur.core).slotWord ((operand s a).toNat % 64), d))) := by
  simp only [exec, execBpqry, State.withOperands_fresh fresh, State.opd_eq_operand]

theorem exec_bpqry_pend {s : State} (fresh : Fresh s []) (d : Dest) :
    exec (.bpqry .pend d) s = .next (s.issue [] 1
      (some (dbl ((s.core s.cur.core).res.pend % 1024 + (s.core s.cur.core).res.prio % 128 * 1024), d))) := by
  simp only [exec, execBpqry, State.withOperands_fresh fresh, Nat.reducePow]

/-! ## The age -/

/-- The addend at priority that a residual slot sends. -/
def State.residualAddend (s : State) (c i : Nat) : Req :=
  let g := (s.core c).resTag i
  { Req.blank (.addend c none) (.addend g.ty g.mask true) g.pa 128 with
    id := s.nextId, data := s.readArray c ((s.core c).residAt i) 128, key := g.key, va := g.va, ipa := g.ipa, tc := 2,
    fn := ((s.core c).task.map (·.fn)).getD 0, wq := ((s.core c).task.map (·.wq)).getD 0 }

theorem State.deliverSlot_reqs (s : State) {c i : Nat} (valid : ((s.core c).resTag i).valid = true) :
    (s.deliverSlot c i).reqs = s.reqs ++ [s.residualAddend c i] := by
  simp only [State.deliverSlot, valid, Bool.not_true, Bool.false_eq_true, if_false]
  rfl

theorem State.deliverSlot_prio (s : State) {c i : Nat} (valid : ((s.core c).resTag i).valid = true) :
    ((s.deliverSlot c i).core c).res.prio = (s.core c).res.prio + 1 := by
  simp only [State.deliverSlot, valid, Bool.not_true, Bool.false_eq_true, if_false, State.core_updCore]
  rfl

theorem State.deliverSlot_memory (s : State) (c i : Nat) : MemoryKept s (s.deliverSlot c i) := by
  obtain ⟨⟨cs, l, n, shape⟩, -⟩ := deliverSlot_shape s c i
  rw [shape]
  exact ⟨fun _ => rfl, rfl, rfl, rfl⟩

theorem exec_residualAgeExpiry {s : State} {c i : Nat} (valid : ((s.core c).resTag i).valid = true)
    (awake : (s.core c).freezes = []) (runs : (s.core c).task.any (fun t => t.parked || t.stopped.isSome) = false)
    (old : 4096 ≤ (s.seq c).cyc - ((s.core c).resTag i).born) :
    exec (.residualAgeExpiry c i) s = .next (s.deliverSlot c i) := by
  have age : 4096 ≤ (s.core c).slotAge i := Nat.le_min.2 ⟨Nat.le_refl _, old⟩
  simp only [exec, execResidualAgeExpiry, canResidualAgeExpiry, valid, awake, runs, age, beq_self_eq_true, Bool.not_false,
    decide_true, Bool.and_self, if_true]

/-- Settles O31: each word's result is read off its step, and the age sends what the delivery of a slot sends. -/
theorem residualWords : Obligations.ResidualWords := by
  refine ⟨fun s d fresh => ⟨_, s.residualMask, exec_bpqry_mask fresh d, s.retired_issue .., fun i => s.residualMask_getLsbD⟩,
    fun s a d fresh => ?_, fun s d fresh => ⟨_, exec_bpqry_pend fresh d, s.retired_issue ..⟩,
    fun s c i valid awake runs old => ?_⟩
  · exact ⟨_, exec_bpqry_slot fresh d, s.retired_issue ..⟩
  · obtain ⟨-, slots, seq, cores, -⟩ := deliverSlot_shape s c i
    exact ⟨_, s.residualAddend c i, exec_residualAgeExpiry valid awake runs old, s.deliverSlot_reqs valid, rfl, rfl, rfl, rfl, rfl,
      slots, s.deliverSlot_prio valid, seq, cores, s.deliverSlot_memory c i⟩

end Sys2Proof.Machine
end

section
/-! SUPPORT. REPLICA_INVALIDATE (R83, R84) in a state whose requests do not have numbers of their own. -/

namespace Sys2Proof.Machine

open Sys2Proof Sys2Proof.Safety

/-- A write of line 0 that awaits the acknowledgement of die 1. -/
def awaitingWrite : Req := { Req.blank (.store 0 3) .write 0 8 with id := 7, phase := .acks, acks := [1] }

/-- A read of line 0 through die 1 that waits for its fill, under the write's number: the invalidation overtakes it (R83). -/
def overtakenRead : Req := { Req.blank (.land 24 5) .read 0 8 with id := 7, phase := .fill, ok := false, replicaOf := some 1 }

/-- The invalidation of line 0 whose acknowledgement the write awaits. -/
def awaitedInvalidation : InvMsg := ⟨0, 1, 0, 7⟩

/-- The two requests in flight, and the invalidation on its path. -/
def sharedNumber : State := { State.reset with invs := [awaitedInvalidation], reqs := [awaitingWrite, overtakenRead] }

/-- The write goes homeward with the read: `State.refill` names the reads that it sends homeward by their numbers. -/
theorem exec_replicaInvalidate_sharedNumber :
    ∃ t, exec (.replicaInvalidate 1 0) sharedNumber = .next t ∧ ∀ r ∈ t.reqs, r.phase = .homeward :=
  ⟨_, rfl, by decide⟩

/-- Refutes O58, in its clause on REPLICA_INVALIDATE: where a write and a read that the invalidation overtakes have one number,
the write goes homeward with the read. The clause supposes nothing of the numbers; no run reaches such a state, since
`State.send` gives each request a new number. -/
theorem not_hubEvents : ¬ Obligations.HubEvents := by
  rintro ⟨-, -, -, invalidated, -⟩
  obtain ⟨t, run, -, -, acknowledged, -⟩ := invalidated sharedNumber 1 0 awaitedInvalidation (by decide) (by decide)
  obtain ⟨u, runs, homeward⟩ := exec_replicaInvalidate_sharedNumber
  obtain rfl : t = u := Host.Outcome.next.inj (run.symm.trans runs)
  have moved := homeward _ (acknowledged awaitingWrite (List.mem_cons_self ..) rfl rfl)
  exact absurd moved (by decide)

end Sys2Proof.Machine
end

section
/-! SUPPORT. RECORD_START (R304, R305): a record that starts, and one that is complete because a record it depends on failed. -/

namespace Sys2Proof.Machine

open Sys2Proof Sys2Proof.Safety

/-! ## Statuses -/

/-- A record has failed where its status is one of a record that is complete, and not 0x01. -/
theorem WorkQueue.failed_iff (w : WorkQueue) (n : Nat) :
    w.failed n = true ↔ w.status n ≠ 0 ∧ ¬ (w.status n = 0x01 ∨ w.status n = 0x80 ∨ w.status n = 0xFE) := by
  simp only [WorkQueue.failed, Bool.and_eq_true, bne_iff_ne, ne_eq, not_or, and_assoc]

/-- A record that may start waits for no record of its DEP. -/
theorem WorkQueue.startable_deps {f : Func} {w : WorkQueue} {r : Record} (may : w.startable f = some r) :
    ∀ p ∈ r.deps, (f.queue p.2).status p.1 ≠ 0 := by
  simp only [WorkQueue.startable] at may
  split at may
  · cases may
  · rename_i o _
    split at may
    · cases may
    · split at may
      · cases may
      · rename_i complete
        obtain rfl : o = r := Option.some.inj may
        intro p dep waits
        exact complete (List.any_eq_true.mpr ⟨p, dep, by rw [waits, beq_self_eq_true]⟩)

/-! ## Changes of one record -/

theorem State.records_updRecord (s : State) (fn wq n : Nat) (g : Record → Record) :
    ((s.updRecord fn wq n g).wq fn wq).records = (s.wq fn wq).records.map fun r => if r.seq = n then g r else r := by
  rw [State.updRecord, State.wq_updWq]

/-- A change of a record that keeps its number is found under the number. -/
theorem State.find_updRecord {s : State} {fn wq n : Nat} {g : Record → Record} {r : Record} (keeps : ∀ r, (g r).seq = r.seq)
    (found : (s.wq fn wq).records.find? (fun k => k.seq == n) = some r) :
    ((s.updRecord fn wq n g).wq fn wq).records.find? (fun k => k.seq == n) = some (g r) := by
  have seq (k : Record) : (if k.seq = n then g k else k).seq = k.seq := by split <;> simp only [keeps]
  have named : r.seq = n := by simpa using List.find?_some found
  rw [State.records_updRecord, List.find?_map]
  simp only [Function.comp_def, seq, found, Option.map_some, named, if_true]

/-- A record that still has tasks to dispatch stays as it is. -/
theorem State.checkRecord_undrained {s : State} {fn wq n : Nat} {r : Record}
    (found : (s.wq fn wq).records.find? (fun k => k.seq == n) = some r) (more : r.drained = false) :
    s.checkRecord fn wq n = s := by
  simp only [State.checkRecord, found, more, Bool.not_false, true_or, or_true, if_true]

/-- A waiting record that depends on a record that failed knows of it (R305). -/
def Record.dependantOf (wq seq : Nat) (k : Record) : Record :=
  if k.state = .waiting ∧ (seq, wq) ∈ k.deps then { k with depFailed := true } else k

theorem State.records_failDependants (s : State) (fn wq seq q : Nat) :
    ((s.failDependants fn wq seq).wq fn q).records = (s.wq fn q).records.map (Record.dependantOf wq seq) := by
  have mark : (fun r : Record => if r.state == .waiting && r.deps.contains (seq, wq) then { r with depFailed := true } else r)
      = Record.dependantOf wq seq := by
    funext r
    simp only [Record.dependantOf, Bool.and_eq_true, beq_iff_eq, List.contains_iff_mem]
  rw [State.wq, State.failDependants, State.fn_updFn, Func.queue, mark,
    tget_map q (fun w : WorkQueue => { w with records := w.records.map (Record.dependantOf wq seq) }) WorkQueue.reset rfl]
  rfl

/-- A record without a completion address that fails is complete, and its dependants know of it. -/
theorem State.records_completeRecord_failed {s : State} {fn wq n st : Nat} {r : Record}
    (found : (s.wq fn wq).records.find? (fun k => k.seq == n) = some r) (silent : r.cpl = 0) (failed : st ≠ 0x01) :
    ((s.completeRecord fn wq n st).wq fn wq).records = (s.wq fn wq).records.map fun k =>
      if k.seq = n then { k with state := .complete, status := st } else k.dependantOf wq n := by
  simp only [State.completeRecord, found, silent, true_or, if_true, if_neg failed]
  rw [State.records_failDependants, State.records_updRecord, List.map_map]
  refine List.map_congr_left fun k _ => ?_
  simp only [Function.comp_apply]
  split
  · simp only [Record.dependantOf, reduceCtorEq, false_and, if_false]
  · rfl

/-! ## The event -/

/-- The record dispatches its tasks from now on; one with a bound of 0 has none. -/
def Record.begun (r : Record) : Record := { r with state := .dispatching, drained := r.bounds.any (· == 0) }

section
variable {s : State} {fn wq : Nat} {r : Record} (runs : (s.wq fn wq).park = false) (attached : (s.wq fn wq).att ≠ none)
  (may : (s.wq fn wq).startable (s.fn fn) = some r)
include runs attached may

theorem exec_recordStart : exec (.recordStart fn wq) s = .next
    (if r.depFailed || r.deps.any fun p => (s.wq fn p.2).failed p.1 then s.completeRecord fn wq r.seq 0x03
      else (s.updRecord fn wq r.seq Record.begun).checkRecord fn wq r.seq) := by
  have can : canRecordStart fn wq s = true := by
    rw [canRecordStart, runs, may, Option.isSome_iff_ne_none.mpr attached]
    rfl
  simp only [exec, execRecordStart, can, may, if_true]
  rfl

theorem exec_recordStart_starts (found : (s.wq fn wq).records.find? (fun k => k.seq == r.seq) = some r)
    (sound : r.depFailed = false) (deps : ∀ p ∈ r.deps, (s.wq fn p.2).failed p.1 = false) (bounds : ∀ b ∈ r.bounds, b ≠ 0) :
    exec (.recordStart fn wq) s = .next (s.updRecord fn wq r.seq Record.begun) := by
  have none : (r.deps.any fun p => (s.wq fn p.2).failed p.1) = false :=
    List.any_eq_false.mpr fun p dep => ne_true_of_eq_false (deps p dep)
  have more : r.begun.drained = false := List.any_eq_false.mpr fun b bound => by simpa using bounds b bound
  rw [exec_recordStart runs attached may, sound, none, Bool.or_false, if_neg Bool.false_ne_true,
    State.checkRecord_undrained (State.find_updRecord (g := Record.begun) (fun _ => rfl) found) more]

theorem exec_recordStart_fails (failed : r.depFailed = true ∨ ∃ p ∈ r.deps, (s.wq fn p.2).failed p.1 = true) :
    exec (.recordStart fn wq) s = .next (s.completeRecord fn wq r.seq 0x03) := by
  rw [exec_recordStart runs attached may, if_pos]
  rw [Bool.or_eq_true, List.any_eq_true]
  exact failed

end

/-- Settles O36: a record of the DEP has failed exactly where it is complete with a status that is not satisfied. -/
theorem recordStart : Obligations.RecordStart := by
  intro s fn wq r runs attached may found
  refine ⟨fun sound deps bounds => ?_, fun failed silent => ?_⟩
  · refine ⟨_, exec_recordStart_starts runs attached may found sound (fun p dep => ?_) bounds, s.records_updRecord ..⟩
    exact Bool.eq_false_iff.mpr fun failed => ((WorkQueue.failed_iff ..).mp failed).2 (deps p dep)
  · refine ⟨_, exec_recordStart_fails runs attached may (failed.imp_right fun ⟨p, dep, no⟩ => ⟨p, dep, ?_⟩),
      State.records_completeRecord_failed found silent (by decide)⟩
    exact (WorkQueue.failed_iff ..).mpr ⟨WorkQueue.startable_deps may p dep, no⟩

end Sys2Proof.Machine
end

section
/-! SUPPORT. SUBMISSION_DECIDED (R301, R302, R318): the record joins its queue or does not, and the result reaches the RECORD or
WQRES. -/

namespace Sys2Proof.Machine

open Sys2Proof Sys2Proof.Safety

/-- The record joins its queue, or a hand-over is undone. -/
def State.afterDecision (s : State) (b : Submission) : Except Nat Record → State
  | .ok k => (s.updWq b.fn b.wq fun w => w.accept k).keepHand b
  | .error _ => s.undoHand b

/-- The result of a submission reaches the RECORD that sent it, or WQRES. -/
def State.tellResult (s : State) (b : Submission) (v : Dbl) : State :=
  match b.from_ with
  | some (c, id) => s.landAnswer c id v
  | none => s.updWq b.fn b.wq fun w => { w with wqres := v }

theorem exec_submissionDecided {s r : State} {d : Nat} {b : Submission} {l : List Submission} {x : Except Nat Record}
    (oldest : (s.die d).subs = b :: l) (decided : (s.updDie d fun v => { v with subs := l }).decideSubmission d b = (r, x)) :
    exec (.submissionDecided d) s = .next ((r.afterDecision b x).tellResult b (submissionResult b.wq x)) := by
  simp only [exec, execSubmissionDecided, oldest, decided]
  cases x <;> rfl

theorem State.afterDecision_ok (s : State) (b : Submission) (k : Record) :
    (s.afterDecision b (.ok k)).wq b.fn b.wq = (s.wq b.fn b.wq).accept k := by
  rw [State.afterDecision, keepHand_wqs, State.wq_updWq]

theorem State.afterDecision_error (s : State) (b : Submission) (e : Nat) :
    (s.afterDecision b (.error e)).wq b.fn b.wq = s.wq b.fn b.wq := undoHand_wqs s b ..

/-- Telling the result changes WQRES alone of the queue. -/
theorem State.tellResult_wq (s : State) (b : Submission) (v : Dbl) :
    ((s.tellResult b v).wq b.fn b.wq).records = (s.wq b.fn b.wq).records
      ∧ ((s.tellResult b v).wq b.fn b.wq).next = (s.wq b.fn b.wq).next
      ∧ (b.from_ = none → ((s.tellResult b v).wq b.fn b.wq).wqres = v) := by
  rw [State.tellResult]
  split
  · rename_i c id sender
    rw [(landAnswer_shape s c id v).1, sender]
    exact ⟨rfl, rfl, fun none => nomatch none⟩
  · rw [State.wq_updWq]
    exact ⟨rfl, rfl, fun _ => rfl⟩

/-- Settles O35, from what the decision and the telling of its result change of the queue. -/
theorem submissionDecided : Obligations.SubmissionDecided := by
  intro s r d b l x oldest decided
  obtain ⟨records, next, answer⟩ := (r.afterDecision b x).tellResult_wq b (submissionResult b.wq x)
  refine ⟨_, exec_submissionDecided oldest decided, fun k ok => ?_, fun e error => ?_, answer, fun c i sender => ?_⟩
  · subst ok
    rw [records, next, State.afterDecision_ok]
    exact ⟨List.mem_append_right _ List.mem_cons_self, rfl⟩
  · subst error
    rw [records, next, State.afterDecision_error]
    exact ⟨rfl, rfl⟩
  · simp only [State.tellResult, sender]
    exact (landAnswer_shape ..).2

end Sys2Proof.Machine
end

section
/-! SUPPORT. TASK_DISPATCH (R307 to R312): the task that the walker chooses. -/

namespace Sys2Proof.Machine

open Sys2Proof Sys2Proof.Safety

theorem State.reserve_fn (s : State) (d : Nat) (l : List Candidate) (f : Nat) : (s.reserve d l).fn f = s.fn f := by
  rw [State.reserve]
  split <;> rfl

/-- Where no task starts again or resumes, the walker dispatches its choice. -/
theorem exec_taskDispatch {s : State} {d : Nat} {k : Candidate} {cs : List Nat} {g : List Candidate}
    (idle : (s.die d).lookup = none) (runs : (s.die d).tstop = false)
    (chosen : s.choose d (s.sorted d) [] = (some (k, cs), g)) (again : (s.reserve d g).redoTask d = none)
    (resumes : (s.reserve d g).resumable d = none) :
    exec (.taskDispatch d) s = .next ((s.reserve d g).dispatch d k cs) := by
  have can : canTaskDispatch d s = true := by
    simp only [canTaskDispatch, idle, runs, chosen, Option.isNone_none, Bool.not_false, Option.isSome_some, Bool.or_true,
      Bool.true_or, Bool.and_self]
  simp only [exec, execTaskDispatch, can, chosen, State.dispatchBest, again, resumes, Option.map_some, Option.getD_some, if_true]

/-- Settles O37: `dispatch_shape`, on the state in which the cores of gangs are reserved. -/
theorem taskDispatch : Obligations.TaskDispatch := by
  intro s d k cs g rs idle runs chosen u again resumes launch notPure regions race
  obtain ⟨placed, registered, -⟩ := dispatch_shape u d k cs rs launch notPure regions
    ((State.race_congr (congrArg Func.registry (s.reserve_fn d g k.fn)) ..).trans race)
  refine ⟨_, exec_taskDispatch idle runs chosen again resumes, fun c place => ⟨?_, (placed c place).2⟩, ?_⟩
  · refine name_any (placed c place).1 _ fun x same => ?_
    have fn : x.fn = k.fn := congrArg (·.1.1) same
    have wq : x.wq = k.wq := congrArg (·.1.2.1) same
    have rseq : x.rseq = k.record.seq := congrArg (·.1.2.2.1) same
    have tseq : x.tseq = k.record.nextTask := congrArg (·.1.2.2.2) same
    have members : x.members = cs := congrArg (·.2.1) same
    rw [fn, wq, rseq, tseq, members]
    simp only [BEq.rfl, Bool.and_self]
  · rw [registered, s.reserve_fn]

end Sys2Proof.Machine
end

section
/-! SUPPORT. FWINV and FWQRY (R321, R322): entries dropped on every die, and counts of the core's die. -/

namespace Sys2Proof.Machine

open Sys2Proof Sys2Proof.Safety

/-! ## FWINV -/

theorem State.dropFw_fw (s : State) (fn : Nat) (p : FwEntry → Bool) (d : Nat) :
    ((s.dropFw fn p).die d).fw = (s.die d).fw.filter fun e => !(e.fn == fn && p e) :=
  congrArg Die.fw (tget_map d (fun x : Die => { x with fw := x.fw.filter fun e => !(e.fn == fn && p e) }) Die.reset rfl s.dies)

/-- Does FWINV name the entry? -/
def State.fwinvNames (s : State) (o : Option Src) (e : FwEntry) : Bool :=
  o.all fun a => isVirtual (operand s a) && e.vaGranules.contains ((operand s a).toNat / 65536)

theorem State.curFn_of {s : State} {k : Task} (task : (s.core s.cur.core).task = some k) : s.curFn = k.fn := by
  rw [State.curFn, State.task, task]
  rfl

theorem exec_fwinv {s : State} {o : Option Src} {k : Task} (fresh : Fresh s o.toList) (ordinary : Ordinary s s.cur.core)
    (task : (s.core s.cur.core).task = some k) (formed : ∀ a ∈ o, formOk (operand s a) = true) :
    exec (.fwinv o) s = .next ((s.dropFw k.fn (s.fwinvNames o)).issue o.toList 1 none) := by
  simp only [exec, execFwinv, State.withOperands_fresh fresh, State.impure_ordinary ordinary, State.curFn_of task]
  cases o with
  | none => rfl
  | some a =>
    have ok : formOk (operand s a) = true := formed a rfl
    simp only [Option.map_some, Option.getD_some, State.opd_eq_operand, ok, Option.isSome_some, Bool.not_true, Bool.and_false,
      Bool.false_eq_true, if_false]
    rfl

/-! ## FWQRY -/

theorem exec_fwqry {s : State} {k : Task} (fresh : Fresh s []) (ordinary : Ordinary s s.cur.core)
    (task : (s.core s.cur.core).task = some k) (w : FwKind) (d : Dest) :
    exec (.fwqry w d) s = .next (s.issue [] 1 (some (dbl
      (if w = .ent then ((s.die (dieOf s.cur.core)).fw.filter fun e => e.fn == k.fn).length
        else (tget (s.fn k.fn).fwctr (dieOf s.cur.core) FwCounters.zero).pick w), d))) := by
  simp only [exec, execFwqry, State.withOperands_fresh fresh, State.impure_ordinary ordinary, State.curFn_of task]

/-- Settles O33: each word is one step, on the state without the entries named or with the count as its result. -/
theorem freewheelWords : Obligations.FreewheelWords := by
  refine ⟨fun s o k fresh ordinary task formed => ?_, fun s w d k fresh ordinary task => ?_⟩
  · have retired := (s.dropFw k.fn (s.fwinvNames o)).retired_issue o.toList none
    refine ⟨_, exec_fwinv fresh ordinary task formed, retired.stepped rfl, fun d => ?_, retired.others,
      ⟨retired.memory.1, retired.memory.2, retired.memory.3⟩⟩
    rw [State.die, retired.outside.dies]
    exact s.dropFw_fw k.fn (s.fwinvNames o) d
  · refine ⟨_, exec_fwqry fresh ordinary task w d, ?_⟩
    cases w <;> exact s.retired_issue [] _

end Sys2Proof.Machine
end

section
/-! SUPPORT. Freewheel's events (R326, R327, R329, R331): hits that retire their tasks, the entry of a pure task, and watches. -/

namespace Sys2Proof.Machine

open Sys2Proof Sys2Proof.Safety

/-! ## Hits -/

/-- What a hit's retirement leaves of the lookup and of the task's registration. -/
def HitGone (s t : State) (d : Nat) (k : Task) : Prop :=
  (t.die d).lookup = none
    ∧ (t.fn k.fn).registry = (s.fn k.fn).registry.filter fun g => !(g.wq == k.wq && g.rseq == k.rseq && g.tseq == k.tseq)

theorem exec_freewheelCleanHit {s : State} {d : Nat} {l : FwLookup} (found : (s.die d).lookup = some l)
    (clean : l.clean = true) :
    exec (.freewheelCleanHit d) s = .next (s.retireHit d l fun k => { k with hit := k.hit + 1 }) := by
  simp only [exec, execFreewheelCleanHit, found, clean, if_true]

/-- The entry that a dirty hit used is clean (R326), and its granules that are written are watched. -/
def State.hitWritten (s : State) (d : Nat) (l : FwLookup) : State :=
  let u := { s with reqs := s.reqs.filter fun r => !l.reqs.contains r.id }
  let v := u.fwView d l.task.fn (u.rootOf l.task.fn l.task.wq) l.task.regions
  let wr := (v.2.map (·.wr)).getD []
  (v.1.registerWatches d true wr).updDie d fun x => { x with fw := x.fw.map fun (e : FwEntry) =>
    if e.id = l.entry.id then { e with wclean := true, wrBases := wrBasesOf l.task.regions, wrGranules := wr } else e }

theorem Walked.hitWritten (s : State) (d : Nat) (l : FwLookup) : Walked s (s.hitWritten d l) := by
  have dropped : Walked s { s with reqs := s.reqs.filter fun r => !l.reqs.contains r.id } :=
    Walked.aside ⟨rfl, rfl, rfl, rfl, rfl⟩
  rw [State.hitWritten]
  refine Walked.trans (Walked.trans (Walked.trans dropped (Walked.fwView ..)) (Walked.registerWatches ..))
    (Walked.updDie _ _ _ ?_)
  exact fun _ => rfl

theorem State.hitWritten_clean (s : State) (d : Nat) (l : FwLookup) :
    ∀ e ∈ ((s.hitWritten d l).die d).fw, e.id = l.entry.id → e.wclean = true := by
  intro e entry id
  rw [State.hitWritten, State.die_updDie] at entry
  obtain ⟨o, -, change⟩ := List.mem_map.mp entry
  split at change
  · rw [← change]
  · rename_i other
    rw [← change] at id
    exact absurd id other

theorem exec_freewheelDirtyHitDone {s : State} {d : Nat} {l : FwLookup} (found : (s.die d).lookup = some l)
    (dirty : l.clean = false) (performed : ∀ i ∈ l.reqs, ∃ r ∈ s.reqs, r.id = i ∧ r.phase = .answered) :
    exec (.freewheelDirtyHitDone d) s = .next ((s.hitWritten d l).retireHit d l fun k => { k with hitc := k.hitc + 1 }) := by
  have can : canFreewheelDirtyHitDone d s = true := by
    rw [canFreewheelDirtyHitDone, found, Option.any_some, dirty, Bool.not_false, Bool.true_and, List.all_eq_true]
    intro i request
    obtain ⟨r, there, id, phase⟩ := performed i request
    exact List.any_eq_true.mpr ⟨r, there, by rw [id, phase]; simp only [BEq.rfl, Bool.and_self]⟩
  simp only [exec, execFreewheelDirtyHitDone, can, found, if_true]
  rfl

/-! ## The entry of a pure task -/

section
variable {s : State} {c : Nat} {k : Task} {p : PureInfo} (may : canFreewheelEntryMade c s = true)
  (task : (s.core c).task = some k) (info : k.pureInfo = some p)
include may task info

theorem exec_freewheelEntryMade_large (large : 2 ^ 24 < 1024 + rowsLen (wrRows k.regions)) :
    exec (.freewheelEntryMade c) s = .next (s.abandon c k) := by
  simp only [exec, execFreewheelEntryMade, may, task, info, if_true, if_pos large]

/-- The entry stands on the die, and the members of the task have it counted. -/
theorem exec_freewheelEntryMade_made {v : FwView} {u r : State} {l : List (Nat × Nat)} {w need : Nat}
    (fits : 1024 + rowsLen (wrRows k.regions) ≤ 2 ^ 24) (chunks : (1024 + rowsLen (wrRows k.regions) + 65535) / 65536 = need)
    (view : (s.fwView (dieOf c) k.fn (s.rootOf k.fn k.wq) k.regions).2 = some v)
    (pieces : s.rowPieces (dieOf c) k.fn (s.rootOf k.fn k.wq) ⟨0, 0⟩ (wrRows k.regions) = (u, some l))
    (made : u.makeRoom (dieOf c) k.fn need 2048 = r) (way : r.fwVictim (dieOf c) k.fn p.key = some w)
    (room : need ≤ (r.freeChunks k.fn).length) :
    ∃ (z : State) (e : FwEntry), exec (.freewheelEntryMade c) s = .next ((z.updDie (dieOf c) fun x =>
        { x with fw := (x.fw.filter fun o => !(o.set == e.set && o.way == e.way)) ++ [e] }).useId.markPure k.members)
      ∧ e.key = p.key ∧ e.words = p.words ∧ e.fn = k.fn ∧ e.set = p.key.toNat % 256 ∧ e.way = w ∧ e.wclean = true
      ∧ e.rdGranules = p.granules ∧ e.wrGranules = v.wr := by
  have viewed : s.fwView (dieOf c) k.fn (s.rootOf k.fn k.wq) k.regions
    = ((s.fwView (dieOf c) k.fn (s.rootOf k.fn k.wq) k.regions).1, some v) := Prod.ext rfl view
  have enough : ¬ ((r.freeChunks k.fn).take need).length < need := by
    rw [List.length_take, Nat.min_eq_left room]
    exact Nat.lt_irrefl _
  rw [exec, execFreewheelEntryMade, if_pos may]
  rw [task]
  dsimp only
  rw [info]
  dsimp only
  rw [if_neg (Nat.not_lt.mpr fits), chunks, viewed, pieces]
  dsimp only
  rw [made, way]
  dsimp only
  rw [if_neg enough]
  exact ⟨_, ⟨_, _, _, _, _, _, _, _, _, _, _, _, _, _, _, _, _, _⟩, rfl, rfl, rfl, rfl, rfl, rfl, rfl, rfl, rfl⟩

end

theorem State.markPure_die (s : State) (ms : List Nat) (d : Nat) : (s.markPure ms).die d = s.die d := by
  obtain ⟨⟨cs, shape⟩, -⟩ := markPure_shape ms s
  rw [shape]
  rfl

/-! ## Watches -/

theorem exec_watchMessage {s : State} {m : WatchMsg}
    (found : s.watchMsgs.find? (fun k => k.id == m.id && !k.applied) = some m) :
    exec (.watchMessage m.id) s = .next { s.applyWatch m with
      watchMsgs := (s.applyWatch m).watchMsgs.map fun (k : WatchMsg) => if k.id = m.id then { k with applied := true } else k } := by
  have can : canWatchMessage m.id s = true := by
    rw [canWatchMessage, ← List.isSome_find?, found]
    rfl
  simp only [exec, execWatchMessage, can, found, if_true]

/-- A watch message changes entries of its die alone. -/
theorem State.applyWatch_dies (s : State) (m : WatchMsg) : (s.applyWatch m).dies = (s.updDie m.dst fun d =>
    { d with fw := if m.invalidate then d.fw.filter fun e => !e.rdGranules.contains m.granule
                   else d.fw.map fun e => if e.wrGranules.contains m.granule then { e with wclean := false } else e }).dies := by
  rw [State.applyWatch]
  split <;> rfl

theorem exec_watchAcknowledgement {s : State} {w : Nat} (sent : ∃ m ∈ s.watchMsgs, m.watch = w)
    (applied : ∀ m ∈ s.watchMsgs, m.watch = w → m.applied = true) :
    exec (.watchAcknowledgement w) s = .next (({ s with watchMsgs := s.watchMsgs.filter (·.watch != w) } : State).watchDone w
      (s.reqs.filter fun r => r.watches.contains w)) := by
  have can : canWatchAcknowledgement w s = true := by
    obtain ⟨m, there, watch⟩ := sent
    rw [canWatchAcknowledgement, Bool.and_eq_true, List.any_eq_true, List.all_eq_true]
    refine ⟨⟨m, there, by rw [watch, BEq.rfl]⟩, fun m there => ?_⟩
    by_cases watch : m.watch = w
    · rw [applied m there watch, Bool.or_true]
    · rw [bne_iff_ne.mpr watch, Bool.true_or]
  simp only [exec, execWatchAcknowledgement, can, if_true]

/-- Settles O34: hits by `retireHit_shape`, the entry by the state that makes it, watches by what their messages change. -/
theorem freewheelEvents : Obligations.FreewheelEvents := by
  refine ⟨fun s d l found => ⟨fun clean => ?clean, fun dirty performed => ?dirty⟩,
    fun s c k p may task info => ⟨fun large => ?large, fun v u l w fits view pieces way room => ?made⟩,
    fun s m found => ?message, fun s w sent applied => ?acknowledged⟩
  case clean =>
    obtain ⟨lookup, -, registry, count⟩ := retireHit_shape s d l fun k => { k with hit := k.hit + 1 }
    exact ⟨_, exec_freewheelCleanHit found clean, ⟨lookup, registry⟩, count⟩
  case dirty =>
    obtain ⟨lookup, entries, registry, count⟩ := retireHit_shape (s.hitWritten d l) d l fun k => { k with hitc := k.hitc + 1 }
    have walked := Walked.hitWritten s d l
    obtain ⟨registered, counters, -⟩ := (walked.fns l.task.fn).lists
    rw [registered] at registry
    rw [counters] at count
    refine ⟨_, exec_freewheelDirtyHitDone found dirty performed, ⟨lookup, registry⟩, count, fun silent => ?_⟩
    rw [entries fun r record => ?_]
    · exact s.hitWritten_clean d l
    · obtain ⟨o, there, cpl⟩ := (walked.fns l.task.fn).cpls l.task.wq r record
      rw [← cpl]
      exact silent o there
  case large =>
    obtain ⟨counted, unc⟩ := abandon_shape s c k
    exact ⟨_, exec_freewheelEntryMade_large may task info large, counted, unc⟩
  case made =>
    obtain ⟨z, e, run, fields⟩ := exec_freewheelEntryMade_made may task info fits rfl view pieces rfl way room
    refine ⟨_, e, run, fun m member => (markPure_shape _ _).2 m (.inr member), ?_, fields⟩
    rw [State.markPure_die, State.useId_die, dieOf, State.die_updDie]
    exact List.mem_append_right _ List.mem_cons_self
  case message =>
    have dies (d : Nat) := congrArg (fun l => tget l d Die.reset) (s.applyWatch_dies m)
    obtain ⟨_, _, shape⟩ := s.applyWatch_shape m
    refine ⟨_, exec_watchMessage found, fun k message id => ?_, (congrArg Die.fw ((dies m.dst).trans (State.die_updDie ..))),
      fun d other => (dies d).trans (State.die_updDie_ne _ _ other), ?_, ?_⟩
    · obtain ⟨o, -, change⟩ := List.mem_map.mp message
      split at change
      · rw [← change]
      · rename_i different
        rw [← change] at id
        exact absurd id different
    · rw [shape]
    · rw [shape]
      exact ⟨fun _ => rfl, rfl, rfl, rfl⟩
  case acknowledged =>
    obtain ⟨free, ⟨⟨mem, keys, poison⟩, -⟩, rereads, messages⟩ := watchDone_shape w (s.reqs.filter fun r => r.watches.contains w)
      { s with watchMsgs := s.watchMsgs.filter (·.watch != w) } fun q there waits =>
        ⟨q, List.mem_filter.mpr ⟨there, List.contains_iff_mem.mpr waits⟩, rfl⟩
    exact ⟨_, exec_watchAcknowledgement sent applied, messages, free,
      ⟨fun a => congrArg (memRead · a) mem, keys, poison, rereads⟩⟩

end Sys2Proof.Machine
end

section
/-! SUPPORT. RECORD, RECORD.hand and RWAIT (R318 to R320): the submission that reaches its walker, the regions that are handed over,
and the completion double of a record. -/

namespace Sys2Proof.Safety

open Sys2Proof Sys2Proof.Machine

theorem LookedRead.wq_att {s r : State} (looked : LookedRead s r) (f q : Nat) : (r.wq f q).att = (s.wq f q).att := by
  obtain ⟨_, _, _, shape⟩ := looked.fns f
  rw [State.wq, shape]
  rfl

theorem LookedRead.subs {s r : State} (looked : LookedRead s r) (d : Nat) : (r.die d).subs = (s.die d).subs := by
  obtain ⟨_, _, _, shape⟩ := looked.dies d
  rw [shape]

theorem LookedRead.task {s r : State} (looked : LookedRead s r) (c : Nat) : (r.core c).task = (s.core c).task := by
  obtain ⟨_, shape⟩ := looked.cores c
  rw [shape]

theorem LookedRead.writersIn {s r : State} (looked : LookedRead s r) (c : Nat) :
    (r.core c).writersIn = (s.core c).writersIn := by
  obtain ⟨_, shape⟩ := looked.cores c
  rw [shape]
  rfl

end Sys2Proof.Safety

namespace Sys2Proof.Machine

open Sys2Proof Sys2Proof.Safety

/-! ## Regions handed over -/

/-- Without a writing region the hand-over changes none. -/
theorem handOver_none {l : List Region} (none : handedOf l = []) : handOver l = l := by
  have reads (r : Region) (region : r ∈ l) : (r.space == 0 && (r.kind == .wr || r.kind == .rw)) = false :=
    Bool.eq_false_iff.mpr (List.filter_eq_nil_iff.mp none r region)
  have kept : (l.filter fun r => !(r.space == 0 && r.kind == .wr)) = l := List.filter_eq_self.mpr fun r region => by
    have := reads r region
    cases h : r.space == 0 <;> simp_all
  rw [handOver, kept]
  refine (List.map_congr_left fun r region => if_neg ?_).trans (List.map_id l)
  have := reads r region
  cases h : r.space == 0 <;> simp_all

/-- The members of a task whose accesses are performed have nothing left to write back. -/
theorem State.fenceLines_settled {s : State} {sc : Scope} {ms : List Nat} (settled : ∀ m ∈ ms, Settled s m sc) :
    ms.foldl (fun s m => s.fenceLines m sc) s = s := by
  induction ms with
  | nil => rfl
  | cons m ms ih =>
    rw [List.foldl_cons, settled_lines (settled m List.mem_cons_self)]
    exact ih fun n member => settled n (List.mem_cons_of_mem m member)

theorem State.core_mapTasks (s : State) (fn : Nat) (f : Task → Task) (c : Nat) : (s.mapTasks fn f).core c =
    { s.core c with task := (s.core c).task.map fun (w : Task) => if w.fn = fn then f w else w } :=
  State.core_mapCores s (fun x => { x with task := x.task.map fun (w : Task) => if w.fn = fn then f w else w }) rfl rfl c

/-- The change of a task's regions leaves sequencers, queues, dies and memory alone. -/
theorem State.setRegions_frame (s : State) (k : Task) (regs handed : List Region) (c q : Nat) :
    (s.setRegions k regs handed).seq c = s.seq c ∧ (s.setRegions k regs handed).wq k.fn q = s.wq k.fn q
      ∧ (s.setRegions k regs handed).dies = s.dies ∧ MemoryKept s (s.setRegions k regs handed) := by
  refine ⟨?_, ?_, rfl, fun _ => rfl, rfl, rfl, rfl⟩
  · show ((s.mapTasks k.fn _).core c).seq = (s.core c).seq
    rw [State.core_mapTasks]
  · rw [State.setRegions, State.wq, State.fn_updFn]
    rfl

/-- Each task of that name has the regions then. -/
theorem State.setRegions_task {s : State} {k w : Task} {c : Nat} (task : (s.core c).task = some w)
    (name : w.fn = k.fn ∧ w.wq = k.wq ∧ w.rseq = k.rseq ∧ w.tseq = k.tseq) (regs handed : List Region) :
    ((s.setRegions k regs handed).core c).task = some { w with regions := regs, handed := handed } := by
  obtain ⟨fn, wq, rseq, tseq⟩ := name
  refine (congrArg Core.task (State.core_mapTasks s k.fn _ c)).trans ?_
  simp only [task, Option.map_some, if_pos fn, wq, rseq, tseq, and_self, if_true]

/-! ## The submission -/

/-- The submission that a RECORD sends to its walker. -/
def State.submission (s : State) (k : Task) (v : Dbl) (wq : Nat) (hand : Bool) (pa : Nat) : Submission :=
  ⟨k.fn, wq, v, some (s.cur.core, s.nextId), hand, if hand && handedOf k.regions != [] then k.regions else [],
    some (pa, s.keyAt s.cur.core pa)⟩

/-- The task's writing regions are handed over, where it has any. -/
def State.handRegions (s : State) (k : Task) (hand : Bool) : State :=
  if hand && handedOf k.regions != [] then s.setRegions k (handOver k.regions) (k.handed ++ handedOf k.regions) else s

/-- A RECORD that issues: its landing entry, the hand-over, and the submission. -/
def State.recordSent (s : State) (k : Task) (a : Src) (v : Dbl) (d : Dest) (wq slot : Nat) (hand : Bool) (pa : Nat) : State :=
  ((s.land [a] .record v d slot none []).handRegions k hand).submit (s.submission k v wq hand pa) s.cur.core

theorem State.handRegions_frame (s : State) (k : Task) (hand : Bool) (c q : Nat) :
    (s.handRegions k hand).seq c = s.seq c ∧ (s.handRegions k hand).wq k.fn q = s.wq k.fn q
      ∧ (s.handRegions k hand).dies = s.dies ∧ MemoryKept s (s.handRegions k hand) := by
  rw [State.handRegions]
  split
  · exact s.setRegions_frame ..
  · exact ⟨rfl, rfl, rfl, fun _ => rfl, rfl, rfl, rfl⟩

theorem State.handRegions_regions {s : State} {k : Task} {c : Nat}
    (task : ((s.core c).task.map fun t => { t with wd := 0 }) = some { k with wd := 0 }) (hand : Bool) :
    ((s.handRegions k hand).core c).task.any
      (fun v => v.regions == if hand then handOver k.regions else k.regions) = true := by
  obtain ⟨w, here, same⟩ := Option.map_eq_some_iff.mp task
  have name : w.fn = k.fn ∧ w.wq = k.wq ∧ w.rseq = k.rseq ∧ w.tseq = k.tseq :=
    ⟨(congrArg Task.fn same :), (congrArg Task.wq same :), (congrArg Task.rseq same :), (congrArg Task.tseq same :)⟩
  have regions : w.regions = k.regions := (congrArg Task.regions same :)
  by_cases change : (hand && handedOf k.regions != []) = true
  · rw [State.handRegions, if_pos change, State.setRegions_task here name, if_pos (Bool.and_eq_true_iff.mp change).1,
      Option.any_some, BEq.rfl]
  · have kept : (if hand = true then handOver k.regions else k.regions) = k.regions := by
      cases hand with
      | false => rfl
      | true => exact handOver_none (by simpa using change)
    rw [State.handRegions, if_neg change, here, Option.any_some, kept, regions, BEq.rfl]

/-- A RECORD whose bytes can be read, with room for its answer; a RECORD.hand waits for the task's accesses. -/
theorem exec_record {s r : State} {hand : Bool} {a : Src} {wq : BitVec 3} {pa : Nat} {k : Task} (fresh : Fresh s [a])
    (ordinary : Ordinary s s.cur.core) (virtual : isVirtual (operand s a) = true) (looked : LookedRead s r)
    (there : s.scalar (operand s a) 256 Need.read [.rd, .rw] = (r, .ok pa)) (task : (r.core s.cur.core).task = some k)
    (done : hand = true → ∀ m, m = s.cur.core ∨ m ∈ k.members → (r.core m).writersIn = false ∧ Settled r m .pkg)
    (room : (s.seq s.cur.core).landing.length < 16) (d : Dest) (slot : BitVec 8) :
    exec (if hand then .recordHand a d wq slot else .record a d wq slot) s
      = .next (r.recordSent k a (operand s a) d wq.toNat slot.toNat hand pa) := by
  have cur : r.cur = s.cur := Looked.cur looked.toLooked
  have free : ¬ 16 ≤ (r.seq s.cur.core).landing.length := by
    rw [Looked.seq looked.toLooked]
    omega
  have word : exec (if hand then .recordHand a d wq slot else .record a d wq slot) s
      = .next (s.record a d wq.toNat slot.toNat hand) := by cases hand <;> rfl
  rw [word]
  simp only [State.record, State.withOperands_fresh fresh, State.impure_ordinary ordinary, State.opd_eq_operand, virtual, there,
    Bool.not_true, Bool.false_eq_true, if_false]
  cases hand with
  | false =>
    simp only [Bool.false_eq_true, if_false, List.foldl_nil, List.any_nil, if_neg free, task, State.recordSent, State.handRegions, State.submission, cur]
  | true =>
    have members (m : Nat) (member : m ∈ s.cur.core :: (r.taskMembers s.cur.core).filter (· != s.cur.core)) :
        (r.core m).writersIn = false ∧ Settled r m .pkg := by
      refine done rfl m ((List.mem_cons.mp member).imp_right fun other => ?_)
      have := (List.mem_filter.mp other).1
      rwa [State.taskMembers, task] at this
    have quiet : ((s.cur.core :: (r.taskMembers s.cur.core).filter (· != s.cur.core)).any fun m =>
        (r.core m).writersIn || !r.performedAll m .pkg) = false := by
      refine List.any_eq_false.mpr fun m member => ?_
      obtain ⟨writers, settled⟩ := members m member
      rw [writers, settled_performed settled]
      exact Bool.false_ne_true
    simp only [if_true, State.fenceLines_settled fun m member => (members m member).2, quiet, Bool.false_eq_true, if_false,
      if_neg free, task, State.recordSent, State.handRegions, State.submission, cur]

/-! ## What the submission leaves -/

theorem State.submit_frame (s : State) (b : Submission) (c : Nat) :
    (s.submit b c).cores = s.cores ∧ MemoryKept s (s.submit b c) := ⟨rfl, fun _ => rfl, rfl, rfl, rfl⟩

/-- The submission joins those of the walker to which its queue is attached. -/
theorem State.recordSent_subs (r : State) (k : Task) (a : Src) (v : Dbl) (d : Dest) (wq slot : Nat) (hand : Bool) (pa : Nat) :
    ((r.recordSent k a v d wq slot hand pa).die ((r.wq k.fn wq).att.getD (r.cur.core / 24))).subs
      = (r.die ((r.wq k.fn wq).att.getD (r.cur.core / 24))).subs ++ [r.submission k v wq hand pa] := by
  obtain ⟨cs, landed⟩ := r.land_shape [a] .record v d slot none []
  obtain ⟨-, queue, dies, -⟩ := (r.land [a] .record v d slot none []).handRegions_frame k hand r.cur.core wq
  have here : ((r.land [a] .record v d slot none []).handRegions k hand).wq k.fn wq = r.wq k.fn wq := by
    rw [queue, landed]
    rfl
  have same : ((r.land [a] .record v d slot none []).handRegions k hand).dies = r.dies := by rw [dies, landed]
  rw [State.recordSent, State.submit]
  show (State.die (State.updDie _ ((State.wq _ k.fn wq).att.getD (dieOf r.cur.core)) _) _).subs = _
  rw [here, dieOf, State.die_updDie]
  simp only [State.die, same]

/-! ## RWAIT -/

/-- The status for which RWAIT waits (R305). -/
def State.awaitedStatus (s : State) (k : Task) (a : Src) : Nat :=
  (s.wq k.fn (bits (operand s a).toNat 48 3)).status (bits (operand s a).toNat 0 48)

theorem exec_rwait {s : State} {a : Src} {k : Task} (fresh : Fresh s [a]) (ordinary : Ordinary s s.cur.core)
    (task : (s.core s.cur.core).task = some k) (d : Dest) :
    exec (.rwait a d) s = .next (if s.awaitedStatus k a = 0 then s.stallSeq 3
      else s.issue [a] 1 (some (completionDbl (bits (operand s a).toNat 48 3) (bits (operand s a).toNat 0 48) (s.awaitedStatus k a), d))) := by
  simp only [exec, execRwait, State.withOperands_fresh fresh, State.impure_ordinary ordinary, State.opd_eq_operand,
    State.curFn_of task, State.awaitedStatus]
  rfl

theorem bits_sequence (v : Dbl) : bits v.toNat 0 48 = (v.setWidth 48).toNat := by
  rw [bits, Nat.pow_zero, Nat.div_one, BitVec.toNat_setWidth]

theorem bits_queue (v : Dbl) : bits v.toNat 48 3 = ((v >>> 48).setWidth 3).toNat := by
  rw [bits, BitVec.toNat_setWidth, BitVec.toNat_ushiftRight, Nat.shiftRight_eq_div_pow]

/-- Settles O32: the RECORD's landing entry by `State.retired_land`, then what the hand-over and the submission leave of it. -/
theorem recordWords : Obligations.RecordWords := by
  refine ⟨fun s r hand a d wq slot pa k fresh ordinary virtual there task done room => ?record,
    fun s a d k fresh ordinary task => ?rwait⟩
  case record =>
    have looked : LookedRead s r := by
      have h := s.scalar_lookedRead (operand s a) 256 Need.read [.rd, .rw] (by decide)
      rwa [there] at h
    have cur : r.cur = s.cur := Looked.cur looked.toLooked
    have next : r.nextPc = s.nextPc := by rw [State.nextPc, State.nextPc, cur]
    have run := exec_record (wq := wq) fresh ordinary virtual looked there ((looked.task _).trans task)
      (fun hands m member => (looked.writersIn m).symm ▸ done hands m member) room d slot
    obtain ⟨e, issued, id, -, kind, -, due, dest, arrived, -⟩ := r.retired_land [a] .record (operand s a) d slot.toNat none []
    have stepped := issued.stepped (g := fun q => { q with landing := q.landing ++ [e] }) rfl
    have named := issued.engines.task.trans (congrArg _ (looked.task r.cur.core))
    have subs := r.recordSent_subs k a (operand s a) d wq.toNat slot.toNat hand pa
    obtain ⟨seq, -, -, kept⟩ :=
      (r.land [a] .record (operand s a) d slot.toNat none []).handRegions_frame k hand s.cur.core wq.toNat
    rw [cur, Looked.seq looked.toLooked] at stepped due
    rw [next, ← seq] at stepped
    rw [cur, task] at named
    rw [cur, looked.wq_att, looked.subs] at subs
    exact ⟨_, e, _, run, stepped, kind, due, dest, arrived, subs, rfl, rfl, rfl, by rw [State.submission, cur, id], rfl,
      State.handRegions_regions named hand,
      MemoryKept.trans (LookedRead.kept looked) (MemoryKept.trans issued.memory (MemoryKept.trans kept (State.submit_frame ..).2))⟩
  case rwait =>
    have run := exec_rwait fresh ordinary task d
    have waits : s.awaitedStatus k a = (s.wq k.fn (((operand s a) >>> 48).setWidth 3).toNat).status ((operand s a).setWidth 48).toNat := by
      rw [State.awaitedStatus, bits_queue, bits_sequence]
    have small : ((operand s a).setWidth 48).toNat % 2 ^ 48 = ((operand s a).setWidth 48).toNat := Nat.mod_eq_of_lt (BitVec.isLt _)
    rw [bits_queue, bits_sequence, completionDbl, small, waits] at run
    refine ⟨fun unfinished => ?_, fun finished => ?_⟩
    · rw [if_pos unfinished] at run
      exact ⟨_, run, Stalled.stallSeq s 3⟩
    · rw [if_neg finished] at run
      exact ⟨_, run, s.retired_issue [a] _⟩

end Sys2Proof.Machine
end

section
/-! SUPPORT. Accesses of the host (R301, R303, R338, R357, R360, R376): doorbells, resume actions, requests of PF0, and the
registers of BAR0. -/

namespace Sys2Proof.Machine

open Sys2Proof Sys2Proof.Safety

section
variable {s : State} {rest : List HostMsg}

theorem State.took_of {m : HostMsg} (inbox : s.inbox = m :: rest) : s.took = { s with inbox := rest } := by
  rw [State.took, inbox]
  rfl

/-- A function whose BARs are open is one of the slice functions, after READY. -/
theorem State.barOpen_slice {f : Nat} (isOpen : s.barOpen f = true) : s.boot.ready = true ∧ sliceFn f = true := by
  simp only [State.barOpen, Bool.and_eq_true] at isOpen
  exact isOpen.1.1

theorem sliceFn_range {f : Nat} (slice : sliceFn f = true) : 1 ≤ f ∧ f ≤ 48 := by
  simpa [sliceFn] using slice

/-! ## Doorbells, resume actions and INVVA -/

theorem exec_doorbell {f q d : Nat} {va : Dbl} (inbox : s.inbox = .doorbell f q va :: rest) (isOpen : s.barOpen f = true)
    (queue : q < 8) (attached : (s.wq f q).att = some d) (stays : (s.fn f).migrating = false) :
    exec .doorbell s = .next (State.updDie { s with inbox := rest } d fun x =>
      { x with subs := x.subs ++ [⟨f, q, va, none, false, [], none⟩] }) := by
  have refused : s.bellRefused f q = false := by
    rw [State.bellRefused, attached, stays]
    rfl
  have same : s.took.barOpen f = true := isOpen
  have att : (s.took.wq f q).att = some d := attached
  have mig : (s.took.fn f).migrating = false := stays
  simp only [exec, execDoorbell, inbox, refused, Bool.false_and, Bool.false_eq_true, if_false, State.ring, same, Bool.not_true,
    Bool.false_or, decide_eq_true_eq, if_neg (Nat.not_le.mpr queue), att, mig]
  rw [State.took_of inbox]

theorem State.act_acts {f q act : Nat} (isOpen : s.barOpen f = true) (queue : q < 8) (parked : s.resumeStatus f q = 0)
    (acts : act ≠ 0) : s.act f q act = s.resumeQueue f q act (s.wq f q).wqval := by
  have closed : ¬ (s.barOpen f = false ∨ 8 ≤ q ∨ act = 0 ∨ s.resumeStatus f q ≠ 0) := by
    rintro (h | h | h | h)
    · exact absurd (isOpen.symm.trans h) (by decide)
    · omega
    · exact acts h
    · exact h parked
  rw [State.act, if_neg]
  simpa [or_assoc] using closed

/-- A write to INVVA that is not dropped says whether an invalidation goes on, or that its range is invalid. -/
theorem State.invva_flags {f q : Nat} (isOpen : s.barOpen f = true) (queue : q < 8) (idle : (s.wq f q).invBusy = false) (v : Dbl) :
    (v.toNat % 64 = 63 → ((s.invva f q v).wq f q).invBusy = true ∧ ((s.invva f q v).wq f q).invErr = false)
    ∧ (v.toNat % 64 < 16 → ((s.invva f q v).wq f q).invBusy = false ∧ ((s.invva f q v).wq f q).invErr = true) := by
  have kind : bits (bits v.toNat 0 57) 0 6 = v.toNat % 64 := by
    simp only [bits]
    omega
  have taken : (!s.barOpen f || decide (8 ≤ q) || (s.wq f q).invBusy) = false := by
    rw [isOpen, idle, decide_eq_false (Nat.not_le.mpr queue)]
    rfl
  simp only [State.invva, kind, taken, Bool.false_eq_true, if_false]
  refine ⟨fun all => ?_, fun small => ?_⟩
  · simp only [all, beq_self_eq_true, if_true, State.askInval, State.wq, State.fn_updFn, State.updWq, Func.queue, tget_tset_same,
      and_self]
  · have invalid : invRange (bits v.toNat 0 57) 57 = none := by
      rw [invRange, kind, if_pos (.inl small)]
    have part : (v.toNat % 64 == 63) = false := beq_false_of_ne (by omega)
    simp only [part, Bool.false_eq_true, if_false, invalid, State.wq_updWq, idle, and_self]

/-! ## Requests of PF0 -/

theorem State.pmRequest_taken (ready : s.boot.ready = true) (free : s.pf0.busy = false) {op : Byte}
    (valid : ¬ (op = 0 ∨ 6 < op.toNat)) (f : Byte) :
    s.pmRequest op f = { s with pf0 := { s.pf0 with pmOp := op, pmFn := f, pmReq := s.pf0.pmarg, busy := true } } := by
  simp only [State.pmRequest, ready, free, Bool.not_true, Bool.or_false, Bool.false_eq_true, if_false, if_neg valid]

theorem State.pxRequest_taken (ready : s.boot.ready = true) (free : s.pf0.pxBusy = false) {op : Byte} (valid : op = 1 ∨ op = 2)
    (f : Byte) (ipa : Nat) :
    s.pxRequest op f ipa = { s with pf0 := { s.pf0 with pxOp := op, pxFn := f, pxIpa := ipa, pxBusy := true } } := by
  have known : ¬ (op ≠ 1 ∧ op ≠ 2) := by
    rintro ⟨one, two⟩
    exact valid.elim one two
  simp only [State.pxRequest, ready, free, Bool.not_true, Bool.or_false, Bool.false_eq_true, if_false, if_neg known]

/-! ## Registers -/

theorem State.writeReg_pmarg (ready : s.boot.ready = true) (v : Dbl) :
    s.writeReg 0 0x108 8 v = { s with pf0 := { s.pf0 with pmarg := v } } := by
  have taken : (!s.boot.ready || ((8 : Nat) != 4 && (8 : Nat) != 8) || (0x108 % 8 : Nat) != 0) = false := by
    rw [ready]
    rfl
  rw [State.writeReg, if_neg (ne_true_of_eq_false taken), if_pos rfl]
  rfl

theorem State.writeReg_wqval {f q : Nat} (isOpen : s.barOpen f = true) (queue : q < 8) (v : Dbl) :
    s.writeReg f (0x10028 + 0x100 * q) 8 v = s.updWq f q fun w => { w with wqval := v } := by
  obtain ⟨ready, slice⟩ := State.barOpen_slice isOpen
  have one := (sliceFn_range slice).1
  have aligned : (0x10028 + 0x100 * q) % 8 = 0 := by omega
  have number : (0x10028 + 0x100 * q - 0x10000) / 0x100 = q := by omega
  have place : (0x10028 + 0x100 * q) % 0x100 = 0x28 := by omega
  have taken : (!s.boot.ready || ((8 : Nat) != 4 && (8 : Nat) != 8) || (0x10028 + 0x100 * q) % 8 != 0) = false := by
    rw [ready, aligned]
    rfl
  have inside : (!s.barOpen f || decide (0x10028 + 0x100 * q < 0x10000) || decide (0x10800 ≤ 0x10028 + 0x100 * q)) = false := by
    rw [isOpen, decide_eq_false (by omega), decide_eq_false (by omega)]
    rfl
  rw [State.writeReg, if_neg (ne_true_of_eq_false taken), if_neg (by omega), if_neg (ne_true_of_eq_false inside), number, place]
  rfl

theorem exec_registerWrite {f off size : Nat} {v : Dbl} (inbox : s.inbox = .registerWrite f off size v :: rest)
    (now : s.accessWaits f off false size = false) :
    exec .registerWrite s = .next (State.writeReg { s with inbox := rest } f off size v) := by
  simp only [exec, execRegisterWrite, inbox, now, Bool.false_eq_true, if_false, State.took_of inbox]

theorem exec_registerRead {f off size tag : Nat} (inbox : s.inbox = .registerRead f off size tag :: rest)
    (now : s.accessWaits f off true size = false) : exec .registerWrite s =
      .next { s with inbox := rest, out := s.out ++ [.register tag (s.readReg f off size)] } := by
  simp only [exec, execRegisterWrite, inbox, now, Bool.false_eq_true, if_false, State.took_of inbox]

/-- A write to a register of a queue but WQDB waits for no doorbell. -/
theorem State.accessWaits_wqval (f q size : Nat) : s.accessWaits f (0x10028 + 0x100 * q) false size = false := by
  have place : (0x10028 + 0x100 * q) % 0x100 / 8 * 8 = 0x28 := by omega
  simp only [State.accessWaits, place, Bool.false_eq_true, if_false]
  exact Bool.and_false _

/-- BOOTSTS has 20 bits (R11). -/
theorem Boot.word_lt (b : Boot) : b.word < 2 ^ 32 := by
  have stage := b.stage.isLt
  have cause := b.cause.isLt
  have die := b.die.isLt
  simp only [Boot.word]
  split <;> split <;> omega

theorem State.readReg_bootsts (s : State) : s.readReg 0 0 4 = dbl s.boot.word := by
  have small : s.boot.word / 2 ^ (8 * (0 % 8)) % 2 ^ (8 * 4) = s.boot.word := by
    rw [show 2 ^ (8 * (0 % 8)) = 1 from rfl, Nat.div_one, Nat.mod_eq_of_lt s.boot.word_lt]
  exact congrArg dbl small

/-! ## Configuration space -/

theorem State.writeConfig_unlocked {f off : Nat} {v : Word} (unlocked : (s.fn f).tdisp = .unlocked) :
    (s.writeConfig f off v).fn f = (s.fn f).config off v ∧ (∀ g, g ≠ f → (s.writeConfig f off v).fn g = s.fn g)
      ∧ (s.writeConfig f off v).mem = s.mem ∧ (s.writeConfig f off v).cores = s.cores := by
  simp only [State.writeConfig]
  split
  · rename_i same
    exact ⟨same.symm, fun _ _ => rfl, rfl, rfl⟩
  · exact ⟨State.fn_updFn .., fun g other => State.fn_updFn_ne _ _ other, rfl, rfl⟩

theorem exec_configWrite {f off : Nat} {v : Word} (inbox : s.inbox = .configWrite f off v :: rest) (there : f ≤ 48) :
    exec .configWrite s = .next (State.writeConfig { s with inbox := rest } f off v) := by
  simp only [exec, execConfigWrite, inbox, if_pos there, State.took_of inbox]

end

end Sys2Proof.Machine
end

section
/-! SUPPORT. Functions as a whole (R339, R382, R384): what stops and parks leave of an interface, an interface that enters ERROR,
and what a reset and a scrub leave of a function. -/

namespace Sys2Proof.Machine

open Sys2Proof Sys2Proof.Safety

/-! ## Interfaces -/

/-- State of an interface: its TDISP state, the reason of an ERROR, and whether it issues TLPs. -/
def Func.interface (f : Func) : Tdisp × Nat × Bool := (f.tdisp, f.errReason, f.noTlp)

/-- No interface changes. -/
structure InterfacesKept (s t : State) : Prop where
  fns : ∀ f, (t.fn f).interface = (s.fn f).interface

theorem InterfacesKept.trans {s t u : State} (h : InterfacesKept s t) (k : InterfacesKept t u) : InterfacesKept s u :=
  ⟨fun f => (k.fns f).trans (h.fns f)⟩

theorem InterfacesKept.of_fns {s t : State} (same : t.fns = s.fns) : InterfacesKept s t :=
  ⟨fun f => by rw [State.fn, State.fn, same]⟩

theorem InterfacesKept.refl (s : State) : InterfacesKept s s := ⟨fun _ => rfl⟩

theorem InterfacesKept.updFn (s : State) (n : Nat) (g : Func → Func) (keeps : ∀ x, (g x).interface = x.interface) :
    InterfacesKept s (s.updFn n g) := by
  refine ⟨fun f => ?_⟩
  by_cases here : f = n
  · subst here
    rw [State.fn_updFn, keeps]
  · rw [State.fn_updFn_ne _ _ here]

/-! ## Stops -/

theorem State.foldl_fns {α : Type} {g : State → α → State} (keeps : ∀ s a, (g s a).fns = s.fns) (l : List α) :
    ∀ s : State, (l.foldl g s).fns = s.fns := by
  induction l with
  | nil => exact fun _ => rfl
  | cons a l ih => exact fun s => (ih (g s a)).trans (keeps s a)

theorem State.freezeMat_fns (s : State) (c : Nat) : (s.freezeMat c).fns = s.fns := by
  rw [State.freezeMat]
  refine State.foldl_fns (fun s a => ?_) _ s
  obtain ⟨f, e⟩ := a
  obtain ⟨⟨qs, shape⟩, -⟩ := s.arrayRun_array c f e
  show (s.arrayRun c f e).fns = s.fns
  rw [shape]

theorem State.withdrawXfers_fns (s : State) (c : Nat) : (s.withdrawXfers c).fns = s.fns := by
  rw [State.withdrawXfers]
  refine State.foldl_fns (fun s a => ?_) _ s
  rfl

theorem State.withdrawFills_fns (s : State) (c : Nat) : (s.withdrawFills c).fns = s.fns := by
  rw [State.withdrawFills]
  refine State.foldl_fns (fun s a => ?_) _ s
  rfl

theorem State.freezeStop_fns (s : State) (c : Nat) : (s.freezeStop c).fns = s.fns := by
  rw [State.freezeStop, State.freezeMat_fns, State.withdrawFills_fns, State.withdrawXfers_fns]
  rfl

theorem State.beginStop_fns (s : State) (c depth : Nat) (b : Option Nat) : (s.beginStop c depth b).fns = s.fns := by
  rw [State.beginStop]
  split
  · rfl
  · split
    · rfl
    · split
      · rfl
      · split
        · exact s.freezeStop_fns c
        · dsimp only
          split <;> rfl

theorem State.beginStops_fns (depth : Nat) (b : Option Nat) (cs : List Nat) :
    ∀ s : State, (s.beginStops depth b cs).fns = s.fns := by
  induction cs with
  | nil => exact fun _ => rfl
  | cons c cs ih => exact fun s => (ih _).trans (s.beginStop_fns c depth b)

theorem InterfacesKept.stopAll (s : State) (f depth deadline : Nat) : InterfacesKept s (s.stopAll f depth deadline) :=
  (InterfacesKept.updFn s f (fun x => { x with suspended := true }) fun _ => rfl).trans (.of_fns (State.beginStops_fns ..))

/-! ## Parks -/

theorem InterfacesKept.updWq (s : State) (f q : Nat) (g : WorkQueue → WorkQueue) : InterfacesKept s (s.updWq f q g) :=
  .updFn s f (fun x => { x with queues := tset q (g (x.queue q)) x.queues }) fun _ => rfl

theorem InterfacesKept.presentPark (s : State) (f q : Nat) (p : Park) : InterfacesKept s (s.presentPark f q p) := by
  have counted : InterfacesKept s (s.updFn f fun x => { x with telemetry := lmod x.telemetry 7 (· + 1) }) :=
    .updFn s f _ fun _ => rfl
  simp only [State.presentPark]
  split
  · exact counted.trans (.updWq ..)
  · have parked := counted.trans (.updWq _ f q fun w => { w with park := true, pkrec := p.words, parks := w.parks ++ [p] })
    generalize State.updWq _ f q _ = t at parked ⊢
    obtain ⟨o, shape⟩ := t.msix_cases f q
    rw [shape]
    exact parked.trans (.of_fns rfl)

theorem InterfacesKept.parkQueues (f : Nat) (qs : List Nat) : ∀ s : State, InterfacesKept s (s.parkQueues f qs) := by
  induction qs with
  | nil => exact .refl
  | cons q qs ih =>
    intro s
    rw [State.parkQueues]
    refine InterfacesKept.trans ?_ (ih _)
    split
    · exact .presentPark ..
    · exact .refl s

/-! ## ERROR -/

/-- A locked or running interface is in ERROR with the reason, and issues no TLP. -/
theorem State.enterError_interface {s : State} {f : Nat} (entered : (s.fn f).tdisp = .locked ∨ (s.fn f).tdisp = .run)
    (reason : Nat) (stop : Bool) : ((s.enterError f reason stop).fn f).interface = (.error, reason, true) := by
  rw [State.enterError, if_pos entered]
  have error : ((s.updFn f fun x => { x with tdisp := .error, errReason := reason, noTlp := true }).fn f).interface
      = (.error, reason, true) := by rw [State.fn_updFn]; rfl
  generalize (s.updFn f fun x => { x with tdisp := .error, errReason := reason, noTlp := true }) = u at error
  have stopped : InterfacesKept u (if stop then u.stopAll f 2 0 else u) := by
    split
    · exact .stopAll ..
    · exact .refl u
  have parked := stopped.trans (InterfacesKept.parkQueues f (List.range 8) _)
  rw [← (parked.fns f).trans error]
  dsimp only
  generalize State.parkQueues _ f (List.range 8) = t
  split
  · rw [State.quiesce, State.fn_updFn]
    rfl
  · rfl

theorem State.enterError_unlocked {s : State} {f : Nat} (unlocked : (s.fn f).tdisp = .unlocked) (reason : Nat) (stop : Bool) :
    s.enterError f reason stop = s := by
  rw [State.enterError, if_neg]
  rw [unlocked]
  decide

/-! ## Function-level reset and scrub -/

/-- The function after its reset: its attachments and host registers are all that its queues keep. -/
theorem State.resetFn_fn (s : State) (f : Nat) : ∃ (x : Func) (mine : List Nat),
    (s.resetFn f).fn f = { ((x.forgetTasks mine).mapQueues WorkQueue.forgotten).resetConfig with fwctr := [] } := by
  rw [State.resetFn]
  dsimp only
  rw [State.fn_updFn]
  exact ⟨_, _, rfl⟩

theorem State.resetFn_wq (s : State) (f q : Nat) : ∃ w : WorkQueue, (s.resetFn f).wq f q = w.forgotten := by
  obtain ⟨x, mine, shape⟩ := s.resetFn_fn f
  refine ⟨x.queue q, ?_⟩
  rw [State.wq, shape]
  exact tget_map q WorkQueue.forgotten WorkQueue.reset rfl x.queues

theorem State.newKey_fn (s : State) (f : Nat) :
    (s.newKey f).fn f = { s.fn f with key := s.nextKey, keyEpoch := (s.fn f).keyEpoch + 1 } :=
  State.fn_updFn s f fun x => { x with key := s.nextKey, keyEpoch := x.keyEpoch + 1 }

theorem State.scrub_fn (s : State) (f : Nat) : ((s.scrub f).fn f).away = [] ∧ ((s.scrub f).fn f).suspended = true := by
  rw [State.scrub]
  dsimp only
  rw [State.newKey_fn, State.quiesce, State.fn_updFn, State.fn_updFn]
  exact ⟨rfl, rfl⟩

/-! ## The host's messages -/

section
variable {s : State} {rest : List HostMsg} {f : Nat}

theorem exec_functionLevelReset (inbox : s.inbox = .functionLevelReset f :: rest) (ready : s.boot.ready = true)
    (slice : sliceFn f = true) (bound : (s.fn f).bound = true) : exec .functionLevelReset s = .next
      (if (s.fn f).tdisp = .unlocked then State.resetFn { s with inbox := rest } f
        else State.enterError { s with inbox := rest } f 0x02 true) := by
  have took : s.took = { s with inbox := rest } := by rw [State.took, inbox]; rfl
  simp only [exec, execFunctionLevelReset, inbox, took, State.flr, ready, slice, Bool.not_true, Bool.or_self, Bool.false_eq_true,
    if_false]
  rw [if_neg]
  · rfl
  · show ¬ (!(s.fn f).bound) = true
    rw [bound]
    exact Bool.false_ne_true

end

end Sys2Proof.Machine
end

section
/-! SUPPORT. The DOE mailboxes (R378, R382 to R384): the answer of an open mailbox, what a request of a session leaves of the
mailbox's function, and the requests of a secured session to an interface. -/

namespace Sys2Proof.Machine

open Sys2Proof Sys2Proof.Safety

section
variable {s : State} {m : HostMsg} {rest : List HostMsg} {i : Instr} {b id : Nat}

/-! ## Answers -/

theorem State.mailOpen_of (ready : s.boot.ready = true) (there : b ≤ 48) : s.mailOpen b = true := by
  rw [State.mailOpen, ready, decide_eq_true there]
  rfl

theorem State.mailReply_sent (ready : s.boot.ready = true) (there : b ≤ 48) (code : Byte) (body : List Byte) :
    s.mailReply b code body = { s with out := s.out ++ [.spdm b code body] } := by
  rw [State.mailReply, if_pos (State.mailOpen_of ready there)]

/-- What a word does that takes the host's message and answers it. -/
theorem exec_answered {code : Byte} {body : List Byte} (inbox : s.inbox = m :: rest)
    (word : exec i s = .next (s.took.mailReply b code body)) (ready : s.boot.ready = true) (there : b ≤ 48) :
    ∃ t, exec i s = .next t ∧ t = { s with inbox := rest, out := s.out ++ [.spdm b code body] } := by
  refine ⟨_, word, ?_⟩
  rw [State.mailReply_sent (s := s.took) ready there, State.took_of inbox]

/-- What a word does that changes the mailbox's function and answers the host. -/
theorem State.updFn_mailReply (ready : s.boot.ready = true) (there : b ≤ 48) (g : Func → Func) (code : Byte) (body : List Byte) :
    ((s.updFn b g).mailReply b code body).fn b = g (s.fn b)
      ∧ (∀ k, k ≠ b → ((s.updFn b g).mailReply b code body).fn k = s.fn k)
      ∧ ((s.updFn b g).mailReply b code body).out = s.out ++ [.spdm b code body] := by
  rw [State.mailReply_sent (s := s.updFn b g) ready there]
  exact ⟨State.fn_updFn s b g, fun k other => State.fn_updFn_ne s g other, rfl⟩

/-! ## Sessions -/

/-- The new session is the last, and takes the next number. -/
def Func.joined (f : Func) : Func :=
  { f with sessions := f.sessions ++ [(⟨f.nextSession, false, 0⟩ : Session)], nextSession := f.nextSession + 1 }

/-- A session of the function, changed. -/
def Func.mapSession (f : Func) (id : Nat) (g : Session → Session) : Func :=
  { f with sessions := f.sessions.map fun k => if k.id = id then g k else k }

/-- A change of a session that keeps its number is seen where the session is looked up. -/
theorem Func.session_mapSession (f : Func) {g : Session → Session} (keeps : ∀ k, (g k).id = k.id) :
    (f.mapSession id g).session id = (f.session id).map g := by
  rw [Func.session, Func.session, Func.mapSession]
  dsimp only
  induction f.sessions with
  | nil => rfl
  | cons k ks ih =>
    by_cases here : k.id = id
    · simp [here, keeps]
    · simpa [here] using ih

theorem exec_keyExchange {x : List Byte} (inbox : s.inbox = .keyExchange b 0 x :: rest) (ready : s.boot.ready = true)
    (there : b ≤ 48) (room : (s.fn b).sessions.length < 4) : ∃ t, exec .keyExchange s = .next t
      ∧ t.fn b = (s.fn b).joined ∧ ∀ k, k ≠ b → t.fn k = s.fn k := by
  have took := State.took_of inbox
  have space : ¬ 4 ≤ (s.took.fn b).sessions.length := by
    rw [took]
    exact Nat.not_le.mpr room
  refine ⟨s.took.newSession b x, ?_, ?_⟩
  · simp only [exec, execKeyExchange, inbox, State.mailOpen_of ready there, Bool.not_true, Bool.false_eq_true, if_false, if_true]
  · rw [State.newSession]
    simp only [if_neg space]
    obtain ⟨mine, others, -⟩ := State.updFn_mailReply (s := s.took) ready there
      (fun f => { f with sessions := f.sessions ++ [(⟨(s.took.fn b).nextSession, false, 0⟩ : Session)]
                         nextSession := (s.took.fn b).nextSession + 1 })
      0x64 (leBytes 4 (s.took.fn b).nextSession ++ Config.exchange (s.took.fn b).nextSession x)
    exact ⟨mine, others⟩

theorem exec_finish (inbox : s.inbox = .finish b id true :: rest) (ready : s.boot.ready = true) (there : b ≤ 48)
    (known : (s.fn b).session id ≠ none) : ∃ t, exec .finish s = .next t ∧ (t.fn b).secured id = true := by
  obtain ⟨k, found⟩ := Option.ne_none_iff_exists'.mp known
  obtain ⟨mine, -, -⟩ := State.updFn_mailReply (s := s.took) (b := b) ready there
    (fun f => f.mapSession id fun k => { k with finished := true }) 0x65 []
  refine ⟨(s.took.updFn b fun f => f.mapSession id fun k => { k with finished := true }).mailReply b 0x65 [], ?_, ?_⟩
  · simp only [exec, execFinish, inbox, State.mailOpen_of ready there, found, Option.isNone_some, Bool.not_true,
      Bool.false_eq_true, if_false, if_true]
    rfl
  · have finished : ((s.took.fn b).mapSession id fun k => { k with finished := true }).session id
        = some { k with finished := true } := by
      refine (Func.session_mapSession _ ?_).trans (congrArg (Option.map _) found)
      exact fun _ => rfl
    rw [mine, Func.secured, finished]
    rfl

/-- The end of a session that did not lock the interface drops that session alone. -/
theorem exec_endSession (inbox : s.inbox = .endSession b id :: rest) (ready : s.boot.ready = true) (there : b ≤ 48)
    (secured : (s.fn b).secured id = true) (other : (s.fn b).lockSession ≠ id) : exec .endSession s = .next
      { s with inbox := rest
               fns := tset b { s.fn b with sessions := (s.fn b).sessions.filter (·.id != id) } s.fns
               out := s.out ++ [.spdm b 0x6C []] } := by
  have spared : (sliceFn b && ((s.took.mailReply b 0x6C []).dropSession b id |>.fn b).lockSession == id) = false := by
    rw [State.mailReply_sent (s := s.took) ready there, State.dropSession, State.fn_updFn]
    exact (congrArg _ (beq_false_of_ne other)).trans (Bool.and_false _)
  simp only [exec, execEndSession, inbox, State.mailOpen_of ready there, secured, Bool.not_true, Bool.false_eq_true, if_false,
    if_true, State.sessionOver, spared]
  rw [State.mailReply_sent (s := s.took) ready there, State.took_of inbox]
  rfl

theorem exec_keyUpdate (inbox : s.inbox = .keyUpdate b id :: rest) (ready : s.boot.ready = true) (there : b ≤ 48)
    (secured : (s.fn b).secured id = true) : ∃ t, exec .keyUpdate s = .next t ∧ t.out = s.out ++ [.spdm b 0x69 []]
      ∧ t.fn b = (s.fn b).mapSession id fun k => { k with keyGen := k.keyGen + 1 } := by
  obtain ⟨mine, -, sent⟩ := State.updFn_mailReply (s := s.took) (b := b) ready there
    (fun f => f.mapSession id fun k => { k with keyGen := k.keyGen + 1 }) 0x69 []
  refine ⟨_, ?_, sent, mine⟩
  simp only [exec, execKeyUpdate, inbox, State.mailOpen_of ready there, secured, Bool.and_self, if_true]
  rfl

theorem exec_ideKm {ok : Bool} (inbox : s.inbox = .ideKm b id ok :: rest) (ready : s.boot.ready = true) (there : b ≤ 48)
    (secured : (s.fn b).secured id = true) : ∃ t, exec .ideKm s = .next t ∧ t.out = s.out ++ [.spdm b 0x7E []]
      ∧ t.fn b = { s.fn b with ideSecure := ok } := by
  obtain ⟨mine, -, sent⟩ := State.updFn_mailReply (s := s.took) (b := b) ready there
    (fun f => { f with ideSecure := ok }) 0x7E []
  refine ⟨_, ?_, sent, mine⟩
  simp only [exec, execIdeKm, inbox, State.mailOpen_of ready there, secured, Bool.and_self, if_true]

/-! ## Interfaces in a secured session -/

/-- The host's session with a bound function's interface is secured. -/
structure SecuredSession (s : State) (f id : Nat) : Prop where
  ready : s.boot.ready = true
  slice : sliceFn f = true
  bound : (s.fn f).bound = true
  secured : (s.fn f).secured id = true

variable {f : Nat}

theorem SecuredSession.inSession (h : SecuredSession s f id) (k : State → State) : s.inSession f id k = k s := by
  have isOpen := State.mailOpen_of h.ready (sliceFn_range h.slice).2
  simp only [State.inSession, isOpen, h.slice, h.bound, h.secured, Bool.not_true, Bool.or_self, Bool.false_eq_true, if_false]

/-- Nothing of the session depends on the messages that wait. -/
theorem SecuredSession.took (h : SecuredSession s f id) (rest : List HostMsg) : SecuredSession { s with inbox := rest } f id :=
  ⟨h.ready, h.slice, h.bound, h.secured⟩

theorem SecuredSession.took_inSession (h : SecuredSession s f id) (inbox : s.inbox = m :: rest) (k : State → State) :
    s.took.inSession f id k = k { s with inbox := rest } := by
  rw [State.took_of inbox, (h.took rest).inSession]

theorem State.fn_tdispReply (s : State) (f : Nat) (ok : Bool) (body : List Byte) (n : Nat) :
    (s.tdispReply f ok body).fn n = s.fn n := rfl

theorem SecuredSession.exec_lock (h : SecuredSession s f id) (inbox : s.inbox = .lockInterfaceRequest f id :: rest)
    (lockable : s.lockOk f = true) : ∃ t, exec .lockInterfaceRequest s = .next t
      ∧ (t.fn f).tdisp = .locked ∧ (t.fn f).lockSession = id ∧ t.out = s.out ++ [.tdisp f true (t.fn f).nonce] := by
  have passes : State.lockOk { s with inbox := rest } f = true := lockable
  simp only [exec, execLockInterfaceRequest, inbox, h.took_inSession inbox, if_pos passes]
  refine ⟨_, rfl, ?_⟩
  rw [State.fn_tdispReply, State.fn_updFn]
  exact ⟨rfl, rfl, rfl⟩

theorem SecuredSession.exec_start (h : SecuredSession s f id) {x : List Byte}
    (inbox : s.inbox = .startInterfaceRequest f id x :: rest) (locked : (s.fn f).tdisp = .locked) (nonce : (s.fn f).nonce = x) :
    ∃ t, exec .startInterfaceRequest s = .next t ∧ (t.fn f).tdisp = .run ∧ t.out = s.out ++ [.tdisp f true []] := by
  have accepted : (State.fn { s with inbox := rest } f).tdisp = .locked ∧ (State.fn { s with inbox := rest } f).nonce = x :=
    ⟨locked, nonce⟩
  simp only [exec, execStartInterfaceRequest, inbox, h.took_inSession inbox, if_pos accepted]
  refine ⟨_, rfl, ?_⟩
  have runs : ((State.updFn { s with inbox := rest } f fun g => { g with tdisp := .run }).fn f).tdisp = .run := by
    rw [State.fn_updFn]
  split
  · refine ⟨?_, rfl⟩
    rw [State.fn_tdispReply, State.releaseFn, State.fn_updFn, State.fn_updFn]
    exact runs
  · exact ⟨runs, rfl⟩

theorem SecuredSession.exec_start_refused (h : SecuredSession s f id) {x : List Byte}
    (inbox : s.inbox = .startInterfaceRequest f id x :: rest) (nonce : (s.fn f).nonce ≠ x) :
    ∃ t, exec .startInterfaceRequest s = .next t ∧ t = { s with inbox := rest, out := s.out ++ [.tdisp f false []] } := by
  have refused : ¬ ((State.fn { s with inbox := rest } f).tdisp = .locked ∧ (State.fn { s with inbox := rest } f).nonce = x) :=
    fun accepted => nonce accepted.2
  simp only [exec, execStartInterfaceRequest, inbox, h.took_inSession inbox, if_neg refused]
  exact ⟨_, rfl, rfl⟩

theorem SecuredSession.exec_stop (h : SecuredSession s f id) (inbox : s.inbox = .stopInterfaceRequest f id :: rest) :
    ∃ t, exec .stopInterfaceRequest s = .next t ∧ (t.fn f).tdisp = .unlocked
      ∧ ((s.fn f).tdisp ≠ .unlocked → (t.fn f).noTlp = false ∧ (t.fn f).away = [] ∧ (t.fn f).suspended = true) := by
  simp only [exec, execStopInterfaceRequest, inbox, h.took_inSession inbox]
  refine ⟨_, rfl, ?_⟩
  by_cases unlocked : (s.fn f).tdisp = .unlocked
  · have same : (State.fn { s with inbox := rest } f).tdisp = .unlocked := unlocked
    simp only [if_pos same]
    exact ⟨unlocked, fun engaged => absurd unlocked engaged⟩
  · have same : ¬ (State.fn { s with inbox := rest } f).tdisp = .unlocked := unlocked
    simp only [if_neg same]
    obtain ⟨home, still⟩ := State.scrub_fn { s with inbox := rest } f
    rw [State.fn_tdispReply, State.fn_updFn]
    exact ⟨rfl, fun _ => ⟨rfl, home, still⟩⟩

/-- What a word does that answers a request to an interface and changes nothing else. -/
theorem SecuredSession.exec_answered (h : SecuredSession s f id) {ok : Bool} {body : State → List Byte} (inbox : s.inbox = m :: rest)
    (word : exec i s = .next (s.took.inSession f id fun u => u.tdispReply f ok (body u))) :
    ∃ t, exec i s = .next t ∧ t = { s with inbox := rest, out := s.out ++ [.tdisp f ok (body { s with inbox := rest })] } :=
  ⟨_, word.trans (congrArg _ (h.took_inSession inbox _)), rfl⟩

end

end Sys2Proof.Machine
end

section
/-! SUPPORT. What the oldest message of the host does (O60). -/

namespace Sys2Proof.Machine

open Sys2Proof Sys2Proof.Safety

section
variable {s : State} {rest : List HostMsg} {f : Nat}

/-- R339: what a reset does turns on the state of the function's interface. -/
theorem functionLevelReset_outcome (inbox : s.inbox = .functionLevelReset f :: rest) (ready : s.boot.ready = true)
    (slice : sliceFn f = true) (bound : (s.fn f).bound = true) : ∃ t, exec .functionLevelReset s = .next t
      ∧ ((s.fn f).tdisp = .unlocked → (t.fn f).away = [] ∧ (t.fn f).registry = [] ∧ (t.fn f).sessions = []
        ∧ ∀ q, (t.wq f q).records = [] ∧ (t.wq f q).next = 0 ∧ (t.wq f q).s1root = 0 ∧ (t.wq f q).park = false)
      ∧ ((s.fn f).tdisp = .locked ∨ (s.fn f).tdisp = .run → (t.fn f).tdisp = .error ∧ (t.fn f).errReason = 2) := by
  refine ⟨_, exec_functionLevelReset inbox ready slice bound, fun unlocked => ?_, fun entered => ?_⟩
  · rw [if_pos unlocked]
    obtain ⟨x, mine, shape⟩ := State.resetFn_fn { s with inbox := rest } f
    refine ⟨?_, ?_, ?_, fun q => ?_⟩
    · rw [shape]; rfl
    · rw [shape]; rfl
    · rw [shape]; rfl
    · obtain ⟨w, queue⟩ := State.resetFn_wq { s with inbox := rest } f q
      rw [queue]
      exact ⟨rfl, rfl, rfl, rfl⟩
  · have engaged : (s.fn f).tdisp ≠ .unlocked := by
      rintro unlocked
      rw [unlocked] at entered
      exact entered.elim Tdisp.noConfusion Tdisp.noConfusion
    rw [if_neg engaged]
    have error := State.enterError_interface (s := { s with inbox := rest }) entered 0x02 true
    exact ⟨congrArg Prod.fst error, congrArg (fun p => p.2.1) error⟩

theorem ideIntegrityFailure_outcome (inbox : s.inbox = .ideIntegrityFailure f :: rest) :
    ∃ t, exec .ideIntegrityFailure s = .next t
      ∧ ((s.fn f).tdisp = .locked ∨ (s.fn f).tdisp = .run → (t.fn f).tdisp = .error ∧ (t.fn f).errReason = 3 ∧ (t.fn f).noTlp = true)
      ∧ ((s.fn f).tdisp = .unlocked → t = { s with inbox := rest }) := by
  have word : exec .ideIntegrityFailure s = .next (State.enterError { s with inbox := rest } f 0x03 true) := by
    simp only [exec, execIdeIntegrityFailure, inbox, State.took_of inbox]
  refine ⟨_, word, fun entered => ?_, fun unlocked => ?_⟩
  · have error := State.enterError_interface (s := { s with inbox := rest }) entered 0x03 true
    exact ⟨congrArg Prod.fst error, congrArg (fun p => p.2.1) error, congrArg (fun p => p.2.2) error⟩
  · exact State.enterError_unlocked (s := { s with inbox := rest }) unlocked 0x03 true

end

/-- Settles O60, message by message: a word takes the message from the inbox, and the rule of its kind above says what follows. -/
theorem hostRequests : Obligations.HostRequests := by
  unfold Obligations.HostRequests
  intro s m rest inbox u answers secured tdisp
  have took : s.took = u := State.took_of inbox
  refine ⟨?doorbell, ?pmcmd, ?pxcmd, ?act, ?invva, ?pmarg, ?wqval, ?read, ?bootsts, ?config, ?flr, ?ide, ?doe, ?mailbox, ?interface⟩
  case doorbell =>
    rintro f q va d rfl isOpen queue attached stays
    exact ⟨_, exec_doorbell inbox isOpen queue attached stays, rfl⟩
  case pmcmd =>
    have request {i : Instr} {op : Byte} {f : Byte} (word : exec i s = .next (s.took.pmRequest op f)) (ready : s.boot.ready = true)
        (free : s.pf0.busy = false) (valid : ¬ (op = 0 ∨ 6 < op.toNat)) : ∃ t, exec i s = .next t
          ∧ t = { u with pf0 := { s.pf0 with pmOp := op, pmFn := f, pmReq := s.pf0.pmarg, busy := true } } := by
      rw [took, State.pmRequest_taken (s := u) ready free valid] at word
      exact ⟨_, word, rfl⟩
    rintro f ready free i op (⟨rfl, rfl, rfl⟩ | ⟨rfl, rfl, rfl⟩ | ⟨rfl, rfl, rfl⟩ | ⟨rfl, rfl, rfl⟩ | ⟨rfl, rfl, rfl⟩ | ⟨rfl, rfl, rfl⟩)
    · exact request (by simp only [exec, execCreate, inbox]) ready free (by decide)
    · exact request (by simp only [exec, execDestroy, inbox]) ready free (by decide)
    · exact request (by simp only [exec, execSetQuads, inbox]) ready free (by decide)
    · exact request (by simp only [exec, execSetShares, inbox]) ready free (by decide)
    · exact request (by simp only [exec, execMigrateOut, inbox]) ready free (by decide)
    · exact request (by simp only [exec, execAcceptMigration, inbox]) ready free (by decide)
  case pxcmd =>
    rintro f ipa ready free i op (⟨rfl, rfl, rfl⟩ | ⟨rfl, rfl, rfl⟩)
    · refine ⟨_, by simp only [exec, execPageExport, inbox]; rfl, ?_⟩
      rw [took, State.pxRequest_taken (s := u) ready free (.inl rfl)]
    · refine ⟨_, by simp only [exec, execPageImport, inbox]; rfl, ?_⟩
      rw [took, State.pxRequest_taken (s := u) ready free (.inr rfl)]
  case act =>
    rintro f q isOpen queue parked i act (⟨rfl, rfl, rfl⟩ | ⟨rfl, rfl, rfl⟩ | ⟨rfl, rfl, rfl⟩)
    · simp only [exec, execActRetry, inbox, took]
      exact ⟨_, rfl, State.act_acts (s := u) isOpen queue parked (by decide)⟩
    · simp only [exec, execActValue, inbox, took]
      exact ⟨_, rfl, State.act_acts (s := u) isOpen queue parked (by decide)⟩
    · simp only [exec, execActEnd, inbox, took]
      exact ⟨_, rfl, State.act_acts (s := u) isOpen queue parked (by decide)⟩
  case invva =>
    rintro f q v rfl isOpen queue idle
    simp only [exec, execInvvaWrite, inbox, took]
    exact ⟨_, rfl, State.invva_flags (s := u) isOpen queue idle v⟩
  case pmarg =>
    rintro v rfl ready
    exact ⟨_, exec_registerWrite inbox rfl, State.writeReg_pmarg (s := u) ready v⟩
  case wqval =>
    rintro f q v rfl isOpen queue
    exact ⟨_, exec_registerWrite inbox (s.accessWaits_wqval f q 8), State.writeReg_wqval (s := u) isOpen queue v⟩
  case read =>
    rintro f off size tag rfl now
    exact ⟨_, exec_registerRead inbox now, rfl⟩
  case bootsts =>
    rintro tag rfl
    refine ⟨_, exec_registerRead inbox rfl, ?_⟩
    rw [State.readReg_bootsts]
    rfl
  case config =>
    rintro f off v rfl there unlocked
    exact ⟨_, exec_configWrite inbox there, State.writeConfig_unlocked (s := u) unlocked⟩
  case flr =>
    rintro f rfl
    exact functionLevelReset_outcome inbox
  case ide =>
    rintro f rfl
    exact ideIntegrityFailure_outcome inbox
  case doe =>
    rintro b i rfl ready there
    simp only [exec, execDoeDiscovery, inbox, State.mailOpen_of ready there, if_true, took]
    exact ⟨_, rfl, rfl⟩
  case mailbox =>
    intro b
    refine ⟨?_, ?_, ?_, ?_, ?_, ?_, ?_, ?_, ?_, ?_, ?_⟩
    · rintro rfl
      exact exec_answered inbox (by simp only [exec, execGetVersion, inbox])
    · rintro rfl
      exact exec_answered inbox (by simp only [exec, execGetCapabilities, inbox]; rfl)
    · rintro ok rfl
      exact exec_answered inbox (by simp only [exec, execNegotiateAlgorithms, inbox])
    · rintro rfl
      exact exec_answered inbox (by simp only [exec, execGetDigests, inbox])
    · rintro off n rfl
      exact exec_answered inbox (by simp only [exec, execGetCertificate, inbox, if_true])
    · rintro x rfl
      exact exec_answered inbox (by simp only [exec, execChallenge, inbox, if_true])
    · rintro x rfl
      exact exec_answered inbox (by simp only [exec, execGetMeasurements, inbox, if_true]; rfl)
    · rintro code rfl
      exact exec_answered inbox (by simp only [exec, execUnsupportedSpdmRequest, inbox, State.replyError])
    · rintro x rfl ready there room
      obtain ⟨t, word, mine, others⟩ := exec_keyExchange inbox ready there room
      exact ⟨t, word, congrArg Func.sessions mine, congrArg Func.nextSession mine, others⟩
    · rintro id rfl
      exact exec_finish inbox
    · intro id inSession ready there
      refine ⟨?_, ?_, ?_, ?_⟩
      · rintro rfl other
        exact ⟨_, exec_endSession inbox ready there inSession other, rfl⟩
      · rintro rfl
        exact exec_answered inbox (by simp only [exec, execHeartbeat, inbox, inSession, if_true])
      · rintro rfl
        obtain ⟨t, word, sent, mine⟩ := exec_keyUpdate inbox ready there inSession
        exact ⟨t, word, sent, congrArg Func.sessions mine⟩
      · rintro ok rfl
        exact exec_ideKm inbox ready there inSession
  case interface =>
    rintro f id ⟨ready, slice, bound, finished⟩
    have session : SecuredSession s f id := ⟨ready, slice, bound, finished⟩
    refine ⟨?_, ?_, ?_, ?_, ?_, ?_, ?_, ?_⟩
    · rintro rfl
      exact session.exec_lock inbox
    · rintro x rfl
      exact session.exec_start inbox
    · rintro x rfl
      exact session.exec_start_refused inbox
    · rintro rfl
      exact session.exec_stop inbox
    · rintro rfl
      exact session.exec_answered (body := fun u => u.report f) inbox (by simp only [exec, execGetDeviceInterfaceReport, inbox])
    · rintro rfl
      obtain ⟨t, word, same⟩ := session.exec_answered (i := .getDeviceInterfaceState) (ok := true)
        (body := fun u => [BitVec.ofNat 8 (tdispCode (u.fn f).tdisp)]) inbox
        (by simp only [exec, execGetDeviceInterfaceState, inbox])
      have code : [BitVec.ofNat 8 (tdispCode (s.fn f).tdisp)]
          = [match (s.fn f).tdisp with | .unlocked => 0 | .locked => 1 | .run => 2 | .error => 3] := by
        cases (s.fn f).tdisp <;> rfl
      exact ⟨t, word, same.trans (congrArg (fun x => { u with out := s.out ++ [OutMsg.tdisp f true x] }) code)⟩
    · rintro rfl
      exact session.exec_answered (body := fun _ => [0x07]) inbox (by simp only [exec, execBindP2p, inbox])
    · rintro rfl
      exact session.exec_answered (body := fun _ => [0x07]) inbox (by simp only [exec, execSetMmioAttribute, inbox])

end Sys2Proof.Machine
end

section
/-! SUPPORT. Words of the Derailleur (R340, R341): a word that can act, or is in a later step, runs its body; its last step
writes the result, and a step that waits shows code 4. The fields of their operands are read from the numbers (R342). -/

namespace Sys2Proof.Machine

open Sys2Proof Sys2Proof.Safety

/-! ## Steps of a system word -/

theorem State.sysWord_ready {s : State} {reads : List Src} (ready : SysReady s reads) (go : State → State) :
    s.sysWord reads go = go s := by
  obtain ⟨fresh, settled⟩ := ready
  rw [State.sysWord, State.withOperands_fresh fresh, if_neg fun waits => waits.2 settled]

theorem State.sysWord_later {s : State} {reads : List Src} (later : (s.seq s.cur.core).phase ≠ 0) (go : State → State) :
    s.sysWord reads go = go s := by
  rw [State.sysWord, State.withOperands_later later, if_neg fun waits => later waits.1]

theorem sysReady_phase {s : State} {reads : List Src} (ready : SysReady s reads) : (s.seq s.cur.core).phase = 0 := ready.1.1

theorem State.opd_toNat (s : State) (a : Src) : (s.opd a).toNat = number s a := by rw [State.opd_eq_operand, number]

/-- A word that writes its result is complete. -/
theorem sysEnds_sysDone (u : State) (reads : List Src) (d : Dest) (st v : Nat) :
    SysEnds u (u.sysDone reads d st v) reads d st v := ⟨u.pf0, .inl rfl, u.retired_issue reads _⟩

theorem State.pmEnd_cases (u : State) (ops : List Nat) (fn st : Nat) : ∃ p : Pf0,
    (p = u.pf0 ∨ p = { u.pf0 with busy := false, pstat := BitVec.ofNat 8 st }) ∧ u.pmEnd ops fn st = { u with pf0 := p } := by
  rw [State.pmEnd]
  split
  · exact ⟨_, .inr rfl, rfl⟩
  · exact ⟨_, .inl rfl, rfl⟩

/-- So is one that has ended a request of PF0 with its status. -/
theorem sysEnds_pmEnd (u : State) (ops : List Nat) (fn : Nat) (reads : List Src) (d : Dest) (st v : Nat) :
    SysEnds u ((u.pmEnd ops fn st).sysDone reads d st v) reads d st v := by
  obtain ⟨p, request, ended⟩ := u.pmEnd_cases ops fn st
  rw [ended]
  exact ⟨p, request, State.retired_issue { u with pf0 := p } reads _⟩

/-- A word that comes to a later step shows code 4 there. -/
theorem sysWaits_sysPhase {s u : State} (n : Nat) (cur : u.cur.core = s.cur.core)
    (pc : (u.seq s.cur.core).pc = (s.seq s.cur.core).pc) (belt : (u.seq s.cur.core).belt = (s.seq s.cur.core).belt)
    (named : (u.seq s.cur.core).named = (s.seq s.cur.core).named) : SysWaits s (u.sysPhase n) n := by
  have shown := State.seq_waits (s := u) cur (fun q => { q with phase := n }) 4
  have step : u.sysPhase n = (u.updSeq s.cur.core fun q => { q with phase := n }).stallSeq 4 := by
    rw [State.sysPhase, State.sysWait, cur]
  rw [← step] at shown
  exact ⟨by rw [shown]; exact ⟨rfl, rfl⟩, by rw [shown]; exact ⟨pc, belt, named⟩⟩

theorem State.sysPhase_core_ne {u : State} (n : Nat) {k : Nat} (other : k ≠ u.cur.core) :
    (u.sysPhase n).core k = u.core k := by
  rw [State.sysPhase, State.sysWait, State.stallSeq, State.core_updCore_ne _ _ (by exact other), State.updSeq,
    State.core_updCore_ne _ _ other]

theorem State.sysPhase_rest (u : State) (n : Nat) : (u.sysPhase n).quads = u.quads ∧ (u.sysPhase n).fns = u.fns
    ∧ (u.sysPhase n).dies = u.dies ∧ (u.sysPhase n).mem = u.mem ∧ (u.sysPhase n).invs = u.invs
    ∧ (u.sysPhase n).out = u.out := ⟨rfl, rfl, rfl, rfl, rfl, rfl⟩

/-! ## Fields of operands -/

theorem sliceFn_of_range {fn : Nat} (lo : 1 ≤ fn) (hi : fn ≤ 48) : sliceFn fn = true := by
  simp [sliceFn, lo, hi]

theorem mapArgs_quads {fn die mask : Nat} (lo : 1 ≤ fn) (hi : fn ≤ 48) (onDie : die < 16) (named : mask < 64) :
    mapArgs (fn + die * 2 ^ 12 + mask * 2 ^ 16) = some (fn, false, die, mask, 0) := by
  have e1 : bits (fn + die * 2 ^ 12 + mask * 2 ^ 16) 8 1 = 0 := by simp only [bits]; omega
  have e2 : bits (fn + die * 2 ^ 12 + mask * 2 ^ 16) 0 8 = fn := by simp only [bits]; omega
  have e3 : bits (fn + die * 2 ^ 12 + mask * 2 ^ 16) 9 3 = 0 := by simp only [bits]; omega
  have e4 : (fn + die * 2 ^ 12 + mask * 2 ^ 16) / 2 ^ 27 = 0 := by omega
  have e5 : bits (fn + die * 2 ^ 12 + mask * 2 ^ 16) 22 2 = 0 := by simp only [bits]; omega
  have e6 : bits (fn + die * 2 ^ 12 + mask * 2 ^ 16) 24 3 = 0 := by simp only [bits]; omega
  have e7 : bits (fn + die * 2 ^ 12 + mask * 2 ^ 16) 12 4 = die := by simp only [bits]; omega
  have e8 : bits (fn + die * 2 ^ 12 + mask * 2 ^ 16) 16 6 = mask := by simp only [bits]; omega
  simp only [mapArgs, e1, e2, e3, e4, e5, e6, e7, e8, sliceFn_of_range lo hi]
  rfl

theorem mapArgs_queue {fn die wq : Nat} (lo : 1 ≤ fn) (hi : fn ≤ 48) (onDie : die < 16) (named : wq < 8) :
    mapArgs (fn + 2 ^ 8 + die * 2 ^ 12 + wq * 2 ^ 24) = some (fn, true, die, 0, wq) := by
  have e1 : bits (fn + 2 ^ 8 + die * 2 ^ 12 + wq * 2 ^ 24) 8 1 = 1 := by simp only [bits]; omega
  have e2 : bits (fn + 2 ^ 8 + die * 2 ^ 12 + wq * 2 ^ 24) 0 8 = fn := by simp only [bits]; omega
  have e3 : bits (fn + 2 ^ 8 + die * 2 ^ 12 + wq * 2 ^ 24) 9 3 = 0 := by simp only [bits]; omega
  have e4 : (fn + 2 ^ 8 + die * 2 ^ 12 + wq * 2 ^ 24) / 2 ^ 27 = 0 := by omega
  have e5 : bits (fn + 2 ^ 8 + die * 2 ^ 12 + wq * 2 ^ 24) 22 2 = 0 := by simp only [bits]; omega
  have e6 : bits (fn + 2 ^ 8 + die * 2 ^ 12 + wq * 2 ^ 24) 24 3 = wq := by simp only [bits]; omega
  have e7 : bits (fn + 2 ^ 8 + die * 2 ^ 12 + wq * 2 ^ 24) 12 4 = die := by simp only [bits]; omega
  have e8 : bits (fn + 2 ^ 8 + die * 2 ^ 12 + wq * 2 ^ 24) 16 6 = 0 := by simp only [bits]; omega
  simp only [mapArgs, e1, e2, e3, e4, e5, e6, e7, e8, sliceFn_of_range lo hi]
  rfl

end Sys2Proof.Machine
end

section
/-! SUPPORT. What work of walkers, homes and counters leaves of a function: everything but its tasks away, donations, counts,
queues and evicted rows. -/

namespace Sys2Proof.Machine

open Sys2Proof Sys2Proof.Safety

/-- A function without what such work changes of it. -/
def Func.bare (f : Func) : Func :=
  { f with away := [], donations := [], meters := [], pending := [], telemetry := [], evicted := [], queues := [] }

/-- Functions are as they were but for that. -/
def FnsStand (s t : State) : Prop := ∀ f, (t.fn f).bare = (s.fn f).bare

theorem FnsStand.refl (s : State) : FnsStand s s := fun _ => rfl

theorem FnsStand.trans {s t u : State} (h : FnsStand s t) (k : FnsStand t u) : FnsStand s u := fun f => (k f).trans (h f)

theorem FnsStand.of_fns {s t : State} (fns : t.fns = s.fns) : FnsStand s t := fun f => by rw [State.fn, fns]; rfl

theorem FnsStand.updFn (s : State) (n : Nat) (g : Func → Func) (h : ∀ x, (g x).bare = x.bare) : FnsStand s (s.updFn n g) := by
  intro f
  by_cases same : f = n
  · rw [same, State.fn_updFn]
    exact h _
  · rw [State.fn_updFn_ne _ _ same]

theorem FnsStand.meter (s : State) (fn i n : Nat) : FnsStand s (s.meter fn i n) := by
  rw [State.meter]
  split
  · exact .refl s
  · refine .updFn s fn _ fun x => ?_
    split <;> rfl

theorem FnsStand.telemeter (s : State) (fn i n : Nat) : FnsStand s (s.telemeter fn i n) := by
  rw [State.telemeter]
  split
  · exact .updFn s fn _ fun _ => rfl
  · exact .refl s

section
variable {s t : State} (h : FnsStand s t) (f : Nat)
include h

theorem FnsStand.ways : (t.fn f).ways = (s.fn f).ways := by simpa only [Func.bare] using congrArg Func.ways (h f)
theorem FnsStand.prot : (t.fn f).prot = (s.fn f).prot := by simpa only [Func.bare] using congrArg Func.prot (h f)
theorem FnsStand.bound : (t.fn f).bound = (s.fn f).bound := by simpa only [Func.bare] using congrArg Func.bound (h f)

end

/-! ## Writes at homes -/

/-- Work of a write at a home: of cores it changes tasks' marks and monitors, of functions what `FnsStand` leaves open, and of
the rest memory, requests, and the tables of dies and slices. -/
structure Written (s t : State) : Prop where
  rest : ∃ cs ds ss fs m mk rq iv wm ni fc, t = { s with
    cores := cs, dies := ds, slices := ss, fns := fs, mem := m, memKey := mk, reqs := rq, invs := iv, watchMsgs := wm,
    nextId := ni, freeCtr := fc }
  cores : ∀ k, ∃ tk m p, t.core k = { s.core k with task := tk, mon := m, portMon := p }
  fns : FnsStand s t

theorem Written.trans {s t u : State} (h : Written s t) (k : Written t u) : Written s u := by
  obtain ⟨_, _, _, _, _, _, _, _, _, _, _, e⟩ := h.rest
  obtain ⟨_, _, _, _, _, _, _, _, _, _, _, f⟩ := k.rest
  refine ⟨⟨_, _, _, _, _, _, _, _, _, _, _, by rw [f, e]⟩, fun n => ?_, h.fns.trans k.fns⟩
  obtain ⟨_, _, _, a⟩ := h.cores n
  obtain ⟨_, _, _, b⟩ := k.cores n
  exact ⟨_, _, _, by rw [b, a]⟩

/-- Cores and functions stay. -/
theorem Written.aside {s t : State} (shape : ∃ ds ss m mk rq iv wm ni fc, t = { s with
    dies := ds, slices := ss, mem := m, memKey := mk, reqs := rq, invs := iv, watchMsgs := wm, nextId := ni,
    freeCtr := fc }) : Written s t := by
  obtain ⟨_, _, _, _, _, _, _, _, _, shape⟩ := shape
  rw [shape]
  exact ⟨⟨_, _, _, _, _, _, _, _, _, _, _, rfl⟩, fun _ => ⟨_, _, _, rfl⟩, .refl s⟩

theorem Written.refl (s : State) : Written s s := .aside ⟨_, _, _, _, _, _, _, _, _, rfl⟩

theorem Written.updCore (s : State) (c : Nat) (g : Core → Core)
    (h : ∀ x, ∃ m p, g x = { x with mon := m, portMon := p }) : Written s (s.updCore c g) := by
  refine ⟨⟨_, _, _, _, _, _, _, _, _, _, _, rfl⟩, fun k => ?_, .refl s⟩
  by_cases same : k = c
  · rw [same, State.core_updCore]
    obtain ⟨m, p, shape⟩ := h (s.core c)
    exact ⟨_, m, p, shape⟩
  · rw [State.core_updCore_ne _ _ same]
    exact ⟨_, _, _, rfl⟩

theorem Written.quads {s t : State} (h : Written s t) : t.quads = s.quads := by
  obtain ⟨_, _, _, _, _, _, _, _, _, _, _, shape⟩ := h.rest
  rw [shape]

theorem Written.setDonations (s : State) (fn : Nat) (l : List Donation) : Written s (s.setDonations fn l) := by
  refine ⟨⟨_, _, _, _, _, _, _, _, _, _, _, rfl⟩, fun k => ?_, FnsStand.updFn s fn
    (fun f => { f with donations := l, away := f.away.map (Saved.mapTask (Task.withPrio l)) }) fun _ => rfl⟩
  have core := State.core_mapCores (s.updFn fn fun f => { f with donations := l, away := f.away.map (Saved.mapTask (Task.withPrio l)) })
    (fun x => { x with task := x.task.map fun (w : Task) => if w.fn = fn then Task.withPrio l w else w }) rfl rfl k
  exact ⟨_, _, _, core⟩

theorem Written.giveNoMore (s : State) (c : Nat) : Written s (s.giveNoMore c) := by
  rw [State.giveNoMore]
  split
  · exact .refl s
  · rw [State.dropDonations]
    split
    · exact .setDonations ..
    · exact .refl s

theorem Written.dropReplica (s : State) (d line : Nat) : Written s (s.dropReplica d line) :=
  .aside ⟨_, _, _, _, _, _, _, _, _, rfl⟩

theorem Written.fireMon (s : State) (m : HomeMon) : Written s (s.fireMon m) := by
  rw [State.fireMon]
  refine ((Written.giveNoMore s m.core).trans ?_).trans (.updCore _ _ _ fun _ => ⟨_, _, rfl⟩)
  rw [State.freshFor]
  split
  · exact .dropReplica ..
  · exact .refl _

theorem Written.fireMons (l : List HomeMon) : ∀ s : State, Written s (s.fireMons l) := by
  induction l with
  | nil => exact .refl
  | cons m l ih => exact fun s => (Written.fireMon s m).trans (ih _)

theorem Written.fireLine (s : State) (pa : Nat) : Written s (s.fireLine pa) := by
  simp only [State.fireLine]
  split
  · exact .refl s
  · refine Written.trans ?_ (.fireMons ..)
    rw [State.setMonsAt]
    split
    · exact .updCore _ _ _ fun _ => ⟨_, _, rfl⟩
    · exact .aside ⟨_, _, _, _, _, _, _, _, _, rfl⟩

theorem Written.writeHome (s : State) (key pa : Nat) (bs : List Byte) (req : Nat) :
    Written s (s.writeHome key pa bs req).1 := by
  obtain ⟨_, _, _, written⟩ := s.writePhys_shape key pa bs
  have first : Written s (s.writePhys key pa bs) := .aside ⟨_, _, _, _, _, _, _, _, _, written⟩
  refine first.trans ((Written.fireLine _ pa).trans ?_)
  simp only [State.writeHome]
  generalize (s.writePhys key pa bs).fireLine pa = u
  have replicas : Written u (u.unreplicate pa req).1 := by
    simp only [State.unreplicate]
    split
    · exact .refl u
    · split
      · exact .refl u
      · exact .aside ⟨_, _, _, _, _, _, _, _, _, rfl⟩
  refine replicas.trans ?_
  simp only [State.fireWatch]
  split
  · exact .refl _
  · split
    · exact .refl _
    · exact .aside ⟨_, _, _, _, _, _, _, _, _, rfl⟩

theorem Written.dropReplicas (d : Nat) (l : List Nat) : ∀ s : State, Written s (s.dropReplicas d l) := by
  induction l with
  | nil => exact .refl
  | cons x l ih => exact fun s => (Written.dropReplica s d x).trans (ih _)

theorem Written.replicasGoneAt (g : Nat) (l : List Nat) : ∀ s : State, Written s (s.replicasGoneAt g l) := by
  induction l with
  | nil => exact .refl
  | cons d l ih =>
    intro s
    refine Written.trans ?_ (ih _)
    rw [State.replicasGone]
    refine (Written.dropReplicas d (((s.die d).replicas.filter fun p => p.line / 512 == g).map (·.line)) s).trans ?_
    simp only [State.refill]
    split
    · exact .refl _
    · exact .aside ⟨_, _, _, _, _, _, _, _, _, rfl⟩

theorem Written.applyWatch (s : State) (m : WatchMsg) : Written s (s.applyWatch m) := by
  rw [State.applyWatch]
  cases m.invalidate with
  | false => exact .aside ⟨_, _, _, _, _, _, _, _, _, rfl⟩
  | true =>
    refine ⟨⟨_, _, _, _, _, _, _, _, _, _, _, rfl⟩, fun k => ?_, fun f => ?_⟩
    · have core : tget (s.cores.map fun (p : Nat × Core) => (p.1, Core.taintBy m p.1 p.2)) k
          (if k = 384 then Core.derailleur else Core.reset) = Core.taintBy m k (s.core k) := by
        rw [State.core, tget, tget, tfind_mapKey]
        cases tfind k s.cores with
        | none =>
          simp only [Option.map_none, Option.getD_none, Core.taintBy]
          split <;> split <;> rfl
        | some v => rfl
      have tainted : ∃ tk, Core.taintBy m k (s.core k) = { s.core k with task := tk } := by
        rw [Core.taintBy]
        split <;> exact ⟨_, rfl⟩
      obtain ⟨tk, tainted⟩ := tainted
      exact ⟨tk, _, _, core.trans tainted⟩
    · have away := tget_map f (fun x : Func => { x with away := x.away.map (Saved.taintBy m) }) Func.reset rfl s.fns
      exact (congrArg Func.bare away).trans rfl

theorem Written.applyWatches (l : List WatchMsg) : ∀ s : State, Written s (s.applyWatches l) := by
  induction l with
  | nil => exact .refl
  | cons m l ih => exact fun s => (Written.applyWatch s m).trans (ih _)

theorem Written.writeLines (key n : Nat) : ∀ (s : State) (pa : Nat) (bs : List Byte),
    Written s (s.writeLines key pa n bs) := by
  induction n with
  | zero => exact fun s _ _ => .refl s
  | succ n ih =>
    intro s pa bs
    cases bs with
    | nil => exact .refl s
    | cons b bs =>
      simp only [State.writeLines]
      refine Written.trans ?_ (ih ..)
      have id : Written s s.useId := .aside ⟨_, _, _, _, _, _, _, _, _, rfl⟩
      have home := id.trans (.writeHome s.useId key pa ((b :: bs).take (128 - pa % 128)) s.nextId)
      generalize s.useId.writeHome key pa ((b :: bs).take (128 - pa % 128)) s.nextId = r at home
      have acked : Written r.1 { r.1 with invs := r.1.invs.filter fun m => m.req != s.nextId } :=
        .aside ⟨_, _, _, _, _, _, _, _, _, rfl⟩
      have gone := (home.trans acked).trans (.replicasGoneAt (pa / 65536) r.2.1 _)
      split
      · refine gone.trans (Written.trans ?_ (.applyWatches ..))
        exact .aside ⟨_, _, _, _, _, _, _, _, _, rfl⟩
      · exact gone

theorem Written.writeQuiet (s : State) (key pa : Nat) (bs : List Byte) : Written s (s.writeQuiet key pa bs) :=
  .writeLines ..

end Sys2Proof.Machine
end

section
/-! SUPPORT. SLMAP and SLUNMAP (R344): quads become a function's, or are free again, one after another; what one quad's rows
do in between leaves the other quads as they are. -/

namespace Sys2Proof.Machine

open Sys2Proof Sys2Proof.Safety

/-! ## Quads that are given -/

theorem State.mapQuads_spec {fn : Nat} : ∀ (qs : List Nat) {s u : State}, s.mapQuads fn qs = some u →
    (∀ q, (u.quad q).owner = if q ∈ qs then some fn else (s.quad q).owner) ∧ u.cores = s.cores ∧ u.mem = s.mem
  | [], s, u, mapped => by
    cases mapped
    exact ⟨fun q => (if_neg List.not_mem_nil).symm, rfl, rfl⟩
  | q :: qs, s, u, mapped => by
    rw [State.mapQuads] at mapped
    split at mapped
    · cases mapped
    · obtain ⟨owners, cores, mem⟩ := State.mapQuads_spec qs mapped
      refine ⟨fun k => ?_, cores.trans rfl, mem.trans rfl⟩
      rw [owners k, State.updFn_quad]
      by_cases same : k = q
      · rw [same, State.quad_updQuad, if_pos List.mem_cons_self]
        exact ite_self _
      · rw [State.quad_updQuad_ne _ _ same]
        simp only [List.mem_cons, same, false_or]

theorem State.slmapQuads_mapped {s u : State} {fn : Nat} {qs : List Nat}
    (free : ∀ q ∈ qs, (s.quad q).gated = false ∧ (s.quad q).fenced = false ∧ (s.quad q).owner = none)
    (mapped : s.mapQuads fn qs = some u) : s.slmapQuads fn qs = (0, u) := by
  have gated : (qs.any fun q => (s.quad q).gated) = false := by
    simp only [List.any_eq_false]
    intro q mem
    simp [(free q mem).1]
  have taken : (qs.any fun q => (s.quad q).owner.isSome || (s.quad q).fenced) = false := by
    simp only [List.any_eq_false]
    intro q mem
    obtain ⟨-, fenced, owner⟩ := free q mem
    simp [fenced, owner]
  simp only [State.slmapQuads, gated, taken, mapped, Bool.false_eq_true, if_false]

/-! ## Quads that are taken back -/

/-- Every quad but one is as it was. -/
def QuadsBeside (q : Nat) (s t : State) : Prop := ∀ k, k ≠ q → t.quad k = s.quad k

theorem QuadsBeside.trans {q : Nat} {s t u : State} (h : QuadsBeside q s t) (k : QuadsBeside q t u) : QuadsBeside q s u :=
  fun n other => (k n other).trans (h n other)

theorem QuadsBeside.of_quads {s t : State} (q : Nat) (quads : t.quads = s.quads) : QuadsBeside q s t :=
  fun _ _ => quad_of_quads quads _

theorem QuadsBeside.updQuad (s : State) (q : Nat) (f : Quad → Quad) : QuadsBeside q s (s.updQuad q f) :=
  fun _ other => State.quad_updQuad_ne _ _ other

theorem State.freeBytes_quads (s : State) (key a n : Nat) : (s.freeBytes key a n).quads = s.quads := by
  rw [State.freeBytes, State.useFree_quads, (Written.writeQuiet ..).quads]

theorem State.evictRow_quads (s : State) (q r : Nat) : (s.evictRow q r).quads = s.quads := by
  rw [State.evictRow, State.updFn_quads, State.freeBytes_quads, (Written.writeQuiet ..).quads]

theorem Flushed.quads {s t : State} (h : Flushed s t) : t.quads = s.quads := by
  obtain ⟨_, _, _, shape⟩ := h.rest
  rw [shape]

theorem State.foldl_quads {α : Type} (g : State → α → State) (h : ∀ s a, (g s a).quads = s.quads) (l : List α) :
    ∀ s, (l.foldl g s).quads = s.quads := by
  induction l with
  | nil => exact fun _ => rfl
  | cons a l ih => exact fun s => (ih _).trans (h s a)

theorem State.dropRowLines_quads (s : State) (c r : Nat) : (s.dropRowLines c r).quads = s.quads := by
  rw [State.dropRowLines, State.updCore_quads, (Flushed.writeBackList ..).quads]

theorem State.deliverRow_quads (s : State) (c r : Nat) (v : Saved) : (s.deliverRow c r v).quads = s.quads := by
  have slot (s : State) (i : Nat) : (s.deliverSaved c v true i).quads = s.quads := by
    simp only [State.deliverSaved]
    split <;> rfl
  simp only [State.deliverRow]
  split
  · split
    · rw [State.updFn_quads, State.foldl_quads _ slot]
    · rw [State.foldl_quads _ fun s i => (Written.writeQuiet ..).quads, State.updFn_quads, State.foldl_quads _ slot]
  · rfl

theorem QuadsBeside.setRowBytes (s : State) (q r : Nat) (bs : List Byte) : QuadsBeside q s (s.setRowBytes q r bs) := by
  rw [State.setRowBytes]
  split
  · exact .of_quads q rfl
  · exact .updQuad s q _

theorem QuadsBeside.setRowTag (s : State) (q r : Nat) (t : Tag) : QuadsBeside q s (s.setRowTag q r t) := by
  rw [State.setRowTag]
  split
  · exact .updQuad s q _
  · exact .of_quads q rfl

theorem QuadsBeside.setRowPoison (s : State) (q r : Nat) (b : Bool) : QuadsBeside q s (s.setRowPoison q r b) := by
  rw [State.setRowPoison]
  split
  · exact .updQuad s q _
  · exact .of_quads q rfl

theorem QuadsBeside.zeroRow (s : State) (q r : Nat) : QuadsBeside q s (s.zeroRow q r) :=
  ((QuadsBeside.setRowBytes s q r _).trans (.setRowTag _ q r _)).trans (.setRowPoison _ q r _)

theorem State.rowlessCores_quads (l : List Nat) : ∀ s : State, (s.rowlessCores l).quads = s.quads := by
  induction l with
  | nil => exact fun _ => rfl
  | cons c l ih => exact fun s => (ih _).trans rfl

theorem QuadsBeside.freeQuad (s : State) (q : Nat) : QuadsBeside q s (s.freeQuad q) :=
  (QuadsBeside.of_quads q (State.rowlessCores_quads ..)).trans (.updQuad _ q _)

/-- What a row that a quad gives up does before it is zeroed. -/
theorem State.unmapRow_first (s : State) (q r : Nat) : ∃ u, Walked s u ∧ u.quads = s.quads ∧ s.unmapRow q r = u.zeroRow q r := by
  refine ⟨_, ?_, ?_, rfl⟩
  · refine Walked.trans (t := if r < 160 then s.dropRowLines (4 * q + r / 40) (r % 40) else s) ?_ ?_
    · split
      · exact .dropRowLines ..
      · exact .refl s
    · generalize (if r < 160 then s.dropRowLines (4 * q + r / 40) (r % 40) else s) = t
      split
      · refine Walked.trans ?_ (.evictRow ..)
        split
        · split
          · exact .deliverRow ..
          · exact .refl _
        · exact .refl _
      · exact .refl _
  · have first : (if r < 160 then s.dropRowLines (4 * q + r / 40) (r % 40) else s).quads = s.quads := by
      split
      · exact State.dropRowLines_quads ..
      · rfl
    generalize (if r < 160 then s.dropRowLines (4 * q + r / 40) (r % 40) else s) = t at first
    rw [← first]
    split
    · rw [State.evictRow_quads]
      split
      · split
        · exact State.deliverRow_quads ..
        · rfl
      · rfl
    · rfl

theorem State.unmapRows_spec (q : Nat) (l : List Nat) : ∀ s : State,
    Walked s (s.unmapRows q l) ∧ QuadsBeside q s (s.unmapRows q l) := by
  induction l with
  | nil => exact fun s => ⟨.refl s, fun _ _ => rfl⟩
  | cons r l ih =>
    intro s
    obtain ⟨u, walked, quads, shape⟩ := s.unmapRow_first q r
    obtain ⟨walks, beside⟩ := ih (s.unmapRow q r)
    rw [State.unmapRows]
    refine ⟨Walked.trans ?_ walks, QuadsBeside.trans ?_ beside⟩
    · rw [shape]
      exact walked.trans (.zeroRow u q r)
    · rw [shape]
      exact (QuadsBeside.of_quads q quads).trans (.zeroRow u q r)

theorem Walked.rowlessCores (l : List Nat) : ∀ s : State, Walked s (s.rowlessCores l) := by
  induction l with
  | nil => exact .refl
  | cons c l ih => exact fun s => (Walked.updCore s c Core.rowless fun _ => ⟨rfl, rfl, rfl⟩).trans (ih _)

theorem Walked.dropFrame (s : State) (fn q : Nat) : Walked s (s.updFn fn fun f => f.dropFrame q) := by
  refine .updFn s fn _ fun f => .of_eq ?_
  rw [Func.dropFrame]
  split <;> exact ⟨rfl, rfl, rfl, rfl, rfl, rfl⟩

theorem State.releaseQuads_nil (s : State) (fn : Nat) : s.releaseQuads fn [] = s := rfl

/-- One quad is released. The equation lemma that Lean would generate does not come to an end at the range of 232 rows. -/
theorem State.releaseQuads_cons (s : State) (fn q : Nat) (qs : List Nat) : s.releaseQuads fn (q :: qs)
    = ((((s.unmapRows q (List.range 232)).freeQuad q).updQuad q fun x => { x with owner := none }).updFn fn fun f =>
      f.dropFrame q).releaseQuads fn qs := by
  delta State.releaseQuads
  rfl

/-- Quads that are released belong to no one and have no rows; quads that had neither before do not get them back. -/
theorem State.releaseQuads_spec (fn : Nat) : ∀ (qs : List Nat) (s : State), Walked s (s.releaseQuads fn qs)
    ∧ ∀ q, (q ∈ qs ∨ (s.quad q).owner = none ∧ (s.quad q).rows = []) →
      ((s.releaseQuads fn qs).quad q).owner = none ∧ ((s.releaseQuads fn qs).quad q).rows = []
  | [], s => by
    rw [State.releaseQuads_nil]
    exact ⟨.refl s, fun q free => free.resolve_left List.not_mem_nil⟩
  | q :: qs, s => by
    rw [State.releaseQuads_cons]
    generalize List.range 232 = l
    obtain ⟨walks, beside⟩ := State.unmapRows_spec q l s
    generalize s.unmapRows q l = u at walks beside
    have freed := beside.trans (QuadsBeside.freeQuad u q)
    have rows : ((u.freeQuad q).quad q).rows = [] := by rw [State.freeQuad, State.quad_updQuad]
    have walked : Walked u (u.freeQuad q) := (Walked.rowlessCores ..).trans (.updQuad ..)
    generalize u.freeQuad q = v at freed rows walked
    obtain ⟨rest, none⟩ := State.releaseQuads_spec fn qs ((v.updQuad q fun x => { x with owner := none }).updFn fn fun f => f.dropFrame q)
    refine ⟨((walks.trans walked).trans ((Walked.updQuad ..).trans (.dropFrame ..))).trans rest, fun k named => none k ?_⟩
    rw [State.updFn_quad]
    by_cases same : k = q
    · rw [same, State.quad_updQuad]
      exact .inr ⟨rfl, rows⟩
    · rw [State.quad_updQuad_ne _ _ same, freed k same]
      exact named.imp_left fun mem => (List.mem_cons.mp mem).resolve_left same

theorem sysWaits_walked {s u : State} (n : Nat) (walked : Walked s u) : SysWaits s (u.sysPhase n) n := by
  have seq : u.seq s.cur.core = s.seq s.cur.core := walked.seqs _
  exact sysWaits_sysPhase n (by rw [walked.cur]) (by rw [seq]) (by rw [seq]) (by rw [seq])

/-- A word that notes a number for its later step and waits. -/
theorem sysWaits_noting {s u : State} (n : Nat) (l : List Nat) (cur : u.cur.core = s.cur.core)
    (pc : (u.seq s.cur.core).pc = (s.seq s.cur.core).pc) (belt : (u.seq s.cur.core).belt = (s.seq s.cur.core).belt)
    (named : (u.seq s.cur.core).named = (s.seq s.cur.core).named) :
    SysWaits s ((u.updSeq s.cur.core fun q => { q with sweep := l }).sysPhase n) n := by
  refine sysWaits_sysPhase n cur ?_ ?_ ?_
  · rw [State.seq_updSeq]; exact pc
  · rw [State.seq_updSeq]; exact belt
  · rw [State.seq_updSeq]; exact named

/-! ## The words -/

theorem exec_slmap_quads {s u : State} {a : Src} {fn die mask : Nat} (d : Dest) (lo : 1 ≤ fn) (hi : fn ≤ 48) (onDie : die < 16)
    (named : mask < 64) (args : number s a = fn + die * 2 ^ 12 + mask * 2 ^ 16) (ready : SysReady s [a])
    (bound : (s.fn fn).bound = true) (unlocked : (s.fn fn).tdisp = .unlocked)
    (given : s.slmapQuads fn (maskQuads die mask) = (0, u)) :
    exec (.slmap a d) s = .next ((u.pmEnd [3] fn 0).sysDone [a] d 0 0) := by
  simp only [exec, execSlmap, State.sysWord_ready ready, State.opd_toNat, args, mapArgs_quads lo hi onDie named, bound, given,
    State.locked, unlocked, Bool.not_true, Bool.false_eq_true, if_false, bne_self_eq_false, and_false]

theorem exec_slmap_queue {s : State} {a : Src} {fn die wq : Nat} (d : Dest) (lo : 1 ≤ fn) (hi : fn ≤ 48) (onDie : die < 16)
    (named : wq < 8) (args : number s a = fn + 2 ^ 8 + die * 2 ^ 12 + wq * 2 ^ 24) (ready : SysReady s [a])
    (bound : (s.fn fn).bound = true) (free : (s.wq fn wq).att = none) (owns : s.ownsOn fn die ≠ 0) :
    exec (.slmap a d) s
      = .next (((s.updWq fn wq fun w => { w with att := some die }).pmEnd [3] fn 0).sysDone [a] d 0 0) := by
  simp only [exec, execSlmap, State.sysWord_ready ready, State.opd_toNat, args, mapArgs_queue lo hi onDie named, bound,
    State.attach, free, Option.isSome_none, owns, Bool.not_true, Bool.false_eq_true, if_false, if_true, false_and]

theorem exec_slunmap_queue {s : State} {a : Src} {fn die wq : Nat} (d : Dest) (lo : 1 ≤ fn) (hi : fn ≤ 48) (onDie : die < 16)
    (named : wq < 8) (args : number s a = fn + 2 ^ 8 + die * 2 ^ 12 + wq * 2 ^ 24) (ready : SysReady s [a])
    (bound : (s.fn fn).bound = true) (there : (s.wq fn wq).att = some die) (idle : (s.wq fn wq).openCount = 0)
    (unparked : (s.wq fn wq).park = false) :
    exec (.slunmap a d) s = .next ((s.updWq fn wq fun w => { w with att := none }).sysDone [a] d 0 0) := by
  simp only [exec, execSlunmap, State.sysWord_ready ready, sysReady_phase ready, State.opd_toNat, args, mapArgs_queue lo hi onDie named,
    bound, State.detach, there, idle, unparked, Nat.reduceEqDiff, ne_eq, not_true, Bool.not_true, Bool.false_eq_true, or_self,
    if_false, if_true]

theorem exec_slunmap_release {s : State} {a : Src} {fn die mask : Nat} (d : Dest) (lo : 1 ≤ fn) (hi : fn ≤ 48)
    (onDie : die < 16) (named : mask < 64) (args : number s a = fn + die * 2 ^ 12 + mask * 2 ^ 16) (ready : SysReady s [a])
    (bound : (s.fn fn).bound = true) (unlocked : (s.fn fn).tdisp = .unlocked)
    (free : s.unmapStatus fn die (maskQuads die mask) = 0) :
    exec (.slunmap a d) s = .next (((s.releaseQuads fn (maskQuads die mask)).updSeq s.cur.core fun q =>
      { q with sweep := [s.heldRows (maskQuads die mask)] }).sysPhase 1) := by
  simp only [exec, execSlunmap, State.sysWord_ready ready, sysReady_phase ready, State.opd_toNat, args, mapArgs_quads lo hi onDie named,
    bound, free, State.locked, unlocked, Nat.reduceEqDiff, ne_eq, not_true, Bool.not_true, Bool.false_eq_true, if_false,
    bne_self_eq_false]

theorem exec_slunmap_quiet {s : State} {a : Src} {fn die mask : Nat} (d : Dest) (lo : 1 ≤ fn) (hi : fn ≤ 48)
    (onDie : die < 16) (named : mask < 64) (args : number s a = fn + die * 2 ^ 12 + mask * 2 ^ 16)
    (later : (s.seq s.cur.core).phase = 1) (quiet : s.quadsQuiet (maskQuads die mask) = true) :
    exec (.slunmap a d) s = .next ((s.pmEnd [3] fn 0).sysDone [a] d 0 ((s.seq s.cur.core).sweep.headD 0)) := by
  simp only [exec, execSlunmap, State.sysWord_later (later ▸ Nat.one_ne_zero), later, State.opd_toNat, args,
    mapArgs_quads lo hi onDie named, quiet, if_true]

/-- Settles O40: the words' fields, and for quads an induction over the quads that the mask names. -/
theorem mapWords : Obligations.MapWords := by
  unfold Obligations.MapWords
  intro s a d fn die lo hi onDie bound
  refine ⟨fun u mask named args ready unlocked free mapped => ?_, fun wq named args ready => ⟨fun none owns => ?_,
    fun there idle unparked => ?_⟩, fun mask named args => ⟨fun ready unlocked free => ?_, fun later _ quiet n noted => ?_⟩⟩
  · exact ⟨_, exec_slmap_quads d lo hi onDie named args ready bound unlocked (State.slmapQuads_mapped free mapped),
      sysEnds_pmEnd .., State.mapQuads_spec _ mapped⟩
  · exact ⟨_, exec_slmap_queue d lo hi onDie named args ready bound none owns, sysEnds_pmEnd ..⟩
  · exact ⟨_, exec_slunmap_queue d lo hi onDie named args ready bound there idle unparked, sysEnds_sysDone ..⟩
  · obtain ⟨walked, released⟩ := State.releaseQuads_spec fn (maskQuads die mask) s
    have seq : (s.releaseQuads fn (maskQuads die mask)).seq s.cur.core = s.seq s.cur.core := walked.seqs _
    exact ⟨_, exec_slunmap_release d lo hi onDie named args ready bound unlocked free,
      sysWaits_noting 1 _ (by rw [walked.cur]) (by rw [seq]) (by rw [seq]) (by rw [seq]), fun q mem => released q (.inl mem)⟩
  · refine ⟨_, exec_slunmap_quiet d lo hi onDie named args later quiet, ?_⟩
    rw [noted]
    exact sysEnds_pmEnd ..

end Sys2Proof.Machine
end

section
/-! SUPPORT. WMASK, THROT and DOGSET (R279, R345, R361): the fields of their operands, the lines that go with a function's
ways, and the quads that are gated. -/

namespace Sys2Proof.Machine

open Sys2Proof Sys2Proof.Safety

/-! ## Fields of operands -/

theorem kindArgs_fn {kinds : List Nat} {fn kind : Nat} (lo : 1 ≤ fn) (hi : fn ≤ 48) (two : kind < 4)
    (other : kinds.contains kind = false) : kindArgs kinds (fn + kind * 2 ^ 8) = some (kind, fn, 0) := by
  have e1 : bits (fn + kind * 2 ^ 8) 8 2 = kind := by simp only [bits]; omega
  have e2 : bits (fn + kind * 2 ^ 8) 0 8 = fn := by simp only [bits]; omega
  have e3 : (fn + kind * 2 ^ 8) / 2 ^ 10 = 0 := by omega
  simp only [kindArgs, e1, e2, e3, other, sliceFn_of_range lo hi]
  rfl

theorem kindArgs_die {kinds : List Nat} {die kind : Nat} (onDie : die < 16) (two : kind < 4)
    (named : kinds.contains kind = true) : kindArgs kinds (kind * 2 ^ 8 + die * 2 ^ 12) = some (kind, 0, die) := by
  have e1 : bits (kind * 2 ^ 8 + die * 2 ^ 12) 8 2 = kind := by simp only [bits]; omega
  have e2 : bits (kind * 2 ^ 8 + die * 2 ^ 12) 0 8 = 0 := by simp only [bits]; omega
  have e3 : bits (kind * 2 ^ 8 + die * 2 ^ 12) 10 2 = 0 := by simp only [bits]; omega
  have e4 : (kind * 2 ^ 8 + die * 2 ^ 12) / 2 ^ 16 = 0 := by omega
  have e5 : bits (kind * 2 ^ 8 + die * 2 ^ 12) 12 4 = die := by simp only [bits]; omega
  simp only [kindArgs, e1, e2, e3, e4, e5, named]
  rfl

theorem parseWay_fields {m p q r : Nat} (hm : m < 2 ^ 16) (hp : p < 3) (hq : q < 3) (hr : r < 3) :
    parseWay (m + p * 2 ^ 16 + q * 2 ^ 18 + r * 2 ^ 20)
      = some ⟨BitVec.ofNat 16 m, BitVec.ofNat 2 p, BitVec.ofNat 2 q, BitVec.ofNat 2 r⟩ := by
  have e1 : bits (m + p * 2 ^ 16 + q * 2 ^ 18 + r * 2 ^ 20) 16 2 = p := by simp only [bits]; omega
  have e2 : bits (m + p * 2 ^ 16 + q * 2 ^ 18 + r * 2 ^ 20) 18 2 = q := by simp only [bits]; omega
  have e3 : bits (m + p * 2 ^ 16 + q * 2 ^ 18 + r * 2 ^ 20) 20 2 = r := by simp only [bits]; omega
  have mask : BitVec.ofNat 16 (m + p * 2 ^ 16 + q * 2 ^ 18 + r * 2 ^ 20) = BitVec.ofNat 16 m := by
    apply BitVec.eq_of_toNat_eq
    simp only [BitVec.toNat_ofNat]
    omega
  have valid : ¬ ((m + p * 2 ^ 16 + q * 2 ^ 18 + r * 2 ^ 20) / 2 ^ 22 ≠ 0 ∨ p = 3 ∨ q = 3 ∨ r = 3) := by omega
  rw [parseWay, e1, e2, e3, mask, if_neg valid]

/-! ## Ways that a function loses (R279) -/

theorem FnsStand.waysOf {s t : State} (h : FnsStand s t) (f : Nat) : (t.fn f).waysOf = (s.fn f).waysOf := by
  rw [Func.waysOf, h.ways, Func.waysOf]

theorem State.slice_mapWays (s : State) (p : L2Line → Bool) (i : Nat) :
    ({ s with slices := s.slices.map fun (x : Nat × Slice) => (x.1, { x.2 with ways := x.2.ways.filter p }) } : State).slice i
      = { s.slice i with ways := (s.slice i).ways.filter p } :=
  tget_map i (fun x : Slice => { x with ways := x.ways.filter p }) Slice.reset rfl s.slices

theorem State.dropWays_spec (s : State) (fn : Nat) (m : BitVec 16) : FnsStand s (s.dropWays fn m)
    ∧ (∀ i, ((s.dropWays fn m).slice i).ways = (s.slice i).ways.filter fun l => !m.getLsbD l.way)
    ∧ (s.dropWays fn m).cores = s.cores ∧ (s.dropWays fn m).mem = s.mem := by
  rw [State.dropWays]
  generalize (s.slices.map fun (p : Nat × Slice) => (p.2.ways.filter fun (l : L2Line) => m.getLsbD l.way && l.dirty).length).sum = n
  have counted := (Tallied.meter s fn 12 (128 * n)).trans (Tallied.telemeter _ fn 33 n)
  have fns := (FnsStand.meter s fn 12 (128 * n)).trans (FnsStand.telemeter _ fn 33 n)
  have slices : ((s.meter fn 12 (128 * n)).telemeter fn 33 n).slices = s.slices := by
    rw [State.telemeter, State.meter]
    split <;> split <;> rfl
  generalize (s.meter fn 12 (128 * n)).telemeter fn 33 n = u at counted fns slices
  refine ⟨fns.trans (.of_fns rfl), fun i => ?_, counted.cores, counted.mem⟩
  have lines := u.slice_mapWays (fun l => !m.getLsbD l.way) i
  have same : u.slice i = s.slice i := by rw [State.slice, slices]; rfl
  rw [← same]
  exact congrArg Slice.ways lines

theorem filter_no_way (l : List L2Line) : (l.filter fun x => !(0 : BitVec 16).getLsbD x.way) = l := by
  simp

theorem State.setWay_spec (s : State) (fn tc : Nat) (w : WayCfg) :
    ((s.setWay fn tc w).fn fn).ways = (s.fn fn).ways.set tc w
    ∧ (∀ i, ((s.setWay fn tc w).slice i).ways
        = (s.slice i).ways.filter fun l => !((s.fn fn).waysOf &&& ~~~((s.setWay fn tc w).fn fn).waysOf).getLsbD l.way)
    ∧ (s.setWay fn tc w).cores = s.cores ∧ (s.setWay fn tc w).mem = s.mem := by
  simp only [State.setWay]
  have set : ((s.updFn fn fun f => { f with ways := f.ways.set tc w }).fn fn).ways = (s.fn fn).ways.set tc w := by
    rw [State.fn_updFn]
  have slices (i : Nat) : (s.updFn fn fun f => { f with ways := f.ways.set tc w }).slice i = s.slice i := rfl
  have cores : (s.updFn fn fun f => { f with ways := f.ways.set tc w }).cores = s.cores := rfl
  have mem : (s.updFn fn fun f => { f with ways := f.ways.set tc w }).mem = s.mem := rfl
  generalize (s.updFn fn fun f => { f with ways := f.ways.set tc w }) = u at set slices cores mem
  split
  · rename_i none
    refine ⟨set, fun i => ?_, cores, mem⟩
    rw [none, filter_no_way, slices]
  · obtain ⟨stand, ways, dropped, memory⟩ := u.dropWays_spec fn ((s.fn fn).waysOf &&& ~~~(u.fn fn).waysOf)
    refine ⟨(stand.ways fn).trans set, fun i => ?_, dropped.trans cores, memory.trans mem⟩
    rw [stand.waysOf, ways i, slices]

/-! ## Gated quads (R361) -/

theorem QuadsBeside.foldl {α : Type} {q : Nat} (g : State → α → State) (h : ∀ s a, QuadsBeside q s (g s a)) (l : List α) :
    ∀ s, QuadsBeside q s (l.foldl g s) := by
  induction l with
  | nil => exact fun _ _ _ => rfl
  | cons a l ih => exact fun s => (h s a).trans (ih _)

theorem State.gateQuad_spec (s : State) (q : Nat) (on : Bool) :
    QuadsBeside q s (s.gateQuad q on) ∧ ((s.gateQuad q on).quad q).gated = on := by
  rw [State.gateQuad]
  cases on with
  | true =>
    rw [if_pos rfl]
    exact ⟨.updQuad s q _, by rw [State.quad_updQuad]⟩
  | false =>
    rw [if_neg Bool.false_ne_true]
    cases gated : (s.quad q).gated with
    | true =>
      rw [if_pos rfl]
      exact ⟨((QuadsBeside.foldl _ (fun s r => .zeroRow s q r) _ s).trans (.freeQuad _ q)).trans (.updQuad _ q _),
        by rw [State.quad_updQuad]⟩
    | false => exact ⟨fun _ _ => rfl, by rw [if_neg Bool.false_ne_true, gated]⟩

theorem State.gateQuads_spec (die mask : Nat) : ∀ (is : List Nat) (s : State), is.Nodup →
    (∀ i ∈ is, (((s.gateQuads die mask is).quad (6 * die + i)).gated = (bits mask i 1 == 1)))
    ∧ ∀ q, (∀ i ∈ is, q ≠ 6 * die + i) → (s.gateQuads die mask is).quad q = s.quad q
  | [], s, _ => ⟨fun _ mem => absurd mem List.not_mem_nil, fun _ _ => rfl⟩
  | i :: is, s, once => by
    obtain ⟨new, once⟩ := List.nodup_cons.mp once
    obtain ⟨beside, set⟩ := s.gateQuad_spec (6 * die + i) (bits mask i 1 == 1)
    obtain ⟨gated, others⟩ := State.gateQuads_spec die mask is (s.gateQuad (6 * die + i) (bits mask i 1 == 1)) once
    rw [State.gateQuads]
    refine ⟨fun k mem => ?_, fun q apart => ?_⟩
    · rcases List.mem_cons.mp mem with same | mem
      · rw [same, others _ fun j mem same => new (by rwa [show i = j by omega])]
        exact set
      · exact gated k mem
    · rw [others q fun j mem => apart j (List.mem_cons_of_mem _ mem)]
      exact beside q (apart i List.mem_cons_self)

theorem bits_one_testBit (n i : Nat) : (bits n i 1 == 1) = n.testBit i := by
  rw [bits, Nat.testBit, Nat.shiftRight_eq_div_pow, Nat.one_and_eq_mod_two]
  have two : n / 2 ^ i % 2 ^ 1 < 2 := Nat.mod_lt _ (by decide)
  rcases Nat.lt_succ_iff_lt_or_eq.mp two with zero | one
  · have zero : n / 2 ^ i % 2 = 0 := by omega
    rw [Nat.pow_one, zero]
    rfl
  · have one : n / 2 ^ i % 2 = 1 := by omega
    rw [Nat.pow_one, one]
    rfl

/-! ## The words -/

/-- What THROT sets, by its KIND: the status and the state. -/
def State.setLimit (s : State) (kind fn die v : Nat) : Nat × State :=
  match kind with
  | 0 => s.setShares fn v
  | 1 => s.setAcq fn v
  | 2 => s.setPower die v
  | _ => s.setGates die v

section
variable {s : State} {a b : Src} (d : Dest)

theorem exec_wmask {fn tc m p q r : Nat} (ready : SysReady s [a, b]) (lo : 1 ≤ fn) (hi : fn ≤ 48)
    (bound : (s.fn fn).bound = true) (args : number s a = fn + tc * 2 ^ 8) (cls : tc < 4)
    (cfg : number s b = m + p * 2 ^ 16 + q * 2 ^ 18 + r * 2 ^ 20) (hm : m < 2 ^ 16) (hp : p < 3) (hq : q < 3) (hr : r < 3)
    (apart : BitVec.ofNat 16 m &&& s.otherWays fn = 0) (unlocked : (s.fn fn).tdisp = .unlocked) :
    exec (.wmask a b d) s = .next ((s.setWay fn tc ⟨BitVec.ofNat 16 m, BitVec.ofNat 2 p, BitVec.ofNat 2 q, BitVec.ofNat 2 r⟩).sysDone
      [a, b] d 0 0) := by
  have e1 : bits (fn + tc * 2 ^ 8) 0 8 = fn := by simp only [bits]; omega
  have e2 : bits (fn + tc * 2 ^ 8) 8 2 = tc := by simp only [bits]; omega
  have e3 : (fn + tc * 2 ^ 8) / 2 ^ 10 = 0 := by omega
  simp only [exec, execWmask, State.sysWord_ready ready, State.opd_toNat, args, cfg, parseWay_fields hm hp hq hr, e1, e2, e3,
    sliceFn_of_range lo hi, bound, apart, State.locked, unlocked, Bool.not_true, bne_self_eq_false, Bool.or_self,
    Bool.false_eq_true, ne_eq, not_true, if_false]

theorem exec_throt {kind fn die st : Nat} {t : State} (ready : SysReady s [a, b])
    (args : kindArgs [2, 3] (number s a) = some (kind, fn, die)) (set : s.setLimit kind fn die (number s b) = (st, t)) :
    exec (.throt a b d) s = .next ((if kind = 0 then t.pmEnd [4] fn st else t).sysDone [a, b] d st 0) := by
  have word : exec (.throt a b d) s = .next ((if kind = 0 then (s.setLimit kind fn die (number s b)).2.pmEnd [4] fn
      (s.setLimit kind fn die (number s b)).1 else (s.setLimit kind fn die (number s b)).2).sysDone [a, b] d
      (s.setLimit kind fn die (number s b)).1 0) := by
    simp only [exec, execThrot, State.sysWord_ready ready, State.opd_toNat, args]
    rfl
  rw [word, set]

theorem exec_throt_limit {kind fn die st : Nat} {t : State} (ready : SysReady s [a, b])
    (args : kindArgs [2, 3] (number s a) = some (kind, fn, die)) (limit : kind ≠ 0)
    (set : s.setLimit kind fn die (number s b) = (st, t)) : exec (.throt a b d) s = .next (t.sysDone [a, b] d st 0) := by
  rw [exec_throt d ready args set, if_neg limit]

theorem exec_dogset_fn {kind fn v : Nat} (ready : SysReady s [a, b]) (args : kindArgs [3] (number s a) = some (kind, fn, 0))
    (other : kind < 3) (value : number s b = v) (fits : v < 2 ^ 32) (period : ¬ (kind = 1 ∧ (v = 0 ∨ 2 ^ 20 < v)))
    (bound : (s.fn fn).bound = true) :
    exec (.dogset a b d) s = .next ((s.updFn fn fun f => f.dogset kind v).sysDone [a, b] d 0 0) := by
  have inside : v / 2 ^ 32 = 0 := by omega
  have kind3 : kind ≠ 3 := by omega
  simp only [exec, execDogset, State.sysWord_ready ready, State.opd_toNat, args, value, inside, if_neg kind3, if_neg period, bound,
    ne_eq, not_true, Bool.not_true, Bool.false_eq_true, if_false]

theorem exec_dogset_die {die v : Nat} (ready : SysReady s [a, b]) (args : kindArgs [3] (number s a) = some (3, 0, die))
    (value : number s b = v) (fits : v < 2 ^ 32) (valid : v / 2 % 8 = 0) :
    exec (.dogset a b d) s = .next ((s.updDie die fun x => { x with repctl := BitVec.ofNat 32 v }).sysDone [a, b] d 0 0) := by
  have inside : v / 2 ^ 32 = 0 := by omega
  have e1 : bits v 1 3 = 0 := by simp only [bits]; omega
  simp only [exec, execDogset, State.sysWord_ready ready, State.opd_toNat, args, value, inside, e1, ne_eq, not_true, if_false,
    if_true]

end

/-- Settles O41: the fields of the operands, and for each word the field that it sets; the lines of lost ways and the gated
quads by `State.setWay_spec` and `State.gateQuads_spec`. -/
theorem limitWords : Obligations.LimitWords := by
  unfold Obligations.LimitWords
  intro s a b d ready
  refine ⟨fun fn lo hi bound => ⟨fun tc m p q r args cls cfg hm hp hq hr apart unlocked => ?_, fun args fits under => ?_,
    fun args fits => ?_, fun args fits => ?_, fun args pos fits => ?_, fun args fits => ?_⟩,
    fun die onDie => ⟨fun args fits => ?_, fun args fits free => ?_, fun args fits valid => ?_⟩⟩
  · exact ⟨_, ⟨_, exec_wmask d ready lo hi bound args cls cfg hm hp hq hr apart unlocked, sysEnds_sysDone ..⟩, State.setWay_spec ..⟩
  · have kinds : kindArgs [2, 3] (number s a) = some (0, fn, 0) := by
      rw [args]
      exact kindArgs_fn (kind := 0) lo hi (by decide) (by decide)
    have inside : ¬ number s b / 2 ^ 36 ≠ 0 := by omega
    refine ⟨_, exec_throt d ready kinds (st := 0) ?_, sysEnds_pmEnd ..⟩
    simp only [State.setLimit, State.setShares, if_neg inside, bound, under, Bool.not_true, Bool.false_eq_true, if_false]
  · have kinds : kindArgs [2, 3] (number s a) = some (1, fn, 0) := by
      rw [args]
      exact kindArgs_fn (kind := 1) lo hi (by decide) (by decide)
    have inside : ¬ number s b / 2 ^ 4 ≠ 0 := by omega
    refine ⟨_, exec_throt_limit d ready kinds (by decide) (st := 0) ?_, sysEnds_sysDone ..⟩
    simp only [State.setLimit, State.setAcq, if_neg inside, bound, Bool.not_true, Bool.false_eq_true, if_false]
  · have kinds : kindArgs [3] (number s a) = some (0, fn, 0) := by
      rw [args]
      exact kindArgs_fn (kind := 0) lo hi (by decide) (by decide)
    exact ⟨_, exec_dogset_fn d ready kinds (by decide) rfl fits (by omega) bound, sysEnds_sysDone ..⟩
  · have kinds : kindArgs [3] (number s a) = some (1, fn, 0) := by
      rw [args]
      exact kindArgs_fn (kind := 1) lo hi (by decide) (by decide)
    exact ⟨_, exec_dogset_fn d ready kinds (by decide) rfl (by omega) (by omega) bound, sysEnds_sysDone ..⟩
  · have kinds : kindArgs [3] (number s a) = some (2, fn, 0) := by
      rw [args]
      exact kindArgs_fn (kind := 2) lo hi (by decide) (by decide)
    exact ⟨_, exec_dogset_fn d ready kinds (by decide) rfl fits (by omega) bound, sysEnds_sysDone ..⟩
  · have kinds : kindArgs [2, 3] (number s a) = some (2, 0, die) := by
      rw [args]
      exact kindArgs_die onDie (by decide) (by decide)
    have inside : ¬ number s b / 2 ^ 8 ≠ 0 := by omega
    refine ⟨_, exec_throt_limit d ready kinds (by decide) (st := 0) ?_, sysEnds_sysDone ..⟩
    simp only [State.setLimit, State.setPower, if_neg inside]
  · have kinds : kindArgs [2, 3] (number s a) = some (3, 0, die) := by
      rw [args]
      exact kindArgs_die onDie (by decide) (by decide)
    have inside : ¬ number s b / 2 ^ 6 ≠ 0 := by omega
    have none : ((maskQuads die (number s b)).any fun q => (s.quad q).owner.isSome) = false := by
      simp only [List.any_eq_false]
      intro q mem
      simp [free q mem]
    refine ⟨s.gateQuads die (number s b) (List.range 6),
      ⟨_, exec_throt_limit d ready kinds (by decide) (st := 0) ?_, sysEnds_sysDone ..⟩, fun i six => ?_⟩
    · simp only [State.setLimit, State.setGates, if_neg inside, none, Bool.false_eq_true, if_false]
    · obtain ⟨gated, -⟩ := State.gateQuads_spec die (number s b) (List.range 6) s List.nodup_range
      rw [gated i (List.mem_range.mpr six), bits_one_testBit]
  · have kinds : kindArgs [3] (number s a) = some (3, 0, die) := by
      rw [args]
      exact kindArgs_die onDie (by decide) (by decide)
    exact ⟨_, exec_dogset_die d ready kinds rfl fits valid, sysEnds_sysDone ..⟩

end Sys2Proof.Machine
end

section
/-! SUPPORT. A task that ends before its TEND (R359 ACT 3): what its cores and saved states do to its function. -/

namespace Sys2Proof.Machine

open Sys2Proof Sys2Proof.Safety

/-! ## What leaves functions as they are -/

theorem State.fn_of_fns {s t : State} (fns : t.fns = s.fns) (f : Nat) : t.fn f = s.fn f := by
  rw [State.fn, fns]
  rfl

theorem Flushed.fns {s t : State} (h : Flushed s t) : t.fns = s.fns := by
  obtain ⟨_, _, _, shape⟩ := h.rest
  rw [shape]

theorem State.setRow_fns (s : State) (q r : Nat) (o : Row) : (s.setRow q r o).fns = s.fns := by
  rw [State.setRow]
  split <;> rfl

theorem State.markRows_fns (s : State) (q : Nat) (o : Row) (st : RowState) : (s.markRows q o st).fns = s.fns := by
  rw [State.markRows]
  refine State.foldl_fns (fun u r => ?_) _ s
  split
  · exact u.setRow_fns ..
  · rfl

theorem State.dropClaim_fns (s : State) (c : Nat) (side : MSide) (mask : Word) : (s.dropClaim c side mask).fns = s.fns := by
  rw [State.dropClaim, State.updCore_fns]
  exact State.foldl_fns (fun u r => u.setRow_fns ..) _ s

theorem State.deliverSlots_fns (c : Nat) (l : List Nat) : ∀ s : State, (s.deliverSlots c l).fns = s.fns := by
  induction l with
  | nil => exact fun _ => rfl
  | cons i l ih =>
    intro s
    rw [State.deliverSlots, ih, State.deliverSlot]
    split <;> rfl

theorem State.dropLease_fns (s : State) (c : Nat) : (s.dropLease c).fns = s.fns := by
  obtain ⟨_, shape⟩ := s.dropLease_quads c
  rw [shape]

theorem State.dropDonations_fns_congr {s u : State} (fns : u.fns = s.fns) (fn : Nat) (p : Donation → Bool) :
    (u.dropDonations fn p).fns = (s.dropDonations fn p).fns := by
  have same : u.fn fn = s.fn fn := by rw [State.fn, fns]; rfl
  rw [State.dropDonations, State.dropDonations, same]
  split
  · simp only [State.setDonations, State.mapTasks, State.updFn, same, fns]
  · exact fns

theorem State.giveNoMore_fns_congr {s u : State} {c : Nat} (fns : u.fns = s.fns) (task : (u.core c).task = (s.core c).task) :
    (u.giveNoMore c).fns = (s.giveNoMore c).fns := by
  rw [State.giveNoMore, State.giveNoMore, task]
  split
  · exact fns
  · exact State.dropDonations_fns_congr fns ..

/-- Where a monitor is fired, the function changes as its donations end. -/
theorem State.unmonitor_fns (s : State) (c : Nat) : (s.unmonitor c).fns = (s.giveNoMore c).fns := by
  have core := State.core_mapCores s (fun x => { x with portMon := x.portMon.filter fun m => m.core != c }) rfl rfl c
  rw [State.unmonitor, State.updCore_fns]
  exact State.giveNoMore_fns_congr rfl ((congrArg Core.task core).trans rfl)

/-- The donations of the task on a core end, and its function's tasks away have the priority of those that stay. -/
theorem State.giveNoMore_fn {s : State} {c : Nat} {t : Task} (task : (s.core c).task = some t)
    (gives : ((s.fn t.fn).donations.any fun d => d.gives t) = true) :
    ((s.giveNoMore c).fn t.fn).away
      = (s.fn t.fn).away.map (Saved.mapTask (Task.withPrio ((s.fn t.fn).donations.filter fun d => !d.gives t))) := by
  rw [State.giveNoMore, task]
  simp only [State.dropDonations, gives, if_true]
  generalize (s.fn t.fn).donations.filter (fun d => !d.gives t) = l
  exact (congrArg Func.away (State.fn_updFn s t.fn fun f =>
    { f with donations := l, away := f.away.map (Saved.mapTask (Task.withPrio l)) })).trans rfl

/-! ## A task that ends -/

theorem Walked.adopt (s : State) (c : Nat) : Walked s (s.adopt c) := .aside ⟨rfl, rfl, rfl, rfl, rfl⟩

theorem Walked.logLost (s : State) (c : Nat) : Walked s (s.logLost c) := .aside ⟨rfl, rfl, rfl, rfl, rfl⟩

/-- What a core of a task that ends sends and writes back: functions stay. -/
theorem State.endCore_first (s : State) (c : Nat) :
    Walked s ((((s.deliverAll c).writeBackAll c).orphan (ReqSrc.endsWith c)).adopt c)
      ∧ ((((s.deliverAll c).writeBackAll c).orphan (ReqSrc.endsWith c)).adopt c).fns = s.fns := by
  have delivered := Walked.deliverAll s c
  have fns : (s.deliverAll c).fns = s.fns := State.deliverSlots_fns ..
  generalize s.deliverAll c = u at delivered fns
  have written := Walked.writeBackAll u c
  have flushed : (u.writeBackAll c).fns = u.fns := (Flushed.writeBackList ..).fns
  generalize u.writeBackAll c = v at written flushed
  exact ⟨((delivered.trans written).trans (.orphan v _)).trans (.adopt _ c), flushed.trans fns⟩

theorem State.clearCore_fns (s : State) (t : Task) (c : Nat) :
    ∃ u, Walked s u ∧ u.fns = s.fns ∧ (s.clearCore c t).fns = (u.giveNoMore c).fns := by
  refine ⟨(s.logLost c).dropClaims c, (Walked.logLost s c).trans (.dropClaims _ c), ?_, ?_⟩
  · rw [State.dropClaims, State.dropClaim_fns, State.dropClaim_fns, State.dropClaim_fns, State.logLost]
  · rw [State.clearCore, State.updCore_fns, State.markRows_fns, State.dropLease_fns, State.unmonitor_fns]

/-- Before a task that ends leaves a core its monitor is fired; functions change by that alone. -/
theorem State.endCore_fns (s : State) (t : Task) (c : Nat) :
    ∃ u, Walked s u ∧ u.fns = s.fns ∧ (s.endCore t c).fns = (u.giveNoMore c).fns := by
  obtain ⟨walked, fns⟩ := s.endCore_first c
  rw [State.endCore]
  generalize (((s.deliverAll c).writeBackAll c).orphan (ReqSrc.endsWith c)).adopt c = u at walked fns
  obtain ⟨v, walks, same, cleared⟩ := u.clearCore_fns t c
  exact ⟨v, walked.trans walks, same.trans fns, cleared⟩

/-- A saved state that ends leaves its function's list, as it stood. -/
theorem State.endSaved_away (s : State) (v : Saved) :
    ((s.endSaved v).fn v.task.fn).away = (s.fn v.task.fn).away.filter fun w => w != v := by
  have slot (u : State) (i : Nat) : (u.deliverSaved v.place v false i).fns = u.fns := by
    simp only [State.deliverSaved]
    split <;> rfl
  have delivered := State.foldl_fns slot (List.range 64) s
  rw [State.endSaved]
  generalize (List.range 64).foldl (fun (s : State) i => s.deliverSaved v.place v false i) s = u at delivered
  have flushed := (Flushed.writeBackList u v.place 0 ((u.core v.place).dirtyLines.filter fun l => l.fn == v.task.fn)).fns
  have same : ((u.writeBackList v.place 0 ((u.core v.place).dirtyLines.filter fun l => l.fn == v.task.fn)).markRows
      (quadOf v.place) v.task.row .released).fns = s.fns := by rw [State.markRows_fns, flushed, delivered]
  rw [State.fn_updFn, State.dropEvicted, State.fn_updFn, State.fn, same]
  rfl

theorem State.endCores_one (s : State) (t : Task) (c : Nat) : s.endCores t [c] = s.endCore t c := by
  delta State.endCores
  rfl

theorem State.endAllSaved_one (s : State) (v : Saved) : s.endAllSaved [v] = s.endSaved v := by
  delta State.endAllSaved
  rfl

/-- Some of a function's tasks away has a task's name. -/
def State.holdsAway (s : State) (k : Task) : Prop := ∃ v ∈ (s.fn k.fn).away, v.task.name = k.name

theorem State.holdsAway_of_fns {s t : State} {k : Task} (h : s.holdsAway k) (fns : ((t.fn k.fn).away = (s.fn k.fn).away)) :
    t.holdsAway k := by
  obtain ⟨v, mem, name⟩ := h
  exact ⟨v, fns ▸ mem, name⟩

theorem Walked.holdsAway {s t : State} {k : Task} (walked : Walked s t) (h : s.holdsAway k) : t.holdsAway k := by
  obtain ⟨v, mem, name⟩ := h
  obtain ⟨w, there, -, -, same⟩ := (walked.fns k.fn).away v mem
  exact ⟨w, there, same.trans name⟩

theorem State.holdsAway_taskOver {s : State} {k : Task} (h : s.holdsAway k) (wq rseq tseq : Nat) :
    (s.taskOver k.fn wq rseq tseq).holdsAway k := by
  refine (taskOver_shape s k.fn wq rseq tseq).holdsAway (s.holdsAway_of_fns h ?_)
  rw [State.fn_updFn]

theorem State.msix_fns (s : State) (f v : Nat) : (s.msix f v).fns = s.fns := by
  obtain ⟨_, sent⟩ := s.msix_cases f v
  rw [sent]

theorem State.holdsAway_presentNext {s : State} {k : Task} (h : s.holdsAway k) (wq : Nat) :
    (s.presentNext k.fn wq).holdsAway k := by
  refine State.holdsAway_of_fns h ?_
  rw [State.presentNext]
  split
  · rw [State.fn_updWq]
  · rw [State.fn_of_fns (State.msix_fns _ _ _), State.fn_updWq]

/-- A task that ends on a core while a part of it is saved, and whose donations end with it: the saved part, which the end of
the donations changes, stays on its function's list. -/
theorem State.endTaskOf_holdsAway {s : State} {k : Task} {v : Saved} {c : Nat}
    (resident : s.coresOf k.fn k.wq k.rseq k.tseq = [c]) (task : (s.core c).task = some k)
    (saved : s.awayOf k.fn k.wq k.rseq k.tseq = [v]) (part : v.task = k) (alone : (s.fn k.fn).away = [v])
    (gives : ((s.fn k.fn).donations.any fun d => d.gives k) = true)
    (changed : (Saved.mapTask (Task.withPrio ((s.fn k.fn).donations.filter fun d => !d.gives k)) v != v) = true) :
    (s.endTaskOf k.fn k.wq k.rseq k.tseq).holdsAway k := by
  obtain ⟨u, walked, fns, ended⟩ := s.endCore_fns k c
  have fn : u.fn k.fn = s.fn k.fn := by rw [State.fn, fns]; rfl
  obtain ⟨x, there, name⟩ : ∃ x, (u.core c).task = some x ∧ x.name = k.name := by
    have who := walked.who c
    rw [task] at who
    exact Option.map_eq_some_iff.mp who
  simp only [Task.name, Prod.mk.injEq] at name
  obtain ⟨⟨sameFn, sameWq, sameRseq, sameTseq⟩, -⟩ := name
  have sameGives : (fun d : Donation => d.gives x) = fun d => d.gives k := by
    funext d
    rw [Donation.gives, Donation.gives, sameWq, sameRseq, sameTseq]
  have away : ((s.endCore k c).fn k.fn).away
      = [Saved.mapTask (Task.withPrio ((s.fn k.fn).donations.filter fun d => !d.gives k)) v] := by
    have given := State.giveNoMore_fn there (by rw [sameFn, fn, sameGives]; exact gives)
    rw [sameFn, fn, alone] at given
    rw [State.fn, ended]
    refine given.trans ?_
    simp only [congrFun sameGives, List.map_cons, List.map_nil]
  have kept : ((s.endCore k c).endSaved v).holdsAway k := by
    have filtered := (s.endCore k c).endSaved_away v
    rw [part, away, List.filter_cons_of_pos (p := fun w => w != v) changed] at filtered
    refine ⟨_, by rw [filtered]; exact List.mem_cons_self, ?_⟩
    rw [← part]
    rfl
  simp only [State.endTaskOf, resident, saved, List.head?_cons, Option.bind_some, task, State.endCores_one, State.endAllSaved_one]
  generalize (s.endCore k c).endSaved v = w at kept
  refine State.holdsAway_taskOver ?_ ..
  refine (Walked.updRecord _ _ _ _ (fun r : Record => { r with ended := true, drained := true }) fun _ => rfl).holdsAway ?_
  obtain ⟨y, mem, name⟩ := kept
  refine ⟨y, ?_, name⟩
  rw [State.fn_updFn, State.fn_updWq]
  exact mem

/-- A park by a task that is resumed with action 3 ends the task. -/
theorem State.resumePark_end (s : State) (fn wq : Nat) (b : Dbl) {p : Park} (core : p.core < 384) :
    s.resumePark fn wq 3 b p = s.endTaskOf fn wq (p.words.getD 1 0).toNat (p.words.getD 2 0).toNat := by
  have first : p.core ≠ 385 := by omega
  have all : p.core ≠ parkAll := by rw [parkAll]; omega
  have heat : ¬ 400 ≤ p.core := by omega
  rw [State.resumePark, if_neg first, if_neg all, if_neg heat, if_pos rfl]

theorem exec_qresume {s : State} {a b : Src} {fn wq act : Nat} (d : Dest) (ready : SysReady s [a, b])
    (args : number s a = fn + wq * 2 ^ 8 + act * 2 ^ 12) (lo : 1 ≤ fn) (hi : fn ≤ 48) (named : wq < 8) (first : 1 ≤ act)
    (last : act ≤ 3) (status : s.resumeStatus fn wq = 0) :
    exec (.qresume a b d) s = .next ((s.resumeQueue fn wq act (operand s b)).sysDone [a, b] d 0 0) := by
  have e1 : bits (fn + wq * 2 ^ 8 + act * 2 ^ 12) 0 8 = fn := by simp only [bits]; omega
  have e2 : bits (fn + wq * 2 ^ 8 + act * 2 ^ 12) 8 3 = wq := by simp only [bits]; omega
  have e3 : bits (fn + wq * 2 ^ 8 + act * 2 ^ 12) 12 2 = act := by simp only [bits]; omega
  have e4 : bits (fn + wq * 2 ^ 8 + act * 2 ^ 12) 11 1 = 0 := by simp only [bits]; omega
  have e5 : (fn + wq * 2 ^ 8 + act * 2 ^ 12) / 2 ^ 14 = 0 := by omega
  have some : act ≠ 0 := by omega
  rw [number] at args
  simp only [exec, execQresume, State.sysWord_ready ready, State.opd_eq_operand, args, e1, e2, e3, e4, e5,
    sliceFn_of_range lo hi, some, status, Bool.not_true, bne_self_eq_false, decide_false, Bool.or_self, Bool.false_eq_true,
    if_false, if_true]

theorem State.sysDone_fns (s : State) (reads : List Src) (d : Dest) (st v : Nat) : (s.sysDone reads d st v).fns = s.fns :=
  (s.retired_issue reads _).outside.fns

theorem State.holdsAway_checkRecords {s : State} {k : Task} (h : s.holdsAway k) (fn wq : Nat) :
    (s.checkRecords fn wq).holdsAway k := by
  rw [State.checkRecords]
  exact (Walked.foldl (fun (u : State) (r : Record) => u.checkRecord fn wq r.seq) (fun u r => .checkRecord u fn wq r.seq) _
    s).holdsAway h

/-- So it stays where the queue's park by that task is resumed with action 3. -/
theorem State.holdsAway_resumeQueue {s u : State} {k : Task} {p : Park} {rest : List Park}
    (parks : (s.wq k.fn k.wq).parks = p :: rest) (core : p.core < 384) (record : (p.words.getD 1 0).toNat = k.rseq)
    (task : (p.words.getD 2 0).toNat = k.tseq) (first : u = s.updWq k.fn k.wq fun w => { w with park := false, parks := rest })
    (ended : (u.endTaskOf k.fn k.wq k.rseq k.tseq).holdsAway k) (b : Dbl) :
    (s.resumeQueue k.fn k.wq 3 b).holdsAway k := by
  have next := State.holdsAway_presentNext ended k.wq
  rw [← record, ← task, ← State.resumePark_end u k.fn k.wq b core, first] at next
  rw [State.resumeQueue, parks]
  exact State.holdsAway_checkRecords next ..

end Sys2Proof.Machine
end

section
/-! SUPPORT. QRESUME with action 3 (R359) of a gang of which one member's state was saved: the donation that ends with the
resident member changes the saved member before the word takes it off its function's list. -/

namespace Sys2Proof.Machine

open Sys2Proof Sys2Proof.Safety

/-- A parked task of a gang of two, out of eligibility by a late donation. -/
def gangMember : Task where
  fn := 1
  wq := 0
  rseq := 0
  tseq := 0
  idx := []
  arg := 0
  prio := 0
  effPrio := 0
  isPure := false
  strict := false
  reloc := false
  resid := false
  spreq := 0
  gang := 1
  members := [0, 1]
  code := []
  regions := []
  handed := []
  irrevocable := false
  eligible := false
  wd := 0
  stopping := none
  stopped := none
  stopBy := none
  stoppedAt := 0
  parked := true
  finished := false
  yielded := false
  settling := []
  pureInfo := none

/-- The saved state of its member on core 1. -/
def savedMember : Saved := ⟨1, some 0x10000, gangMember, Core.reset⟩

/-- Queue 0 of function 1 is parked by the task, of which core 1's part is saved, and QRESUME is to end it. -/
def gangHalfSaved : State :=
  { State.reset with
    cores := [(0, { Core.reset with task := some gangMember }),
      (384, { Core.derailleur with seq := { Core.derailleur.seq with named := dbl (1 + 3 * 2 ^ 12) :: List.replicate 15 0 } })]
    fns := [(1, { Func.reset with
      bound := true
      queues := [(0, { WorkQueue.reset with park := true, parks := [⟨0, List.replicate 8 0, none⟩] })]
      away := [savedMember]
      donations := [⟨0, 0, 0, 5, 0, 0, true⟩] })]
    cur := { Cur.reset with core := 384 } }


theorem gangHalfSaved_ready : SysReady gangHalfSaved [.named 0 false, .named 0 false] := by
  unfold SysReady Fresh
  decide

/-- The same with the park of the task taken off the queue. -/
def gangResuming : State := gangHalfSaved.updWq 1 0 fun w => { w with park := false, parks := [] }

theorem endTaskOf_gangResuming : (gangResuming.endTaskOf 1 0 0 0).holdsAway gangMember :=
  State.endTaskOf_holdsAway (s := gangResuming) (k := gangMember) (v := savedMember) (c := 0) (by decide) (by decide)
    (by decide) rfl (by decide) (by decide) (by decide)

/-- The saved member stays on the list: the list's filter looks for it as it was before the donation ended. -/
theorem resumeQueue_gangHalfSaved (b : Dbl) : (gangHalfSaved.resumeQueue 1 0 3 b).holdsAway gangMember :=
  State.holdsAway_resumeQueue (s := gangHalfSaved) (u := gangResuming) (k := gangMember) (p := ⟨0, List.replicate 8 0, none⟩)
    (rest := []) (by decide) (by decide) (by decide) (by decide) (by rw [gangResuming]; rfl) endTaskOf_gangResuming b

/-- QRESUME completes in that state. -/
theorem exec_qresume_gangHalfSaved : ∃ t, exec (.qresume (.named 0 false) (.named 0 false) .belt) gangHalfSaved = .next t
    ∧ t.holdsAway gangMember :=
  ⟨_, exec_qresume (fn := 1) (wq := 0) (act := 3) .belt gangHalfSaved_ready (by decide) (by decide) (by decide) (by decide)
      (by decide) (by decide) (by decide),
    State.holdsAway_of_fns (resumeQueue_gangHalfSaved _) (congrArg Func.away (State.fn_of_fns (State.sysDone_fns ..) _))⟩

/-- Refutes O48, in its clause on QRESUME with action 3: where a member of a gang is resident, another is saved, and the task
has donated its priority, the end of the donation changes the saved member, and the function keeps it. -/
theorem not_parkWords : ¬ Obligations.ParkWords := by
  unfold Obligations.ParkWords
  intro holds
  obtain ⟨-, -, -, words⟩ := holds gangHalfSaved (.named 0 false) (.named 0 false) .belt 1 0
  obtain ⟨-, resumes⟩ := words (by decide) (by decide) (by decide) (by decide)
  obtain ⟨-, ended⟩ := resumes 3 (by decide) (by decide) (by decide) gangHalfSaved_ready (by decide) (by decide)
  obtain ⟨u, t, run, ⟨p, -, retired⟩, -, clears⟩ := ended ⟨0, List.replicate 8 0, none⟩ [] rfl (by decide)
  obtain ⟨-, -, -, gone, -⟩ := clears rfl (by decide) (by decide)
  obtain ⟨t', runs, v, mem, name⟩ := exec_qresume_gangHalfSaved
  obtain rfl : t = t' := Host.Outcome.next.inj (run.symm.trans runs)
  have there : v ∈ (u.fn 1).away := by
    rw [State.fn_of_fns retired.outside.fns] at mem
    exact mem
  simp only [Task.name, Prod.mk.injEq] at name
  obtain ⟨⟨sameFn, sameWq, sameRseq, sameTseq⟩, -⟩ := name
  have none := gone v there
  rw [Task.isTask, sameFn, sameWq, sameRseq, sameTseq] at none
  exact absurd none (by decide)

end Sys2Proof.Machine
end

section
/-! SUPPORT. S1INV, S2INV, CYCR and LKQRY (R360, R365, R377): the fields of their operands, and what they answer. -/

namespace Sys2Proof.Machine

open Sys2Proof Sys2Proof.Safety

/-! ## S1INV and S2INV -/

theorem granule_of_aligned {base sz : Nat} (small : 16 ≤ sz) (aligned : base % 2 ^ sz = 0) : base % 65536 = 0 :=
  Nat.mod_eq_zero_of_dvd ((Nat.pow_dvd_pow 2 small).trans (Nat.dvd_of_mod_eq_zero aligned))

theorem invRange_fields {base sz top : Nat} (small : 16 ≤ sz) (fits : sz ≤ top) (within : top < 64)
    (aligned : base % 2 ^ sz = 0) : invRange (base + sz) top = some (base, 2 ^ sz) ∧ bits (base + sz) 6 10 = 0 := by
  have granule := granule_of_aligned small aligned
  have e1 : bits (base + sz) 0 6 = sz := by simp only [bits]; omega
  have e2 : (base + sz) / 65536 * 65536 = base := by omega
  have e3 : bits (base + sz) 6 10 = 0 := by simp only [bits]; omega
  have valid : ¬ (sz < 16 ∨ top < sz ∨ base % 2 ^ sz ≠ 0) := by omega
  refine ⟨?_, e3⟩
  simp only [invRange, e1, e2, if_neg valid]

section
variable {s : State} {a b : Src} {fn : Nat} (d : Dest)

theorem State.invWord_ask {wq base sz top : Nat} {stage2 : Bool} (ready : SysReady s [a, b]) (lo : 1 ≤ fn) (hi : fn ≤ 48)
    (named : wq < 8) (first : (stage2 && wq != 0) = false) (bound : (s.fn fn).bound = true)
    (args : number s a = fn + wq * 2 ^ 8) (range : number s b = base + sz) (small : 16 ≤ sz) (fits : sz ≤ top)
    (within : top < 64) (aligned : base % 2 ^ sz = 0) (inside : (base + sz) / 2 ^ top = 0) :
    s.invWord a b d stage2 top
      = (s.askInval fn ⟨stage2, wq, (s.wq fn wq).s1root, [(base, 2 ^ sz)], false, .waiting, none, false⟩).sysPhase 1 := by
  obtain ⟨ranged, low⟩ := invRange_fields small fits within aligned
  have e1 : bits (fn + wq * 2 ^ 8) 0 8 = fn := by simp only [bits]; omega
  have e2 : bits (fn + wq * 2 ^ 8) 8 3 = wq := by simp only [bits]; omega
  have e3 : bits (fn + wq * 2 ^ 8) 11 1 = 0 := by simp only [bits]; omega
  have e4 : (fn + wq * 2 ^ 8) / 2 ^ 12 = 0 := by omega
  simp only [State.invWord, State.sysWord_ready ready, sysReady_phase ready, State.opd_toNat, args, range, e1, e2, e3, e4, low,
    inside, first, ranged, bound, sliceFn_of_range lo hi, State.rootOf, Nat.reduceEqDiff, Nat.reduceBEq, Bool.not_true,
    bne_self_eq_false, Bool.or_self, Bool.false_eq_true, if_false]

theorem State.invWord_done {top : Nat} {stage2 : Bool} (args : number s a % 2 ^ 8 = fn)
    (later : (s.seq s.cur.core).phase = 1) (ended : ∃ v ∈ (s.fn fn).inval, v.host = false ∧ v.stage = .done) :
    s.invWord a b d stage2 top = (s.forgetInval fn).sysDone [a, b] d 0 0 := by
  have e1 : bits (number s a) 0 8 = fn := by rw [bits, Nat.pow_zero, Nat.div_one, args]
  have done : s.invDone fn = true := by
    obtain ⟨v, mem, own, done⟩ := ended
    exact List.any_eq_true.mpr ⟨v, mem, by rw [own, done]; rfl⟩
  simp only [State.invWord, State.sysWord_later (later ▸ Nat.one_ne_zero), later, State.opd_toNat, e1, done, if_true]

end

/-- A word that asks for an invalidation waits, and the invalidation stands last in its function's list. -/
theorem State.askInval_waits (s : State) (fn : Nat) (v : Inval) : SysWaits s ((s.askInval fn v).sysPhase 1) 1
    ∧ (((s.askInval fn v).sysPhase 1).fn fn).inval = (s.fn fn).inval ++ [v] := by
  refine ⟨sysWaits_sysPhase 1 rfl rfl rfl rfl, ?_⟩
  rw [State.fn_of_fns (State.sysPhase_rest _ 1).2.1, State.askInval, State.fn_updFn]

/-! ## CYCR -/

theorem exec_cycr {s : State} {a : Src} {fn i : Nat} (d : Dest) (ready : SysReady s [a]) (lo : 1 ≤ fn) (hi : fn ≤ 48)
    (named : i < 256) (args : number s a = fn + i * 2 ^ 8) :
    exec (.cycr a d) s = .next (s.issue [a] 1 (some ((((s.fn fn).counter i).map dbl).getD (BitVec.allOnes 64), d))) := by
  have e1 : bits (fn + i * 2 ^ 8) 0 8 = fn := by simp only [bits]; omega
  have e2 : bits (fn + i * 2 ^ 8) 8 8 = i := by simp only [bits]; omega
  have valid : sliceFn fn = true ∧ fn + i * 2 ^ 8 < 2 ^ 16 := ⟨sliceFn_of_range lo hi, by omega⟩
  simp only [exec, execCycr, State.sysWord_ready ready, State.opd_toNat, args, e1, e2, if_pos valid]
  cases (s.fn fn).counter i <;> rfl

/-- A counter that CYCR reads. -/
theorem Func.counter_cases (f : Func) (i : Nat) : (i < 16 → f.counter i = some (f.meters.getD i 0))
    ∧ (16 ≤ i → i < 32 → f.counter i = some (f.pending.getD (i - 16) 0))
    ∧ (32 ≤ i → i < 40 → f.counter i = some (f.telemetry.getD (i - 32) 0)) ∧ (40 ≤ i → f.counter i = none) := by
  refine ⟨fun h => if_pos h, fun h k => ?_, fun h k => ?_, fun h => ?_⟩
  · rw [Func.counter, if_neg (by omega), if_pos k]
  · rw [Func.counter, if_neg (by omega), if_neg (by omega), if_pos k]
  · rw [Func.counter, if_neg (by omega), if_neg (by omega), if_neg (by omega)]

/-! ## LKQRY -/

theorem sysEnds_useFree (s : State) (reads : List Src) (d : Dest) (st v : Nat) :
    SysEnds s (s.useFree.sysDone reads d st v) reads d st v :=
  ⟨s.pf0, .inl rfl, (s.useFree.retired_issue reads _).of_counters ⟨_, _, rfl⟩⟩

theorem exec_lkqry {s : State} {a : Src} {fn kind : Nat} (d : Dest) (ready : SysReady s [a]) (lo : 1 ≤ fn) (hi : fn ≤ 48)
    (named : kind < 4) (bound : (s.fn fn).bound = true) (args : number s a = fn + kind * 2 ^ 8) :
    exec (.lkqry a d) s = .next (s.useFree.sysDone [a] d 0 (s.lkValue fn kind)) := by
  have e1 : bits (fn + kind * 2 ^ 8) 0 8 = fn := by simp only [bits]; omega
  have e2 : bits (fn + kind * 2 ^ 8) 8 4 = kind := by simp only [bits]; omega
  have e3 : (fn + kind * 2 ^ 8) / 2 ^ 12 = 0 := by omega
  have valid : ¬ 4 ≤ kind := by omega
  simp only [exec, execLkqry, State.sysWord_ready ready, State.opd_toNat, args, e1, e2, e3, sliceFn_of_range lo hi, bound, valid,
    decide_false, Bool.not_true, bne_self_eq_false, Bool.or_self, Bool.false_eq_true, if_false]

theorem State.lkValue_state (s : State) (fn : Nat) :
    s.lkValue fn 0 = (match (s.fn fn).tdisp with | .unlocked => 0 | .locked => 1 | .run => 2 | .error => 3)
      + (s.fn fn).errReason % 256 * 2 ^ 8 + (if (s.fn fn).prot then 2 ^ 16 else 0) := by
  have code : ∀ x : Tdisp, tdispCode x = (match x with | .unlocked => 0 | .locked => 1 | .run => 2 | .error => 3) := by
    intro x
    cases x <;> rfl
  rw [State.lkValue, code, bitNat]
  cases (s.fn fn).prot <;> rfl

theorem State.lkValue_exports (s : State) (fn : Nat) (few : (s.exports.filter fun e => e.fn == fn).length < 65536)
    (some : 0 < s.exports.length) : s.lkValue fn 2
      = (s.exports.filter fun e => e.fn == fn).length + (65536 - s.exports.length) * 2 ^ 16 := by
  have rest : 65536 - s.exports.length < 65536 := by omega
  simp only [State.lkValue, State.fit16, if_pos few, if_pos rest]

end Sys2Proof.Machine
end

section
/-! SUPPORT. The steps of an invalidation (R80, R360): the translations at its start, the lines after the old commands, the
replicas of a stage-2 invalidation, and the Freewheel entries at its end. -/

namespace Sys2Proof.Machine

open Sys2Proof Sys2Proof.Safety

/-! ## Which step comes next -/

section
variable {s : State} {fn : Nat} {v : Inval}

theorem exec_invalidation_start (idle : (s.fn fn).invAt .drain = none) (waits : (s.fn fn).invAt .waiting = some v) :
    exec (.invalidationEpochDrained fn) s
      = .next ((s.startInval fn v).updFn fn fun f => { f with inval := setStage .waiting .drain f.inval }) := by
  have step : s.invStep fn = 1 := by simp only [State.invStep, idle, waits]
  simp only [exec, execInvalidationEpochDrained, step, waits]

theorem exec_invalidation_flush (drains : (s.fn fn).invAt .drain = some v) (drained : s.epochDrained fn v = true) :
    exec (.invalidationEpochDrained fn) s
      = .next ((s.flushInval fn v).updFn fn fun f => { f with inval := setStage .drain .flush f.inval }) := by
  have step : s.invStep fn = 3 := by simp only [State.invStep, drains, drained, if_true]
  simp only [exec, execInvalidationEpochDrained, step, drains]

theorem State.invStep_last (idle : (s.fn fn).invAt .drain = none) (none : (s.fn fn).invAt .waiting = none)
    (flushed : (s.fn fn).invAt .flush = some v) : s.invStep fn = s.endStep fn v := by
  simp only [State.invStep, idle, none, flushed, Option.map_some, Option.getD_some]

theorem exec_invalidation_replicas (last : s.invStep fn = 4) : exec (.invalidationEpochDrained fn) s
    = .next ((s.dropPages fn).updFn fn fun f =>
        { f with inval := mapStage .flush (fun (v : Inval) => { v with ack := some s.nextId }) f.inval }) := by
  simp only [exec, execInvalidationEpochDrained, last]

theorem exec_invalidation_end (last : s.invStep fn = 5) (flushed : (s.fn fn).invAt .flush = some v) :
    exec (.invalidationEpochDrained fn) s = .next ((s.endInval fn v).updFn fn fun f =>
        { f with inval := if v.host then f.inval.erase v else setStage .flush .done f.inval }) := by
  simp only [exec, execInvalidationEpochDrained, last, flushed]

end

/-! ## Translations -/

theorem State.startInval_core (s : State) (fn : Nat) (v : Inval) (c : Nat) : (s.startInval fn v).core c
    = { s.core c with
        tlb := dropNamed v fn (s.core c).tlb
        copy := { (s.core c).copy with tlb := dropNamed v fn (s.core c).copy.tlb }
        epoch := if (s.core c).task.any fun t => t.fn == fn then !(s.core c).epoch else (s.core c).epoch } :=
  State.core_mapCores s (fun x => { x with
    tlb := dropNamed v fn x.tlb
    copy := { x.copy with tlb := dropNamed v fn x.copy.tlb }
    epoch := if x.task.any fun t => t.fn == fn then !x.epoch else x.epoch }) rfl rfl c

/-! ## Lines -/

/-- No line of a core is named. -/
def State.unnamed (s : State) (fn : Nat) (v : Inval) (c : Nat) : Prop := ∀ l ∈ (s.core c).copy.lines, v.namesLine fn l = false

/-- Probe lines of every core are as they were. -/
def LinesStand (s t : State) : Prop := ∀ k, (t.core k).copy.lines = (s.core k).copy.lines

theorem LinesStand.refl (s : State) : LinesStand s s := fun _ => rfl

theorem LinesStand.trans {s t u : State} (h : LinesStand s t) (k : LinesStand t u) : LinesStand s u :=
  fun n => (k n).trans (h n)

theorem LinesStand.foldl {α : Type} (g : State → α → State) (h : ∀ s a, LinesStand s (g s a)) (l : List α) :
    ∀ s, LinesStand s (l.foldl g s) := by
  induction l with
  | nil => exact .refl
  | cons a l ih => exact fun s => (h s a).trans (ih _)

theorem Written.lines {s t : State} (h : Written s t) : LinesStand s t := by
  intro k
  obtain ⟨_, _, _, core⟩ := h.cores k
  rw [core]

theorem LinesStand.deliverSlots (c : Nat) (l : List Nat) : ∀ s : State, LinesStand s (s.deliverSlots c l) := by
  induction l with
  | nil => exact .refl
  | cons i l ih =>
    intro s
    rw [State.deliverSlots]
    refine LinesStand.trans ?_ (ih _)
    rw [State.deliverSlot]
    split
    · exact .refl s
    · intro k
      by_cases same : k = c
      · rw [same, State.core_updCore]
        rfl
      · rw [State.core_updCore_ne _ _ same, State.send_core]

theorem LinesStand.deliverInv (fn : Nat) (v : Inval) (l : List Nat) : ∀ s : State, LinesStand s (s.deliverInv fn v l) := by
  induction l with
  | nil => exact .refl
  | cons c l ih => exact fun s => (LinesStand.deliverSlots c _ s).trans (ih _)

theorem LinesStand.deliverSaved (s : State) (c : Nat) (v : Saved) (pending : Bool) (i : Nat) :
    LinesStand s (s.deliverSaved c v pending i) := by
  simp only [State.deliverSaved]
  split <;> exact .refl _

theorem LinesStand.deliverSavedInv (fn : Nat) (v : Inval) (l : List Saved) : ∀ s : State,
    LinesStand s (s.deliverSavedInv fn v l) := by
  induction l with
  | nil => exact .refl
  | cons w l ih =>
    intro s
    rw [State.deliverSavedInv]
    refine LinesStand.trans ?_ (ih _)
    generalize (List.range 64).filter (fun i => v.namesSlot (s.rootOf fn w.task.wq) (w.core.resTag i)) = is
    have sent := LinesStand.foldl (fun (s : State) i => s.deliverSaved w.place w false i) (fun s i => .deliverSaved s _ _ _ _) is s
    generalize is.foldl (fun (s : State) i => s.deliverSaved w.place w false i) s = u at sent
    split
    · exact sent
    · exact sent.trans (.foldl _ (fun s i => (Written.writeQuiet s ..).lines) is _)

theorem State.unnamed_dropInvLines (fn : Nat) (v : Inval) {c : Nat} (l : List Nat) : ∀ s : State,
    c ∈ l ∨ s.unnamed fn v c → (s.dropInvLines fn v l).unnamed fn v c := by
  induction l with
  | nil => exact fun s named => named.resolve_left List.not_mem_nil
  | cons k l ih =>
    intro s named
    rw [State.dropInvLines]
    refine ih _ ?_
    by_cases same : c = k
    · refine .inr fun p mem => ?_
      rw [same, State.core_updCore] at mem
      simpa using (List.mem_filter.mp mem).2
    · refine named.imp (fun mem => (List.mem_cons.mp mem).resolve_left same) fun free => ?_
      rw [State.unnamed, State.core_updCore_ne _ _ same, writeBackList_others _ _ _ _ same]
      exact free

theorem mem_of_tfind {α : Type} {k : Nat} {v : α} {t : Tbl α} (found : tfind k t = some v) : (k, v) ∈ t := by
  induction t with
  | nil => cases found
  | cons p t ih =>
    obtain ⟨j, w⟩ := p
    rw [tfind] at found
    split at found
    · rename_i same
      rw [same, Option.some.inj found]
      exact List.mem_cons_self
    · exact List.mem_cons_of_mem _ (ih found)

/-- A core that is listed neither for a task nor for a line of a function has no line that is named. -/
theorem State.coresWith_or_unnamed (s : State) (fn : Nat) (v : Inval) (c : Nat) : c ∈ s.coresWith fn ∨ s.unnamed fn v c := by
  cases found : tfind c s.cores with
  | none =>
    refine .inr fun l mem => ?_
    have core : (s.core c).copy.lines = [] := by
      rw [State.core, tget, found]
      simp only [Option.getD_none]
      split <;> rfl
    rw [core] at mem
    exact absurd mem List.not_mem_nil
  | some x =>
    have core : s.core c = x := by rw [State.core, tget, found, Option.getD_some]
    by_cases listed : ((x.task.any fun t => t.fn == fn) || x.copy.lines.any fun l => l.fn == fn) = true
    · exact .inl (List.mem_map.mpr ⟨(c, x), List.mem_filter.mpr ⟨mem_of_tfind found, listed⟩, rfl⟩)
    · refine .inr fun l mem => ?_
      rw [core] at mem
      simp only [Bool.or_eq_true, not_or] at listed
      obtain ⟨-, none⟩ := listed
      have other : (l.fn == fn) = false := by
        cases own : l.fn == fn with
        | false => rfl
        | true => exact absurd (List.any_eq_true.mpr ⟨l, mem, own⟩) none
      rw [Inval.namesLine, other, Bool.false_and]

theorem State.unnamed_flushInval (s : State) (fn : Nat) (v : Inval) (c : Nat) : (s.flushInval fn v).unnamed fn v c := by
  have dropped := State.unnamed_dropInvLines fn v (s.coresWith fn) s (s.coresWith_or_unnamed fn v c)
  rw [State.flushInval]
  have stand := (LinesStand.deliverInv fn v (s.residents fn) (s.dropInvLines fn v (s.coresWith fn))).trans
    (.deliverSavedInv fn v (s.fn fn).away _)
  intro l mem
  rw [stand c] at mem
  exact dropped l mem

/-! ## Replicas -/

theorem any_tset {α : Type} {p : Nat × α → Bool} {k : Nat} {v : α} {t : Tbl α} (held : t.any p = true)
    (same : ∀ w, tfind k t = some w → p (k, w) = true → p (k, v) = true) : (tset k v t).any p = true := by
  induction t with
  | nil => cases held
  | cons q t ih =>
    obtain ⟨j, w⟩ := q
    rw [List.any_cons, Bool.or_eq_true] at held
    rw [tset]
    split
    · rw [List.any_cons, List.any_cons, Bool.or_eq_true, Bool.or_eq_true]
      exact .inr held
    · split
      · rename_i eq
        rw [List.any_cons, Bool.or_eq_true]
        refine held.imp_left fun here => same w ?_ (eq ▸ here)
        rw [tfind, if_pos eq.symm]
      · rename_i ne
        rw [List.any_cons, Bool.or_eq_true]
        refine held.imp_right fun rest => ih rest fun x found => same x ?_
        rw [tfind, if_neg fun eq => ne eq.symm]
        exact found

theorem State.callIn_replicated {s : State} {fn : Nat} {e : RepEntry} (held : s.replicated fn e = true) (d ack : Nat)
    (x : RepEntry) : (s.callIn d ack x).replicated fn e = true := by
  rw [State.replicated, Bool.and_eq_true] at held ⊢
  obtain ⟨isRep, held⟩ := held
  refine ⟨isRep, any_tset held fun w found there => ?_⟩
  have die : s.die d = w := by rw [State.die, tget, found, Option.getD_some]
  rw [die]
  exact there

theorem State.callInAll_spec (d ack : Nat) (l : List RepEntry) : ∀ s : State,
    (s.callInAll d ack l).fns = s.fns ∧ (s.callInAll d ack l).cores = s.cores ∧ (s.callInAll d ack l).mem = s.mem
    ∧ (∀ k, k ≠ d → (s.callInAll d ack l).die k = s.die k)
    ∧ (∀ m, (m ∈ s.invs ∨ ∃ e ∈ l, m ∈ e.invs d (512 * e.granule) ack) → m ∈ (s.callInAll d ack l).invs)
    ∧ ∀ fn e, s.replicated fn e = true → (s.callInAll d ack l).replicated fn e = true := by
  induction l with
  | nil =>
    refine fun s => ⟨rfl, rfl, rfl, fun _ _ => rfl, fun m named => named.resolve_right ?_, fun _ _ held => held⟩
    rintro ⟨_, mem, -⟩
    exact List.not_mem_nil mem
  | cons x l ih =>
    intro s
    obtain ⟨fns, cores, mem, others, sent, held⟩ := ih (s.callIn d ack x)
    rw [State.callInAll]
    refine ⟨fns.trans rfl, cores.trans rfl, mem.trans rfl, fun k other => (others k other).trans ?_, fun m named => sent m ?_,
      fun fn e rep => held fn e (State.callIn_replicated rep d ack x)⟩
    · exact State.die_updDie_ne s (fun y => { y with rep := y.rep.map fun z => if z.granule = x.granule then { z with holders := 0 } else z }) other
    · rcases named with before | ⟨e, mem, named⟩
      · exact .inl (List.mem_append_left _ before)
      · rcases List.mem_cons.mp mem with same | mem
        · rw [same] at named
          exact .inl (List.mem_append_right _ named)
        · exact .inr ⟨e, mem, named⟩

/-- The messages of one step go out die by die. -/
def State.callDies (s : State) (fn ack : Nat) (l : List Nat) : State :=
  l.foldl (fun (u : State) d => u.callInAll d ack ((u.die d).rep.filter (u.replicated fn))) s

theorem State.dropPages_eq (s : State) (fn : Nat) : s.dropPages fn = s.useId.callDies fn s.nextId (List.range 16) := by
  rw [State.dropPages, State.callDies]

theorem State.callDies_spec (fn ack : Nat) (l : List Nat) : ∀ s : State,
    (s.callDies fn ack l).fns = s.fns ∧ (s.callDies fn ack l).cores = s.cores ∧ (s.callDies fn ack l).mem = s.mem
    ∧ (∀ m ∈ s.invs, m ∈ (s.callDies fn ack l).invs)
    ∧ ∀ d ∈ l, ∀ e ∈ (s.die d).rep, s.replicated fn e = true → ∀ m ∈ e.invs d (512 * e.granule) ack,
        m ∈ (s.callDies fn ack l).invs := by
  induction l with
  | nil => exact fun s => ⟨rfl, rfl, rfl, fun _ mem => mem, fun _ mem => absurd mem List.not_mem_nil⟩
  | cons k l ih =>
    intro s
    obtain ⟨fns, cores, mem, others, sent, held⟩ := State.callInAll_spec k ack ((s.die k).rep.filter (s.replicated fn)) s
    obtain ⟨fns', cores', mem', before, later⟩ := ih (s.callInAll k ack ((s.die k).rep.filter (s.replicated fn)))
    refine ⟨fns'.trans fns, cores'.trans cores, mem'.trans mem, fun m there => before m (sent m (.inl there)),
      fun d named e there rep m msg => ?_⟩
    by_cases same : d = k
    · rw [same] at there msg
      exact before m (sent m (.inr ⟨e, List.mem_filter.mpr ⟨there, rep⟩, msg⟩))
    · refine later d ((List.mem_cons.mp named).resolve_left same) e ?_ (held fn e rep) m msg
      rw [others d same]
      exact there

theorem find?_mapStage {st : InvStage} {g : Inval → Inval} (keeps : ∀ v, (g v).stage = v.stage) :
    ∀ l : List Inval, (mapStage st g l).find? (fun v => v.stage == st) = (l.find? fun v => v.stage == st).map g
  | [] => rfl
  | v :: l => by
    rw [mapStage]
    cases here : v.stage == st with
    | true =>
      rw [if_pos rfl, List.find?_cons_of_pos (by rw [keeps]; exact here),
        List.find?_cons_of_pos (p := fun v : Inval => v.stage == st) here, Option.map_some]
    | false =>
      rw [if_neg Bool.false_ne_true, List.find?_cons_of_neg (by rw [here]; decide),
        List.find?_cons_of_neg (p := fun v : Inval => v.stage == st) (by rw [here]; decide), find?_mapStage keeps l]

/-- The step that has the replicas of a stage-2 invalidation taken. -/
theorem State.dropPages_spec (s : State) {fn : Nat} {v : Inval} (flushed : (s.fn fn).invAt .flush = some v) :
    let t := (s.dropPages fn).updFn fn fun f =>
      { f with inval := mapStage .flush (fun (v : Inval) => { v with ack := some s.nextId }) f.inval }
    (t.fn fn).invAt .flush = some { v with ack := some s.nextId }
    ∧ (∀ die, die < 16 → ∀ e ∈ (s.die die).rep, s.replicated fn e = true →
        ∀ m ∈ e.invs die (512 * e.granule) s.nextId, m ∈ t.invs)
    ∧ t.cores = s.cores ∧ t.mem = s.mem := by
  obtain ⟨fns, cores, mem, -, sent⟩ := State.callDies_spec fn s.nextId (List.range 16) s.useId
  rw [← State.dropPages_eq] at fns cores mem sent
  generalize s.dropPages fn = u at fns cores mem sent
  refine ⟨?_, fun die onDie => sent die (List.mem_range.mpr onDie), cores, mem⟩
  rw [Func.invAt, State.fn_updFn, State.fn_of_fns fns]
  have found := find?_mapStage (st := .flush) (g := fun v : Inval => { v with ack := some s.nextId }) (fun _ => rfl)
    (s.fn fn).inval
  exact found.trans (congrArg (Option.map fun v : Inval => { v with ack := some s.nextId }) flushed)

/-! ## Freewheel entries -/

theorem State.mem_dropFw {s : State} {fn : Nat} {p : FwEntry → Bool} {d : Nat} {e : FwEntry}
    (mem : e ∈ ((s.dropFw fn p).die d).fw) (own : e.fn = fn) : p e = false := by
  rw [State.dropFw_fw] at mem
  have kept := (List.mem_filter.mp mem).2
  rw [own] at kept
  simpa using kept

/-- The end of an invalidation: entries go, and a host's reports it. -/
theorem State.endInval_rest (s : State) (fn : Nat) (v : Inval) : ((s.endInval fn v).fn fn).inval = (s.fn fn).inval
    ∧ (s.endInval fn v).cores = s.cores ∧ (s.endInval fn v).mem = s.mem
    ∧ (∀ d, (s.endInval fn v).die d = (s.dropFw fn v.namesEntry).die d)
    ∧ (v.host = true → ((s.endInval fn v).wq fn v.wq).invBusy = false) := by
  rw [State.endInval]
  cases v.host with
  | true =>
    rw [if_pos rfl, State.fn_updWq, State.wq_updWq]
    exact ⟨rfl, rfl, rfl, fun _ => rfl, fun _ => rfl⟩
  | false =>
    rw [if_neg Bool.false_ne_true]
    exact ⟨rfl, rfl, rfl, fun _ => rfl, fun host => Bool.noConfusion host⟩


theorem Inval.ended_stage (s : State) (fn : Nat) (v : Inval) :
    (v.stage2 = true → v.ack = none → s.flushOver fn = true → s.endStep fn v = 4)
    ∧ ((v.stage2 = false ∧ v.ack = none ∧ s.flushOver fn = true) ∨ (∃ id, v.ack = some id ∧ ∀ m ∈ s.invs, m.req ≠ id) →
      s.endStep fn v = 5) := by
  refine ⟨fun two asks flushed => ?_, fun ready => ?_⟩
  · rw [State.endStep, asks, flushed, two]
    rfl
  · rcases ready with ⟨one, asks, flushed⟩ | ⟨id, asked, settled⟩
    · rw [State.endStep, asks, flushed, one]
      rfl
    · have none : (s.invs.any fun m => m.req == id) = false := by
        rw [List.any_eq_false]
        intro m mem same
        exact settled m mem (beq_iff_eq.mp same)
      rw [State.endStep, asked]
      simp only [none, Bool.false_eq_true, if_false]

/-- Settles O49: the words by the fields of their operands; the steps by what each drops: translations by a map over the cores,
lines core by core, and replicas die by die, where what goes out first takes no granule from the dies that follow. -/
theorem invalidationWords : Obligations.InvalidationWords := by
  unfold Obligations.InvalidationWords
  refine ⟨fun s a b d fn lo hi bound => ⟨fun wq base sz named small aligned args range ready => ⟨fun fits inside => ?s1,
    fun fits inside first => ?s2⟩, fun args later ended i word => ?done, fun i named args ready => ?cycr,
    fun kind named args ready => ?lkqry⟩,
    fun s fn v => ⟨fun idle waits => ?start, fun drains drained => ?flush, fun idle none flushed two asks settled => ?replicas,
      fun idle none flushed ready => ?last⟩⟩
  case s1 =>
    refine ⟨_, congrArg Host.Outcome.next (State.invWord_ask d (stage2 := false) (top := 57) ready lo hi named rfl bound args range
      small fits (by decide) aligned ?_), s.askInval_waits fn _⟩
    have granule := granule_of_aligned small aligned
    omega
  case s2 =>
    subst first
    refine ⟨_, congrArg Host.Outcome.next (State.invWord_ask d (stage2 := true) (top := 52) ready lo hi named rfl bound args range
      small fits (by decide) aligned ?_), s.askInval_waits fn _⟩
    have granule := granule_of_aligned small aligned
    omega
  case done =>
    refine ⟨_, _, ?_, sysEnds_sysDone .., rfl⟩
    rcases word with word | word
    · rw [word]
      exact congrArg Host.Outcome.next (State.invWord_done d args later ended)
    · rw [word]
      exact congrArg Host.Outcome.next (State.invWord_done d args later ended)
  case cycr =>
    obtain ⟨meters, pending, telemetry, beyond⟩ := (s.fn fn).counter_cases i
    refine ⟨_, _, exec_cycr d ready lo hi named args, s.retired_issue .., fun h => ?_, fun h k => ?_, fun h k => ?_, fun h => ?_⟩
    · rw [meters h]
      rfl
    · rw [pending h k]
      rfl
    · rw [telemetry h k]
      rfl
    · rw [beyond h]
      rfl
  case lkqry =>
    refine ⟨_, _, exec_lkqry d ready lo hi named bound args, sysEnds_useFree .., fun h => ?_, fun h => ?_, fun h => ?_, fun h => ?_⟩
    · rw [h]
      exact s.lkValue_state fn
    · rw [h]
      rfl
    · rw [h]
      exact s.lkValue_exports fn
    · rw [h]
      rfl
  case start =>
    refine ⟨_, exec_invalidation_start idle waits, ?_, fun c => ?_⟩
    · rw [State.fn_updFn]
      rfl
    · rw [State.updFn_core, State.updFn_seq, State.seq, s.startInval_core]
      refine ⟨fun e mem => ?_, ?_, rfl, rfl⟩
      · obtain ⟨there, other⟩ := List.mem_filter.mp mem
        exact ⟨there, by simpa using other⟩
      · cases (s.core c).task.any fun t => t.fn == fn with
        | false => exact (Bool.xor_false _).symm
        | true => exact (Bool.xor_true _).symm
  case flush =>
    exact ⟨_, exec_invalidation_flush drains drained, fun c => s.unnamed_flushInval fn v c⟩
  case replicas =>
    exact ⟨_, exec_invalidation_replicas ((State.invStep_last idle none flushed).trans
      ((Inval.ended_stage s fn v).1 two asks settled)), s.dropPages_spec flushed⟩
  case last =>
    have step := (State.invStep_last idle none flushed).trans ((Inval.ended_stage s fn v).2 ready)
    obtain ⟨inval, cores, mem, dies, busy⟩ := s.endInval_rest fn v
    refine ⟨_, exec_invalidation_end step flushed, fun die e mem own => ?_, fun own => ?_, fun host => ?_, cores, mem⟩
    · rw [State.updFn_die, dies] at mem
      exact State.mem_dropFw mem own
    · rw [State.fn_updFn, own, if_neg Bool.false_ne_true, inval]
    · rw [State.wq, State.fn_updFn]
      exact busy host

end Sys2Proof.Machine
end

section
/-! SUPPORT. HANG_WATCHDOG_EXPIRY (R364) in a state whose table of cores lists a core twice. -/

namespace Sys2Proof.Machine

open Sys2Proof Sys2Proof.Safety

/-- A task on core 6 whose watchdog count has reached the limit. -/
def hungTask : Task := { gangMember with gang := 0, members := [6], eligible := true, wd := 65536, parked := false }

/-- Core 5 stands in the table a second time, where no read finds it, with a task of the same name; function 1 has a limit of
65,536 cycles. -/
def coreTwice : State :=
  { State.reset with
    cores := [(5, Core.reset), (5, { Core.reset with task := some hungTask }), (6, { Core.reset with task := some hungTask })]
    fns := [(1, { Func.reset with bound := true, dog := 1 })] }

/-- The cores of the task begin with one on which a read finds no task, and none of them is cleared. -/
theorem exec_hangWatchdogExpiry_coreTwice :
    ∃ t, exec (.hangWatchdogExpiry 6) coreTwice = .next t ∧ (t.core 6).task.isSome = true :=
  ⟨_, rfl, by decide⟩

/-- Refutes O52, in its clause on HANG_WATCHDOG_EXPIRY: where the table of cores lists core 5 a second time with a task of the
same name, the task does not leave its core. The clause does not suppose that the table lists each core once, as a table does
that `tset` has built. -/
theorem not_taskEvents : ¬ Obligations.TaskEvents := by
  unfold Obligations.TaskEvents
  rintro ⟨events, -⟩
  obtain ⟨-, -, expires, -⟩ := events coreTwice 6 hungTask rfl
  obtain ⟨t, run, gone, -⟩ := expires (by decide) (by decide)
  obtain ⟨u, runs, stays⟩ := exec_hangWatchdogExpiry_coreTwice
  obtain rfl : t = u := Host.Outcome.next.inj (run.symm.trans runs)
  rw [gone] at stays
  exact absurd stays (by decide)

end Sys2Proof.Machine
end

section
/-! SUPPORT. A saved task comes back to a core (R157, R197, R351): other cores' sequencers, the task's number, and what
functions are but for their tasks, queues and counts stay as they are. -/

namespace Sys2Proof.Machine

open Sys2Proof Sys2Proof.Safety

/-! ## Functions through the work of walkers -/

theorem FnsStand.foldl {α : Type} (g : State → α → State) (h : ∀ s a, FnsStand s (g s a)) (l : List α) :
    ∀ s, FnsStand s (l.foldl g s) := by
  induction l with
  | nil => exact .refl
  | cons a l ih => exact fun s => (h s a).trans (ih _)

theorem FnsStand.looked {s t : State} (h : Looked s t) : FnsStand s t := by
  intro f
  obtain ⟨_, _, _, shape⟩ := h.fns f
  rw [shape]
  rfl

theorem State.fillTlb_fns (s : State) (u : TlbUser) (e : TlbEntry) : (s.fillTlb u e).fns = s.fns := by
  cases u <;> rfl

theorem FnsStand.translate (s : State) (u : TlbUser) (fn : Nat) (root : Dbl) (va : Nat) (n : Need) :
    FnsStand s (s.translate u fn root va n).1 := by
  simp only [State.translate]
  split
  · split
    · exact .refl s
    · split <;> exact .refl s
  · have looked := FnsStand.looked (LookedRead.quietLookups fn 3 false (s.walkReads u.die fn root va) s).toLooked
    split
    · exact looked
    · rename_i t l2 _
      split
      · have written := (looked.trans (.looked (Looked.writePhys _ 1 l2.place (leBytes 8 (l2.entry + 32))))).trans
          (.of_fns (State.fillTlb_fns _ u { t with clean := false }))
        split
        · exact written
        · split <;> exact written
      · have filled := looked.trans (.of_fns (State.fillTlb_fns _ u t))
        split
        · exact filled
        · split <;> exact filled

theorem FnsStand.freeBytes (s : State) (key a n : Nat) : FnsStand s (s.freeBytes key a n) := by
  rw [State.freeBytes]
  exact (Written.writeQuiet ..).fns.trans (.of_fns rfl)

theorem FnsStand.evictRow (s : State) (q r : Nat) : FnsStand s (s.evictRow q r) := by
  rw [State.evictRow]
  refine FnsStand.trans ?_ (.updFn _ _ _ fun _ => rfl)
  exact (Written.writeQuiet ..).fns.trans (.freeBytes _ _ _ 0x10000)

theorem State.dropRowLines_fns (s : State) (c r : Nat) : (s.dropRowLines c r).fns = s.fns := by
  rw [State.dropRowLines, State.updCore_fns, (Flushed.writeBackList ..).fns]

theorem FnsStand.deliverRow (s : State) (c r : Nat) (v : Saved) : FnsStand s (s.deliverRow c r v) := by
  have slot (s : State) (i : Nat) : (s.deliverSaved c v true i).fns = s.fns := by
    simp only [State.deliverSaved]
    split <;> rfl
  simp only [State.deliverRow]
  generalize List.range 64 = slots
  split
  · have delivered := FnsStand.of_fns (State.foldl_fns slot slots s)
    generalize slots.foldl (fun s i => s.deliverSaved c v true i) s = u at delivered
    generalize slots.foldl (fun (x : Core) i => x.emptySlot i) v.core = x
    have emptied := delivered.trans (.updFn u v.task.fn (fun f => { f with
      away := f.away.map fun w => if w == v then { w with core := x } else w }) fun _ => rfl)
    split
    · exact emptied
    · exact emptied.trans (.foldl _ (fun _ _ => (Written.writeQuiet ..).fns) _ _)
  · exact .refl s

theorem State.setRowBytes_fns (s : State) (q r : Nat) (bs : List Byte) : (s.setRowBytes q r bs).fns = s.fns := by
  rw [State.setRowBytes]
  split <;> rfl

theorem State.setRowTag_fns (s : State) (q r : Nat) (t : Tag) : (s.setRowTag q r t).fns = s.fns := by
  rw [State.setRowTag]
  split <;> rfl

theorem State.setRowPoison_fns (s : State) (q r : Nat) (b : Bool) : (s.setRowPoison q r b).fns = s.fns := by
  rw [State.setRowPoison]
  split <;> rfl

theorem State.zeroRow_fns (s : State) (q r : Nat) : (s.zeroRow q r).fns = s.fns := by
  rw [State.zeroRow, State.setRowPoison_fns, State.setRowTag_fns, State.setRowBytes_fns]

theorem FnsStand.settleRow (s : State) (q r : Nat) (t : Task) : FnsStand s (s.settleRow q r t) := by
  simp only [State.settleRow]
  refine FnsStand.trans ?_ (.of_fns (State.setRow_fns ..))
  split
  · exact .refl s
  · split
    · refine FnsStand.trans ?_ (.evictRow _ q r)
      split
      · have dropped := FnsStand.of_fns (State.dropRowLines_fns s (4 * q + r / 40) (r % 40))
        split
        · exact dropped.trans (.deliverRow _ _ _ _)
        · exact dropped
      · exact .refl s
    · split
      · exact .refl s
      · refine FnsStand.trans ?_ (.of_fns (State.zeroRow_fns ..))
        split
        · exact .of_fns (State.dropRowLines_fns ..)
        · exact .refl s
    · exact .refl s
    · exact .refl s

theorem FnsStand.settleRows (q : Nat) (t : Task) (l : List Nat) : ∀ s : State, FnsStand s (s.settleRows q t l) := by
  induction l with
  | nil => exact .refl
  | cons r l ih => exact fun s => (FnsStand.settleRow s q r t).trans (ih _)

theorem FnsStand.settleCore (s : State) (c : Nat) (t : Task) : FnsStand s (s.settleCore c t) := by
  rw [State.settleCore]
  refine FnsStand.trans (.settleRows (quadOf c) t (coreRows c) s) (.of_fns ?_)
  generalize s.settleRows (quadOf c) t (coreRows c) = u
  rw [State.updCore_fns, State.settleLines, State.updCore_fns, (Flushed.writeBackList ..).fns]

theorem FnsStand.returnRow (s : State) (q r : Nat) (o : Row) : FnsStand s (s.returnRow q r o) := by
  simp only [State.returnRow]
  split
  · exact .refl s
  · refine FnsStand.trans (.of_fns ?_) (.updFn _ _ _ fun _ => rfl)
    rw [State.setRowPoison_fns, State.setRowTag_fns, State.setRowBytes_fns]

theorem FnsStand.setDonations (s : State) (fn : Nat) (l : List Donation) : FnsStand s (s.setDonations fn l) :=
  (Written.setDonations s fn l).fns

theorem FnsStand.unmonitor (s : State) (c : Nat) : FnsStand s (s.unmonitor c) :=
  (Written.giveNoMore s c).fns.trans (.of_fns (State.unmonitor_fns s c))

end Sys2Proof.Machine
end

section
/-! SUPPORT. A saved task comes back to a core: what stays through its loads, transfers and fills that are asked for again. -/

namespace Sys2Proof.Machine

open Sys2Proof Sys2Proof.Safety

/-- The numbers of a task, and its stop. -/
def Task.label (t : Task) : Nat × Nat × Option Nat := (t.rseq, t.tseq, t.stopped)

/-- Work for core `c`: other cores' sequencers stay, the core's task keeps its numbers, and functions stand. -/
structure Placing (c : Nat) (s t : State) : Prop where
  cur : t.cur = s.cur
  seqs : ∀ k, k ≠ c → t.seq k = s.seq k
  label : (t.core c).task.map Task.label = (s.core c).task.map Task.label
  fns : FnsStand s t

theorem Placing.refl (c : Nat) (s : State) : Placing c s s := ⟨rfl, fun _ _ => rfl, rfl, .refl s⟩

theorem Placing.trans {c : Nat} {s t u : State} (h : Placing c s t) (k : Placing c t u) : Placing c s u :=
  ⟨k.cur.trans h.cur, fun i other => (k.seqs i other).trans (h.seqs i other), k.label.trans h.label, h.fns.trans k.fns⟩

theorem Placing.foldl {α : Type} {c : Nat} (g : State → α → State) (h : ∀ s a, Placing c s (g s a)) (l : List α) :
    ∀ s, Placing c s (l.foldl g s) := by
  induction l with
  | nil => exact .refl c
  | cons a l ih => exact fun s => (h s a).trans (ih _)

theorem label_of_name {o p : Option Task} (name : o.map Task.name = p.map Task.name) : o.map Task.label = p.map Task.label := by
  have label : Task.label = (fun n => (n.1.2.2.1, n.1.2.2.2, n.2.2.2.2)) ∘ Task.name := rfl
  rw [label, ← Option.map_map, ← Option.map_map, name]

theorem Placing.of_walked (c : Nat) {s t : State} (walked : Walked s t) (fns : FnsStand s t) : Placing c s t :=
  ⟨walked.cur, fun k _ => walked.seqs k, label_of_name (walked.who c), fns⟩

/-- Cores and functions stay. -/
theorem Placing.aside (c : Nat) {s t : State} (shape : t.cur = s.cur ∧ t.cores = s.cores ∧ t.fns = s.fns) : Placing c s t := by
  obtain ⟨cur, cores, fns⟩ := shape
  have core (k : Nat) : t.core k = s.core k := by rw [State.core, cores]; rfl
  exact ⟨cur, fun k _ => congrArg Core.seq (core k), by rw [core], .of_fns fns⟩

theorem Placing.updCore (s : State) (c : Nat) (g : Core → Core) (h : ∀ x, (g x).task.map Task.label = x.task.map Task.label) :
    Placing c s (s.updCore c g) :=
  ⟨rfl, fun k other => congrArg Core.seq (State.core_updCore_ne s g other), by rw [State.core_updCore, h], .refl s⟩

theorem Placing.updCmd (s : State) (c : Nat) (e : Engine) (uid : Nat) (g : Cmd → Cmd) :
    Placing c s (s.updCore c fun x => x.updCmd e uid g) := .updCore s c _ fun _ => rfl

theorem Placing.updLine (s : State) (c slot : Nat) (g : PLine → PLine) :
    Placing c s (s.updCore c fun x => x.updLine slot g) := .updCore s c _ fun _ => rfl

theorem Placing.sendRead (c : Nat) (s : State) (r : Req) : Placing c s (s.sendRead r) := .aside c ⟨rfl, rfl, rfl⟩

theorem Placing.translate (c : Nat) (s : State) (u : TlbUser) (fn : Nat) (root : Dbl) (va : Nat) (n : Need) :
    Placing c s (s.translate u fn root va n).1 := .of_walked c (.translate ..) (.translate s u fn root va n)

theorem Placing.settleCore (s : State) (c : Nat) (t : Task) : Placing c s (s.settleCore c t) :=
  .of_walked c (.settleCore ..) (.settleCore s c t)

theorem Placing.returnRows (s : State) (c : Nat) (t : Task) : Placing c s (s.returnRows c t) := by
  rw [State.returnRows]
  exact .foldl _ (fun s r => .of_walked c (.returnRow ..) (.returnRow s (quadOf c) r t.row)) _ s

/-! ## Faults -/

theorem Placing.presentPark (c : Nat) (s : State) (fn wq : Nat) (p : Park) : Placing c s (s.presentPark fn wq p) := by
  have counted : FnsStand s (s.updFn fn fun f => { f with telemetry := lmod f.telemetry 7 (· + 1) }) :=
    .updFn s fn _ fun _ => rfl
  have queued (u : State) (g : WorkQueue → WorkQueue) : FnsStand u (u.updWq fn wq g) :=
    .updFn u fn (fun x => { x with queues := tset wq (g (x.queue wq)) x.queues }) fun _ => rfl
  obtain ⟨_, _, rest⟩ := s.presentPark_rest fn wq p
  have fns : FnsStand s (s.presentPark fn wq p) := by
    simp only [State.presentPark]
    split
    · exact counted.trans (queued _ _)
    · exact (counted.trans (queued _ _)).trans (.of_fns (State.msix_fns _ _ _))
  exact ⟨by rw [rest], fun k _ => by rw [rest]; rfl, by rw [rest]; rfl, fns⟩

theorem Placing.park (s : State) (c cause unit : Nat) (double : Bool) (urec : List Dbl) (svc : Option Dest) :
    Placing c s (s.park c cause unit double urec svc) := by
  rw [State.park]
  split
  · exact .refl c s
  · rename_i t task
    have marked : Placing c s (s.updCore c fun x => { x with task := some { t with parked := true } }) :=
      ⟨rfl, fun k other => congrArg Core.seq (State.core_updCore_ne s _ other), by rw [State.core_updCore, task]; rfl, .refl s⟩
    have fired := marked.trans (.of_walked c (.unmonitor _ c) (.unmonitor _ c))
    refine Placing.trans ?_ (.presentPark ..)
    split
    · exact fired
    · exact fired.trans (.of_walked c (.dropLease _ c) (.of_fns (State.dropLease_fns ..)))

theorem Placing.bodyFault (s : State) (c : Nat) (e : Engine) (k : Cmd) (cause index : Nat) (addr info : Dbl) :
    Placing c s (s.bodyFault c e k cause index addr info) := by
  have frozen : Placing c s (s.freeze c (.bodyFault e)) := .updCore s c _ fun x => by split <;> rfl
  rw [State.bodyFault]
  exact (frozen.trans (.updCore _ c _ fun x => by rw [(x.setFault_kept e _).2])).trans (.park ..)

/-! ## Addresses looked up again -/

theorem Placing.copyPage (c : Nat) (s : State) (t : Task) (uid : Nat) (e : Engine) (va : Nat) (n : Need) :
    Placing c s (s.copyPage c t uid e va n).1 := by
  simp only [State.copyPage]
  split
  · exact .refl c s
  · split
    · exact .refl c s
    · have looked := Placing.translate c s (.copy c) t.fn (s.rootOf t.fn t.wq) va n
      split <;> rename_i found <;> rw [found] at looked
      · exact looked
      · split
        · exact looked
        · exact looked.trans (.updCmd ..)

theorem Placing.copyRange (c : Nat) (t : Task) (uid : Nat) (e : Engine) (n : Need) (fuel : Nat) :
    ∀ (s : State) (place va len : Nat) (attr : Option (BitVec 9)),
      Placing c s (s.copyRange c t uid e n place va len attr fuel).1 := by
  induction fuel with
  | zero => exact fun s _ _ _ _ => .refl c s
  | succ fuel ih =>
    intro s place va len attr
    simp only [State.copyRange]
    split
    · exact .refl c s
    · have page := Placing.copyPage c s t uid e va n
      split <;> rename_i found <;> rw [found] at page
      · exact page
      · split
        · exact page
        · rename_i u x _
          have rest := page.trans (ih u (place + Nat.min len (x.va + x.size - va)) (va + Nat.min len (x.va + x.size - va))
            (len - Nat.min len (x.va + x.size - va)) (some x.attr))
          split <;> rename_i range <;> rw [range] at rest <;> exact rest

theorem Placing.memSide (c : Nat) (s : State) (t : Task) (k : Cmd) (e : Engine) (a : Dbl) (len : Nat) (n : Need)
    (format : BitVec 9 → Bool) (localFault : Option Nat) : Placing c s (s.memSide c t k e a len n format localFault).1 := by
  simp only [State.memSide]
  split
  · exact .refl c s
  · split
    · have range := Placing.copyRange c t k.uid e n (len / 2 ^ 16 + 2) s 0 a.toNat len none
      split <;> rename_i found <;> rw [found] at range
      · exact range
      · split <;> exact range
    · split
      · exact .refl c s
      · split <;> exact .refl c s

theorem Placing.elemSides (c : Nat) (t : Task) (k : Cmd) (e : Engine) (g0 : Dbl) (load : Bool) (size : Nat)
    (is : List Int) : ∀ (s : State) (j : Nat), Placing c s (s.elemSides c t k e g0 load size j is).1 := by
  induction is with
  | nil => exact fun s _ => .refl c s
  | cons i is ih =>
    intro s j
    have side := Placing.memSide c s t k e (elemAddr g0 size i) size (if load then Need.read else Need.write)
      (fun x => !(attrFormat x).isMx) none
    simp only [State.elemSides]
    split <;> rename_i found <;> rw [found] at side
    · exact side
    · rename_i u m
      have rest := side.trans (ih u (j + 1))
      split <;> rename_i sides <;> rw [sides] at rest <;> exact rest

theorem Placing.recheck (c : Nat) (s : State) (t : Task) (k : Cmd) (f : Xfer) : Placing c s (s.recheck c t k f).1 := by
  simp only [State.recheck]
  split
  · rename_i xf _ _ len _
    have side := Placing.memSide c s t k f.eng f.g0 len.nat Need.read (rowFormatOk true xf) none
    split <;> rename_i found <;> rw [found] at side <;> exact side
  · rename_i len _
    have side := Placing.memSide c s t k f.eng f.g0 len.nat Need.read (fun _ => true) (some 0x14)
    split <;> rename_i found <;> rw [found] at side <;> exact side
  · rename_i esz cnt _
    have sides := Placing.elemSides c t k f.eng f.g0 true (2 ^ esz.toNat) (s.indices c f.g2 cnt.toNat) s 0
    split <;> rename_i found <;> rw [found] at sides <;> exact sides
  · exact .refl c s

/-! ## Transfers, loads and fills asked for again -/

theorem Placing.taintPieces (c : Nat) (s : State) (ps : Pieces) : Placing c s (s.taintPieces c ps) := by
  rw [State.taintPieces]
  split
  · refine .updCore s c _ fun x => ?_
    cases x.task with
    | none => rfl
    | some t =>
      simp only [Option.map_some]
      split <;> rfl
  · exact .refl c s

theorem Placing.sendReads (c : Nat) (t : Task) (k : Cmd) (wid : Nat) (va : Nat → Nat) (ps : Pieces) :
    ∀ s : State, Placing c s (s.sendReads c t k wid va ps) := by
  induction ps with
  | nil => exact .refl c
  | cons p ps ih => exact fun s => (Placing.sendRead c s _).trans (ih _)

theorem Placing.updXfer (s : State) (c wid : Nat) (g : Xfer → Xfer) : Placing c s (s.updXfer c wid g) :=
  .updCore s c _ fun _ => rfl

theorem Placing.reissue (s : State) (c : Nat) (f : Xfer) : Placing c s (s.reissue c f) := by
  simp only [State.reissue]
  split
  · rename_i t k _ _
    have bared : Placing c s (s.updCore c fun x => x.updCmd f.eng f.cmd fun k => { k with xlat := [] }) :=
      .updCmd ..
    have checked := bared.trans (Placing.recheck c _ t { k with xlat := [] } f)
    split <;> rename_i found <;> rw [found] at checked
    · exact checked.trans (.bodyFault ..)
    · have forgotten (u : State) : Placing c u { u with reqs := u.reqs.filter fun r => !f.reqs.contains r.id } :=
        .aside c ⟨rfl, rfl, rfl⟩
      exact (((checked.trans (forgotten _)).trans (.taintPieces c _ _)).trans (.sendReads ..)).trans (.updXfer ..)
  · exact .refl c s

/-- What each request of a transfer looks up before any of them is sent. -/
theorem Placing.lookups {c : Nat} {one : Req → State × Except AFault (List Req) → State × Except AFault (List Req)}
    (step : ∀ r p, Placing c p.1 (one r p).1) (s : State) (rs : List Req) : Placing c s (rs.foldr one (s, .ok [])).1 := by
  induction rs with
  | nil => exact .refl c s
  | cons r rs ih => exact ih.trans (step r _)

/-- A request that a stop held up, as it is sent from core `c` to where its address lies now. -/
def Req.again (r : Req) (c : Nat) (s : State) (pa ipa : Nat) : Req :=
  { r with
    src := match r.src with
      | .copyRead _ w o => .copyRead c w o
      | .copyWrite _ w => .copyWrite c w
      | .addend _ w => .addend c w
      | x => x
    pa := pa
    key := s.keyAt c pa
    ipa := ipa }

/-- What one of them looks up, after those that follow it. -/
def State.lookAgain (c : Nat) (t : Task) (k : Cmd) (f : Xfer) (r : Req) (p : State × Except AFault (List Req)) :
    State × Except AFault (List Req) :=
  match p with
  | (s, .error e) => (s, .error e)
  | (s, .ok l) =>
    if isVirtual (dbl r.va) then
      match s.copyPage c t k.uid f.eng r.va (if r.kind == .read then Need.read else Need.write) with
      | (s, .error e) => (s, .error e)
      | (s, .ok x) => (s, .ok (r.again c s (x.phys r.va) (x.ipa + (r.va - x.va)) :: l))
    else
      (s, .ok (r.again c s (arrayAt (windowCore (dieOf c) (windowOff (dbl r.va))) (windowX (windowOff (dbl r.va)))) 0 :: l))

theorem Placing.lookAgain (c : Nat) (t : Task) (k : Cmd) (f : Xfer) (r : Req) (p : State × Except AFault (List Req)) :
    Placing c p.1 (State.lookAgain c t k f r p).1 := by
  obtain ⟨s, e | l⟩ := p
  · exact .refl c s
  · simp only [State.lookAgain]
    split
    · have page := Placing.copyPage c s t k.uid f.eng r.va (if r.kind == .read then Need.read else Need.write)
      split <;> rename_i found <;> rw [found] at page <;> exact page
    · exact .refl c s

theorem Placing.requestRest (s : State) (c : Nat) (f : Xfer) : Placing c s (s.requestRest c f) := by
  simp only [State.requestRest]
  split
  · rename_i t k _ _
    have looked := Placing.lookups (Placing.lookAgain c t k f) s f.unsent
    split <;> rename_i found <;>
      rw [show f.unsent.foldr (State.lookAgain c t k f) (s, .ok []) = _ from found] at looked
    · exact looked.trans (.bodyFault ..)
    · exact (looked.trans (.foldl _ (fun s r => .sendRead c s r) _ _)).trans (.updXfer ..)
  · exact .refl c s

theorem Placing.rereadXfers (c : Nat) (fs : List Xfer) : ∀ s : State, Placing c s (s.rereadXfers c fs) := by
  induction fs with
  | nil => exact .refl c
  | cons f fs ih =>
    intro s
    rw [State.rereadXfers]
    refine Placing.trans ?_ (ih _)
    split
    · exact .reissue s c f
    · split
      · exact .requestRest s c f
      · exact .refl c s

theorem Placing.rereadLanding (s : State) (c : Nat) (t : Task) (l : Landing) : Placing c s (s.rereadLanding c t l) := by
  simp only [State.rereadLanding]
  split
  · rename_i sz _
    split
    · exact .refl c s
    · split
      · have looked := Placing.translate c s (.seq c) t.fn (s.rootOf t.fn t.wq) l.addr.toNat Need.read
        split <;> rename_i found <;> rw [found] at looked
        · exact looked.trans (.sendRead c _ _)
        · exact looked.trans (.updCore _ c _ fun _ => rfl)
      · exact .sendRead c s _
  · exact .refl c s

theorem Placing.queueFill (s : State) (c slot fn phys va : Nat) (halves : List Nat) :
    Placing c s (s.queueFill c slot fn phys va halves) := by
  rw [State.queueFill]
  exact (Placing.foldl _ (fun s i => .sendRead c s _) halves s).trans (.updCore _ c _ fun _ => rfl)

theorem Placing.refills (s : State) (c : Nat) (t : Task) : Placing c s (s.refills c t) := by
  rw [State.refills]
  refine .foldl _ (fun s l => ?_) _ s
  have looked := Placing.translate c s (.seq c) t.fn l.root (l.block * 256) Need.read
  dsimp only
  split <;> rename_i found <;> rw [found] at looked
  · exact (looked.trans (.updLine ..)).trans (.queueFill ..)
  · exact looked

theorem Placing.wakeGivers (s : State) (c : Nat) (t : Task) : Placing c s (s.wakeGivers t) := by
  simp only [State.wakeGivers]
  split
  · exact .of_walked c (.setDonations ..) (.setDonations _ _ _)
  · exact .refl c s

/-! ## A task is resident again -/

/-- What a revived core asks for again. -/
theorem Placing.askAgain (c : Nat) (t : Task) (ls : List Landing) (s : State) :
    let u := ls.foldl (fun s l => s.rereadLanding c t l) s
    Placing c s (((u.rereadXfers c (u.core c).copy.xfers).refills c t).wakeGivers t) := by
  intro u
  have read : Placing c s u := .foldl _ (fun s l => .rereadLanding s c t l) ls s
  exact ((read.trans (.rereadXfers c _ u)).trans (.refills ..)).trans (.wakeGivers ..)

/-- A task that comes back stands on its core with its numbers; other cores' sequencers and the functions stay. -/
theorem State.revive_spec (s : State) (c : Nat) (v : Saved) (t : Task) : (s.revive c v t).cur = s.cur
    ∧ (∀ k, k ≠ c → (s.revive c v t).seq k = s.seq k)
    ∧ ((s.revive c v t).core c).task.map Task.label = some t.label ∧ FnsStand s (s.revive c v t) := by
  let back : State := (s.updFn t.fn fun f => { f with away := f.away.filter fun w => w != v }).updCore c fun x =>
    { x with task := some t }
  have left : FnsStand s back := .updFn s t.fn (fun f => { f with away := f.away.filter fun w => w != v }) fun _ => rfl
  have settled : Placing c back ((back.settleCore c t).returnRows c t) := (Placing.settleCore ..).trans (.returnRows ..)
  let wbs := ((((back.settleCore c t).returnRows c t).core c).task.map (·.settling)).getD []
  let placed : State := ((back.settleCore c t).returnRows c t).updCore c fun x => x.revived v { t with settling := wbs, wd := 0 }
  have asked : Placing c placed (s.revive c v t) := .askAgain c t v.core.seq.landing placed
  have label : (placed.core c).task.map Task.label = some t.label := by
    rw [State.core_updCore]
    rfl
  have beside (u : State) (g : Core → Core) : (u.updCore c g).cur = u.cur ∧ FnsStand u (u.updCore c g)
      ∧ ∀ k, k ≠ c → (u.updCore c g).seq k = u.seq k :=
    ⟨rfl, .refl u, fun k other => congrArg Core.seq (State.core_updCore_ne u g other)⟩
  obtain ⟨cur, fns, others⟩ := beside ((back.settleCore c t).returnRows c t) fun x => x.revived v { t with settling := wbs, wd := 0 }
  obtain ⟨backCur, -, backOthers⟩ := beside (s.updFn t.fn fun f => { f with away := f.away.filter fun w => w != v }) fun x =>
    { x with task := some t }
  exact ⟨asked.cur.trans (cur.trans (settled.cur.trans backCur)), fun k other => (asked.seqs k other).trans
    ((others k other).trans ((settled.seqs k other).trans (backOthers k other))), asked.label.trans label,
    ((left.trans settled.fns).trans fns).trans asked.fns⟩

end Sys2Proof.Machine
end

section
/-! SUPPORT. A stop begins (R346, R347): only its core changes, the place where its sequencer stands stays, and a task that runs
is stopping at the depth. -/

namespace Sys2Proof.Machine

open Sys2Proof Sys2Proof.Safety

/-! ## Work on one core -/

/-- Work for core `c` that leaves the other cores, and its own sequencer and task, as they are. -/
structure CoreWork (c : Nat) (s t : State) : Prop where
  cur : t.cur = s.cur
  others : ∀ k, k ≠ c → t.core k = s.core k
  seq : t.seq c = s.seq c
  task : (t.core c).task = (s.core c).task

theorem CoreWork.refl (c : Nat) (s : State) : CoreWork c s s := ⟨rfl, fun _ _ => rfl, rfl, rfl⟩

theorem CoreWork.trans {c : Nat} {s t u : State} (h : CoreWork c s t) (k : CoreWork c t u) : CoreWork c s u :=
  ⟨k.cur.trans h.cur, fun i other => (k.others i other).trans (h.others i other), k.seq.trans h.seq, k.task.trans h.task⟩

theorem CoreWork.foldl {α : Type} {c : Nat} (g : State → α → State) (h : ∀ s a, CoreWork c s (g s a)) (l : List α) :
    ∀ s, CoreWork c s (l.foldl g s) := by
  induction l with
  | nil => exact .refl c
  | cons a l ih => exact fun s => (h s a).trans (ih _)

theorem CoreWork.aside (c : Nat) {s t : State} (shape : t.cur = s.cur ∧ t.cores = s.cores) : CoreWork c s t := by
  obtain ⟨cur, cores⟩ := shape
  have core (k : Nat) : t.core k = s.core k := by rw [State.core, cores]; rfl
  exact ⟨cur, fun k _ => core k, congrArg Core.seq (core c), congrArg Core.task (core c)⟩

theorem CoreWork.updCore (s : State) (c : Nat) (g : Core → Core) (h : ∀ x, (g x).seq = x.seq ∧ (g x).task = x.task) :
    CoreWork c s (s.updCore c g) :=
  ⟨rfl, fun _ other => State.core_updCore_ne s g other, by rw [State.seq_updCore, (h _).1]; rfl,
    by rw [State.core_updCore, (h _).2]⟩

theorem CoreWork.freeze (s : State) (c : Nat) (f : Freeze) : CoreWork c s (s.freeze c f) :=
  .updCore s c _ fun x => by split <;> exact ⟨rfl, rfl⟩

theorem CoreWork.withdrawXfers (s : State) (c : Nat) : CoreWork c s (s.withdrawXfers c) := by
  rw [State.withdrawXfers]
  refine .foldl _ (fun s f => ?_) _ s
  have transfer (u : State) (g : Xfer → Xfer) : CoreWork c u (u.updXfer c f.wid g) := .updCore u c _ fun _ => ⟨rfl, rfl⟩
  rw [State.withdraw]
  refine CoreWork.trans ?_ (transfer _ _)
  exact .aside c ⟨rfl, rfl⟩

theorem CoreWork.withdrawFills (s : State) (c : Nat) : CoreWork c s (s.withdrawFills c) := by
  rw [State.withdrawFills]
  refine .foldl _ (fun s l => ?_) _ s
  have line (u : State) (g : PLine → PLine) : CoreWork c u (u.updCore c fun x => x.updLine l.slot g) :=
    .updCore u c _ fun _ => ⟨rfl, rfl⟩
  rw [State.withdrawFill]
  refine CoreWork.trans ?_ (line _ _)
  exact .aside c ⟨rfl, rfl⟩

theorem CoreWork.freezeMat (s : State) (c : Nat) : CoreWork c s (s.freezeMat c) := by
  rw [State.freezeMat]
  refine CoreWork.trans (.foldl _ (fun s a => ?_) _ s) (.updCore _ c _ fun _ => ⟨rfl, rfl⟩)
  obtain ⟨f, e⟩ := a
  obtain ⟨⟨_, shape⟩, -⟩ := s.arrayRun_array c f e
  exact .aside c (by dsimp only; rw [shape]; exact ⟨rfl, rfl⟩)

/-! ## The stop of one core's task -/

/-- The task runs, and its stop at a depth has begun where `begun` says so. -/
def Task.halting (begun : Bool) (depth : Nat) (w : Task) : Prop :=
  w.stopped = none ∧ w.parked = false ∧ (begun = true → w.stopping = some depth)

/-- Where the sequencer of core `k` stands. -/
def SpotKept (k : Nat) (s t : State) : Prop :=
  (t.seq k).pc = (s.seq k).pc ∧ (t.seq k).belt = (s.seq k).belt ∧ (t.seq k).named = (s.seq k).named

theorem SpotKept.of_seq {k : Nat} {s t : State} (seq : t.seq k = s.seq k) : SpotKept k s t := by
  rw [SpotKept, seq]
  exact ⟨rfl, rfl, rfl⟩

theorem SpotKept.trans {k : Nat} {s t u : State} (h : SpotKept k s t) (j : SpotKept k t u) : SpotKept k s u := by
  obtain ⟨pc, belt, named⟩ := h
  obtain ⟨pc', belt', named'⟩ := j
  exact ⟨pc'.trans pc, belt'.trans belt, named'.trans named⟩

theorem State.core_updTask (s : State) (c : Nat) (f : Task → Task) :
    (s.updTask c f).core c = { s.core c with task := (s.core c).task.map f } := State.core_updCore ..

theorem State.core_updTask_ne (s : State) {c k : Nat} (f : Task → Task) (other : k ≠ c) : (s.updTask c f).core k = s.core k :=
  State.core_updCore_ne s _ other

theorem State.freezeStop_spec (s : State) (c : Nat) : (s.freezeStop c).cur = s.cur
    ∧ (∀ k, k ≠ c → (s.freezeStop c).core k = s.core k) ∧ (s.freezeStop c).seq c = s.seq c
    ∧ ((s.freezeStop c).core c).task = (s.core c).task.map fun t => { t with stopping := some 2, stopBy := none } := by
  rw [State.freezeStop]
  have frozen := CoreWork.freeze s c .stop
  generalize s.freeze c .stop = u at frozen
  have stops := u.core_updTask c fun t => { t with stopping := some 2, stopBy := none }
  have others := fun k => u.core_updTask_ne (c := c) (k := k) fun t => { t with stopping := some 2, stopBy := none }
  have cur : (u.updTask c fun t => { t with stopping := some 2, stopBy := none }).cur = u.cur := rfl
  generalize (u.updTask c fun t => { t with stopping := some 2, stopBy := none }) = v at stops others cur
  have left := ((CoreWork.withdrawXfers v c).trans (.withdrawFills _ c)).trans (.freezeMat _ c)
  refine ⟨left.cur.trans (cur.trans frozen.cur), fun k other => ?_, left.seq.trans ?_, left.task.trans ?_⟩
  · rw [left.others k other, others k other, frozen.others k other]
  · rw [State.seq, stops]
    exact frozen.seq
  · rw [stops, ← frozen.task]

/-- A stop changes its core alone, and its sequencer stays where it stands. -/
theorem State.beginStop_others (s : State) (c depth : Nat) (b : Option Nat) :
    (s.beginStop c depth b).cur = s.cur ∧ (∀ k, k ≠ c → (s.beginStop c depth b).core k = s.core k)
      ∧ SpotKept c s (s.beginStop c depth b) := by
  have marked (f : Task → Task) : (s.updTask c f).cur = s.cur ∧ (∀ k, k ≠ c → (s.updTask c f).core k = s.core k)
      ∧ SpotKept c s (s.updTask c f) :=
    ⟨rfl, fun k other => s.core_updTask_ne f other, .of_seq ((congrArg Core.seq (s.core_updTask c f)).trans rfl)⟩
  rw [State.beginStop]
  split
  · exact ⟨rfl, fun _ _ => rfl, .of_seq rfl⟩
  · split
    · exact ⟨rfl, fun _ _ => rfl, .of_seq rfl⟩
    · split
      · exact marked _
      · split
        · obtain ⟨cur, others, seq, -⟩ := s.freezeStop_spec c
          exact ⟨cur, others, .of_seq seq⟩
        · obtain ⟨cur, others, spot⟩ := marked fun t => { t with stopping := some depth, stopBy := b }
          dsimp only
          split
          · refine ⟨cur, fun k other => (State.core_updCore_ne _ _ other).trans (others k other), spot.trans ?_⟩
            rw [SpotKept, State.updSeq, State.seq_updCore]
            exact ⟨rfl, rfl, rfl⟩
          · exact ⟨cur, others, spot⟩

/-- A task that has stopped has nothing more to stop. -/
theorem State.beginStop_stopped {s : State} {c depth : Nat} {b : Option Nat} {w : Task} (task : (s.core c).task = some w)
    (stopped : w.stopped.isSome = true) : s.beginStop c depth b = s := by
  rw [State.beginStop, task]
  exact if_pos stopped

/-- A task that runs is stopping at the depth. -/
theorem State.beginStop_halting {s : State} {c depth : Nat} {b : Option Nat} {w : Task} {begun : Bool}
    (task : (s.core c).task = some w) (runs : w.halting begun depth) :
    ∃ v, ((s.beginStop c depth b).core c).task = some v ∧ v.halting true depth := by
  obtain ⟨alive, free, -⟩ := runs
  have stopped : ¬ w.stopped.isSome = true := by rw [alive]; exact Bool.false_ne_true
  have parked : ¬ w.parked = true := by rw [free]; exact Bool.false_ne_true
  simp only [State.beginStop, task, if_neg stopped, if_neg parked]
  split
  · rename_i frozen
    obtain ⟨-, -, -, marked⟩ := s.freezeStop_spec c
    rw [marked, task, frozen]
    exact ⟨_, rfl, alive, free, fun _ => rfl⟩
  · have marked := s.core_updTask c fun t => { t with stopping := some depth, stopBy := b }
    rw [task] at marked
    split
    · rw [State.core_updSeq, marked]
      exact ⟨_, rfl, alive, free, fun _ => rfl⟩
    · rw [marked]
      exact ⟨_, rfl, alive, free, fun _ => rfl⟩

/-! ## The stops of several cores' tasks -/

theorem State.beginStops_spot (depth : Nat) (b : Option Nat) (k : Nat) (cs : List Nat) : ∀ s : State,
    (s.beginStops depth b cs).cur = s.cur ∧ SpotKept k s (s.beginStops depth b cs) := by
  induction cs with
  | nil => exact fun s => ⟨rfl, .of_seq rfl⟩
  | cons c cs ih =>
    intro s
    obtain ⟨cur, others, spot⟩ := s.beginStop_others c depth b
    obtain ⟨later, stays⟩ := ih (s.beginStop c depth b)
    refine ⟨later.trans cur, SpotKept.trans ?_ stays⟩
    by_cases same : k = c
    · rw [same]
      exact spot
    · exact .of_seq (congrArg Core.seq (others k same))

theorem State.beginStops_halting {depth : Nat} {b : Option Nat} {m : Nat} (cs : List Nat) : ∀ {s : State} {w : Task} {begun : Bool},
    (s.core m).task = some w → w.halting begun depth → (m ∈ cs ∨ begun = true) →
    ∃ v, ((s.beginStops depth b cs).core m).task = some v ∧ v.halting true depth := by
  induction cs with
  | nil =>
    intro s w begun task runs named
    rcases named with named | rfl
    · exact absurd named List.not_mem_nil
    · exact ⟨w, task, runs⟩
  | cons c cs ih =>
    intro s w begun task runs named
    rw [State.beginStops]
    by_cases same : m = c
    · subst same
      obtain ⟨v, task', runs'⟩ := State.beginStop_halting (b := b) task runs
      exact ih task' runs' (.inr rfl)
    · obtain ⟨-, others, -⟩ := s.beginStop_others c depth b
      refine ih (by rw [others m same]; exact task) runs ?_
      exact named.imp_left fun mem => (List.mem_cons.mp mem).resolve_left same

/-- A step that keeps where the word's sequencer stands, and comes to a later one, waits there. -/
theorem sysWaits_spot {s u : State} (n : Nat) (cur : u.cur = s.cur) (spot : SpotKept s.cur.core s u) : SysWaits s (u.sysPhase n) n := by
  obtain ⟨pc, belt, named⟩ := spot
  exact sysWaits_sysPhase n (by rw [cur]) pc belt named

end Sys2Proof.Machine
end

section
/-! SUPPORT. PREEMPT, SPILL, RESTORE and SNAPRD, step by step (R346 to R351): the word's operands and what each step does. -/

namespace Sys2Proof.Machine

open Sys2Proof Sys2Proof.Safety

/-! ## Operands -/

theorem preemptArgs_all {fn depth dl : Nat} (lo : 1 ≤ fn) (hi : fn ≤ 48) (named : depth < 4) :
    preemptArgs fn (depth + dl * 2 ^ 8) = some (fn, none, depth, dl) := by
  have e1 : bits fn 8 1 = 0 := by simp only [bits]; omega
  have e2 : bits fn 0 8 = fn := by simp only [bits]; omega
  have e3 : bits fn 9 3 = 0 := by simp only [bits]; omega
  have e4 : fn / 2 ^ 21 = 0 := by omega
  have e5 : bits (depth + dl * 2 ^ 8) 2 6 = 0 := by simp only [bits]; omega
  have e6 : bits fn 12 9 = 0 := by simp only [bits]; omega
  have e7 : bits (depth + dl * 2 ^ 8) 0 2 = depth := by simp only [bits]; omega
  have e8 : (depth + dl * 2 ^ 8) / 256 = dl := by omega
  simp only [preemptArgs, e1, e2, e3, e4, e5, e6, e7, e8, sliceFn_of_range lo hi]
  rfl

theorem preemptArgs_one {fn die core depth dl : Nat} (lo : 1 ≤ fn) (hi : fn ≤ 48) (onDie : die < 16) (onCore : core < 24)
    (named : depth < 4) : preemptArgs (fn + 2 ^ 8 + (die * 2 ^ 12 + core * 2 ^ 16)) (depth + dl * 2 ^ 8)
      = some (fn, some (24 * die + core), depth, dl) := by
  have e1 : bits (fn + 2 ^ 8 + (die * 2 ^ 12 + core * 2 ^ 16)) 8 1 = 1 := by simp only [bits]; omega
  have e2 : bits (fn + 2 ^ 8 + (die * 2 ^ 12 + core * 2 ^ 16)) 0 8 = fn := by simp only [bits]; omega
  have e3 : bits (fn + 2 ^ 8 + (die * 2 ^ 12 + core * 2 ^ 16)) 9 3 = 0 := by simp only [bits]; omega
  have e4 : (fn + 2 ^ 8 + (die * 2 ^ 12 + core * 2 ^ 16)) / 2 ^ 21 = 0 := by omega
  have e5 : bits (depth + dl * 2 ^ 8) 2 6 = 0 := by simp only [bits]; omega
  have e6 : bits (fn + 2 ^ 8 + (die * 2 ^ 12 + core * 2 ^ 16)) 16 5 = core := by simp only [bits]; omega
  have e7 : bits (depth + dl * 2 ^ 8) 0 2 = depth := by simp only [bits]; omega
  have e8 : (depth + dl * 2 ^ 8) / 256 = dl := by omega
  have e9 : bits (fn + 2 ^ 8 + (die * 2 ^ 12 + core * 2 ^ 16)) 12 4 = die := by simp only [bits]; omega
  simp only [preemptArgs, e1, e2, e3, e4, e5, e6, e7, e8, e9, sliceFn_of_range lo hi]
  simp [onCore]

theorem targetArgs_core {fn die core unit : Nat} (lo : 1 ≤ fn) (hi : fn ≤ 48) (onDie : die < 16) (onCore : core < 24) :
    targetArgs (fn + (die * 2 ^ 12 + core * 2 ^ 16) + unit * 2 ^ 24) (unit * 2 ^ 24) = some (fn, 24 * die + core) := by
  have e1 : bits (fn + (die * 2 ^ 12 + core * 2 ^ 16) + unit * 2 ^ 24) 0 8 = fn := by simp only [bits]; omega
  have e2 : bits (fn + (die * 2 ^ 12 + core * 2 ^ 16) + unit * 2 ^ 24) 8 4 = 0 := by simp only [bits]; omega
  have e3 : bits (fn + (die * 2 ^ 12 + core * 2 ^ 16) + unit * 2 ^ 24) 16 5 = core := by simp only [bits]; omega
  have e4 : (fn + (die * 2 ^ 12 + core * 2 ^ 16) + unit * 2 ^ 24 - unit * 2 ^ 24) / 2 ^ 21 = 0 := by omega
  have e5 : bits (fn + (die * 2 ^ 12 + core * 2 ^ 16) + unit * 2 ^ 24) 12 4 = die := by simp only [bits]; omega
  simp only [targetArgs, e1, e2, e3, e4, e5, sliceFn_of_range lo hi]
  simp [onCore]

theorem targetArgs_area {fn die core : Nat} (lo : 1 ≤ fn) (hi : fn ≤ 48) (onDie : die < 16) (onCore : core < 24) :
    targetArgs (fn + (die * 2 ^ 12 + core * 2 ^ 16)) 0 = some (fn, 24 * die + core) := by
  have named := targetArgs_core (unit := 0) lo hi onDie onCore
  rwa [Nat.zero_mul, Nat.add_zero] at named

/-! ## PREEMPT -/

section
variable {s : State} {a b : Src} (d : Dest) {fn depth dl c : Nat}

theorem exec_preempt_release (one : Option Nat) (ready : SysReady s [a, b]) (bound : (s.fn fn).bound = true)
    (args : preemptArgs (number s a) (number s b) = some (fn, one, 3, dl)) :
    exec (.preempt a b d) s = .next ((s.releaseFn fn).sysDone [a, b] d 0 0) := by
  simp only [exec, execPreempt, State.sysWord_ready ready, State.opd_toNat, args, bound, Bool.not_true, Bool.false_eq_true, if_false,
    if_true]

theorem exec_preempt_all (ready : SysReady s [a, b]) (bound : (s.fn fn).bound = true) (stops : depth < 3)
    (args : preemptArgs (number s a) (number s b) = some (fn, none, depth, dl)) :
    exec (.preempt a b d) s = .next ((s.stopAll fn depth dl).sysPhase 1) := by
  simp only [exec, execPreempt, State.sysWord_ready ready, State.opd_toNat, args, bound, Bool.not_true, Bool.false_eq_true, if_false,
    Nat.ne_of_lt stops, sysReady_phase ready, if_true]

theorem exec_preempt_quiet (phase : (s.seq s.cur.core).phase = 1) (bound : (s.fn fn).bound = true) (stops : depth < 3)
    (args : preemptArgs (number s a) (number s b) = some (fn, none, depth, dl)) (stopped : s.allStopped fn = true) :
    exec (.preempt a b d) s = .next ((s.quiesce fn).sysDone [a, b] d 0 (s.countTasks (s.residents fn))) := by
  have later : (s.seq s.cur.core).phase ≠ 0 := by omega
  simp only [exec, execPreempt, State.sysWord_later later, State.opd_toNat, args, bound, Bool.not_true, Bool.false_eq_true, if_false,
    Nat.ne_of_lt stops, later, stopped, if_true]

theorem exec_preempt_none (ready : SysReady s [a, b]) (bound : (s.fn fn).bound = true) (stops : depth < 3)
    (args : preemptArgs (number s a) (number s b) = some (fn, some c, depth, dl)) (owns : (s.quad (quadOf c)).owner = some fn)
    (free : (s.core c).task = none) : exec (.preempt a b d) s = .next (s.sysDone [a, b] d 0 0) := by
  simp only [exec, execPreempt, State.sysWord_ready ready, State.opd_toNat, args, bound, Bool.not_true, Bool.false_eq_true, if_false,
    Nat.ne_of_lt stops, owns, ne_eq, not_true, free]

theorem exec_preempt_one {k : Task} (ready : SysReady s [a, b]) (bound : (s.fn fn).bound = true) (stops : depth < 3)
    (args : preemptArgs (number s a) (number s b) = some (fn, some c, depth, dl)) (owns : (s.quad (quadOf c)).owner = some fn)
    (task : (s.core c).task = some k) : ∃ by_, exec (.preempt a b d) s = .next (((s.beginStops depth by_ k.members).updSeq
      (s.beginStops depth by_ k.members).cur.core fun q => { q with sweep := [k.wq, k.rseq, k.tseq] }).sysPhase 1) := by
  simp only [exec, execPreempt, State.sysWord_ready ready, State.opd_toNat, args, bound, Bool.not_true, Bool.false_eq_true, if_false,
    Nat.ne_of_lt stops, owns, ne_eq, not_true, task, sysReady_phase ready, if_true]
  exact ⟨_, rfl⟩

theorem exec_preempt_stopped {k : Task} (phase : (s.seq s.cur.core).phase = 1) (bound : (s.fn fn).bound = true) (stops : depth < 3)
    (args : preemptArgs (number s a) (number s b) = some (fn, some c, depth, dl)) (owns : (s.quad (quadOf c)).owner = some fn)
    (task : (s.core c).task = some k) (sweep : (s.seq s.cur.core).sweep = [k.wq, k.rseq, k.tseq])
    (halted : ∀ m ∈ k.members, (s.core m).halts = true) : exec (.preempt a b d) s = .next (s.sysDone [a, b] d 0 1) := by
  have later : (s.seq s.cur.core).phase ≠ 0 := by omega
  simp only [exec, execPreempt, State.sysWord_later later, State.opd_toNat, args, bound, Bool.not_true, Bool.false_eq_true, if_false,
    Nat.ne_of_lt stops, owns, ne_eq, not_true, task, later, sweep, List.all_eq_true.mpr halted, if_true]

end

/-! ## SPILL, RESTORE, SNAPRD -/

section
variable {s : State} {a b : Src} (d : Dest) {fn c : Nat}

theorem sysAddr_of {v align len : Nat} (aligned : v % align = 0) (local_ : inHbm v len = true) : sysAddr v align len = true := by
  rw [sysAddr, aligned, local_]
  rfl

section
variable {k : Task} (args : targetArgs (number s a) 0 = some (fn, c)) (area : sysAddr (number s b) 256 areaLen = true)
  (bound : (s.fn fn).bound = true) (task : (s.core c).task = some k) (own : k.fn = fn) (stopped : k.stopped.isSome = true)
include args area bound task own stopped

theorem exec_spill_first (ready : SysReady s [a, b]) : exec (.spill a b d) s = .next (s.sysPhase 1) := by
  have holds : s.holdsStopped c fn = true := by simp [State.holdsStopped, task, own, stopped]
  simp only [exec, execSpill, State.sysWord_ready ready, State.opd_toNat, args, area, bound, holds, Bool.not_true,
    Bool.false_eq_true, if_false, task, sysReady_phase ready, if_true, State.beginStop_stopped task stopped]

theorem exec_spill_save (phase : (s.seq s.cur.core).phase = 1) : exec (.spill a b d) s
    = .next (((s.sysWrite (number s b) (s.areaBytes c k)).useFree).sysPhase 2) := by
  have holds : s.holdsStopped c fn = true := by simp [State.holdsStopped, task, own, stopped]
  have halts : (s.core c).halts = true := by simp [Core.halts, task, stopped]
  have later : (s.seq s.cur.core).phase ≠ 0 := by omega
  simp only [exec, execSpill, State.sysWord_later later, State.opd_toNat, args, area, bound, holds, Bool.not_true,
    Bool.false_eq_true, if_false, task, phase, if_true, halts, Nat.one_ne_zero]

theorem exec_spill_last (phase : (s.seq s.cur.core).phase = 2) (written : (s.seq s.cur.core).st = 0) :
    exec (.spill a b d) s = .next ((s.vacate c (some (number s b))).sysDone [a, b] d 0 0) := by
  have holds : s.holdsStopped c fn = true := by simp [State.holdsStopped, task, own, stopped]
  have later : (s.seq s.cur.core).phase ≠ 0 := by omega
  simp only [exec, execSpill, State.sysWord_later later, State.opd_toNat, args, area, bound, holds, Bool.not_true,
    Bool.false_eq_true, if_false, task, phase, written, OfNat.ofNat_ne_zero, OfNat.ofNat_ne_one, ne_eq, not_true]

end

/-- The state from which a saved task is brought back: the area has been read. -/
def State.areaRead (s : State) (fn c pa : Nat) (v : Saved) : State :=
  let u := (s.updFn fn fun f => { f with away := f.away.map fun u => if u = v then s.readArea pa v else u }).readPartials c pa
    (s.readArea pa v).core
  { u with nextId := u.nextId + 16 }

theorem State.areaRead_stands (s : State) (fn c pa : Nat) (v : Saved) :
    (s.areaRead fn c pa v).cur = s.cur ∧ (s.areaRead fn c pa v).cores = s.cores := by
  simp only [State.areaRead]
  generalize s.readArea pa v = w
  rw [State.readPartials]
  split <;> exact ⟨rfl, rfl⟩

theorem exec_restore_first {v : Saved} (ready : SysReady s [a, b]) (args : targetArgs (number s a) 0 = some (fn, c))
    (area : sysAddr (number s b) 256 areaLen = true) (bound : (s.fn fn).bound = true) (good : s.areaOk (number s b) = true)
    (who : whoOk (s.mem8 (number s b + 8)) fn c = true) (free : s.coreFree c = true) (owns : (s.quad (quadOf c)).owner = some fn)
    (saved : s.savedAt fn (number s b) = some v) (quiet : s.settleable c = true) :
    exec (.restore a b d) s = .next (((s.areaRead fn c (number s b) v).revive c (s.readArea (number s b) v)
      (v.task.restored (s.mem8 (number s b + 8)))).sysPhase 1) := by
  have first : (s.seq s.cur.core).phase ≠ 1 := by rw [sysReady_phase ready]; decide
  simp only [exec, execRestore, State.sysWord_ready ready, State.opd_toNat, args, first, area, bound, good, who, free, owns, saved,
    quiet, Bool.not_true, Bool.false_eq_true, if_false, ne_eq, not_true, State.areaRead]

theorem exec_restore_last (phase : (s.seq s.cur.core).phase = 1) (args : targetArgs (number s a) 0 = some (fn, c))
    (settled : (s.core c).settling = false) : exec (.restore a b d) s = .next (s.sysDone [a, b] d 0 0) := by
  have later : (s.seq s.cur.core).phase ≠ 0 := by omega
  simp only [exec, execRestore, State.sysWord_later later, State.opd_toNat, args, phase, settled, Bool.false_eq_true, if_false, if_true]

section
variable {unit : Nat} (lo : 1 ≤ unit) (hi : unit ≤ 5) (field : bits (number s a) 24 4 = unit)
  (args : targetArgs (number s a) (unit * 2 ^ 24) = some (fn, c))
  (block : sysAddr (number s b) 64 (s.unitBlock c unit).length = true) (bound : (s.fn fn).bound = true)

include lo hi block in
theorem unit_named : ¬ (unit = 0 ∨ 5 < unit ∨ (!sysAddr (number s b) 64 (s.unitBlock c unit).length) = true) := by
  rw [block]
  rintro (none | past | wrong)
  · omega
  · omega
  · exact Bool.false_ne_true wrong

include lo hi field args block bound

theorem exec_snaprd_first (ready : SysReady s [a, b]) (holds : s.holdsStopped c fn = true) : exec (.snaprd a b d) s
    = .next (((s.sysWrite (number s b) (s.unitBlock c unit)).useFree).sysPhase 1) := by
  have first : (s.seq s.cur.core).phase ≠ 1 := by rw [sysReady_phase ready]; decide
  simp only [exec, execSnaprd, State.sysWord_ready ready, State.opd_toNat, field, args, if_neg (unit_named lo hi block), bound, holds, Bool.not_true,
    Bool.false_eq_true, if_false, first]

theorem exec_snaprd_last (phase : (s.seq s.cur.core).phase = 1) (written : (s.seq s.cur.core).st = 0) :
    exec (.snaprd a b d) s = .next (s.sysDone [a, b] d 0 0) := by
  have later : (s.seq s.cur.core).phase ≠ 0 := by omega
  simp only [exec, execSnaprd, State.sysWord_later later, State.opd_toNat, field, args, if_neg (unit_named lo hi block), bound, Bool.not_true,
    Bool.false_eq_true, if_false, phase, written, if_true]

end

end

/-! ## What the steps leave -/

theorem State.sysStores_stands (wid : Nat) (l : List (Nat × Nat)) : ∀ (s : State) (bs : List Byte),
    (s.sysStores wid l bs).cur = s.cur ∧ (s.sysStores wid l bs).cores = s.cores := by
  induction l with
  | nil => exact fun _ _ => ⟨rfl, rfl⟩
  | cons p l ih =>
    intro s bs
    obtain ⟨cur, cores⟩ := ih (s.send { Req.blank (.store derailleur wid) .write p.1 p.2 with
      data := bs.take p.2, key := if isLocalHbm p.1 then 1 else 0, tc := 3 }) (bs.drop p.2)
    exact ⟨cur, cores⟩

/-- Stores of the Derailleur are noted at its sequencer, which stays where it stands. -/
theorem State.sysWrite_spot (s : State) (pa : Nat) (bs : List Byte) (k : Nat) :
    (s.sysWrite pa bs).cur = s.cur ∧ SpotKept k s (s.sysWrite pa bs) := by
  simp only [State.sysWrite]
  split
  · exact ⟨rfl, .of_seq rfl⟩
  · obtain ⟨cur, cores⟩ := State.sysStores_stands s.nextId (sysCuts pa bs.length) s.useId bs
    generalize s.useId.sysStores s.nextId (sysCuts pa bs.length) bs = u at cur cores
    have core (i : Nat) : u.core i = s.core i := by rw [State.core, cores]; rfl
    refine ⟨cur, ?_⟩
    by_cases same : k = derailleur
    · rw [SpotKept, same, State.seq_updSeq, State.seq, core]
      exact ⟨rfl, rfl, rfl⟩
    · exact .of_seq (congrArg Core.seq ((State.core_updCore_ne _ _ same).trans (core k)))

/-- So does one that has written. -/
theorem sysWaits_written {s u : State} (n : Nat) (cur : u.cur = s.cur) (spot : SpotKept s.cur.core s u) :
    SysWaits s (u.useFree.sysPhase n) n := sysWaits_spot (u := u.useFree) n cur spot

theorem State.updSeq_task (u : State) (c : Nat) (g : Seq → Seq) (k : Nat) : ((u.updSeq c g).core k).task = (u.core k).task := by
  by_cases same : k = c
  · rw [same, State.core_updSeq]
  · exact congrArg Core.task (State.core_updCore_ne _ _ same)

theorem Task.tick_stopping (t : Task) : t.tick.stopping = t.stopping := by
  rw [Task.tick]
  split <;> rfl

/-- The cycle in which a word comes to a later step stops no task and lets none go on. -/
theorem State.sysPhase_stopping (u : State) (n k : Nat) :
    ((u.sysPhase n).core k).task.map Task.stopping = (u.core k).task.map Task.stopping := by
  have noted (v : State) (c : Nat) (g : Core → Core) (keeps : ∀ x, (g x).task.map Task.stopping = x.task.map Task.stopping) :
      ((v.updCore c g).core k).task.map Task.stopping = (v.core k).task.map Task.stopping := by
    by_cases same : k = c
    · rw [same, State.core_updCore, keeps]
    · rw [State.core_updCore_ne _ _ same]
  rw [State.sysPhase, State.sysWait, State.stallSeq, State.updSeq]
  refine (noted _ _ _ fun x => ?_).trans (noted _ _ _ fun x => rfl)
  rw [Core.cycle, Option.map_map]
  exact congrArg (Option.map · x.task) (funext Task.tick_stopping)

/-- A task set aside is saved, and its core is free. -/
theorem State.setAside_spec (u : State) (v : Saved) (c : Nat) {g : Core → Core} (free : ∀ x, (g x).task = none) :
    let t := (u.updFn v.task.fn fun f => { f with away := f.away ++ [v] }).updCore c g
    (t.core c).task = none ∧ v ∈ (t.fn v.task.fn).away := by
  intro t
  refine ⟨by rw [State.core_updCore]; exact free _, ?_⟩
  have fn : t.fn v.task.fn = (u.updFn v.task.fn fun f => { f with away := f.away ++ [v] }).fn v.task.fn := rfl
  rw [fn, State.fn_updFn]
  exact List.mem_append_right _ List.mem_cons_self

/-- The task leaves its core, and is saved as it stood. -/
theorem State.vacate_saved {s : State} {c : Nat} {k : Task} (task : (s.core c).task = some k) (addr : Option Nat) :
    ((s.vacate c addr).core c).task = none
      ∧ ∃ v ∈ ((s.vacate c addr).fn k.fn).away, v.addr = addr ∧ v.place = c ∧ v.task = k := by
  have left (u : State) (x : Core) := u.setAside_spec ⟨c, addr, k, x⟩ c (g := fun x =>
    { x.cleared with copy := { x.cleared.copy with lines := x.cleared.copy.lines.filter fun l => l.state != .pending } })
    fun _ => rfl
  simp only [State.vacate, task]
  split
  · obtain ⟨free, away⟩ := left _ _
    exact ⟨free, _, away, rfl, rfl, rfl⟩
  · obtain ⟨free, away⟩ := left _ _
    exact ⟨free, _, away, rfl, rfl, rfl⟩

/-! ## The obligation -/

/-- Settles O47: PREEMPT's steps, then those of SPILL, RESTORE and SNAPRD. -/
theorem stopWords : Obligations.StopWords := by
  unfold Obligations.StopWords
  intro s a b d fn die core lo hi onDie onCore here bound c at_ x y
  have slot : s.cur.core ≠ c := by simp only [c, here]; omega
  rw [← here]
  refine ⟨fun depth dl small ny => ⟨fun nx deepest ready => ?release, fun nx stops => ⟨fun ready => ?all, fun phase stopped => ?quiet⟩,
    fun nx stops owns => ⟨fun free ready => ?none, fun k task => ⟨fun ready => ?one, fun phase sweep halted => ?stopped⟩⟩⟩,
    fun nx aligned local_ => ?areas, fun unit first last nx aligned local_ => ?block⟩
  case' areas =>
    have args : targetArgs (number s a) 0 = some (fn, c) := by
      rw [show number s a = fn + at_ from nx]
      exact targetArgs_area lo hi onDie onCore
    have area : sysAddr (number s b) 256 areaLen = true := sysAddr_of aligned local_
    refine ⟨fun k task own stopped => ⟨fun ready => ?spill, fun phase => ?save, fun phase written => ?leave⟩,
      fun v ready good who free owns saved quiet => ?restore, fun phase settled => ?restored⟩
  case' block =>
    have args : targetArgs (number s a) (unit * 2 ^ 24) = some (fn, c) := by
      rw [show number s a = _ from nx]
      exact targetArgs_core lo hi onDie onCore
    have field : bits (number s a) 24 4 = unit := by
      rw [show number s a = _ from nx]
      simp only [bits, at_]
      omega
    have block : sysAddr (number s b) 64 (s.unitBlock c unit).length = true := sysAddr_of aligned local_
    refine ⟨fun ready holds => ?read, fun phase written => ?written⟩
  case release =>
    refine ⟨_, _, exec_preempt_release d none ready bound (dl := dl) ?_, sysEnds_sysDone .., rfl⟩
    rw [show number s a = fn from nx, show number s b = _ from ny, preemptArgs_all lo hi small, deepest]
  case all =>
    have args : preemptArgs (number s a) (number s b) = some (fn, none, depth, dl) := by
      rw [show number s a = fn from nx, show number s b = _ from ny, preemptArgs_all lo hi small]
    obtain ⟨cur, spot⟩ := State.beginStops_spot depth (if depth = 2 then none else some (s.stopTime fn dl)) s.cur.core
      (s.residents fn) (s.updFn fn fun f => { f with suspended := true })
    refine ⟨_, exec_preempt_all d ready bound stops args, sysWaits_spot 1 cur spot, ?_⟩
    rw [State.fn_of_fns (State.sysPhase_rest ..).2.1, State.stopAll, State.fn_of_fns (State.beginStops_fns ..), State.fn_updFn]
  case quiet =>
    refine ⟨_, _, exec_preempt_quiet d phase bound stops (dl := dl) ?_ stopped, sysEnds_sysDone .., rfl⟩
    rw [show number s a = fn from nx, show number s b = _ from ny, preemptArgs_all lo hi small]
  case none =>
    refine ⟨_, exec_preempt_none d ready bound stops (dl := dl) ?_ owns free, sysEnds_sysDone ..⟩
    rw [show number s a = _ from nx, show number s b = _ from ny, preemptArgs_one lo hi onDie onCore small]
  case one =>
    have args : preemptArgs (number s a) (number s b) = some (fn, some c, depth, dl) := by
      rw [show number s a = _ from nx, show number s b = _ from ny, preemptArgs_one lo hi onDie onCore small]
    obtain ⟨by_, run⟩ := exec_preempt_one d ready bound stops args owns task
    obtain ⟨cur, pc, belt, named⟩ := State.beginStops_spot depth by_ s.cur.core k.members s
    rw [cur] at run
    refine ⟨_, run, sysWaits_noting 1 _ (by rw [cur]) pc belt named, fun m member w held alive free => ?_⟩
    obtain ⟨v, stands, -, -, stops⟩ := State.beginStops_halting (depth := depth) (b := by_) (begun := false) k.members held ⟨alive, free, nofun⟩ (.inl member)
    have kept := (State.sysPhase_stopping ((s.beginStops depth by_ k.members).updSeq s.cur.core fun q =>
      { q with sweep := [k.wq, k.rseq, k.tseq] }) 1 m).trans (congrArg (Option.map Task.stopping) (State.updSeq_task ..))
    rw [stands] at kept
    obtain ⟨o, there, same⟩ := Option.map_eq_some_iff.mp kept
    rw [there, Option.any_some, same, stops rfl, beq_self_eq_true]
  case stopped =>
    refine ⟨_, exec_preempt_stopped d phase bound stops (dl := dl) ?_ owns task sweep fun m member => ?_, sysEnds_sysDone ..⟩
    · rw [show number s a = _ from nx, show number s b = _ from ny, preemptArgs_one lo hi onDie onCore small]
    · obtain ⟨w, held, stopped⟩ := halted m member
      simp [Core.halts, held, stopped]
  case spill =>
    exact ⟨_, exec_spill_first d args area bound task own stopped ready, sysWaits_walked 1 (.refl s)⟩
  case save =>
    obtain ⟨cur, spot⟩ := s.sysWrite_spot (number s b) (s.areaBytes c k) s.cur.core
    exact ⟨_, exec_spill_save d args area bound task own stopped phase, sysWaits_written 2 cur spot⟩
  case leave =>
    obtain ⟨free, away⟩ := State.vacate_saved task (some (number s b))
    exact ⟨_, _, exec_spill_last d args area bound task own stopped phase written, sysEnds_sysDone .., free, own ▸ away⟩
  case restore =>
    obtain ⟨cur, cores⟩ := s.areaRead_stands fn c (number s b) v
    obtain ⟨stays, seqs, label, -⟩ := (s.areaRead fn c (number s b) v).revive_spec c (s.readArea (number s b) v)
      (v.task.restored (s.mem8 (number s b + 8)))
    refine ⟨_, exec_restore_first d ready args area bound good who free owns saved quiet, ?_, ?_⟩
    · refine sysWaits_spot 1 (stays.trans cur) (.of_seq ((seqs _ slot).trans ?_))
      rw [State.seq, State.core, cores]
      rfl
    · rw [State.sysPhase_core_ne _ (by rw [stays, cur]; exact slot.symm)]
      obtain ⟨w, there, same⟩ := Option.map_eq_some_iff.mp label
      simp only [Task.label, Task.restored, Prod.mk.injEq] at same
      obtain ⟨sameRseq, sameTseq, alive⟩ := same
      simp [there, sameRseq, sameTseq, alive]
  case restored => exact ⟨_, exec_restore_last d phase args settled, sysEnds_sysDone ..⟩
  case read =>
    obtain ⟨cur, spot⟩ := s.sysWrite_spot (number s b) (s.unitBlock c unit) s.cur.core
    exact ⟨_, exec_snaprd_first d first last field args block bound ready holds, sysWaits_written 1 cur spot⟩
  case written => exact ⟨_, exec_snaprd_last d first last field args block bound phase written, sysEnds_sysDone ..⟩

end Sys2Proof.Machine
end

section
/-! SUPPORT. FNBIND (R337, R343, R370): a binding, and its end. -/

namespace Sys2Proof.Machine

open Sys2Proof Sys2Proof.Safety

section
variable {s : State} {a b : Src} (d : Dest) {fn : Nat}

theorem exec_fnbind (ready : SysReady s [a, b]) (lo : 1 ≤ fn) (hi : fn ≤ 48) (args : number s a = fn)
    (good : s.bindStatus fn (number s b) = 0) : exec (.fnbind a b d) s
    = .next (((s.bindFn fn (number s b)).pmEnd [1, 2] fn 0).sysDone [a, b] d 0 0) := by
  have e1 : bits fn 0 8 = fn := by simp only [bits]; omega
  have e2 : bits fn 8 1 = 0 := by simp only [bits]; omega
  have e3 : fn / 2 ^ 9 = 0 := by omega
  simp only [exec, execFnbind, State.sysWord_ready ready, State.opd_toNat, args, e1, e2, e3, sliceFn_of_range lo hi, good,
    Bool.not_true, bne_self_eq_false, Bool.or_self, Bool.false_eq_true, if_false, Nat.zero_ne_one]

theorem exec_fnbind_unbind (ready : SysReady s [a, b]) (lo : 1 ≤ fn) (hi : fn ≤ 48) (args : number s a = fn + 2 ^ 8)
    (none : number s b = 0) (bound : (s.fn fn).bound = true) (free : s.inUse fn = false) (unlocked : (s.fn fn).tdisp = .unlocked) :
    exec (.fnbind a b d) s = .next (((s.unbindFn fn).pmEnd [1, 2] fn 0).sysDone [a, b] d 0 0) := by
  have e1 : bits (fn + 2 ^ 8) 0 8 = fn := by simp only [bits]; omega
  have e2 : bits (fn + 2 ^ 8) 8 1 = 1 := by simp only [bits]; omega
  have e3 : (fn + 2 ^ 8) / 2 ^ 9 = 0 := by omega
  have unlock : s.locked fn = false := by rw [State.locked, unlocked]; rfl
  simp only [exec, execFnbind, State.sysWord_ready ready, State.opd_toNat, args, none, e1, e2, e3, sliceFn_of_range lo hi, bound, free,
    unlock, Bool.not_true, bne_self_eq_false, Bool.or_self, Bool.false_eq_true, if_false, if_true, ne_eq, not_true]

end

/-- A function as a descriptor binds it, its first record not yet in its chain. -/
def State.newFn (s : State) (pa : Nat) (f : Func) : Func :=
  { f.unbound.described (s.sysRead pa 128) with
    bound := true
    key := s.nextKey
    exportKey := s.nextKey + 1
    keyEpoch := 1
    meters := List.replicate 16 0
    chainOpen := true }

theorem State.bindFn_fn (s : State) (fn pa : Nat) : ∃ rec, (s.bindFn fn pa).fn fn = (s.newFn pa (s.fn fn)).chain rec :=
  ⟨_, (State.chainAppend_fn _ fn 0).trans (congrArg (Func.chain · _) (State.fn_updFn s fn (s.newFn pa)))⟩

/-- What a binding leaves: the new function, two keys drawn, and everything else. -/
theorem State.bindFn_spec (s : State) (fn pa : Nat) :
    let u := s.bindFn fn pa
    (u.fn fn).bound = true ∧ (u.fn fn).key = s.nextKey ∧ (u.fn fn).exportKey = s.nextKey + 1 ∧ u.nextKey = s.nextKey + 2
      ∧ (u.fn fn).keyEpoch = 1 ∧ (u.fn fn).meters = List.replicate 16 0 ∧ (u.fn fn).chainOpen = true
      ∧ u.cores = s.cores ∧ u.mem = s.mem ∧ ∀ f, f ≠ fn → u.fn f = s.fn f := by
  intro u
  obtain ⟨rec, new⟩ := s.bindFn_fn fn pa
  refine ⟨?_, ?_, ?_, rfl, ?_, ?_, ?_, rfl, rfl, fun f other => ?_⟩
  case refine_7 => exact (State.chainAppend_fn_ne _ 0 other).trans (State.fn_updFn_ne s (s.newFn pa) other)
  all_goals rw [new]; rfl

/-- A change of every die that keeps its Freewheel entries. -/
theorem fw_mapDies {g : Nat → Die → Die} (keeps : ∀ k x, (g k x).fw = x.fw) (t : Tbl Die) (d : Nat) :
    (tget (t.map fun (p : Nat × Die) => (p.1, g p.1 p.2)) d Die.reset).fw = (tget t d Die.reset).fw := by
  rw [tget, tget, tfind_mapKey]
  cases tfind d t with
  | none => rfl
  | some x => exact keeps d x

theorem State.recountHolders_fw (s : State) (d : Nat) : (s.recountHolders.die d).fw = (s.die d).fw := by
  rw [State.recountHolders, State.die]
  exact fw_mapDies (g := fun _ x => { x with rep := x.rep.map _ }) (fun _ _ => rfl) s.dies d

theorem State.dropWays_beside (s : State) (fn : Nat) (m : BitVec 16) : (s.dropWays fn m).quads = s.quads
    ∧ ∀ d, ((s.dropWays fn m).die d).fw = (s.die d).fw := by
  rw [State.dropWays]
  generalize (s.slices.map fun (p : Nat × Slice) => (p.2.ways.filter fun (l : L2Line) => m.getLsbD l.way && l.dirty).length).sum = n
  have quads : ((s.meter fn 12 (128 * n)).telemeter fn 33 n).quads = s.quads := by
    rw [State.telemeter, State.meter]
    split <;> split <;> rfl
  have dies : ((s.meter fn 12 (128 * n)).telemeter fn 33 n).dies = s.dies := by
    rw [State.telemeter, State.meter]
    split <;> split <;> rfl
  generalize (s.meter fn 12 (128 * n)).telemeter fn 33 n = u at quads dies
  refine ⟨quads, fun d => ?_⟩
  have held : (u.die d).fw = (s.die d).fw := by rw [State.die, dies]; rfl
  rw [← held]
  exact (State.recountHolders_fw _ d).trans (fw_mapDies (g := fun k x => { x with
    replicas := x.replicas.filter fun (r : Replica) => !(u.replicasIn m k).contains r.line }) (fun _ _ => rfl) u.dies d)

/-- The end of a binding leaves no entry, page record or mark of the function, and every core and byte as it was. -/
theorem State.unbindFn_spec (s : State) (fn : Nat) :
    let u := s.unbindFn fn
    (u.fn fn).bound = false ∧ (u.fn fn).key = 0 ∧ (∀ e ∈ u.exports, e.fn ≠ fn) ∧ (∀ m ∈ u.failedMarks, m.1 ≠ fn)
      ∧ (∀ die, ∀ e ∈ (u.die die).fw, e.fn ≠ fn) ∧ u.cores = s.cores ∧ u.mem = s.mem := by
  obtain ⟨-, -, cores, mem⟩ := (s.dropFw fn fun _ => true).dropWays_spec fn (s.fn fn).waysOf
  obtain ⟨-, fw⟩ := (s.dropFw fn fun _ => true).dropWays_beside fn (s.fn fn).waysOf
  simp only [State.unbindFn]
  generalize (s.dropFw fn fun _ => true).dropWays fn (s.fn fn).waysOf = v at cores mem fw
  have new (w : State) : (w.updFn fn Func.unbound).fn fn = (w.fn fn).unbound := State.fn_updFn ..
  refine ⟨by rw [new]; rfl, by rw [new]; rfl, fun e there => ?_, fun m there => ?_, fun die e there own => ?_, cores, mem⟩
  · simpa using (List.mem_filter.mp there).2
  · simpa using (List.mem_filter.mp there).2
  · have held : e ∈ ((s.dropFw fn fun _ => true).die die).fw := by
      rw [← fw]
      exact there
    exact absurd (State.mem_dropFw held own) (by decide)

end Sys2Proof.Machine
end

section
/-! SUPPORT. MIGOUT, step by step (R366). -/

namespace Sys2Proof.Machine

open Sys2Proof Sys2Proof.Safety

/-! ## The word -/

theorem migArgs_step {fn n : Nat} (lo : 1 ≤ fn) (hi : fn ≤ 48) (step : n ≤ 5) : migArgs (fn + n * 2 ^ 8) = some (fn, n) := by
  have e1 : bits (fn + n * 2 ^ 8) 0 8 = fn := by simp only [bits]; omega
  have e2 : bits (fn + n * 2 ^ 8) 8 4 = n := by simp only [bits]; omega
  have e3 : (fn + n * 2 ^ 8) / 2 ^ 12 = 0 := by omega
  simp only [migArgs, e1, e2, e3, sliceFn_of_range lo hi]
  rfl

theorem migReads_two {sb : BitVec 5} {lb : Bool} {b : Src} (second : srcOf sb lb = .ok b) (a : Src) :
    migReads a sb lb true = some [a, b] := by
  simp only [migReads, second, if_true]

theorem migReads_one (a : Src) (sb : BitVec 5) (lb : Bool) : migReads a sb lb false = some [a] := rfl

/-- What a step of MIGOUT that is complete does: a request of PF0 ends with a status that is not zero. -/
def State.migDone (reads : List Src) (d : Dest) (a : Src) (s : State) (st v : Nat) : State :=
  (if st = 0 then s else s.pmEnd [5] (bits (number s a) 0 8) st).sysDone reads d st v

theorem State.migDone_good (reads : List Src) (d : Dest) (a : Src) (s : State) (v : Nat) :
    s.migDone reads d a 0 v = s.sysDone reads d 0 v := rfl

section
variable {s : State} {a b : Src} {sb : BitVec 5} {lb : Bool} (d : Dest) {fn n : Nat} {reads : List Src}

/-- A step of MIGOUT that may begin, or has begun, goes on. -/
theorem exec_migout (lo : 1 ≤ fn) (hi : fn ≤ 48) (step : n ≤ 5) (args : number s a = fn + n * 2 ^ 8)
    (operands : migReads a sb lb (decide (1 ≤ n ∧ n ≤ 3)) = some reads) (acts : ∀ go, s.sysWord reads go = go s)
    (bound : (s.fn fn).bound = true) (source : (s.fn fn).mig = false)
    (order : (s.seq s.cur.core).phase = 0 → migBefore n (s.fn fn).migStep = true) :
    exec (.migout a sb lb d) s
      = .next (s.migoutStep fn n (s.migB reads) (s.seq s.cur.core).phase (State.migDone reads d a)) := by
  have e1 : bits (fn + n * 2 ^ 8) 0 8 = fn := by simp only [bits]; omega
  have e2 : bits (fn + n * 2 ^ 8) 8 4 = n := by simp only [bits]; omega
  have late : ¬ 5 < n := by omega
  have due : ¬ ((s.seq s.cur.core).phase = 0 ∧ ((!migBefore n (s.fn fn).migStep) = true
      ∨ (s.fn fn).mig = true ∧ (s.fn fn).migStep ≠ 0)) := by
    rintro ⟨first, early | mine⟩
    · rw [order first] at early
      exact Bool.false_ne_true early
    · rw [source] at mine
      exact Bool.false_ne_true mine.1
  simp only [exec, execMigout, State.opd_toNat, args, e1, e2, operands, acts, migArgs_step lo hi step, late, if_false, bound,
    Bool.not_true, Bool.false_eq_true, if_neg due]
  rfl

end

/-! ## Step 1 -/

section
variable {s t : State} (h : FnsStand s t) (f : Nat)
include h

theorem FnsStand.migSession : (t.fn f).migSession = (s.fn f).migSession := by
  simpa only [Func.bare] using congrArg Func.migSession (h f)
theorem FnsStand.migStep : (t.fn f).migStep = (s.fn f).migStep := by simpa only [Func.bare] using congrArg Func.migStep (h f)
theorem FnsStand.quiesced : (t.fn f).quiesced = (s.fn f).quiesced := by
  simpa only [Func.bare] using congrArg Func.quiesced (h f)

end

theorem State.cleanLeaves_spec (ls : List (Nat × Nat × Nat × Nat)) : ∀ s : State,
    Walked s (s.cleanLeaves ls) ∧ FnsStand s (s.cleanLeaves ls) := by
  induction ls with
  | nil => exact fun s => ⟨.refl s, .refl s⟩
  | cons l ls ih =>
    intro s
    obtain ⟨walked, fns⟩ := ih (s.writeQuiet 1 l.2.2.1 (leBytes 8 (cleanEntry l.2.2.2)))
    exact ⟨(Walked.writeQuiet ..).trans walked, (Written.writeQuiet ..).fns.trans fns⟩

/-- The first step asks for a stage-2 invalidation of the pages that it cleans. -/
theorem State.migStart_spec (s : State) (fn : Nat) (m : Nat × Word × List Nat) : Walked s (s.migStart fn m)
    ∧ ((s.migStart fn m).fn fn).migSession = m.2.1
    ∧ ∃ v ∈ ((s.migStart fn m).fn fn).inval, v.stage2 = true ∧ v.stage = .waiting := by
  simp only [State.migStart]
  generalize (if (s.fn fn).migStep = 0 then s.mapped fn else (s.mapped fn).filter dirtyLeaf) = pages
  have noted : Walked s (s.updFn fn fun f =>
      { f with migPeer := BitVec.ofNat 6 m.1, migSession := m.2.1, migMap := m.2.2, mig := false }) :=
    .updFn s fn _ fun _ => .of_eq ⟨rfl, rfl, rfl, rfl, rfl, rfl⟩
  have session : ((s.updFn fn fun f => { f with
      migPeer := BitVec.ofNat 6 m.1, migSession := m.2.1, migMap := m.2.2, mig := false }).fn fn).migSession = m.2.1 := by
    rw [State.fn_updFn]
  generalize (s.updFn fn fun f => { f with
    migPeer := BitVec.ofNat 6 m.1, migSession := m.2.1, migMap := m.2.2, mig := false }) = u at noted session
  obtain ⟨cleaned, fns⟩ := State.cleanLeaves_spec pages u
  generalize u.cleanLeaves pages = w at cleaned fns
  refine ⟨(noted.trans cleaned).trans (.updFn w fn _ fun _ => .of_eq ⟨rfl, rfl, rfl, rfl, rfl, rfl⟩), ?_, ?_⟩
  · rw [State.askInval, State.fn_updFn, ← session, ← fns.migSession fn]
  · rw [State.askInval, State.fn_updFn]
    exact ⟨_, List.mem_append_right _ List.mem_cons_self, rfl, rfl⟩

/-! ## Step 2 -/

theorem State.parkQueue_stands (s : State) (fn wq : Nat) (f : Freeze) (cause marker : Nat) (urec : List Dbl) :
    (s.parkQueue fn wq f [] cause marker urec).cur = s.cur ∧ (s.parkQueue fn wq f [] cause marker urec).cores = s.cores := by
  rw [State.parkQueue]
  obtain ⟨_, _, rest⟩ := (s.parkFrozens f []).presentPark_rest fn wq
    ⟨marker, parkWords (parkHeader cause 5 false derailleur) 0 0 urec, none⟩
  rw [rest]
  exact ⟨rfl, rfl⟩

theorem State.parkQueues_stands (fn : Nat) (qs : List Nat) : ∀ s : State,
    (s.parkQueues fn qs).cur = s.cur ∧ (s.parkQueues fn qs).cores = s.cores := by
  induction qs with
  | nil => exact fun _ => ⟨rfl, rfl⟩
  | cons q qs ih =>
    intro s
    rw [State.parkQueues]
    obtain ⟨cur, cores⟩ := ih (if (s.wq fn q).att.isSome then s.parkQueue fn q .park [] 0x22 parkAll [] else s)
    have first : (if (s.wq fn q).att.isSome then s.parkQueue fn q .park [] 0x22 parkAll [] else s).cur = s.cur
        ∧ (if (s.wq fn q).att.isSome then s.parkQueue fn q .park [] 0x22 parkAll [] else s).cores = s.cores := by
      split
      · exact State.parkQueue_stands ..
      · exact ⟨rfl, rfl⟩
    exact ⟨cur.trans first.1, cores.trans first.2⟩

/-- A function that enters ERROR without a freeze stop leaves every core as it is. -/
theorem State.enterError_stands (s : State) (fn reason : Nat) :
    (s.enterError fn reason false).cur = s.cur ∧ (s.enterError fn reason false).cores = s.cores := by
  rw [State.enterError]
  generalize List.range 8 = qs
  split
  · simp only [Bool.false_and, Bool.false_eq_true, if_false]
    exact State.parkQueues_stands fn qs _
  · exact ⟨rfl, rfl⟩

/-- The second step stops the function's tasks; no sequencer leaves its place. -/
theorem State.migStop_spec (s : State) (fn deadline k : Nat) : (s.migStop fn deadline).cur = s.cur
    ∧ SpotKept k s (s.migStop fn deadline) ∧ ((s.migStop fn deadline).fn fn).migrating = true
    ∧ ((s.migStop fn deadline).fn fn).suspended = true := by
  obtain ⟨cur, cores⟩ := s.enterError_stands fn 0x04
  simp only [State.migStop]
  generalize s.enterError fn 0x04 false = u at cur cores
  have seq : u.seq k = s.seq k := by rw [State.seq, State.core, cores]; rfl
  obtain ⟨later, spot⟩ := State.beginStops_spot 0 (some (u.stopTime fn deadline)) k (u.residents fn)
    (u.updFn fn fun f => { f with suspended := true })
  have fns : (u.stopAll fn 0 deadline).fns = (u.updFn fn fun f => { f with suspended := true }).fns := State.beginStops_fns ..
  have stopped : u.stopAll fn 0 deadline = (u.updFn fn fun f => { f with suspended := true }).beginStops 0
    (some (u.stopTime fn deadline)) (u.residents fn) := rfl
  refine ⟨later.trans cur, ?_, by rw [State.fn_updFn], ?_⟩
  · exact SpotKept.trans (.of_seq seq) spot
  · rw [State.fn_updFn, State.fn_of_fns fns, State.fn_updFn]

/-- What leaves the stopped tasks leaves every sequencer as it is. -/
theorem Walked.dropInvLines (fn : Nat) (v : Inval) (l : List Nat) : ∀ s : State, Walked s (s.dropInvLines fn v l) := by
  induction l with
  | nil => exact .refl
  | cons c l ih =>
    intro s
    have dropped (u : State) : Walked u (u.updCore c fun x => { x with
        copy := { x.copy with lines := x.copy.lines.filter fun l => !v.namesLine fn l } }) :=
      .updCore u c _ fun _ => ⟨rfl, rfl, rfl⟩
    rw [State.dropInvLines]
    have written := Walked.flushed (Flushed.writeBackList s c 0
      (((s.core c).copy.lines.filter (v.namesLine fn)).filter fun l => l.dirty != 0))
    exact (written.trans (dropped _)).trans (ih _)

theorem Walked.deliverInv (fn : Nat) (v : Inval) (l : List Nat) : ∀ s : State, Walked s (s.deliverInv fn v l) := by
  induction l with
  | nil => exact .refl
  | cons c l ih => exact fun s => (Walked.deliverSlots c _ s).trans (ih _)

theorem Walked.deliverSavedInv (fn : Nat) (v : Inval) (l : List Saved) : ∀ s : State, Walked s (s.deliverSavedInv fn v l) := by
  induction l with
  | nil => exact .refl
  | cons w l ih =>
    intro s
    rw [State.deliverSavedInv]
    refine Walked.trans ?_ (ih _)
    generalize (List.range 64).filter (fun i => v.namesSlot (s.rootOf fn w.task.wq) (w.core.resTag i)) = slots
    have sent := Walked.foldl (fun (s : State) i => s.deliverSaved w.place w false i) (fun s i => .deliverSaved ..) slots s
    generalize slots.foldl (fun (s : State) i => s.deliverSaved w.place w false i) s = u at sent
    generalize slots.foldl (fun (x : Core) i => x.emptySlot i) w.core = x
    have emptied : Walked u (u.updFn fn fun f => { f with
        away := f.away.map fun (k : Saved) => if k == w then { k with core := x } else k }) :=
      .updFn u fn _ fun y => ⟨⟨rfl, rfl, rfl, rfl⟩, fun _ => ⟨rfl, rfl, rfl, rfl, rfl⟩, fun _ r h => ⟨r, h, rfl⟩,
        fun k there => ⟨_, List.mem_map_of_mem there, by split <;> exact ⟨rfl, rfl, rfl⟩⟩⟩
    split
    · exact sent.trans emptied
    · exact (sent.trans emptied).trans (.foldl _ (fun s i => .writeQuiet ..) slots _)

theorem Walked.flushInval (s : State) (fn : Nat) (v : Inval) : Walked s (s.flushInval fn v) :=
  ((Walked.dropInvLines ..).trans (.deliverInv ..)).trans (.deliverSavedInv ..)

end Sys2Proof.Machine
end

section
/-! SUPPORT. What MIGOUT sends, and what it gives up (R366, steps 3 and 5). -/

namespace Sys2Proof.Machine

open Sys2Proof Sys2Proof.Safety

/-! ## Step 3 -/

/-- Messages have left, and none is taken back. -/
def Sends (s t : State) : Prop := ∃ l, t.out = s.out ++ l

theorem Sends.of_out {s t : State} (out : t.out = s.out) : Sends s t := ⟨[], by rw [out, List.append_nil]⟩

theorem Sends.trans {s t u : State} (h : Sends s t) (k : Sends t u) : Sends s u := by
  obtain ⟨l, first⟩ := h
  obtain ⟨m, later⟩ := k
  exact ⟨l ++ m, by rw [later, first, List.append_assoc]⟩

theorem Sends.toPeer (s : State) (fn tag : Nat) (bs : List Byte) : Sends s (s.toPeer fn tag bs) := ⟨_, rfl⟩

theorem Sends.chainAppend (s : State) (fn kind : Nat) : Sends s (s.chainAppend fn kind) := .of_out rfl

theorem Sends.sendPages (fn : Nat) (ls : List (Nat × Nat × Nat × Nat)) : ∀ s : State, Sends s (s.sendPages fn ls) := by
  induction ls with
  | nil => exact fun _ => .of_out rfl
  | cons l ls ih => exact fun s => (Sends.toPeer s fn 1 _).trans (ih _)

theorem Sends.sendAreas (fn : Nat) (ls : List (List Byte)) : ∀ s : State, Sends s (s.sendAreas fn ls) := by
  induction ls with
  | nil => exact fun _ => .of_out rfl
  | cons l ls ih => exact fun s => (Sends.toPeer s fn 2 _).trans (ih _)

theorem Sends.sendRows (fn : Nat) (ls : List (Nat × Nat)) : ∀ s : State, Sends s (s.sendRows fn ls) := by
  induction ls with
  | nil => exact fun _ => .of_out rfl
  | cons l ls ih => exact fun s => (Sends.toPeer s fn 3 _).trans (ih _)

theorem Sends.sendEvicted (fn : Nat) (ls : List Evicted) : ∀ s : State, Sends s (s.sendEvicted fn ls) := by
  induction ls with
  | nil => exact fun _ => .of_out rfl
  | cons l ls ih => exact fun s => (Sends.toPeer s fn 3 _).trans (ih _)

theorem Sends.sendQueues (fn : Nat) (ls : List (Nat × WorkQueue)) : ∀ s : State, Sends s (s.sendQueues fn ls) := by
  induction ls with
  | nil => exact fun _ => .of_out rfl
  | cons l ls ih =>
    intro s
    rw [State.sendQueues]
    refine Sends.trans ?_ ((Sends.toPeer _ fn 5 _).trans (ih _))
    split
    · exact .toPeer ..
    · exact .of_out rfl

theorem Sends.migSend (s : State) (fn : Nat) : Sends s (s.migSend fn) := by
  simp only [State.migSend]
  refine Sends.trans (Sends.trans ?_ (.chainAppend ..)) (.toPeer ..)
  exact (((Sends.sendPages ..).trans (.sendAreas ..)).trans ((Sends.sendRows ..).trans (.sendEvicted ..))).trans (.sendQueues ..)

/-! ## Step 5 -/

theorem State.quad_owner_mem {s : State} {fn q : Nat} (own : (s.quad q).owner = some fn) : q ∈ s.quadsOf fn := by
  cases found : tfind q s.quads with
  | none =>
    rw [State.quad, tget, found] at own
    exact nomatch own
  | some x =>
    rw [State.quad, tget, found] at own
    refine List.mem_map.mpr ⟨(q, x), List.mem_filter.mpr ⟨mem_of_tfind found, ?_⟩, rfl⟩
    simpa using own

theorem State.zeroQuads_cons (s : State) (q : Nat) (qs : List Nat) : s.zeroQuads (q :: qs)
    = (((List.range 232).foldl (fun s r => s.zeroRow q r) s).freeQuad q).zeroQuads qs := by
  delta State.zeroQuads
  rfl

theorem State.zeroQuads_beside {k : Nat} (qs : List Nat) : ∀ s : State, k ∉ qs → (s.zeroQuads qs).quad k = s.quad k := by
  induction qs with
  | nil => exact fun _ _ => rfl
  | cons q qs ih =>
    intro s away
    have other : k ≠ q := List.ne_of_not_mem_cons away
    rw [State.zeroQuads_cons, ih _ (List.not_mem_of_not_mem_cons away)]
    generalize List.range 232 = rs
    have rows : QuadsBeside q s (rs.foldl (fun s r => s.zeroRow q r) s) := .foldl _ (fun s r => .zeroRow s q r) rs s
    rw [QuadsBeside.freeQuad _ q k other, rows k other]

/-- Quads given up have no owner. -/
theorem State.disown_owner (k : Nat) (qs : List Nat) : ∀ s : State,
    ((qs.foldl (fun s q => s.updQuad q fun x => { x with owner := none }) s).quad k).owner
      = if k ∈ qs then none else (s.quad k).owner := by
  induction qs with
  | nil => exact fun s => (if_neg List.not_mem_nil).symm
  | cons q qs ih =>
    intro s
    rw [List.foldl_cons, ih]
    by_cases same : k = q
    · rw [same, State.quad_updQuad, if_pos List.mem_cons_self, ite_self]
    · simp only [List.mem_cons, same, false_or, State.quad_updQuad_ne _ _ same]

/-- What the last step leaves of the function: neither key nor queues, and no quad. -/
theorem State.migRelease_spec (s : State) (fn : Nat) : ((s.migRelease fn).fn fn).queues = [] ∧ ((s.migRelease fn).fn fn).key = 0
    ∧ ((s.migRelease fn).fn fn).migStep = 0 ∧ ∀ q, ((s.migRelease fn).quad q).owner ≠ some fn := by
  rw [State.migRelease]
  generalize s.scrapCores fn (s.coresWith fn) = u
  have owners (q : Nat) : (((u.quadsOf fn).foldl (fun s q => s.updQuad q fun x => { x with owner := none })
      (u.zeroQuads (u.quadsOf fn))).quad q).owner ≠ some fn := by
    rw [State.disown_owner]
    split
    · exact fun h => nomatch h
    · rename_i away
      rw [State.zeroQuads_beside _ u away]
      exact fun own => away (State.quad_owner_mem own)
  dsimp only
  generalize (u.quadsOf fn).foldl (fun s q => s.updQuad q fun x => { x with owner := none }) (u.zeroQuads (u.quadsOf fn)) = v at owners
  obtain ⟨quads, -⟩ := (v.dropWalks fn).dropWays_beside fn (v.fn fn).waysOf
  generalize (v.dropWalks fn).dropWays fn (v.fn fn).waysOf = w at quads
  have owned (q : Nat) : w.quad q = v.quad q := by
    rw [State.quad, quads]
    rfl
  refine ⟨by rw [State.fn_updFn], by rw [State.fn_updFn], by rw [State.fn_updFn], fun q => ?_⟩
  rw [State.updFn_quad, owned]
  exact owners q

end Sys2Proof.Machine
end

section
/-! SUPPORT. MIGIN, step by step, and the arrival of a page (R367). -/

namespace Sys2Proof.Machine

open Sys2Proof Sys2Proof.Safety

theorem FnsStand.mig {s t : State} (h : FnsStand s t) (f : Nat) : (t.fn f).mig = (s.fn f).mig := by
  simpa only [Func.bare] using congrArg Func.mig (h f)

theorem FnsStand.updWq (s : State) (fn wq : Nat) (g : WorkQueue → WorkQueue) : FnsStand s (s.updWq fn wq g) :=
  .updFn s fn (fun x => { x with queues := tset wq (g (x.queue wq)) x.queues }) fun _ => rfl

/-! ## The word -/

section
variable {s : State} {a b : Src} {sb : BitVec 5} {lb : Bool} (d : Dest) {fn : Nat}

theorem exec_migin_bind {u : State} (ready : SysReady s [a, b]) (lo : 1 ≤ fn) (hi : fn ≤ 48) (args : number s a = fn + 1 * 2 ^ 8)
    (second : srcOf sb lb = .ok b) (binds : s.migBind fn (number s b) = (0, u)) :
    exec (.migin a sb lb d) s = .next (u.useFree.sysDone [a, b] d 0 u.freeNat) := by
  have e2 : bits (fn + 1 * 2 ^ 8) 8 4 = 1 := by simp only [bits]; omega
  have given : s.migB [a, b] = number s b := s.opd_toNat b
  simp only [exec, execMigin, State.opd_toNat, args, e2, decide_true, migReads_two second, State.sysWord_ready ready,
    migArgs_step lo hi (show 1 ≤ 5 by decide), ne_eq, not_true, false_and, if_false, given, binds, if_true]

theorem exec_migin_place (ready : SysReady s [a]) (lo : 1 ≤ fn) (hi : fn ≤ 48) (args : number s a = fn + 3 * 2 ^ 8)
    (bound : (s.fn fn).bound = true) (here : (s.fn fn).mig = true) (last : (s.fn fn).migStep = 1) :
    exec (.migin a sb lb d) s = .next (((s.migPlace fn).migStepDone fn 3).useFree.sysDone [a] d 0
      ((s.migPlace fn).migStepDone fn 3).freeNat) := by
  have e2 : bits (fn + 3 * 2 ^ 8) 8 4 = 3 := by simp only [bits]; omega
  have single : migReads a sb lb (decide (3 = 1)) = some [a] := rfl
  simp only [exec, execMigin, State.opd_toNat, args, e2, single, State.sysWord_ready ready, migArgs_step lo hi (show 3 ≤ 5 by decide),
    bound, here, last]
  rfl

theorem exec_migin_restore (ready : SysReady s [a]) (lo : 1 ≤ fn) (hi : fn ≤ 48) (args : number s a = fn + 5 * 2 ^ 8)
    (bound : (s.fn fn).bound = true) (here : (s.fn fn).mig = true) (last : (s.fn fn).migStep = 3) :
    let u := (((s.migRestore (s.fn fn).away).migStepDone fn 0).migOpen fn).pmEnd [6] fn 0
    exec (.migin a sb lb d) s = .next (u.useFree.sysDone [a] d 0 u.freeNat) := by
  intro u
  have e2 : bits (fn + 5 * 2 ^ 8) 8 4 = 5 := by simp only [bits]; omega
  have single : migReads a sb lb (decide (5 = 1)) = some [a] := rfl
  simp only [exec, execMigin, State.opd_toNat, args, e2, single, State.sysWord_ready ready, migArgs_step lo hi (show 5 ≤ 5 by decide),
    bound, here, last]
  rfl

end

/-! ## Step 1 -/

theorem State.mapQuads_bound {fn : Nat} : ∀ (qs : List Nat) {s u : State}, s.mapQuads fn qs = some u →
    (u.fn fn).bound = (s.fn fn).bound
  | [], _, _, mapped => by
    cases mapped
    rfl
  | q :: qs, s, u, mapped => by
    rw [State.mapQuads] at mapped
    split at mapped
    · cases mapped
    · rw [State.mapQuads_bound qs mapped, State.fn_updFn]
      rfl

theorem FnsStand.migAttach (fn : Nat) (map : List Nat) (l : List (Nat × WorkQueue)) : ∀ s : State,
    FnsStand s (s.migAttach fn map l) := by
  induction l with
  | nil => exact .refl
  | cons p l ih =>
    intro s
    rw [State.migAttach]
    refine FnsStand.trans ?_ (ih _)
    split
    · exact .updWq s fn _ _
    · exact .refl s

theorem State.slmapQuads_bound (s : State) (fn : Nat) (qs : List Nat) :
    ((s.slmapQuads fn qs).2.fn fn).bound = (s.fn fn).bound := by
  simp only [State.slmapQuads]
  split
  · rfl
  · split
    · rfl
    · split
      · rfl
      · rename_i mapped
        exact State.mapQuads_bound qs mapped

/-- A binding as a destination. -/
theorem State.migBind_spec {s u : State} {fn b : Nat} (binds : s.migBind fn b = (0, u)) :
    (u.fn fn).bound = true ∧ (u.fn fn).mig = true ∧ (u.fn fn).migStep = 1 := by
  simp only [State.migBind] at binds
  split at binds
  · cases binds
  · split at binds
    · cases binds
    · rename_i peer session map _ _ qs _
      split at binds
      · rename_i refused
        exact absurd (congrArg Prod.fst binds) refused
      · obtain ⟨bound, -⟩ := s.bindFn_spec fn b
        generalize s.bindFn fn b = w at binds bound
        split at binds
        · rename_i refused
          exact absurd (congrArg Prod.fst binds) refused
        · have kept := w.slmapQuads_bound fn qs
          generalize (w.slmapQuads fn qs).2 = v at binds kept
          obtain rfl := (Prod.mk.inj binds).2
          have fns := FnsStand.migAttach fn map (Config.migQueues session) (v.updFn fn fun f => { f with
            mig := true, suspended := true, migStep := 1, migPeer := BitVec.ofNat 6 peer, migSession := session, migMap := map,
            keyEpoch := Config.migEpoch session + 1 })
          rw [fns.bound, fns.mig, fns.migStep, State.fn_updFn]
          exact ⟨kept.trans bound, rfl, rfl⟩

/-! ## Step 3 -/

theorem FnsStand.migRowsIn (fn : Nat) (session : Word) (map : List Nat) (l : List (Nat × Nat × Row × Tag × Bool)) : ∀ s : State,
    FnsStand s (s.migRowsIn fn session map l) := by
  induction l with
  | nil => exact .refl
  | cons p l ih =>
    intro s
    obtain ⟨q, r, o, t, p⟩ := p
    rw [State.migRowsIn]
    refine FnsStand.trans ?_ (ih _)
    exact (Written.writeQuiet ..).fns.trans (.updFn _ fn _ fun _ => rfl)

theorem FnsStand.migQueuesIn (fn : Nat) (l : List (Nat × WorkQueue)) : ∀ s : State, FnsStand s (s.migQueuesIn fn l) := by
  induction l with
  | nil => exact .refl
  | cons p l ih =>
    intro s
    rw [State.migQueuesIn]
    refine FnsStand.trans ?_ (ih _)
    have taken : FnsStand s (if p.1 < 8 then s.updWq fn p.1 fun x => { p.2 with att := x.att } else s) := by
      split
      · exact .updWq s fn _ _
      · exact .refl s
    split
    · exact taken.trans (.of_fns (State.msix_fns ..))
    · exact taken

/-- The third step leaves the function quiesced. -/
theorem State.migPlace_quiesced (s : State) (fn : Nat) : ((s.migPlace fn).fn fn).quiesced = true := by
  rw [State.migPlace, State.chainAppend_fn]
  refine ((FnsStand.migRowsIn fn _ _ _ _).trans (.migQueuesIn fn _ _)).quiesced fn |>.trans ?_
  rw [State.fn_updFn]

/-! ## Step 5 -/

theorem FnsStand.migRestore (vs : List Saved) : ∀ s : State, FnsStand s (s.migRestore vs) := by
  induction vs with
  | nil => exact .refl
  | cons v vs ih =>
    intro s
    rw [State.migRestore]
    refine FnsStand.trans ?_ (ih _)
    split
    · obtain ⟨-, -, -, fns⟩ := s.revive_spec v.place v { v.task with stopped := none, stopping := none, stopBy := none }
      exact fns
    · exact .refl s

theorem State.pmEnd_fns (s : State) (ops : List Nat) (fn st : Nat) : (s.pmEnd ops fn st).fns = s.fns := by
  obtain ⟨p, -, ended⟩ := s.pmEnd_cases ops fn st
  rw [ended]

theorem State.migOpen_fn (s : State) (fn : Nat) : (s.migOpen fn).fn fn = if (s.fn fn).prot then s.fn fn
    else { (s.fn fn).fold with suspended := false, quiesced := false, mig := false } := by
  rw [State.migOpen]
  split
  · rfl
  · rw [State.fn_updFn, State.releaseFn, State.fn_updFn]

/-- The last step ends the migration, and lets the function go on unless it is protected. -/
theorem State.migOpen_spec {s : State} {fn : Nat} (ended : (s.fn fn).migStep = 0) : ((s.migOpen fn).fn fn).migStep = 0
    ∧ ((s.fn fn).prot = false → ((s.migOpen fn).fn fn).mig = false ∧ ((s.migOpen fn).fn fn).suspended = false) := by
  rw [State.migOpen_fn]
  split
  · rename_i closed
    exact ⟨ended, fun free => absurd (closed.symm.trans free) (by decide)⟩
  · exact ⟨ended, fun _ => ⟨rfl, rfl⟩⟩

/-! ## A page arrives -/

theorem exec_migrationPageArrival {s : State} {fn ipa : Nat} {page : List Byte} {rest : List HostMsg} {l : Leaf}
    (inbox : s.inbox = .migrationPageArrival fn ipa page :: rest) (bound : (s.fn fn).bound = true) (here : (s.fn fn).mig = true)
    (begun : (s.fn fn).migStep ≠ 0) (mapped : s.walk2 fn ipa = .ok l) : exec .migrationPageArrival s
    = .next ({ s with inbox := rest }.writeQuiet (if isHbm l.out then (s.fn fn).key else 0) l.out page) := by
  have open_ : ¬ (!(s.fn fn).bound || !(s.fn fn).mig || decide ((s.fn fn).migStep = 0)) = true := by
    rw [bound, here, decide_eq_false begun]
    exact Bool.false_ne_true
  have walks : State.walk2 { s with inbox := rest } fn ipa = .ok l := mapped
  have fn_eq : State.fn { s with inbox := rest } fn = s.fn fn := rfl
  simp only [exec, execMigrationPageArrival, inbox, State.pageArrives, fn_eq, walks]
  rw [if_neg open_]

end Sys2Proof.Machine
end

section
/-! PROOF. FNBIND, MIGOUT, MIGIN and the arrival of a page (R337, R343, R366, R367, R370, R375). -/

namespace Sys2Proof.Machine

open Sys2Proof Sys2Proof.Safety

/-! ## The steps of MIGOUT -/

section
variable {s : State} {a b : Src} {sb : BitVec 5} {lb : Bool} {d : Dest} {fn n : Nat}

/-- A step of MIGOUT is complete, and its number is noted. -/
def MigoutEnds (s : State) (a : Src) (sb : BitVec 5) (lb : Bool) (d : Dest) (fn n : Nat) (reads : List Src) (p : State → Prop) :
    Prop :=
  ∃ u t v, exec (.migout a sb lb d) s = .next t ∧ SysEnds u t reads d 0 v ∧ (u.fn fn).migStep = n ∧ p u

variable (lo : 1 ≤ fn) (hi : fn ≤ 48) (bound : (s.fn fn).bound = true) (source : (s.fn fn).mig = false)
include lo hi bound source

theorem migout_abort (args : number s a = fn + 0 * 2 ^ 8) (ready : SysReady s [a]) (begun : (s.fn fn).migStep ≠ 0) :
    MigoutEnds s a sb lb d fn 0 [a] fun u => (u.fn fn).migrating = false ∧ (u.fn fn).suspended = false ∧ u.cores = s.cores
      ∧ u.mem = s.mem := by
  have run := exec_migout d lo hi (by decide) args (migReads_one a sb lb) (State.sysWord_ready ready) bound source
    fun _ => by rw [migBefore]; exact bne_iff_ne.mpr begun
  have left : (s.migAbort fn).fn fn
      = { (s.fn fn).fold with suspended := false, quiesced := false, migrating := false, migStep := 0 } := by
    rw [State.migAbort, State.fn_updFn, State.releaseFn, State.fn_updFn]
  exact ⟨s.migAbort fn, _, 0, run, sysEnds_sysDone .., by rw [left], by rw [left], by rw [left], rfl, rfl⟩

section
variable (second : srcOf sb lb = .ok b)
include second

theorem migout_clean (args : number s a = fn + 1 * 2 ^ 8) {m : Nat × Word × List Nat} (ready : SysReady s [a, b])
    (last : (s.fn fn).migStep ≤ 1) (desc : s.migDesc (number s b) = some m) (home : ∀ e ∈ s.exports, e.fn ≠ fn)
    (up : s.fabricDown = false) : ∃ t, exec (.migout a sb lb d) s = .next t ∧ SysWaits s t 1
      ∧ (t.fn fn).migSession = m.2.1 ∧ ∃ v ∈ (t.fn fn).inval, v.stage2 = true ∧ v.stage = .waiting := by
  have run := exec_migout d lo hi (by decide) args (migReads_two second a) (State.sysWord_ready ready) bound source
    fun _ => by rw [migBefore]; exact decide_eq_true last
  have given : s.migB [a, b] = number s b := s.opd_toNat b
  have none : (s.exports.any fun e => e.fn == fn) = false := by
    simp only [List.any_eq_false, beq_iff_eq]
    exact home
  simp only [State.migoutStep, sysReady_phase ready, given, desc, none, up, Bool.false_eq_true, if_false, Nat.zero_ne_one] at run
  obtain ⟨walked, session, asked⟩ := s.migStart_spec fn m
  refine ⟨_, run, sysWaits_walked 1 walked, ?_⟩
  rw [State.fn_of_fns (State.sysPhase_rest ..).2.1]
  exact ⟨session, asked⟩

theorem migout_sent (args : number s a = fn + 1 * 2 ^ 8) (phase : (s.seq s.cur.core).phase = 1) (ended : s.invDone fn = true) :
    MigoutEnds s a sb lb d fn 1 [a, b] fun _ => True := by
  have later : (s.seq s.cur.core).phase ≠ 0 := by omega
  have run := exec_migout d lo hi (by decide) args (migReads_two second a) (State.sysWord_later later) bound source
    fun first => absurd first later
  simp only [State.migoutStep, phase, ended, if_true, State.migDone_good] at run
  refine ⟨_, _, _, run, sysEnds_sysDone .., ?_, trivial⟩
  rw [State.migStepDone, State.fn_updFn]

theorem migout_stop (args : number s a = fn + 2 * 2 ^ 8) (ready : SysReady s [a, b]) (last : (s.fn fn).migStep = 1) :
    ∃ t, exec (.migout a sb lb d) s = .next t ∧ SysWaits s t 1 ∧ (t.fn fn).migrating = true ∧ (t.fn fn).suspended = true := by
  have run := exec_migout d lo hi (by decide) args (migReads_two second a) (State.sysWord_ready ready) bound source
    fun _ => by rw [last]; rfl
  simp only [State.migoutStep, sysReady_phase ready, if_true] at run
  obtain ⟨cur, spot, migrating, suspended⟩ := s.migStop_spec fn (s.migB [a, b]) s.cur.core
  refine ⟨_, run, sysWaits_spot 1 cur spot, ?_⟩
  rw [State.fn_of_fns (State.sysPhase_rest ..).2.1]
  exact ⟨migrating, suspended⟩

theorem migout_drain (args : number s a = fn + 2 * 2 ^ 8) (phase : (s.seq s.cur.core).phase = 1) (stopped : s.allStopped fn = true) :
    ∃ t, exec (.migout a sb lb d) s = .next t ∧ SysWaits s t 2 := by
  have later : (s.seq s.cur.core).phase ≠ 0 := by omega
  have run := exec_migout d lo hi (by decide) args (migReads_two second a) (State.sysWord_later later) bound source
    fun first => absurd first later
  simp only [State.migoutStep, phase, stopped, if_true, if_false, Nat.one_ne_zero] at run
  exact ⟨_, run, sysWaits_walked 2 (.flushInval s fn ⟨true, 0, 0, [], true, .flush, none, false⟩)⟩

theorem migout_stopped (args : number s a = fn + 2 * 2 ^ 8) (phase : (s.seq s.cur.core).phase = 2) (ended : s.flushOver fn = true) :
    MigoutEnds s a sb lb d fn 2 [a, b] fun u => (u.fn fn).quiesced = true := by
  have later : (s.seq s.cur.core).phase ≠ 0 := by omega
  have run := exec_migout d lo hi (by decide) args (migReads_two second a) (State.sysWord_later later) bound source
    fun first => absurd first later
  simp only [State.migoutStep, phase, ended, if_true, if_false, OfNat.ofNat_ne_zero, OfNat.ofNat_ne_one,
    State.migDone_good] at run
  have left : ((s.quiesce fn).migStepDone fn 2).fn fn = { s.fn fn with quiesced := true, lastQuiesce := s.wall, migStep := 2 } := by
    rw [State.migStepDone, State.fn_updFn, State.quiesce, State.fn_updFn]
  exact ⟨_, _, _, run, sysEnds_sysDone .., congrArg Func.migStep left, congrArg Func.quiesced left⟩

theorem migout_send (args : number s a = fn + 3 * 2 ^ 8) {m : Nat × Word × List Nat} (ready : SysReady s [a, b])
    (last : (s.fn fn).migStep = 2) (desc : s.migDesc (number s b) = some m) (up : s.fabricDown = false) :
    MigoutEnds s a sb lb d fn 3 [a, b] fun u => ∃ l, u.out = s.out ++ l := by
  have run := exec_migout d lo hi (by decide) args (migReads_two second a) (State.sysWord_ready ready) bound source
    fun _ => by rw [last]; rfl
  have given : s.migB [a, b] = number s b := s.opd_toNat b
  simp only [State.migoutStep, given, desc, up, Bool.false_eq_true, if_false, State.migDone_good] at run
  have sent := Sends.migSend (s.updFn fn fun f => { f with
    migPeer := BitVec.ofNat 6 m.1, migSession := m.2.1, migMap := m.2.2 }) fn
  have noted (u : State) : ((u.migStepDone fn 3).fn fn).migStep = 3 := by rw [State.migStepDone, State.fn_updFn]
  exact ⟨_, _, _, run, sysEnds_useFree .., noted _, sent⟩

end

theorem migout_forget (args : number s a = fn + 4 * 2 ^ 8) (ready : SysReady s [a]) (last : (s.fn fn).migStep = 3) :
    MigoutEnds s a sb lb d fn 4 [a] fun u => ∀ die, ∀ e ∈ (u.die die).fw, e.fn ≠ fn := by
  have run := exec_migout d lo hi (by decide) args (migReads_one a sb lb) (State.sysWord_ready ready) bound source
    fun _ => by rw [last]; rfl
  refine ⟨(s.dropFw fn fun _ => true).migStepDone fn 4, _, _, run, sysEnds_sysDone .., ?_, fun die e there own => ?_⟩
  · rw [State.migStepDone, State.fn_updFn]
  · have held : e ∈ ((s.dropFw fn fun _ => true).die die).fw := there
    exact absurd (State.mem_dropFw held own) (by decide)

theorem migout_release (args : number s a = fn + 5 * 2 ^ 8) (ready : SysReady s [a]) (last : (s.fn fn).migStep = 4) :
    ∃ u t, exec (.migout a sb lb d) s = .next t ∧ SysEnds u t [a] d 0 0
      ∧ (u.fn fn).queues = [] ∧ (u.fn fn).key = 0 ∧ (u.fn fn).migStep = 0 ∧ ∀ q, (u.quad q).owner ≠ some fn := by
  have run := exec_migout d lo hi (by decide) args (migReads_one a sb lb) (State.sysWord_ready ready) bound source
    fun _ => by rw [last]; rfl
  exact ⟨s.migRelease fn, _, run, sysEnds_pmEnd .., s.migRelease_spec fn⟩

end

/-! ## The obligation -/

/-- Settles O50: FNBIND's two forms, a lemma for each step of MIGOUT, the steps of MIGIN, and a page's arrival. -/
theorem bindAndMigrationWords : Obligations.BindAndMigrationWords := by
  unfold Obligations.BindAndMigrationWords
  refine ⟨fun s a b d fn lo hi ready => ⟨fun args good => ?bind, fun args none bound free unlocked => ?unbind⟩,
    fun s a b sb lb d fn n lo hi args second => ⟨fun bound source => ?out, fun one ready u binds => ?dest, fun three ready bound here last => ?place,
      fun five ready bound here last => ?restore⟩, fun s fn ipa page rest l inbox bound here begun mapped => ?page⟩
  case bind => exact ⟨_, _, exec_fnbind d ready lo hi args good, sysEnds_pmEnd .., s.bindFn_spec fn (number s b)⟩
  case unbind =>
    exact ⟨_, _, exec_fnbind_unbind d ready lo hi args none bound free unlocked, sysEnds_pmEnd .., s.unbindFn_spec fn⟩
  case out =>
    refine ⟨?_, ?_, ?_, ?_, ?_, ?_⟩ <;> rintro rfl
    · exact migout_abort lo hi bound source args
    · exact ⟨fun m => migout_clean lo hi bound source second args, migout_sent lo hi bound source second args⟩
    · exact ⟨migout_stop lo hi bound source second args, migout_drain lo hi bound source second args,
        migout_stopped lo hi bound source second args⟩
    · exact fun m => migout_send lo hi bound source second args
    · exact migout_forget lo hi bound source args
    · exact migout_release lo hi bound source args
  case dest =>
    subst one
    exact ⟨_, _, exec_migin_bind d ready lo hi args second binds, sysEnds_useFree .., State.migBind_spec binds⟩
  case place =>
    subst three
    refine ⟨_, _, _, exec_migin_place d ready lo hi args bound here last, sysEnds_useFree .., ?_⟩
    rw [State.migStepDone, State.fn_updFn]
    exact ⟨rfl, s.migPlace_quiesced fn⟩
  case restore =>
    subst five
    have noted : ((s.migRestore (s.fn fn).away).migStepDone fn 0).fn fn
        = { (s.migRestore (s.fn fn).away).fn fn with migStep := 0 } := State.fn_updFn ..
    obtain ⟨ended, opens⟩ := State.migOpen_spec (s := (s.migRestore (s.fn fn).away).migStepDone fn 0) (fn := fn)
      (by rw [noted])
    refine ⟨_, _, _, exec_migin_restore d ready lo hi args bound here last, sysEnds_useFree .., ?_⟩
    rw [State.fn_of_fns (State.pmEnd_fns ..)]
    refine ⟨ended, fun free => opens ?_⟩
    rw [noted, ← free]
    exact (FnsStand.migRestore (s.fn fn).away s).prot fn
  case page => exact ⟨_, exec_migrationPageArrival inbox bound here begun mapped, rfl⟩

end Sys2Proof.Machine
end
